-- ==== Sys2Proof/Word.lean ====
section
/-! DEFINITION. The words of the links, and the places of the plant: slots U1 to U8, unit ports A to H, waterways
W1 to W4, with one table type for each (a plain structure with one field a place). -/

namespace Sys2Proof

/-- One byte of a frame. -/
abbrev Byte := BitVec 8
/-- A 16-bit field of a frame (R180). -/
abbrev Half := BitVec 16
/-- A 32-bit field: a part-clock value, an entry number (R180, R61). -/
abbrev Word := BitVec 32

/-- The unit slots U1 to U8 (00_scope.md, Names). -/
inductive Slot where
  | u1 | u2 | u3 | u4 | u5 | u6 | u7 | u8
deriving DecidableEq, Repr, Inhabited

/-- U1 to U8, in order. -/
def Slot.all : List Slot := [.u1, .u2, .u3, .u4, .u5, .u6, .u7, .u8]

/-- The unit ports A to H (00_scope.md, Names). -/
inductive Port where
  | a | b | c | d | e | f | g | h
deriving DecidableEq, Repr, Inhabited

/-- A to H, in order. -/
def Port.all : List Port := [.a, .b, .c, .d, .e, .f, .g, .h]

/-- The waterways W1 to W4 (00_scope.md, Names). -/
inductive Waterway where
  | w1 | w2 | w3 | w4
deriving DecidableEq, Repr, Inhabited

/-- W1 to W4, in order. -/
def Waterway.all : List Waterway := [.w1, .w2, .w3, .w4]

/-- The nine serial links: the plant link and the eight unit links. -/
inductive Link where
  | plant | unit (p : Port)
deriving DecidableEq, Repr, Inhabited

/-- One value for each slot. -/
structure SlotMap (α : Type) where
  u1 : α
  u2 : α
  u3 : α
  u4 : α
  u5 : α
  u6 : α
  u7 : α
  u8 : α
deriving DecidableEq, Repr

def SlotMap.get {α : Type} (m : SlotMap α) : Slot → α
  | .u1 => m.u1
  | .u2 => m.u2
  | .u3 => m.u3
  | .u4 => m.u4
  | .u5 => m.u5
  | .u6 => m.u6
  | .u7 => m.u7
  | .u8 => m.u8

def SlotMap.set {α : Type} (m : SlotMap α) (i : Slot) (x : α) : SlotMap α :=
  match i with
  | .u1 => { m with u1 := x }
  | .u2 => { m with u2 := x }
  | .u3 => { m with u3 := x }
  | .u4 => { m with u4 := x }
  | .u5 => { m with u5 := x }
  | .u6 => { m with u6 := x }
  | .u7 => { m with u7 := x }
  | .u8 => { m with u8 := x }

/-- The table whose entry at `i` is `f i`. -/
def SlotMap.ofFn {α : Type} (f : Slot → α) : SlotMap α :=
  { u1 := f .u1, u2 := f .u2, u3 := f .u3, u4 := f .u4, u5 := f .u5, u6 := f .u6, u7 := f .u7, u8 := f .u8 }

/-- The table with one entry everywhere. -/
def SlotMap.const {α : Type} (x : α) : SlotMap α :=
  { u1 := x, u2 := x, u3 := x, u4 := x, u5 := x, u6 := x, u7 := x, u8 := x }

/-- One value for each unit port. -/
structure PortMap (α : Type) where
  a : α
  b : α
  c : α
  d : α
  e : α
  f : α
  g : α
  h : α
deriving DecidableEq, Repr

def PortMap.get {α : Type} (m : PortMap α) : Port → α
  | .a => m.a
  | .b => m.b
  | .c => m.c
  | .d => m.d
  | .e => m.e
  | .f => m.f
  | .g => m.g
  | .h => m.h

def PortMap.set {α : Type} (m : PortMap α) (i : Port) (x : α) : PortMap α :=
  match i with
  | .a => { m with a := x }
  | .b => { m with b := x }
  | .c => { m with c := x }
  | .d => { m with d := x }
  | .e => { m with e := x }
  | .f => { m with f := x }
  | .g => { m with g := x }
  | .h => { m with h := x }

/-- The table whose entry at `i` is `f i`. -/
def PortMap.ofFn {α : Type} (f : Port → α) : PortMap α :=
  { a := f .a, b := f .b, c := f .c, d := f .d, e := f .e, f := f .f, g := f .g, h := f .h }

/-- The table with one entry everywhere. -/
def PortMap.const {α : Type} (x : α) : PortMap α :=
  { a := x, b := x, c := x, d := x, e := x, f := x, g := x, h := x }

/-- One value for each waterway. -/
structure WaterwayMap (α : Type) where
  w1 : α
  w2 : α
  w3 : α
  w4 : α
deriving DecidableEq, Repr

def WaterwayMap.get {α : Type} (m : WaterwayMap α) : Waterway → α
  | .w1 => m.w1
  | .w2 => m.w2
  | .w3 => m.w3
  | .w4 => m.w4

def WaterwayMap.set {α : Type} (m : WaterwayMap α) (i : Waterway) (x : α) : WaterwayMap α :=
  match i with
  | .w1 => { m with w1 := x }
  | .w2 => { m with w2 := x }
  | .w3 => { m with w3 := x }
  | .w4 => { m with w4 := x }

/-- The table whose entry at `i` is `f i`. -/
def WaterwayMap.ofFn {α : Type} (f : Waterway → α) : WaterwayMap α :=
  { w1 := f .w1, w2 := f .w2, w3 := f .w3, w4 := f .w4 }

/-- The table with one entry everywhere. -/
def WaterwayMap.const {α : Type} (x : α) : WaterwayMap α :=
  { w1 := x, w2 := x, w3 := x, w4 := x }

end Sys2Proof
end

