-- ==== Sys2Proof/Config.lean ====
section
/-! DEFINITION. The free values: what the spec leaves open. None has a body, so nothing can be proved of its value. -/

namespace Sys2Proof

/-- FREE VALUE. The kind byte in the header of a REPLY frame sent for a request of class `cls` and kind `kind`: section 11.2
gives class 4 to REPLY and lists no kind for it (notes/assumptions/9.md). -/
opaque Config.replyHeaderKind (cls kind : Byte) : Byte

/-- FREE VALUE. The limits and powers read of a slot that has no capability record. R94 says that every mapped slot
has a record while the part governs, so only states that no run reaches read one (notes/assumptions/8.md). -/
opaque Config.genMinWithoutRecord (u : Slot) : Int
/-- FREE VALUE. As `Config.genMinWithoutRecord`, for gen_max. -/
opaque Config.genMaxWithoutRecord (u : Slot) : Int
/-- FREE VALUE. As `Config.genMinWithoutRecord`, for the rough zone. -/
opaque Config.zoneWithoutRecord (u : Slot) : Option (Int × Int)
/-- FREE VALUE. As `Config.genMinWithoutRecord`, for pump_power. -/
opaque Config.pumpWithoutRecord (u : Slot) : Int
/-- FREE VALUE. As `Config.genMinWithoutRecord`, for condense power. -/
opaque Config.condenseWithoutRecord (u : Slot) : Int
/-- FREE VALUE. The step timeout, in seconds, of a step ordered on a slot with no capability table: a granted slot is
dispatchable and so has a table (R7, R67), so only states that no run reaches read it (notes/assumptions/8.md). -/
opaque Config.timeoutWithoutTable (u : Slot) : Nat

end Sys2Proof
end

