-- ==== Sys2Proof/Machine/Framing.lean ====
section
/-! DEFINITION. Framing (R181): the CRC-16, a frame's bytes on either link, and the hunt of a
framer through a run of bytes. -/

namespace Sys2Proof.Machine

/-- The start byte of every frame. -/
def startByte : Byte := 0xA5

/-- The greatest announced payload length that is not over-long. -/
def maxLength : Nat := 240

/-- One of the eight shifts: the register is combined with 1021 hex when the bit shifted out was 1 (R181). -/
def crcShift (r : Half) : Half := if r.msb then (r <<< 1) ^^^ 0x1021 else r <<< 1

/-- One byte into the register (R181). -/
def crcByte (r : Half) (b : Byte) : Half :=
  let x := r ^^^ ((b ++ (0 : Byte) : BitVec 16))
  crcShift (crcShift (crcShift (crcShift (crcShift (crcShift (crcShift (crcShift x)))))))

/-- The CRC of a run of bytes: the register starts at FFFF hex, and there is no final inversion (R181). -/
def crc16 (bs : List Byte) : Half := bs.foldl crcByte 0xFFFF

/-- A frame from its body, the bytes from the length through the payload: start byte before it and CRC after it, high byte
first. -/
def frameOf (body : List Byte) : List Byte :=
  startByte :: body ++ [(crc16 body).extractLsb' 8 8, (crc16 body).extractLsb' 0 8]

/-- The number of header bytes after the length: class, kind and tag on the plant link, kind on a unit link. -/
def headerBytes : Link → Nat
  | .plant => 3
  | .unit _ => 1

/-- The bytes after a start byte begin with a frame that is complete: its body, then the CRC received. `none` while bytes are
missing. -/
def splitFrame (header : Nat) (rest : List Byte) : Option (List Byte × List Byte × List Byte) :=
  match rest with
  | [] => none
  | len :: _ =>
    let n := 1 + header + len.toNat
    if rest.length < n + 2 then none else some (rest.take n, (rest.drop n).take 2, rest.drop (n + 2))

/-- The received CRC matches the body's. -/
def crcMatches (body crc : List Byte) : Bool := crc == [(crc16 body).extractLsb' 8 8, (crc16 body).extractLsb' 0 8]

/-- What the hunt through a run of bytes comes to: the bodies of the frames that are whole and undamaged, in order, and what the
framer holds in the end. -/
structure Hunted where
  bodies : List (List Byte)
  held : Option (List Byte)
deriving DecidableEq, Repr

/-- One more frame, whole and undamaged, before what the rest of the hunt comes to. -/
def Hunted.handOn (body : List Byte) (h : Hunted) : Hunted := { h with bodies := body :: h.bodies }

/-- The hunt of a framer through a run of bytes (R181): bytes are passed over until a start byte, a frame that is whole and matches its
CRC is handed on, a damaged or over-long one is hunted through from the byte after its start byte, and the bytes after the start
byte of a frame still incomplete are held. `fuel` bounds the number of restarts by the number of bytes. -/
def huntFrom (header : Nat) : Nat → List Byte → Hunted
  | 0, _ => { bodies := [], held := none }
  | _, [] => { bodies := [], held := none }
  | fuel + 1, b :: rest =>
    if b ≠ startByte then huntFrom header fuel rest
    else match rest with
      | [] => { bodies := [], held := some [] }
      | len :: _ =>
        if maxLength < len.toNat then huntFrom header fuel rest
        else match splitFrame header rest with
          | none => { bodies := [], held := some rest }
          | some (body, crc, after) =>
            if crcMatches body crc then (huntFrom header fuel after).handOn body else huntFrom header fuel rest

/-- The hunt through a run of bytes on a link. -/
def hunt (l : Link) (bytes : List Byte) : Hunted := huntFrom (headerBytes l) bytes.length bytes

end Sys2Proof.Machine
end

