-- ==== Sys2Proof/Syntax.lean ====
section
/-! DEFINITION. The commands: one constructor for each row of spec/opcode_table.json. A frame's command carries the raw
fields of its payload (R182, R183), so an operand takes every value the frame can carry; a MANAGE or QUERY command also
carries the frame's tag, which its reply repeats (R157). Dispatch frames get no reply (R156), so their tag is not carried.
A timer's command names the slot, port or waterway whose timer it is. -/

namespace Sys2Proof

inductive Instr where
  /-- Power-on (R166). -/
  | powerOn
  /-- The falling edge of the reset input (R165). -/
  | resetInput
  /-- The part clock advances by one second (R115, R171). -/
  | partClockAdvance
  /-- A frame whose CRC does not match or whose length is over 240, as the bytes received from its start byte on (R181). -/
  | frameDiscarded (link : Link) (bytes : List Byte)
  /-- No byte for 1 s while the framer of `link` collects (R181). -/
  | framerIdleTimeout (link : Link)
  /-- A well-framed plant-link frame of unknown class or kind, or of a wrong payload length (R155). -/
  | unknownFrame (cls kind tag : Byte)
  /-- The frame being sent on a unit port has left it (R141). -/
  | transmitComplete (p : Port)
  | base (target : Half) (increment : Option Half)
  | reg (increment : Half)
  | levels (upper lower : Half)
  | unitHold (slot mode : Byte) (setpoint : Option Half)
  | unitRelease (slot : Byte)
  | emergencyStop (slot : Byte)
  | configSet (tag param : Byte) (value : Word) (port : Byte)
  | configGet (tag param port : Byte)
  | loadBegin (tag position rows : Byte)
  | loadRow (tag index : Byte) (row : List Byte)
  | loadEnd (tag : Byte)
  | loadAbort (tag : Byte)
  | profileDefine (tag : Byte) (name : List Byte) (count : Half) (interval rep : Byte) (fill : Option Half)
  | profileWrite (tag : Byte) (name : List Byte) (first : Half) (count : Byte) (values : List Half)
  | profileRead (tag : Byte) (name : List Byte) (first : Half) (count : Byte)
  | profileDelete (tag : Byte) (name : List Byte)
  | profileDeleteAll (tag : Byte)
  | play (tag : Byte) (name : List Byte)
  | stopPlay (tag : Byte)
  | sourceSet (tag source : Byte)
  | patternSet (tag : Byte) (low high period : Half) (shape : Byte)
  | enable (tag : Byte)
  | disable (tag : Byte)
  | resume (tag : Byte)
  | restart (tag : Byte)
  | mapSet (tag slot port : Byte)
  | expectSet (tag slot number : Byte)
  | rotationSet (tag : Byte) (slots : List Byte)
  | rotate (tag : Byte)
  | clearUnit (tag slot : Byte)
  | releaseResources (tag slot : Byte)
  | lineSet (tag line selection polarity : Byte)
  | statusReq (tag : Byte)
  | unitReq (tag slot : Byte)
  | tableRead (tag position row : Byte)
  | eventRead (tag : Byte)
  | profileCatalog (tag : Byte) (start : Option Byte)
  | ident (p : Port) (number : Byte)
  | status (p : Port) (mode : Byte) (power : Half) (remote available converter cause : Byte)
  | orderAck (p : Port) (tag result cause : Byte)
  /-- An edge on MARK_IN, rising or falling (R134). -/
  | markerInputEdge (rising : Bool)
  | dispatchLivenessExpiry
  | levelTimerExpiry
  | dwellTimerExpiry
  | backoffExpiry (u : Slot)
  | leadTimerExpiry (u : Slot)
  | ackTimerExpiry (u : Slot)
  | stepTimerExpiry (u : Slot)
  | settleTimerExpiry (w : Waterway)
  | warningPhaseEnd (w : Waterway)
  | probeTimerExpiry (p : Port)
  | statusLivenessExpiry (p : Port)
  | intervalTimerBoundary
  | planSwitchingTime
  | rampSwitchingTime
  | holdoverBoundary
  | patternPeriodExpiry
  | markerPulseEnd
  /-- A well-framed unit-link frame of another kind, of a wrong length or malformed (R140). -/
  | unitLinkFrameDiscarded (p : Port)
deriving DecidableEq, Repr

end Sys2Proof
end

