-- ==== Sys2Proof/Machine/State.lean ====
section
/-! DEFINITION. The state of the part, block by block (00_scope.md, "Block overview"), as plain data, and its value after
power-on. What a rule says is formed afresh whenever it is read, or equals a function of other state, is computed
(Machine/Ops.lean, Flags.lean, Capability.lean, Scheduler.lean) and not stored twice (notes/assumptions/27.md).
Powers, heads and levels are whole numbers of 0.1 steps (00_scope.md, "Quantities"). -/

namespace Sys2Proof.Machine

/-- The four stable modes (00_scope.md, "Unit modes and steps"). -/
inductive Stable where
  | ss | gen | pmp | cnd
deriving DecidableEq, Repr, Inhabited

/-- The five kinds of step. -/
inductive StepKind where
  | gStart | pStart | prime | deprime | stop
deriving DecidableEq, Repr, Inhabited

/-- A reported mode: a stable mode, a step's own name, or TRIP. -/
inductive Reported where
  | stable (m : Stable)
  | step (k : StepKind)
  | trip
deriving DecidableEq, Repr, Inhabited

/-- A step with its origin, the stable mode it begins from (R60). -/
structure PathStep where
  kind : StepKind
  origin : Stable
deriving DecidableEq, Repr, Inhabited

/-- The starting converters C1 and C2. -/
inductive Conv where
  | c1 | c2
deriving DecidableEq, Repr, Inhabited

/-! ## Plant Link Interface -/

inductive Substate where
  | linkDown | awaitResume
deriving DecidableEq, Repr, Inhabited

/-- The part state, with the substate of FALLBACK (R159). -/
inductive PartState where
  | standby
  | dispatching
  | fallback (sub : Substate)
deriving DecidableEq, Repr, Inhabited

/-- A link's framer (R181): hunting (`none`), or collecting, with the bytes received after the start byte. -/
abbrev Framer := Option (List Byte)

inductive MarkerMode where
  | lead | follow
deriving DecidableEq, Repr, Inhabited

inductive Polarity where
  | pos | neg
deriving DecidableEq, Repr, Inhabited

/-- The configuration parameters of R170, but for ack_mode, which stands in the port record (R143). The defaults are
R170's. -/
structure Params where
  rampRate : Nat := 50
  regLimit : Nat := 1000
  deadband : Nat := 5
  dwell : Nat := 30
  planAdvance : Nat := 0
  rampAdvance : Nat := 0
  linkTimeout : Nat := 10
  levelTimeout : Nat := 120
  unitTimeout : Nat := 3
  ackTimeout : Nat := 2
  refusalBackoff : Nat := 60
  headLoss : Nat := 0
  headOverride : Nat := 0
  converters : Nat := 1
  maxConcurrent : Nat := 2
  markerMode : MarkerMode := .lead
  markerDivider : Nat := 1
  markerPolarity : Polarity := .pos
  markerOutWidth : Nat := 5
  autoResume : Bool := false
deriving DecidableEq, Repr

/-- Row 0 of a capability table (section 2.1): the count and the timeouts as stored (R23). -/
structure CapHeader where
  count : Nat
  condense : Int
  gStart : Nat
  pStart : Nat
  prime : Nat
  deprime : Nat
  stop : Nat
deriving DecidableEq, Repr

/-- A breakpoint row of a capability table (section 2.1). -/
structure Breakpoint where
  head : Nat
  genMin : Int
  genMax : Int
  rzLo : Int
  rzHi : Int
  pump : Int
deriving DecidableEq, Repr

/-- A row of the mode plan table (section 3.1). -/
structure PlanRow where
  lower : Int
  upper : Int
  nPmp : Nat
  nCnd : Nat
  nGen : Nat
deriving DecidableEq, Repr

/-- Rows 0 to 3 of the waterway table (R86); `mixing` and `kinds` as their bytes (section 11.4), times in their own steps. -/
structure WaterwayRow where
  slots : Nat
  settle : Nat
  mixing : Byte
  kinds : Byte
  lead : Nat
  firstHigh : Nat
  high : Nat
  low : Nat
  count : Nat
deriving DecidableEq, Repr

/-- A row as the shadow buffer keeps it. -/
inductive Row where
  | capHeader (h : CapHeader)
  | breakpoint (b : Breakpoint)
  | plan (r : PlanRow)
  | waterway (r : WaterwayRow)
  | places (numbers : List Byte)
deriving DecidableEq, Repr

/-- The ten positions a load can name (R167). -/
inductive TablePos where
  | cap (u : Slot)
  | plan
  | waterway
deriving DecidableEq, Repr

/-- The open shadow buffer (R167): the rows received, each under its index, in rising order of index. -/
structure Load where
  pos : TablePos
  count : Nat
  rows : List (Nat × Row)
deriving DecidableEq, Repr

structure Pli where
  clock : Word
  part : PartState
  /-- Expiry of the dispatch-liveness timer; `none` while stopped. -/
  liveness : Option Word
  linkSilent : Bool
  load : Option Load
  framer : Framer
  params : Params
deriving DecidableEq, Repr

/-! ## Unit Link Interfaces -/

inductive PortState where
  | unused | down | probing | qualified | mismatch | lost
deriving DecidableEq, Repr, Inhabited

/-- The frames the part sends down a port (R141). -/
inductive UnitFrame where
  | probe
  | modeOrder (kind : StepKind) (conv : Option Conv) (tag : Byte)
  | setpoint (value : Int)
deriving DecidableEq, Repr

inductive Purpose where
  | supervised | emergency | timeoutStop
deriving DecidableEq, Repr, Inhabited

/-- The outstanding order of a port (R150). The acknowledgement expiry of a SUPERVISED order is its request's. -/
structure Outstanding where
  tag : Byte
  kind : StepKind
  purpose : Purpose
deriving DecidableEq, Repr

inductive AckMode where
  | confirmed | unconfirmed
deriving DecidableEq, Repr, Inhabited

/-- The port record of R143, with the frame being sent (R141) and the port's framer (R181). -/
structure PortRec where
  state : PortState
  probe : Option Word
  liveness : Option Word
  lastMachine : Option Byte
  tagCounter : Byte
  outstanding : Option Outstanding
  sending : Option UnitFrame
  queue : List UnitFrame
  ackMode : AckMode
  framer : Framer
deriving DecidableEq, Repr

/-! ## Unit Roster -/

/-- The reported fields, which are never heard together and written together (R3). -/
structure Report where
  mode : Reported
  power : Int
  remote : Bool
  available : Bool
  conv : Option Conv
deriving DecidableEq, Repr

/-- An operator hold (R13, R14, R16, R17). -/
structure Hold where
  mode : Stable
  requested : Option Int
  settled : Option Int
  emergency : Bool
  stopOutstanding : Bool
deriving DecidableEq, Repr

/-- The last setpoint sent: its value and the part clock at its sending (R6). -/
structure SentSetpoint where
  value : Int
  time : Word
deriving DecidableEq, Repr

/-- A unit record (section 1.1), less the fields that are other records' (port state, request, waterway). -/
structure UnitRec where
  port : Option Port
  expected : Byte
  report : Option Report
  hold : Option Hold
  trip : Bool
  fault : Bool
  backoff : Option Word
  lastSetpoint : Option SentSetpoint
deriving DecidableEq, Repr

structure Ros where
  units : SlotMap UnitRec
  rotation : List Slot
deriving DecidableEq, Repr

/-! ## Capability Store and Head Estimator -/

structure CapTable where
  header : CapHeader
  points : List Breakpoint
deriving DecidableEq, Repr

/-- An interpolated capability record (R27). -/
structure CapRecord where
  genMin : Int
  genMax : Int
  zone : Option (Int × Int)
  pump : Int
  condense : Int
  extrapolated : Bool
deriving DecidableEq, Repr

structure Head where
  caps : SlotMap (Option CapTable)
  /-- Upper and lower elevation last received. -/
  levels : Option (Nat × Nat)
  estimate : Option Nat
  levelTimer : Option Word
  stale : Bool
  clamped : Bool
deriving DecidableEq, Repr

inductive HeadSource where
  | none | estimate | override
deriving DecidableEq, Repr, Inhabited

/-! ## Target Stage -/

inductive Source where
  | direct | profile | pattern
deriving DecidableEq, Repr, Inhabited

inductive Shape where
  | square | stair
deriving DecidableEq, Repr, Inhabited

structure Pattern where
  low : Int
  high : Int
  period : Nat
  shape : Shape
deriving DecidableEq, Repr

/-- The running pattern generator (R122). -/
structure PatternRun where
  pos : Nat
  expiry : Word
deriving DecidableEq, Repr

structure Tgt where
  source : Source
  reqBase : Int
  plan : Int
  ramped : Int
  increment : Int
  clamped : Bool
  pattern : Pattern
  run : Option PatternRun
deriving DecidableEq, Repr

/-! ## Profile Store and Interval Clock -/

/-- A defined profile (R123); its entry count is the length of its entries. -/
structure Profile where
  name : List Byte
  minutes : Nat
  rep : Bool
  entries : List Int
deriving DecidableEq, Repr

inductive PlayState where
  | idle | armed | aligned | playing | ended
deriving DecidableEq, Repr, Inhabited

/-- The playback record (R128). -/
structure Playback where
  profile : Option (List Byte)
  state : PlayState
  current : Option Nat
  last : Option Word
  next : Option Word
  planHanded : Bool
  rampHanded : Bool
  markerLost : Bool
deriving DecidableEq, Repr

structure Prf where
  /-- The directory, oldest first (R123). -/
  dir : List Profile
  playback : Playback
  divider : Nat
  /-- The marker output pulse under way, as the width (0.1 s) it began with (R138). -/
  pulse : Option Nat
deriving DecidableEq, Repr

/-! ## Mode Planner -/

/-- The proposed row with the dwell timer, which runs exactly while a proposal stands (R47, R49). -/
structure Proposal where
  row : Nat
  expiry : Word
deriving DecidableEq, Repr

structure Pln where
  table : Option (List PlanRow)
  selected : Option Nat
  proposal : Option Proposal
  desired : SlotMap (Option Stable)
  gap : Bool
  short : Bool
  shortPmp : Nat
  shortGen : Nat
  shortCnd : Nat
deriving DecidableEq, Repr

/-! ## Transition Scheduler -/

inductive ReqClass where
  | manual | automatic
deriving DecidableEq, Repr, Inhabited

inductive ReqState where
  | waiting | warning | ordered | inStep
deriving DecidableEq, Repr, Inhabited

inductive Blocked where
  | converter | waterway | settle | concurrency | mixing
deriving DecidableEq, Repr, Inhabited

/-- A transition request (section 4.2). `index` counts from 1. `redirected` is the model's own: the destination was replaced
during the current step, which R73 asks. -/
structure Request where
  cls : ReqClass
  dest : Stable
  path : List PathStep
  index : Nat
  state : ReqState
  entry : Word
  conv : Option Conv
  slotHeld : Bool
  seen : Bool
  tag : Option Byte
  startedAt : Option Word
  leadExpiry : Option Word
  ackExpiry : Option Word
  stepExpiry : Option Word
  blocked : Option Blocked
  redirected : Bool
deriving DecidableEq, Repr

/-- An orphan record (R79). -/
structure Orphan where
  conv : Option Conv
  slotHeld : Bool
  place : Bool
deriving DecidableEq, Repr

inductive HolderKind where
  | granted | orphaned | observed
deriving DecidableEq, Repr, Inhabited

/-- The holder of a HELD converter (R85). A FREE converter has none. -/
structure Holder where
  slot : Slot
  kind : HolderKind
deriving DecidableEq, Repr

/-- A running warning generator (R87, R88): the pulse number, the phase, and the phase's end as the part clock at its start
and its length in 0.1 s. -/
structure Generator where
  pulse : Nat
  high : Bool
  began : Word
  tenths : Nat
deriving DecidableEq, Repr

/-- A waterway record (R87). `warned` names the slots whose granted step is among the warned steps. -/
structure WaterwayRec where
  row : WaterwayRow
  inProgress : Nat
  settle : Option Word
  warned : List Slot
  generator : Option Generator
deriving DecidableEq, Repr

/-- The waterway table in force with its records: present once a table has been committed (R87). -/
structure Waterways where
  recs : WaterwayMap WaterwayRec
  place : SlotMap Waterway
deriving DecidableEq, Repr

structure Trs where
  requests : SlotMap (Option Request)
  entryCounter : Word
  orphans : SlotMap (Option Orphan)
  c1 : Option Holder
  c2 : Option Holder
  waterways : Option Waterways
deriving DecidableEq, Repr

/-! ## Setpoint Allocator -/

/-- The lines of the contribution table of R93, in its order. -/
inductive Line where
  | outside | stopped | step | pumping | condensing | genOut | genHeld | regulating | genOther
deriving DecidableEq, Repr, Inhabited

/-- What the last allocation recorded for a slot (R90, R93): line, value, share before remainder (R97), share before zones (R98),
moved mark (R99). The three last are of regulating units; a saturated one has no share before remainder. -/
structure SlotShare where
  line : Line
  value : Int
  beforeRemainder : Option Int
  beforeZones : Option Int
  moved : Bool
deriving DecidableEq, Repr

structure Allocation where
  target : Int
  shares : SlotMap SlotShare
deriving DecidableEq, Repr

structure Alc where
  last : Option Allocation
  shortfall : Int
  lowSat : Bool
  highSat : Bool
  zoneShort : Bool
deriving DecidableEq, Repr

/-! ## Status and Event Unit -/

/-- The event kinds of section 10.5, in its order. -/
inductive EventKind where
  | poweredUp | restarted | rowAdopted | planGap | planShort | stepOrdered | stepDone | stepRefused | stepAborted
  | stepTimeout | unitTrip | holdAdjusted | portQualified | portMismatch | portLost | converterConflict
  | fallbackEntered | fallbackLeft | profileStarted | profileEnded | markerLost | markerRestored | loadSuperseded
  | tableCommitted | headStale | lowSat | highSat | zoneShort
deriving DecidableEq, Repr, Inhabited

/-- An event record (R175). -/
structure Event where
  seq : Half
  time : Word
  kind : EventKind
  slot : Option Slot
  value : Option Int
deriving DecidableEq, Repr

/-- The selections of R178, in its order. -/
inductive Selection where
  | boundary | fallback | converterBusy | transition | saturated | planGap | forcedLow | forcedHigh
deriving DecidableEq, Repr, Inhabited

structure MonitorLine where
  selection : Selection
  activeLow : Bool
deriving DecidableEq, Repr

structure Ste where
  /-- The event queue, oldest first. -/
  events : List Event
  seq : Half
  eventsLost : Bool
  m1 : MonitorLine
  m2 : MonitorLine
deriving DecidableEq, Repr

/-! ## The whole part -/

/-- The reply codes of R157, in the order of section 11.2. -/
inductive Code where
  | ok | clamped | state | busy | notFound | exists_ | noSpace | invalid | incomplete | noLoad | unknown
deriving DecidableEq, Repr, Inhabited

/-- A frame the part sends up the plant link: a REPLY (R157, section 11.5) or the periodic plant status (R171). -/
inductive PlantFrame where
  | reply (tag cls kind : Byte) (code : Code) (detail : Half) (body : List Byte)
  | plantStatus (body : List Byte)
deriving DecidableEq, Repr

/-- The state of the part. `pending`, `plantOut` and `unitOut` are the model's own: the commands that wait, the frames sent up
the plant link so far, and the frames put on the unit links so far, each oldest first. -/
structure State where
  pending : List Instr
  pli : Pli
  ports : PortMap PortRec
  ros : Ros
  head : Head
  tgt : Tgt
  prf : Prf
  pln : Pln
  trs : Trs
  alc : Alc
  ste : Ste
  plantOut : List PlantFrame
  unitOut : List (Port × UnitFrame)
deriving DecidableEq, Repr

/-- The spec names no fault that stops the part: every ill-formed, unknown or untimely input is answered, discarded or without
effect. So no command faults, and the type has no constructor. -/
inductive Fault where
deriving DecidableEq, Repr

/-- Why a command has no meaning. -/
inductive Refusal where
  /-- Raised by the dispatch alone, for a command without a meaning in this model. Safe: the model stops where the part goes on.
  No arm raises it now. -/
  | notModelled (mnemonic : String)
deriving DecidableEq, Repr

/-- The port record after power-on (R143): DOWN, the probe timer expiring 2 s after power-on. -/
def PortRec.reset : PortRec :=
  { state := .down, probe := some 2, liveness := none, lastMachine := none, tagCounter := 0, outstanding := none,
    sending := none, queue := [], ackMode := .confirmed, framer := none }

/-- The unit record after power-on (section 1.6): slot Un mapped to the n-th port and expecting machine number n (R1, R2). -/
def UnitRec.reset (p : Port) (n : Byte) : UnitRec :=
  { port := some p, expected := n, report := none, hold := none, trip := false, fault := false, backoff := none,
    lastSetpoint := none }

/-- The playback record of R128 after power-on and after RESTART. -/
def Playback.idle : Playback :=
  { profile := none, state := .idle, current := none, last := none, next := none, planHanded := false, rampHanded := false,
    markerLost := false }

/-- The planner's own state after power-on, RESTART and DISABLE (R42), over the table it has. -/
def Pln.cleared (table : Option (List PlanRow)) : Pln :=
  { table := table, selected := none, proposal := none, desired := .const none, gap := false, short := false,
    shortPmp := 0, shortGen := 0, shortCnd := 0 }

/-- The allocator's state after power-on, RESTART and DISABLE (R90). -/
def Alc.cleared : Alc := { last := none, shortfall := 0, lowSat := false, highSat := false, zoneShort := false }

/-- The state right after power-on (R166 and the tables of sections 1.6 and 4.11 and of R32, R42, R90, R109, R128, R143 and
R159): no table, every parameter at its default, one POWERED_UP event (R177). -/
def State.reset : State :=
  { pending := []
    pli := { clock := 0, part := .standby, liveness := none, linkSilent := false, load := none, framer := none, params := {} }
    ports := .const PortRec.reset
    ros :=
      { units :=
          { u1 := .reset .a 1, u2 := .reset .b 2, u3 := .reset .c 3, u4 := .reset .d 4,
            u5 := .reset .e 5, u6 := .reset .f 6, u7 := .reset .g 7, u8 := .reset .h 8 }
        rotation := Slot.all }
    head := { caps := .const none, levels := none, estimate := none, levelTimer := none, stale := false, clamped := false }
    tgt :=
      { source := .direct, reqBase := 0, plan := 0, ramped := 0, increment := 0, clamped := false,
        pattern := { low := 0, high := 0, period := 60, shape := .square }, run := none }
    prf := { dir := [], playback := .idle, divider := 0, pulse := none }
    pln := .cleared none
    trs := { requests := .const none, entryCounter := 0, orphans := .const none, c1 := none, c2 := none, waterways := none }
    alc := .cleared
    ste :=
      { events := [{ seq := 0, time := 0, kind := .poweredUp, slot := none, value := none }]
        seq := 1
        eventsLost := false
        m1 := { selection := .fallback, activeLow := false }
        m2 := { selection := .transition, activeLow := false } }
    plantOut := []
    unitOut := [] }

end Sys2Proof.Machine
end

