-- ==== Sys2Proof/Machine/Operands.lean ====
section
/-! DEFINITION. The operand forms: the codes of section 11.2, the byte forms of R180, the ranges of 00_scope.md and the
long-timer coding, both ways (as a frame carries them, and as a reply or a status body sends them). -/

namespace Sys2Proof.Machine

/-! ## Numbers as bytes, most significant byte first (R180) -/

def hiByte (h : Half) : Byte := h.extractLsb' 8 8
def loByte (h : Half) : Byte := h.extractLsb' 0 8
/-- The 16-bit field whose bytes are `hi`, `lo`. -/
def halfOf (hi lo : Byte) : Half := hi ++ lo
def wordBytes (w : Word) : List Byte := [w.extractLsb' 24 8, w.extractLsb' 16 8, w.extractLsb' 8 8, w.extractLsb' 0 8]
/-- The 32-bit field whose bytes are `a`, `b`, `c`, `d`. -/
def wordOf (a b c d : Byte) : Word := ((a ++ b : BitVec 16) ++ (c ++ d : BitVec 16) : BitVec 32)
def halfBytes (h : Half) : List Byte := [hiByte h, loByte h]

/-- A number in one byte. -/
def byte (n : Nat) : Byte := BitVec.ofNat 8 n
/-- An unsigned number in two bytes. -/
def nat16 (n : Nat) : List Byte := halfBytes (BitVec.ofNat 16 n)
/-- A signed number in two bytes, in two's complement. -/
def int16 (i : Int) : List Byte := halfBytes (BitVec.ofInt 16 i)
/-- A signed number in four bytes. -/
def int32 (i : Int) : List Byte := wordBytes (BitVec.ofInt 32 i)
def flagByte (b : Bool) : Byte := if b then 1 else 0
/-- A signed field that is −32768 when absent (R183, section 11.5). -/
def optInt16 (v : Option Int) : List Byte := int16 (v.getD (-32768))
/-- A part-clock field that is FFFFFFFF hex when absent (R183, section 11.5). -/
def optWord (v : Option Word) : List Byte := wordBytes (v.getD 0xFFFFFFFF)

/-! ## Ranges (00_scope.md, "Quantities") -/

def clampInt (lo hi v : Int) : Int := if v < lo then lo else if hi < v then hi else v
def clampNat (lo hi v : Nat) : Nat := if v < lo then lo else if hi < v then hi else v

/-- The greatest plant target, 3200.0 MW. -/
def plantMax : Int := 32000
/-- Brought into −3200.0 … +3200.0 MW (R110). -/
def clampPlant (v : Int) : Int := clampInt (-plantMax) plantMax v
/-- Brought into −500.0 … +500.0 MW (R3, R13). -/
def clampUnit (v : Int) : Int := clampInt (-5000) 5000 v
/-- Brought into 0.0 … 3000.0 m (R33). -/
def clampLevel (v : Nat) : Nat := clampNat 0 30000 v

/-- The next representable long-timer value at or above `n`, and 1500 s above that, for `n` of 1 or more (R23, R170;
00_scope.md, "Long-timer values"). -/
def longTimer (n : Nat) : Nat :=
  if n ≤ 15 then n
  else if n ≤ 150 then max 20 ((n + 9) / 10 * 10)
  else if n ≤ 1500 then max 200 ((n + 99) / 100 * 100)
  else 1500

/-- Whether a number of seconds is a long-timer value. -/
def isLongTimer (n : Nat) : Bool := 1 ≤ n && longTimer n == n

/-! ## Codes (section 11.2) -/

/-- 1 … 8 name U1 … U8. -/
def slotOfCode (c : Byte) : Option Slot :=
  match c.toNat with
  | 1 => some .u1 | 2 => some .u2 | 3 => some .u3 | 4 => some .u4
  | 5 => some .u5 | 6 => some .u6 | 7 => some .u7 | 8 => some .u8
  | _ => none

def slotCode : Slot → Byte
  | .u1 => 1 | .u2 => 2 | .u3 => 3 | .u4 => 4 | .u5 => 5 | .u6 => 6 | .u7 => 7 | .u8 => 8

/-- 1 … 8 name A … H. -/
def portOfCode (c : Byte) : Option Port :=
  match c.toNat with
  | 1 => some .a | 2 => some .b | 3 => some .c | 4 => some .d
  | 5 => some .e | 6 => some .f | 7 => some .g | 8 => some .h
  | _ => none

def portCode : Port → Byte
  | .a => 1 | .b => 2 | .c => 3 | .d => 4 | .e => 5 | .f => 6 | .g => 7 | .h => 8

def waterwayOfCode (c : Byte) : Option Waterway :=
  match c.toNat with
  | 1 => some .w1 | 2 => some .w2 | 3 => some .w3 | 4 => some .w4
  | _ => none

def waterwayCode : Waterway → Byte
  | .w1 => 1 | .w2 => 2 | .w3 => 3 | .w4 => 4

/-- Mode and step codes 0 … 9; another code is no mode (R142, R182). -/
def reportedOfCode (c : Byte) : Option Reported :=
  match c.toNat with
  | 0 => some (.stable .ss) | 1 => some (.step .gStart) | 2 => some (.stable .gen) | 3 => some (.step .pStart)
  | 4 => some (.stable .cnd) | 5 => some (.step .prime) | 6 => some (.stable .pmp) | 7 => some (.step .deprime)
  | 8 => some (.step .stop) | 9 => some .trip
  | _ => none

def stableCode : Stable → Nat
  | .ss => 0 | .gen => 2 | .cnd => 4 | .pmp => 6

/-- A step kind is carried by its mode code. -/
def stepCode : StepKind → Nat
  | .gStart => 1 | .pStart => 3 | .prime => 5 | .deprime => 7 | .stop => 8

def reportedCode : Reported → Nat
  | .stable m => stableCode m
  | .step k => stepCode k
  | .trip => 9

/-- The modes a hold can name (R13). -/
def stableOfCode (c : Byte) : Option Stable :=
  match reportedOfCode c with
  | some (.stable m) => some m
  | _ => none

/-- 1 is C1, 2 is C2; 0 is absent, and so is any other code in a STATUS (R142, R182). -/
def convOfCode (c : Byte) : Option Conv :=
  match c.toNat with
  | 1 => some .c1 | 2 => some .c2
  | _ => none

def convNumber : Conv → Nat
  | .c1 => 1 | .c2 => 2

def convCode (c : Option Conv) : Byte := (c.map (fun k => byte (convNumber k))).getD 0

/-- Yes and no; another code is malformed on a unit link (R142, R182). -/
def yesNoOfCode (c : Byte) : Option Bool :=
  match c.toNat with
  | 0 => some false | 1 => some true
  | _ => none

def tablePosOfCode (c : Byte) : Option TablePos :=
  match c.toNat with
  | 9 => some .plan | 10 => some .waterway
  | _ => (slotOfCode c).map .cap

def tablePosCode : TablePos → Nat
  | .cap u => (slotCode u).toNat
  | .plan => 9 | .waterway => 10

def replyCode : Code → Byte
  | .ok => 0 | .clamped => 1 | .state => 2 | .busy => 3 | .notFound => 4 | .exists_ => 5 | .noSpace => 6 | .invalid => 7
  | .incomplete => 8 | .noLoad => 9 | .unknown => 10

def sourceOfCode (c : Byte) : Option Source :=
  match c.toNat with
  | 0 => some .direct | 1 => some .profile | 2 => some .pattern
  | _ => none

def sourceCode : Source → Byte
  | .direct => 0 | .profile => 1 | .pattern => 2

def shapeOfCode (c : Byte) : Option Shape :=
  match c.toNat with
  | 0 => some .square | 1 => some .stair
  | _ => none

def shapeCode : Shape → Byte
  | .square => 0 | .stair => 1

def selectionOfCode (c : Byte) : Option Selection :=
  match c.toNat with
  | 0 => some .boundary | 1 => some .fallback | 2 => some .converterBusy | 3 => some .transition | 4 => some .saturated
  | 5 => some .planGap | 6 => some .forcedLow | 7 => some .forcedHigh
  | _ => none

def selectionCode : Selection → Byte
  | .boundary => 0 | .fallback => 1 | .converterBusy => 2 | .transition => 3 | .saturated => 4 | .planGap => 5
  | .forcedLow => 6 | .forcedHigh => 7

def portStateCode : PortState → Byte
  | .unused => 0 | .down => 1 | .probing => 2 | .qualified => 3 | .mismatch => 4 | .lost => 5

def purposeCode : Purpose → Byte
  | .supervised => 1 | .emergency => 2 | .timeoutStop => 3

def reqStateCode : ReqState → Byte
  | .waiting => 0 | .warning => 1 | .ordered => 2 | .inStep => 3

def blockedCode : Option Blocked → Byte
  | none => 0
  | some .converter => 1 | some .waterway => 2 | some .settle => 3 | some .concurrency => 4 | some .mixing => 5

/-- 1 … 9 in the order of the table of R93. -/
def lineCode : Line → Byte
  | .outside => 1 | .stopped => 2 | .step => 3 | .pumping => 4 | .condensing => 5 | .genOut => 6 | .genHeld => 7
  | .regulating => 8 | .genOther => 9

def playStateCode : PlayState → Byte
  | .idle => 0 | .armed => 1 | .aligned => 2 | .playing => 3 | .ended => 4

/-- Numbered from 1 in the order of section 10.5 (R184). -/
def eventKindCode : EventKind → Byte
  | .poweredUp => 1 | .restarted => 2 | .rowAdopted => 3 | .planGap => 4 | .planShort => 5 | .stepOrdered => 6 | .stepDone => 7
  | .stepRefused => 8 | .stepAborted => 9 | .stepTimeout => 10 | .unitTrip => 11 | .holdAdjusted => 12 | .portQualified => 13
  | .portMismatch => 14 | .portLost => 15 | .converterConflict => 16 | .fallbackEntered => 17 | .fallbackLeft => 18
  | .profileStarted => 19 | .profileEnded => 20 | .markerLost => 21 | .markerRestored => 22 | .loadSuperseded => 23
  | .tableCommitted => 24 | .headStale => 25 | .lowSat => 26 | .highSat => 27 | .zoneShort => 28

/-! ## Name fields (R123, R182) -/

def isNameByte (b : Byte) : Bool :=
  (0x41 ≤ b.toNat && b.toNat ≤ 0x5A) || (0x61 ≤ b.toNat && b.toNat ≤ 0x7A) || (0x30 ≤ b.toNat && b.toNat ≤ 0x39)
    || b.toNat == 0x5F

/-- A byte 61 … 7A hex is taken as the byte 20 hex below it. -/
def upperByte (b : Byte) : Byte := if 0x61 ≤ b.toNat && b.toNat ≤ 0x7A then b - 0x20 else b

/-- The name a name field carries, in its stored form; `none` when it is not well-formed: its non-zero bytes come first,
number 1 … 12, and are each a letter, a digit or the underscore. -/
def nameOfField (field : List Byte) : Option (List Byte) :=
  let chars := field.takeWhile (· != 0)
  if 1 ≤ chars.length && chars.length ≤ 12 && chars.all isNameByte && (field.drop chars.length).all (· == 0)
  then some (chars.map upperByte)
  else none

/-- A name in its 12-byte field: its characters, then zero bytes. -/
def nameField (name : List Byte) : List Byte := (name ++ List.replicate 12 0).take 12

/-! ## Time -/

/-- The part-clock value `n` seconds after `t`; the clock counts modulo 2^32 (R166). -/
def later (t : Word) (n : Nat) : Word := t + BitVec.ofNat 32 n

/-- The part clock `now` has reached `t`: less than half the clock's range lies from `t` to `now`. -/
def reached (now t : Word) : Bool := decide ((now - t).toNat < 0x80000000)

/-- Seconds from `t` to `now`. -/
def elapsed (now t : Word) : Nat := (now - t).toNat

/-- A running timer whose expiry the clock has reached; a stopped timer never expires. -/
def timerDue (now : Word) (t : Option Word) : Bool := t.any (reached now)

end Sys2Proof.Machine
end

