-- ==== Sys2Proof/WellFormed.lean ====
section
/-! DEFINITION. Which commands a link can carry: the payload lengths that R182 and R183 give the frames of varying length,
and the shape of a frame that a framer discards (R181). Every other operand takes every value of its field. -/

namespace Sys2Proof

/-- A name field is 12 bytes (section 11.2). -/
def nameFieldLength : Nat := 12

/-- A payload is at most 240 bytes (R155). -/
def maxPayload : Nat := 240

/-- The forms a link can carry. A LOAD_ROW payload is 2 to 240 bytes, a ROTATION_SET payload 0 to 240, and a PROFILE_WRITE
payload is 15 + 2 x count bytes for the count its count byte carries (R182, R183). -/
def Instr.wellFormed : Instr → Bool
  | .frameDiscarded _ bytes =>
      bytes.head? == some 0xA5 && 2 ≤ bytes.length && bytes.length ≤ maxPayload + 7
  | .loadRow _ _ row => 1 ≤ row.length && row.length + 1 ≤ maxPayload
  | .profileDefine _ name _ _ _ _ => name.length == nameFieldLength
  | .profileWrite _ name _ count values =>
      name.length == nameFieldLength && values.length == count.toNat && 15 + 2 * values.length ≤ maxPayload
  | .profileRead _ name _ _ => name.length == nameFieldLength
  | .profileDelete _ name => name.length == nameFieldLength
  | .play _ name => name.length == nameFieldLength
  | .rotationSet _ slots => slots.length ≤ maxPayload
  | _ => true

end Sys2Proof
end

