-- ==== Sys2Proof/Decode.lean ====
section
/-! DEFINITION. The frames of chapter 11 as commands and back: decoding a received frame (R155, R140, R182, R183), encoding a
frame's command, and the bytes of the frames the part sends (sections 11.3, 11.5). The rows of the opcode table give no bits. -/

namespace Sys2Proof

open Machine (halfOf halfBytes wordOf wordBytes int16 nat16 byte frameOf splitFrame crcMatches headerBytes startByte maxLength hunt)

/-! ## Payloads to commands -/

/-- 16-bit fields from their bytes; `none` for an odd number of bytes. -/
def halvesOf : List Byte → Option (List Half)
  | [] => some []
  | [_] => none
  | a :: b :: rest => (halvesOf rest).map (fun hs => halfOf a b :: hs)

/-- A DISPATCH frame by its kind and payload (section 11.3); `none` for an unknown kind or a wrong length. -/
def decodeDispatch (kind : Byte) (p : List Byte) : Option Instr :=
  match kind.toNat, p with
  | 1, [a, b] => some (.base (halfOf a b) none)
  | 1, [a, b, c, d] => some (.base (halfOf a b) (some (halfOf c d)))
  | 2, [a, b] => some (.reg (halfOf a b))
  | 3, [a, b, c, d] => some (.levels (halfOf a b) (halfOf c d))
  | 4, [u, m] => some (.unitHold u m none)
  | 4, [u, m, a, b] => some (.unitHold u m (some (halfOf a b)))
  | 5, [u] => some (.unitRelease u)
  | 6, [u] => some (.emergencyStop u)
  | _, _ => none

/-- A PROFILE_DEFINE payload after the name (R183). -/
def decodeDefine (tag : Byte) (name rest : List Byte) : Option Instr :=
  match rest with
  | [c1, c0, i, r] => some (.profileDefine tag name (halfOf c1 c0) i r none)
  | [c1, c0, i, r, f1, f0] => some (.profileDefine tag name (halfOf c1 c0) i r (some (halfOf f1 f0)))
  | _ => none

/-- A PROFILE_WRITE payload after the name: its length is that of the count it carries (R182). -/
def decodeWrite (tag : Byte) (name rest : List Byte) : Option Instr :=
  match rest with
  | f1 :: f0 :: c :: vs =>
    if vs.length = 2 * c.toNat then (halvesOf vs).map (fun hs => .profileWrite tag name (halfOf f1 f0) c hs) else none
  | _ => none

/-- The kinds whose payload begins with a name field. -/
def decodeNamed (kind tag : Byte) (name rest : List Byte) : Option Instr :=
  match kind.toNat, rest with
  | 7, rest => decodeDefine tag name rest
  | 8, rest => decodeWrite tag name rest
  | 9, [f1, f0, c] => some (.profileRead tag name (halfOf f1 f0) c)
  | 10, [] => some (.profileDelete tag name)
  | 12, [] => some (.play tag name)
  | _, _ => none

/-- The kinds without a name field (R183). -/
def decodePlain (kind tag : Byte) (p : List Byte) : Option Instr :=
  match kind.toNat, p with
  | 1, [q, a, b, c, d, port] => some (.configSet tag q (wordOf a b c d) port)
  | 2, [q, port] => some (.configGet tag q port)
  | 3, [pos, n] => some (.loadBegin tag pos n)
  | 4, i :: x :: row => some (.loadRow tag i (x :: row))
  | 5, [] => some (.loadEnd tag)
  | 6, [] => some (.loadAbort tag)
  | 11, [] => some (.profileDeleteAll tag)
  | 13, [] => some (.stopPlay tag)
  | 14, [x] => some (.sourceSet tag x)
  | 15, [l1, l0, h1, h0, p1, p0, sh] => some (.patternSet tag (halfOf l1 l0) (halfOf h1 h0) (halfOf p1 p0) sh)
  | 16, [] => some (.enable tag)
  | 17, [] => some (.disable tag)
  | 18, [] => some (.resume tag)
  | 19, [] => some (.restart tag)
  | 20, [u, q] => some (.mapSet tag u q)
  | 21, [u, n] => some (.expectSet tag u n)
  | 22, us => some (.rotationSet tag us)
  | 23, [] => some (.rotate tag)
  | 24, [u] => some (.clearUnit tag u)
  | 25, [u] => some (.releaseResources tag u)
  | 26, [l, x, y] => some (.lineSet tag l x y)
  | _, _ => none

/-- The management kinds whose payload begins with a name field. -/
def isNamedKind (kind : Byte) : Bool := kind == 7 || kind == 8 || kind == 9 || kind == 10 || kind == 12

/-- A MANAGE frame by its kind and payload (R183). -/
def decodeManage (kind tag : Byte) (p : List Byte) : Option Instr :=
  if isNamedKind kind then
    if p.length < nameFieldLength then none else decodeNamed kind tag (p.take nameFieldLength) (p.drop nameFieldLength)
  else decodePlain kind tag p

/-- A QUERY frame by its kind and payload (R183). -/
def decodeQuery (kind tag : Byte) (p : List Byte) : Option Instr :=
  match kind.toNat, p with
  | 1, [] => some (.statusReq tag)
  | 2, [u] => some (.unitReq tag u)
  | 3, [pos, r] => some (.tableRead tag pos r)
  | 4, [] => some (.eventRead tag)
  | 5, [] => some (.profileCatalog tag none)
  | 5, [x] => some (.profileCatalog tag (some x))
  | _, _ => none

/-- A well-framed plant-link frame (R155): its command, or UNKNOWN_FRAME for an unknown class or kind or a wrong length. -/
def decodePlant (cls kind tag : Byte) (p : List Byte) : Instr :=
  let c := match cls.toNat with
    | 1 => decodeDispatch kind p
    | 2 => decodeManage kind tag p
    | 3 => decodeQuery kind tag p
    | _ => none
  c.getD (.unknownFrame cls kind tag)

/-- A well-framed unit-link frame (R140, section 11.3): its command, or UNIT_LINK_FRAME_DISCARDED for another kind or a wrong
length. The contents R142 calls malformed are judged by the command's own meaning. -/
def decodeUnit (port : Port) (kind : Byte) (p : List Byte) : Instr :=
  match kind.toNat, p with
  | 4, [n] => .ident port n
  | 5, [m, p1, p0, r, a, c, t] => .status port m (halfOf p1 p0) r a c t
  | 6, [t, x, c] => .orderAck port t x c
  | _, _ => .unitLinkFrameDiscarded port

/-- The command of a frame's body, the bytes from the length through the payload. -/
def decodeBody : Link → List Byte → Option Instr
  | .plant, _ :: cls :: kind :: tag :: p => some (decodePlant cls kind tag p)
  | .unit port, _ :: kind :: p => some (decodeUnit port kind p)
  | _, _ => none

/-- The commands of the whole frames that the hunt through a run of bytes hands on, in order (R181). -/
def framesIn (l : Link) (bytes : List Byte) : List Instr := (hunt l bytes).bodies.filterMap (decodeBody l)

/-- The command that the bytes of one frame make on a link (R181): `none` without a start byte or while bytes are missing. -/
def decodeFrame (l : Link) (bytes : List Byte) : Option Instr :=
  match bytes with
  | b :: len :: rest =>
    if b ≠ startByte then none
    else if maxLength < len.toNat then some (.frameDiscarded l bytes)
    else match splitFrame (headerBytes l) (len :: rest) with
      | none => none
      | some (body, crc, _) => if crcMatches body crc then decodeBody l body else some (.frameDiscarded l bytes)
  | _ => none

/-! ## Commands to frames -/

/-- A plant-link frame's class, kind, tag and payload. -/
structure PlantPacket where
  cls : Byte
  kind : Byte
  tag : Byte
  payload : List Byte
deriving DecidableEq, Repr

/-- The plant-link frame of a command; `none` for a command that no plant-link frame of a known kind makes. A dispatch frame's
tag is taken as 0, since the command does not carry it (notes/assumptions/26.md). -/
def Instr.plantPacket : Instr → Option PlantPacket
  | .base t none => some ⟨1, 1, 0, halfBytes t⟩
  | .base t (some i) => some ⟨1, 1, 0, halfBytes t ++ halfBytes i⟩
  | .reg i => some ⟨1, 2, 0, halfBytes i⟩
  | .levels a b => some ⟨1, 3, 0, halfBytes a ++ halfBytes b⟩
  | .unitHold u m none => some ⟨1, 4, 0, [u, m]⟩
  | .unitHold u m (some v) => some ⟨1, 4, 0, [u, m] ++ halfBytes v⟩
  | .unitRelease u => some ⟨1, 5, 0, [u]⟩
  | .emergencyStop u => some ⟨1, 6, 0, [u]⟩
  | .configSet tag q v port => some ⟨2, 1, tag, [q] ++ wordBytes v ++ [port]⟩
  | .configGet tag q port => some ⟨2, 2, tag, [q, port]⟩
  | .loadBegin tag pos n => some ⟨2, 3, tag, [pos, n]⟩
  | .loadRow tag i row => some ⟨2, 4, tag, i :: row⟩
  | .loadEnd tag => some ⟨2, 5, tag, []⟩
  | .loadAbort tag => some ⟨2, 6, tag, []⟩
  | .profileDefine tag name c i r none => some ⟨2, 7, tag, name ++ (halfBytes c ++ [i, r])⟩
  | .profileDefine tag name c i r (some f) => some ⟨2, 7, tag, name ++ (halfBytes c ++ [i, r] ++ halfBytes f)⟩
  | .profileWrite tag name f c vs => some ⟨2, 8, tag, name ++ (halfBytes f ++ c :: vs.flatMap halfBytes)⟩
  | .profileRead tag name f c => some ⟨2, 9, tag, name ++ (halfBytes f ++ [c])⟩
  | .profileDelete tag name => some ⟨2, 10, tag, name⟩
  | .profileDeleteAll tag => some ⟨2, 11, tag, []⟩
  | .play tag name => some ⟨2, 12, tag, name⟩
  | .stopPlay tag => some ⟨2, 13, tag, []⟩
  | .sourceSet tag x => some ⟨2, 14, tag, [x]⟩
  | .patternSet tag l h p sh => some ⟨2, 15, tag, halfBytes l ++ halfBytes h ++ halfBytes p ++ [sh]⟩
  | .enable tag => some ⟨2, 16, tag, []⟩
  | .disable tag => some ⟨2, 17, tag, []⟩
  | .resume tag => some ⟨2, 18, tag, []⟩
  | .restart tag => some ⟨2, 19, tag, []⟩
  | .mapSet tag u q => some ⟨2, 20, tag, [u, q]⟩
  | .expectSet tag u n => some ⟨2, 21, tag, [u, n]⟩
  | .rotationSet tag us => some ⟨2, 22, tag, us⟩
  | .rotate tag => some ⟨2, 23, tag, []⟩
  | .clearUnit tag u => some ⟨2, 24, tag, [u]⟩
  | .releaseResources tag u => some ⟨2, 25, tag, [u]⟩
  | .lineSet tag l x y => some ⟨2, 26, tag, [l, x, y]⟩
  | .statusReq tag => some ⟨3, 1, tag, []⟩
  | .unitReq tag u => some ⟨3, 2, tag, [u]⟩
  | .tableRead tag pos r => some ⟨3, 3, tag, [pos, r]⟩
  | .eventRead tag => some ⟨3, 4, tag, []⟩
  | .profileCatalog tag none => some ⟨3, 5, tag, []⟩
  | .profileCatalog tag (some x) => some ⟨3, 5, tag, [x]⟩
  | .powerOn | .resetInput | .partClockAdvance | .frameDiscarded .. | .framerIdleTimeout _ | .unknownFrame ..
  | .transmitComplete _ | .ident .. | .status .. | .orderAck .. | .markerInputEdge _ | .dispatchLivenessExpiry
  | .levelTimerExpiry | .dwellTimerExpiry | .backoffExpiry _ | .leadTimerExpiry _ | .ackTimerExpiry _ | .stepTimerExpiry _
  | .settleTimerExpiry _ | .warningPhaseEnd _ | .probeTimerExpiry _ | .statusLivenessExpiry _ | .intervalTimerBoundary
  | .planSwitchingTime | .rampSwitchingTime | .holdoverBoundary | .patternPeriodExpiry | .markerPulseEnd
  | .unitLinkFrameDiscarded _ => none

/-- The unit-link frame of a command: port, kind and payload. -/
def Instr.unitPacket : Instr → Option (Port × Byte × List Byte)
  | .ident p n => some (p, 4, [n])
  | .status p m w r a c t => some (p, 5, [m] ++ halfBytes w ++ [r, a, c, t])
  | .orderAck p t x c => some (p, 6, [t, x, c])
  | _ => none

/-- The frame of a plant-link packet (section 11.1). -/
def PlantPacket.frame (k : PlantPacket) : List Byte := frameOf ([byte k.payload.length, k.cls, k.kind, k.tag] ++ k.payload)

/-- The frame of a unit-link kind and payload (section 11.1). -/
def unitFrame (kind : Byte) (payload : List Byte) : List Byte := frameOf ([byte payload.length, kind] ++ payload)

/-- The link and the bytes of a command's frame. -/
def encode (c : Instr) : Option (Link × List Byte) :=
  match c.plantPacket, c.unitPacket with
  | some k, _ => some (.plant, k.frame)
  | none, some (p, kind, payload) => some (.unit p, unitFrame kind payload)
  | none, none => none

/-- The rows of spec/opcode_table.json give no bits, so no word spells a command (notes/assumptions/32.md). -/
def decodeTableWord (_nbits _w : Nat) : Option Instr := none

namespace Machine

/-! ## The frames the part sends -/

/-- A frame up the plant link as its bytes (section 11.5, R184): a REPLY's class, kind, code, detail and body; the periodic
plant status with class REPORT, kind PLANT_STATUS and tag 0. -/
def PlantFrame.wire : PlantFrame → List Byte
  | .reply tag cls kind code detail body =>
    PlantPacket.frame ⟨4, Config.replyHeaderKind cls kind, tag, [cls, kind, replyCode code] ++ halfBytes detail ++ body⟩
  | .plantStatus body => PlantPacket.frame ⟨5, 1, 0, body⟩

/-- A frame down a unit port as its bytes (section 11.3): PROBE, MODE_ORDER with its step, converter and tag, SETPOINT. -/
def UnitFrame.wire : UnitFrame → List Byte
  | .probe => unitFrame 1 []
  | .modeOrder kind conv tag => unitFrame 2 [byte (stepCode kind), convCode conv, tag]
  | .setpoint v => unitFrame 3 (int16 v)

end Machine

end Sys2Proof
end

