-- ==== Sys2Proof/Machine/Ops.lean ====
section
/-! DEFINITION. The named operations over the state: the one way each record is read and written, the posting of an event
(R175), the reply (R157), the sending of a frame on a unit port (R141) and of a mode order (R150). -/

namespace Sys2Proof.Machine

/-! ## Reading and writing records -/

def State.clock (s : State) : Word := s.pli.clock
def State.params (s : State) : Params := s.pli.params
def State.unitRec (s : State) (u : Slot) : UnitRec := s.ros.units.get u
def State.portRec (s : State) (p : Port) : PortRec := s.ports.get p
def State.req (s : State) (u : Slot) : Option Request := s.trs.requests.get u
def State.orphan (s : State) (u : Slot) : Option Orphan := s.trs.orphans.get u
def State.holder (s : State) : Conv → Option Holder
  | .c1 => s.trs.c1
  | .c2 => s.trs.c2

def State.setPli (s : State) (b : Pli) : State := { s with pli := b }
def State.setRos (s : State) (b : Ros) : State := { s with ros := b }
def State.setHead (s : State) (b : Head) : State := { s with head := b }
def State.setTgt (s : State) (b : Tgt) : State := { s with tgt := b }
def State.setPrf (s : State) (b : Prf) : State := { s with prf := b }
def State.setPln (s : State) (b : Pln) : State := { s with pln := b }
def State.setTrs (s : State) (b : Trs) : State := { s with trs := b }
def State.setAlc (s : State) (b : Alc) : State := { s with alc := b }
def State.setSte (s : State) (b : Ste) : State := { s with ste := b }
def State.setPort (s : State) (p : Port) (r : PortRec) : State := { s with ports := s.ports.set p r }

def State.setParams (s : State) (b : Params) : State := s.setPli { s.pli with params := b }
def State.setUnit (s : State) (u : Slot) (r : UnitRec) : State := s.setRos { s.ros with units := s.ros.units.set u r }
def State.setReq (s : State) (u : Slot) (r : Option Request) : State :=
  s.setTrs { s.trs with requests := s.trs.requests.set u r }
def State.setOrphan (s : State) (u : Slot) (r : Option Orphan) : State :=
  s.setTrs { s.trs with orphans := s.trs.orphans.set u r }
def State.setHolder (s : State) (c : Conv) (h : Option Holder) : State :=
  match c with
  | .c1 => s.setTrs { s.trs with c1 := h }
  | .c2 => s.setTrs { s.trs with c2 := h }
def State.setPlayback (s : State) (b : Playback) : State := s.setPrf { s.prf with playback := b }

/-- The part is DISPATCHING or FALLBACK: it plans, schedules and allocates (R43, R67, R91). -/
def State.governs (s : State) : Bool := s.pli.part != .standby

def State.inFallback (s : State) : Bool :=
  match s.pli.part with
  | .fallback _ => true
  | _ => false

/-- The part state is FALLBACK and the source is `src`: the requests of R162's last paragraph are refused. -/
def State.frozen (s : State) (src : Source) : Bool := s.inFallback && s.tgt.source == src

/-! ## The slot and its port -/

/-- The record of the port the slot is mapped to. -/
def State.slotPort (s : State) (u : Slot) : Option PortRec := (s.unitRec u).port.map s.portRec

/-- The port-state field of the unit record: UNUSED while unmapped (R1). -/
def State.portState (s : State) (u : Slot) : PortState := ((s.slotPort u).map (·.state)).getD .unused

/-- The slot a port is mapped to. -/
def State.slotOf (s : State) (p : Port) : Option Slot := Slot.all.find? (fun u => (s.unitRec u).port == some p)

/-- The reported mode; absent while never heard. -/
def State.reported (s : State) (u : Slot) : Option Reported := (s.unitRec u).report.map (·.mode)

/-- The last actual power, 0 while never heard (R4). -/
def State.power (s : State) (u : Slot) : Int := ((s.unitRec u).report.map (·.power)).getD 0

/-- The plant actual total (R4). -/
def State.plantActual (s : State) : Int := (Slot.all.map s.power).sum

/-- R7. -/
def State.dispatchable (s : State) (u : Slot) : Bool :=
  let r := s.unitRec u
  s.portState u == .qualified && r.report.any (fun q => q.remote && q.available) && !r.trip && !r.fault
    && (s.head.caps.get u).isSome && r.backoff.isNone

/-- R8. -/
def State.automatic (s : State) (u : Slot) : Bool := s.dispatchable u && (s.unitRec u).hold.isNone

/-! ## Events and replies -/

/-- The event queue holds at most 64 records (R175). -/
def eventCapacity : Nat := 64

/-- Post an event (R175): the record takes the sequence counter and the part clock; into a full queue it displaces the oldest
record and sets EVENTS_LOST. -/
def State.post (s : State) (kind : EventKind) (slot : Option Slot) (value : Option Int) : State :=
  let e : Event := { seq := s.ste.seq, time := s.clock, kind := kind, slot := slot, value := value }
  let full := decide (eventCapacity ≤ s.ste.events.length)
  let kept := if full then s.ste.events.tail else s.ste.events
  s.setSte { s.ste with events := kept ++ [e], seq := s.ste.seq + 1, eventsLost := s.ste.eventsLost || full }

def classDispatch : Byte := 1
def classManage : Byte := 2
def classQuery : Byte := 3

/-- A frame goes up the plant link (R155: in the order in which the requests are taken). -/
def State.sendUp (s : State) (f : PlantFrame) : State := { s with plantOut := s.plantOut ++ [f] }

/-- One REPLY (R157, R184). -/
def State.reply (s : State) (tag cls kind : Byte) (code : Code) (detail : Nat := 0) (body : List Byte := []) : State :=
  s.sendUp (.reply tag cls kind code (BitVec.ofNat 16 detail) body)

/-- A reply to a management request. -/
def State.manage (s : State) (tag kind : Byte) (code : Code) (detail : Nat := 0) (body : List Byte := []) : State :=
  s.reply tag classManage kind code detail body

/-- A reply to a query. -/
def State.answer (s : State) (tag kind : Byte) (code : Code) (detail : Nat := 0) (body : List Byte := []) : State :=
  s.reply tag classQuery kind code detail body

/-! ## Frames taken: the framer of the link hunts again (R181) -/

def State.takePlantFrame (s : State) : State := s.setPli { s.pli with framer := none }
def State.takeUnitFrame (s : State) (p : Port) : State := s.setPort p { s.portRec p with framer := none }

/-! ## Sending on a unit port (R141) -/

def UnitFrame.isProbe : UnitFrame → Bool
  | .probe => true
  | _ => false
def UnitFrame.isOrder : UnitFrame → Bool
  | .modeOrder .. => true
  | _ => false
def UnitFrame.isSetpoint : UnitFrame → Bool
  | .setpoint _ => true
  | _ => false

/-- The two frames are of one kind. -/
def UnitFrame.sameKind (f g : UnitFrame) : Bool :=
  (f.isProbe && g.isProbe) || (f.isOrder && g.isOrder) || (f.isSetpoint && g.isSetpoint)

/-- A frame joins the transmit queue, or takes the place of the waiting frame of its kind (R141). A waiting PROBE replaced by a
PROBE is unchanged. -/
def enqueue (f : UnitFrame) : List UnitFrame → List UnitFrame
  | [] => [f]
  | g :: rest => if f.sameKind g then f :: rest else g :: enqueue f rest

/-- A frame begins to go out on the port. -/
def State.beginSending (s : State) (p : Port) (f : UnitFrame) : State :=
  { s.setPort p { s.portRec p with sending := some f } with unitOut := s.unitOut ++ [(p, f)] }

/-- Hand a frame to the ULI (R141): it is sent at once, or waits in the transmit queue while another is being sent. -/
def State.hand (s : State) (p : Port) (f : UnitFrame) : State :=
  match (s.portRec p).sending with
  | none => s.beginSending p f
  | some _ => s.setPort p { s.portRec p with queue := enqueue f (s.portRec p).queue }

/-- The period of the probe timer (R145). -/
def probePeriod : Nat := 2

/-- Enter a probing state from QUALIFIED or UNUSED: a PROBE at once, and the probe timer started (R145). -/
def State.probeNow (s : State) (p : Port) : State :=
  let s := s.setPort p { s.portRec p with probe := some (later s.clock probePeriod) }
  s.hand p .probe

/-- Send a MODE_ORDER (R150): it takes the tag counter's value and becomes the port's outstanding order. -/
def State.sendOrder (s : State) (p : Port) (kind : StepKind) (conv : Option Conv) (purpose : Purpose) : State :=
  let r := s.portRec p
  let s := s.setPort p
    { r with tagCounter := r.tagCounter + 1, outstanding := some { tag := r.tagCounter, kind := kind, purpose := purpose } }
  s.hand p (.modeOrder kind conv r.tagCounter)

/-- The slot's outstanding order of the given purpose ceases to be outstanding (R150). -/
def State.ceaseOrder (s : State) (u : Slot) (purpose : Purpose) : State :=
  match (s.unitRec u).port with
  | none => s
  | some p =>
    if (s.portRec p).outstanding.any (fun o => o.purpose == purpose)
    then s.setPort p { s.portRec p with outstanding := none }
    else s

end Sys2Proof.Machine
end

