-- ==== Sys2Proof/Machine/Capability.lean ====
section
/-! DEFINITION. CAP/HEAD: the head in use (R32), the estimate (R34), interpolation (R28 to R30), and the settlement of held
setpoints (R14), which the roster makes from the interpolated record. -/

namespace Sys2Proof.Machine

/-! ## The head -/

/-- R32. -/
def State.headSource (s : State) : HeadSource :=
  if s.params.headOverride ≠ 0 then .override else if s.head.estimate.isSome then .estimate else .none

/-- The head in use, or unknown (R32). -/
def State.headInUse (s : State) : Option Nat :=
  match s.headSource with
  | .override => some s.params.headOverride
  | .estimate => s.head.estimate
  | .none => none

/-- HEAD_UNKNOWN stands exactly while the head source is NONE (R32). -/
def State.headUnknown (s : State) : Bool := s.headSource == .none

/-- The greatest head, 1000.0 m. -/
def headMax : Int := 10000

/-- The upper elevation less the lower less head_loss, before it is brought into range (R34). -/
def rawEstimate (levels : Nat × Nat) (loss : Nat) : Int := (levels.1 : Int) - (levels.2 : Int) - (loss : Int)

/-- Form the estimate from the last levels and head_loss, with HEAD_CLAMPED (R34); nothing while no levels exist. -/
def State.formEstimate (s : State) : State :=
  match s.head.levels with
  | none => s
  | some lv =>
    let raw := rawEstimate lv s.params.headLoss
    s.setHead { s.head with
      estimate := some (clampInt 0 headMax raw).toNat
      clamped := decide (raw < 0 ∨ headMax < raw) }

/-! ## Interpolation -/

/-- `x / d` rounded up, for `d` above 0. -/
def ceilDiv (x d : Int) : Int := -((-x) / d)
/-- `x / d` to the nearest whole number, a half going away from zero, for `d` above 0. -/
def nearestDiv (x d : Int) : Int := if 0 ≤ x then (2 * x + d) / (2 * d) else -((-2 * x + d) / (2 * d))

/-- The zone, absent when its edges are equal (R29, R30). -/
def zoneOf (lo hi : Int) : Option (Int × Int) := if lo = hi then none else some (lo, hi)

/-- Every value of one breakpoint as it stands (R28, R30). -/
def recordAt (condense : Int) (b : Breakpoint) (extrapolated : Bool) : CapRecord :=
  { genMin := b.genMin, genMax := b.genMax, zone := zoneOf b.rzLo b.rzHi, pump := b.pump, condense := condense,
    extrapolated := extrapolated }

/-- `v_a + (v_b − v_a) × (H − h_a) / (h_b − h_a)` as the numerator over `h_b − h_a` (R28). -/
def interpNum (a b : Breakpoint) (h : Nat) (va vb : Int) : Int :=
  va * ((b.head : Int) - a.head) + (vb - va) * ((h : Int) - a.head)

/-- The record between two neighbouring breakpoints: each value rounded in its own direction (R28), the zone edges brought
within the generating range (R29). -/
def recordBetween (condense : Int) (a b : Breakpoint) (h : Nat) : CapRecord :=
  let d : Int := (b.head : Int) - a.head
  let genMin := ceilDiv (interpNum a b h a.genMin b.genMin) d
  let genMax := interpNum a b h a.genMax b.genMax / d
  let lo := interpNum a b h a.rzLo b.rzLo / d
  let hi := ceilDiv (interpNum a b h a.rzHi b.rzHi) d
  { genMin := genMin, genMax := genMax, zone := zoneOf (max lo genMin) (min hi genMax),
    pump := nearestDiv (interpNum a b h a.pump b.pump) d, condense := condense, extrapolated := false }

/-- The record at a head at or above the head of `a`, the breakpoints above it in order. -/
def recordFrom (condense : Int) (h : Nat) : Breakpoint → List Breakpoint → CapRecord
  | a, [] => recordAt condense a (decide (h ≠ a.head))
  | a, b :: rest =>
    if h = a.head then recordAt condense a false
    else if h < b.head then recordBetween condense a b h
    else recordFrom condense h b rest

/-- The interpolated capability record of a table at a head (R28 to R30). A committed table has 2 … 6 breakpoints (R25). -/
def interpolate (t : CapTable) (h : Nat) : Option CapRecord :=
  match t.points with
  | [] => none
  | a :: rest =>
    some (if h < a.head then recordAt t.header.condense a true else recordFrom t.header.condense h a rest)

/-- The slot's interpolated capability record: present while it has a table and the head in use is known (R27). -/
def State.record (s : State) (u : Slot) : Option CapRecord :=
  match s.head.caps.get u, s.headInUse with
  | some t, some h => interpolate t h
  | _, _ => none

/-- HEAD_EXTRAP stands while some slot's record is extrapolated (R30). -/
def State.headExtrap (s : State) : Bool := Slot.all.any (fun u => (s.record u).any (·.extrapolated))

/-- The record the allocator reads (R31, R94): the slot's own, or free values where it has none. -/
def State.limits (s : State) (u : Slot) : CapRecord :=
  (s.record u).getD
    { genMin := Config.genMinWithoutRecord u, genMax := Config.genMaxWithoutRecord u, zone := Config.zoneWithoutRecord u,
      pump := Config.pumpWithoutRecord u, condense := Config.condenseWithoutRecord u, extrapolated := false }

/-- The stored step timeout of a header (R31). -/
def CapHeader.timeout (h : CapHeader) : StepKind → Nat
  | .gStart => h.gStart
  | .pStart => h.pStart
  | .prime => h.prime
  | .deprime => h.deprime
  | .stop => h.stop

/-- The slot's stored timeout for a step kind (R31). -/
def State.stepTimeout (s : State) (u : Slot) (k : StepKind) : Nat :=
  match s.head.caps.get u with
  | some t => t.header.timeout k
  | none => Config.timeoutWithoutTable u

/-! ## Settlement of a held setpoint (R14) -/

/-- Move a value strictly inside the zone to its nearer edge, to the lower on a tie (R14, R99). -/
def outOfZone (zone : Option (Int × Int)) (v : Int) : Int :=
  match zone with
  | none => v
  | some (lo, hi) => if lo < v ∧ v < hi then (if v - lo ≤ hi - v then lo else hi) else v

/-- The settled setpoint of a requested one (R14). -/
def settleValue (r : CapRecord) (v : Int) : Int := outOfZone r.zone (clampInt r.genMin r.genMax v)

/-- The settled setpoint a hold has against a record: absent without a GEN mode, a requested setpoint or a record (R14). -/
def Hold.settledAgainst (h : Hold) (r : Option CapRecord) : Option Int :=
  match h.mode, h.requested, r with
  | .gen, some v, some rec => some (settleValue rec v)
  | _, _, _ => none

/-- Settlement of the slot's hold (R14): HOLD_ADJUSTED is posted when the settled value differs from the requested one and
from the settled value it replaces. -/
def State.settleHold (s : State) (u : Slot) : State :=
  match (s.unitRec u).hold with
  | none => s
  | some h =>
    let v := h.settledAgainst (s.record u)
    let t := s.setUnit u { s.unitRec u with hold := some { h with settled := v } }
    if v.isSome && v != h.requested && v != h.settled then t.post .holdAdjusted (some u) v else t

/-- Settlement of every hold (R37). DESIGN CHOICE: no rule orders the slots, and so their HOLD_ADJUSTED records; the model takes them
U1 to U8 (notes/assumptions/39.md). -/
def State.settleHolds (s : State) : State := Slot.all.foldl State.settleHold s

/-- After a change of the head in use every hold is settled again (R37); `before` is the head in use before it. -/
def State.resettle (before : Option Nat) (s : State) : State :=
  if s.headInUse = before then s else s.settleHolds

end Sys2Proof.Machine
end

