-- ==== Sys2Proof/Machine/Scheduler.lean ====
section
/-! DEFINITION. The Transition Scheduler's operations: paths (R60), requests and their demands (R61 to R64), the queue (R65),
grants (R66 to R69), orders (R70), the end of a step (R73 to R76), the release of resources (R78), port loss and orphans (R79,
R80), observed converters (R81), the emergency cancellation (R82), and the warning generators (R88, R89). -/

namespace Sys2Proof.Machine

/-! ## Steps and paths (R60) -/

/-- The stable mode whose report ends a step. -/
def StepKind.dest : StepKind → Stable
  | .gStart => .gen
  | .pStart => .cnd
  | .prime => .pmp
  | .deprime => .cnd
  | .stop => .ss

/-- The fixed path table. -/
def pathOf : Stable → Stable → List PathStep
  | .ss, .ss => []
  | .ss, .gen => [⟨.gStart, .ss⟩]
  | .ss, .cnd => [⟨.pStart, .ss⟩]
  | .ss, .pmp => [⟨.pStart, .ss⟩, ⟨.prime, .cnd⟩]
  | .cnd, .cnd => []
  | .cnd, .pmp => [⟨.prime, .cnd⟩]
  | .cnd, .ss => [⟨.stop, .cnd⟩]
  | .cnd, .gen => [⟨.stop, .cnd⟩, ⟨.gStart, .ss⟩]
  | .pmp, .pmp => []
  | .pmp, .cnd => [⟨.deprime, .pmp⟩]
  | .pmp, .ss => [⟨.stop, .pmp⟩]
  | .pmp, .gen => [⟨.stop, .pmp⟩, ⟨.gStart, .ss⟩]
  | .gen, .gen => []
  | .gen, .ss => [⟨.stop, .gen⟩]
  | .gen, .cnd => [⟨.stop, .gen⟩, ⟨.pStart, .ss⟩]
  | .gen, .pmp => [⟨.stop, .gen⟩, ⟨.pStart, .ss⟩, ⟨.prime, .cnd⟩]

def PathStep.flowChanging (p : PathStep) : Bool :=
  match p.kind with
  | .gStart | .prime | .deprime => true
  | .pStart => false
  | .stop => p.origin == .gen || p.origin == .pmp

inductive Direction where
  | generating | pumping | still
deriving DecidableEq, Repr

/-- The flow direction of a granted step (R68). -/
def PathStep.direction (p : PathStep) : Direction :=
  match p.kind with
  | .gStart => .generating
  | .pStart => .still
  | .prime | .deprime => .pumping
  | .stop => match p.origin with
    | .gen => .generating
    | .pmp => .pumping
    | _ => .still

/-- The flow direction of a reported mode (R68). -/
def reportedDirection : Option Reported → Direction
  | some (.stable .gen) | some (.step .gStart) => .generating
  | some (.stable .pmp) | some (.step .prime) | some (.step .deprime) => .pumping
  | _ => .still

/-! ## Requests -/

/-- The current or next step. -/
def Request.current (r : Request) : Option PathStep := r.path[r.index - 1]?

/-- The request is in ORDERED or IN_STEP: its order has been sent. -/
def Request.ordered (r : Request) : Bool := r.state == .ordered || r.state == .inStep

/-- The request is in WARNING, ORDERED or IN_STEP: it has a granted step. -/
def Request.granted (r : Request) : Bool := r.state != .waiting

/-- The slot has a request in ORDERED or IN_STEP. -/
def State.underOrder (s : State) (u : Slot) : Bool := (s.req u).any Request.ordered

/-- The known mode (R62): the reported stable mode, or the destination of a reported step; unknown while never heard and
at TRIP. -/
def State.known (s : State) (u : Slot) : Option Stable :=
  match s.reported u with
  | some (.stable m) => some m
  | some (.step k) => some k.dest
  | _ => none

/-- The demand of a slot with its class (R62). -/
def State.demand (s : State) (u : Slot) : Option (Stable × ReqClass) :=
  match (s.unitRec u).hold with
  | some h => if h.emergency then none else some (h.mode, .manual)
  | none => if s.automatic u then (s.pln.desired.get u).map (fun d => (d, .automatic)) else none

/-- A newly created request (R61). -/
def Request.new (cls : ReqClass) (dest : Stable) (path : List PathStep) (entry : Word) : Request :=
  { cls := cls, dest := dest, path := path, index := 1, state := .waiting, entry := entry, conv := none, slotHeld := false,
    seen := false, tag := none, startedAt := none, leadExpiry := none, ackExpiry := none, stepExpiry := none, blocked := none,
    redirected := false }

/-- The comparison of demand and known mode (R62): a slot without a request whose demand differs from its known mode gets one,
while the part is DISPATCHING or FALLBACK. -/
def State.compareDemand (s : State) (u : Slot) : State :=
  match s.req u, s.demand u, s.known u with
  | none, some (d, c), some m =>
    if s.governs && m != d then
      let s' := s.setReq u (some (Request.new c d (pathOf m d) s.trs.entryCounter))
      s'.setTrs { s'.trs with entryCounter := s.trs.entryCounter + 1 }
    else s
  | _, _, _ => s

/-- Of two entry numbers, the older (R61). -/
def older (a b : Word) : Bool := decide (0 < (b - a).toNat ∧ (b - a).toNat < 0x80000000)

/-- `a` stands before `b` in the queue (R65): MANUAL before AUTOMATIC, then the older entry number. -/
def Request.before (a b : Request) : Bool :=
  match a.cls, b.cls with
  | .manual, .automatic => true
  | .automatic, .manual => false
  | _, _ => older a.entry b.entry

/-- Insertion into a queue kept in the order of R65. -/
def insertByRank (x : Slot × Request) : List (Slot × Request) → List (Slot × Request)
  | [] => [x]
  | y :: rest => if x.2.before y.2 then x :: y :: rest else y :: insertByRank x rest

/-- The slots whose request is in WAITING, with it. -/
def State.waiting (s : State) : List (Slot × Request) :=
  Slot.all.filterMap (fun u => (s.req u).bind (fun r => if r.state == .waiting then some (u, r) else none))

/-- The transition queue, front first (R65). -/
def State.queue (s : State) : List Slot := ((s.waiting.foldr insertByRank []).map (·.1))

/-- The plant count of granted steps (R67). -/
def State.plantCount (s : State) : Nat :=
  (Slot.all.filter (fun u => (s.req u).any Request.granted)).length
    + (Slot.all.filter (fun u => (s.orphan u).any (·.place))).length

/-! ## Waterways -/

/-- The waterway of the slot (R5). -/
def State.waterwayOf (s : State) (u : Slot) : Option Waterway := s.trs.waterways.map (fun t => t.place.get u)

def State.waterwayRec (s : State) (w : Waterway) : Option WaterwayRec := s.trs.waterways.map (fun t => t.recs.get w)

/-- Write a waterway record; nothing while no waterway table is in force. -/
def State.setWaterway (s : State) (w : Waterway) (r : WaterwayRec) : State :=
  match s.trs.waterways with
  | none => s
  | some t => s.setTrs { s.trs with waterways := some { t with recs := t.recs.set w r } }

/-- Change the record of the slot's waterway. -/
def State.updateWaterwayOf (s : State) (u : Slot) (f : WaterwayRec → WaterwayRec) : State :=
  match s.waterwayOf u with
  | none => s
  | some w => match s.waterwayRec w with
    | none => s
    | some r => s.setWaterway w (f r)

/-- Mixing is allowed (section 11.4; checked to be 0 or 1 at commit). -/
def WaterwayRow.mixingAllowed (r : WaterwayRow) : Bool := r.mixing == 1

/-- The step kind is among the warned step kinds (section 11.4). P_START never is. -/
def WaterwayRow.warns (r : WaterwayRow) (k : StepKind) : Bool :=
  match k with
  | .gStart => r.kinds.getLsbD 0
  | .prime => r.kinds.getLsbD 1
  | .deprime => r.kinds.getLsbD 2
  | .stop => r.kinds.getLsbD 3
  | .pStart => false

/-- The settle timer started now: a settle time of 0 leaves it expired (R78). -/
def WaterwayRec.startSettle (r : WaterwayRec) (now : Word) : WaterwayRec :=
  { r with settle := if r.row.settle = 0 then none else some (later now r.row.settle) }

/-- A waterway slot is given up; the settle timer is started where `settle` says (R78, R80). -/
def WaterwayRec.release (r : WaterwayRec) (now : Word) (settle : Bool) : WaterwayRec :=
  let r' := { r with inProgress := r.inProgress - 1 }
  if settle then r'.startSettle now else r'

/-- A warned step joins the warned steps, and the pattern starts from pulse 1 (R88). -/
def WaterwayRec.warn (r : WaterwayRec) (u : Slot) (now : Word) : WaterwayRec :=
  { r with
    warned := r.warned ++ [u]
    generator := some { pulse := 1, high := true, began := now, tenths := r.row.firstHigh } }

/-- A warned step leaves the warned steps; when they fall to none the generator stops (R89). -/
def WaterwayRec.unwarn (r : WaterwayRec) (u : Slot) : WaterwayRec :=
  if r.warned.contains u then
    let left := r.warned.filter (· != u)
    { r with warned := left, generator := if left.isEmpty then none else r.generator }
  else r

/-- The slot's step leaves the warned steps of whichever waterway it was granted in. -/
def State.unwarn (s : State) (u : Slot) : State :=
  match s.trs.waterways with
  | none => s
  | some t => s.setTrs { s.trs with waterways := some { t with recs := .ofFn (fun w => (t.recs.get w).unwarn u) } }

/-! ## The release of resources and the end of a request -/

/-- Release what the slot's request holds (R78): its converter, its waterway slot (with the settle timer where `settle` says) and
its place among the warned steps. The concurrency place goes with the request's state. -/
def State.releaseHeld (s : State) (u : Slot) (settle : Bool) : State :=
  match s.req u with
  | none => s
  | some r =>
    let s := match r.conv with
      | some c => s.setHolder c none
      | none => s
    let s := if r.slotHeld then s.updateWaterwayOf u (·.release s.clock settle) else s
    (s.unwarn u).setReq u (some { r with conv := none, slotHeld := false })

/-- The request ends (R61): its reference goes, and with it its SUPERVISED order (R150). -/
def State.endRequest (s : State) (u : Slot) : State := (s.setReq u none).ceaseOrder u .supervised

/-- Back to WAITING for a next step: timers stopped, and order tag, step started at and transitional seen cleared (R73). -/
def Request.toWaiting (r : Request) (dest : Stable) (path : List PathStep) (index : Nat) : Request :=
  { r with
    dest := dest, path := path, index := index, state := .waiting, seen := false, tag := none, startedAt := none,
    leadExpiry := none, ackExpiry := none, stepExpiry := none, redirected := false }

/-- The request goes on toward `dest` from WAITING by the path given, or ends when the path is empty (R63, R64). -/
def State.waitOn (s : State) (u : Slot) (r : Request) (cls : ReqClass) (dest : Stable) (path : List PathStep) : State :=
  if path.isEmpty then s.endRequest u
  else s.setReq u (some { (r.toWaiting dest path 1) with cls := cls })

/-- The grant of a request in WARNING is withdrawn (R64, R89): resources released, no settle timer, no order. The request
is in WAITING again with its path. -/
def State.withdraw (s : State) (u : Slot) : State :=
  let s := s.releaseHeld u false
  match s.req u with
  | none => s
  | some r => s.setReq u (some (r.toWaiting r.dest r.path r.index))

/-- The path from the known mode; none while the mode is unknown. -/
def State.pathTo (s : State) (u : Slot) (d : Stable) : List PathStep := ((s.known u).map (fun m => pathOf m d)).getD []

/-- A request in WARNING meets a destination, or a new known mode (R64): the grant stands when the path begins with the step
being warned, and is withdrawn otherwise. -/
def State.rewarn (s : State) (u : Slot) (r : Request) (cls : ReqClass) (d : Stable) : State :=
  let path := s.pathTo u d
  if path.head?.isSome && path.head? == r.current then
    s.setReq u (some { r with cls := cls, dest := d, path := path, index := 1 })
  else
    let s := s.withdraw u
    match s.req u with
    | none => s
    | some r' => s.waitOn u r' cls d path

/-- The destination of a request under order is replaced (R64). -/
def Request.redirect (r : Request) (cls : ReqClass) (d : Stable) : Request :=
  { r with cls := cls, dest := d, redirected := r.redirected || r.dest != d }

/-- The destination of the request's current step. -/
def Request.stepDest (r : Request) : Stable := (r.current.map (fun p => p.kind.dest)).getD r.dest

/-- The TRS takes the slot's demand as it stands: it creates, redirects, keeps, withdraws or ends the slot's request
(R62 to R64). -/
def State.takeDemand (s : State) (u : Slot) : State :=
  match s.req u with
  | none => s.compareDemand u
  | some r =>
    match r.state, s.demand u with
    | .waiting, none => s.endRequest u
    | .waiting, some (d, c) =>
      if d = r.dest then s.setReq u (some { r with cls := c }) else s.waitOn u r c d (s.pathTo u d)
    | .warning, none => (s.withdraw u).endRequest u
    | .warning, some (d, c) =>
      if d = r.dest then s.setReq u (some { r with cls := c }) else s.rewarn u r c d
    | _, none => s.setReq u (some (r.redirect r.cls r.stepDest))
    | _, some (d, c) => s.setReq u (some (r.redirect c d))

/-- A step under order has ended by other than completion (R74 to R76, R82): resources released, request ended. -/
def State.failRequest (s : State) (u : Slot) (settle : Bool) : State := (s.releaseHeld u settle).endRequest u

/-- A step is refused (R75), with the cause or NO_ACK as −1. With refusal_backoff 0 no backoff is set (R11). -/
def State.refuseStep (s : State) (u : Slot) (cause : Int) : State :=
  let s := s.failRequest u false
  let s :=
    if s.params.refusalBackoff = 0 then s
    else s.setUnit u { s.unitRec u with backoff := some (later s.clock s.params.refusalBackoff) }
  (s.post .stepRefused (some u) (some cause)).compareDemand u

/-! ## Supervision by status (R72, R73, R76, R63, R64) -/

/-- The step ends by completion (R73). -/
def State.completeStep (s : State) (u : Slot) (r : Request) (k : StepKind) : State :=
  let s := (s.releaseHeld u true).post .stepDone (some u) (some (stepCode k))
  let s := s.ceaseOrder u .supervised
  let path := if r.redirected then pathOf k.dest r.dest else r.path
  let index := if r.redirected then 1 else r.index + 1
  if path.length < index then s.endRequest u
  else s.setReq u (some ({ r with conv := none, slotHeld := false }.toWaiting r.dest path index))

/-- The unit has reported the step's own mode: transitional seen, and in UNCONFIRMED mode ORDERED becomes IN_STEP (R71). -/
def Request.seenInStep (r : Request) (mode : AckMode) : Request :=
  if r.state = .ordered ∧ mode = .unconfirmed then { r with seen := true, state := .inStep, ackExpiry := none }
  else { r with seen := true }

/-- A STATUS is judged against the current step of a request under order, by the first line of R72's table that fits. -/
def State.judgeStep (s : State) (u : Slot) (r : Request) (st : PathStep) (m : Reported) : State :=
  if m = .stable st.kind.dest then s.completeStep u r st.kind
  else if m = .trip then s.failRequest u true
  else if m = .step st.kind then
    s.setReq u (some (r.seenInStep (((s.slotPort u).map (·.ackMode)).getD .confirmed)))
  else if m = .stable st.origin ∧ r.seen = false then s
  else (s.failRequest u true).post .stepAborted (some u) (some (reportedCode m))

/-- What an accepted STATUS does to the slot's request (R63, R64, R72, R76); `changed` says that the reported mode did. -/
def State.supervise (s : State) (u : Slot) (m : Reported) (changed : Bool) : State :=
  match s.req u with
  | none => s
  | some r =>
    match r.state with
    | .waiting =>
      if m = .trip then s.endRequest u
      else if changed then s.waitOn u r r.cls r.dest (s.pathTo u r.dest) else s
    | .warning =>
      if m = .trip then (s.withdraw u).endRequest u
      else if changed then s.rewarn u r r.cls r.dest else s
    | _ =>
      match r.current with
      | none => s
      | some st => s.judgeStep u r st m

/-! ## Orphans and observed converters -/

/-- The port of the slot has left QUALIFIED (R79): a request in WARNING loses its grant, one under order ends and leaves what it
held as orphaned. -/
def State.orphanRequest (s : State) (u : Slot) : State :=
  match s.req u with
  | none => s
  | some r =>
    match r.state with
    | .waiting => s
    | .warning => s.withdraw u
    | _ =>
      let s := match r.conv with
        | some c => s.setHolder c (some { slot := u, kind := .orphaned })
        | none => s
      let s := s.setOrphan u (some { conv := r.conv, slotHeld := r.slotHeld, place := true })
      (s.unwarn u).endRequest u

/-- The orphan record is released (R80). -/
def State.releaseOrphan (s : State) (u : Slot) : State :=
  match s.orphan u with
  | none => s
  | some o =>
    let s := match o.conv with
      | some c => s.setHolder c none
      | none => s
    let s := if o.slotHeld then s.updateWaterwayOf u (·.release s.clock true) else s
    s.setOrphan u none

/-- The slot holds the converter as OBSERVED. -/
def State.observes (s : State) (u : Slot) (c : Conv) : Bool := s.holder c == some { slot := u, kind := .observed }

/-- Converters the slot holds as OBSERVED become FREE (R80, R81). -/
def State.releaseObserved (s : State) (u : Slot) : State :=
  let s := if s.observes u .c1 then s.setHolder .c1 none else s
  if s.observes u .c2 then s.setHolder .c2 none else s

def Conv.other : Conv → Conv
  | .c1 => .c2
  | .c2 => .c1

/-- The slot holds the converter, in whatever kind. -/
def State.holds (s : State) (u : Slot) (c : Conv) : Bool := (s.holder c).any (fun h => h.slot == u)

/-- A slot in an unsupervised P_START names a converter (R81). -/
def State.claimObserved (s : State) (u : Slot) (c : Conv) : State :=
  if s.holds u c then s
  else if (s.holder c).isNone && !s.holds u c.other then s.setHolder c (some { slot := u, kind := .observed })
  else s.post .converterConflict (some u) (some (convNumber c))

/-! ## Grants -/

/-- A converter is configured when its number is not above the converters parameter (R85). -/
def State.configured (s : State) (c : Conv) : Bool := decide (convNumber c ≤ s.params.converters)

/-- The free configured converter of lowest number (R69). -/
def State.freeConverter (s : State) : Option Conv :=
  [Conv.c1, Conv.c2].find? (fun c => s.configured c && (s.holder c).isNone)

/-- The direction in which a slot carries flow, for the mixing condition (R68). -/
def State.flow (s : State) (u : Slot) : Direction :=
  match s.req u with
  | some r =>
    if r.granted then (r.current.map PathStep.direction).getD .still else reportedDirection (s.reported u)
  | none => reportedDirection (s.reported u)

/-- The step would set flow against another slot's in a waterway that forbids mixing (R68). -/
def State.mixes (s : State) (u : Slot) (k : StepKind) (w : Waterway) (r : WaterwayRec) : Bool :=
  let against (d : Direction) : Bool :=
    Slot.all.any (fun v => v != u && s.waterwayOf v == some w && s.flow v == d)
  match k with
  | .gStart => !r.row.mixingAllowed && against .pumping
  | .prime => !r.row.mixingAllowed && against .generating
  | _ => false

/-- The outcome of the grant test: granted, or not with the blocked reason that is recorded (R67). -/
inductive GrantTest where
  | granted
  | fails (why : Option Blocked)
deriving DecidableEq, Repr

/-- The waterway conditions of a flow-changing step (R67): a waterway in force, its count below its slot count, its settle timer
expired. -/
def flowTest (r : Option WaterwayRec) : Option Blocked :=
  match r with
  | none => some .waterway
  | some r => if r.row.slots ≤ r.inProgress then some .waterway else if r.settle.isSome then some .settle else none

/-- The grant test of R67, in the order of its table. -/
def State.testGrant (s : State) (u : Slot) (st : PathStep) : GrantTest :=
  if !(s.governs && s.dispatchable u && (s.orphan u).isNone && s.reported u == some (.stable st.origin)) then .fails none
  else if st.kind == .pStart && s.freeConverter.isNone then .fails (some .converter)
  else
    let w := s.waterwayOf u
    let r := w.bind s.waterwayRec
    match (if st.flowChanging then flowTest r else none) with
    | some why => .fails (some why)
    | none =>
      if s.params.maxConcurrent ≤ s.plantCount then .fails (some .concurrency)
      else match w, r with
        | some w, some r => if s.mixes u st.kind w r then .fails (some .mixing) else .granted
        | _, _ => .granted

/-- Send the MODE_ORDER of the current step, start its two timers and post STEP_ORDERED (R70). -/
def State.orderStep (s : State) (u : Slot) : State :=
  match s.req u, (s.unitRec u).port with
  | some r, some p =>
    match r.current with
    | none => s
    | some st =>
      let tag := (s.portRec p).tagCounter
      let s := s.sendOrder p st.kind r.conv .supervised
      let s := s.setReq u (some { r with
        state := .ordered, tag := some tag, startedAt := some s.clock, seen := false, leadExpiry := none,
        ackExpiry := some (later s.clock s.params.ackTimeout),
        stepExpiry := some (later s.clock (s.stepTimeout u st.kind)), redirected := false })
      s.post .stepOrdered (some u) (some (stepCode st.kind))
  | _, _ => s

/-- A converter is taken as GRANTED. -/
def State.takeConverter (s : State) (u : Slot) (c : Option Conv) : State :=
  match c with
  | some c => s.setHolder c (some { slot := u, kind := .granted })
  | none => s

/-- The lead of a warned step of the slot's waterway; `none` when the kind is not warned there. -/
def State.warningLead (s : State) (u : Slot) (k : StepKind) : Option Nat :=
  ((s.waterwayOf u).bind s.waterwayRec).bind (fun r => if r.row.warns k then some r.row.lead else none)

/-- A step is granted (R69): its resources are taken, and it is warned or ordered. -/
def State.grantStep (s : State) (u : Slot) (r : Request) (st : PathStep) : State :=
  let c := if st.kind = .pStart then s.freeConverter else none
  let s := s.takeConverter u c
  let s := if st.flowChanging then s.updateWaterwayOf u (fun w => { w with inProgress := w.inProgress + 1 }) else s
  let r := { r with conv := c, slotHeld := st.flowChanging, blocked := none }
  match s.warningLead u st.kind with
  | none => (s.setReq u (some r)).orderStep u
  | some lead =>
    let s := s.updateWaterwayOf u (·.warn u s.clock)
    if lead = 0 then (s.setReq u (some r)).orderStep u
    else s.setReq u (some { r with state := .warning, leadExpiry := some (later s.clock lead) })

/-- Test the next step of a waiting request, and grant it or record the blocked reason (R66, R67). -/
def State.tryGrant (s : State) (u : Slot) : State :=
  match s.req u with
  | none => s
  | some r =>
    if r.state ≠ .waiting then s
    else match r.current with
      | none => s
      | some st =>
        match s.testGrant u st with
        | .granted => s.grantStep u r st
        | .fails why => s.setReq u (some { r with blocked := why })

/-- Grant evaluation (R66): the queue is scanned once, front to back. -/
def State.evalGrants (s : State) : State := s.queue.foldl State.tryGrant s

/-- The emergency cancellation of the slot's request (R82). -/
def State.cancelRequest (s : State) (u : Slot) : State :=
  match s.req u with
  | none => s
  | some r => s.failRequest u r.ordered

/-! ## Warning phases (R88) -/

/-- The end of a pulse or gap: the next phase of the pattern, or IDLE at the end of the pulse whose number is the count. -/
def WaterwayRec.nextPhase (r : WaterwayRec) (now : Word) : WaterwayRec :=
  match r.generator with
  | none => r
  | some g =>
    if g.high then
      if r.row.count ≠ 0 ∧ g.pulse = r.row.count then { r with generator := none }
      else { r with generator := some { g with high := false, began := now, tenths := r.row.low } }
    else
      { r with generator := some { pulse := g.pulse + 1, high := true, began := now, tenths := r.row.high } }

end Sys2Proof.Machine
end

