-- ==== Sys2Proof/Machine/Planner.lean ====
section
/-! DEFINITION. The Mode Planner: row selection (R44 to R50) and assignment (R51 to R59), and the Target Stage's writes of the
planning and requested base targets (R110, R116), which start row selection. -/

namespace Sys2Proof.Machine

/-! ## Assignment -/

/-- The current mode of a slot (R52). -/
def State.currentMode (s : State) (u : Slot) : Option Stable :=
  match s.req u with
  | some r => some r.dest
  | none => s.known u

/-- A path holds P_START. -/
def needsConverter (a b : Stable) : Bool := (pathOf a b).any (fun p => p.kind == .pStart)

/-- The converter check (R55). -/
def State.converterOk (s : State) (cur mode : Stable) : Bool := !(s.params.converters == 0 && needsConverter cur mode)

/-- The mode of the opposite direction; CND and SS have none (R56). -/
def oppositeMode : Stable → Option Stable
  | .pmp => some .gen
  | .gen => some .pmp
  | _ => none

/-- Mixing is forbidden in the slot's waterway. -/
def State.forbidsMixing (s : State) (u : Slot) : Bool :=
  ((s.waterwayOf u).bind s.waterwayRec).any (fun r => !r.row.mixingAllowed)

/-- Another slot of the same waterway carries flow in the direction of `opp`: assigned it in this assignment, or held in it
(R56). -/
def State.opposed (s : State) (got : SlotMap (Option Stable)) (u : Slot) (opp : Stable) : Bool :=
  Slot.all.any (fun v => v != u && s.waterwayOf v == s.waterwayOf u
    && (got.get v == some opp || (s.unitRec v).hold.any (fun h => h.mode == opp)))

/-- The waterway mixing check (R56). -/
def State.mixingOk (s : State) (got : SlotMap (Option Stable)) (mode : Stable) (u : Slot) : Bool :=
  match oppositeMode mode with
  | none => true
  | some opp => !(s.forbidsMixing u && s.opposed got u opp)

/-- A demand being filled: the modes given so far, and the count still to be met. -/
structure Filling where
  got : SlotMap (Option Stable)
  left : Nat
deriving DecidableEq, Repr

/-- Whether a stage gives the slot the demanded mode: automatic, unassigned, of the current mode the stage takes, and passing both
checks, while the count is not met (R53, R54). -/
def State.takes (s : State) (mode cur : Stable) (a : Filling) (u : Slot) : Bool :=
  decide (a.left ≠ 0) && s.automatic u && (a.got.get u).isNone && s.currentMode u == some cur && s.converterOk cur mode
    && s.mixingOk a.got mode u

def State.takeSlot (s : State) (mode cur : Stable) (a : Filling) (u : Slot) : Filling :=
  if s.takes mode cur a u then { got := a.got.set u (some mode), left := a.left - 1 } else a

/-- One walk of the rotation order for one current mode. -/
def State.fillStage (s : State) (mode : Stable) (a : Filling) (cur : Stable) : Filling :=
  s.ros.rotation.foldl (s.takeSlot mode cur) a

/-- The current modes the closeness stage takes, nearest first (R54). -/
def closeness : Stable → List Stable
  | .pmp => [.cnd, .ss, .gen]
  | .gen => [.ss, .cnd, .pmp]
  | .cnd => [.pmp, .ss, .gen]
  | .ss => []

/-- Fill one demand: keep-first, then closeness (R53, R54). -/
def State.fillDemand (s : State) (mode : Stable) (n : Nat) (got : SlotMap (Option Stable)) : Filling :=
  (mode :: closeness mode).foldl (s.fillStage mode) { got := got, left := n }

/-- The assignment of a row: the mode of each slot taken, and the three shortfalls (R53, R58). -/
structure Assignment where
  got : SlotMap (Option Stable)
  shortPmp : Nat
  shortGen : Nat
  shortCnd : Nat
deriving DecidableEq, Repr

/-- The demands in the order PMP, GEN, CND (R53). -/
def State.assignRow (s : State) (row : PlanRow) : Assignment :=
  let p := s.fillDemand .pmp row.nPmp (.const none)
  let g := s.fillDemand .gen row.nGen p.got
  let c := s.fillDemand .cnd row.nCnd g.got
  { got := c.got, shortPmp := p.left, shortGen := g.left, shortCnd := c.left }

/-- The desired modes: an automatic slot left unassigned is given SS, and any other slot has none (R57). -/
def State.desiredOf (s : State) (a : Assignment) : SlotMap (Option Stable) :=
  .ofFn (fun u => if s.automatic u then some ((a.got.get u).getD .ss) else none)

/-- PLAN_SHORT and its counts, with the event when the flag was clear (R58). -/
def State.notePlanShort (s : State) (a : Assignment) : State :=
  let sum := a.shortPmp + a.shortGen + a.shortCnd
  let t := s.setPln { s.pln with
    short := decide (sum ≠ 0), shortPmp := a.shortPmp, shortGen := a.shortGen, shortCnd := a.shortCnd }
  if sum ≠ 0 ∧ s.pln.short = false then t.post .planShort none (some sum) else t

/-- The selected row of the table in force. -/
def State.selectedRow (s : State) : Option PlanRow :=
  match s.pln.table, s.pln.selected with
  | some rows, some k => rows[k]?
  | _, _ => none

/-- A slot's desired mode is handed to the TRS (R57, R62); `old` holds the modes handed before. To a request under order the same
mode again is no change of demand, so R64 does not replace its destination (DEDUCED: notes/assumptions/10.md). -/
def State.handDesired (old : SlotMap (Option Stable)) (s : State) (u : Slot) : State :=
  if s.underOrder u && s.pln.desired.get u == old.get u then s else s.takeDemand u

/-- Assignment for the selected row (R51 to R58): the desired modes are handed to the TRS in rotation order. DESIGN CHOICE: at
ENABLE, where R83 gives the two classes no order, the held slots' requests are made before it and take the older entry numbers
(notes/assumptions/10.md). -/
def State.assign (s : State) : State :=
  match s.selectedRow with
  | none => s
  | some row =>
    let a := s.assignRow row
    let t := (s.setPln { s.pln with desired := s.desiredOf a }).notePlanShort a
    t.ros.rotation.foldl (State.handDesired s.pln.desired) t

/-- With no row selected, a slot that stopped being automatic loses its desired mode, and the absence is handed (R59);
`before` is the state before the event. -/
def State.dropDesired (before : State) (s : State) (u : Slot) : State :=
  if before.automatic u && !s.automatic u then
    (s.setPln { s.pln with desired := s.pln.desired.set u none }).takeDemand u
  else s

/-- What the events of R51 start: assignment when a row is selected, and R59 otherwise; nothing in STANDBY (R43). -/
def State.replan (before : State) (s : State) : State :=
  if !s.governs then s
  else if s.pln.selected.isSome then s.assign
  else s.ros.rotation.foldl (State.dropDesired before) s

/-! ## Row selection -/

/-- A row contains a planning target (section 3.1). -/
def PlanRow.contains (r : PlanRow) (x : Int) : Bool := decide (r.lower ≤ x ∧ x ≤ r.upper)

/-- The lowest-numbered row that contains `x` (R47). -/
def candidateRow (rows : List PlanRow) (x : Int) : Option Nat := rows.findIdx? (fun r => r.contains x)

/-- A standing proposal is dropped and the dwell timer stopped. -/
def State.dropProposal (s : State) : State := s.setPln { s.pln with proposal := none }
/-- PLAN_GAP is cleared, without an event. -/
def State.clearGap (s : State) : State := s.setPln { s.pln with gap := false }

/-- R46. -/
def State.planGap (s : State) : State :=
  let t := s.setPln { s.pln with proposal := none, gap := true }
  if s.pln.gap then t else t.post .planGap none (some s.tgt.plan)

/-- Adoption of a row (R50). -/
def State.adopt (s : State) (k : Nat) : State :=
  let s := s.setPln { s.pln with selected := some k, proposal := none, gap := false }
  (s.post .rowAdopted none (some k)).assign

/-- The planning target lies outside the selected row and in the candidate `k` (R47); `expired` says that the dwell timer has
just expired. -/
def State.proposeRow (expired : Bool) (s : State) (k : Nat) : State :=
  let s := s.clearGap
  if s.pln.proposal.any (fun p => p.row == k) then (if expired then s.adopt k else s)
  else if s.params.dwell = 0 then s.adopt k
  else s.setPln { s.pln with proposal := some { row := k, expiry := later s.clock s.params.dwell } }

/-- Row selection (R44 to R48). -/
def State.selectRow (expired : Bool) (s : State) : State :=
  let rows := s.pln.table.getD []
  let x := s.tgt.plan
  if s.selectedRow.any (fun r => r.contains x) then s.dropProposal.clearGap
  else match candidateRow rows x with
    | none => s.planGap
    | some k => if s.pln.selected.isNone then s.adopt k else s.proposeRow expired k

/-! ## The targets that the planner and the ramp read -/

/-- Write the planning target; a new value is handed to the PLN while the part governs (R110). -/
def State.setPlanTarget (s : State) (x : Int) : State :=
  if x = s.tgt.plan then s
  else
    let s := s.setTgt { s.tgt with plan := x }
    if s.governs then s.selectRow false else s

/-- Write the requested base target (R110). With ramp_rate 0 the ramped target takes a new value at once while the part
governs (R116); in DIRECT and PATTERN the planning target follows. -/
def State.setReqBase (s : State) (v : Int) : State :=
  let v := clampPlant v
  let ramped := if v ≠ s.tgt.reqBase ∧ s.params.rampRate = 0 ∧ s.governs = true then v else s.tgt.ramped
  let s := s.setTgt { s.tgt with reqBase := v, ramped := ramped }
  if s.tgt.source = .profile then s else s.setPlanTarget v

/-- The allocation target, formed whenever it is read (R117). -/
def State.allocationTarget (s : State) : Int := clampPlant (s.tgt.ramped + s.tgt.increment)

/-! ## The pattern generator (R122) -/

/-- The factor k of a STAIR position. -/
def stairFactor : Nat → Int
  | 0 => 0 | 1 => 1 | 2 => 2 | 3 => 3 | 4 => 4 | 5 => 3 | 6 => 2 | 7 => 1
  | _ => 0

/-- The level of a position; a STAIR quotient is brought toward zero. -/
def Pattern.level (p : Pattern) (pos : Nat) : Int :=
  match p.shape with
  | .square => if pos = 0 then p.low else p.high
  | .stair => p.low + (stairFactor pos * (p.high - p.low)).tdiv 4

/-- The number of positions of a shape. -/
def Shape.positions : Shape → Nat
  | .square => 2
  | .stair => 8

/-- A level handed to the TGT: applied while the part is STANDBY or DISPATCHING, and discarded in FALLBACK. -/
def State.handLevel (s : State) (level : Int) : State := if s.inFallback then s else s.setReqBase level

/-- The generator starts at position 0 and hands its level. -/
def State.startPattern (s : State) : State :=
  let s := s.setTgt { s.tgt with run := some { pos := 0, expiry := later s.clock s.tgt.pattern.period } }
  s.handLevel (s.tgt.pattern.level 0)

end Sys2Proof.Machine
end

