-- ==== Sys2Proof/Machine/Allocator.lean ====
section
/-! DEFINITION. The Setpoint Allocator: contributions (R93, R94), saturation and sharing (R95 to R98), rough zones and absorption
(R99, R100), shortfall and flags (R101, R102), setpoint emission (R103 to R105). -/

namespace Sys2Proof.Machine

/-! ## Contributions -/

/-- The fixed value of a step (R94). -/
def State.stepValue (s : State) (u : Slot) (k : StepKind) : Int :=
  match k with
  | .gStart | .stop => 0
  | .pStart | .deprime => -(s.limits u).condense
  | .prime => -(s.limits u).pump

/-- The step of the line STEP: the current step of a request under order, else the reported step (R93). -/
def State.stepOf (s : State) (u : Slot) : Option StepKind :=
  match (s.req u).filter Request.ordered with
  | some r => r.current.map (·.kind)
  | none => match s.reported u with
    | some (.step k) => some k
    | _ => none

/-- The settled setpoint of the slot's hold. -/
def State.settled (s : State) (u : Slot) : Option Int := (s.unitRec u).hold.bind (·.settled)

/-- The line OUTSIDE: unmapped, not QUALIFIED, or not remote (R93). -/
def State.outside (s : State) (u : Slot) : Bool :=
  s.portState u != .qualified || !(s.unitRec u).report.any (·.remote)

/-- The contribution line of a slot with its fixed value; the value of REGULATING is 0 here and is its share in the end (R93). -/
def State.contribution (s : State) (u : Slot) : Line × Int :=
  if s.outside u then (.outside, s.power u)
  else if (s.reported u == some (.stable .ss) || s.reported u == some .trip) && !s.underOrder u then (.stopped, 0)
  else match s.stepOf u with
    | some k => (.step, s.stepValue u k)
    | none =>
      if s.reported u = some (.stable .pmp) then (.pumping, -(s.limits u).pump)
      else if s.reported u = some (.stable .cnd) then (.condensing, -(s.limits u).condense)
      else if !s.dispatchable u then (.genOut, s.power u)
      else match s.settled u with
        | some v => (.genHeld, v)
        | none => if s.automatic u then (.regulating, 0) else (.genOther, s.power u)

/-- The slot reaches the line REGULATING. -/
def State.regulates (s : State) (u : Slot) : Bool := (s.contribution u).1 == .regulating

/-- The regulating units in rotation order (R95). -/
def State.regulating (s : State) : List Slot := s.ros.rotation.filter s.regulates

/-- The sum of the fixed contributions (R92). -/
def State.fixedSum (s : State) : Int := (Slot.all.map (fun u => (s.contribution u).2)).sum

/-- A regulating unit as the division sees it. -/
structure RegUnit where
  slot : Slot
  least : Int
  most : Int
  zone : Option (Int × Int)
  share : Int
  floored : Option Int
  before : Int
  moved : Bool
deriving DecidableEq, Repr

/-- The regulating unit of a slot, with its limits and no share yet (R95). -/
def State.regUnit (s : State) (u : Slot) : RegUnit :=
  let c := s.limits u
  { slot := u, least := c.genMin, most := c.genMax, zone := c.zone, share := 0, floored := none, before := 0, moved := false }

def sumMin (us : List RegUnit) : Int := (us.map (·.least)).sum
def sumMax (us : List RegUnit) : Int := (us.map (·.most)).sum
/-- The sum of the ranges (R95). -/
def sumRange (us : List RegUnit) : Int := (us.map (fun q => q.most - q.least)).sum
def sumShares (us : List RegUnit) : Int := (us.map (·.share)).sum

/-! ## Sharing -/

/-- The share before remainder of a unit, for `x` above the sum of the lower limits (R97). -/
def RegUnit.proportion (q : RegUnit) (x range : Int) : Int := q.least + x * (q.most - q.least) / range

/-- The shares before remainder, each recorded (R97). -/
def proportional (r : Int) (us : List RegUnit) : List RegUnit :=
  let x := r - sumMin us
  let range := sumRange us
  us.map (fun q => { q with share := q.proportion x range, floored := some (q.proportion x range) })

/-- One step to each of the first `n` units in rotation order (R98). -/
def addRemainder : Nat → List RegUnit → List RegUnit
  | 0, us => us
  | _, [] => []
  | n + 1, q :: us => { q with share := q.share + 1 } :: addRemainder n us

/-- The shares before zones (R97, R98). -/
def sharesBeforeZones (r : Int) (us : List RegUnit) : List RegUnit :=
  let ps := proportional r us
  (addRemainder (r - sumShares ps).toNat ps).map (fun q => { q with before := q.share })

/-- Move a share out of its rough zone and mark it (R99). -/
def RegUnit.leaveZone (q : RegUnit) : RegUnit :=
  let v := outOfZone q.zone q.share
  { q with share := v, moved := decide (v ≠ q.share) }

/-- The displacement (R99). -/
def displacement (us : List RegUnit) : Int := (us.map (fun q => q.share - (outOfZone q.zone q.share))).sum

/-- The limit a unit can rise to (R100). -/
def RegUnit.ceiling (q : RegUnit) : Int :=
  match q.zone with
  | some (lo, _) => if q.share ≤ lo then lo else q.most
  | none => q.most

/-- The limit a unit can fall to (R100). -/
def RegUnit.floor (q : RegUnit) : Int :=
  match q.zone with
  | some (_, hi) => if hi ≤ q.share then hi else q.least
  | none => q.least

/-- What an unmoved unit takes of `d`: as much as its room allows (R100). -/
def RegUnit.takes (q : RegUnit) (d : Int) : Int :=
  if q.moved then 0
  else if 0 < d then min d (q.ceiling - q.share)
  else if d < 0 then max d (q.floor - q.share)
  else 0

/-- The absorption walk: the shares after it, and what is left of `d` (R100). -/
def absorb : Int → List RegUnit → List RegUnit × Int
  | d, [] => ([], d)
  | d, q :: us =>
    let t := q.takes d
    let rest := absorb (d - t) us
    ({ q with share := q.share + t } :: rest.1, rest.2)

/-- The three ways an allocation can end (R102). -/
inductive AllocCondition where
  | met | low | high | zone
deriving DecidableEq, Repr

/-- The division of the residual among the regulating units. -/
structure Division where
  units : List RegUnit
  shortfall : Int
  condition : AllocCondition
deriving DecidableEq, Repr

/-- Saturation (R96) or sharing (R97 to R100). -/
def divide (r : Int) (us : List RegUnit) : Division :=
  if r < sumMin us then
    { units := us.map (fun q => { q with share := q.least, before := q.least }), shortfall := r - sumMin us, condition := .low }
  else if sumMax us < r then
    { units := us.map (fun q => { q with share := q.most, before := q.most }), shortfall := r - sumMax us, condition := .high }
  else
    let bz := sharesBeforeZones r us
    let done := absorb (displacement bz) (bz.map RegUnit.leaveZone)
    { units := done.1, shortfall := done.2, condition := if done.2 = 0 then .met else .zone }

/-! ## The result, the flags and the emission -/

/-- The recorded share of a slot (R93, R98, R99). -/
def State.shareOf (s : State) (units : List RegUnit) (u : Slot) : SlotShare :=
  match units.find? (fun q => q.slot == u) with
  | some q =>
    { line := .regulating, value := q.share, beforeRemainder := q.floored, beforeZones := some q.before, moved := q.moved }
  | none =>
    { line := (s.contribution u).1, value := (s.contribution u).2, beforeRemainder := none, beforeZones := none,
      moved := false }

/-- One allocation, as a result over the state it reads (R92 to R101). -/
def State.division (s : State) : Division :=
  divide (s.allocationTarget - s.fixedSum) (s.regulating.map s.regUnit)

def State.allocation (s : State) : Allocation :=
  { target := s.allocationTarget, shares := .ofFn (s.shareOf s.division.units) }

/-- The allocator's new state (R101, R102). -/
def State.allocated (s : State) : Alc :=
  { last := some s.allocation, shortfall := s.division.shortfall,
    lowSat := s.division.condition == .low, highSat := s.division.condition == .high,
    zoneShort := s.division.condition == .zone }

/-- A flag set by an allocation while it was clear posts its event with the shortfall (R102). -/
def State.postAllocFlags (old : Alc) (s : State) : State :=
  if s.alc.lowSat && !old.lowSat then s.post .lowSat none (some s.alc.shortfall)
  else if s.alc.highSat && !old.highSat then s.post .highSat none (some s.alc.shortfall)
  else if s.alc.zoneShort && !old.zoneShort then s.post .zoneShort none (some s.alc.shortfall)
  else s

/-- `v` is a limit or a zone edge of the record (R103, case 3). -/
def CapRecord.isEdge (c : CapRecord) (v : Int) : Bool :=
  v == c.genMin || v == c.genMax || c.zone.any (fun z => v == z.1 || v == z.2)

/-- `v` lies within the limits and not strictly inside the zone (R103, case 4; R104). -/
def CapRecord.lawful (c : CapRecord) (v : Int) : Bool :=
  decide (c.genMin ≤ v ∧ v ≤ c.genMax) && !c.zone.any (fun z => decide (z.1 < v ∧ v < z.2))

/-- The emission test of R103. -/
def emits (c : CapRecord) (deadband : Nat) (last : Option Int) (v : Int) : Bool :=
  match last with
  | none => true
  | some l => v != l && (decide (deadband ≤ (v - l).natAbs) || c.isEdge v || !c.lawful l)

/-- Send a SETPOINT and record it as the last one sent (R105). -/
def State.sendSetpoint (s : State) (u : Slot) (v : Int) : State :=
  match (s.unitRec u).port with
  | none => s
  | some p =>
    let s := s.setUnit u { s.unitRec u with lastSetpoint := some { value := v, time := s.clock } }
    s.hand p (.setpoint v)

/-- The emission for one slot, by the line and value of the allocation just made (R103). -/
def State.emitSetpoint (s : State) (u : Slot) : State :=
  match s.alc.last.map (fun a => a.shares.get u) with
  | none => s
  | some q =>
    if (q.line = .regulating ∨ q.line = .genHeld)
        ∧ emits (s.limits u) s.params.deadband ((s.unitRec u).lastSetpoint.map (·.value)) q.value = true
    then s.sendSetpoint u q.value
    else s

/-- One allocation with its flags and setpoints (R92 to R105). DESIGN CHOICE: R105 gives the SETPOINTs to different ports no order among
themselves; the model hands them U1 to U8 (notes/assumptions/40.md). -/
def State.allocate (s : State) : State :=
  let t := (s.setAlc s.allocated).postAllocFlags s.alc
  Slot.all.foldl State.emitSetpoint t

end Sys2Proof.Machine
end

