-- ==== Sys2Proof/Machine/Cascade.lean ====
section
/-! DEFINITION. What one command causes in the other blocks (notes/assumptions/5.md): the PLN's assignment (R51, R59), the
TRS's withdrawal (R77) and grant evaluation (R66), and one allocation (R91), each when the command has changed what the rule
names. The changes are read off the state before the command and the state its own effect has left. -/

namespace Sys2Proof.Machine

/-! ## What has changed -/

/-- Some slot's automatic condition differs (R51). -/
def autoChanged (before after : State) : Bool := Slot.all.any (fun u => before.automatic u != after.automatic u)

/-- What R66 calls joining, being redirected in place and changing class: a request that waits after the event and did not wait
so before it. -/
def queueChanged (before after : State) (u : Slot) : Bool :=
  (after.req u).any (fun r => r.state == .waiting
    && !(before.req u).any (fun q => q.state == .waiting && q.entry == r.entry && q.cls == r.cls && q.dest == r.dest
      && q.path == r.path && q.index == r.index))

/-- A converter, a waterway slot or a concurrency place has been released. -/
def resourceReleased (before after : State) : Bool :=
  ((before.holder .c1).isSome && (after.holder .c1).isNone) || ((before.holder .c2).isSome && (after.holder .c2).isNone)
    || Waterway.all.any (fun w => match before.waterwayRec w, after.waterwayRec w with
        | some a, some b => decide (b.inProgress < a.inProgress)
        | _, _ => false)
    || decide (after.plantCount < before.plantCount)

/-- The events of R66 that a comparison of states shows; a settle expiry and a change of max_concurrent or converters are
given to `finish` by their commands. -/
def grantsDue (before after : State) : Bool :=
  Slot.all.any (fun u => queueChanged before after u
      || (!before.dispatchable u && after.dispatchable u)
      || (before.reported u != after.reported u && (after.reported u).isSome))
    || resourceReleased before after
    || (before.pli.part != .dispatching && after.pli.part == .dispatching)

/-- What marks a request's current step under order: a change of it is a step entering ORDERED, or a request in ORDERED or IN_STEP
ending or returning to WAITING (R91). -/
def orderMark (s : State) (u : Slot) : Option (Word × Option Byte × Option Word) :=
  ((s.req u).filter Request.ordered).map (fun r => (r.entry, r.tag, r.startedAt))

/-- The fields of a slot that R91 names. -/
def slotChanged (before after : State) (u : Slot) : Bool :=
  let a := before.unitRec u
  let b := after.unitRec u
  a.report.map (fun r => (r.mode, r.power, r.remote, r.available)) != b.report.map (fun r => (r.mode, r.power, r.remote, r.available))
    || before.portState u != after.portState u
    || before.dispatchable u != after.dispatchable u || before.automatic u != after.automatic u
    || a.trip != b.trip || a.fault != b.fault || a.backoff != b.backoff
    || a.hold.bind (·.settled) != b.hold.bind (·.settled)
    || orderMark before u != orderMark after u

/-- The events of R91 that a comparison of states shows; ENABLE, the writing or removal of a hold and a capability commit are given
to `finish` by their commands. -/
def allocationDue (before after : State) : Bool :=
  before.tgt.ramped != after.tgt.ramped || before.tgt.increment != after.tgt.increment
    || before.headInUse != after.headInUse || Slot.all.any (slotChanged before after)

/-! ## The cascade -/

/-- A slot that has stopped being dispatchable loses the grant of a request in WARNING (R77). -/
def State.dropGrant (before : State) (s : State) (u : Slot) : State :=
  if before.dispatchable u && !s.dispatchable u && (s.req u).any (fun r => r.state == .warning) then s.withdraw u else s

/-- What a command asks of the cascade beyond what the comparison of states shows, and the slots whose demand the TRS takes up
after the PLN has acted (R13, R63, R83). -/
structure Causes where
  replan : Bool := false
  grants : Bool := false
  allocate : Bool := false
  hand : List Slot := []

/-- The PLN's part of the cascade, with R77. -/
def State.planStage (s before : State) (c : Causes) : State :=
  let s := Slot.all.foldl (State.dropGrant before) s
  let s := if autoChanged before s || c.replan then State.replan before s else s
  c.hand.foldl State.takeDemand s

/-- The TRS's part: one grant evaluation. -/
def State.grantStage (s before : State) (c : Causes) : State :=
  if grantsDue before s || c.grants then s.evalGrants else s

/-- The ALC's part: one allocation while the part governs. -/
def State.allocStage (s before : State) (c : Causes) : State :=
  if s.governs && (allocationDue before s || c.allocate) then s.allocate else s

/-- The whole cascade after a command's own effect (`s`), from the state before the command. -/
def State.finish (s before : State) (c : Causes := {}) : State :=
  ((s.planStage before c).grantStage before c).allocStage before c

end Sys2Proof.Machine
end

