-- ==== Sys2Proof/Machine/Playback.lean ====
section
/-! DEFINITION. The Profile Store and the Interval Clock: the directory (R123), the handing of values (R114, R131), boundaries
(R132), counted markers (R134, R135), holdover (R136), realignment (R137) and the marker output's pulses (R138). -/

namespace Sys2Proof.Machine

/-! ## The profile store (R123) -/

/-- The entry pool. -/
def poolSize : Nat := 4096
/-- The directory's limit. -/
def maxProfiles : Nat := 16

/-- The entries held by defined profiles. -/
def State.entriesHeld (s : State) : Nat := (s.prf.dir.map (fun p => p.entries.length)).sum

/-- The free total (R123). -/
def State.freeTotal (s : State) : Nat := poolSize - s.entriesHeld

/-- The defined profile of a stored name. -/
def State.profileNamed (s : State) (name : List Byte) : Option Profile := s.prf.dir.find? (fun p => p.name == name)

def State.setDir (s : State) (dir : List Profile) : State := s.setPrf { s.prf with dir := dir }

/-- A playback in ARMED, ALIGNED or PLAYING has its profile in use (R127). -/
def PlayState.inUse : PlayState → Bool
  | .armed | .aligned | .playing => true
  | .idle | .ended => false

/-- The record is ALIGNED or PLAYING: the clock supervises its boundaries. -/
def PlayState.clocked : PlayState → Bool
  | .aligned | .playing => true
  | .idle | .armed | .ended => false

/-- The profile the playback record names. -/
def State.playing (s : State) : Option Profile := s.prf.playback.profile.bind s.profileNamed

/-! ## Handing values (R131) -/

/-- The interval length I in seconds (R131). -/
def Profile.seconds (p : Profile) : Nat := 60 * p.minutes

/-- The next entry (R128). -/
def Playback.nextEntry (b : Playback) (p : Profile) : Option Nat :=
  match b.state, b.current with
  | .aligned, _ => some 0
  | .playing, some k => if k + 1 < p.entries.length then some (k + 1) else if p.rep then some 0 else none
  | _, _ => none

/-- The value of an entry, as it stands now. -/
def Profile.value (p : Profile) (k : Nat) : Int := p.entries.getD k 0

/-- Hand an entry's plan value: the TGT applies it while the source is PROFILE (R114). -/
def State.handPlan (s : State) (v : Int) : State :=
  let s := s.setPlayback { s.prf.playback with planHanded := true }
  if s.tgt.source = .profile then s.setPlanTarget v else s

/-- Hand an entry's ramp value: the TGT applies it while the source is PROFILE (R114). -/
def State.handRamp (s : State) (v : Int) : State :=
  let s := s.setPlayback { s.prf.playback with rampHanded := true }
  if s.tgt.source = .profile then s.setReqBase v else s

/-- The switching time of an advance before the expected next boundary `e`: the smaller of the advance and I counts (R131). -/
def switchingTime (e : Word) (advance seconds : Nat) : Word := e - BitVec.ofNat 32 (min advance seconds)

/-- The plan value of the next entry that is due and not yet handed, if there is one. -/
def State.duePlan (s : State) : Option Int :=
  match s.playing, s.prf.playback.next with
  | some p, some e =>
    if s.prf.playback.planHanded || !reached s.clock (switchingTime e s.params.planAdvance p.seconds) then none
    else (s.prf.playback.nextEntry p).map p.value
  | _, _ => none

/-- The ramp value of the next entry that is due and not yet handed, if there is one. -/
def State.dueRamp (s : State) : Option Int :=
  match s.playing, s.prf.playback.next with
  | some p, some e =>
    if s.prf.playback.rampHanded || !reached s.clock (switchingTime e s.params.rampAdvance p.seconds) then none
    else (s.prf.playback.nextEntry p).map p.value
  | _, _ => none

/-- Meet the plan switching time when it is due. -/
def State.meetPlan (s : State) : State :=
  match s.duePlan with
  | some v => s.handPlan v
  | none => s

/-- Meet the ramp switching time when it is due. -/
def State.meetRamp (s : State) : State :=
  match s.dueRamp with
  | some v => s.handRamp v
  | none => s

/-- Meet the switching times that are due, plan value before ramp value (R131). -/
def State.meetDue (s : State) : State := s.meetPlan.meetRamp

/-! ## Boundaries (R132) -/

/-- Hand the kinds of the beginning entry's value not yet handed (R132). -/
def State.completeHanding (s : State) (v : Int) : State :=
  let s' := if s.prf.playback.planHanded then s else s.handPlan v
  if s.prf.playback.rampHanded then s' else s'.handRamp v

/-- An entry begins at the part clock (R132). -/
def State.beginEntry (s : State) (p : Profile) (k : Nat) : State :=
  let aligned := s.prf.playback.state == .aligned
  let s := s.completeHanding (p.value k)
  let s := s.setPlayback { s.prf.playback with
    state := .playing, current := some k, last := some s.clock, next := some (later s.clock p.seconds),
    planHanded := false, rampHanded := false }
  let s := s.meetDue
  if aligned then s.post .profileStarted none (some p.entries.length) else s

/-- The record enters ENDED (R132). -/
def State.endProfile (s : State) (p : Profile) : State :=
  let s := s.setPlayback { s.prf.playback with state := .ended, last := none, next := none, markerLost := false }
  s.post .profileEnded none (some p.entries.length)

/-- A boundary that ends an interval (R132). -/
def State.boundary (s : State) : State :=
  match s.playing with
  | none => s
  | some p =>
    match s.prf.playback.nextEntry p with
    | some k => s.beginEntry p k
    | none => if s.prf.playback.state = .playing then s.endProfile p else s

/-- The ramp value that completes the beginning entry's handing moves the ramped target at once (R116): a change that R91 names, though
the next entry's value, handed at the same boundary, may move it back. -/
def State.boundaryMoves (s : State) : Bool :=
  s.playing.any (fun p =>
    (s.prf.playback.nextEntry p).any (fun k => (s.completeHanding (p.value k)).tgt.ramped != s.tgt.ramped))

/-- A pulse begins on the marker output, or restarts there (R138). -/
def State.pulse (s : State) : State := s.setPrf { s.prf with pulse := some s.params.markerOutWidth }

/-- The divider count returns to 0 (R134). -/
def State.clearDivider (s : State) : State := s.setPrf { s.prf with divider := 0 }

/-! ## Counted markers and holdover -/

/-- The alignment boundary (R135), with the switching times that lie at or before it (R131; notes/assumptions/14.md). -/
def State.align (s : State) (p : Profile) : State :=
  let s := s.setPlayback { s.prf.playback with
    state := .aligned, last := some s.clock, next := some (later s.clock p.seconds), planHanded := false, rampHanded := false }
  s.meetDue

/-- At least half of I has passed since the last boundary (R137). -/
def State.halfPassed (s : State) (p : Profile) : Bool :=
  decide (30 * p.minutes ≤ elapsed s.clock (s.prf.playback.last.getD s.clock))

/-- The first counted marker while MARKER_LOST stands (R137). -/
def State.realign (s : State) (p : Profile) : State :=
  let whole := s.halfPassed p
  let s := if whole then s.boundary
    else s.setPlayback { s.prf.playback with next := some (later s.clock p.seconds) }
  let s := s.setPlayback { s.prf.playback with markerLost := false }
  (s.post .markerRestored none (some (if whole then 1 else 0))).clearDivider

/-- What a counted marker does to playback (R134). -/
def State.countedMarker (s : State) : State :=
  match s.playing with
  | none => s
  | some p =>
    match s.prf.playback.state with
    | .idle | .ended => s
    | .armed => s.align p
    | .aligned | .playing => if s.prf.playback.markerLost then s.realign p else s.boundary

/-- An active edge in FOLLOW mode (R134): the count rises, and at marker_divider the edge is a counted marker, which also pulses
the output (R138). -/
def State.activeEdge (s : State) : State :=
  if s.params.markerDivider ≤ s.prf.divider + 1 then s.clearDivider.pulse.countedMarker
  else s.setPrf { s.prf with divider := s.prf.divider + 1 }

/-- An active edge makes a boundary that moves the ramped target (`State.boundaryMoves`). -/
def State.edgeMoves (s : State) : Bool :=
  decide (s.params.markerDivider ≤ s.prf.divider + 1) && (!s.prf.playback.markerLost || s.playing.any s.halfPassed)
    && s.boundaryMoves

/-- A boundary made by the clock itself in FOLLOW mode (R136): it pulses the output, and sets MARKER_LOST with its event where it
was clear (notes/assumptions/15.md for a boundary that ends the profile). -/
def State.holdover (s : State) : State :=
  let first := !s.prf.playback.markerLost
  let s := s.boundary.pulse
  if first then
    match s.prf.playback.state with
    | .ended => s.post .markerLost none (some 0)
    | _ =>
      (s.setPlayback { s.prf.playback with markerLost := true }).post .markerLost none
        (some ((s.prf.playback.current.map Int.ofNat).getD 0))
  else s

/-- The instant at which the clock makes a boundary itself in FOLLOW mode (R136). -/
def State.holdoverTime (s : State) (p : Profile) : Option Word :=
  s.prf.playback.next.map (fun e => if s.prf.playback.markerLost then e else later e (6 * p.minutes))

end Sys2Proof.Machine
end

