-- ==== Sys2Proof/Machine/Configuration.lean ====
section
/-! DEFINITION. The meanings of CONFIG_SET and CONFIG_GET (R170): the parameters, how a value is stored, and what a change does
(the owners' rules). -/

namespace Sys2Proof.Machine

def kindConfigSet : Byte := 1
def kindConfigGet : Byte := 2

/-- The parameters in the order of the table of R170, numbered from 1 (R183). -/
inductive Param where
  | rampRate | regLimit | deadband | dwell | planAdvance | rampAdvance | linkTimeout | levelTimeout | unitTimeout | ackTimeout
  | refusalBackoff | headLoss | headOverride | converters | maxConcurrent | markerMode | markerDivider | markerPolarity
  | markerOutWidth | autoResume
  | ackMode (p : Port)
deriving DecidableEq, Repr

/-- The parameter of a number, or why there is none: an unknown parameter (index 1), or a bad port for ack_mode (index 3)
(R170). The port byte is read for ack_mode alone (R183). -/
def paramOfCode (param port : Byte) : Except Nat Param :=
  match param.toNat with
  | 1 => .ok .rampRate | 2 => .ok .regLimit | 3 => .ok .deadband | 4 => .ok .dwell | 5 => .ok .planAdvance
  | 6 => .ok .rampAdvance | 7 => .ok .linkTimeout | 8 => .ok .levelTimeout | 9 => .ok .unitTimeout | 10 => .ok .ackTimeout
  | 11 => .ok .refusalBackoff | 12 => .ok .headLoss | 13 => .ok .headOverride | 14 => .ok .converters
  | 15 => .ok .maxConcurrent | 16 => .ok .markerMode | 17 => .ok .markerDivider | 18 => .ok .markerPolarity
  | 19 => .ok .markerOutWidth | 20 => .ok .autoResume
  | 21 => match portOfCode port with
    | some p => .ok (.ackMode p)
    | none => .error 3
  | _ => .error 1

/-- A long-timer value with the given least value (R170); a value below the range is stored as the lowest. -/
def storeLong (least : Nat) (v : Int) : Nat := if v ≤ 0 then least else longTimer v.toNat

/-- Into `lo … hi` (R170). -/
def storeRange (lo hi : Nat) (v : Int) : Nat := (clampInt lo hi v).toNat

/-- One of `n` named values, numbered from 0 (R183). -/
def storeNamed (n : Nat) (v : Int) : Option Nat := if 0 ≤ v ∧ v < n then some v.toNat else none

/-- The value that is stored for a value sent (R170); `none` for a name that is none of the parameter's. -/
def Param.store (q : Param) (v : Int) : Option Nat :=
  match q with
  | .rampRate => some (storeRange 0 2000 v)
  | .regLimit => some (storeRange 0 5000 v)
  | .deadband => some (storeRange 0 50 v)
  | .dwell => some (storeLong 0 v)
  | .planAdvance => some (storeRange 0 1800 v)
  | .rampAdvance => some (storeRange 0 900 v)
  | .linkTimeout => some (storeRange 1 60 v)
  | .levelTimeout => some (storeLong 1 v)
  | .unitTimeout => some (storeRange 1 10 v)
  | .ackTimeout => some (storeRange 1 15 v)
  | .refusalBackoff => some (storeLong 0 v)
  | .headLoss => some (storeRange 0 500 v)
  | .headOverride => some (storeRange 0 10000 v)
  | .converters => some (storeRange 0 2 v)
  | .maxConcurrent => some (storeRange 1 8 v)
  | .markerMode => storeNamed 2 v
  | .markerDivider => some (storeRange 1 60 v)
  | .markerPolarity => storeNamed 2 v
  | .markerOutWidth => some (storeRange 1 25 v)
  | .autoResume => storeNamed 2 v
  | .ackMode _ => storeNamed 2 v

/-- The value a parameter holds, as a frame carries it (R183). -/
def State.held (s : State) (q : Param) : Nat :=
  let c := s.params
  match q with
  | .rampRate => c.rampRate
  | .regLimit => c.regLimit
  | .deadband => c.deadband
  | .dwell => c.dwell
  | .planAdvance => c.planAdvance
  | .rampAdvance => c.rampAdvance
  | .linkTimeout => c.linkTimeout
  | .levelTimeout => c.levelTimeout
  | .unitTimeout => c.unitTimeout
  | .ackTimeout => c.ackTimeout
  | .refusalBackoff => c.refusalBackoff
  | .headLoss => c.headLoss
  | .headOverride => c.headOverride
  | .converters => c.converters
  | .maxConcurrent => c.maxConcurrent
  | .markerMode => (match c.markerMode with | .lead => 0 | .follow => 1)
  | .markerDivider => c.markerDivider
  | .markerPolarity => (match c.markerPolarity with | .pos => 0 | .neg => 1)
  | .markerOutWidth => c.markerOutWidth
  | .autoResume => if c.autoResume then 1 else 0
  | .ackMode p => (match (s.portRec p).ackMode with | .confirmed => 0 | .unconfirmed => 1)

/-- Write a stored value. -/
def State.writeParam (s : State) (q : Param) (n : Nat) : State :=
  let c := s.params
  match q with
  | .rampRate => s.setParams { c with rampRate := n }
  | .regLimit => s.setParams { c with regLimit := n }
  | .deadband => s.setParams { c with deadband := n }
  | .dwell => s.setParams { c with dwell := n }
  | .planAdvance => s.setParams { c with planAdvance := n }
  | .rampAdvance => s.setParams { c with rampAdvance := n }
  | .linkTimeout => s.setParams { c with linkTimeout := n }
  | .levelTimeout => s.setParams { c with levelTimeout := n }
  | .unitTimeout => s.setParams { c with unitTimeout := n }
  | .ackTimeout => s.setParams { c with ackTimeout := n }
  | .refusalBackoff => s.setParams { c with refusalBackoff := n }
  | .headLoss => s.setParams { c with headLoss := n }
  | .headOverride => s.setParams { c with headOverride := n }
  | .converters => s.setParams { c with converters := n }
  | .maxConcurrent => s.setParams { c with maxConcurrent := n }
  | .markerMode => s.setParams { c with markerMode := if n = 0 then .lead else .follow }
  | .markerDivider => s.setParams { c with markerDivider := n }
  | .markerPolarity => s.setParams { c with markerPolarity := if n = 0 then .pos else .neg }
  | .markerOutWidth => s.setParams { c with markerOutWidth := n }
  | .autoResume => s.setParams { c with autoResume := decide (n ≠ 0) }
  | .ackMode p => s.setPort p { s.portRec p with ackMode := if n = 0 then .confirmed else .unconfirmed }

/-- The refusals of the owners' rules for a change to `n` (R36, R139). DESIGN CHOICE: R135 counts a change of marker_mode among what ends the
wait in ARMED, and R139 and R170 refuse that change in ARMED; the model refuses it (notes/assumptions/42.md). -/
def State.refusesChange (s : State) (q : Param) (n : Nat) : Bool :=
  match q with
  | .headOverride => n == 0 && s.governs && s.head.estimate.isNone
  | .markerMode => s.prf.playback.state.inUse
  | _ => false

/-- What a change of a parameter does at once, by its owner's rule: R116, R113, R139, R34, R36, R138. `before` is the state
before the write. -/
def State.applyParam (before s : State) (q : Param) : State :=
  match q with
  | .rampRate =>
    if s.params.rampRate = 0 ∧ s.governs = true then s.setTgt { s.tgt with ramped := s.tgt.reqBase } else s
  | .regLimit =>
    s.setTgt { s.tgt with increment := clampInt (-(s.params.regLimit : Int)) s.params.regLimit s.tgt.increment }
  | .planAdvance => s.meetDue
  | .rampAdvance => s.meetDue
  | .headLoss => s.formEstimate.resettle before.headInUse
  | .headOverride => s.resettle before.headInUse
  | .markerMode => s.clearDivider
  | .markerDivider => s.clearDivider
  | .markerPolarity => (s.clearDivider).setPrf { s.clearDivider.prf with pulse := none }
  | _ => s

/-- What a change asks of the cascade (R51, R66, R85). -/
def paramCauses (q : Param) (old new : Nat) : Causes :=
  match q with
  | .converters => { grants := true, replan := decide (old = 0 ∨ new = 0) }
  | .maxConcurrent => { grants := true }
  | _ => {}

/-- The body of CONFIG_SET with CLAMPED and of CONFIG_GET: parameter, value as stored, port (R183). -/
def paramBody (param : Byte) (n : Nat) (port : Byte) : List Byte := [param] ++ int32 n ++ [port]

/-- A value taken by CONFIG_SET: written with its effects when it differs from the value held (R170). -/
def State.changeParam (s : State) (q : Param) (n : Nat) : State :=
  if s.held q = n then s
  else (State.applyParam s (s.writeParam q n) q).finish s (paramCauses q (s.held q) n)

/-- CONFIG_SET (R170): checks by parameter, port, named value, then the owner's refusal. -/
def execConfigSet (tag param : Byte) (value : Word) (port : Byte) (s : State) : Host.Outcome State Fault Refusal :=
  let t := s.takePlantFrame
  match paramOfCode param port with
  | .error i => .next (t.manage tag kindConfigSet .invalid i)
  | .ok q =>
    match q.store value.toInt with
    | none => .next (t.manage tag kindConfigSet .invalid 2)
    | some n =>
      if t.held q ≠ n ∧ t.refusesChange q n = true then .next (t.manage tag kindConfigSet .state)
      else if (n : Int) = value.toInt then .next ((t.changeParam q n).manage tag kindConfigSet .ok)
      else .next ((t.changeParam q n).manage tag kindConfigSet .clamped 0 (paramBody param n port))

/-- CONFIG_GET (R170). -/
def execConfigGet (tag param port : Byte) (s : State) : Host.Outcome State Fault Refusal :=
  let t := s.takePlantFrame
  match paramOfCode param port with
  | .error i => .next (t.manage tag kindConfigGet .invalid i)
  | .ok q => .next (t.manage tag kindConfigGet .ok 0 (paramBody param (t.held q) port))

end Sys2Proof.Machine
end

