-- ==== Sys2Proof/Machine/DispatchFrames.lean ====
section
/-! DEFINITION. The meanings of the dispatch frames (R156): BASE, REG, LEVELS, UNIT_HOLD, UNIT_RELEASE and EMERGENCY_STOP, with the
part-state changes that a valid dispatch frame makes (R161, R163). -/

namespace Sys2Proof.Machine

/-! ## The part state -/

/-- The return from FALLBACK to DISPATCHING (R163), with the pattern's current level (R119). -/
def State.returnToDispatching (s : State) : State :=
  let s := (s.setPli { s.pli with part := .dispatching }).post .fallbackLeft none (some 1)
  match s.tgt.source, s.tgt.run with
  | .pattern, some r => s.setReqBase (s.tgt.pattern.level r.pos)
  | _, _ => s

/-- The dispatch-liveness timer is restarted and LINK_SILENT cleared (R161). -/
def State.refreshLiveness (s : State) : State :=
  s.setPli { s.pli with liveness := some (later s.clock s.params.linkTimeout), linkSilent := false }

/-- What every valid dispatch frame does before its owner takes it (R156, R161, R163). -/
def State.acceptDispatch (s : State) : State :=
  let s := s.refreshLiveness
  match s.pli.part with
  | .fallback _ =>
    if s.params.autoResume then s.returnToDispatching else s.setPli { s.pli with part := .fallback .awaitResume }
  | _ => s

/-! ## BASE and REG -/

/-- An increment brought within −reg_limit … +reg_limit (R112, R113). -/
def State.clampIncrement (s : State) (v : Int) : Int := clampInt (-(s.params.regLimit : Int)) s.params.regLimit v

def State.setIncrement (s : State) (v : Int) : State := s.setTgt { s.tgt with increment := v }
def State.setTargetClamped (s : State) (b : Bool) : State := s.setTgt { s.tgt with clamped := b }

/-- An applied BASE frame (R112). -/
def State.applyBase (s : State) (target : Int) (increment : Option Int) : State :=
  let base := clampPlant target
  let inc := increment.map s.clampIncrement
  let s := s.setTargetClamped (base != target || inc != increment)
  let s := match inc with
    | some v => s.setIncrement v
    | none => s
  s.setReqBase base

/-- BASE (R112, R156): applied while DIRECT and, after what the frame has done to the part state, outside FALLBACK. -/
def execBase (target : Half) (increment : Option Half) (s : State) : Host.Outcome State Fault Refusal :=
  let a := s.takePlantFrame.acceptDispatch
  let t := if a.inFallback = false ∧ a.tgt.source = .direct then a.applyBase target.toInt (increment.map BitVec.toInt) else a
  .next (t.finish s)

/-- An applied REG frame (R113). -/
def State.applyReg (s : State) (increment : Int) : State :=
  let v := s.clampIncrement increment
  (s.setTargetClamped (v != increment)).setIncrement v

/-- REG (R113, R156): applied while DIRECT or PROFILE, outside FALLBACK as BASE is. -/
def execReg (increment : Half) (s : State) : Host.Outcome State Fault Refusal :=
  let a := s.takePlantFrame.acceptDispatch
  let t := if a.inFallback = false ∧ a.tgt.source ≠ .pattern then a.applyReg increment.toInt else a
  .next (t.finish s)

/-! ## LEVELS -/

/-- An applied LEVELS frame (R33). -/
def State.applyLevels (s : State) (upper lower : Nat) : State :=
  let t := s.setHead { s.head with levels := some (clampLevel upper, clampLevel lower) }
  let t := t.formEstimate
  let t := t.setHead { t.head with levelTimer := some (later s.clock s.params.levelTimeout), stale := false }
  t.resettle s.headInUse

/-- LEVELS (R33): applied in every part state. -/
def execLevels (upper lower : Half) (s : State) : Host.Outcome State Fault Refusal :=
  .next ((s.takePlantFrame.acceptDispatch.applyLevels upper.toNat lower.toNat).finish s)

/-! ## Holds -/

def State.setHold (s : State) (u : Slot) (h : Option Hold) : State := s.setUnit u { s.unitRec u with hold := h }

/-- The hold that a UNIT_HOLD writes (R13): a setpoint only with GEN, clamped; not settled yet. -/
def Hold.ordered (mode : Stable) (setpoint : Option Int) : Hold :=
  { mode := mode, requested := if mode = .gen then setpoint.map clampUnit else none, settled := none, emergency := false,
    stopOutstanding := false }

/-- What the writing of a hold asks of the cascade (R13, R51, R91). -/
def holdCauses (old : Option Hold) (mode : Stable) (u : Slot) : Causes :=
  { replan := old.any (fun h => h.mode != mode), allocate := true, hand := [u] }

/-- UNIT_HOLD (R13, R14): discarded for a bad slot, a bad mode or a slot under an emergency hold; written otherwise. -/
def execUnitHold (slot mode : Byte) (setpoint : Option Half) (s : State) : Host.Outcome State Fault Refusal :=
  match slotOfCode slot, stableOfCode mode with
  | some u, some m =>
    let old := (s.unitRec u).hold
    if old.any (·.emergency) then .next s.takePlantFrame
    else
      let a := s.takePlantFrame.acceptDispatch
      let t := (a.setHold u (some (Hold.ordered m (setpoint.map BitVec.toInt)))).settleHold u
      .next (t.finish s (holdCauses old m u))
  | _, _ => .next s.takePlantFrame

/-- The request of a released slot becomes AUTOMATIC (R63). -/
def State.makeAutomatic (s : State) (u : Slot) : State := s.setReq u ((s.req u).map (fun r => { r with cls := .automatic }))

/-- A slot's hold is removed (R15), with its emergency STOP outstanding indication and so its EMERGENCY order (R150). -/
def State.releaseHold (s : State) (u : Slot) : State := ((s.setHold u none).ceaseOrder u .emergency).makeAutomatic u

/-- UNIT_RELEASE (R15): discarded for a bad slot; without effect on a slot with no hold. -/
def execUnitRelease (slot : Byte) (s : State) : Host.Outcome State Fault Refusal :=
  match slotOfCode slot with
  | none => .next s.takePlantFrame
  | some u =>
    let a := s.takePlantFrame.acceptDispatch
    match (s.unitRec u).hold with
    | none => .next (a.finish s)
    | some _ => .next ((a.releaseHold u).finish s { allocate := true, hand := [u] })

/-! ## Emergency stops -/

/-- The hold of an emergency stop (R16). -/
def Hold.emergencyStop : Hold :=
  { mode := .ss, requested := none, settled := none, emergency := true, stopOutstanding := false }

/-- A reported mode other than SS and TRIP (R16, R17). -/
def Reported.running : Reported → Bool
  | .stable .ss | .trip => false
  | _ => true

/-- Send the emergency STOP of the slot and mark it outstanding (R16, R17). -/
def State.sendEmergencyStop (s : State) (u : Slot) (h : Hold) : State :=
  match (s.unitRec u).port with
  | none => s
  | some p => (s.sendOrder p .stop none .emergency).setHold u (some { h with stopOutstanding := true })

/-- One emergency stop of a slot: hold, cancellation, STOP (R16, R82). -/
def State.emergencyStop (s : State) (u : Slot) : State :=
  let h := ((s.unitRec u).hold.filter (·.emergency)).getD Hold.emergencyStop
  let s := (s.setHold u (some h)).cancelRequest u
  if s.portState u == .qualified && (s.reported u).any Reported.running then s.sendEmergencyStop u h else s

/-- One emergency stop as one event, from the state `before` it. -/
def State.emergencyEvent (before s : State) (u : Slot) : State :=
  let old := (s.unitRec u).hold
  (s.emergencyStop u).finish before
    { replan := old.any (fun h => h.mode != .ss), allocate := !old.any (·.emergency) }

/-- The frame names all slots: one emergency stop for each of U1 to U8 in turn (R16; notes/assumptions/7.md). -/
def State.emergencyAll (before s : State) : State :=
  [Slot.u2, .u3, .u4, .u5, .u6, .u7, .u8].foldl (fun t u => State.emergencyEvent t t u) (State.emergencyEvent before s .u1)

/-- EMERGENCY_STOP (R16): 0 names all slots; discarded for any other code outside U1 to U8. -/
def execEmergencyStop (slot : Byte) (s : State) : Host.Outcome State Fault Refusal :=
  if slot = 0 then .next (State.emergencyAll s s.takePlantFrame.acceptDispatch)
  else match slotOfCode slot with
    | none => .next s.takePlantFrame
    | some u => .next (State.emergencyEvent s s.takePlantFrame.acceptDispatch u)

end Sys2Proof.Machine
end

