-- ==== Sys2Proof/Machine/LinkEvents.lean ====
section
/-! DEFINITION. The meanings of the link events FRAMER_IDLE_TIMEOUT, UNKNOWN_FRAME, TRANSMIT_COMPLETE and UNIT_LINK_FRAME_DISCARDED
(FRAME_DISCARDED stands in Machine/Received.lean). -/

namespace Sys2Proof.Machine

/-- Write the framer of a link. -/
def State.setFramer (s : State) (l : Link) (f : Framer) : State :=
  match l with
  | .plant => s.setPli { s.pli with framer := f }
  | .unit p => s.setPort p { s.portRec p with framer := f }

/-- FRAMER_IDLE_TIMEOUT (R181): a collecting framer drops its partial frame and hunts; a hunting one is not touched. -/
def execFramerIdleTimeout (l : Link) (s : State) : Host.Outcome State Fault Refusal :=
  .next (s.setFramer l none)

/-- UNKNOWN_FRAME (R155): discarded when its class is DISPATCH, otherwise one REPLY with UNKNOWN. -/
def execUnknownFrame (cls kind tag : Byte) (s : State) : Host.Outcome State Fault Refusal :=
  let t := s.takePlantFrame
  .next (if cls = classDispatch then t else t.reply tag cls kind .unknown)

/-- The frame being sent on the port has gone, and the first waiting frame, if there is one, begins to go out (R141). -/
def State.sendNext (s : State) (p : Port) : State :=
  match (s.portRec p).sending, (s.portRec p).queue with
  | none, _ => s
  | some _, [] => s.setPort p { s.portRec p with sending := none }
  | some _, f :: rest => (s.setPort p { s.portRec p with queue := rest }).beginSending p f

/-- TRANSMIT_COMPLETE (R141). -/
def execTransmitComplete (p : Port) (s : State) : Host.Outcome State Fault Refusal := .next (s.sendNext p)

/-- UNIT_LINK_FRAME_DISCARDED (R140, R142): no effect and no reply; the framer has taken the frame whole. -/
def execUnitLinkFrameDiscarded (p : Port) (s : State) : Host.Outcome State Fault Refusal := .next (s.takeUnitFrame p)

end Sys2Proof.Machine
end

