-- ==== Sys2Proof/Machine/Flags.lean ====
section
/-! DEFINITION. The status flags as one set (R174, section 11.5), and the levels of the output lines: the marker output (R138), the
warning lines (R88) and the monitor lines (R178). -/

namespace Sys2Proof.Machine

/-- The flags of PLANT_STATUS in the order of their bits, 0 … 12 (section 11.5). -/
def State.flagList (s : State) : List Bool :=
  [s.pli.linkSilent, s.headUnknown, s.head.stale, s.head.clamped, s.headExtrap, s.tgt.clamped, s.pln.gap, s.pln.short,
   s.alc.lowSat, s.alc.highSat, s.alc.zoneShort, s.prf.playback.markerLost, s.ste.eventsLost]

/-- The value of a list of bits, the first least significant. -/
def bitsValue : List Bool → Nat
  | [] => 0
  | b :: rest => (if b then 1 else 0) + 2 * bitsValue rest

/-- The flag set as PLANT_STATUS carries it. -/
def State.flagSet (s : State) : Nat := bitsValue s.flagList

/-- The marker output is high: in the active phase of a pulse with POS, and outside one with NEG (R138). -/
def State.markerHigh (s : State) : Bool :=
  match s.params.markerPolarity with
  | .pos => s.prf.pulse.isSome
  | .neg => s.prf.pulse.isNone

/-- The warning line of a waterway is high: its generator is in the high phase of a pulse (R88). -/
def State.warningHigh (s : State) (w : Waterway) : Bool :=
  (s.waterwayRec w).any (fun r => r.generator.any (·.high))

/-- The number of converters HELD, of any kind (R85). -/
def State.convertersHeld (s : State) : Nat :=
  (if s.trs.c1.isSome then 1 else 0) + (if s.trs.c2.isSome then 1 else 0)

/-- The condition of a selection (R178); FORCED_LOW and FORCED_HIGH have none. -/
def State.condition (s : State) : Selection → Bool
  | .boundary => s.prf.pulse.isSome
  | .fallback => s.inFallback
  | .converterBusy => decide (s.convertersHeld ≠ 0)
  | .transition => Slot.all.any s.underOrder
  | .saturated => s.alc.lowSat || s.alc.highSat || s.alc.zoneShort
  | .planGap => s.pln.gap
  | .forcedLow => false
  | .forcedHigh => true

/-- The present level of a monitor line (R178): FORCED_LOW and FORCED_HIGH ignore the polarity. -/
def State.lineHigh (s : State) (m : MonitorLine) : Bool :=
  match m.selection with
  | .forcedLow => false
  | .forcedHigh => true
  | sel => s.condition sel != m.activeLow

end Sys2Proof.Machine
end

