-- ==== Sys2Proof/Machine/Reports.lean ====
section
/-! DEFINITION. The bodies the part sends: PLANT_STATUS (R172, section 11.5), the unit answer (R173, R183), the table rows
(section 11.4) and the event records (R184), and the periodic plant status (R171). -/

namespace Sys2Proof.Machine

/-! ## Plant status -/

def partStateByte : PartState → Byte
  | .standby => 0
  | .dispatching => 1
  | .fallback _ => 2

def substateByte : PartState → Byte
  | .fallback .linkDown => 1
  | .fallback .awaitResume => 2
  | _ => 0

def headSourceByte : HeadSource → Byte
  | .none => 0 | .estimate => 1 | .override => 2

/-- A monitor line's byte: selection in bits 0 … 2, bit 4 for ACTIVE_LOW, bit 7 while the line is high (section 11.5). -/
def State.lineByte (s : State) (m : MonitorLine) : Byte :=
  selectionCode m.selection + (if m.activeLow then 0x10 else 0) + (if s.lineHigh m then 0x80 else 0)

/-- The PLANT_STATUS body of 50 bytes, formed at one moment (R171, R172, section 11.5). -/
def State.statusBody (s : State) : List Byte :=
  wordBytes s.clock ++ [partStateByte s.pli.part, substateByte s.pli.part, sourceCode s.tgt.source]
    ++ int16 s.tgt.reqBase ++ int16 s.tgt.plan ++ int16 s.tgt.ramped ++ int16 s.tgt.increment ++ int16 s.allocationTarget
    ++ optInt16 (s.alc.last.map (·.target)) ++ int32 s.alc.shortfall ++ int32 s.plantActual
    ++ ((s.headInUse.map nat16).getD [0xFF, 0xFF]) ++ [headSourceByte s.headSource]
    ++ [(s.pln.selected.map byte).getD 0xFF, (s.pln.proposal.map (fun p => byte p.row)).getD 0xFF]
    ++ optWord (s.pln.proposal.map (·.expiry))
    ++ [byte s.pln.shortPmp, byte s.pln.shortGen, byte s.pln.shortCnd]
    ++ nat16 s.flagSet
    ++ [byte s.convertersHeld, byte s.queue.length, byte s.plantCount, byte s.ste.events.length]
    ++ halfBytes s.ste.seq ++ [byte ((s.pli.load.map (fun l => tablePosCode l.pos)).getD 0)]
    ++ [s.lineByte s.ste.m1, s.lineByte s.ste.m2]

/-- The periodic plant status goes up the plant link (R171). -/
def State.sendStatus (s : State) : State := s.sendUp (.plantStatus s.statusBody)

/-! ## The unit answer -/

/-- DESIGN CHOICE: with no outstanding order the step kind and the tag are sent as 0, R183 coding the purpose alone as absent
(notes/assumptions/44.md). -/
def outstandingBytes (o : Option Outstanding) : List Byte :=
  match o with
  | none => [0, 0, 0]
  | some o => [purposeCode o.purpose, byte (stepCode o.kind), o.tag]

/-- rz_lo and rz_hi are −1 each when there is no zone (R183). -/
def recordBytes (c : Option CapRecord) : List Byte :=
  match c with
  | none => List.replicate 14 0
  | some c =>
    [1] ++ int16 c.genMin ++ int16 c.genMax ++ int16 ((c.zone.map (·.1)).getD (-1)) ++ int16 ((c.zone.map (·.2)).getD (-1))
      ++ int16 c.pump ++ int16 c.condense ++ [flagByte c.extrapolated]

/-- A path in three bytes: step codes, FF hex after the last step (R183). -/
def pathBytes (p : List PathStep) : List Byte :=
  ((p.map (fun (st : PathStep) => byte (stepCode st.kind))) ++ List.replicate 3 0xFF).take 3

/-- The request's fields in the order of R183; all 0 when there is no request. DESIGN CHOICE: with no order tag its byte is sent as 0
(notes/assumptions/44.md). -/
def requestBytes (r : Option Request) : List Byte :=
  match r with
  | none => List.replicate 34 0
  | some r =>
    [1, (match r.cls with | .manual => 0 | .automatic => 1), byte (stableCode r.dest)] ++ pathBytes r.path
      ++ [byte r.index, reqStateCode r.state] ++ wordBytes r.entry
      ++ [convCode r.conv, flagByte r.slotHeld, flagByte r.seen, flagByte r.tag.isSome, r.tag.getD 0]
      ++ optWord r.startedAt ++ optWord r.leadExpiry ++ optWord r.ackExpiry ++ optWord r.stepExpiry ++ [blockedCode r.blocked]

/-- DESIGN CHOICE: with no orphan record its three fields are sent as 0 (notes/assumptions/44.md). -/
def orphanBytes (o : Option Orphan) : List Byte :=
  match o with
  | none => [0, 0, 0, 0]
  | some o => [1, convCode o.conv, flagByte o.slotHeld, flagByte o.place]

/-- DESIGN CHOICE: with no hold the emergency marker and STOP outstanding are sent as 0 (notes/assumptions/44.md). -/
def holdBytes (h : Option Hold) : List Byte :=
  match h with
  | none => [0xFF] ++ optInt16 none ++ optInt16 none ++ [0, 0]
  | some h =>
    [byte (stableCode h.mode)] ++ optInt16 h.requested ++ optInt16 h.settled ++ [flagByte h.emergency, flagByte h.stopOutstanding]

/-- The slot's position in the rotation order, 1 (the head) to 8. -/
def State.rotationPosition (s : State) (u : Slot) : Nat := s.ros.rotation.findIdx (· == u) + 1

/-- DESIGN CHOICE: with no allocation, and of a line other than REGULATING, the moved mark is sent as 0 (notes/assumptions/44.md). -/
def shareBytes (q : Option SlotShare) : List Byte :=
  match q with
  | none => [0] ++ optInt16 none ++ optInt16 none ++ [0]
  | some q => [lineCode q.line] ++ int16 q.value ++ optInt16 q.beforeZones ++ [flagByte q.moved]

/-- The UNIT_REQ body: the items of R183's table, in order (R173). DESIGN CHOICE: where R173 has an item absent and R183 codes no absence,
the byte is 0: the ack mode of an unmapped slot, and what the unit would have reported while it is never heard
(notes/assumptions/44.md). -/
def State.unitBody (s : State) (u : Slot) : List Byte :=
  let r := s.unitRec u
  let p := s.slotPort u
  [slotCode u, (r.port.map portCode).getD 0, portStateCode (s.portState u), r.expected, (p.bind (·.lastMachine)).getD 0,
    flagByte (p.any (fun q => q.ackMode == .unconfirmed))]
    ++ outstandingBytes (p.bind (·.outstanding))
    ++ [((s.reported u).map (fun m => byte (reportedCode m))).getD 0xFF] ++ int16 (s.power u)
    ++ [flagByte (r.report.any (·.remote)), flagByte (r.report.any (·.available)), convCode (r.report.bind (·.conv)),
        flagByte r.trip, flagByte r.fault]
    ++ optWord r.backoff ++ [flagByte (s.dispatchable u), flagByte (s.automatic u),
        ((s.waterwayOf u).map waterwayCode).getD 0]
    ++ holdBytes r.hold
    ++ optInt16 (r.lastSetpoint.map (·.value)) ++ optWord (r.lastSetpoint.map (·.time))
    ++ s.ros.rotation.map slotCode ++ [byte (s.rotationPosition u)]
    ++ recordBytes (s.record u)
    ++ [((s.pln.desired.get u).map (fun m => byte (stableCode m))).getD 0xFF]
    ++ requestBytes (s.req u) ++ orphanBytes (s.orphan u)
    ++ shareBytes (s.alc.last.map (fun a => a.shares.get u))

/-! ## Rows -/

/-- A row in the form of section 11.4. -/
def rowBytes : Row → List Byte
  | .capHeader h =>
    [byte h.count] ++ int16 h.condense ++ nat16 h.gStart ++ nat16 h.pStart ++ nat16 h.prime ++ nat16 h.deprime ++ nat16 h.stop
  | .breakpoint b => nat16 b.head ++ int16 b.genMin ++ int16 b.genMax ++ int16 b.rzLo ++ int16 b.rzHi ++ int16 b.pump
  | .plan r => int16 r.lower ++ int16 r.upper ++ [byte r.nPmp, byte r.nCnd, byte r.nGen]
  | .waterway r =>
    [byte r.slots] ++ nat16 r.settle ++ [r.mixing, r.kinds] ++ nat16 r.lead
      ++ [byte r.firstHigh, byte r.high, byte r.low, byte r.count]
  | .places ns => ns

/-- The body of TABLE_READ, where the row exists (R158, section 11.4). -/
def State.tableRow (s : State) (position : Byte) (row : Nat) : Option (List Byte) :=
  if position = 11 then (if row = 0 then some (s.ros.rotation.map slotCode) else none)
  else match tablePosOfCode position with
    | none => none
    | some (.cap u) => (s.head.caps.get u).bind (fun t =>
        match row with
        | 0 => some (rowBytes (.capHeader t.header))
        | k + 1 => t.points[k]?.map (fun b => rowBytes (.breakpoint b)))
    | some .plan => s.pln.table.bind (fun rows => rows[row]?.map (fun r => rowBytes (.plan r)))
    | some .waterway => s.trs.waterways.bind (fun t =>
        if row = 4 then some (Slot.all.map (fun u => waterwayCode (t.place.get u)))
        else Waterway.all[row]?.map (fun w =>
          rowBytes (.waterway (t.recs.get w).row) ++ [byte (t.recs.get w).inProgress] ++ optWord (t.recs.get w).settle))

/-! ## Events -/

/-- A value of four bytes, 80000000 hex when absent (R184). -/
def eventValue (v : Option Int) : List Byte := int32 (v.getD (-2147483648))

/-- An event record of 13 bytes (R184). -/
def eventBytes (e : Event) : List Byte :=
  halfBytes e.seq ++ wordBytes e.time ++ [eventKindCode e.kind, (e.slot.map slotCode).getD 0] ++ eventValue e.value ++ [0]

end Sys2Proof.Machine
end

