-- ==== Sys2Proof/Machine/Loads.lean ====
section
/-! DEFINITION. The meanings of LOAD_BEGIN (R167), LOAD_ROW (R168), LOAD_END (R169) and LOAD_ABORT (R168): the shadow buffer, the
rows' forms (section 11.4), their checks (R25, R40, R86) and the commits (R26, R41, R86). -/

namespace Sys2Proof.Machine

def kindLoadBegin : Byte := 3
def kindLoadRow : Byte := 4
def kindLoadEnd : Byte := 5
def kindLoadAbort : Byte := 6

def State.setLoad (s : State) (l : Option Load) : State := s.setPli { s.pli with load := l }

/-! ## LOAD_BEGIN (R167) -/

/-- The row counts a position takes (R23, R39, R86). -/
def TablePos.takesRows (p : TablePos) (n : Nat) : Bool :=
  match p with
  | .cap _ => decide (3 ≤ n ∧ n ≤ 7)
  | .plan => decide (1 ≤ n ∧ n ≤ 24)
  | .waterway => n == 5

/-- WATERWAY outside STANDBY (R167, R169). -/
def State.waterwayBarred (s : State) (p : TablePos) : Bool := p == .waterway && s.governs

/-- The detail of a superseding LOAD_BEGIN: position in the high byte, rows received in the low byte (R184). -/
def supersededDetail (l : Load) : Nat := tablePosCode l.pos * 256 + l.rows.length

/-- LOAD_SUPERSEDED for the load that stood (R167). -/
def State.supersede (s : State) : State :=
  match s.pli.load with
  | none => s
  | some l => s.post .loadSuperseded none (some (tablePosCode l.pos))

/-- LOAD_BEGIN (R167): the position, the part state and the row count are checked in this order. -/
def execLoadBegin (tag position rows : Byte) (s : State) : Host.Outcome State Fault Refusal :=
  let t := s.takePlantFrame
  match tablePosOfCode position with
  | none => .next (t.manage tag kindLoadBegin .notFound)
  | some pos =>
    if t.waterwayBarred pos then .next (t.manage tag kindLoadBegin .state)
    else if pos.takesRows rows.toNat = false then .next (t.manage tag kindLoadBegin .invalid)
    else
      let detail := (t.pli.load.map supersededDetail).getD 0
      .next ((t.supersede.setLoad (some { pos := pos, count := rows.toNat, rows := [] })).manage tag kindLoadBegin .ok detail)

/-! ## LOAD_ROW (R168) -/

/-- The signed 16-bit number of two bytes (R180). -/
def signed (hi lo : Byte) : Int := (halfOf hi lo).toInt
/-- The unsigned 16-bit number of two bytes (R180). -/
def unsigned (hi lo : Byte) : Nat := (halfOf hi lo).toNat

/-- A step timeout as stored: 0 gives the default, any other value a long-timer value (R23). -/
def storeTimeout (default_ sent : Nat) : Nat := if sent = 0 then default_ else longTimer sent

/-- The least and greatest condense power as stored (R23). -/
def storeCondense (v : Int) : Int := clampInt 0 500 v

/-- A sent time was adjusted, other than 0 to its default (R23). -/
def adjusted (sent : Nat) : Bool := sent != 0 && longTimer sent != sent

/-- A capability header of section 11.4 as stored, and whether a field was adjusted (R23). -/
def headerRow (row : List Byte) : Option (Row × Bool) :=
  match row with
  | [n, c1, c0, g1, g0, p1, p0, r1, r0, d1, d0, t1, t0] =>
    let c := signed c1 c0
    let g := unsigned g1 g0
    let p := unsigned p1 p0
    let r := unsigned r1 r0
    let d := unsigned d1 d0
    let t := unsigned t1 t0
    some (.capHeader { count := n.toNat, condense := storeCondense c, gStart := storeTimeout 120 g, pStart := storeTimeout 400 p,
                       prime := storeTimeout 60 r, deprime := storeTimeout 60 d, stop := storeTimeout 300 t },
          storeCondense c != c || adjusted g || adjusted p || adjusted r || adjusted d || adjusted t)
  | _ => none

/-- A breakpoint row, stored as sent (R24). -/
def breakpointRow (row : List Byte) : Option (Row × Bool) :=
  match row with
  | [h1, h0, a1, a0, b1, b0, l1, l0, u1, u0, p1, p0] =>
    some (.breakpoint { head := unsigned h1 h0, genMin := signed a1 a0, genMax := signed b1 b0, rzLo := signed l1 l0,
                        rzHi := signed u1 u0, pump := signed p1 p0 }, false)
  | _ => none

/-- A plan row, stored as sent (R39). -/
def planRow (row : List Byte) : Option (Row × Bool) :=
  match row with
  | [l1, l0, u1, u0, p, c, g] =>
    some (.plan { lower := signed l1 l0, upper := signed u1 u0, nPmp := p.toNat, nCnd := c.toNat, nGen := g.toNat }, false)
  | _ => none

/-- A waterway row, the settle time brought to a long-timer value unless 0 (R86). -/
def waterwayRow (row : List Byte) : Option (Row × Bool) :=
  match row with
  | [n, s1, s0, m, k, l1, l0, f, h, w, c] =>
    let t := unsigned s1 s0
    some (.waterway { slots := n.toNat, settle := if t = 0 then 0 else longTimer t, mixing := m, kinds := k,
                      lead := unsigned l1 l0, firstHigh := f.toNat, high := h.toNat, low := w.toNat, count := c.toNat },
          adjusted t)
  | _ => none

/-- The row of the slots' waterways, stored as sent (R86). -/
def placesRow (row : List Byte) : Option (Row × Bool) := if row.length = 8 then some (.places row, false) else none

/-- The row of a position at an index in its stored form, with whether it was adjusted; `none` when its form is not the
position's at that index (R168). -/
def TablePos.readRow (p : TablePos) (index : Nat) (row : List Byte) : Option (Row × Bool) :=
  match p with
  | .cap _ => if index = 0 then headerRow row else breakpointRow row
  | .plan => planRow row
  | .waterway => if index = 4 then placesRow row else waterwayRow row

/-- Store a row under its index, keeping the indices in rising order (R168). -/
def storeRow (index : Nat) (row : Row) : List (Nat × Row) → List (Nat × Row)
  | [] => [(index, row)]
  | (i, r) :: rest =>
    if index < i then (index, row) :: (i, r) :: rest
    else if index = i then (index, row) :: rest
    else (i, r) :: storeRow index row rest

/-- LOAD_ROW (R168). -/
def execLoadRow (tag index : Byte) (row : List Byte) (s : State) : Host.Outcome State Fault Refusal :=
  let t := s.takePlantFrame
  match t.pli.load with
  | none => .next (t.manage tag kindLoadRow .noLoad)
  | some l =>
    if l.count ≤ index.toNat then .next (t.manage tag kindLoadRow .invalid index.toNat)
    else match l.pos.readRow index.toNat row with
      | none => .next (t.manage tag kindLoadRow .invalid index.toNat)
      | some (r, changed) =>
        let t := t.setLoad (some { l with rows := storeRow index.toNat r l.rows })
        if changed then .next (t.manage tag kindLoadRow .clamped 0 (index :: rowBytes r))
        else .next (t.manage tag kindLoadRow .ok)

/-- LOAD_ABORT (R168). -/
def execLoadAbort (tag : Byte) (s : State) : Host.Outcome State Fault Refusal :=
  let t := s.takePlantFrame
  match t.pli.load with
  | none => .next (t.manage tag kindLoadAbort .noLoad)
  | some _ => .next ((t.setLoad none).manage tag kindLoadAbort .ok)

/-! ## The checks of LOAD_END -/

/-- The row under an index. -/
def Load.row (l : Load) (i : Nat) : Option Row := (l.rows.find? (fun x => x.1 == i)).map (·.2)

/-- The lowest index without a row (R169). -/
def Load.missing (l : Load) : Option Nat := (List.range l.count).find? (fun i => (l.row i).isNone)

/-- A breakpoint meets R25's conditions on itself. -/
def Breakpoint.sound (b : Breakpoint) : Bool :=
  decide (b.head ≤ 10000 ∧ 0 ≤ b.genMin ∧ b.genMax ≤ 5000 ∧ b.genMin + 10 ≤ b.genMax ∧ b.genMin ≤ b.rzLo ∧ b.rzLo ≤ b.rzHi
    ∧ b.rzHi ≤ b.genMax ∧ 10 ≤ b.pump ∧ b.pump ≤ 5000)

/-- A plan row passes R40. -/
def PlanRow.sound (r : PlanRow) : Bool :=
  decide (-plantMax ≤ r.lower ∧ r.upper ≤ plantMax ∧ r.lower + 10 ≤ r.upper ∧ r.nPmp + r.nCnd + r.nGen ≤ 8)

/-- A waterway row passes R86 (section 11.4). -/
def WaterwayRow.sound (r : WaterwayRow) : Bool :=
  decide (1 ≤ r.slots ∧ r.slots ≤ 2 ∧ (r.settle = 0 ∨ isLongTimer r.settle = true) ∧ r.mixing.toNat ≤ 1 ∧ r.kinds.toNat ≤ 15
    ∧ r.lead ≤ 300 ∧ r.firstHigh ≠ 0 ∧ r.high ≠ 0 ∧ r.low ≠ 0)

/-- The head of a breakpoint row. -/
def Row.head? : Row → Option Nat
  | .breakpoint b => some b.head
  | _ => none

/-- The row at index `i` passes its position's checks (R25, R40, R86). -/
def Load.passes (l : Load) (i : Nat) : Bool :=
  match l.row i with
  | none => false
  | some (.capHeader h) => decide (2 ≤ h.count ∧ h.count ≤ 6) && h.count + 1 == l.count
  | some (.breakpoint b) =>
    b.sound && (i == 1 || ((l.row (i - 1)).bind Row.head?).any (fun h => decide (h < b.head)))
  | some (.plan r) => r.sound
  | some (.waterway r) => r.sound
  | some (.places ns) => ns.all (fun n => (waterwayOfCode n).isSome)

/-- The first row that fails (R25, R40, R86). -/
def Load.failing (l : Load) : Option Nat := (List.range l.count).find? (fun i => !l.passes i)

/-- Some waterway's in-progress count is above 0 (R169). -/
def State.waterwayBusy (s : State) : Bool :=
  Waterway.all.any (fun w => (s.waterwayRec w).any (fun r => r.inProgress != 0))

/-! ## The commits -/

def Row.asHeader : Row → Option CapHeader
  | .capHeader h => some h
  | _ => none
def Row.asBreakpoint : Row → Option Breakpoint
  | .breakpoint b => some b
  | _ => none
def Row.asPlan : Row → Option PlanRow
  | .plan r => some r
  | _ => none
def Row.asWaterway : Row → Option WaterwayRow
  | .waterway r => some r
  | _ => none
def Row.asPlaces : Row → Option (List Byte)
  | .places ns => some ns
  | _ => none

/-- The rows of a load in order of index. -/
def Load.inOrder (l : Load) : List Row := l.rows.map (·.2)

/-- The capability table of a load that passed (R25). -/
def Load.capTable (l : Load) : Option CapTable :=
  l.inOrder.findSome? Row.asHeader |>.map (fun h => { header := h, points := l.inOrder.filterMap Row.asBreakpoint })

/-- A capability table replaces the slot's (R26), and the slot's hold is settled again. -/
def State.commitCap (s : State) (u : Slot) (t : Option CapTable) : State :=
  let s := s.setHead { s.head with caps := s.head.caps.set u t }
  (s.post .tableCommitted none (some (tablePosCode (.cap u)))).settleHold u

/-- A mode plan replaces the active one; while the part governs, row selection runs with no selected row (R41). -/
def State.commitPlan (s : State) (rows : List PlanRow) : State :=
  let s := s.setPln { s.pln with table := some rows }
  let s := s.post .tableCommitted none (some (tablePosCode .plan))
  if s.governs then (s.setPln { s.pln with selected := none, proposal := none }).selectRow false else s

/-- A waterway record at a commit (R86, R89): in-progress count and warned steps stay, the settle timer is expired and the
generator idle. -/
def WaterwayRec.recommit (old : Option WaterwayRec) (row : WaterwayRow) : WaterwayRec :=
  { row := row, inProgress := (old.map (·.inProgress)).getD 0, settle := none, warned := (old.map (·.warned)).getD [],
    generator := none }

/-- The waterway table of a load that passed (R86). -/
def Load.waterways (l : Load) (old : Option Waterways) : Option Waterways :=
  let settings := l.inOrder.filterMap Row.asWaterway
  match settings, l.inOrder.findSome? Row.asPlaces with
  | [a, b, c, d], some [n1, n2, n3, n4, n5, n6, n7, n8] =>
    let rec? (w : Waterway) : Option WaterwayRec := old.map (fun t => t.recs.get w)
    let place (n : Byte) : Waterway := (waterwayOfCode n).getD .w1
    some {
      recs := { w1 := .recommit (rec? .w1) a, w2 := .recommit (rec? .w2) b, w3 := .recommit (rec? .w3) c,
                w4 := .recommit (rec? .w4) d }
      place := { u1 := place n1, u2 := place n2, u3 := place n3, u4 := place n4, u5 := place n5, u6 := place n6,
                 u7 := place n7, u8 := place n8 } }
  | _, _ => none

/-- A waterway table replaces the one in force (R86). -/
def State.commitWaterway (s : State) (t : Option Waterways) : State :=
  (s.setTrs { s.trs with waterways := t }).post .tableCommitted none (some (tablePosCode .waterway))

/-- The commit of a load that passed every check (R169), by its position. -/
def State.commit (s : State) (l : Load) : State :=
  match l.pos with
  | .cap u => s.commitCap u l.capTable
  | .plan => s.commitPlan (l.inOrder.filterMap Row.asPlan)
  | .waterway => s.commitWaterway (l.waterways s.trs.waterways)

/-- A capability commit runs an allocation (R26, R91). -/
def commitCauses : TablePos → Causes
  | .cap _ => { allocate := true }
  | _ => {}

/-- LOAD_END (R169): the checks in the order of its table. -/
def execLoadEnd (tag : Byte) (s : State) : Host.Outcome State Fault Refusal :=
  let t := s.takePlantFrame
  match t.pli.load with
  | none => .next (t.manage tag kindLoadEnd .noLoad)
  | some l =>
    if t.waterwayBarred l.pos then .next (t.manage tag kindLoadEnd .state)
    else match l.missing with
      | some i => .next ((t.setLoad none).manage tag kindLoadEnd .incomplete i)
      | none =>
        match l.failing with
        | some i => .next ((t.setLoad none).manage tag kindLoadEnd .invalid i)
        | none =>
          if l.pos == .waterway && t.waterwayBusy then .next (t.manage tag kindLoadEnd .busy)
          else .next ((((t.setLoad none).commit l).finish s (commitCauses l.pos)).manage tag kindLoadEnd .ok)

end Sys2Proof.Machine
end

