-- ==== Sys2Proof/Machine/UnitLink.lean ====
section
/-! DEFINITION. The meanings of the unit-link frames IDENT (R146), STATUS (R147, R3) and ORDER_ACK (R151), and the departure of a
port from QUALIFIED (R149). -/

namespace Sys2Proof.Machine

/-- The probing states (R144). -/
def PortState.isProbing : PortState → Bool
  | .down | .probing | .mismatch | .lost => true
  | .unused | .qualified => false

def State.setPortState (s : State) (p : Port) (st : PortState) : State := s.setPort p { s.portRec p with state := st }

/-! ## Departure from QUALIFIED (R149) -/

/-- The port record after the port has left QUALIFIED (R149, R141): only a waiting PROBE stays in the queue. -/
def PortRec.leave (r : PortRec) (st : PortState) : PortRec :=
  { r with state := st, liveness := none, outstanding := none, queue := r.queue.filter UnitFrame.isProbe }

/-- What the ROS does to the slot of a port that has left QUALIFIED (R4). -/
def UnitRec.portGone (r : UnitRec) : UnitRec :=
  { r with lastSetpoint := none, hold := r.hold.map (fun h => { h with stopOutstanding := false }) }

/-- A QUALIFIED port goes to another state (R149, R4, R79). -/
def State.leaveQualified (s : State) (p : Port) (st : PortState) : State :=
  let u := s.slotOf p
  let s := s.setPort p ((s.portRec p).leave st)
  match u with
  | none => s
  | some u => (s.setUnit u (s.unitRec u).portGone).orphanRequest u

/-! ## IDENT (R146) -/

/-- A port in a probing state qualifies (R146). -/
def State.qualify (s : State) (p : Port) (u : Slot) (number : Byte) : State :=
  let s := s.setPort p { s.portRec p with
    state := .qualified, probe := none, liveness := some (later s.clock s.params.unitTimeout) }
  s.post .portQualified (some u) (some number.toNat)

/-- A QUALIFIED port has identified itself with another number (R146). -/
def State.mismatchQualified (s : State) (p : Port) (u : Slot) (number : Byte) : State :=
  ((s.leaveQualified p .mismatch).probeNow p).post .portMismatch (some u) (some number.toNat)

/-- An IDENT compared with the expected number, by the port's state (R144, R146). -/
def State.compareIdent (s : State) (p : Port) (u : Slot) (number : Byte) : State :=
  let old := (s.portRec p).state
  let s := s.setPort p { s.portRec p with lastMachine := some number }
  if number = (s.unitRec u).expected then
    if old.isProbing then s.qualify p u number else s
  else match old with
    | .qualified => s.mismatchQualified p u number
    | .down | .probing | .lost =>
      (s.setPortState p .mismatch).post .portMismatch (some u) (some number.toNat)
    | .mismatch | .unused => s

/-- The slot whose demand the TRS compares again, when its port leaves QUALIFIED and may end its request (R62, R79). -/
def State.identHand (s : State) (p : Port) (u : Slot) (number : Byte) : List Slot :=
  if (s.portRec p).state = .qualified ∧ number ≠ (s.unitRec u).expected then [u] else []

/-- IDENT: malformed when the number is 0 (R142), ignored on an UNUSED port (R144). -/
def execIdent (p : Port) (number : Byte) (s : State) : Host.Outcome State Fault Refusal :=
  let t := s.takeUnitFrame p
  match t.slotOf p with
  | none => .next t
  | some u =>
    if number = 0 ∨ (t.portRec p).state = .unused then .next t
    else .next ((t.compareIdent p u number).finish s { hand := t.identHand p u number })

/-! ## STATUS (R147) -/

/-- The reported fields that a frame gives (R3): the power clamped, the converter only with P_START. -/
def Report.ofStatus (m : Reported) (power : Int) (remote available : Bool) (conv : Option Conv) : Report :=
  { mode := m, power := clampUnit power, remote := remote, available := available,
    conv := if m = .step .pStart then conv else none }

/-- The ROS writes the reported fields (R3); entry to GEN removes the last setpoint sent (R6). -/
def State.writeReport (s : State) (u : Slot) (r : Report) : State :=
  let enters := decide (r.mode = .stable .gen ∧ s.reported u ≠ some (.stable .gen))
  s.setUnit u { s.unitRec u with
    report := some r, lastSetpoint := if enters then none else (s.unitRec u).lastSetpoint }

/-- A TRIP report sets the trip mark and posts UNIT_TRIP when the mark was clear (R9); a cause of 0 is absent (R182). -/
def State.noteTrip (s : State) (u : Slot) (m : Reported) (cause : Byte) : State :=
  if m = .trip ∧ (s.unitRec u).trip = false then
    (s.setUnit u { s.unitRec u with trip := true }).post .unitTrip (some u) (if cause = 0 then none else some cause.toNat)
  else s

/-- What a report does to an emergency hold (R17): a running mode sends STOP where none is outstanding; SS and TRIP end the
outstanding indication and the EMERGENCY order. -/
def State.watchEmergency (s : State) (u : Slot) (m : Reported) : State :=
  match (s.unitRec u).hold with
  | none => s
  | some h =>
    if h.emergency = false then s
    else if m.running then (if h.stopOutstanding then s else s.sendEmergencyStop u h)
    else (s.setHold u (some { h with stopOutstanding := false })).ceaseOrder u .emergency

/-- What a report does to the slot's orphan record and to converters (R80, R81). -/
def State.watchConverters (s : State) (u : Slot) (m : Reported) (conv : Option Conv) : State :=
  let s := match m with
    | .stable _ | .trip => s.releaseOrphan u
    | .step _ => s
  if m = .step .pStart then
    match conv, s.req u with
    | some c, none => s.claimObserved u c
    | _, _ => s
  else s.releaseObserved u

/-- The effects of an accepted STATUS on the slot's record, marks, hold, request and converters (R3). -/
def State.acceptStatus (s : State) (u : Slot) (r : Report) (cause : Byte) : State :=
  let changed := s.reported u != some r.mode
  let had := (s.req u).isSome
  let s := (s.writeReport u r).noteTrip u r.mode cause
  let s := (s.watchEmergency u r.mode).supervise u r.mode changed
  let s := s.watchConverters u r.mode r.conv
  if changed || had then s.compareDemand u else s

/-- STATUS: malformed for a code other than yes or no, a lost frame for an unknown mode (R142), and ignored on a port that is not
QUALIFIED (R147). -/
def execStatus (p : Port) (mode : Byte) (power : Half) (remote available converter cause : Byte) (s : State) :
    Host.Outcome State Fault Refusal :=
  let t := s.takeUnitFrame p
  match reportedOfCode mode, yesNoOfCode remote, yesNoOfCode available, t.slotOf p with
  | some m, some rem, some av, some u =>
    if (t.portRec p).state ≠ .qualified then .next t
    else
      let t := t.setPort p { t.portRec p with liveness := some (later t.clock t.params.unitTimeout) }
      .next ((t.acceptStatus u (Report.ofStatus m power.toInt rem av (convOfCode converter)) cause).finish s)
  | _, _, _, _ => .next t

/-! ## ORDER_ACK (R151) -/

/-- The order of the port ceases to be outstanding. -/
def State.clearOutstanding (s : State) (p : Port) : State := s.setPort p { s.portRec p with outstanding := none }

/-- A matching acknowledgement of a SUPERVISED order (R71, R151). -/
def State.ackSupervised (s : State) (u : Slot) (accepted : Bool) (cause : Byte) : State :=
  match s.req u with
  | none => s
  | some r =>
    if r.state ≠ .ordered then s
    else if accepted then s.setReq u (some { r with state := .inStep, ackExpiry := none })
    else s.refuseStep u cause.toNat

/-- A matching acknowledgement, by the order's purpose (R151). -/
def State.ackOrder (s : State) (p : Port) (u : Slot) (purpose : Purpose) (accepted : Bool) (cause : Byte) : State :=
  match purpose with
  | .supervised => s.ackSupervised u accepted cause
  | .emergency =>
    let s := s.clearOutstanding p
    if accepted then s else s.post .stepRefused (some u) (some cause.toNat)
  | .timeoutStop => s.clearOutstanding p

/-- The result byte: 1 accepted, 2 refused, others malformed (section 11.3). -/
def acceptedOfCode (c : Byte) : Option Bool :=
  match c.toNat with
  | 1 => some true
  | 2 => some false
  | _ => none

/-- ORDER_ACK: ignored unless the port is QUALIFIED and its outstanding order has the frame's tag (R144, R151). -/
def execOrderAck (p : Port) (tag result cause : Byte) (s : State) : Host.Outcome State Fault Refusal :=
  let t := s.takeUnitFrame p
  match acceptedOfCode result, t.slotOf p, (t.portRec p).outstanding with
  | some accepted, some u, some o =>
    if (t.portRec p).state ≠ .qualified ∨ o.tag ≠ tag then .next t
    else .next ((t.ackOrder p u o.purpose accepted cause).finish s)
  | _, _, _ => .next t

end Sys2Proof.Machine
end

