-- ==== Sys2Proof/Machine/Management.lean ====
section
/-! DEFINITION. The meanings of the management requests on the roster, the scheduler's resources and the monitor lines: MAP_SET
(R153), EXPECT_SET (R154), ROTATION_SET (R20), ROTATE (R21), CLEAR_UNIT (R12), RELEASE_RESOURCES (R80) and LINE_SET (R179). -/

namespace Sys2Proof.Machine

def kindMapSet : Byte := 20
def kindExpectSet : Byte := 21
def kindRotationSet : Byte := 22
def kindRotate : Byte := 23
def kindClearUnit : Byte := 24
def kindReleaseResources : Byte := 25
def kindLineSet : Byte := 26

/-! ## MAP_SET (R153) -/

/-- A port that is to be UNUSED and is not QUALIFIED: probe timer stopped, queue emptied (R153). -/
def PortRec.unmapped (r : PortRec) : PortRec := { r with state := .unused, probe := none, queue := [] }

/-- The slot's port is taken away (R153, R149, R1): the port is UNUSED, the slot unmapped and never heard. -/
def State.takePortAway (s : State) (u : Slot) (p : Port) : State :=
  let s := if (s.portRec p).state = .qualified then s.leaveQualified p .unused else s.setPort p (s.portRec p).unmapped
  s.setUnit u { s.unitRec u with port := none, report := none, lastSetpoint := none }

/-- The slot gains a port, which goes from UNUSED to PROBING with a PROBE at once (R153, R145). -/
def State.givePort (s : State) (u : Slot) (p : Port) : State :=
  let s := s.setUnit u { s.unitRec u with port := some p }
  let s := s.setPort p { s.portRec p with state := .probing, lastMachine := none, outstanding := none }
  s.probeNow p

/-- The map changes in one event (R153). -/
def State.remap (s : State) (u : Slot) (p : Option Port) : State :=
  let s := match (s.unitRec u).port with
    | some old => s.takePortAway u old
    | none => s
  match p with
  | some q => s.givePort u q
  | none => s

/-- A port, or none with 0 (section 11.2). -/
def portOrNone (c : Byte) : Option (Option Port) := if c = 0 then some none else (portOfCode c).map some

/-- The port is mapped to a slot other than `u`. -/
def State.takenByOther (s : State) (u : Slot) (p : Option Port) : Bool :=
  p.any (fun q => Slot.all.any (fun v => v != u && (s.unitRec v).port == some q))

/-- MAP_SET (R153): the checks in the order of its table. -/
def execMapSet (tag slot port : Byte) (s : State) : Host.Outcome State Fault Refusal :=
  let t := s.takePlantFrame
  match slotOfCode slot, portOrNone port with
  | none, _ => .next (t.manage tag kindMapSet .invalid 1)
  | some _, none => .next (t.manage tag kindMapSet .invalid 2)
  | some u, some p =>
    if t.governs then .next (t.manage tag kindMapSet .state)
    else if t.takenByOther u p then .next (t.manage tag kindMapSet .invalid 2)
    else if (t.unitRec u).port = p then .next (t.manage tag kindMapSet .ok)
    else .next (((t.remap u p).finish s).manage tag kindMapSet .ok)

/-! ## EXPECT_SET (R154) -/

/-- EXPECT_SET (R154). DESIGN CHOICE: where slot and number are both bad, R154 gives no order; the model answers index 1 (log
entry 46). -/
def execExpectSet (tag slot number : Byte) (s : State) : Host.Outcome State Fault Refusal :=
  let t := s.takePlantFrame
  match slotOfCode slot with
  | none => .next (t.manage tag kindExpectSet .invalid 1)
  | some u =>
    if number = 0 then .next (t.manage tag kindExpectSet .invalid 2)
    else .next ((t.setUnit u { t.unitRec u with expected := number }).manage tag kindExpectSet .ok)

/-! ## The rotation order -/

/-- The position, from 1, of the first entry that is no slot or names a slot already in `seen` (R20). -/
def firstBadEntry : Nat → List Slot → List Byte → Option Nat
  | _, _, [] => none
  | i, seen, c :: rest =>
    match slotOfCode c with
    | none => some i
    | some u => if seen.contains u then some i else firstBadEntry (i + 1) (u :: seen) rest

/-- The index with which a list is refused (R20). -/
def rotationFault (codes : List Byte) : Option Nat := if codes.length ≠ 8 then some 0 else firstBadEntry 1 [] codes

/-- A new rotation order, handed to the PLN (R19). -/
def State.setRotation (s : State) (order : List Slot) : State := s.setRos { s.ros with rotation := order }

/-- ROTATION_SET (R20): the change is handed on also when the list equals the old one. -/
def execRotationSet (tag : Byte) (slots : List Byte) (s : State) : Host.Outcome State Fault Refusal :=
  let t := s.takePlantFrame
  match rotationFault slots with
  | some i => .next (t.manage tag kindRotationSet .invalid i)
  | none =>
    .next (((t.setRotation (slots.filterMap slotOfCode)).finish s { replan := true }).manage tag kindRotationSet .ok)

/-- The head goes to the tail (R21). -/
def rotateOnce : List Slot → List Slot
  | [] => []
  | u :: rest => rest ++ [u]

/-- ROTATE (R21). -/
def execRotate (tag : Byte) (s : State) : Host.Outcome State Fault Refusal :=
  let t := s.takePlantFrame
  .next (((t.setRotation (rotateOnce t.ros.rotation)).finish s { replan := true }).manage tag kindRotate .ok)

/-! ## Marks and resources -/

/-- The trip mark, the fault mark and the backoff are cleared (R12). -/
def State.clearMarks (s : State) (u : Slot) : State :=
  s.setUnit u { s.unitRec u with trip := false, fault := false, backoff := none }

/-- CLEAR_UNIT (R12). -/
def execClearUnit (tag slot : Byte) (s : State) : Host.Outcome State Fault Refusal :=
  let t := s.takePlantFrame
  match slotOfCode slot with
  | none => .next (t.manage tag kindClearUnit .invalid)
  | some u =>
    if (t.unitRec u).trip = true ∧ t.reported u ≠ some (.stable .ss) then .next (t.manage tag kindClearUnit .state)
    else .next (((t.clearMarks u).finish s).manage tag kindClearUnit .ok)

/-- The slot holds an orphaned resource or an observed converter (R80). -/
def State.holdsStray (s : State) (u : Slot) : Bool := (s.orphan u).isSome || s.observes u .c1 || s.observes u .c2

/-- RELEASE_RESOURCES (R80). -/
def execReleaseResources (tag slot : Byte) (s : State) : Host.Outcome State Fault Refusal :=
  let t := s.takePlantFrame
  match slotOfCode slot with
  | none => .next (t.manage tag kindReleaseResources .invalid)
  | some u =>
    if t.holdsStray u then
      .next ((((t.releaseOrphan u).releaseObserved u).finish s { grants := true }).manage tag kindReleaseResources .ok)
    else .next (t.manage tag kindReleaseResources .notFound)

/-! ## LINE_SET (R179) -/

/-- ACTIVE_HIGH is 0 and ACTIVE_LOW 1 (section 11.2). -/
def activeLowOfCode (c : Byte) : Option Bool :=
  match c.toNat with
  | 0 => some false
  | 1 => some true
  | _ => none

/-- A line takes a selection and a polarity (R179): line 1 is M1, line 2 is M2. -/
def State.setLine (s : State) (first : Bool) (l : MonitorLine) : State :=
  s.setSte (if first then { s.ste with m1 := l } else { s.ste with m2 := l })

/-- LINE_SET (R179). DESIGN CHOICE: of several bad operands the line is answered first, then the selection, then the polarity
(notes/assumptions/43.md). -/
def execLineSet (tag line selection polarity : Byte) (s : State) : Host.Outcome State Fault Refusal :=
  let t := s.takePlantFrame
  if line ≠ 1 ∧ line ≠ 2 then .next (t.manage tag kindLineSet .invalid 1)
  else match selectionOfCode selection with
    | none => .next (t.manage tag kindLineSet .invalid 2)
    | some sel =>
      match activeLowOfCode polarity with
      | none => .next (t.manage tag kindLineSet .invalid 3)
      | some low =>
        .next ((t.setLine (decide (line = 1)) { selection := sel, activeLow := low }).manage tag kindLineSet .ok)

end Sys2Proof.Machine
end

