-- ==== Sys2Proof/Machine/PartStates.lean ====
section
/-! DEFINITION. The meanings of ENABLE (R160), DISABLE (R164) and RESUME (R163). -/

namespace Sys2Proof.Machine

def kindEnable : Byte := 16
def kindDisable : Byte := 17
def kindResume : Byte := 18

/-! ## ENABLE (R160) -/

/-- The slot is mapped and has no capability table. -/
def State.lacksTable (s : State) (u : Slot) : Bool := (s.unitRec u).port.isSome && (s.head.caps.get u).isNone

/-- The detail of the first unmet condition (R160). -/
def State.enableFault (s : State) : Option Nat :=
  if s.headInUse.isNone then some 1
  else if s.pln.table.isNone then some 2
  else if s.trs.waterways.isNone then some 3
  else (Slot.all.find? s.lacksTable).map (fun u => 4 + (slotCode u).toNat)

/-- The targets at ENABLE (R118); the source is not touched. -/
def Tgt.enabled (t : Tgt) (actual : Int) : Tgt :=
  let x := clampPlant actual
  { t with ramped := x, reqBase := x, plan := if t.source = .profile then t.plan else x, increment := 0 }

/-- The TRS compares the demand of a held slot (R83). -/
def State.compareHeld (s : State) (u : Slot) : State := if (s.unitRec u).hold.isSome then s.compareDemand u else s

/-- A request left over from before DISABLE, still in its step, goes on to its end as it was `before` (R83). -/
def State.keepStep (before s : State) (u : Slot) : State := if before.underOrder u then s.setReq u (before.req u) else s

/-- The part is DISPATCHING, with its link timer, its targets and a planner that has selected nothing yet (R160, R118, R42). -/
def State.entered (s : State) : State :=
  let s := s.setPli { s.pli with
    part := .dispatching, liveness := some (later s.clock s.params.linkTimeout), linkSilent := false }
  (s.setTgt (s.tgt.enabled s.plantActual)).setPln (.cleared s.pln.table)

/-- The entry into DISPATCHING (R160, R83): MANUAL requests of the held slots in rotation order, then row selection without dwell,
whose assignment AUTOMATIC requests follow from; leftover requests are left alone (notes/assumptions/10.md). -/
def State.enabled (s : State) : State :=
  let t := (s.ros.rotation.foldl State.compareHeld s.entered).selectRow false
  Slot.all.foldl (State.keepStep s) t

/-- ENABLE (R160): refused with STATE outside STANDBY and for an unmet condition. -/
def execEnable (tag : Byte) (s : State) : Host.Outcome State Fault Refusal :=
  let t := s.takePlantFrame
  if t.governs then .next (t.manage tag kindEnable .state)
  else match t.enableFault with
    | some d => .next (t.manage tag kindEnable .state d)
    | none => .next ((t.enabled.finish s { allocate := true }).manage tag kindEnable .ok)

/-! ## DISABLE (R164) -/

/-- The slot's request at DISABLE (R83). -/
def State.disableRequest (s : State) (u : Slot) : State :=
  match s.req u with
  | none => s
  | some r =>
    match r.state with
    | .waiting => s.endRequest u
    | .warning => (s.withdraw u).endRequest u
    | _ => s.setReq u (some (r.redirect r.cls r.stepDest))

/-- The passage to STANDBY (R164, R43, R83, R107). -/
def State.disabled (s : State) : State :=
  let fell := s.inFallback
  let s := s.setPli { s.pli with part := .standby }
  let s := if fell then s.post .fallbackLeft none (some 0) else s
  let s := Slot.all.foldl State.disableRequest s
  (s.setPln (.cleared s.pln.table)).setAlc .cleared

/-- DISABLE (R164): refused with STATE in STANDBY. -/
def execDisable (tag : Byte) (s : State) : Host.Outcome State Fault Refusal :=
  let t := s.takePlantFrame
  if t.governs then .next (t.disabled.manage tag kindDisable .ok) else .next (t.manage tag kindDisable .state)

/-! ## RESUME (R163) -/

/-- RESUME (R163): taken in AWAIT_RESUME alone. -/
def execResume (tag : Byte) (s : State) : Host.Outcome State Fault Refusal :=
  let t := s.takePlantFrame
  if t.pli.part = .fallback .awaitResume then .next ((t.returnToDispatching.finish s).manage tag kindResume .ok)
  else .next (t.manage tag kindResume .state)

end Sys2Proof.Machine
end

