-- ==== Sys2Proof/Machine/Profiles.lean ====
section
/-! DEFINITION. The meanings of the profile requests (R124 to R127), PLAY (R129), STOP_PLAY (R130), and of the interval clock's
events: MARKER_INPUT_EDGE (R134), INTERVAL_TIMER_BOUNDARY (R133), HOLDOVER_BOUNDARY (R136), the two switching times (R131) and
MARKER_PULSE_END (R138). -/

namespace Sys2Proof.Machine

def kindProfileDefine : Byte := 7
def kindProfileWrite : Byte := 8
def kindProfileRead : Byte := 9
def kindProfileDelete : Byte := 10
def kindProfileDeleteAll : Byte := 11
def kindPlay : Byte := 12
def kindStopPlay : Byte := 13

/-! ## The store -/

/-- The checks of PROFILE_DEFINE in the order of R124: the reply and its index, or the name to define. -/
def State.defineCheck (s : State) (field : List Byte) (count interval : Nat) : Except (Code × Nat) (List Byte) :=
  match nameOfField field with
  | none => .error (.invalid, 1)
  | some name =>
    if count < 1 ∨ poolSize < count then .error (.invalid, 2)
    else if interval < 1 ∨ 60 < interval then .error (.invalid, 3)
    else if (s.profileNamed name).isSome then .error (.exists_, 0)
    else if maxProfiles ≤ s.prf.dir.length ∨ s.freeTotal < count then .error (.noSpace, 0)
    else .ok name

/-- The body of PROFILE_DEFINE with CLAMPED: the payload as stored, then the free total (R183). -/
def defineBody (p : Profile) (fill : Int) (free : Nat) : List Byte :=
  nameField p.name ++ nat16 p.entries.length ++ [byte p.minutes, flagByte p.rep] ++ int16 fill ++ nat16 free

/-- PROFILE_DEFINE (R124): a repeat byte of 0 is off, any other on (R183). -/
def execProfileDefine (tag : Byte) (name : List Byte) (count : Half) (interval rep : Byte) (fill : Option Half) (s : State) :
    Host.Outcome State Fault Refusal :=
  let t := s.takePlantFrame
  match t.defineCheck name count.toNat interval.toNat with
  | .error (c, d) => .next (t.manage tag kindProfileDefine c d)
  | .ok n =>
    let given := (fill.map BitVec.toInt).getD 0
    let v := clampPlant given
    let p : Profile :=
      { name := n, minutes := interval.toNat, rep := decide (rep ≠ 0), entries := List.replicate count.toNat v }
    let t := t.setDir (t.prf.dir ++ [p])
    if v = given then .next (t.manage tag kindProfileDefine .ok 0 (nat16 t.freeTotal))
    else .next (t.manage tag kindProfileDefine .clamped 0 (defineBody p v t.freeTotal))

/-- The checks of PROFILE_WRITE and PROFILE_READ in their order (R125, R126): the reply and its index, or the profile. -/
def State.rangeCheck (s : State) (field : List Byte) (first count : Nat) : Except (Code × Nat) Profile :=
  match nameOfField field with
  | none => .error (.invalid, 1)
  | some name =>
    if count < 1 ∨ 16 < count then .error (.invalid, 0)
    else match s.profileNamed name with
      | none => .error (.notFound, 0)
      | some p => if p.entries.length < first + count then .error (.invalid, max first p.entries.length) else .ok p

/-- Values written over a list from index `first` on. -/
def writeAt {α : Type} (first : Nat) (vs xs : List α) : List α := xs.take first ++ vs ++ xs.drop (first + vs.length)

/-- The values of a frame clamped to the plant range (R125). -/
def clampValues (values : List Half) : List Int := values.map (fun v => clampPlant v.toInt)

/-- Replace the entries of the profile of that name. -/
def State.setEntries (s : State) (name : List Byte) (entries : List Int) : State :=
  s.setDir (s.prf.dir.map (fun p => if p.name = name then { p with entries := entries } else p))

/-- The body of PROFILE_WRITE with CLAMPED: the payload as stored (R184). -/
def writeBody (name : List Byte) (first : Nat) (count : Byte) (vs : List Int) : List Byte :=
  nameField name ++ nat16 first ++ [count] ++ vs.flatMap int16

/-- PROFILE_WRITE (R125). A term whose values differ in number from its count is no frame of this kind (R182) and is answered
UNKNOWN (notes/assumptions/18.md). -/
def execProfileWrite (tag : Byte) (name : List Byte) (first : Half) (count : Byte) (values : List Half) (s : State) :
    Host.Outcome State Fault Refusal :=
  let t := s.takePlantFrame
  if values.length ≠ count.toNat then .next (t.manage tag kindProfileWrite .unknown)
  else match t.rangeCheck name first.toNat count.toNat with
    | .error (c, d) => .next (t.manage tag kindProfileWrite c d)
    | .ok p =>
      let vs := clampValues values
      let t := t.setEntries p.name (writeAt first.toNat vs p.entries)
      if vs = values.map BitVec.toInt then .next (t.manage tag kindProfileWrite .ok)
      else .next (t.manage tag kindProfileWrite .clamped 0 (writeBody p.name first.toNat count vs))

/-- PROFILE_READ (R126). -/
def execProfileRead (tag : Byte) (name : List Byte) (first : Half) (count : Byte) (s : State) :
    Host.Outcome State Fault Refusal :=
  let t := s.takePlantFrame
  match t.rangeCheck name first.toNat count.toNat with
  | .error (c, d) => .next (t.manage tag kindProfileRead c d)
  | .ok p => .next (t.manage tag kindProfileRead .ok 0 (((p.entries.drop first.toNat).take count.toNat).flatMap int16))

/-- The profile is the one the playback record names. -/
def State.named (s : State) (name : List Byte) : Bool := s.prf.playback.profile == some name

/-- PROFILE_DELETE (R127). -/
def execProfileDelete (tag : Byte) (name : List Byte) (s : State) : Host.Outcome State Fault Refusal :=
  let t := s.takePlantFrame
  match nameOfField name with
  | none => .next (t.manage tag kindProfileDelete .invalid 1)
  | some n =>
    if (t.profileNamed n).isNone then .next (t.manage tag kindProfileDelete .notFound)
    else if t.named n && t.prf.playback.state.inUse then .next (t.manage tag kindProfileDelete .busy)
    else
      let u := t.setDir (t.prf.dir.filter (fun p => p.name != n))
      .next ((if t.named n then u.setPlayback .idle else u).manage tag kindProfileDelete .ok)

/-- PROFILE_DELETE_ALL (R127). -/
def execProfileDeleteAll (tag : Byte) (s : State) : Host.Outcome State Fault Refusal :=
  let t := s.takePlantFrame
  if t.prf.playback.state.inUse then .next (t.manage tag kindProfileDeleteAll .busy)
  else .next (((t.setDir []).setPlayback .idle).manage tag kindProfileDeleteAll .ok)

/-! ## Playback -/

/-- The record that takes a profile (R129), before the marker mode acts. -/
def Playback.taken (name : List Byte) (st : PlayState) : Playback := { Playback.idle with profile := some name, state := st }

/-- PLAY's start (R129): in LEAD mode the instant is a boundary that begins entry 0 and pulses the output (R133); in FOLLOW mode
the record waits in ARMED with the divider count 0. -/
def State.play (s : State) (name : List Byte) : State :=
  match s.params.markerMode with
  | .lead => (s.setPlayback (.taken name .aligned)).boundary.pulse
  | .follow => (s.setPlayback (.taken name .armed)).clearDivider

/-- PLAY's start moves the ramped target (`State.boundaryMoves`); in FOLLOW mode it is no boundary. -/
def State.playMoves (s : State) (name : List Byte) : Bool :=
  match s.params.markerMode with
  | .lead => (s.setPlayback (.taken name .aligned)).boundaryMoves
  | .follow => false

/-- PLAY (R129). DESIGN CHOICE: R129 gives its refusals no order; where two fit, the model answers the one named first (log
entry 46). -/
def execPlay (tag : Byte) (name : List Byte) (s : State) : Host.Outcome State Fault Refusal :=
  let t := s.takePlantFrame
  match nameOfField name with
  | none => .next (t.manage tag kindPlay .invalid 1)
  | some n =>
    if (t.profileNamed n).isNone then .next (t.manage tag kindPlay .notFound)
    else if t.frozen .profile then .next (t.manage tag kindPlay .state)
    else .next (((t.play n).finish s { allocate := t.playMoves n }).manage tag kindPlay .ok)

/-- STOP_PLAY (R130): a marker pulse under way is completed. -/
def execStopPlay (tag : Byte) (s : State) : Host.Outcome State Fault Refusal :=
  let t := s.takePlantFrame
  if t.frozen .profile then .next (t.manage tag kindStopPlay .state)
  else .next ((t.setPlayback .idle).manage tag kindStopPlay .ok)

/-- The edge is active: rising with POS, falling with NEG (R134). -/
def State.edgeActive (s : State) (rising : Bool) : Bool :=
  match s.params.markerPolarity with
  | .pos => rising
  | .neg => !rising

/-- MARKER_INPUT_EDGE (R134): edges are not counted in LEAD mode (R133), and an inactive edge is none. -/
def execMarkerInputEdge (rising : Bool) (s : State) : Host.Outcome State Fault Refusal :=
  if s.params.markerMode = .follow ∧ s.edgeActive rising = true then .next (s.activeEdge.finish s { allocate := s.edgeMoves })
  else .next s

/-- INTERVAL_TIMER_BOUNDARY (R133): in LEAD mode while PLAYING, when the expected next boundary is reached. -/
def execIntervalTimerBoundary (s : State) : Host.Outcome State Fault Refusal :=
  if s.params.markerMode = .lead ∧ s.prf.playback.state = .playing ∧ timerDue s.clock s.prf.playback.next = true then
    .next (s.boundary.pulse.finish s { allocate := s.boundaryMoves })
  else .next s

/-- PLAN_SWITCHING_TIME (R131): the next entry's plan value is handed when its time is reached. -/
def execPlanSwitchingTime (s : State) : Host.Outcome State Fault Refusal := .next (s.meetPlan.finish s)

/-- RAMP_SWITCHING_TIME (R131): the next entry's ramp value is handed when its time is reached. -/
def execRampSwitchingTime (s : State) : Host.Outcome State Fault Refusal := .next (s.meetRamp.finish s)

/-- HOLDOVER_BOUNDARY (R136): in FOLLOW mode while ALIGNED or PLAYING, at the instant R136 gives. -/
def execHoldoverBoundary (s : State) : Host.Outcome State Fault Refusal :=
  if s.params.markerMode = .follow ∧ s.prf.playback.state.clocked = true
      ∧ timerDue s.clock (s.playing.bind s.holdoverTime) = true then
    .next (s.holdover.finish s { allocate := s.boundaryMoves })
  else .next s

/-- MARKER_PULSE_END (R138): the output rests. -/
def execMarkerPulseEnd (s : State) : Host.Outcome State Fault Refusal := .next (s.setPrf { s.prf with pulse := none })

end Sys2Proof.Machine
end

