-- ==== Sys2Proof/Machine/Queries.lean ====
section
/-! DEFINITION. The meanings of the queries (R158): STATUS_REQ (R171), UNIT_REQ (R173), TABLE_READ, EVENT_READ (R176) and
PROFILE_CATALOG (R126). -/

namespace Sys2Proof.Machine

def kindStatusReq : Byte := 1
def kindUnitReq : Byte := 2
def kindTableRead : Byte := 3
def kindEventRead : Byte := 4
def kindProfileCatalog : Byte := 5

/-- STATUS_REQ (R171). -/
def execStatusReq (tag : Byte) (s : State) : Host.Outcome State Fault Refusal :=
  let t := s.takePlantFrame
  .next (t.answer tag kindStatusReq .ok 0 t.statusBody)

/-- UNIT_REQ (R173). -/
def execUnitReq (tag slot : Byte) (s : State) : Host.Outcome State Fault Refusal :=
  let t := s.takePlantFrame
  match slotOfCode slot with
  | none => .next (t.answer tag kindUnitReq .invalid 1)
  | some u => .next (t.answer tag kindUnitReq .ok 0 (t.unitBody u))

/-- TABLE_READ (R158): NOTFOUND where there is no such table or row. -/
def execTableRead (tag position row : Byte) (s : State) : Host.Outcome State Fault Refusal :=
  let t := s.takePlantFrame
  match t.tableRow position row.toNat with
  | none => .next (t.answer tag kindTableRead .notFound)
  | some body => .next (t.answer tag kindTableRead .ok 0 body)

/-- An EVENT_READ takes at most 8 records (R176). -/
def readLimit : Nat := 8

/-- The body of EVENT_READ (R184): EVENTS_LOST before the read, the number of records left, the records. -/
def State.eventBody (s : State) : List Byte :=
  [flagByte s.ste.eventsLost, byte (s.ste.events.length - readLimit)] ++ (s.ste.events.take readLimit).flatMap eventBytes

/-- The records read are removed, and EVENTS_LOST is cleared (R176). -/
def State.dropRead (s : State) : State := s.setSte { s.ste with events := s.ste.events.drop readLimit, eventsLost := false }

/-- EVENT_READ (R176). -/
def execEventRead (tag : Byte) (s : State) : Host.Outcome State Fault Refusal :=
  let t := s.takePlantFrame
  .next (t.dropRead.answer tag kindEventRead .ok 0 t.eventBody)

/-- A profile as PROFILE_CATALOG lists it (R183). -/
def Profile.listing (p : Profile) : List Byte :=
  nameField p.name ++ nat16 p.entries.length ++ [byte p.minutes, flagByte p.rep]

/-- The playback record as PROFILE_CATALOG carries it (R183). -/
def Playback.bytes (b : Playback) : List Byte :=
  nameField (b.profile.getD []) ++ [playStateCode b.state] ++ ((b.current.map nat16).getD [0xFF, 0xFF])
    ++ optWord b.last ++ optWord b.next ++ [flagByte b.planHanded, flagByte b.rampHanded, flagByte b.markerLost]

/-- At most eight profiles are listed (R126). -/
def State.listed (s : State) (start : Nat) : List Profile := (s.prf.dir.drop start).take 8

/-- The body of PROFILE_CATALOG (R126, R183). -/
def State.catalogBody (s : State) (start : Nat) : List Byte :=
  [byte s.prf.dir.length] ++ nat16 s.freeTotal ++ [byte (s.listed start).length]
    ++ (s.listed start).flatMap Profile.listing ++ s.prf.playback.bytes

/-- PROFILE_CATALOG (R126): with no starting position, from 0. -/
def execProfileCatalog (tag : Byte) (start : Option Byte) (s : State) : Host.Outcome State Fault Refusal :=
  let t := s.takePlantFrame
  .next (t.answer tag kindProfileCatalog .ok 0 (t.catalogBody ((start.map BitVec.toNat).getD 0)))

end Sys2Proof.Machine
end

