-- ==== Sys2Proof/Machine/Sources.lean ====
section
/-! DEFINITION. The meanings of SOURCE_SET (R111), PATTERN_SET (R121) and PATTERN_PERIOD_EXPIRY (R122). -/

namespace Sys2Proof.Machine

def kindSourceSet : Byte := 14
def kindPatternSet : Byte := 15

/-! ## SOURCE_SET (R111) -/

/-- The change of source, by the source newly chosen; leaving PATTERN stops the generator (R111). -/
def State.changeSource (s : State) (src : Source) : State :=
  let s := s.setTgt { s.tgt with source := src, run := none }
  match src with
  | .direct => s.setPlanTarget s.tgt.reqBase
  | .profile => s
  | .pattern => (s.setTgt { s.tgt with increment := 0 }).startPattern

/-- SOURCE_SET (R111). DESIGN CHOICE: where two cases of R111's table fit, the upper one is answered (log entry 46). -/
def execSourceSet (tag source : Byte) (s : State) : Host.Outcome State Fault Refusal :=
  let t := s.takePlantFrame
  match sourceOfCode source with
  | none => .next (t.manage tag kindSourceSet .invalid)
  | some src =>
    if t.inFallback then .next (t.manage tag kindSourceSet .state)
    else if src = t.tgt.source then .next (t.manage tag kindSourceSet .ok)
    else .next (((t.changeSource src).finish s).manage tag kindSourceSet .ok)

/-! ## PATTERN_SET (R121) -/

/-- The settings as stored (R121): levels clamped, the period a long-timer value, 0 stored as 1 s. -/
def Pattern.stored (low high : Int) (period : Nat) (shape : Shape) : Pattern :=
  { low := clampPlant low, high := clampPlant high, period := longTimer (max 1 period), shape := shape }

/-- The settings in the form of the request's payload (R183). -/
def Pattern.bytes (p : Pattern) : List Byte := int16 p.low ++ int16 p.high ++ nat16 p.period ++ [shapeCode p.shape]

/-- Store the settings; while the source is PATTERN the generator restarts at its low level (R121). -/
def State.storePattern (s : State) (p : Pattern) : State :=
  let s := s.setTgt { s.tgt with pattern := p }
  if s.tgt.source = .pattern then s.startPattern else s

/-- PATTERN_SET (R121, R162). DESIGN CHOICE: where a bad shape meets a frozen pattern, R121 fits both INVALID and STATE and gives
no order; the model answers INVALID (log entry 46). -/
def execPatternSet (tag : Byte) (low high period : Half) (shape : Byte) (s : State) : Host.Outcome State Fault Refusal :=
  let t := s.takePlantFrame
  match shapeOfCode shape with
  | none => .next (t.manage tag kindPatternSet .invalid)
  | some sh =>
    if t.frozen .pattern then .next (t.manage tag kindPatternSet .state)
    else
      let p := Pattern.stored low.toInt high.toInt period.toNat sh
      let exact := decide (p.low = low.toInt ∧ p.high = high.toInt ∧ p.period = period.toNat)
      .next (((t.storePattern p).finish s).manage tag kindPatternSet (if exact then .ok else .clamped) 0 p.bytes)

/-! ## PATTERN_PERIOD_EXPIRY (R122) -/

/-- The generator steps to its next position and hands that level (R122). -/
def State.stepPattern (s : State) (r : PatternRun) : State :=
  let pos := (r.pos + 1) % s.tgt.pattern.shape.positions
  let s := s.setTgt { s.tgt with run := some { pos := pos, expiry := later s.clock s.tgt.pattern.period } }
  s.handLevel (s.tgt.pattern.level pos)

/-- PATTERN_PERIOD_EXPIRY (R122). -/
def execPatternPeriodExpiry (s : State) : Host.Outcome State Fault Refusal :=
  match s.tgt.run with
  | none => .next s
  | some r => if reached s.clock r.expiry then .next ((s.stepPattern r).finish s) else .next s

end Sys2Proof.Machine
end

