-- ==== Sys2Proof/Machine/Starting.lean ====
section
/-! DEFINITION. The meanings of POWER_ON (R166), RESTART and RESET_INPUT (R165): each block's state as its chapter gives it. -/

namespace Sys2Proof.Machine

/-- The commands waiting and the frames already sent are the model's own, and stay. -/
def State.freshFrom (s : State) : State :=
  { State.reset with pending := s.pending, plantOut := s.plantOut, unitOut := s.unitOut }

/-- POWER_ON (R166): every field as `State.reset` has it. -/
def execPowerOn (s : State) : Host.Outcome State Fault Refusal := .next s.freshFrom

/-- A unit record after RESTART (section 1.6): the map and the expected number stay. -/
def UnitRec.restarted (r : UnitRec) : UnitRec :=
  { port := r.port, expected := r.expected, report := none, hold := none, trip := false, fault := false, backoff := none,
    lastSetpoint := none }

/-- A port record after RESTART (R143, R181), before the PROBE of R145; a frame being sent goes on (notes/assumptions/30.md). -/
def PortRec.restarted (r : PortRec) (mapped : Bool) : PortRec :=
  { state := if mapped then .probing else .unused, probe := none, liveness := none, lastMachine := none,
    tagCounter := r.tagCounter, outstanding := none, sending := r.sending, queue := [], ackMode := r.ackMode, framer := none }

/-- The waterway record after RESTART (R84, R89). -/
def WaterwayRec.restarted (r : WaterwayRec) (now : Word) : WaterwayRec :=
  WaterwayRec.startSettle { row := r.row, inProgress := 0, settle := none, warned := [], generator := none } now

/-- The TRS's state after RESTART (section 4.11). -/
def Trs.restarted (t : Trs) (now : Word) : Trs :=
  { requests := .const none, entryCounter := 0, orphans := .const none, c1 := none, c2 := none,
    waterways := t.waterways.map (fun w => { w with recs := .ofFn (fun i => (w.recs.get i).restarted now) }) }

/-- The blocks but for the ports' probing, the pattern and the event (R165, R32, R42, R90, R109, R128, R159). DESIGN CHOICE: R109 gives the
targets 0.0 after RESTART and R128 says that they keep the values they last took; the model follows R109, whose state they are
(notes/assumptions/41.md). -/
def State.cleared (s : State) : State :=
  { s with
    pli := { s.pli with part := .standby, liveness := none, linkSilent := false, load := none }
    ports := .ofFn (fun p => (s.ports.get p).restarted (s.slotOf p).isSome)
    ros := { s.ros with units := .ofFn (fun u => (s.ros.units.get u).restarted) }
    head := { caps := s.head.caps, levels := none, estimate := none, levelTimer := none, stale := false, clamped := false }
    tgt := { source := s.tgt.source, reqBase := 0, plan := 0, ramped := 0, increment := 0, clamped := false,
             pattern := s.tgt.pattern, run := none }
    prf := { dir := s.prf.dir, playback := .idle, divider := 0, pulse := none }
    pln := .cleared s.pln.table
    trs := s.trs.restarted s.pli.clock
    alc := .cleared
    ste := { events := [], seq := 0, eventsLost := false, m1 := s.ste.m1, m2 := s.ste.m2 } }

/-- Every PROBING port sends a PROBE at once (R143, R145). -/
def State.probeMapped (s : State) (p : Port) : State := if (s.slotOf p).isSome then s.probeNow p else s

/-- The restart of R165; `value` is 0 for RESTART and 1 for the reset input (R177). DESIGN CHOICE: the first PROBEs of R145 are
handed to the ports in the order A to H, which the spec leaves open: the unit links are independent (log entry 47). -/
def State.restarted (s : State) (value : Int) : State :=
  let s := s.cleared.post .restarted none (some value)
  let s := if s.tgt.source = .pattern then s.startPattern else s
  Port.all.foldl State.probeMapped s

/-- RESTART's kind (section 11.2). -/
def kindRestart : Byte := 19

/-- RESTART (R165, R177): answered OK, and the part restarts at once. -/
def execRestart (tag : Byte) (s : State) : Host.Outcome State Fault Refusal :=
  .next ((s.takePlantFrame.restarted 0).manage tag kindRestart .ok)

/-- RESET_INPUT (R165, R177): as RESTART, with no reply. -/
def execResetInput (s : State) : Host.Outcome State Fault Refusal := .next (s.restarted 1)

end Sys2Proof.Machine
end

