-- ==== Sys2Proof/Machine/Received.lean ====
section
/-! DEFINITION. The meaning of FRAME_DISCARDED (R181): the framer hunts through what it has dropped, and hands on the whole frames
it finds there. -/

namespace Sys2Proof.Machine

/-- A frame that a framer hands on is carried out by its command's meaning (R155, R140). What is no frame is not handed on. -/
def receive (c : Instr) (s : State) : Host.Outcome State Fault Refusal :=
  match c with
  | .unknownFrame cls kind tag => execUnknownFrame cls kind tag s
  | .base target increment => execBase target increment s
  | .reg increment => execReg increment s
  | .levels upper lower => execLevels upper lower s
  | .unitHold slot mode setpoint => execUnitHold slot mode setpoint s
  | .unitRelease slot => execUnitRelease slot s
  | .emergencyStop slot => execEmergencyStop slot s
  | .configSet tag param value port => execConfigSet tag param value port s
  | .configGet tag param port => execConfigGet tag param port s
  | .loadBegin tag position rows => execLoadBegin tag position rows s
  | .loadRow tag index row => execLoadRow tag index row s
  | .loadEnd tag => execLoadEnd tag s
  | .loadAbort tag => execLoadAbort tag s
  | .profileDefine tag name count interval rep fill => execProfileDefine tag name count interval rep fill s
  | .profileWrite tag name first count values => execProfileWrite tag name first count values s
  | .profileRead tag name first count => execProfileRead tag name first count s
  | .profileDelete tag name => execProfileDelete tag name s
  | .profileDeleteAll tag => execProfileDeleteAll tag s
  | .play tag name => execPlay tag name s
  | .stopPlay tag => execStopPlay tag s
  | .sourceSet tag source => execSourceSet tag source s
  | .patternSet tag low high period shape => execPatternSet tag low high period shape s
  | .enable tag => execEnable tag s
  | .disable tag => execDisable tag s
  | .resume tag => execResume tag s
  | .restart tag => execRestart tag s
  | .mapSet tag slot port => execMapSet tag slot port s
  | .expectSet tag slot number => execExpectSet tag slot number s
  | .rotationSet tag slots => execRotationSet tag slots s
  | .rotate tag => execRotate tag s
  | .clearUnit tag slot => execClearUnit tag slot s
  | .releaseResources tag slot => execReleaseResources tag slot s
  | .lineSet tag line selection polarity => execLineSet tag line selection polarity s
  | .statusReq tag => execStatusReq tag s
  | .unitReq tag slot => execUnitReq tag slot s
  | .tableRead tag position row => execTableRead tag position row s
  | .eventRead tag => execEventRead tag s
  | .profileCatalog tag start => execProfileCatalog tag start s
  | .ident p number => execIdent p number s
  | .status p mode power remote available converter cause => execStatus p mode power remote available converter cause s
  | .orderAck p tag result cause => execOrderAck p tag result cause s
  | .unitLinkFrameDiscarded p => execUnitLinkFrameDiscarded p s
  | .powerOn | .resetInput | .partClockAdvance | .frameDiscarded .. | .framerIdleTimeout .. | .transmitComplete ..
  | .markerInputEdge .. | .dispatchLivenessExpiry | .levelTimerExpiry | .dwellTimerExpiry | .backoffExpiry ..
  | .leadTimerExpiry .. | .ackTimerExpiry .. | .stepTimerExpiry .. | .settleTimerExpiry .. | .warningPhaseEnd ..
  | .probeTimerExpiry .. | .statusLivenessExpiry .. | .intervalTimerBoundary | .planSwitchingTime | .rampSwitchingTime
  | .holdoverBoundary | .patternPeriodExpiry | .markerPulseEnd => .next s

/-- Frames are carried out in the order in which they are handed on (R155). -/
def receiveAll : List Instr → State → Host.Outcome State Fault Refusal
  | [], s => .next s
  | c :: rest, s =>
    match receive c s with
    | .next t => receiveAll rest t
    | stop => stop

/-- FRAME_DISCARDED (R181, R155, R140): the discarded frame has no effect. The framer hunts again from the byte after its start byte:
the whole frames found are handed on, and a frame still incomplete is held (notes/assumptions/17.md). -/
def execFrameDiscarded (l : Link) (bytes : List Byte) (s : State) : Host.Outcome State Fault Refusal :=
  match receiveAll (framesIn l bytes.tail) s with
  | .next t => .next (t.setFramer l (hunt l bytes.tail).held)
  | stop => stop

end Sys2Proof.Machine
end

