-- ==== Sys2Proof/Machine/Timers.lean ====
section
/-! DEFINITION. The advance of the part clock (R115, R171) and the meanings of the timers' expiries. An expiry has its effect while
its timer runs and the part clock has reached its expiry, and none otherwise (notes/assumptions/2.md). -/

namespace Sys2Proof.Machine

/-! ## The part clock -/

/-- The ramped target after a ramp step (R115). -/
def rampStep (rate : Nat) (ramped input : Int) : Int :=
  if (input - ramped).natAbs ≤ rate then input else if ramped < input then ramped + rate else ramped - rate

/-- A ramp step (R115): none in STANDBY and none with ramp_rate 0. -/
def State.ramp (s : State) : State :=
  if s.governs && s.params.rampRate != 0
  then s.setTgt { s.tgt with ramped := rampStep s.params.rampRate s.tgt.ramped s.tgt.reqBase }
  else s

/-- PART_CLOCK_ADVANCE (R115, R166, R171): the clock counts modulo 2^32, a ramp step falls, and the plant status is sent. -/
def execPartClockAdvance (s : State) : Host.Outcome State Fault Refusal :=
  let t := (s.setPli { s.pli with clock := s.clock + 1 }).ramp
  .next (t.finish s).sendStatus

/-! ## Plant-side timers -/

/-- The fold of the increment at entry into FALLBACK (R119). -/
def State.fold (s : State) : State :=
  let inc := s.tgt.increment
  let base := clampPlant (s.tgt.reqBase + inc)
  let s := s.setTgt { s.tgt with reqBase := base, ramped := clampPlant (s.tgt.ramped + inc), increment := 0 }
  if s.tgt.source = .profile then s else s.setPlanTarget base

/-- Entry into FALLBACK from DISPATCHING (R162). -/
def State.enterFallback (s : State) : State :=
  ((s.setPli { s.pli with part := .fallback .linkDown }).post .fallbackEntered none none).fold

/-- What the expiry of the dispatch-liveness timer does (R161). -/
def State.linkDown (s : State) : State :=
  let s := s.setPli { s.pli with liveness := none, linkSilent := true }
  match s.pli.part with
  | .standby => s
  | .dispatching => s.enterFallback
  | .fallback _ => s.setPli { s.pli with part := .fallback .linkDown }

/-- DISPATCH_LIVENESS_EXPIRY (R161). -/
def execDispatchLivenessExpiry (s : State) : Host.Outcome State Fault Refusal :=
  if timerDue s.clock s.pli.liveness then .next (s.linkDown.finish s) else .next s

/-- LEVEL_TIMER_EXPIRY (R35): the estimate and the head in use stay. -/
def execLevelTimerExpiry (s : State) : Host.Outcome State Fault Refusal :=
  if timerDue s.clock s.head.levelTimer then
    .next ((s.setHead { s.head with levelTimer := none, stale := true }).post .headStale none (s.head.estimate.map Int.ofNat))
  else .next s

/-- DWELL_TIMER_EXPIRY (R49): row selection runs, and the proposal is adopted (R47). -/
def execDwellTimerExpiry (s : State) : Host.Outcome State Fault Refusal :=
  if s.governs && timerDue s.clock (s.pln.proposal.map (·.expiry)) then .next ((s.selectRow true).finish s) else .next s

/-! ## Unit timers -/

/-- BACKOFF_EXPIRY (R11). -/
def execBackoffExpiry (u : Slot) (s : State) : Host.Outcome State Fault Refusal :=
  if timerDue s.clock (s.unitRec u).backoff then .next ((s.setUnit u { s.unitRec u with backoff := none }).finish s)
  else .next s

/-- The lead of the slot's request in WARNING has expired. -/
def State.leadDue (s : State) (u : Slot) : Bool :=
  (s.req u).any (fun r => r.state == .warning && timerDue s.clock r.leadExpiry)

/-- LEAD_TIMER_EXPIRY (R69, R70): the order is sent. -/
def execLeadTimerExpiry (u : Slot) (s : State) : Host.Outcome State Fault Refusal :=
  if s.leadDue u then .next ((s.orderStep u).finish s) else .next s

/-- The acknowledgement timer of the slot's request in ORDERED has expired. -/
def State.ackDue (s : State) (u : Slot) : Bool :=
  (s.req u).any (fun r => r.state == .ordered && timerDue s.clock r.ackExpiry)

/-- ACK_TIMER_EXPIRY (R71, R75): the step is refused with NO_ACK, which events carry as −1 (R184). -/
def execAckTimerExpiry (u : Slot) (s : State) : Host.Outcome State Fault Refusal :=
  if s.ackDue u then .next ((s.refuseStep u (-1)).finish s) else .next s

/-- The step timer of the slot's request under order has expired. -/
def State.stepDue (s : State) (u : Slot) : Bool :=
  (s.req u).any (fun r => r.ordered && timerDue s.clock r.stepExpiry)

/-- The STOP after a step timeout (R74): not after a STOP, and only to a QUALIFIED port. -/
def State.sendTimeoutStop (s : State) (u : Slot) (k : StepKind) : State :=
  match (s.unitRec u).port with
  | none => s
  | some p => if k ≠ .stop ∧ (s.portRec p).state = .qualified then s.sendOrder p .stop none .timeoutStop else s

/-- The step in progress ends by timeout (R74). -/
def State.timeoutStep (s : State) (u : Slot) (k : StepKind) : State :=
  let s := s.failRequest u true
  let s := s.setUnit u { s.unitRec u with fault := true }
  let s := (s.sendTimeoutStop u k).post .stepTimeout (some u) (some (stepCode k))
  s.compareDemand u

/-- STEP_TIMER_EXPIRY (R74). -/
def execStepTimerExpiry (u : Slot) (s : State) : Host.Outcome State Fault Refusal :=
  if s.stepDue u then
    match (s.req u).bind Request.current with
    | none => .next s
    | some st => .next ((s.timeoutStep u st.kind).finish s)
  else .next s

/-! ## Waterway timers -/

/-- SETTLE_TIMER_EXPIRY (R87): the timer is expired, and grant evaluation runs. -/
def execSettleTimerExpiry (w : Waterway) (s : State) : Host.Outcome State Fault Refusal :=
  match s.waterwayRec w with
  | none => .next s
  | some r =>
    if timerDue s.clock r.settle then .next ((s.setWaterway w { r with settle := none }).finish s { grants := true })
    else .next s

/-- WARNING_PHASE_END (R88). -/
def execWarningPhaseEnd (w : Waterway) (s : State) : Host.Outcome State Fault Refusal :=
  match s.waterwayRec w with
  | none => .next s
  | some r => .next (s.setWaterway w (r.nextPhase s.clock))

/-! ## Port timers -/

/-- The probe timer of the port has expired: a PROBE, the timer again, and a DOWN port to PROBING (R145). -/
def State.probeExpired (s : State) (p : Port) : State :=
  let s := s.probeNow p
  if (s.portRec p).state = .down then s.setPortState p .probing else s

/-- PROBE_TIMER_EXPIRY (R144, R145). -/
def execProbeTimerExpiry (p : Port) (s : State) : Host.Outcome State Fault Refusal :=
  if (s.portRec p).state.isProbing && timerDue s.clock (s.portRec p).probe then .next ((s.probeExpired p).finish s) else .next s

/-- The port is LOST (R147). -/
def State.losePort (s : State) (p : Port) : State :=
  ((s.leaveQualified p .lost).probeNow p).post .portLost (s.slotOf p) none

/-- STATUS_LIVENESS_EXPIRY (R147, R149). -/
def execStatusLivenessExpiry (p : Port) (s : State) : Host.Outcome State Fault Refusal :=
  if decide ((s.portRec p).state = .qualified) && timerDue s.clock (s.portRec p).liveness
  then .next ((s.losePort p).finish s { hand := (s.slotOf p).toList })
  else .next s

end Sys2Proof.Machine
end

