-- ==== Sys2Proof/Machine/Dispatch.lean ====
section
/-! DEFINITION. The dispatch: one arm per command, each one direct call of the command's meaning. -/

namespace Sys2Proof.Machine

def exec (i : Instr) (s : State) : Host.Outcome State Fault Refusal :=
  match i with
  | .powerOn => Sys2Proof.Machine.execPowerOn s
  | .resetInput => Sys2Proof.Machine.execResetInput s
  | .partClockAdvance => Sys2Proof.Machine.execPartClockAdvance s
  | .frameDiscarded link bytes => Sys2Proof.Machine.execFrameDiscarded link bytes s
  | .framerIdleTimeout link => Sys2Proof.Machine.execFramerIdleTimeout link s
  | .unknownFrame cls kind tag => Sys2Proof.Machine.execUnknownFrame cls kind tag s
  | .transmitComplete p => Sys2Proof.Machine.execTransmitComplete p s
  | .base target increment => Sys2Proof.Machine.execBase target increment s
  | .reg increment => Sys2Proof.Machine.execReg increment s
  | .levels upper lower => Sys2Proof.Machine.execLevels upper lower s
  | .unitHold slot mode setpoint => Sys2Proof.Machine.execUnitHold slot mode setpoint s
  | .unitRelease slot => Sys2Proof.Machine.execUnitRelease slot s
  | .emergencyStop slot => Sys2Proof.Machine.execEmergencyStop slot s
  | .configSet tag param value port => Sys2Proof.Machine.execConfigSet tag param value port s
  | .configGet tag param port => Sys2Proof.Machine.execConfigGet tag param port s
  | .loadBegin tag position rows => Sys2Proof.Machine.execLoadBegin tag position rows s
  | .loadRow tag index row => Sys2Proof.Machine.execLoadRow tag index row s
  | .loadEnd tag => Sys2Proof.Machine.execLoadEnd tag s
  | .loadAbort tag => Sys2Proof.Machine.execLoadAbort tag s
  | .profileDefine tag name count interval rep fill => Sys2Proof.Machine.execProfileDefine tag name count interval rep fill s
  | .profileWrite tag name first count values => Sys2Proof.Machine.execProfileWrite tag name first count values s
  | .profileRead tag name first count => Sys2Proof.Machine.execProfileRead tag name first count s
  | .profileDelete tag name => Sys2Proof.Machine.execProfileDelete tag name s
  | .profileDeleteAll tag => Sys2Proof.Machine.execProfileDeleteAll tag s
  | .play tag name => Sys2Proof.Machine.execPlay tag name s
  | .stopPlay tag => Sys2Proof.Machine.execStopPlay tag s
  | .sourceSet tag source => Sys2Proof.Machine.execSourceSet tag source s
  | .patternSet tag low high period shape => Sys2Proof.Machine.execPatternSet tag low high period shape s
  | .enable tag => Sys2Proof.Machine.execEnable tag s
  | .disable tag => Sys2Proof.Machine.execDisable tag s
  | .resume tag => Sys2Proof.Machine.execResume tag s
  | .restart tag => Sys2Proof.Machine.execRestart tag s
  | .mapSet tag slot port => Sys2Proof.Machine.execMapSet tag slot port s
  | .expectSet tag slot number => Sys2Proof.Machine.execExpectSet tag slot number s
  | .rotationSet tag slots => Sys2Proof.Machine.execRotationSet tag slots s
  | .rotate tag => Sys2Proof.Machine.execRotate tag s
  | .clearUnit tag slot => Sys2Proof.Machine.execClearUnit tag slot s
  | .releaseResources tag slot => Sys2Proof.Machine.execReleaseResources tag slot s
  | .lineSet tag line selection polarity => Sys2Proof.Machine.execLineSet tag line selection polarity s
  | .statusReq tag => Sys2Proof.Machine.execStatusReq tag s
  | .unitReq tag slot => Sys2Proof.Machine.execUnitReq tag slot s
  | .tableRead tag position row => Sys2Proof.Machine.execTableRead tag position row s
  | .eventRead tag => Sys2Proof.Machine.execEventRead tag s
  | .profileCatalog tag start => Sys2Proof.Machine.execProfileCatalog tag start s
  | .ident p number => Sys2Proof.Machine.execIdent p number s
  | .status p mode power remote available converter cause => Sys2Proof.Machine.execStatus p mode power remote available converter cause s
  | .orderAck p tag result cause => Sys2Proof.Machine.execOrderAck p tag result cause s
  | .markerInputEdge rising => Sys2Proof.Machine.execMarkerInputEdge rising s
  | .dispatchLivenessExpiry => Sys2Proof.Machine.execDispatchLivenessExpiry s
  | .levelTimerExpiry => Sys2Proof.Machine.execLevelTimerExpiry s
  | .dwellTimerExpiry => Sys2Proof.Machine.execDwellTimerExpiry s
  | .backoffExpiry u => Sys2Proof.Machine.execBackoffExpiry u s
  | .leadTimerExpiry u => Sys2Proof.Machine.execLeadTimerExpiry u s
  | .ackTimerExpiry u => Sys2Proof.Machine.execAckTimerExpiry u s
  | .stepTimerExpiry u => Sys2Proof.Machine.execStepTimerExpiry u s
  | .settleTimerExpiry w => Sys2Proof.Machine.execSettleTimerExpiry w s
  | .warningPhaseEnd w => Sys2Proof.Machine.execWarningPhaseEnd w s
  | .probeTimerExpiry p => Sys2Proof.Machine.execProbeTimerExpiry p s
  | .statusLivenessExpiry p => Sys2Proof.Machine.execStatusLivenessExpiry p s
  | .intervalTimerBoundary => Sys2Proof.Machine.execIntervalTimerBoundary s
  | .planSwitchingTime => Sys2Proof.Machine.execPlanSwitchingTime s
  | .rampSwitchingTime => Sys2Proof.Machine.execRampSwitchingTime s
  | .holdoverBoundary => Sys2Proof.Machine.execHoldoverBoundary s
  | .patternPeriodExpiry => Sys2Proof.Machine.execPatternPeriodExpiry s
  | .markerPulseEnd => Sys2Proof.Machine.execMarkerPulseEnd s
  | .unitLinkFrameDiscarded p => Sys2Proof.Machine.execUnitLinkFrameDiscarded p s

end Sys2Proof.Machine
end

