-- ==== Sys2Proof/Safety.lean ====
section
/-! DEFINITION. The terms in which statements are made: what a command leaves alone (frames), the posting of events as a
relation, and what the spec says of every state (the invariants of chapters 1 to 11). -/

namespace Sys2Proof.Machine

/-! ## Frames -/

/-- `b` is `a` after the posting of events at the part clock `now`, and nothing else (R175). -/
inductive Posted (now : Word) (a : Ste) : Ste → Prop where
  | refl : Posted now a a
  | post {b : Ste} (h : Posted now a b) (kind : EventKind) (slot : Option Slot) (value : Option Int) :
      Posted now a
        { b with
          events := (if 64 ≤ b.events.length then b.events.tail else b.events)
            ++ [{ seq := b.seq, time := now, kind := kind, slot := slot, value := value }]
          seq := b.seq + 1
          eventsLost := b.eventsLost || decide (64 ≤ b.events.length) }

/-- A unit record but for its last setpoint sent. -/
def UnitRec.core (r : UnitRec) : UnitRec := { r with lastSetpoint := none }

/-- The roster is the same but for the last setpoints sent. -/
def SameUnits (s t : State) : Prop :=
  t.ros.rotation = s.ros.rotation ∧ ∀ u, (t.unitRec u).core = (s.unitRec u).core

/-- A port record but for its orders and frames: the tag counter, the outstanding order, the frame being sent, the queue. -/
def PortRec.core (r : PortRec) : PortRec := { r with tagCounter := 0, outstanding := none, sending := none, queue := [] }

/-- Every port's state, timers, last machine number, ack mode and framer are the same. -/
def SamePorts (s t : State) : Prop := ∀ p, (t.portRec p).core = (s.portRec p).core

/-- The waterway table in force is the same: its settings, and the waterway of each slot. -/
def SameWaterways (s t : State) : Prop :=
  (∀ w, (t.waterwayRec w).map (·.row) = (s.waterwayRec w).map (·.row)) ∧ ∀ u, t.waterwayOf u = s.waterwayOf u

/-- What the handing of a target can change: targets, playback record, row selection, desired modes, requests, orders, allocation
and events. All else stays. -/
structure PlayFrame (s t : State) : Prop where
  pending : t.pending = s.pending
  pli : t.pli = s.pli
  head : t.head = s.head
  dir : t.prf.dir = s.prf.dir
  divider : t.prf.divider = s.prf.divider
  pulse : t.prf.pulse = s.prf.pulse
  plantOut : t.plantOut = s.plantOut
  table : t.pln.table = s.pln.table
  units : SameUnits s t
  ports : SamePorts s t
  waterways : SameWaterways s t
  posted : Posted s.clock s.ste t.ste

/-- As `PlayFrame`, with playback untouched: what a new target can change. -/
structure TargetFrame (s t : State) : Prop extends PlayFrame s t where
  playback : t.prf.playback = s.prf.playback

/-- As `TargetFrame`, with the targets untouched: what row selection can change. -/
structure SelectFrame (s t : State) : Prop extends TargetFrame s t where
  tgt : t.tgt = s.tgt

/-- As `SelectFrame`, with the row selection untouched: what the cascade of a command can change (desired modes and
PLAN_SHORT, requests and resources, orders and setpoints, the allocation, and events). -/
structure CascadeFrame (s t : State) : Prop extends SelectFrame s t where
  selected : t.pln.selected = s.pln.selected
  proposal : t.pln.proposal = s.pln.proposal
  gap : t.pln.gap = s.pln.gap

/-- As `CascadeFrame`, with the head and the settled setpoints of the holds apart: what a change of the levels, of head_loss or
of the head in use can change (R33, R34, R37). -/
structure HeadFrame (s t : State) : Prop where
  pending : t.pending = s.pending
  pli : t.pli = s.pli
  tgt : t.tgt = s.tgt
  prf : t.prf = s.prf
  plantOut : t.plantOut = s.plantOut
  table : t.pln.table = s.pln.table
  selected : t.pln.selected = s.pln.selected
  proposal : t.pln.proposal = s.pln.proposal
  gap : t.pln.gap = s.pln.gap
  rotation : t.ros.rotation = s.ros.rotation
  ports : SamePorts s t
  waterways : SameWaterways s t
  posted : Posted s.clock s.ste t.ste

/-- A request has been taken and answered with one REPLY, and nothing else has changed (R157, R181). -/
def State.replied (s : State) (tag cls kind : Byte) (code : Code) (detail : Nat := 0) (body : List Byte := []) : State :=
  { s with
    pli := { s.pli with framer := none }
    plantOut := s.plantOut ++ [.reply tag cls kind code (BitVec.ofNat 16 detail) body] }

/-- `t` is `s` after the commands, carried out one after another (R155). -/
inductive Carried : List Instr → State → State → Prop where
  | nil (s : State) : Carried [] s s
  | cons {c : Instr} {rest : List Instr} {s m t : State} (h : exec c s = .next m) (g : Carried rest m t) : Carried (c :: rest) s t

/-- A body has these bytes at these offsets (R183, section 11.5). -/
def LaidOut (body : List Byte) (fields : List (Nat × List Byte)) : Prop :=
  ∀ f ∈ fields, (body.drop f.1).take f.2.length = f.2

/-! ## Dispatch frames and the part state -/

/-- The frame is a dispatch frame that its owner's rule does not discard (R13, R15, R16, R156). -/
def validDispatch (c : Instr) (s : State) : Bool :=
  match c with
  | .base .. | .reg _ | .levels .. => true
  | .unitHold slot mode _ =>
    (slotOfCode slot).any (fun u => !(s.unitRec u).hold.any (·.emergency)) && (stableOfCode mode).isSome
  | .unitRelease slot => (slotOfCode slot).isSome
  | .emergencyStop slot => slot == 0 || (slotOfCode slot).isSome
  | _ => false

/-- The part state after a valid dispatch frame (R163). -/
def State.partHeard (s : State) : PartState :=
  match s.pli.part with
  | .fallback _ => if s.params.autoResume then .dispatching else .fallback .awaitResume
  | p => p

/-- The part returns from FALLBACK to DISPATCHING on a valid dispatch frame (R163). -/
def State.returns (s : State) : Bool := s.inFallback && s.params.autoResume

/-- The state with the PLI's record as a valid dispatch frame leaves it, and FALLBACK_LEFT posted on a return (R156, R161, R163). -/
def State.heard (s : State) : State :=
  let t := s.setPli { s.pli with
    framer := none, liveness := some (later s.clock s.params.linkTimeout), linkSilent := false, part := s.partHeard }
  if s.returns then t.post .fallbackLeft none (some 1) else t

/-- The targets with a requested base target written, `jumps` saying that the ramped target takes it at once (R110, R116). -/
def Tgt.withBase (t : Tgt) (v : Int) (jumps : Bool) : Tgt :=
  { t with
    reqBase := clampPlant v
    ramped := if jumps = true ∧ clampPlant v ≠ t.reqBase then clampPlant v else t.ramped
    plan := if t.source = .profile then t.plan else clampPlant v }

/-- With ramp_rate 0 the ramped target jumps while the part governs (R116). -/
def State.jumps (s : State) : Bool := s.params.rampRate == 0 && s.governs

/-- `m` is `s` after a valid dispatch frame has been heard, before its owner takes it (R156): on a return from FALLBACK in PATTERN
the generator's current level is handed (R119), and otherwise no target moves. -/
structure Heard (s m : State) : Prop where
  frame : TargetFrame s.heard m
  stays : s.returns = false ∨ s.tgt.source ≠ .pattern ∨ s.tgt.run = none → m = s.heard
  handed : ∀ r, s.returns = true → s.tgt.source = .pattern → s.tgt.run = some r →
    m.tgt = s.tgt.withBase (s.tgt.pattern.level r.pos) (s.params.rampRate == 0)

/-- The four conditions of ENABLE (R160). -/
def State.ready (s : State) : Bool :=
  s.headInUse.isSome && s.pln.table.isSome && s.trs.waterways.isSome
    && Slot.all.all (fun u => (s.unitRec u).port.isNone || (s.head.caps.get u).isSome)

/-- The part state that a command leaves (R159). -/
def State.partAfter (s : State) (c : Instr) : PartState :=
  match c with
  | .powerOn | .restart _ | .resetInput | .disable _ => .standby
  | .enable _ => if s.pli.part = .standby ∧ s.ready = true then .dispatching else s.pli.part
  | .resume _ => if s.pli.part = .fallback .awaitResume then .dispatching else s.pli.part
  | .dispatchLivenessExpiry =>
    if timerDue s.clock s.pli.liveness = true ∧ s.pli.part ≠ .standby then .fallback .linkDown else s.pli.part
  | c => if validDispatch c s then s.partHeard else s.pli.part

/-- The dispatch-liveness timer and LINK_SILENT that a command leaves (R161, R165). -/
def State.livenessAfter (s : State) (c : Instr) : Option Word × Bool :=
  match c with
  | .powerOn | .restart _ | .resetInput => (none, false)
  | .enable _ =>
    if s.pli.part = .standby ∧ s.ready = true then (some (later s.clock s.params.linkTimeout), false)
    else (s.pli.liveness, s.pli.linkSilent)
  | .dispatchLivenessExpiry =>
    if timerDue s.clock s.pli.liveness = true then (none, true) else (s.pli.liveness, s.pli.linkSilent)
  | c =>
    if validDispatch c s then (some (later s.clock s.params.linkTimeout), false) else (s.pli.liveness, s.pli.linkSilent)

/-! ## Starting afresh -/

/-- A port after RESTART (R143, R145, R181): a mapped port probes at once, and a frame being sent goes on. -/
def PortRec.startedFrom (r : PortRec) (mapped : Bool) (now : Word) : PortRec :=
  { state := if mapped then .probing else .unused
    probe := if mapped then some (later now 2) else none
    liveness := none
    lastMachine := none
    tagCounter := r.tagCounter
    outstanding := none
    sending := if mapped && r.sending.isNone then some .probe else r.sending
    queue := if mapped && r.sending.isSome then [.probe] else []
    ackMode := r.ackMode
    framer := none }

/-- A waterway record after RESTART (R84): the settle timer at its full settle time. -/
def WaterwayRec.startedFrom (r : WaterwayRec) (now : Word) : WaterwayRec :=
  { row := r.row, inProgress := 0, settle := if r.row.settle = 0 then none else some (later now r.row.settle), warned := [],
    generator := none }

/-- `t` is the state a restart leaves from `s` (R165 and the tables of the chapters), but for the PLI's framer and the replies. -/
structure RestartedFrom (s t : State) (value : Int) : Prop where
  pending : t.pending = s.pending
  clock : t.clock = s.clock
  part : t.pli.part = .standby
  liveness : t.pli.liveness = none
  linkSilent : t.pli.linkSilent = false
  load : t.pli.load = none
  params : t.params = s.params
  rotation : t.ros.rotation = s.ros.rotation
  units : ∀ u, t.unitRec u =
    { port := (s.unitRec u).port, expected := (s.unitRec u).expected, report := none, hold := none, trip := false,
      fault := false, backoff := none, lastSetpoint := none }
  ports : ∀ p, t.portRec p = (s.portRec p).startedFrom (s.slotOf p).isSome s.clock
  head : t.head =
    { caps := s.head.caps, levels := none, estimate := none, levelTimer := none, stale := false, clamped := false }
  source : t.tgt.source = s.tgt.source
  pattern : t.tgt.pattern = s.tgt.pattern
  base : t.tgt.reqBase = if s.tgt.source = .pattern then clampPlant s.tgt.pattern.low else 0
  plan : t.tgt.plan = t.tgt.reqBase
  ramped : t.tgt.ramped = 0
  increment : t.tgt.increment = 0
  clamped : t.tgt.clamped = false
  run : t.tgt.run =
    if s.tgt.source = .pattern then some { pos := 0, expiry := later s.clock s.tgt.pattern.period } else none
  prf : t.prf = { dir := s.prf.dir, playback := .idle, divider := 0, pulse := none }
  pln : t.pln = .cleared s.pln.table
  requests : ∀ u, t.req u = none
  orphans : ∀ u, t.orphan u = none
  entryCounter : t.trs.entryCounter = 0
  converters : ∀ c, t.holder c = none
  waterwayOf : ∀ u, t.waterwayOf u = s.waterwayOf u
  waterways : ∀ w, t.waterwayRec w = (s.waterwayRec w).map (fun r => r.startedFrom s.clock)
  alc : t.alc = .cleared
  ste : t.ste =
    { events := [{ seq := 0, time := s.clock, kind := .restarted, slot := none, value := some value }], seq := 1,
      eventsLost := false, m1 := s.ste.m1, m2 := s.ste.m2 }
  unitOut : t.unitOut = s.unitOut
    ++ (Port.all.filter (fun p => (s.slotOf p).isSome && (s.portRec p).sending.isNone)).map (fun p => (p, .probe))

/-! ## Ports -/

/-- A port to which a PROBE is handed, its probe timer started (R145, R141). -/
def PortRec.probed (r : PortRec) (now : Word) : PortRec :=
  { r with
    probe := some (later now 2)
    sending := some (r.sending.getD .probe)
    queue := if r.sending.isNone then r.queue else enqueue .probe r.queue }

/-- A port record after the port has left QUALIFIED (R141, R149). -/
def PortRec.left (r : PortRec) (st : PortState) : PortRec :=
  { r with state := st, liveness := none, outstanding := none, queue := r.queue.filter (fun f => f == .probe) }

/-- The slot of a port that has left QUALIFIED (R4). -/
def UnitRec.left (r : UnitRec) : UnitRec :=
  { r with lastSetpoint := none, hold := r.hold.map (fun h => { h with stopOutstanding := false }) }

/-- The request of a slot whose port has left QUALIFIED (R79): a waiting one stays, a warned one waits again, one under order is gone. -/
def Request.left (r : Request) : Option Request :=
  match r.state with
  | .waiting => some r
  | .warning => some ({ r with conv := none, slotHeld := false }.toWaiting r.dest r.path r.index)
  | _ => none

/-- The orphan record that a request under order leaves when its slot's port leaves QUALIFIED (R79). -/
def Request.orphaned (r : Request) : Orphan := { conv := r.conv, slotHeld := r.slotHeld, place := true }

/-- The request that a slot without one gets by its demand (R62): MANUAL toward its hold's mode, or AUTOMATIC toward the desired mode
given, while the part governs and that is not the known mode. -/
def State.renewed (s : State) (u : Slot) (entry : Word) (desired : Option Stable := none) : Option Request :=
  match s.known u, (s.unitRec u).hold, desired with
  | some k, some h, _ =>
    if h.emergency = false ∧ s.pli.part ≠ .standby ∧ k ≠ h.mode then some (.new .manual h.mode (pathOf k h.mode) entry) else none
  | some k, none, some d =>
    if s.pli.part ≠ .standby ∧ k ≠ d then some (.new .automatic d (pathOf k d) entry) else none
  | _, _, _ => none

/-- What a request is for: its class, destination, path with the index, and entry number, without how far its step has come. -/
def Request.aim (r : Request) : Request := { Request.new r.cls r.dest r.path r.entry with index := r.index }

/-- What the departure of a port from QUALIFIED leaves of slot `u` and its port `p`, whose record was `gone` when it left, once the part
has done all that follows (R4, R62, R63, R79, R145, R149): a PROBE is handed; a request under order has ended and left an orphan record and
its converter orphaned; one in WAITING or WARNING is kept by an ordinary hold alone, and has lost its grant. -/
structure PortGone (s t : State) (p : Port) (u : Slot) (gone : PortRec) : Prop where
  port : t.portRec p = gone.probed s.clock
  unit : t.unitRec u = (s.unitRec u).left
  ended : (s.req u).bind Request.left = none → ∃ entry, t.req u = s.renewed u entry
  dropped : ∀ q, (s.req u).bind Request.left = some q →
    (∀ h, (s.unitRec u).hold = some h → h.emergency = true) → t.req u = none
  kept : ∀ q h, (s.req u).bind Request.left = some q → (s.unitRec u).hold = some h → h.emergency = false → h.mode = q.dest →
    ∃ why, t.req u = some { q with cls := .manual, blocked := why }
  orphan : t.orphan u = if s.underOrder u then (s.req u).map Request.orphaned else s.orphan u
  converter : ∀ r c, s.req u = some r → r.ordered = true → r.conv = some c → (∀ v q, v ≠ u → s.req v = some q → q.conv ≠ some c) →
    t.holder c = some { slot := u, kind := .orphaned }
  warned : ∀ r w q, s.req u = some r → r.granted = true → t.waterwayRec w = some q → u ∉ q.warned

/-! ## The interval clock -/

/-- The entry that follows entry `k` (R128). -/
def Profile.follows (p : Profile) (k : Nat) : Option Nat :=
  if k + 1 < p.entries.length then some (k + 1) else if p.rep = true then some 0 else none

/-- `m` is `s` after a boundary at which entry `k` of `p` begins, before its event (R131, R132): the kinds of its value not handed
before are handed, then those of the next entry whose advance reaches the whole interval, each ramp value jumping where R116 says so. -/
structure EntryBegins (s m : State) (p : Profile) (k : Nat) : Prop where
  frame : PlayFrame s m
  playback : m.prf.playback = { s.prf.playback with
    state := .playing, current := some k, last := some s.clock, next := some (later s.clock (60 * p.minutes))
    planHanded := decide (60 * p.minutes ≤ s.params.planAdvance) && (p.follows k).isSome
    rampHanded := decide (60 * p.minutes ≤ s.params.rampAdvance) && (p.follows k).isSome }
  other : s.tgt.source ≠ .profile → m.tgt = s.tgt
  tgt : s.tgt.source = .profile →
    let plan : Tgt := if s.prf.playback.planHanded then s.tgt else { s.tgt with plan := p.entries.getD k 0 }
    let begun : Tgt := if s.prf.playback.rampHanded then plan else plan.withBase (p.entries.getD k 0) s.jumps
    m.tgt = match p.follows k with
      | none => begun
      | some j =>
        let next : Tgt := if 60 * p.minutes ≤ s.params.planAdvance then { begun with plan := p.entries.getD j 0 } else begun
        if 60 * p.minutes ≤ s.params.rampAdvance then next.withBase (p.entries.getD j 0) s.jumps else next

/-- Playback after the boundary that ends a profile (R132). -/
def Playback.finished (b : Playback) : Playback := { b with state := .ended, last := none, next := none, markerLost := false }

/-- `m` is `s` after a boundary of `p` (R132): the next entry begins, with PROFILE_STARTED where the boundary ends ALIGNED, or
the profile ends where no entry follows. -/
structure Bounded (s m : State) (p : Profile) : Prop where
  begins : ∀ k, s.prf.playback.nextEntry p = some k → ∃ e, EntryBegins s e p k
    ∧ m = if s.prf.playback.state = .aligned then e.post .profileStarted none (some p.entries.length) else e
  ends : s.prf.playback.nextEntry p = none → s.prf.playback.state = .playing →
    m = ({ s with prf := { s.prf with playback := s.prf.playback.finished } }).post .profileEnded none (some p.entries.length)

/-! ## Roster, ports and events -/

/-- R19, R1, R2: the rotation order holds each slot once, no two slots share a port, and an expected number is 1 … 255. -/
structure RosterWf (s : State) : Prop where
  rotation : s.ros.rotation.Perm Slot.all
  map : ∀ u v, (s.unitRec u).port.isSome = true → (s.unitRec u).port = (s.unitRec v).port → u = v
  expected : ∀ u, (s.unitRec u).expected ≠ 0

/-- R143 to R145, R149, R150, R141: a port is UNUSED exactly while unmapped; the probe timer runs exactly in a probing state,
and the status-liveness timer exactly in QUALIFIED; an order is outstanding on a QUALIFIED port alone; the queue holds at most
one frame of each kind, only a PROBE outside QUALIFIED, and none while no frame is being sent. -/
structure PortWf (s : State) (p : Port) : Prop where
  unused : (s.portRec p).state = .unused ↔ s.slotOf p = none
  probe : (s.portRec p).probe.isSome = (s.portRec p).state.isProbing
  liveness : (s.portRec p).liveness.isSome = decide ((s.portRec p).state = .qualified)
  outstanding : (s.portRec p).outstanding.isSome = true → (s.portRec p).state = .qualified
  kinds : (s.portRec p).queue.Pairwise (fun f g => f.sameKind g = false)
  probes : (s.portRec p).state ≠ .qualified → ∀ f ∈ (s.portRec p).queue, f = .probe
  idle : (s.portRec p).sending = none → (s.portRec p).queue = []

/-- Every port record is well-formed, and a granted step's port is QUALIFIED (R79). -/
structure PortsWf (s : State) : Prop where
  ports : ∀ p, PortWf s p
  granted : ∀ u r, s.req u = some r → r.granted = true → s.portState u = .qualified

/-- R175: at most 64 records, oldest first in consecutive sequence numbers, the last one before the counter. -/
def EventsWf (s : State) : Prop :=
  s.ste.events.length ≤ 64
    ∧ ∀ (i : Nat) (h : i < s.ste.events.length),
        (s.ste.events[i]).seq = s.ste.seq - BitVec.ofNat 16 (s.ste.events.length - i)

/-! ## Targets and configuration -/

/-- A plant target within −3200.0 … +3200.0 MW. -/
def InPlant (v : Int) : Prop := -32000 ≤ v ∧ v ≤ 32000

/-- R109, R110, R113, R121, R123: the targets, the pattern's levels and every profile entry lie in the plant range, and the increment
within reg_limit; outside PROFILE the planning target is the requested base target; in PATTERN the increment is 0. -/
structure TargetsWf (s : State) : Prop where
  base : InPlant s.tgt.reqBase
  plan : InPlant s.tgt.plan
  ramped : InPlant s.tgt.ramped
  low : InPlant s.tgt.pattern.low
  high : InPlant s.tgt.pattern.high
  entries : ∀ p ∈ s.prf.dir, ∀ v ∈ p.entries, InPlant v
  increment : -(s.params.regLimit : Int) ≤ s.tgt.increment ∧ s.tgt.increment ≤ s.params.regLimit
  follows : s.tgt.source ≠ .profile → s.tgt.plan = s.tgt.reqBase
  pattern : s.tgt.source = .pattern → s.tgt.increment = 0

/-- 0 or a long-timer value. -/
def ZeroOrLong (n : Nat) : Prop := n = 0 ∨ isLongTimer n = true

/-- R170: every parameter within its values. -/
structure ParamsWf (c : Params) : Prop where
  rampRate : c.rampRate ≤ 2000
  regLimit : c.regLimit ≤ 5000
  deadband : c.deadband ≤ 50
  dwell : ZeroOrLong c.dwell
  planAdvance : c.planAdvance ≤ 1800
  rampAdvance : c.rampAdvance ≤ 900
  linkTimeout : 1 ≤ c.linkTimeout ∧ c.linkTimeout ≤ 60
  levelTimeout : isLongTimer c.levelTimeout = true
  unitTimeout : 1 ≤ c.unitTimeout ∧ c.unitTimeout ≤ 10
  ackTimeout : 1 ≤ c.ackTimeout ∧ c.ackTimeout ≤ 15
  refusalBackoff : ZeroOrLong c.refusalBackoff
  headLoss : c.headLoss ≤ 500
  headOverride : c.headOverride ≤ 10000
  converters : c.converters ≤ 2
  maxConcurrent : 1 ≤ c.maxConcurrent ∧ c.maxConcurrent ≤ 8
  markerDivider : 1 ≤ c.markerDivider ∧ c.markerDivider ≤ 60
  markerOutWidth : 1 ≤ c.markerOutWidth ∧ c.markerOutWidth ≤ 25

/-! ## Profiles -/

/-- R123: at most 16 profiles, no two of one name, their entries within the pool, each of 1 entry or more and of an interval of
1 … 60 min. -/
structure StoreWf (s : State) : Prop where
  count : s.prf.dir.length ≤ 16
  names : (s.prf.dir.map (·.name)).Nodup
  pool : s.entriesHeld ≤ 4096
  entries : ∀ p ∈ s.prf.dir, 1 ≤ p.entries.length
  minutes : ∀ p ∈ s.prf.dir, 1 ≤ p.minutes ∧ p.minutes ≤ 60

/-- R128: the profile is absent exactly in IDLE and defined otherwise; the current entry is present in PLAYING and ENDED and is an
entry of it; the two boundary times are present in ALIGNED and PLAYING. -/
structure PlaybackWf (s : State) : Prop where
  profile : s.prf.playback.profile = none ↔ s.prf.playback.state = .idle
  defined : s.prf.playback.state ≠ .idle → s.playing.isSome = true
  current : s.prf.playback.current.isSome = true ↔ s.prf.playback.state = .playing ∨ s.prf.playback.state = .ended
  entry : ∀ p k, s.playing = some p → s.prf.playback.current = some k → k < p.entries.length
  last : s.prf.playback.last.isSome = s.prf.playback.state.clocked
  next : s.prf.playback.next.isSome = s.prf.playback.state.clocked

/-! ## Tables -/

/-- R25: 2 … 6 breakpoints as the header counts them, each sound, the heads strictly rising. -/
structure CapTable.Wf (t : CapTable) : Prop where
  count : t.header.count = t.points.length
  least : 2 ≤ t.points.length
  most : t.points.length ≤ 6
  sound : ∀ b ∈ t.points, b.sound = true
  rising : t.points.Pairwise (fun a b => a.head < b.head)

/-- A stored row has the form of its position at its index (R168, section 11.4). -/
def TablePos.fits (p : TablePos) (i : Nat) (r : Row) : Bool :=
  match p, r with
  | .cap _, .capHeader _ => i == 0
  | .cap _, .breakpoint _ => i != 0
  | .plan, .plan _ => true
  | .waterway, .waterway _ => i != 4
  | .waterway, .places ns => i == 4 && ns.length == 8
  | _, _ => false

/-- R167, R168: a row count of the position, and rows of its forms under rising indices below that count. -/
structure Load.Wf (l : Load) : Prop where
  count : l.pos.takesRows l.count = true
  rising : l.rows.Pairwise (fun a b => a.1 < b.1)
  below : ∀ x ∈ l.rows, x.1 < l.count
  form : ∀ x ∈ l.rows, l.pos.fits x.1 x.2 = true

/-- R25, R40, R86, R168: every table in force has passed its checks, and an open load is well-formed. -/
structure TablesWf (s : State) : Prop where
  caps : ∀ u t, s.head.caps.get u = some t → t.Wf
  plan : ∀ rows, s.pln.table = some rows → 1 ≤ rows.length ∧ rows.length ≤ 24 ∧ ∀ r ∈ rows, r.sound = true
  waterways : ∀ w r, s.waterwayRec w = some r → r.row.sound = true
  load : ∀ l, s.pli.load = some l → l.Wf

/-- R87: no waterway has more flow-changing steps in progress than its slot count. -/
def WaterwaysWf (s : State) : Prop := ∀ w r, s.waterwayRec w = some r → r.inProgress ≤ r.row.slots

/-! ## The planner and the scheduler -/

/-- How many slots have the desired mode. -/
def State.desiring (s : State) (m : Stable) : Nat := (Slot.all.filter (fun u => s.pln.desired.get u == some m)).length

/-- R42, R43, R47, R51, R53, R57 to R59: in STANDBY the planner is as after RESTART; the selected and the proposed row are rows of the table in
force; a desired mode is an automatic slot's; and while a row is selected every automatic slot has one, and each mode's count, with
its shortfall, is the row's. -/
structure PlanWf (s : State) : Prop where
  standby : s.pli.part = .standby → s.pln = .cleared s.pln.table
  selected : s.pln.selected.isSome = true → s.selectedRow.isSome = true
  proposed : ∀ p rows, s.pln.proposal = some p → s.pln.table = some rows → s.pln.selected.isSome = true ∧ p.row < rows.length
  automatic : ∀ u d, s.pln.desired.get u = some d → s.automatic u = true
  given : s.pln.selected.isSome = true → ∀ u, s.automatic u = true → (s.pln.desired.get u).isSome = true
  counts : ∀ row, s.selectedRow = some row →
    s.desiring .pmp + s.pln.shortPmp = row.nPmp ∧ s.desiring .gen + s.pln.shortGen = row.nGen
      ∧ s.desiring .cnd + s.pln.shortCnd = row.nCnd
  short : s.pln.short = true ↔ s.pln.shortPmp + s.pln.shortGen + s.pln.shortCnd ≠ 0

/-- R79: every orphan record holds a concurrency place. -/
def OrphansWf (s : State) : Prop := ∀ u o, s.orphan u = some o → o.place = true

/-- R66, R67: while the part governs, no waiting request passes the test of its next step. A step that the mixing condition of its waterway
can hold back is left out: R66 names no event at which that condition alone goes. -/
def GrantsWf (s : State) : Prop :=
  s.pli.part ≠ .standby → ∀ u r st w q, s.req u = some r → r.state = .waiting → r.current = some st →
    s.waterwayOf u = some w → s.waterwayRec w = some q → (st.kind = .gStart ∨ st.kind = .prime → q.row.mixing = 1) →
    ¬ (s.dispatchable u = true ∧ s.orphan u = none ∧ s.reported u = some (.stable st.origin)
        ∧ (st.kind = .pStart → ∃ c, convNumber c ≤ s.params.converters ∧ s.holder c = none)
        ∧ (st.flowChanging = true → q.inProgress < q.row.slots ∧ q.settle = none)
        ∧ s.plantCount < s.params.maxConcurrent)

/-! ## Capability and allocation -/

/-- R14: every hold's settled setpoint is its settlement against the slot's record as it stands. -/
def SettledWf (s : State) : Prop := ∀ u h, (s.unitRec u).hold = some h → h.settled = h.settledAgainst (s.record u)

/-- R29: gen_min ≤ rz_lo ≤ rz_hi ≤ gen_max, the edges apart where there is a zone, and gen_min < gen_max. -/
def CapRecord.Wf (c : CapRecord) : Prop :=
  c.genMin < c.genMax ∧ ∀ z, c.zone = some z → c.genMin ≤ z.1 ∧ z.1 < z.2 ∧ z.2 ≤ c.genMax

/-- A regulating unit with limits and a zone as R29 has them. -/
def RegUnit.Wf (q : RegUnit) : Prop :=
  q.least < q.most ∧ ∀ z, q.zone = some z → q.least ≤ z.1 ∧ z.1 < z.2 ∧ z.2 ≤ q.most

/-- The share lies within the limits and not strictly inside the zone (R104). -/
def RegUnit.Lawful (q : RegUnit) : Prop :=
  q.least ≤ q.share ∧ q.share ≤ q.most ∧ ∀ z, q.zone = some z → ¬ (z.1 < q.share ∧ q.share < z.2)

/-- R91, R103: while the part governs, what the last allocation recorded is what an allocation would give now, for the rotation order of
that time, and no slot that it gave a value to be sent has a last setpoint from which that value is to be sent, for the deadband of
that time, which is at most 5.0 MW (R170): so no such slot's value lies 5.0 MW or more from its last setpoint. -/
def AllocationWf (s : State) : Prop :=
  s.pli.part ≠ .standby → ∃ (order : List Slot) (deadband : Nat), order.Perm Slot.all ∧ deadband ≤ 50
    ∧ s.alc = ({ s with ros := { s.ros with rotation := order } } : State).allocated
    ∧ ∀ a u, s.alc.last = some a → (s.unitRec u).port.isSome = true →
        (a.shares.get u).line = .regulating ∨ (a.shares.get u).line = .genHeld →
        emits (s.limits u) deadband ((s.unitRec u).lastSetpoint.map (·.value)) (a.shares.get u).value = false

/-- The sum of the contributions of all slots (R101). -/
def Allocation.total (a : Allocation) : Int := (Slot.all.map (fun u => (a.shares.get u).value)).sum

end Sys2Proof.Machine
end

