-- ==== Sys2Proof/Certificates/Slice0/Obligations.lean ====
section
/-! DEFINITION. The statements for the provers: the queue of commands, the frames, the rules of the whole part, the invariants that
every step keeps, the laws of allocation, interpolation, row selection and the transition queue, and each command's effect. -/

open Sys2Proof Sys2Proof.Machine

/-! ## Steps and frames -/

/-- A step is `exec` of the command at the front of the queue, on the state with the queue's rest.
The model's choices in it: notes/assumptions/1.md. -/
def Obligations.StepTakesTheFront : Prop :=
  (∀ (c : Instr) (rest : List Instr) (s : State), s.pending = c :: rest → step s = exec c { s with pending := rest })
    ∧ ∀ s : State, s.pending = [] → step s = .next s

/-- Every command is answered with a next state, and leaves the queue of waiting commands alone.
The model's choices in it: notes/assumptions/1.md. -/
def Obligations.EveryCommandCompletes : Prop :=
  ∀ (c : Instr) (s : State), ∃ t, exec c s = .next t ∧ t.pending = s.pending

/-- The check value of the CRC, and frames whose words are written from sections 11.1 to 11.3 (R181 to R183).
The model's choices in it: notes/assumptions/17.md. -/
def Obligations.FramesSpellCommands : Prop :=
  crc16 [0x31, 0x32, 0x33, 0x34, 0x35, 0x36, 0x37, 0x38, 0x39] = 0x29B1
    ∧ decodeFrame .plant (frameOf [4, 1, 1, 7, 0x10, 0x18, 0x00, 0x96]) = some (.base 4120 (some 150))
    ∧ decodeFrame .plant (frameOf [2, 1, 2, 0, 0xFA, 0x88]) = some (.reg (BitVec.ofInt 16 (-1400)))
    ∧ decodeFrame .plant (frameOf [0, 2, 23, 9]) = some (.rotate 9)
    ∧ decodeFrame .plant (frameOf [2, 3, 3, 5, 9, 4]) = some (.tableRead 5 9 4)
    ∧ decodeFrame .plant (frameOf [1, 2, 99, 5, 0]) = some (.unknownFrame 2 99 5)
    ∧ decodeFrame (.unit .c) (frameOf [1, 4, 7]) = some (.ident .c 7)
    ∧ decodeFrame (.unit .c) (frameOf [7, 5, 2, 0x03, 0x84, 1, 1, 0, 0]) = some (.status .c 2 900 1 1 0 0)
    ∧ decodeFrame (.unit .h) (frameOf [3, 6, 200, 2, 17]) = some (.orderAck .h 200 2 17)
    ∧ decodeFrame (.unit .h) (frameOf [0, 1]) = some (.unitLinkFrameDiscarded .h)
    ∧ decodeFrame .plant [0xA5, 0, 2, 23, 9, 0, 0] = some (.frameDiscarded .plant [0xA5, 0, 2, 23, 9, 0, 0])

/-- Decoding the frame of a command gives the command back, with every operand at every value its field can carry.
The model's choices in it: notes/assumptions/18.md, 26.md. -/
def Obligations.DecodeOfEncode : Prop :=
  ∀ (c : Instr) (l : Link) (bytes : List Byte), c.wellFormed = true → encode c = some (l, bytes) → decodeFrame l bytes = some c

/-! ## Rules of the whole part -/

/-- R155 to R157, R171: a MANAGE or QUERY frame gets one REPLY with its tag, class and kind, a DISPATCH frame none, a frame of
unknown kind UNKNOWN unless it is of class DISPATCH, each advance of the part clock sends one plant status, and a discarded frame what
the frames found in it get; nothing else goes up the plant link.
The model's choices in it: notes/assumptions/17.md, 21.md. -/
def Obligations.PlantLinkReplies : Prop :=
  ∀ (c : Instr) (s : State), ∃ t, exec c s = .next t ∧
    match c with
    | .partClockAdvance => t.plantOut = s.plantOut ++ [.plantStatus t.statusBody]
    | .unknownFrame cls kind tag =>
      t.plantOut = s.plantOut ++ (if cls = 1 then [] else [.reply tag cls kind .unknown 0 []])
    | .frameDiscarded l bytes => ∃ m, Carried (framesIn l bytes.tail) s m ∧ t.plantOut = m.plantOut
    | c => match c.plantPacket with
      | none => t.plantOut = s.plantOut
      | some k =>
        if k.cls = 1 then t.plantOut = s.plantOut
        else ∃ code detail body, t.plantOut = s.plantOut ++ [.reply k.tag k.cls k.kind code detail body]

/-- R156, R159, R160, R161, R163 to R166: the part state, the dispatch-liveness timer with LINK_SILENT, and the part clock that each
command leaves; the clock counts whole seconds modulo 2^32 from power-on, and nothing else moves it. A discarded frame leaves what the
frames found in it leave.
The model's choices in it: notes/assumptions/2.md, 17.md. -/
def Obligations.PartStateLivenessAndClock : Prop :=
  ∀ (c : Instr) (s : State), ∃ t, exec c s = .next t ∧
    match c with
    | .frameDiscarded l bytes => ∃ m, Carried (framesIn l bytes.tail) s m ∧ t.pli.part = m.pli.part
        ∧ (t.pli.liveness, t.pli.linkSilent) = (m.pli.liveness, m.pli.linkSilent) ∧ t.clock = s.clock
    | c => t.pli.part = s.partAfter c
        ∧ (t.pli.liveness, t.pli.linkSilent) = s.livenessAfter c
        ∧ t.clock = match c with
          | .powerOn => 0
          | .partClockAdvance => s.clock + 1
          | _ => s.clock

/-- R43, R91: in STANDBY no row is selected or proposed, no slot is given a desired mode, and no allocation runs. -/
def Obligations.StandbyPlansNothing : Prop :=
  ∀ (c : Instr) (s : State), s.pli.part = .standby → ∃ t, exec c s = .next t ∧
    (t.pli.part = .standby →
      (t.alc = s.alc ∨ t.alc = .cleared)
        ∧ (t.pln.selected = s.pln.selected ∨ t.pln.selected = none)
        ∧ (t.pln.proposal = s.pln.proposal ∨ t.pln.proposal = none)
        ∧ ∀ u, t.pln.desired.get u = s.pln.desired.get u ∨ t.pln.desired.get u = none)

/-! ## Invariants -/

/-- The state after power-on meets every invariant below. -/
def Obligations.ResetMeetsTheInvariants : Prop :=
  RosterWf State.reset ∧ PortsWf State.reset ∧ EventsWf State.reset ∧ TargetsWf State.reset ∧ ParamsWf State.reset.params
    ∧ StoreWf State.reset ∧ PlaybackWf State.reset ∧ TablesWf State.reset ∧ WaterwaysWf State.reset ∧ SettledWf State.reset
    ∧ PlanWf State.reset ∧ OrphansWf State.reset ∧ GrantsWf State.reset ∧ AllocationWf State.reset

/-- R1, R2, R19, R141, R143 to R150: the map, the expected numbers and the rotation order, and each port's record. -/
def Obligations.StepKeepsRosterAndPorts : Prop :=
  ∀ s t : State, RosterWf s → PortsWf s → step s = .next t → RosterWf t ∧ PortsWf t

/-- R110, R113, R123, R128, R170, R175: the targets lie in the plant range and the increment within reg_limit; outside PROFILE the planning
target is the requested base target; in PATTERN the increment is 0; every parameter stays within its values; the event queue holds at
most 64 records, oldest first, in consecutive sequence numbers; and the profile store and the playback record stay well-formed. -/
def Obligations.StepKeepsTargetsProfilesEvents : Prop :=
  ∀ s t : State, step s = .next t →
    (TargetsWf s → TargetsWf t) ∧ (ParamsWf s.params → ParamsWf t.params) ∧ (EventsWf s → EventsWf t)
      ∧ (StoreWf s → PlaybackWf s → StoreWf t ∧ PlaybackWf t)

/-- R14, R25, R40, R86, R167, R168: every table in force has passed its checks, and the shadow buffer is well-formed; and every hold's
settled setpoint is its settlement against the slot's capability as it stands. -/
def Obligations.StepKeepsTablesAndHolds : Prop :=
  ∀ s t : State, step s = .next t → (TablesWf s → TablesWf t) ∧ (SettledWf s → SettledWf t)

/-- R87: no waterway has more flow-changing steps in progress than its slot count. -/
def Obligations.StepKeepsWaterwayCounts : Prop :=
  ∀ s t : State, WaterwaysWf s → step s = .next t → WaterwaysWf t

/-- R42, R43, R47, R51, R53, R57 to R59: whatever happens, the desired modes stay those of an assignment of the selected row: only automatic
slots have one, every automatic slot has one while a row is selected, and each mode's count, with its shortfall, is the row's; and in
STANDBY nothing is planned.
The model's choices in it: notes/assumptions/5.md. -/
def Obligations.StepKeepsPlan : Prop :=
  ∀ s t : State, RosterWf s → PlanWf s → step s = .next t → PlanWf t

/-- R66, R67, R79: whatever happens, no request that waits while the part governs passes the grant test of its next step: each event that
makes a step grantable is followed by a grant evaluation. A step that mixing can hold back is left out.
The model's choices in it: notes/assumptions/5.md. -/
def Obligations.StepKeepsGrants : Prop :=
  ∀ s t : State, OrphansWf s → GrantsWf s → step s = .next t → OrphansWf t ∧ GrantsWf t

/-- R91, R103: whatever happens while the part governs, what the last allocation recorded is what an allocation would give now, and the
setpoints due by it have been sent: each event that changes what an allocation reads is followed by an allocation. The rotation order
and the deadband, of at most 5.0 MW, are those of the last allocation.
The model's choices in it: notes/assumptions/5.md, 34.md, 45.md. -/
def Obligations.StepKeepsAllocation : Prop :=
  ∀ s t : State, RosterWf s → ParamsWf s.params → AllocationWf s → step s = .next t → AllocationWf t

/-! ## Allocation -/

/-- R92 to R95, R101, R102: an allocation gives every slot the first line of the contribution table that it meets, with its value; what
the target leaves after the fixed values is divided among the regulating units in rotation order (SaturationRule, SharesBeforeZones and
ZonesAndAbsorption say how), and each share and flag recorded is that division's; the values of the eight slots sum to the allocation
target less the shortfall; a shortfall stands only with a flag, below 0 with LOW_SAT and above 0 with HIGH_SAT.
The model's choices in it: notes/assumptions/8.md, 19.md. -/
def Obligations.AllocationBalances : Prop :=
  ∀ s : State, s.ros.rotation.Perm Slot.all →
    (∃ a, s.allocate.alc.last = some a ∧ a.target = s.allocationTarget
        ∧ a.total = a.target - s.allocate.alc.shortfall
        ∧ (let units := (s.ros.rotation.filter (fun u => (a.shares.get u).line == .regulating)).map (fun u =>
             ({ slot := u, least := (s.limits u).genMin, most := (s.limits u).genMax, zone := (s.limits u).zone, share := 0,
                floored := none, before := 0, moved := false } : RegUnit))
           let fixed := (Slot.all.map (fun u => if (a.shares.get u).line = .regulating then 0 else (a.shares.get u).value)).sum
           let d := divide (a.target - fixed) units
           s.allocate.alc.shortfall = d.shortfall ∧ (s.allocate.alc.lowSat = true ↔ d.condition = .low)
             ∧ (s.allocate.alc.highSat = true ↔ d.condition = .high) ∧ (s.allocate.alc.zoneShort = true ↔ d.condition = .zone)
             ∧ d.units.map (·.slot) = units.map (·.slot)
             ∧ ∀ q ∈ d.units, a.shares.get q.slot = { line := .regulating, value := q.share, beforeRemainder := q.floored,
                                                       beforeZones := some q.before, moved := q.moved })
        ∧ ∀ u,
          let line (l : Line) (v : Int) : Prop := (a.shares.get u).line = l ∧ (a.shares.get u).value = v
          let reports (m : Reported) : Prop := s.reported u = some m
          let ordered : Prop := ∃ r, s.req u = some r ∧ (r.state = .ordered ∨ r.state = .inStep)
          let outside : Prop := s.portState u ≠ .qualified ∨ ∀ x, (s.unitRec u).report = some x → x.remote = false
          let pump := (s.limits u).pump
          let condense := (s.limits u).condense
          (outside → line .outside (s.power u))
          ∧ (¬ outside → ¬ ordered → reports (.stable .ss) ∨ reports .trip → line .stopped 0)
          ∧ (¬ outside → ∀ k : StepKind,
              (∃ r st, s.req u = some r ∧ (r.state = .ordered ∨ r.state = .inStep) ∧ r.current = some st ∧ st.kind = k)
                ∨ ¬ ordered ∧ reports (.step k) →
              line .step (match k with
                | .gStart | .stop => 0
                | .pStart | .deprime => -condense
                | .prime => -pump))
          ∧ (¬ outside → ¬ ordered →
            (reports (.stable .pmp) → line .pumping (-pump))
            ∧ (reports (.stable .cnd) → line .condensing (-condense))
            ∧ (reports (.stable .gen) →
              (s.dispatchable u = false → line .genOut (s.power u))
              ∧ (s.dispatchable u = true →
                (∀ h v, (s.unitRec u).hold = some h → h.settled = some v → line .genHeld v)
                ∧ ((s.unitRec u).hold = none → (a.shares.get u).line = .regulating)
                ∧ (∀ h, (s.unitRec u).hold = some h → h.settled = none → line .genOther (s.power u))))))
      ∧ (s.allocate.alc.shortfall ≠ 0 →
          s.allocate.alc.lowSat = true ∨ s.allocate.alc.highSat = true ∨ s.allocate.alc.zoneShort = true)
      ∧ (s.allocate.alc.lowSat = true → s.allocate.alc.shortfall < 0)
      ∧ (s.allocate.alc.highSat = true → 0 < s.allocate.alc.shortfall)

/-- R104: what an allocation gives a slot to be sent lies within its gen_min and gen_max and not strictly inside its zone. -/
def Obligations.SetpointsAreLawful : Prop :=
  ∀ s : State, TablesWf s → SettledWf s → s.ros.rotation.Perm Slot.all →
    (∀ v, s.regulates v = true → (s.record v).isSome = true) →
    ∀ u c, s.record u = some c →
      (s.allocation.shares.get u).line = .regulating ∨ (s.allocation.shares.get u).line = .genHeld →
      c.genMin ≤ (s.allocation.shares.get u).value ∧ (s.allocation.shares.get u).value ≤ c.genMax
        ∧ ∀ z, c.zone = some z →
            ¬ (z.1 < (s.allocation.shares.get u).value ∧ (s.allocation.shares.get u).value < z.2)

/-- R97, R98: the shares before zones are the floored shares with one step more for each of the first `k` units in rotation order;
they sum to the residual, and none passes its limits. -/
def Obligations.SharesBeforeZones : Prop :=
  ∀ (r : Int) (us : List RegUnit), us ≠ [] → (∀ q ∈ us, q.Wf) → sumMin us ≤ r → r ≤ sumMax us →
    (∃ k < us.length, sharesBeforeZones r us = us.mapIdx (fun i q =>
        { q with
          share := q.least + (r - sumMin us) * (q.most - q.least) / sumRange us + (if i < k then 1 else 0)
          floored := some (q.least + (r - sumMin us) * (q.most - q.least) / sumRange us)
          before := q.least + (r - sumMin us) * (q.most - q.least) / sumRange us + (if i < k then 1 else 0) }))
      ∧ sumShares (sharesBeforeZones r us) = r
      ∧ ∀ q ∈ sharesBeforeZones r us, q.least ≤ q.share ∧ q.share ≤ q.most

/-- R96: a residual strictly outside the sums of the limits puts every unit at its lower or its upper limit, none of them moved
or inside its zone, and leaves the rest as the shortfall; with no unit the whole residual is the shortfall; a residual equal
to either sum is shared to the same limits, with no shortfall. -/
def Obligations.SaturationRule : Prop :=
  ∀ (r : Int) (us : List RegUnit), (∀ q ∈ us, q.Wf ∧ q.moved = false) →
    (r < sumMin us →
        (divide r us).units.map (fun q => (q.slot, q.share)) = us.map (fun q => (q.slot, q.least))
          ∧ (divide r us).shortfall = r - sumMin us ∧ (divide r us).condition = .low)
      ∧ (sumMax us < r →
        (divide r us).units.map (fun q => (q.slot, q.share)) = us.map (fun q => (q.slot, q.most))
          ∧ (divide r us).shortfall = r - sumMax us ∧ (divide r us).condition = .high)
      ∧ (r < sumMin us ∨ sumMax us < r → ∀ q ∈ (divide r us).units, q.Lawful ∧ q.moved = false)
      ∧ (r = sumMin us →
        (divide r us).units.map (fun q => (q.slot, q.share)) = us.map (fun q => (q.slot, q.least))
          ∧ (divide r us).shortfall = 0 ∧ (divide r us).condition = .met)
      ∧ (r = sumMax us →
        (divide r us).units.map (fun q => (q.slot, q.share)) = us.map (fun q => (q.slot, q.most))
          ∧ (divide r us).shortfall = 0 ∧ (divide r us).condition = .met)

/-- R99, R100: a share strictly inside its zone goes to the nearer edge, the lower on a tie, and is marked moved; what the moves take
away the absorption walk gives to unmoved units alone, in rotation order, each as much as its room allows, up to the limit or the nearer
edge of its zone, and nothing against the displacement's sign. -/
def Obligations.ZonesAndAbsorption : Prop :=
  (∀ q : RegUnit,
    q.leaveZone = { q with share := q.leaveZone.share, moved := decide (q.leaveZone.share ≠ q.share) }
      ∧ q.leaveZone.share = match q.zone with
        | none => q.share
        | some (lo, hi) =>
          if q.share ≤ lo ∨ hi ≤ q.share then q.share else if hi - q.share < q.share - lo then hi else lo)
  ∧ (∀ (r : Int) (us : List RegUnit), sumMin us ≤ r → r ≤ sumMax us →
      let shared := sharesBeforeZones r us
      let left := shared.map RegUnit.leaveZone
      ((divide r us).units, (divide r us).shortfall) = absorb (sumShares shared - sumShares left) left)
  ∧ ∀ (d : Int) (us : List RegUnit), (∀ q ∈ us, q.Wf ∧ q.Lawful) →
    (absorb d us).1.length = us.length
      ∧ sumShares (absorb d us).1 + (absorb d us).2 = sumShares us + d
      ∧ (∀ (i : Nat) (q p : RegUnit), us[i]? = some q → (absorb d us).1[i]? = some p →
          p = { q with share := p.share } ∧ p.Lawful
            ∧ (q.moved = true → p.share = q.share)
            ∧ (0 ≤ d → q.share ≤ p.share ∧ p.share ≤ q.ceiling) ∧ (d ≤ 0 → p.share ≤ q.share ∧ q.floor ≤ p.share)
            ∧ (q.moved = false → 0 < (absorb d us).2 → p.share = q.ceiling)
            ∧ (q.moved = false → (absorb d us).2 < 0 → p.share = q.floor)
            ∧ (q.moved = false → p.share ≠ (if 0 ≤ d then q.ceiling else q.floor) →
                ∀ j, i < j → (absorb d us).1[j]? = us[j]?))
      ∧ (0 ≤ d → 0 ≤ (absorb d us).2 ∧ (absorb d us).2 ≤ d)
      ∧ (d ≤ 0 → d ≤ (absorb d us).2 ∧ (absorb d us).2 ≤ 0)

/-- R103, R105: an allocation sends a SETPOINT to exactly the slots of the lines REGULATING and GEN_HELD whose value passes the
emission test in one of its four cases, records it as the last one sent, and gives it to the slot's port.
The model's choices in it: notes/assumptions/8.md. -/
def Obligations.AllocationEmits : Prop :=
  ∀ s : State, RosterWf s →
    CascadeFrame s s.allocate ∧ s.allocate.alc = s.allocated ∧ s.allocate.trs = s.trs ∧ s.allocate.pln = s.pln
      ∧ ∀ u p, (s.unitRec u).port = some p →
        let q := s.allocation.shares.get u
        let c := s.limits u
        let due : Prop := match (s.unitRec u).lastSetpoint with
          | none => True
          | some l => q.value ≠ l.value
              ∧ (s.params.deadband ≤ (q.value - l.value).natAbs
                ∨ q.value = c.genMin ∨ q.value = c.genMax ∨ (∃ z, c.zone = some z ∧ (q.value = z.1 ∨ q.value = z.2))
                ∨ l.value < c.genMin ∨ c.genMax < l.value ∨ ∃ z, c.zone = some z ∧ z.1 < l.value ∧ l.value < z.2)
        let sends : Prop := (q.line = .regulating ∨ q.line = .genHeld) ∧ due
        (sends → (s.allocate.unitRec u).lastSetpoint = some { value := q.value, time := s.clock }
          ∧ ((s.allocate.portRec p).sending = some (.setpoint q.value) ∨ .setpoint q.value ∈ (s.allocate.portRec p).queue))
        ∧ (¬ sends →
          (s.allocate.unitRec u).lastSetpoint = (s.unitRec u).lastSetpoint ∧ s.allocate.portRec p = s.portRec p)

/-! ## Capability -/

/-- R27 to R30: a committed table has a record at every head, with ordered limits and zone edges, the header's condense power, and the
extrapolated mark exactly outside the breakpoint heads; it is a breakpoint's at its head and the nearest one's beyond the ends, and
between neighbouring breakpoints each value is the exact line's, rounded in its own direction, the zone brought within the limits. -/
def Obligations.InterpolationRule : Prop :=
  ∀ (t : CapTable) (h : Nat), t.Wf →
    (∃ c, interpolate t h = some c ∧ c.Wf ∧ c.condense = t.header.condense
      ∧ (c.extrapolated = true ↔ (∀ b ∈ t.points, h < b.head) ∨ ∀ b ∈ t.points, b.head < h))
      ∧ (∀ b ∈ t.points, h = b.head → interpolate t h = some (recordAt t.header.condense b false))
      ∧ (∀ b, t.points.head? = some b → h < b.head → interpolate t h = some (recordAt t.header.condense b true))
      ∧ (∀ b, t.points.getLast? = some b → b.head < h → interpolate t h = some (recordAt t.header.condense b true))
      ∧ ∀ (i : Nat) (a b : Breakpoint), t.points[i]? = some a → t.points[i + 1]? = some b → a.head < h → h < b.head →
          let d : Int := (b.head : Int) - a.head
          let line (f : Breakpoint → Int) : Int := f a * d + (f b - f a) * ((h : Int) - a.head)
          ∃ c lo hi, interpolate t h = some c
            ∧ (line (·.genMin) ≤ c.genMin * d ∧ c.genMin * d < line (·.genMin) + d)
            ∧ (c.genMax * d ≤ line (·.genMax) ∧ line (·.genMax) < c.genMax * d + d)
            ∧ (lo * d ≤ line (·.rzLo) ∧ line (·.rzLo) < lo * d + d)
            ∧ (line (·.rzHi) ≤ hi * d ∧ hi * d < line (·.rzHi) + d)
            ∧ (2 * line (·.pump) - d < 2 * c.pump * d ∧ 2 * c.pump * d ≤ 2 * line (·.pump) + d)
            ∧ c.zone = (if max lo c.genMin = min hi c.genMax then none else some (max lo c.genMin, min hi c.genMax))

/-- The long-timer coding of 00_scope.md and R23, R170: a value from 1 to 1500 s is brought to the next representable one at or above
it, and a value above that to 1500 s. -/
def Obligations.LongTimerCoding : Prop :=
  ∀ n : Nat, 1 ≤ n →
    let representable (m : Nat) : Prop :=
      (1 ≤ m ∧ m ≤ 15) ∨ (20 ≤ m ∧ m ≤ 150 ∧ m % 10 = 0) ∨ (200 ≤ m ∧ m ≤ 1500 ∧ m % 100 = 0)
    representable (longTimer n)
      ∧ (n ≤ 1500 → n ≤ longTimer n ∧ ∀ m, representable m → n ≤ m → longTimer n ≤ m)
      ∧ (1500 < n → longTimer n = 1500)

/-! ## Row selection -/

/-- R45 to R48: the planning target within the selected row drops a proposal and PLAN_GAP. Outside it: PLAN_GAP where no row contains it; else
the candidate is the lowest-numbered row that contains it, adopted at once with no row selected, and otherwise proposed for the dwell,
kept while it is the standing proposal, and adopted at the expiry or with a dwell of 0. -/
def Obligations.RowSelectionRule : Prop :=
  (∀ (expired : Bool) (s : State) (rows : List PlanRow) (k : Nat) (row : PlanRow),
    s.pln.table = some rows → s.pln.selected = some k → rows[k]? = some row →
    row.lower ≤ s.tgt.plan → s.tgt.plan ≤ row.upper →
    State.selectRow expired s = { s with pln := { s.pln with proposal := none, gap := false } })
  ∧ ∀ (s : State) (rows : List PlanRow), s.pln.table = some rows →
    (∀ k row, s.pln.selected = some k → rows[k]? = some row → ¬ (row.lower ≤ s.tgt.plan ∧ s.tgt.plan ≤ row.upper)) →
    ((∀ row ∈ rows, ¬ (row.lower ≤ s.tgt.plan ∧ s.tgt.plan ≤ row.upper)) →
        ∀ expired, (State.selectRow expired s).pln = { s.pln with proposal := none, gap := true }
          ∧ State.selectRow expired s
            = if s.pln.gap then { s with pln := { s.pln with proposal := none, gap := true } }
              else { s with pln := { s.pln with proposal := none, gap := true } }.post .planGap none (some s.tgt.plan))
      ∧ ∀ (k : Nat) (row : PlanRow), rows[k]? = some row → row.lower ≤ s.tgt.plan → s.tgt.plan ≤ row.upper →
          (∀ (j : Nat) (q : PlanRow), j < k → rows[j]? = some q → ¬ (q.lower ≤ s.tgt.plan ∧ s.tgt.plan ≤ q.upper)) →
          let adopted (t : State) : Prop :=
            SelectFrame s t ∧ t.pln.selected = some k ∧ t.pln.proposal = none ∧ t.pln.gap = false
              ∧ Posted s.clock (s.post .rowAdopted none (some k)).ste t.ste
          (s.pln.selected = none → ∀ expired, adopted (State.selectRow expired s))
            ∧ (s.pln.selected.isSome = true → s.pln.proposal.map (·.row) = some k →
                State.selectRow false s = { s with pln := { s.pln with gap := false } } ∧ adopted (State.selectRow true s))
            ∧ (s.pln.selected.isSome = true → s.pln.proposal.map (·.row) ≠ some k → s.params.dwell ≠ 0 →
                ∀ expired, State.selectRow expired s
                  = { s with pln := { s.pln with
                        gap := false, proposal := some { row := k, expiry := later s.clock s.params.dwell } } })
            ∧ (s.pln.selected.isSome = true → s.pln.proposal.map (·.row) ≠ some k → s.params.dwell = 0 →
                ∀ expired, adopted (State.selectRow expired s))

/-! ## Paths and the transition queue -/

/-- R60: the path table, each step's origin and destination, and the flow-changing steps. -/
def Obligations.PathTable : Prop :=
  (∀ m, pathOf m m = [])
    ∧ (pathOf .ss .gen).map (·.kind) = [.gStart] ∧ (pathOf .ss .cnd).map (·.kind) = [.pStart]
    ∧ (pathOf .ss .pmp).map (·.kind) = [.pStart, .prime] ∧ (pathOf .cnd .pmp).map (·.kind) = [.prime]
    ∧ (pathOf .cnd .ss).map (·.kind) = [.stop] ∧ (pathOf .cnd .gen).map (·.kind) = [.stop, .gStart]
    ∧ (pathOf .pmp .cnd).map (·.kind) = [.deprime] ∧ (pathOf .pmp .ss).map (·.kind) = [.stop]
    ∧ (pathOf .pmp .gen).map (·.kind) = [.stop, .gStart] ∧ (pathOf .gen .ss).map (·.kind) = [.stop]
    ∧ (pathOf .gen .cnd).map (·.kind) = [.stop, .pStart] ∧ (pathOf .gen .pmp).map (·.kind) = [.stop, .pStart, .prime]
    ∧ (∀ a b, (pathOf a b).length ≤ 3)
    ∧ (∀ a b st rest, pathOf a b = st :: rest → st.origin = a ∧ rest = pathOf st.kind.dest b)
    ∧ (∀ a b, ∀ st ∈ pathOf a b,
        (st.kind = .gStart → st.origin = .ss) ∧ (st.kind = .pStart → st.origin = .ss) ∧ (st.kind = .prime → st.origin = .cnd)
          ∧ (st.kind = .deprime → st.origin = .pmp) ∧ (st.kind = .stop → st.origin ≠ .ss))
    ∧ StepKind.gStart.dest = .gen ∧ StepKind.pStart.dest = .cnd ∧ StepKind.deprime.dest = .cnd
    ∧ StepKind.prime.dest = .pmp ∧ StepKind.stop.dest = .ss
    ∧ (∀ st : PathStep, st.flowChanging = true ↔
        st.kind = .gStart ∨ st.kind = .prime ∨ st.kind = .deprime
          ∨ st.kind = .stop ∧ (st.origin = .gen ∨ st.origin = .pmp))

/-- R65, R66: the transition queue holds each slot with a request in WAITING once, MANUAL requests before AUTOMATIC ones and within a class
by entry number, the oldest first, wherever the entry numbers of those waiting lie within half the counter's range (R61); a grant
evaluation tests each once, from the front to the back, on what the grants before it have left. -/
def Obligations.TransitionQueueOrder : Prop :=
  ∀ s : State,
    (∀ u, u ∈ s.queue ↔ ∃ r, s.req u = some r ∧ r.state = .waiting)
      ∧ s.queue.Nodup
      ∧ (∀ (i j : Nat) (u v : Slot) (a b : Request), i < j → s.queue[i]? = some u → s.queue[j]? = some v →
          s.req u = some a → s.req v = some b →
          (b.cls = .manual → a.cls = .manual)
            ∧ (j = i + 1 → a.cls = b.cls → a.entry = b.entry ∨ 0x80000000 ≤ (a.entry - b.entry).toNat)
            ∧ ∀ base : Word, (∀ w r, s.req w = some r → r.state = .waiting → (r.entry - base).toNat < 0x80000000) →
                a.cls = b.cls → (a.entry - base).toNat ≤ (b.entry - base).toNat)
      ∧ (∀ (i : Nat) (u : Slot), s.queue[i]? = some u →
          s.evalGrants.req u = (((s.queue.take i).foldl State.tryGrant s).tryGrant u).req u)
      ∧ ∀ u, u ∉ s.queue → s.evalGrants.req u = s.req u

/-! ## Starting, the part clock and the links -/

/-- R165, R166: POWER_ON leaves every block as after power-on; RESTART and the reset input leave each as its chapter gives it, RESTART
with its reply. The commands waiting and the frames sent stay.
The model's choices in it: notes/assumptions/1.md, 4.md, 17.md, 30.md, 41.md, 47.md. -/
def Obligations.StartsAfresh : Prop :=
  (∀ s : State, exec .powerOn s
      = .next { State.reset with pending := s.pending, plantOut := s.plantOut, unitOut := s.unitOut })
    ∧ (∀ (tag : Byte) (s : State), ∃ t, exec (.restart tag) s = .next t ∧ RestartedFrom s t 0 ∧ t.pli.framer = none
        ∧ t.plantOut = s.plantOut ++ [.reply tag 2 19 .ok 0 []])
    ∧ ∀ s : State, ∃ t, exec .resetInput s = .next t ∧ RestartedFrom s t 1 ∧ t.pli.framer = s.pli.framer
        ∧ t.plantOut = s.plantOut

/-- R115, R166, R171: an advance counts the clock up by one, moves the ramped target toward the requested base target by at most
ramp_rate while the part governs, and sends the plant status of 50 bytes.
The model's choices in it: notes/assumptions/21.md. -/
def Obligations.ClockAdvances : Prop :=
  ∀ s : State, ∃ m, exec .partClockAdvance s = .next (m.sendUp (.plantStatus m.statusBody))
    ∧ m.statusBody.length = 50
    ∧ CascadeFrame
        { s with
          pli := { s.pli with clock := s.clock + 1 }
          tgt := { s.tgt with
            ramped :=
              if s.pli.part = .standby then s.tgt.ramped
              else max (s.tgt.ramped - s.params.rampRate) (min (s.tgt.ramped + s.params.rampRate) s.tgt.reqBase) } }
        m

/-- R181, R155, R140, R141: a discarded frame is hunted through from the byte after its start byte: the whole frames found are carried out
in order, and the framer holds a frame still incomplete; the idle timeout, the reply to an unknown kind, and the departure of a frame
from a unit port.
The model's choices in it: notes/assumptions/17.md, 31.md. -/
def Obligations.LinkEvents : Prop :=
  (∀ (l : Link) (bytes : List Byte) (s : State), ∃ m, Carried (framesIn l bytes.tail) s m
      ∧ exec (.frameDiscarded l bytes) s = .next (match l with
        | .plant => { m with pli := { m.pli with framer := (hunt l bytes.tail).held } }
        | .unit p => { m with ports := m.ports.set p { m.portRec p with framer := (hunt l bytes.tail).held } }))
    ∧ (∀ (l : Link) (bytes : List Byte),
        framesIn l bytes = (hunt l bytes).bodies.filterMap (fun b => decodeFrame l (frameOf b)))
    ∧ (∀ l : Link, hunt l [] = { bodies := [], held := none } ∧ hunt l [0xA5] = { bodies := [], held := some [] })
    ∧ (∀ (l : Link) (b : Byte) (rest : List Byte), b ≠ 0xA5 → hunt l (b :: rest) = hunt l rest)
    ∧ (∀ (l : Link) (n : Byte) (rest : List Byte),
      let needed := (match l with | .plant => 3 | .unit _ => 1) + n.toNat + 2
      let body := n :: rest.take (needed - 2)
      let after := hunt l (rest.drop needed)
      let found := hunt l (0xA5 :: n :: rest)
      (240 < n.toNat → found = hunt l (n :: rest))
      ∧ (n.toNat ≤ 240 →
        (rest.length < needed → found = { bodies := [], held := some (n :: rest) })
        ∧ (needed ≤ rest.length → frameOf body = 0xA5 :: n :: rest.take needed →
            found = { bodies := body :: after.bodies, held := after.held })
        ∧ (needed ≤ rest.length → frameOf body ≠ 0xA5 :: n :: rest.take needed → found = hunt l (n :: rest))))
    ∧ (∀ s : State, exec (.framerIdleTimeout .plant) s = .next { s with pli := { s.pli with framer := none } })
    ∧ (∀ (p : Port) (s : State), exec (.framerIdleTimeout (.unit p)) s
      = .next { s with ports := s.ports.set p { s.portRec p with framer := none } })
    ∧ (∀ (cls kind tag : Byte) (s : State), exec (.unknownFrame cls kind tag) s
      = .next { s with
          pli := { s.pli with framer := none }
          plantOut := if cls = 1 then s.plantOut else s.plantOut ++ [.reply tag cls kind .unknown 0 []] })
    ∧ (∀ (p : Port) (s : State), exec (.unitLinkFrameDiscarded p) s
      = .next { s with ports := s.ports.set p { s.portRec p with framer := none } })
    ∧ ∀ (p : Port) (s : State),
      ((s.portRec p).sending = none → exec (.transmitComplete p) s = .next s)
        ∧ (∀ f, (s.portRec p).sending = some f → (s.portRec p).queue = [] →
            exec (.transmitComplete p) s = .next { s with ports := s.ports.set p { s.portRec p with sending := none } })
        ∧ ∀ f g rest, (s.portRec p).sending = some f → (s.portRec p).queue = g :: rest →
            exec (.transmitComplete p) s
              = .next { s with
                  ports := s.ports.set p { s.portRec p with sending := some g, queue := rest }
                  unitOut := s.unitOut ++ [(p, g)] }

/-! ## Dispatch frames -/

/-- R110, R112, R113, R116, R119, R156: an applied BASE writes the requested base target (and with it, outside ramp limits, the other
targets) and any increment; an applied REG writes the increment; both set TARGET_CLAMPED by what they clamped. In FALLBACK, after
what the frame has done to the part state, and under another source they leave every target alone. -/
def Obligations.BaseAndRegFrames : Prop :=
  (∀ (target : Half) (increment : Option Half) (s : State), ∃ m t, Heard s m ∧ exec (.base target increment) s = .next t
      ∧ if s.tgt.source = .direct ∧ (s.inFallback = false ∨ s.params.autoResume = true) then
          let limit : Int := s.params.regLimit
          let inc := increment.map (fun v => max (-limit) (min limit v.toInt))
          TargetFrame m t
            ∧ t.tgt = { s.tgt with
                reqBase := clampPlant target.toInt
                plan := clampPlant target.toInt
                ramped :=
                  if s.params.rampRate = 0 ∧ s.pli.part ≠ .standby ∧ clampPlant target.toInt ≠ s.tgt.reqBase
                  then clampPlant target.toInt else s.tgt.ramped
                increment := inc.getD s.tgt.increment
                clamped := decide (clampPlant target.toInt ≠ target.toInt ∨ inc ≠ increment.map BitVec.toInt) }
        else CascadeFrame m t)
    ∧ ∀ (increment : Half) (s : State), ∃ m t, Heard s m ∧ exec (.reg increment) s = .next t
      ∧ if s.tgt.source ≠ .pattern ∧ (s.inFallback = false ∨ s.params.autoResume = true) then
          let limit : Int := s.params.regLimit
          let inc := max (-limit) (min limit increment.toInt)
          CascadeFrame { m with tgt := { m.tgt with increment := inc, clamped := decide (inc ≠ increment.toInt) } } t
        else CascadeFrame m t

/-- R33, R34, R37: LEVELS is applied in every part state: the levels, the estimate with HEAD_CLAMPED, the level timer and HEAD_STALE, and
every hold settled again where the head in use has changed. -/
def Obligations.LevelsFrame : Prop :=
  ∀ (upper lower : Half) (s : State), ∃ m t, Heard s m ∧ exec (.levels upper lower) s = .next t ∧ HeadFrame m t
    ∧ (let up := min 30000 upper.toNat
       let low := min 30000 lower.toNat
       let raw : Int := (up : Int) - low - s.params.headLoss
       t.head = { s.head with
         levels := some (up, low)
         estimate := some (max 0 (min 10000 raw)).toNat
         levelTimer := some (later s.clock s.params.levelTimeout)
         stale := false
         clamped := decide (raw < 0 ∨ 10000 < raw) })
    ∧ ∀ u, (t.unitRec u).core =
        if t.headInUse = s.headInUse then (s.unitRec u).core
        else { (s.unitRec u).core with
          hold := (s.unitRec u).hold.map (fun h => { h with settled := h.settledAgainst (t.record u) }) }

/-- R13, R14, R62 to R64: UNIT_HOLD is discarded for a bad slot, a bad mode or a slot under an emergency hold; otherwise the hold is
written and settled, HOLD_ADJUSTED is posted where the settled setpoint is not the requested one, and the slot's request, one where
its known mode is another while the part governs, is MANUAL and leads to the hold's mode. A grant in WARNING stands where the new path
begins with the step being warned; otherwise the path is taken anew, or the request ends.
The model's choices in it: notes/assumptions/11.md, 12.md, 18.md, 23.md, 24.md. -/
def Obligations.UnitHoldFrame : Prop :=
  ∀ (slot mode : Byte) (setpoint : Option Half) (s : State),
    ((slotOfCode slot = none ∨ stableOfCode mode = none
        ∨ ∃ u h, slotOfCode slot = some u ∧ (s.unitRec u).hold = some h ∧ h.emergency = true) →
      exec (.unitHold slot mode setpoint) s = .next { s with pli := { s.pli with framer := none } })
    ∧ ∀ (u : Slot) (md : Stable), slotOfCode slot = some u → stableOfCode mode = some md →
      (∀ h, (s.unitRec u).hold = some h → h.emergency = false) →
      let requested := if md = .gen then setpoint.map (fun v => clampUnit v.toInt) else none
      let settled := match requested, s.record u with
        | some v, some c => some (outOfZone c.zone (clampInt c.genMin c.genMax v))
        | _, _ => none
      ∃ m t, Heard s m ∧ exec (.unitHold slot mode setpoint) s = .next t
        ∧ (let b := m.setUnit u { m.unitRec u with
              hold := some { mode := md, requested := requested, settled := settled, emergency := false,
                             stopOutstanding := false } }
           CascadeFrame (if settled.isSome ∧ settled ≠ requested then b.post .holdAdjusted (some u) settled else b) t)
        ∧ (∀ r, t.req u = some r → r.cls = .manual ∧ r.dest = md)
        ∧ (s.pli.part ≠ .standby → ∀ k, s.known u = some k → k ≠ md → (t.req u).isSome = true)
        ∧ (∀ r k, s.returns = false → s.req u = some r → r.state = .warning → s.known u = some k →
          (r.dest = md → t.req u = some { r with cls := .manual })
          ∧ (r.dest ≠ md → (pathOf k md).head?.isSome = true → (pathOf k md).head? = r.current →
            t.req u = some { r with cls := .manual, dest := md, path := pathOf k md, index := 1 })
          ∧ (r.dest ≠ md → (pathOf k md).head? ≠ r.current → k ≠ md →
            ∃ q, t.req u = some q ∧ q.path = pathOf k md ∧ q.index = 1 ∧ q.entry = r.entry)
          ∧ (r.dest ≠ md → k = md → t.req u = none))

/-- R15, R63, R150: UNIT_RELEASE removes the hold with its EMERGENCY order, and what request is left is AUTOMATIC; it is discarded for
a bad slot, and moves nothing but the part state and link timer for a slot with no hold.
The model's choices in it: notes/assumptions/23.md, 24.md. -/
def Obligations.UnitReleaseFrame : Prop :=
  ∀ (slot : Byte) (s : State),
    (slotOfCode slot = none → exec (.unitRelease slot) s = .next { s with pli := { s.pli with framer := none } })
    ∧ ∀ u, slotOfCode slot = some u →
      ((s.unitRec u).hold = none → ∃ m t, Heard s m ∧ exec (.unitRelease slot) s = .next t ∧ CascadeFrame m t)
      ∧ ((s.unitRec u).hold.isSome = true → ∃ m t, Heard s m ∧ exec (.unitRelease slot) s = .next t
        ∧ CascadeFrame (m.setUnit u { m.unitRec u with hold := none }) t
        ∧ (∀ r, t.req u = some r → r.cls = .automatic)
        ∧ ∀ p o, (s.unitRec u).port = some p → (t.portRec p).outstanding = some o → o.purpose ≠ .emergency)

/-- R16, R62, R82: an EMERGENCY_STOP of one unit leaves it an emergency hold of SS and no request, and sends STOP, which stands as the
port's outstanding order, where its port is QUALIFIED and it reports a mode other than SS and TRIP; of all units, the same for each;
for another code it is discarded.
The model's choices in it: notes/assumptions/7.md. -/
def Obligations.EmergencyStopFrame : Prop :=
  (∀ (slot : Byte) (s : State), slot ≠ 0 → slotOfCode slot = none →
      exec (.emergencyStop slot) s = .next { s with pli := { s.pli with framer := none } })
    ∧ (∀ (slot : Byte) (s : State) (u : Slot), slotOfCode slot = some u →
      let sends := s.portState u = .qualified
        ∧ ∃ q, s.reported u = some q ∧ q ≠ .stable .ss ∧ q ≠ .trip
      ∃ m t h, Heard s m ∧ exec (.emergencyStop slot) s = .next t
        ∧ CascadeFrame (m.setUnit u { m.unitRec u with hold := some h }) t
        ∧ (∀ x, (s.unitRec u).hold = some x → x.emergency = true →
            h = { x with stopOutstanding := h.stopOutstanding } ∧ (¬ sends → h = x))
        ∧ ((∀ x, (s.unitRec u).hold = some x → x.emergency = false) →
            h = { mode := .ss, requested := none, settled := none, emergency := true, stopOutstanding := h.stopOutstanding }
              ∧ (¬ sends → h.stopOutstanding = false))
        ∧ t.req u = none
        ∧ (sends → h.stopOutstanding = true
          ∧ (RosterWf s → ∀ p, (s.unitRec u).port = some p →
              ∃ tag, (t.portRec p).outstanding = some { tag := tag, kind := .stop, purpose := .emergency })))
    ∧ ∀ s : State, ∃ m t, Heard s m ∧ exec (.emergencyStop 0) s = .next t ∧ HeadFrame m t ∧ t.head = s.head
      ∧ ∀ u,
        let sends := s.portState u = .qualified
          ∧ ∃ q, s.reported u = some q ∧ q ≠ .stable .ss ∧ q ≠ .trip
        { (t.unitRec u).core with hold := none } = { (s.unitRec u).core with hold := none }
        ∧ t.req u = none
        ∧ ∃ h, (t.unitRec u).hold = some h
          ∧ (∀ x, (s.unitRec u).hold = some x → x.emergency = true →
              h = { x with stopOutstanding := h.stopOutstanding } ∧ (¬ sends → h = x))
          ∧ ((∀ x, (s.unitRec u).hold = some x → x.emergency = false) →
              h = { mode := .ss, requested := none, settled := none, emergency := true, stopOutstanding := h.stopOutstanding }
                ∧ (¬ sends → h.stopOutstanding = false))
          ∧ (sends → h.stopOutstanding = true
            ∧ (RosterWf s → ∀ p, (s.unitRec u).port = some p →
                ∃ tag, (t.portRec p).outstanding = some { tag := tag, kind := .stop, purpose := .emergency }))

/-! ## Queries and configuration -/

/-- R126, R158, R170 to R173, R176: what each reading request is answered, and that it changes nothing, but for the records that an
EVENT_READ takes with EVENTS_LOST.
The model's choices in it: notes/assumptions/29.md. -/
def Obligations.ReadingRequests : Prop :=
  ∀ (tag : Byte) (s : State),
    (∀ param port i, paramOfCode param port = .error i →
        exec (.configGet tag param port) s = .next (s.replied tag 2 2 .invalid i)
          ∧ (i = 1 ∧ (param = 0 ∨ 21 < param.toNat) ∨ i = 3 ∧ param = 21 ∧ (port = 0 ∨ 8 < port.toNat)))
    ∧ (∀ param port q, paramOfCode param port = .ok q →
        exec (.configGet tag param port) s = .next (s.replied tag 2 2 .ok 0 ([param] ++ int32 (s.held q) ++ [port])))
    ∧ exec (.statusReq tag) s = .next (s.replied tag 3 1 .ok 0 s.statusBody)
    ∧ (∀ slot, slotOfCode slot = none → exec (.unitReq tag slot) s = .next (s.replied tag 3 2 .invalid 1))
    ∧ (∀ slot u, slotOfCode slot = some u → exec (.unitReq tag slot) s = .next (s.replied tag 3 2 .ok 0 (s.unitBody u)))
    ∧ (∀ position row, s.tableRow position row.toNat = none →
        exec (.tableRead tag position row) s = .next (s.replied tag 3 3 .notFound))
    ∧ (∀ position row body, s.tableRow position row.toNat = some body →
        exec (.tableRead tag position row) s = .next (s.replied tag 3 3 .ok 0 body))
    ∧ exec (.eventRead tag) s
        = .next (({ s with ste := { s.ste with events := s.ste.events.drop 8, eventsLost := false } }).replied tag 3 4 .ok 0
            ([if s.ste.eventsLost then 1 else 0, byte (s.ste.events.length - 8)]
              ++ (s.ste.events.take 8).flatMap eventBytes))
    ∧ (∀ start : Option Byte,
        let from_ := match start with
          | some b => b.toNat
          | none => 0
        let shown := (s.prf.dir.drop from_).take 8
        exec (.profileCatalog tag start) s = .next (s.replied tag 3 5 .ok 0
          ([byte s.prf.dir.length] ++ nat16 (4096 - s.entriesHeld) ++ [byte shown.length]
            ++ shown.flatMap Profile.listing ++ s.prf.playback.bytes)))
    ∧ ∀ (name : List Byte) (first : Half) (count : Byte),
      (nameOfField name = none → exec (.profileRead tag name first count) s = .next (s.replied tag 2 9 .invalid 1))
        ∧ ∀ n, nameOfField name = some n →
          (count = 0 ∨ 16 < count.toNat → exec (.profileRead tag name first count) s = .next (s.replied tag 2 9 .invalid 0))
          ∧ (count ≠ 0 → count.toNat ≤ 16 →
            (s.profileNamed n = none → exec (.profileRead tag name first count) s = .next (s.replied tag 2 9 .notFound))
            ∧ ∀ p, s.profileNamed n = some p →
              (p.entries.length < first.toNat + count.toNat →
                exec (.profileRead tag name first count) s
                  = .next (s.replied tag 2 9 .invalid (max first.toNat p.entries.length)))
              ∧ (first.toNat + count.toNat ≤ p.entries.length →
                exec (.profileRead tag name first count) s
                  = .next (s.replied tag 2 9 .ok 0 (((p.entries.drop first.toNat).take count.toNat).flatMap int16))))

/-- R126, R158, R172, R173, R174, R178, R183, R184 and sections 11.4 and 11.5: the bytes of the PLANT_STATUS body and of the unit answer, field by
field at its offset, the row that a TABLE_READ is answered with, the 13 bytes of an event record with the codes of the kinds, and the
bytes of a listed profile and of the playback record, the items of PROFILE_CATALOG.
The model's choices in it: notes/assumptions/29.md, 44.md. -/
def Obligations.BodyLayouts : Prop :=
  ∀ s : State,
    let flag (b : Bool) : List Byte := [if b then 1 else 0]
    let half (v : Option Int) : List Byte := int16 (v.getD (-32768))
    let time (v : Option Word) : List Byte := wordBytes (v.getD 0xFFFFFFFF)
    let one (v : Option Nat) (absent : Byte) : List Byte := [match v with | none => absent | some n => byte n]
    let line (m : MonitorLine) : List Byte :=
      [byte ((selectionCode m.selection).toNat + (if m.activeLow then 16 else 0) + (if s.lineHigh m then 128 else 0))]
    (s.statusBody.length = 50
      ∧ LaidOut s.statusBody
        [(0, wordBytes s.clock),
         (4, [match s.pli.part with | .standby => 0 | .dispatching => 1 | .fallback _ => 2]),
         (5, [match s.pli.part with | .fallback .linkDown => 1 | .fallback .awaitResume => 2 | _ => 0]),
         (6, [match s.tgt.source with | .direct => 0 | .profile => 1 | .pattern => 2]),
         (7, int16 s.tgt.reqBase), (9, int16 s.tgt.plan), (11, int16 s.tgt.ramped), (13, int16 s.tgt.increment),
         (15, int16 s.allocationTarget), (17, half (s.alc.last.map (·.target))), (19, int32 s.alc.shortfall),
         (23, int32 s.plantActual), (27, match s.headInUse with | none => [0xFF, 0xFF] | some h => nat16 h),
         (29, [if s.params.headOverride ≠ 0 then 2 else if s.head.estimate.isSome then 1 else 0]),
         (30, one s.pln.selected 0xFF), (31, one (s.pln.proposal.map (·.row)) 0xFF), (32, time (s.pln.proposal.map (·.expiry))),
         (36, [byte s.pln.shortPmp, byte s.pln.shortGen, byte s.pln.shortCnd]),
         (41, [byte ([s.trs.c1, s.trs.c2].filter Option.isSome).length, byte s.queue.length, byte s.plantCount,
               byte s.ste.events.length]),
         (45, halfBytes s.ste.seq), (47, one (s.pli.load.map (fun l => tablePosCode l.pos)) 0),
         (48, line s.ste.m1), (49, line s.ste.m2)]
      ∧ ∃ n, n < 8192 ∧ LaidOut s.statusBody [(39, nat16 n)] ∧ ∀ i, n.testBit i =
          ([s.pli.linkSilent, s.headInUse.isNone, s.head.stale, s.head.clamped,
            Slot.all.any (fun u => (s.record u).any (·.extrapolated)), s.tgt.clamped, s.pln.gap, s.pln.short, s.alc.lowSat,
            s.alc.highSat, s.alc.zoneShort, s.prf.playback.markerLost, s.ste.eventsLost].getD i false))
    ∧ (s.ros.rotation.length = 8 → ∀ u,
      let r := s.unitRec u
      let p := s.slotPort u
      let o := p.bind (·.outstanding)
      let c := s.record u
      let q := s.req u
      let x := s.alc.last.map (fun a => a.shares.get u)
      (s.unitBody u).length = 105
      ∧ LaidOut (s.unitBody u)
        [(0, [slotCode u]), (1, one (r.port.map (fun p => (portCode p).toNat)) 0), (2, [portStateCode (s.portState u)]),
         (3, [r.expected]), (4, [(p.bind (·.lastMachine)).getD 0]), (5, flag (p.any (fun p => p.ackMode == .unconfirmed))),
         (6, one (o.map (fun o => match o.purpose with | .supervised => 1 | .emergency => 2 | .timeoutStop => 3)) 0),
         (7, one (o.map (fun o => stepCode o.kind)) 0), (8, one (o.map (fun o => o.tag.toNat)) 0),
         (9, one ((s.reported u).map reportedCode) 0xFF), (10, int16 (s.power u)),
         (12, flag (r.report.any (·.remote))), (13, flag (r.report.any (·.available))),
         (14, one ((r.report.bind (·.conv)).map convNumber) 0), (15, flag r.trip), (16, flag r.fault), (17, time r.backoff),
         (21, flag (s.dispatchable u)), (22, flag (s.automatic u)),
         (23, one ((s.waterwayOf u).map (fun w => (waterwayCode w).toNat)) 0),
         (24, one (r.hold.map (fun h => stableCode h.mode)) 0xFF), (25, half (r.hold.bind (·.requested))),
         (27, half (r.hold.bind (·.settled))), (29, flag (r.hold.any (·.emergency))), (30, flag (r.hold.any (·.stopOutstanding))),
         (31, half (r.lastSetpoint.map (·.value))), (33, time (r.lastSetpoint.map (·.time))),
         (37, s.ros.rotation.map slotCode), (45, [byte (s.ros.rotation.findIdx (· == u) + 1)])]
      ∧ LaidOut (s.unitBody u)
        [(46, flag c.isSome),
         (47, match c with
           | none => List.replicate 13 0
           | some c => int16 c.genMin ++ int16 c.genMax ++ int16 ((c.zone.map (·.1)).getD (-1))
               ++ int16 ((c.zone.map (·.2)).getD (-1)) ++ int16 c.pump ++ int16 c.condense ++ flag c.extrapolated),
         (60, one ((s.pln.desired.get u).map stableCode) 0xFF), (61, flag q.isSome),
         (62, match q with
           | none => List.replicate 33 0
           | some r => [match r.cls with | .manual => 0 | .automatic => 1, byte (stableCode r.dest)]
               ++ one (r.path[0]?.map (fun t => stepCode t.kind)) 0xFF ++ one (r.path[1]?.map (fun t => stepCode t.kind)) 0xFF
               ++ one (r.path[2]?.map (fun t => stepCode t.kind)) 0xFF
               ++ [byte r.index, match r.state with | .waiting => 0 | .warning => 1 | .ordered => 2 | .inStep => 3]
               ++ wordBytes r.entry ++ one (r.conv.map convNumber) 0 ++ flag r.slotHeld ++ flag r.seen
               ++ flag r.tag.isSome ++ [r.tag.getD 0]
               ++ time r.startedAt ++ time r.leadExpiry ++ time r.ackExpiry ++ time r.stepExpiry ++ [blockedCode r.blocked]),
         (95, match s.orphan u with
           | none => List.replicate 4 0
           | some o => [1] ++ one (o.conv.map convNumber) 0 ++ flag o.slotHeld ++ flag o.place),
         (99, one (x.map (fun x => (lineCode x.line).toNat)) 0), (100, half (x.map (·.value))),
         (102, half (x.bind (·.beforeZones))), (104, flag (x.any (·.moved)))])
    ∧ (∀ row : Nat,
      (s.tableRow 11 row = if row = 0 then some (s.ros.rotation.map slotCode) else none)
      ∧ (s.tableRow 10 row = match s.trs.waterways with
        | none => none
        | some t =>
          if row = 4 then some (Slot.all.map (fun u => waterwayCode (t.place.get u)))
          else Waterway.all[row]?.map (fun w =>
            let r := (t.recs.get w).row
            [byte r.slots] ++ nat16 r.settle ++ [r.mixing, r.kinds] ++ nat16 r.lead
              ++ [byte r.firstHigh, byte r.high, byte r.low, byte r.count]
              ++ [byte (t.recs.get w).inProgress] ++ time (t.recs.get w).settle))
      ∧ (s.tableRow 9 row = match s.pln.table with
        | none => none
        | some rows => rows[row]?.map (fun r =>
            int16 r.lower ++ int16 r.upper ++ [byte r.nPmp, byte r.nCnd, byte r.nGen]))
      ∧ (∀ u, s.tableRow (slotCode u) row = match s.head.caps.get u, row with
        | none, _ => none
        | some t, 0 => some ([byte t.header.count] ++ int16 t.header.condense ++ nat16 t.header.gStart ++ nat16 t.header.pStart
            ++ nat16 t.header.prime ++ nat16 t.header.deprime ++ nat16 t.header.stop)
        | some t, k + 1 => t.points[k]?.map (fun b =>
            nat16 b.head ++ int16 b.genMin ++ int16 b.genMax ++ int16 b.rzLo ++ int16 b.rzHi ++ int16 b.pump))
      ∧ ∀ position : Byte, position = 0 ∨ 11 < position.toNat → s.tableRow position row = none)
    ∧ (∀ e : Event,
      (eventBytes e).length = 13
        ∧ LaidOut (eventBytes e) [(0, halfBytes e.seq), (2, wordBytes e.time), (6, [eventKindCode e.kind]),
            (7, [match e.slot with | none => 0 | some u => slotCode u]),
            (8, match e.value with | none => [0x80, 0, 0, 0] | some v => int32 v), (12, [0])])
    ∧ (let kinds : List EventKind :=
        [.poweredUp, .restarted, .rowAdopted, .planGap, .planShort, .stepOrdered, .stepDone, .stepRefused, .stepAborted, .stepTimeout,
         .unitTrip, .holdAdjusted, .portQualified, .portMismatch, .portLost, .converterConflict, .fallbackEntered, .fallbackLeft,
         .profileStarted, .profileEnded, .markerLost, .markerRestored, .loadSuperseded, .tableCommitted, .headStale, .lowSat,
         .highSat, .zoneShort]
       ∀ k, (kinds[(eventKindCode k).toNat - 1]? = some k ∧ eventKindCode k ≠ 0))
    ∧ (∀ p : Profile, p.name.length ≤ 12 →
      p.listing.length = 16
        ∧ LaidOut p.listing [(0, p.name), (p.name.length, List.replicate (12 - p.name.length) 0), (12, nat16 p.entries.length),
            (14, [byte p.minutes]), (15, flag p.rep)])
    ∧ ∀ b : Playback, (∀ n, b.profile = some n → n.length ≤ 12) →
      let name := b.profile.getD []
      b.bytes.length = 26
        ∧ LaidOut b.bytes [(0, name), (name.length, List.replicate (12 - name.length) 0),
            (12, [match b.state with | .idle => 0 | .armed => 1 | .aligned => 2 | .playing => 3 | .ended => 4]),
            (13, match b.current with | none => [0xFF, 0xFF] | some k => nat16 k), (15, time b.last), (19, time b.next),
            (23, flag b.planHanded), (24, flag b.rampHanded), (25, flag b.markerLost)]

/-- R34, R36, R113, R116, R131, R138, R139, R170: CONFIG_SET refuses an unknown parameter (index 1), a bad port (3) or name (2) and
what the owner refuses; a value held already changes nothing; otherwise the stored value is held, every other parameter is held as before, and
the owner's rule acts at once: under PROFILE an advance that a change makes due is met. A value is stored within the parameter's range
or, for a long timer, as the next representable value. The answer is OK, or CLAMPED with the value as stored.
The model's choices in it: notes/assumptions/20.md, 29.md, 42.md. -/
def Obligations.ConfigSetStores : Prop :=
  (∀ (q : Param) (v : Int),
    let range (lo hi : Int) := q.store v = some (max lo (min hi v)).toNat
    let long (least : Nat) := q.store v = some (if v ≤ 0 then least else longTimer v.toNat)
    let named := q.store v = if v = 0 then some 0 else if v = 1 then some 1 else none
    match q with
    | .rampRate => range 0 2000
    | .regLimit => range 0 5000
    | .deadband => range 0 50
    | .dwell | .refusalBackoff => long 0
    | .planAdvance => range 0 1800
    | .rampAdvance => range 0 900
    | .linkTimeout | .markerDivider => range 1 60
    | .levelTimeout => long 1
    | .unitTimeout => range 1 10
    | .ackTimeout => range 1 15
    | .headLoss => range 0 500
    | .headOverride => range 0 10000
    | .converters => range 0 2
    | .maxConcurrent => range 1 8
    | .markerOutWidth => range 1 25
    | .markerMode | .markerPolarity | .autoResume | .ackMode _ => named)
  ∧ (∀ param port : Byte,
    let numbered : List Param := [.rampRate, .regLimit, .deadband, .dwell, .planAdvance, .rampAdvance, .linkTimeout, .levelTimeout,
      .unitTimeout, .ackTimeout, .refusalBackoff, .headLoss, .headOverride, .converters, .maxConcurrent, .markerMode,
      .markerDivider, .markerPolarity, .markerOutWidth, .autoResume]
    (∀ q, numbered[param.toNat - 1]? = some q → param ≠ 0 → paramOfCode param port = .ok q)
    ∧ (param = 0 ∨ 21 < param.toNat → paramOfCode param port = .error 1)
    ∧ (param = 21 →
        (port = 0 ∨ 8 < port.toNat → paramOfCode param port = .error 3)
        ∧ ∀ p, Port.all[port.toNat - 1]? = some p → port ≠ 0 → paramOfCode param port = .ok (.ackMode p)))
  ∧ ∀ (tag param port : Byte) (value : Word) (s : State),
    (∀ i, paramOfCode param port = .error i →
        exec (.configSet tag param value port) s = .next (s.replied tag 2 1 .invalid i))
    ∧ ∀ q, paramOfCode param port = .ok q →
      (q.store value.toInt = none → exec (.configSet tag param value port) s = .next (s.replied tag 2 1 .invalid 2))
      ∧ ∀ n, q.store value.toInt = some n →
        let code : Code := if (n : Int) = value.toInt then .ok else .clamped
        let body : List Byte := if (n : Int) = value.toInt then [] else [param] ++ int32 n ++ [port]
        let refused := (q = .headOverride ∧ n = 0 ∧ s.pli.part ≠ .standby ∧ s.head.estimate = none)
          ∨ (q = .markerMode ∧ (s.prf.playback.state = .armed ∨ s.prf.playback.state = .aligned
              ∨ s.prf.playback.state = .playing))
        (s.held q = n → exec (.configSet tag param value port) s = .next (s.replied tag 2 1 code 0 body))
        ∧ (s.held q ≠ n → refused → exec (.configSet tag param value port) s = .next (s.replied tag 2 1 .state))
        ∧ (s.held q ≠ n → ¬ refused → ∃ t, exec (.configSet tag param value port) s
              = .next (t.sendUp (.reply tag 2 1 code 0 body))
            ∧ t.held q = n ∧ (∀ r, r ≠ q → t.held r = s.held r)
            ∧ (let b : State := match q with
                | .ackMode p => { s with
                    pli := { s.pli with framer := none }
                    ports := s.ports.set p { s.portRec p with ackMode := if n = 0 then .confirmed else .unconfirmed } }
                | _ => { s with pli := { s.pli with framer := none, params := t.params } }
               let resettled := ∀ u, (t.unitRec u).core =
                 if t.headInUse = s.headInUse then (s.unitRec u).core
                 else { (s.unitRec u).core with
                   hold := (s.unitRec u).hold.map (fun h => { h with settled := h.settledAgainst (t.record u) }) }
               match q with
               | .rampRate => CascadeFrame { b with tgt := { s.tgt with
                   ramped := if n = 0 ∧ s.pli.part ≠ .standby then s.tgt.reqBase else s.tgt.ramped } } t
               | .regLimit => CascadeFrame { b with tgt := { s.tgt with
                   increment := max (-(n : Int)) (min n s.tgt.increment) } } t
               | .planAdvance | .rampAdvance =>
                 let due (advance : Nat) (p : Profile) (k : Nat) : Prop := s.playing = some p
                   ∧ s.prf.playback.nextEntry p = some k ∧ ∃ e, s.prf.playback.next = some e
                   ∧ reached s.clock (e - BitVec.ofNat 32 (min advance (60 * p.minutes))) = true
                 let plan (p : Profile) (k : Nat) := s.prf.playback.planHanded = false ∧ due t.params.planAdvance p k
                 let ramp (p : Profile) (k : Nat) := s.prf.playback.rampHanded = false ∧ due t.params.rampAdvance p k
                 PlayFrame b t
                 ∧ t.prf.playback = { s.prf.playback with
                     planHanded := t.prf.playback.planHanded, rampHanded := t.prf.playback.rampHanded }
                 ∧ t.tgt = { s.tgt with plan := t.tgt.plan, reqBase := t.tgt.reqBase, ramped := t.tgt.ramped }
                 ∧ ((∀ p k, ¬ plan p k) → t.prf.playback.planHanded = s.prf.playback.planHanded ∧ t.tgt.plan = s.tgt.plan)
                 ∧ ((∀ p k, ¬ ramp p k) → t.prf.playback.rampHanded = s.prf.playback.rampHanded
                     ∧ t.tgt.reqBase = s.tgt.reqBase ∧ t.tgt.ramped = s.tgt.ramped)
                 ∧ (∀ p k, plan p k → t.prf.playback.planHanded = true
                     ∧ t.tgt.plan = if s.tgt.source = .profile then p.entries.getD k 0 else s.tgt.plan)
                 ∧ ∀ p k, ramp p k → t.prf.playback.rampHanded = true
                     ∧ (s.tgt.source ≠ .profile → t.tgt = s.tgt)
                     ∧ (s.tgt.source = .profile →
                       let v := clampPlant (p.entries.getD k 0)
                       t.tgt.reqBase = v
                         ∧ t.tgt.ramped = if s.jumps = true ∧ v ≠ s.tgt.reqBase then v else s.tgt.ramped)
               | .headLoss => HeadFrame b t ∧ resettled ∧ t.head = (match s.head.levels with
                 | none => s.head
                 | some (upper, lower) =>
                   let raw : Int := (upper : Int) - lower - n
                   { s.head with
                     estimate := some (max 0 (min 10000 raw)).toNat
                     clamped := decide (raw < 0 ∨ 10000 < raw) })
               | .headOverride => HeadFrame b t ∧ resettled ∧ t.head = s.head
               | .markerMode | .markerDivider => CascadeFrame { b with prf := { s.prf with divider := 0 } } t
               | .markerPolarity => CascadeFrame { b with prf := { s.prf with divider := 0, pulse := none } } t
               | _ => CascadeFrame b t))

/-! ## Loads -/

/-- R23, R24, R39, R86, R167, R168: LOAD_BEGIN opens a buffer, with LOAD_SUPERSEDED and its detail where one stood; LOAD_ROW stores a row of
the position's form under its index, a header and a waterway row with their adjusted fields, and leaves every other row; LOAD_ABORT drops
the buffer. Each is refused as its rule says.
The model's choices in it: notes/assumptions/29.md. -/
def Obligations.LoadsFillTheBuffer : Prop :=
  (let length (p : TablePos) (i : Nat) : Nat := match p with
     | .cap _ => if i = 0 then 13 else 12
     | .plan => 7
     | .waterway => if i = 4 then 8 else 11
   let signed (hi lo : Byte) : Int := (hi ++ lo : BitVec 16).toInt
   let unsigned (hi lo : Byte) : Nat := (hi ++ lo : BitVec 16).toNat
   let timeout (given sent : Nat) : Nat := if sent = 0 then given else longTimer sent
   let changes (sent : Nat) : Prop := sent ≠ 0 ∧ longTimer sent ≠ sent
   (∀ p i row, p.readRow i row = none ↔ row.length ≠ length p i)
   ∧ (∀ u (n c1 c0 g1 g0 p1 p0 r1 r0 d1 d0 t1 t0 : Byte), ∃ changed,
      (TablePos.cap u).readRow 0 [n, c1, c0, g1, g0, p1, p0, r1, r0, d1, d0, t1, t0] = some (.capHeader
          { count := n.toNat, condense := max 0 (min 500 (signed c1 c0)), gStart := timeout 120 (unsigned g1 g0)
            pStart := timeout 400 (unsigned p1 p0), prime := timeout 60 (unsigned r1 r0), deprime := timeout 60 (unsigned d1 d0)
            stop := timeout 300 (unsigned t1 t0) }, changed)
        ∧ (changed = true ↔ signed c1 c0 < 0 ∨ 500 < signed c1 c0 ∨ changes (unsigned g1 g0) ∨ changes (unsigned p1 p0)
            ∨ changes (unsigned r1 r0) ∨ changes (unsigned d1 d0) ∨ changes (unsigned t1 t0)))
   ∧ (∀ u i (h1 h0 a1 a0 b1 b0 l1 l0 z1 z0 p1 p0 : Byte), i ≠ 0 →
      (TablePos.cap u).readRow i [h1, h0, a1, a0, b1, b0, l1, l0, z1, z0, p1, p0] = some (.breakpoint
          { head := unsigned h1 h0, genMin := signed a1 a0, genMax := signed b1 b0, rzLo := signed l1 l0, rzHi := signed z1 z0
            pump := signed p1 p0 }, false))
   ∧ (∀ i (l1 l0 z1 z0 p c g : Byte), TablePos.plan.readRow i [l1, l0, z1, z0, p, c, g] = some (.plan
        { lower := signed l1 l0, upper := signed z1 z0, nPmp := p.toNat, nCnd := c.toNat, nGen := g.toNat }, false))
   ∧ (∀ i (n s1 s0 m k l1 l0 f h w c : Byte), i ≠ 4 → ∃ changed,
      TablePos.waterway.readRow i [n, s1, s0, m, k, l1, l0, f, h, w, c] = some (.waterway
          { slots := n.toNat, settle := timeout 0 (unsigned s1 s0), mixing := m, kinds := k, lead := unsigned l1 l0
            firstHigh := f.toNat, high := h.toNat, low := w.toNat, count := c.toNat }, changed)
        ∧ (changed = true ↔ changes (unsigned s1 s0)))
   ∧ ∀ row : List Byte, row.length = 8 → TablePos.waterway.readRow 4 row = some (.places row, false))
  ∧ ∀ (tag : Byte) (s : State),
    (∀ position rows,
      (tablePosOfCode position = none → exec (.loadBegin tag position rows) s = .next (s.replied tag 2 3 .notFound))
      ∧ ∀ pos, tablePosOfCode position = some pos →
        (pos = .waterway → s.pli.part ≠ .standby →
            exec (.loadBegin tag position rows) s = .next (s.replied tag 2 3 .state))
        ∧ ((pos = .waterway → s.pli.part = .standby) →
          let fits := match pos with
            | .cap _ => 3 ≤ rows.toNat ∧ rows.toNat ≤ 7
            | .plan => 1 ≤ rows.toNat ∧ rows.toNat ≤ 24
            | .waterway => rows.toNat = 5
          let opened (x : State) : State := { x with pli := { x.pli with load := some { pos := pos, count := rows.toNat, rows := [] } } }
          (¬ fits → exec (.loadBegin tag position rows) s = .next (s.replied tag 2 3 .invalid))
          ∧ (fits → s.pli.load = none →
              exec (.loadBegin tag position rows) s = .next ((opened s).replied tag 2 3 .ok))
          ∧ (fits → ∀ l, s.pli.load = some l →
              exec (.loadBegin tag position rows) s
                = .next ((opened (s.post .loadSuperseded none (some (tablePosCode l.pos)))).replied tag 2 3 .ok
                    (256 * tablePosCode l.pos + l.rows.length)))))
    ∧ (s.pli.load = none → ∀ index row, exec (.loadRow tag index row) s = .next (s.replied tag 2 4 .noLoad))
    ∧ (∀ l index row, s.pli.load = some l →
      (l.count ≤ index.toNat ∨ l.pos.readRow index.toNat row = none →
        exec (.loadRow tag index row) s = .next (s.replied tag 2 4 .invalid index.toNat))
      ∧ ∀ r changed, index.toNat < l.count → l.pos.readRow index.toNat row = some (r, changed) →
        l.rows.Pairwise (fun a b => a.1 < b.1) →
        ∃ kept, exec (.loadRow tag index row) s
            = .next (({ s with pli := { s.pli with load := some { l with rows := kept } } }).replied tag 2 4
                (if changed then .clamped else .ok) 0 (if changed then index :: rowBytes r else []))
          ∧ kept.Pairwise (fun a b => a.1 < b.1)
          ∧ ∀ i q, (i, q) ∈ kept ↔ (i = index.toNat ∧ q = r) ∨ (i ≠ index.toNat ∧ (i, q) ∈ l.rows))
    ∧ (s.pli.load = none → exec (.loadAbort tag) s = .next (s.replied tag 2 6 .noLoad))
    ∧ ∀ l, s.pli.load = some l →
        exec (.loadAbort tag) s = .next (({ s with pli := { s.pli with load := none } }).replied tag 2 6 .ok)

/-- R25, R26, R40, R41, R86, R87, R169: LOAD_END refuses in the order of its table (no load, WATERWAY outside STANDBY, the lowest
missing row, the first row that fails, a busy waterway, whose buffer is kept) and otherwise commits: a capability table for its
slot with the hold settled again, a mode plan with row selection afresh while the part governs, or a waterway table.
The model's choices in it: notes/assumptions/33.md. -/
def Obligations.LoadEndCommits : Prop :=
  ∀ (tag : Byte) (s : State),
    (s.pli.load = none → exec (.loadEnd tag) s = .next (s.replied tag 2 5 .noLoad))
    ∧ ∀ l, s.pli.load = some l →
      let dropped : State := { s with pli := { s.pli with load := none } }
      let taken : State := { s with pli := { s.pli with load := none, framer := none } }
      let done (t : State) : State := t.sendUp (.reply tag 2 5 .ok 0 [])
      (l.pos = .waterway → s.pli.part ≠ .standby → exec (.loadEnd tag) s = .next (s.replied tag 2 5 .state))
      ∧ ((l.pos = .waterway → s.pli.part = .standby) →
        (∀ i, i < l.count → l.row i = none → (∀ j, j < i → (l.row j).isSome = true) →
          exec (.loadEnd tag) s = .next (dropped.replied tag 2 5 .incomplete i))
        ∧ (∀ i, (∀ j, j < l.count → (l.row j).isSome = true) → i < l.count → l.passes i = false →
          (∀ j, j < i → l.passes j = true) → exec (.loadEnd tag) s = .next (dropped.replied tag 2 5 .invalid i))
        ∧ (∀ u h bs, l.pos = .cap u → l.rows = (Row.capHeader h :: bs.map .breakpoint).mapIdx Prod.mk →
          l.count = bs.length + 1 → CapTable.Wf { header := h, points := bs } →
          ∃ t, exec (.loadEnd tag) s = .next (done t)
            ∧ t.head = { s.head with caps := s.head.caps.set u (some { header := h, points := bs }) }
            ∧ HeadFrame (taken.post .tableCommitted none (some (slotCode u).toNat)) t
            ∧ (∀ v, v ≠ u → (t.unitRec v).core = (s.unitRec v).core)
            ∧ (t.unitRec u).core = { (s.unitRec u).core with
                hold := (s.unitRec u).hold.map (fun x => { x with settled := x.settledAgainst (t.record u) }) })
        ∧ (∀ rs, l.pos = .plan → l.rows = (rs.map Row.plan).mapIdx Prod.mk → l.count = rs.length →
          (∀ r ∈ rs, r.sound = true) →
          ∃ t, exec (.loadEnd tag) s = .next (done t)
            ∧ SelectFrame (({ taken with pln := { s.pln with table := some rs } }).post .tableCommitted none (some 9)) t
            ∧ (s.pli.part = .standby → t.pln = { s.pln with table := some rs })
            ∧ (s.pli.part ≠ .standby →
                t.pln.selected = rs.findIdx? (fun r => decide (r.lower ≤ s.tgt.plan ∧ s.tgt.plan ≤ r.upper))
                  ∧ t.pln.proposal = none))
        ∧ (∀ a b c d ns, l.pos = .waterway → l.count = 5 →
          l.rows = [Row.waterway a, .waterway b, .waterway c, .waterway d, .places ns].mapIdx Prod.mk →
          (∀ r ∈ [a, b, c, d], r.sound = true) → ns.length = 8 → (∀ n ∈ ns, 1 ≤ n.toNat ∧ n.toNat ≤ 4) →
          ((∃ w r, s.waterwayRec w = some r ∧ r.inProgress ≠ 0) →
            exec (.loadEnd tag) s = .next (s.replied tag 2 5 .busy))
          ∧ ((∀ w r, s.waterwayRec w = some r → r.inProgress = 0) →
            ∃ t, exec (.loadEnd tag) s = .next (done t)
              ∧ CascadeFrame (({ taken with trs := t.trs }).post .tableCommitted none (some 10)) t
              ∧ (∀ (i : Nat) (w : Waterway) (row : WaterwayRow), Waterway.all[i]? = some w → [a, b, c, d][i]? = some row →
                  ∃ r, t.waterwayRec w = some r ∧ r.row = row ∧ r.inProgress = 0 ∧ r.settle = none ∧ r.generator = none)
              ∧ ∀ (i : Nat) (u : Slot), Slot.all[i]? = some u → t.waterwayOf u = (ns[i]?).bind waterwayOfCode)))

/-! ## Profiles and playback -/

/-- R123, R124, R125: PROFILE_DEFINE answers the first of its cases that fits, and otherwise appends a profile filled with one value;
PROFILE_WRITE answers its cases, and otherwise writes the values over the profile's entries from the first index on, every other
entry and profile staying. Values are clamped to the plant range, which gives CLAMPED with what is stored.
The model's choices in it: notes/assumptions/18.md, 29.md. -/
def Obligations.ProfilesDefinedAndWritten : Prop :=
  (∀ (tag : Byte) (name : List Byte) (count : Half) (interval rep : Byte) (fill : Option Half) (s : State),
    let answer (c : Code) (d : Nat) := exec (.profileDefine tag name count interval rep fill) s = .next (s.replied tag 2 7 c d)
    (nameOfField name = none → answer .invalid 1)
    ∧ ∀ n, nameOfField name = some n →
      let sound := 1 ≤ count.toNat ∧ count.toNat ≤ 4096
      let timed := 1 ≤ interval.toNat ∧ interval.toNat ≤ 60
      (¬ sound → answer .invalid 2) ∧ (sound → ¬ timed → answer .invalid 3)
      ∧ (sound → timed → (s.profileNamed n).isSome = true → answer .exists_ 0)
      ∧ (sound → timed → s.profileNamed n = none →
          16 ≤ s.prf.dir.length ∨ 4096 < s.entriesHeld + count.toNat → answer .noSpace 0)
      ∧ (sound → timed → s.profileNamed n = none → s.prf.dir.length < 16 → s.entriesHeld + count.toNat ≤ 4096 →
          let given : Int := (fill.map BitVec.toInt).getD 0
          let p : Profile := { name := n, minutes := interval.toNat, rep := decide (rep ≠ 0),
                               entries := List.replicate count.toNat (clampPlant given) }
          let free := nat16 (4096 - s.entriesHeld - count.toNat)
          let shown := nameField n ++ nat16 count.toNat ++ [byte interval.toNat, if rep = 0 then 0 else 1]
            ++ int16 (clampPlant given)
          exec (.profileDefine tag name count interval rep fill) s
            = .next (({ s with prf := { s.prf with dir := s.prf.dir ++ [p] } }).replied tag 2 7
                (if clampPlant given = given then .ok else .clamped) 0
                (if clampPlant given = given then free else shown ++ free))))
  ∧ ∀ (tag : Byte) (name : List Byte) (first : Half) (count : Byte) (values : List Half) (s : State),
    let answer (c : Code) (d : Nat) := exec (.profileWrite tag name first count values) s = .next (s.replied tag 2 8 c d)
    (values.length ≠ count.toNat → answer .unknown 0)
    ∧ (values.length = count.toNat →
      (nameOfField name = none → answer .invalid 1)
      ∧ ∀ n, nameOfField name = some n →
        (count.toNat < 1 ∨ 16 < count.toNat → answer .invalid 0)
        ∧ (1 ≤ count.toNat → count.toNat ≤ 16 →
          (s.profileNamed n = none → answer .notFound 0)
          ∧ ∀ p, s.profileNamed n = some p →
            (p.entries.length < first.toNat + count.toNat → answer .invalid (max first.toNat p.entries.length))
            ∧ (first.toNat + count.toNat ≤ p.entries.length → (s.prf.dir.map (·.name)).Nodup →
              let stored := values.map (fun v => clampPlant v.toInt)
              let exact := decide (stored = values.map BitVec.toInt)
              ∃ dir, exec (.profileWrite tag name first count values) s
                  = .next (({ s with prf := { s.prf with dir := dir } }).replied tag 2 8 (if exact then .ok else .clamped) 0
                      (if exact then [] else nameField n ++ nat16 first.toNat ++ [count] ++ stored.flatMap int16))
                ∧ dir.length = s.prf.dir.length
                ∧ ∀ (i : Nat) (a b : Profile), s.prf.dir[i]? = some a → dir[i]? = some b →
                  b = { a with entries := b.entries } ∧ (a.name ≠ n → b = a)
                    ∧ (a.name = n → ∀ j, b.entries[j]? =
                        if first.toNat ≤ j ∧ j < first.toNat + count.toNat then stored[j - first.toNat]?
                        else a.entries[j]?))))

/-- R127: PROFILE_DELETE and PROFILE_DELETE_ALL. -/
def Obligations.ProfilesDeleted : Prop :=
  (∀ (tag : Byte) (name : List Byte) (s : State),
    (nameOfField name = none → exec (.profileDelete tag name) s = .next (s.replied tag 2 10 .invalid 1))
    ∧ ∀ n, nameOfField name = some n →
      (s.profileNamed n = none → exec (.profileDelete tag name) s = .next (s.replied tag 2 10 .notFound))
      ∧ ∀ p, s.profileNamed n = some p →
        let inUse := s.prf.playback.profile = some n ∧ (s.prf.playback.state = .armed ∨ s.prf.playback.state = .aligned
          ∨ s.prf.playback.state = .playing)
        (inUse → exec (.profileDelete tag name) s = .next (s.replied tag 2 10 .busy))
        ∧ (¬ inUse →
          let kept := s.prf.dir.filter (fun q => decide (q.name ≠ n))
          exec (.profileDelete tag name) s
            = .next (({ s with prf := { s.prf with
                dir := kept
                playback := if s.prf.playback.profile = some n then .idle else s.prf.playback } }).replied tag 2 10 .ok)
          ∧ ((s.prf.dir.map (·.name)).Nodup →
              (kept.map (fun q => q.entries.length)).sum + p.entries.length = s.entriesHeld)))
  ∧ ∀ (tag : Byte) (s : State),
    let anyInUse := s.prf.playback.state = .armed ∨ s.prf.playback.state = .aligned ∨ s.prf.playback.state = .playing
    (anyInUse → exec (.profileDeleteAll tag) s = .next (s.replied tag 2 11 .busy))
    ∧ (¬ anyInUse →
      ∃ t, exec (.profileDeleteAll tag) s = .next (t.replied tag 2 11 .ok)
        ∧ t = { s with prf := { s.prf with dir := [], playback := .idle } } ∧ t.freeTotal = 4096
        ∧ (s.prf.dir = [] → s.prf.playback = .idle → t = s))

/-- R129, R130, R133: PLAY takes a defined profile, but not in FALLBACK under PROFILE; in FOLLOW mode the record is ARMED with the divider
count 0, and in LEAD mode the profile's first entry begins at once with a marker pulse. STOP_PLAY leaves the record IDLE.
The model's choices in it: notes/assumptions/3.md, 46.md. -/
def Obligations.PlayAndStop : Prop :=
  (∀ (tag : Byte) (name : List Byte) (s : State),
    let answer (c : Code) (d : Nat) := exec (.play tag name) s = .next (s.replied tag 2 12 c d)
    (nameOfField name = none → answer .invalid 1)
    ∧ ∀ n, nameOfField name = some n →
      (s.profileNamed n = none → answer .notFound 0)
      ∧ ∀ p, s.profileNamed n = some p →
        let frozen := s.inFallback = true ∧ s.tgt.source = .profile
        (frozen → answer .state 0)
        ∧ (¬ frozen →
          let taken (st : PlayState) : Playback := { Playback.idle with profile := some n, state := st }
          (s.params.markerMode = .follow →
            exec (.play tag name) s
              = .next (({ s with prf := { s.prf with playback := taken .armed, divider := 0 } }).replied tag 2 12 .ok))
          ∧ (s.params.markerMode = .lead → p.minutes ≤ 60 → ∃ m t, exec (.play tag name) s = .next (t.replied tag 2 12 .ok)
              ∧ EntryBegins
                  { s with pli := { s.pli with framer := none }, prf := { s.prf with playback := taken .aligned } } m p 0
              ∧ CascadeFrame
                  (({ m with prf := { m.prf with pulse := some s.params.markerOutWidth } }).post .profileStarted none
                    (some p.entries.length)) t)))
  ∧ ∀ (tag : Byte) (s : State),
    let frozen := s.inFallback = true ∧ s.tgt.source = .profile
    (frozen → exec (.stopPlay tag) s = .next (s.replied tag 2 13 .state))
    ∧ (¬ frozen →
        exec (.stopPlay tag) s = .next (({ s with prf := { s.prf with playback := .idle } }).replied tag 2 13 .ok))

/-- R128, R132, R134 to R138: which entry follows; a counted marker, which rests the divider and pulses the output, aligns an ARMED record,
makes a boundary, or ends holdover by a boundary where half the interval has passed since the last one and by a moved expectation
otherwise; an edge that is none, or not yet a counted marker, does no more than count.
The model's choices in it: notes/assumptions/3.md, 14.md, 16.md, 38.md. -/
def Obligations.MarkerEdges : Prop :=
  (∀ (b : Playback) (p : Profile) (k : Nat),
    (b.state = .aligned → b.nextEntry p = some 0)
      ∧ (b.state = .playing → b.current = some k → b.nextEntry p
          = if k + 1 < p.entries.length then some (k + 1) else if p.rep = true then some 0 else none))
  ∧ ∀ (rising : Bool) (s : State),
    let active := s.params.markerMode = .follow ∧ (rising = true ↔ s.params.markerPolarity = .pos)
    (¬ active → exec (.markerInputEdge rising) s = .next s)
    ∧ (active → s.prf.divider + 1 < s.params.markerDivider →
        exec (.markerInputEdge rising) s = .next { s with prf := { s.prf with divider := s.prf.divider + 1 } })
    ∧ (active → s.params.markerDivider ≤ s.prf.divider + 1 →
        let b := { s with prf := { s.prf with divider := 0, pulse := some s.params.markerOutWidth } }
        let record := s.prf.playback
        (s.playing = none ∨ record.state = .idle ∨ record.state = .ended → exec (.markerInputEdge rising) s = .next b)
        ∧ ∀ p, s.playing = some p → p.minutes ≤ 60 →
          let next := some (later s.clock (60 * p.minutes))
          (record.state = .armed → ∃ t, exec (.markerInputEdge rising) s = .next t ∧ PlayFrame b t
            ∧ t.prf.playback = { record with
                state := .aligned, last := some s.clock, next := next
                planHanded := decide (60 * p.minutes ≤ s.params.planAdvance)
                rampHanded := decide (60 * p.minutes ≤ s.params.rampAdvance) }
            ∧ (s.tgt.source ≠ .profile → t.tgt = s.tgt)
            ∧ (s.tgt.source = .profile →
              let plan : Tgt := if 60 * p.minutes ≤ s.params.planAdvance then { s.tgt with plan := p.entries.getD 0 0 } else s.tgt
              t.tgt = if 60 * p.minutes ≤ s.params.rampAdvance then plan.withBase (p.entries.getD 0 0) s.jumps else plan))
          ∧ (record.state = .aligned ∨ record.state = .playing →
            (record.markerLost = false → ∃ m t, exec (.markerInputEdge rising) s = .next t ∧ Bounded b m p ∧ CascadeFrame m t)
            ∧ (record.markerLost = true →
              let passed := elapsed s.clock (record.last.getD s.clock)
              (30 * p.minutes ≤ passed → ∃ m t, exec (.markerInputEdge rising) s = .next t ∧ Bounded b m p
                ∧ CascadeFrame
                    (({ m with prf := { m.prf with playback := { m.prf.playback with markerLost := false } } }).post
                      .markerRestored none (some 1)) t)
              ∧ (passed < 30 * p.minutes → exec (.markerInputEdge rising) s
                  = .next (({ b with prf := { b.prf with playback := { record with next := next, markerLost := false } } }).post
                      .markerRestored none (some 0))))))

/-- R131, R133, R136, R138: in LEAD mode the clock makes each boundary of a PLAYING record at its expected time, with a pulse; in FOLLOW
mode it makes one itself where a marker stays out a tenth of the interval too long, or at once while MARKER_LOST stands, and sets that
flag; a switching time reached hands the next entry's value of its kind once; a pulse ends.
The model's choices in it: notes/assumptions/2.md, 3.md, 15.md. -/
def Obligations.ClockedBoundaries : Prop :=
  (∀ s : State,
    let due := s.params.markerMode = .lead ∧ s.prf.playback.state = .playing ∧ timerDue s.clock s.prf.playback.next = true
    (¬ due → exec .intervalTimerBoundary s = .next s)
    ∧ (due → ∀ p, s.playing = some p → p.minutes ≤ 60 → ∃ m t, exec .intervalTimerBoundary s = .next t ∧ Bounded s m p
        ∧ CascadeFrame { m with prf := { m.prf with pulse := some s.params.markerOutWidth } } t))
  ∧ (∀ (s : State) (p : Profile), s.playing = some p →
    let record := s.prf.playback
    let due := s.params.markerMode = .follow ∧ (record.state = .aligned ∨ record.state = .playing)
      ∧ ∃ e, record.next = some e ∧ reached s.clock (if record.markerLost then e else later e (6 * p.minutes)) = true
    (¬ due → exec .holdoverBoundary s = .next s)
    ∧ (due → p.minutes ≤ 60 → ∃ m t, exec .holdoverBoundary s = .next t ∧ Bounded s m p
        ∧ let b := { m with prf := { m.prf with pulse := some s.params.markerOutWidth } }
          CascadeFrame
            (if record.markerLost then b
              else if m.prf.playback.state = .ended then b.post .markerLost none (some 0)
              else ({ b with prf := { b.prf with playback := { m.prf.playback with markerLost := true } } }).post .markerLost none
                (some ((m.prf.playback.current.map Int.ofNat).getD 0))) t))
  ∧ (∀ (s : State) (p : Profile) (e : Word) (k : Nat), s.playing = some p → s.prf.playback.next = some e →
    s.prf.playback.nextEntry p = some k →
    (s.prf.playback.planHanded = false ∧ reached s.clock (e - BitVec.ofNat 32 (min s.params.planAdvance (60 * p.minutes))) = true →
        ∃ t, exec .planSwitchingTime s = .next t ∧ PlayFrame s t
          ∧ t.prf.playback = { s.prf.playback with planHanded := true }
          ∧ t.tgt = if s.tgt.source = .profile then { s.tgt with plan := p.entries.getD k 0 } else s.tgt)
    ∧ (s.prf.playback.rampHanded = false
          ∧ reached s.clock (e - BitVec.ofNat 32 (min s.params.rampAdvance (60 * p.minutes))) = true →
        ∃ t, exec .rampSwitchingTime s = .next t ∧ PlayFrame s t
          ∧ t.prf.playback = { s.prf.playback with rampHanded := true }
          ∧ t.tgt = if s.tgt.source = .profile then
              { s.tgt with
                reqBase := clampPlant (p.entries.getD k 0)
                ramped := if s.jumps = true ∧ clampPlant (p.entries.getD k 0) ≠ s.tgt.reqBase then clampPlant (p.entries.getD k 0)
                  else s.tgt.ramped }
            else s.tgt))
  ∧ (∀ s : State, s.duePlan = none → exec .planSwitchingTime s = .next s)
  ∧ (∀ s : State, s.dueRamp = none → exec .rampSwitchingTime s = .next s)
  ∧ ∀ s : State, exec .markerPulseEnd s = .next { s with prf := { s.prf with pulse := none } }

/-! ## Source and pattern -/

/-- R111: SOURCE_SET is refused in FALLBACK and changes nothing for the source in force; a new source DIRECT sets the planning target to
the requested base target, PROFILE moves no target, and PATTERN clears the increment and starts the generator, whose low level becomes
the base target. Leaving PATTERN stops the generator.
The model's choices in it: notes/assumptions/22.md, 46.md. -/
def Obligations.SourceChanges : Prop :=
  ∀ (tag code : Byte) (s : State),
    let answer (c : Code) := exec (.sourceSet tag code) s = .next (s.replied tag 2 14 c)
    let taken := { s with pli := { s.pli with framer := none } }
    (sourceOfCode code = none → answer .invalid)
    ∧ ∀ v, sourceOfCode code = some v →
      (s.inFallback = true → answer .state)
      ∧ (s.inFallback = false → v = s.tgt.source → answer .ok)
      ∧ (s.inFallback = false → v ≠ s.tgt.source →
        (v = .profile → exec (.sourceSet tag code) s
            = .next (({ s with tgt := { s.tgt with source := .profile, run := none } }).replied tag 2 14 .ok))
        ∧ (v = .direct → ∃ t, exec (.sourceSet tag code) s = .next (t.replied tag 2 14 .ok) ∧ TargetFrame taken t
            ∧ t.tgt = { s.tgt with source := .direct, run := none, plan := s.tgt.reqBase })
        ∧ (v = .pattern → ∃ t, exec (.sourceSet tag code) s = .next (t.replied tag 2 14 .ok) ∧ TargetFrame taken t
            ∧ t.tgt = ({ s.tgt with
                source := .pattern, increment := 0
                run := some { pos := 0, expiry := later s.clock s.tgt.pattern.period } } : Tgt).withBase s.tgt.pattern.low s.jumps))

/-- R121, R122: PATTERN_SET stores its settings brought into range and answers with them, and restarts the running generator at its low
level; at each period's expiry the generator steps to its next position and hands that position's level, which a part in FALLBACK
discards.
The model's choices in it: notes/assumptions/2.md, 29.md, 46.md. -/
def Obligations.PatternRuns : Prop :=
  (∀ (tag : Byte) (low high period : Half) (code : Byte) (s : State),
    let answer (c : Code) := exec (.patternSet tag low high period code) s = .next (s.replied tag 2 15 c)
    let frozen := s.inFallback = true ∧ s.tgt.source = .pattern
    (shapeOfCode code = none → answer .invalid)
    ∧ ∀ shape, shapeOfCode code = some shape →
      (frozen → answer .state)
      ∧ (¬ frozen →
        let p : Pattern := { low := clampPlant low.toInt, high := clampPlant high.toInt,
                             period := longTimer (max 1 period.toNat), shape := shape }
        let code' : Code := if p.low = low.toInt ∧ p.high = high.toInt ∧ p.period = period.toNat then .ok else .clamped
        let body := int16 p.low ++ int16 p.high ++ nat16 p.period ++ [code]
        (s.tgt.source ≠ .pattern → exec (.patternSet tag low high period code) s
            = .next (({ s with tgt := { s.tgt with pattern := p } }).replied tag 2 15 code' 0 body))
        ∧ (s.tgt.source = .pattern → ∃ t, exec (.patternSet tag low high period code) s = .next (t.replied tag 2 15 code' 0 body)
            ∧ TargetFrame { s with pli := { s.pli with framer := none } } t
            ∧ t.tgt = ({ s.tgt with pattern := p, run := some { pos := 0, expiry := later s.clock p.period } } : Tgt).withBase
                p.low s.jumps)))
  ∧ ∀ s : State,
    (s.tgt.run = none → exec .patternPeriodExpiry s = .next s)
    ∧ ∀ r, s.tgt.run = some r →
      (reached s.clock r.expiry = false → exec .patternPeriodExpiry s = .next s)
      ∧ (reached s.clock r.expiry = true →
        let p := s.tgt.pattern
        let pos := (r.pos + 1) % (if p.shape = .square then 2 else 8)
        let level := if p.shape = .square then (if pos = 0 then p.low else p.high)
          else p.low + (([0, 1, 2, 3, 4, 3, 2, 1] : List Int).getD pos 0 * (p.high - p.low)).tdiv 4
        let stepped : Tgt := { s.tgt with run := some { pos := pos, expiry := later s.clock p.period } }
        (s.inFallback = true → exec .patternPeriodExpiry s = .next { s with tgt := stepped })
        ∧ (s.inFallback = false → ∃ t, exec .patternPeriodExpiry s = .next t ∧ TargetFrame s t
            ∧ t.tgt = stepped.withBase level s.jumps))

/-! ## Part states -/

/-- R43, R83, R91, R118, R160: ENABLE is refused outside STANDBY and for the first unmet condition; otherwise the part is DISPATCHING with its
liveness timer restarted, the targets start at the plant actual total (the planning target but under PROFILE) with increment 0, the
lowest row that contains the planning target is selected without dwell, PLAN_GAP standing where none does, and an allocation has run.
A request still under order stays as it is; a slot without one gets what its demand asks for, MANUAL requests under the older entry
numbers, each class in rotation order.
The model's choices in it: notes/assumptions/10.md. -/
def Obligations.EnableStarts : Prop :=
  ∀ (tag : Byte) (s : State),
    let answer (c : Code) (d : Nat) := exec (.enable tag) s = .next (s.replied tag 2 16 c d)
    let lacks (u : Slot) : Prop := (s.unitRec u).port.isSome = true ∧ s.head.caps.get u = none
    (s.pli.part ≠ .standby → answer .state 0)
    ∧ (s.pli.part = .standby →
      (s.headInUse = none → answer .state 1)
      ∧ (s.headInUse.isSome = true →
        (s.pln.table = none → answer .state 2)
        ∧ ∀ rows, s.pln.table = some rows →
          (s.trs.waterways = none → answer .state 3)
          ∧ (s.trs.waterways.isSome = true →
            (∀ u, lacks u → (∀ v, (slotCode v).toNat < (slotCode u).toNat → ¬ lacks v) → answer .state (4 + (slotCode u).toNat))
            ∧ ((∀ u, ¬ lacks u) →
              let x := clampPlant s.plantActual
              let plan := if s.tgt.source = .profile then s.tgt.plan else x
              ∃ t, exec (.enable tag) s = .next (t.replied tag 2 16 .ok)
                ∧ SelectFrame
                    { s with
                      pli := { s.pli with
                        framer := none, part := .dispatching, linkSilent := false
                        liveness := some (later s.clock s.params.linkTimeout) }
                      tgt := { s.tgt with ramped := x, reqBase := x, plan := plan, increment := 0 } } t
                ∧ t.pln.selected = rows.findIdx? (fun r => decide (r.lower ≤ plan ∧ plan ≤ r.upper))
                ∧ t.pln.gap = t.pln.selected.isNone ∧ t.pln.proposal = none
                ∧ t.alc.last.map (·.target) = some (clampPlant x)
                ∧ (∀ u, s.underOrder u = true → t.req u = s.req u)
                ∧ (s.ros.rotation.Perm Slot.all →
                  let held (u : Slot) : Bool := (s.unitRec u).hold.isSome
                  let first := s.ros.rotation.filter held ++ s.ros.rotation.filter (fun u => !held u)
                  let made := first.filter (fun u => (s.req u).isNone && (t.req u).isSome)
                  (∀ u, s.req u = none → ∃ entry, (t.req u).map Request.aim = t.renewed u entry (t.pln.desired.get u))
                  ∧ ∀ (i : Nat) (u : Slot), made[i]? = some u →
                      (t.req u).map (·.entry) = some (s.trs.entryCounter + BitVec.ofNat 32 i))))))

/-- R42, R83, R90, R163, R164: DISABLE in DISPATCHING or FALLBACK passes to STANDBY, with FALLBACK_LEFT 0 from FALLBACK; the planner and the
allocator are cleared, every request without an order ends, and every request under order is left to end with its step. RESUME in
AWAIT_RESUME passes to DISPATCHING with FALLBACK_LEFT 1 and the pattern's current level. Both are refused elsewhere.
The model's choices in it: notes/assumptions/23.md. -/
def Obligations.DisableAndResume : Prop :=
  (∀ (tag : Byte) (s : State),
    (s.pli.part = .standby → exec (.disable tag) s = .next (s.replied tag 2 17 .state))
    ∧ (s.pli.part ≠ .standby →
      let b := { s with pli := { s.pli with framer := none, part := .standby } }
      ∃ t, exec (.disable tag) s = .next (t.replied tag 2 17 .ok)
        ∧ CascadeFrame
            { (if s.inFallback then b.post .fallbackLeft none (some 0) else b) with pln := .cleared s.pln.table, alc := .cleared } t
        ∧ t.pln = .cleared s.pln.table ∧ t.alc = .cleared
        ∧ ∀ u, t.req u = (s.req u).bind (fun r =>
            let dest := (r.current.map (fun st => st.kind.dest)).getD r.dest
            if r.state = .ordered ∨ r.state = .inStep
            then some { r with dest := dest, redirected := r.redirected || r.dest != dest } else none)))
  ∧ ∀ (tag : Byte) (s : State),
    (s.pli.part ≠ .fallback .awaitResume → exec (.resume tag) s = .next (s.replied tag 2 18 .state))
    ∧ (s.pli.part = .fallback .awaitResume →
      ∃ t, exec (.resume tag) s = .next (t.replied tag 2 18 .ok)
        ∧ TargetFrame
            (({ s with pli := { s.pli with framer := none, part := .dispatching } }).post .fallbackLeft none (some 1)) t
        ∧ t.tgt = match s.tgt.source, s.tgt.run with
          | .pattern, some r => s.tgt.withBase (s.tgt.pattern.level r.pos) (s.params.rampRate == 0)
          | _, _ => s.tgt)

/-! ## Roster and lines -/

/-- R1, R2, R79, R88, R138, R145, R149, R153, R154, R178, R179: MAP_SET, in STANDBY alone, takes a slot's port away and gives it the one named,
which is PROBING with a PROBE handed; the slot is never heard, and a port that was QUALIFIED leaves that state, with its request under
order ended and orphaned. EXPECT_SET writes an expected number, LINE_SET a line. Each refusal names its field. The level of a monitor
line is that of its selection's condition and its polarity; the marker output is at its active level during a pulse, and a warning line
high in the high phase of its pattern.
The model's choices in it: notes/assumptions/36.md, 43.md, 46.md. -/
def Obligations.MapExpectLines : Prop :=
  (∀ (tag slot port : Byte) (s : State),
    let answer (c : Code) (d : Nat) := exec (.mapSet tag slot port) s = .next (s.replied tag 2 20 c d)
    let named := port = 0 ∨ (portOfCode port).isSome = true
    (slotOfCode slot = none → answer .invalid 1)
    ∧ ∀ u, slotOfCode slot = some u →
      (¬ named → answer .invalid 2)
      ∧ (named →
        let p := portOfCode port
        let r := s.unitRec u
        let taken := ∃ q v, p = some q ∧ v ≠ u ∧ (s.unitRec v).port = some q
        (s.pli.part ≠ .standby → answer .state 0)
        ∧ (s.pli.part = .standby → taken → answer .invalid 2)
        ∧ (s.pli.part = .standby → ¬ taken → r.port = p → answer .ok 0)
        ∧ (s.pli.part = .standby → ¬ taken → r.port ≠ p → RosterWf s →
          let qualified := ∃ q, r.port = some q ∧ (s.portRec q).state = .qualified
          ∃ t : State, exec (.mapSet tag slot port) s = .next (t.replied tag 2 20 .ok)
            ∧ ((r.port = none → t.unitRec u = { r with port := p })
              ∧ (r.port.isSome = true → ¬ qualified → t.unitRec u = { r with port := p, report := none, lastSetpoint := none })
              ∧ (qualified → t.unitRec u = { r.left with port := p, report := none })
              ∧ ∀ v, v ≠ u → t.unitRec v = s.unitRec v)
            ∧ ((∀ q, p = some q → t.portRec q
                  = ({ s.portRec q with state := .probing, lastMachine := none, outstanding := none } : PortRec).probed s.clock)
              ∧ (∀ q, r.port = some q → ¬ qualified → t.portRec q = { s.portRec q with state := .unused, probe := none, queue := [] })
              ∧ (∀ q, r.port = some q → qualified → t.portRec q = (s.portRec q).left .unused)
              ∧ ∀ q, p ≠ some q → r.port ≠ some q → t.portRec q = s.portRec q)
            ∧ (¬ qualified → t.orphan u = s.orphan u)
            ∧ (qualified → t.orphan u = (if s.underOrder u then (s.req u).map Request.orphaned else s.orphan u)
              ∧ (∃ why, t.req u = ((s.req u).bind Request.left).map (fun q => { q with blocked := why }))
              ∧ ∀ q c, s.req u = some q → q.ordered = true → q.conv = some c → t.holder c = some { slot := u, kind := .orphaned })
            ∧ t.pli = { s.pli with framer := none } ∧ t.pending = s.pending ∧ t.ros.rotation = s.ros.rotation
            ∧ t.head = s.head ∧ t.tgt = s.tgt ∧ t.prf = s.prf ∧ t.pln = s.pln ∧ t.alc = s.alc ∧ t.ste = s.ste
            ∧ t.plantOut = s.plantOut)))
  ∧ (∀ (tag slot number : Byte) (s : State),
    let answer (d : Nat) := exec (.expectSet tag slot number) s = .next (s.replied tag 2 21 .invalid d)
    (slotOfCode slot = none → answer 1)
    ∧ ∀ u, slotOfCode slot = some u →
      (number = 0 → answer 2)
      ∧ (number ≠ 0 → exec (.expectSet tag slot number) s
          = .next ((s.setUnit u { s.unitRec u with expected := number }).replied tag 2 21 .ok)))
  ∧ (∀ (tag line selection polarity : Byte) (s : State),
    let answer (d : Nat) := exec (.lineSet tag line selection polarity) s = .next (s.replied tag 2 26 .invalid d)
    let known := line = 1 ∨ line = 2
    (¬ known → answer 1)
    ∧ (known → selectionOfCode selection = none → answer 2)
    ∧ ∀ sel, selectionOfCode selection = some sel → known →
      (polarity ≠ 0 → polarity ≠ 1 → answer 3)
      ∧ (polarity = 0 ∨ polarity = 1 →
        let m : MonitorLine := { selection := sel, activeLow := decide (polarity = 1) }
        exec (.lineSet tag line selection polarity) s
          = .next (({ s with ste := if line = 1 then { s.ste with m1 := m } else { s.ste with m2 := m } }).replied tag 2 26 .ok)))
  ∧ ∀ s : State,
    (∀ m : MonitorLine,
      let level (met : Prop) : Prop := s.lineHigh m = true ↔ (met ↔ m.activeLow = false)
      match m.selection with
      | .boundary => level (s.prf.pulse.isSome = true)
      | .fallback => level (∃ f, s.pli.part = .fallback f)
      | .converterBusy => level (∃ c, (s.holder c).isSome = true)
      | .transition => level (∃ u r, s.req u = some r ∧ (r.state = .ordered ∨ r.state = .inStep))
      | .saturated => level (s.alc.lowSat = true ∨ s.alc.highSat = true ∨ s.alc.zoneShort = true)
      | .planGap => level (s.pln.gap = true)
      | .forcedLow => s.lineHigh m = false
      | .forcedHigh => s.lineHigh m = true)
    ∧ (s.markerHigh = true ↔ (s.prf.pulse.isSome = true ↔ s.params.markerPolarity = .pos))
    ∧ ∀ w, s.warningHigh w = true ↔ ∃ r g, s.waterwayRec w = some r ∧ r.generator = some g ∧ g.high = true

/-- R19 to R21: ROTATION_SET takes a list that holds each slot once and refuses any other with its first bad entry; ROTATE puts the head at
the tail. -/
def Obligations.RotationChanges : Prop :=
  (∀ (tag : Byte) (slots : List Byte) (s : State),
    let answer (d : Nat) := exec (.rotationSet tag slots) s = .next (s.replied tag 2 22 .invalid d)
    let good (i : Nat) : Prop := ∃ c, slots[i]? = some c ∧ (slotOfCode c).isSome = true ∧ ∀ j < i, slots[j]? ≠ some c
    (slots.length ≠ 8 → answer 0)
    ∧ (∀ i < 8, slots.length = 8 → (∀ j < i, good j) → ¬ good i → answer (i + 1))
    ∧ ∀ order : List Slot, order.Nodup → order.length = 8 → slots = order.map slotCode →
        ∃ t, exec (.rotationSet tag slots) s = .next (t.replied tag 2 22 .ok)
          ∧ CascadeFrame { s with pli := { s.pli with framer := none }, ros := { s.ros with rotation := order } } t)
  ∧ ∀ (tag : Byte) (s : State) (u : Slot) (rest : List Slot), s.ros.rotation = u :: rest →
      ∃ t, exec (.rotate tag) s = .next (t.replied tag 2 23 .ok)
        ∧ CascadeFrame { s with pli := { s.pli with framer := none }, ros := { s.ros with rotation := rest ++ [u] } } t

/-- R11, R12, R80: CLEAR_UNIT clears a slot's marks and backoff, but not a trip mark under a report other than SS; an expired backoff ends;
RELEASE_RESOURCES frees the slot's orphaned resources, starting its waterway's settle timer, and its observed converters.
The model's choices in it: notes/assumptions/2.md, 22.md. -/
def Obligations.MarksAndResources : Prop :=
  (∀ (tag slot : Byte) (s : State),
    (slotOfCode slot = none → exec (.clearUnit tag slot) s = .next (s.replied tag 2 24 .invalid))
    ∧ ∀ u, slotOfCode slot = some u →
      let stands := (s.unitRec u).trip = true ∧ s.reported u ≠ some (.stable .ss)
      (stands → exec (.clearUnit tag slot) s = .next (s.replied tag 2 24 .state))
      ∧ (¬ stands → ∃ t, exec (.clearUnit tag slot) s = .next (t.replied tag 2 24 .ok)
          ∧ CascadeFrame
              (({ s with pli := { s.pli with framer := none } }).setUnit u
                { s.unitRec u with trip := false, fault := false, backoff := none }) t))
  ∧ (∀ (u : Slot) (s : State),
    (timerDue s.clock (s.unitRec u).backoff = false → exec (.backoffExpiry u) s = .next s)
    ∧ (timerDue s.clock (s.unitRec u).backoff = true → ∃ t, exec (.backoffExpiry u) s = .next t
        ∧ CascadeFrame (s.setUnit u { s.unitRec u with backoff := none }) t))
  ∧ ∀ (tag slot : Byte) (s : State),
    (slotOfCode slot = none → exec (.releaseResources tag slot) s = .next (s.replied tag 2 25 .invalid))
    ∧ ∀ u, slotOfCode slot = some u →
      let stray := (s.orphan u).isSome = true ∨ ∃ c, s.holder c = some { slot := u, kind := .observed }
      (¬ stray → exec (.releaseResources tag slot) s = .next (s.replied tag 2 25 .notFound))
      ∧ (stray → ∃ t, exec (.releaseResources tag slot) s = .next (t.replied tag 2 25 .ok)
          ∧ CascadeFrame { s with pli := { s.pli with framer := none } } t
          ∧ t.orphan u = none ∧ (∀ v, v ≠ u → t.orphan v = s.orphan v)
          ∧ (∀ c, t.holder c ≠ some { slot := u, kind := .observed })
          ∧ (∀ o c, s.orphan u = some o → o.conv = some c → t.holder c = none ∨ ∃ v, t.holder c = some { slot := v, kind := .granted })
          ∧ ∀ o w r, s.orphan u = some o → o.slotHeld = true → s.waterwayOf u = some w → s.waterwayRec w = some r →
              (t.waterwayRec w).map (·.settle) = some (if r.row.settle = 0 then none else some (later s.clock r.row.settle)))

/-! ## Unit link -/

/-- R142, R144, R146, R149: an IDENT on a mapped port is compared with the expected number: agreement qualifies a probing port; disagreement
puts it in MISMATCH, from QUALIFIED with all that its departure does and a PROBE at once. The last machine number is noted, and
anything else the frame says is ignored. A port that leaves QUALIFIED takes its slot's request, converter and orders with it (R79).
The model's choices in it: notes/assumptions/5.md, 13.md, 37.md. -/
def Obligations.IdentFrames : Prop :=
  ∀ (p : Port) (number : Byte) (s : State),
    let taken := s.setPort p { s.portRec p with framer := none }
    (s.slotOf p = none ∨ number = 0 ∨ (s.portRec p).state = .unused → exec (.ident p number) s = .next taken)
    ∧ ∀ u, s.slotOf p = some u → number ≠ 0 → (s.portRec p).state ≠ .unused →
      let noted : PortRec := { s.portRec p with framer := none, lastMachine := some number }
      let b := s.setPort p noted
      let same := number = (s.unitRec u).expected
      (same → (s.portRec p).state = .qualified → exec (.ident p number) s = .next b)
      ∧ (same → (s.portRec p).state ≠ .qualified → ∃ t, exec (.ident p number) s = .next t
          ∧ CascadeFrame
              ((s.setPort p { noted with
                state := .qualified, probe := none, liveness := some (later s.clock s.params.unitTimeout) }).post
                  .portQualified (some u) (some number.toNat)) t)
      ∧ (¬ same → (s.portRec p).state = .mismatch → exec (.ident p number) s = .next b)
      ∧ (¬ same → (s.portRec p).state ≠ .mismatch → (s.portRec p).state ≠ .qualified →
          ∃ t, exec (.ident p number) s = .next t
            ∧ t.portRec p = { noted with state := .mismatch }
            ∧ CascadeFrame ((s.setPort p { noted with state := .mismatch }).post .portMismatch (some u) (some number.toNat)) t)
      ∧ (¬ same → (s.portRec p).state = .qualified → ∃ t, exec (.ident p number) s = .next t
          ∧ PortGone b t p u (noted.left .mismatch)
          ∧ CascadeFrame
              (((s.setPort p ((noted.left .mismatch).probed s.clock)).setUnit u (s.unitRec u).left).post
                .portMismatch (some u) (some number.toNat)) t)

/-- R3, R6, R9, R17, R62, R72, R80, R81, R142, R147: a STATUS counts on a QUALIFIED port alone and only with known codes. It restarts the
port's liveness timer and writes the slot's reported fields, the converter only with P_START; entry to GEN forgets the last setpoint;
TRIP sets the trip mark, with its event where it was clear; and under an emergency hold a STOP is sent where the mode runs and none is
outstanding. Then the slot's request is judged (`Obligations.StepSupervision` says how), its demand compared, and the other blocks follow.
A stable mode or TRIP releases the orphan record; an unrequested P_START that names a converter observes it or conflicts, and any other
report frees what the slot observes.
The model's choices in it: notes/assumptions/5.md, 25.md, 37.md. -/
def Obligations.StatusFrames : Prop :=
  ∀ (p : Port) (mode : Byte) (power : Half) (remote available converter cause : Byte) (s : State),
    let frame : Instr := .status p mode power remote available converter cause
    (reportedOfCode mode = none ∨ yesNoOfCode remote = none ∨ yesNoOfCode available = none ∨ s.slotOf p = none
        ∨ (s.portRec p).state ≠ .qualified →
      exec frame s = .next (s.setPort p { s.portRec p with framer := none }))
    ∧ ∀ m rem av u, reportedOfCode mode = some m → yesNoOfCode remote = some rem → yesNoOfCode available = some av →
      s.slotOf p = some u → (s.portRec p).state = .qualified →
      let r := s.unitRec u
      let named := if m = .step .pStart then convOfCode converter else none
      let b := (s.setPort p { s.portRec p with
          framer := none, liveness := some (later s.clock s.params.unitTimeout) }).setUnit u
        { r with
          report := some { mode := m, power := clampUnit power.toInt, remote := rem, available := av,
                           conv := named }
          trip := r.trip || decide (m = .trip)
          lastSetpoint := if m = .stable .gen ∧ s.reported u ≠ some (.stable .gen) then none else r.lastSetpoint
          hold := r.hold.map (fun h => if h.emergency then { h with stopOutstanding := m.running } else h) }
      let noted := if m = .trip ∧ r.trip = false
        then b.post .unitTrip (some u) (if cause = 0 then none else some (cause.toNat : Int)) else b
      let stopped : Prop := ∃ h, r.hold = some h ∧ h.emergency = true
      let sends := r.hold.any (fun h => h.emergency && !h.stopOutstanding) && m.running
      let ordered := if sends then noted.sendOrder p .stop none .emergency
        else if r.hold.any (·.emergency) && !m.running then noted.ceaseOrder u .emergency else noted
      let judged := (ordered.supervise u m (decide (s.reported u ≠ some m))).watchConverters u m named
      let compared := if s.reported u ≠ some m ∨ (s.req u).isSome = true then judged.compareDemand u else judged
      let holds (c : Conv) : Prop := ∃ k, s.holder c = some { slot := u, kind := k }
      let requested (c : Conv) : Prop := ∃ v q, s.req v = some q ∧ q.conv = some c
      ∃ t, exec frame s = .next t
        ∧ t = compared.finish s
        ∧ CascadeFrame noted t
        ∧ ((∀ k, m ≠ .step k) → t.orphan u = none
          ∧ ∀ o, s.orphan u = some o →
            (∀ c, o.conv = some c → t.holder c = none ∨ ∃ v, t.holder c = some { slot := v, kind := .granted })
            ∧ ∀ w q, o.slotHeld = true → s.waterwayOf u = some w → s.waterwayRec w = some q →
                (t.waterwayRec w).map (·.settle) = some (if q.row.settle = 0 then none else some (later s.clock q.row.settle)))
        ∧ (∀ k, m = .step k → t.orphan u = s.orphan u)
        ∧ (∀ v, v ≠ u → t.orphan v = s.orphan v)
        ∧ (m ≠ .step .pStart → ∀ c, t.holder c ≠ some { slot := u, kind := .observed })
        ∧ (m = .step .pStart → ∀ c, ¬ requested c → s.holder c = some { slot := u, kind := .observed } → t.holder c = s.holder c)
        ∧ (∀ c, named = some c → s.req u = none →
          (s.holder c = none → ¬ holds c.other → ¬ requested c → t.holder c = some { slot := u, kind := .observed })
          ∧ (¬ holds c → s.holder c ≠ none ∨ holds c.other →
              CascadeFrame (noted.post .converterConflict (some u) (some (convNumber c))) t))
        ∧ (stopped → s.req u = none → RosterWf s →
          (sends = true → (t.portRec p).outstanding
              = some { tag := (s.portRec p).tagCounter, kind := .stop, purpose := .emergency }
            ∧ ((s.portRec p).sending = none → (p, .modeOrder .stop none (s.portRec p).tagCounter) ∈ t.unitOut))
          ∧ (m.running = false → ∀ o, (t.portRec p).outstanding = some o → o.purpose ≠ .emergency))

/-- R71, R75, R150, R151: an ORDER_ACK counts on a QUALIFIED port whose outstanding order has its tag. It puts a supervised step IN_STEP or
refuses it, and ends any other order, a refused emergency stop with its event. A supervised step without an acknowledgement in time is
refused as well. A refusal backs the slot off; the request has ended, so that only a new one can stand, and the step's resources are free
with no settle timer started.
The model's choices in it: notes/assumptions/2.md, 37.md. -/
def Obligations.Acknowledgements : Prop :=
  let backedOff (s : State) (u : Slot) : UnitRec :=
    { s.unitRec u with
      backoff := if s.params.refusalBackoff = 0 then (s.unitRec u).backoff else some (later s.clock s.params.refusalBackoff) }
  let refused (s t : State) (u : Slot) (r : Request) : Prop :=
    (s.params.refusalBackoff ≠ 0 → t.req u = s.renewed u s.trs.entryCounter)
      ∧ (s.params.refusalBackoff = 0 → (t.req u).map Request.aim
          = s.renewed u s.trs.entryCounter (if s.automatic u then s.pln.desired.get u else none))
      ∧ (∀ c, r.conv = some c → t.holder c = none ∨ ∃ v, t.holder c = some { slot := v, kind := .granted })
      ∧ ∀ w, (t.waterwayRec w).map (·.settle) = (s.waterwayRec w).map (·.settle)
  (∀ (p : Port) (tag result cause : Byte) (s : State),
    let taken := s.setPort p { s.portRec p with framer := none }
    let matches_ (o : Outstanding) : Prop := (s.portRec p).state = .qualified ∧ (s.portRec p).outstanding = some o ∧ o.tag = tag
    (result ≠ 1 ∧ result ≠ 2 ∨ s.slotOf p = none ∨ (∀ o, ¬ matches_ o) → exec (.orderAck p tag result cause) s = .next taken)
    ∧ ∀ u o, s.slotOf p = some u → result = 1 ∨ result = 2 → matches_ o →
      let cleared := s.setPort p { s.portRec p with framer := none, outstanding := none }
      (o.purpose = .timeoutStop → exec (.orderAck p tag result cause) s = .next cleared)
      ∧ (o.purpose = .emergency → exec (.orderAck p tag result cause) s
          = .next (if result = 1 then cleared else cleared.post .stepRefused (some u) (some cause.toNat)))
      ∧ (o.purpose = .supervised →
        ((∀ r, s.req u = some r → r.state ≠ .ordered) → exec (.orderAck p tag result cause) s = .next taken)
        ∧ ∀ r, s.req u = some r → r.state = .ordered →
          (result = 1 → exec (.orderAck p tag result cause) s
              = .next (taken.setReq u (some { r with state := .inStep, ackExpiry := none })))
          ∧ (result = 2 → ∃ t, exec (.orderAck p tag result cause) s = .next t
              ∧ CascadeFrame ((taken.setUnit u (backedOff s u)).post .stepRefused (some u) (some cause.toNat)) t
              ∧ refused s t u r)))
  ∧ ∀ (u : Slot) (s : State),
    ((∀ r, s.req u = some r → ¬ (r.state = .ordered ∧ timerDue s.clock r.ackExpiry = true)) → exec (.ackTimerExpiry u) s = .next s)
    ∧ ∀ r, s.req u = some r → r.state = .ordered → timerDue s.clock r.ackExpiry = true →
      ∃ t, exec (.ackTimerExpiry u) s = .next t
        ∧ CascadeFrame ((s.setUnit u (backedOff s u)).post .stepRefused (some u) (some (-1))) t
        ∧ refused s t u r

/-! ## Timers -/

/-- R35, R47, R49, R87, R88, R119, R161, R162: an expired dispatch-liveness timer sets LINK_SILENT, and in DISPATCHING begins FALLBACK, in which
the increment is folded into the targets; an expired level timer makes the head stale; an expired dwell timer adopts the proposed
row; an expired settle timer ends; and a warning phase gives way to the next.
The model's choices in it: notes/assumptions/2.md, 3.md. -/
def Obligations.PlantTimers : Prop :=
  (∀ s : State,
    let silent := { s with pli := { s.pli with liveness := none, linkSilent := true } }
    let down := { s with pli := { s.pli with liveness := none, linkSilent := true, part := .fallback .linkDown } }
    (timerDue s.clock s.pli.liveness = false → exec .dispatchLivenessExpiry s = .next s)
    ∧ (timerDue s.clock s.pli.liveness = true →
      (s.pli.part = .standby → exec .dispatchLivenessExpiry s = .next silent)
      ∧ (s.inFallback = true → exec .dispatchLivenessExpiry s = .next down)
      ∧ (s.pli.part = .dispatching →
        let base := clampPlant (s.tgt.reqBase + s.tgt.increment)
        ∃ t, exec .dispatchLivenessExpiry s = .next t ∧ TargetFrame (down.post .fallbackEntered none none) t
          ∧ t.tgt = { s.tgt with
              reqBase := base, ramped := clampPlant (s.tgt.ramped + s.tgt.increment), increment := 0
              plan := if s.tgt.source = .profile then s.tgt.plan else base })))
  ∧ (∀ s : State,
    (timerDue s.clock s.head.levelTimer = false → exec .levelTimerExpiry s = .next s)
    ∧ (timerDue s.clock s.head.levelTimer = true → exec .levelTimerExpiry s
        = .next (({ s with head := { s.head with levelTimer := none, stale := true } }).post .headStale none
            (s.head.estimate.map Int.ofNat))))
  ∧ (∀ s : State,
    let due := s.pli.part ≠ .standby ∧ timerDue s.clock (s.pln.proposal.map (·.expiry)) = true
    (¬ due → exec .dwellTimerExpiry s = .next s)
    ∧ (due → ∃ t, exec .dwellTimerExpiry s = .next t ∧ CascadeFrame (State.selectRow true s) t
        ∧ ∀ rows q row k, s.pln.table = some rows → s.pln.proposal = some q → s.pln.selected = some k →
            (∀ j r, j < q.row → rows[j]? = some r → ¬ (r.lower ≤ s.tgt.plan ∧ s.tgt.plan ≤ r.upper)) →
            (∀ r, rows[k]? = some r → ¬ (r.lower ≤ s.tgt.plan ∧ s.tgt.plan ≤ r.upper)) →
            rows[q.row]? = some row → row.lower ≤ s.tgt.plan → s.tgt.plan ≤ row.upper →
            t.pln.selected = some q.row ∧ t.pln.proposal = none ∧ t.pln.gap = false))
  ∧ ∀ (w : Waterway) (s : State),
    (s.waterwayRec w = none → exec (.settleTimerExpiry w) s = .next s ∧ exec (.warningPhaseEnd w) s = .next s)
    ∧ ∀ r, s.waterwayRec w = some r →
      (timerDue s.clock r.settle = false → exec (.settleTimerExpiry w) s = .next s)
      ∧ (timerDue s.clock r.settle = true → ∃ t, exec (.settleTimerExpiry w) s = .next t
          ∧ CascadeFrame (s.setWaterway w { r with settle := none }) t ∧ (t.waterwayRec w).map (·.settle) = some none)
      ∧ (r.generator = none → exec (.warningPhaseEnd w) s = .next s)
      ∧ ∀ g, r.generator = some g → exec (.warningPhaseEnd w) s = .next (s.setWaterway w { r with
          generator :=
            if g.high = false then some { pulse := g.pulse + 1, high := true, began := s.clock, tenths := r.row.high }
            else if r.row.count ≠ 0 ∧ g.pulse = r.row.count then none
            else some { g with high := false, began := s.clock, tenths := r.row.low } })

/-- R31, R69, R70, R74: when the lead of a warned step has run out its order goes out, with the port's next tag, the acknowledgement and step
timers and STEP_ORDERED; when a step takes too long its slot has the fault mark, its request ends, so that a held slot alone has one, a new
one, its resources are released with the settle timer, and a STOP goes out in its place unless it was one.
The model's choices in it: notes/assumptions/2.md, 23.md. -/
def Obligations.StepTimers : Prop :=
  (∀ (u : Slot) (s : State),
    ((∀ r, s.req u = some r → ¬ (r.state = .warning ∧ timerDue s.clock r.leadExpiry = true)) → exec (.leadTimerExpiry u) s = .next s)
    ∧ ∀ r st p, s.req u = some r → r.state = .warning → timerDue s.clock r.leadExpiry = true → r.current = some st →
      (s.unitRec u).port = some p →
      let tag := (s.portRec p).tagCounter
      ∃ t, exec (.leadTimerExpiry u) s = .next t
        ∧ CascadeFrame (s.post .stepOrdered (some u) (some (stepCode st.kind))) t
        ∧ t.req u = some { r with
            state := .ordered, tag := some tag, startedAt := some s.clock, seen := false, leadExpiry := none
            ackExpiry := some (later s.clock s.params.ackTimeout)
            stepExpiry := some (later s.clock (s.stepTimeout u st.kind)), redirected := false }
        ∧ (∀ v, v ≠ u → t.req v = s.req v)
        ∧ (t.portRec p).outstanding = some { tag := tag, kind := st.kind, purpose := .supervised }
        ∧ ∀ table, s.head.caps.get u = some table → s.stepTimeout u st.kind = match st.kind with
            | .gStart => table.header.gStart | .pStart => table.header.pStart | .prime => table.header.prime
            | .deprime => table.header.deprime | .stop => table.header.stop)
  ∧ ∀ (u : Slot) (s : State),
    ((∀ r, s.req u = some r → ¬ ((r.state = .ordered ∨ r.state = .inStep) ∧ timerDue s.clock r.stepExpiry = true)) →
      exec (.stepTimerExpiry u) s = .next s)
    ∧ ∀ r st, s.req u = some r → r.state = .ordered ∨ r.state = .inStep → timerDue s.clock r.stepExpiry = true →
      r.current = some st → ∃ t, exec (.stepTimerExpiry u) s = .next t
        ∧ CascadeFrame ((s.setUnit u { s.unitRec u with fault := true }).post .stepTimeout (some u) (some (stepCode st.kind))) t
        ∧ t.req u = s.renewed u s.trs.entryCounter
        ∧ (∀ c, r.conv = some c → t.holder c = none ∨ ∃ v, v ≠ u ∧ t.holder c = some { slot := v, kind := .granted })
        ∧ (∀ w q x, r.slotHeld = true → s.waterwayOf u = some w → s.waterwayRec w = some q → q.row.settle ≠ 0 →
            t.waterwayRec w = some x → x.inProgress ≤ q.inProgress - 1
              ∧ ((∀ v y, v ≠ u → s.req v = some y → y.state ≠ .warning) → x.inProgress = q.inProgress - 1))
        ∧ (∀ w q, r.slotHeld = true → s.waterwayOf u = some w → s.waterwayRec w = some q →
            (t.waterwayRec w).map (·.settle) = some (if q.row.settle = 0 then none else some (later s.clock q.row.settle)))
        ∧ ∀ p, RosterWf s → (s.unitRec u).port = some p → (s.portRec p).state = .qualified → st.kind ≠ .stop →
            ∃ tag, (t.portRec p).outstanding = some { tag := tag, kind := .stop, purpose := .timeoutStop }

/-- R145, R147, R149: an expired probe timer sends a PROBE and takes a DOWN port to PROBING; a QUALIFIED port from which no STATUS has come in time is
LOST, with all that its departure does and a PROBE at once.
The model's choices in it: notes/assumptions/2.md, 5.md, 13.md. -/
def Obligations.PortTimers : Prop :=
  (∀ (p : Port) (s : State),
    let r := s.portRec p
    let due := (r.state = .down ∨ r.state = .probing ∨ r.state = .mismatch ∨ r.state = .lost) ∧ timerDue s.clock r.probe = true
    (¬ due → exec (.probeTimerExpiry p) s = .next s)
    ∧ (due → r.state ≠ .down → exec (.probeTimerExpiry p) s = .next { s with
        ports := s.ports.set p (r.probed s.clock), unitOut := s.unitOut ++ (if r.sending.isNone then [(p, .probe)] else []) })
    ∧ (due → r.state = .down → ∃ t, exec (.probeTimerExpiry p) s = .next t
        ∧ t.portRec p = { r.probed s.clock with state := .probing }
        ∧ (r.sending = none → (p, .probe) ∈ t.unitOut)
        ∧ CascadeFrame (s.setPort p { r.probed s.clock with state := .probing }) t))
  ∧ ∀ (p : Port) (s : State),
    let due := (s.portRec p).state = .qualified ∧ timerDue s.clock (s.portRec p).liveness = true
    (¬ due → exec (.statusLivenessExpiry p) s = .next s)
    ∧ (due → ∀ u, s.slotOf p = some u → ∃ t, exec (.statusLivenessExpiry p) s = .next t
        ∧ PortGone s t p u ((s.portRec p).left .lost)
        ∧ ((s.portRec p).sending = none → (p, .probe) ∈ t.unitOut)
        ∧ CascadeFrame
            (((s.setPort p (((s.portRec p).left .lost).probed s.clock)).setUnit u (s.unitRec u).left).post .portLost (some u) none) t)

/-- R63, R64, R71 to R73, R76, R78, R89: a report judged against a step under order completes it, ends it at TRIP, shows it under way, leaves it as it
is at its origin before that, or aborts it; a step that ends gives up its converter and its waterway slot, starts the settle timer, and
leaves the warned steps, whose generator stops when none are left. A request in WAITING or WARNING ends at TRIP, and takes its path anew
from a changed mode; and so from a new demand (R63, R64): a grant in WARNING stands where the new path begins with the step being warned, and
is withdrawn otherwise, with no settle timer started.
The model's choices in it: notes/assumptions/11.md, 12.md, 13.md, 23.md, 28.md. -/
def Obligations.StepSupervision : Prop :=
  (∀ (s : State) (u : Slot) (r : Request) (m : Reported) (changed : Bool), s.req u = some r → r.state = .waiting →
    let t := s.supervise u m changed
    (m = .trip → CascadeFrame s t ∧ t.req u = none)
    ∧ (m ≠ .trip → changed = false → t = s)
    ∧ (m ≠ .trip → changed = true →
      let path := match s.known u with
        | some k => pathOf k r.dest
        | none => []
      CascadeFrame s t ∧ (∀ v, v ≠ u → t.req v = s.req v)
        ∧ t.req u = if path = [] then none else some { r with
            path := path, index := 1, seen := false, tag := none, startedAt := none, leadExpiry := none, ackExpiry := none
            stepExpiry := none, redirected := false }))
  ∧ (∀ (s : State) (u : Slot) (r : Request), s.req u = some r → r.state = .warning →
    let withdrawn (t : State) : Prop := (∀ v, v ≠ u → t.req v = s.req v) ∧ (∀ c, r.conv = some c → t.holder c = none)
      ∧ (∀ w q, r.slotHeld = true → s.waterwayOf u = some w → s.waterwayRec w = some q →
          (t.waterwayRec w).map (fun x => (x.inProgress, x.settle)) = some (q.inProgress - 1, q.settle))
      ∧ ∀ w q, s.waterwayRec w = some q → ∃ x, t.waterwayRec w = some x ∧ x.warned = q.warned.filter (fun v => v != u)
          ∧ x.generator = if q.warned.contains u && x.warned.isEmpty then none else q.generator
    let rerouted (t : State) (cls : ReqClass) (d : Stable) : Prop :=
      let path := match s.known u with
        | some k => pathOf k d
        | none => []
      (path ≠ [] → path.head? = r.current → t = s.setReq u (some { r with cls := cls, dest := d, path := path, index := 1 }))
        ∧ (path = [] ∨ path.head? ≠ r.current → CascadeFrame s t ∧ withdrawn t
          ∧ t.req u = if path = [] then none else some { r with
              cls := cls, dest := d, path := path, index := 1, state := .waiting, conv := none, slotHeld := false, seen := false
              tag := none, startedAt := none, leadExpiry := none, ackExpiry := none, stepExpiry := none, redirected := false })
    (∀ (m : Reported) (changed : Bool),
      let t := s.supervise u m changed
      (m = .trip → CascadeFrame s t ∧ withdrawn t ∧ t.req u = none)
        ∧ (m ≠ .trip → changed = false → t = s)
        ∧ (m ≠ .trip → changed = true → rerouted t r.cls r.dest))
    ∧ (let demand : Option (Stable × ReqClass) := match (s.unitRec u).hold with
         | some h => if h.emergency then none else some (h.mode, .manual)
         | none => if s.automatic u then (s.pln.desired.get u).map (fun d => (d, .automatic)) else none
       let t := s.takeDemand u
       (demand = none → CascadeFrame s t ∧ withdrawn t ∧ t.req u = none)
         ∧ ∀ d cls, demand = some (d, cls) →
           (d = r.dest → t = s.setReq u (some { r with cls := cls })) ∧ (d ≠ r.dest → rerouted t cls d)))
  ∧ ∀ (s : State) (u : Slot) (r : Request) (st : PathStep) (p : Port) (m : Reported) (changed : Bool),
    s.req u = some r → r.state = .ordered ∨ r.state = .inStep → r.current = some st → (s.unitRec u).port = some p →
    let t := s.supervise u m changed
    let ends := (∀ c, r.conv = some c → t.holder c = none)
      ∧ ∀ w q, r.slotHeld = true → s.waterwayOf u = some w → s.waterwayRec w = some q →
          (t.waterwayRec w).map (fun x => (x.inProgress, x.settle))
            = some (q.inProgress - 1, if q.row.settle = 0 then none else some (later s.clock q.row.settle))
    let leaves := ∀ w q, s.waterwayRec w = some q →
      ∃ x, t.waterwayRec w = some x ∧ x.warned = q.warned.filter (fun v => v != u)
        ∧ x.generator = if q.warned.contains u && x.warned.isEmpty then none else q.generator
    (∀ v, v ≠ u → t.req v = s.req v)
    ∧ if m = .stable st.kind.dest then
        let path := if r.redirected then pathOf st.kind.dest r.dest else r.path
        let index := if r.redirected then 1 else r.index + 1
        ends ∧ leaves ∧ CascadeFrame (s.post .stepDone (some u) (some (stepCode st.kind))) t
          ∧ t.req u = if path.length < index then none else some { r with
              path := path, index := index, state := .waiting, conv := none, slotHeld := false, seen := false, tag := none
              startedAt := none, leadExpiry := none, ackExpiry := none, stepExpiry := none, redirected := false }
      else if m = .trip then ends ∧ leaves ∧ CascadeFrame s t ∧ t.ste = s.ste ∧ t.req u = none
      else if m = .step st.kind then
        t = s.setReq u (some (
          if r.state = .ordered ∧ (s.portRec p).ackMode = .unconfirmed then { r with seen := true, state := .inStep, ackExpiry := none }
          else { r with seen := true }))
      else if m = .stable st.origin ∧ r.seen = false then t = s
      else ends ∧ leaves ∧ CascadeFrame (s.post .stepAborted (some u) (some (reportedCode m))) t ∧ t.req u = none

/-! ## Assignment -/

/-- R53 to R58: an assignment gives modes to automatic slots alone, each demand as many as it counts less its shortfall; no slot that a
check lets through is left over while a demand is short, and none that ranks before a slot taken: the mode demanded ranks first, then the
closeness order, and within one current mode the rotation order. With no converters no slot taken needs P_START, and in a waterway that
forbids mixing no slot is given PMP or GEN against another that is given, or held in, the other of the two. A slot left over is given
SS, PLAN_SHORT stands while a demand is short, and the desired modes are those. -/
def Obligations.AssignmentFills : Prop :=
  ∀ (s : State) (row : PlanRow), s.ros.rotation.Perm Slot.all →
    let a := s.assignRow row
    let count (m : Stable) : Nat := (Slot.all.filter (fun u => a.got.get u == some m)).length
    let fits (u : Slot) (m : Stable) : Prop := s.automatic u = true ∧ a.got.get u = none ∧ s.mixingOk a.got m u = true
      ∧ ∃ c, s.currentMode u = some c ∧ s.converterOk c m = true
    let near (m : Stable) : List Stable := match m with
      | .pmp => [.pmp, .cnd, .ss, .gen]
      | .gen => [.gen, .ss, .cnd, .pmp]
      | .cnd => [.cnd, .pmp, .ss, .gen]
      | .ss => []
    let forbidden (u : Slot) : Prop := ∃ w q, s.waterwayOf u = some w ∧ s.waterwayRec w = some q ∧ q.row.mixing ≠ 1
    let against (v : Slot) (m : Stable) : Prop := a.got.get v = some m ∨ ∃ h, (s.unitRec v).hold = some h ∧ h.mode = m
    (∀ u m, a.got.get u = some m → s.automatic u = true ∧ m ≠ .ss ∧ (s.currentMode u).isSome = true)
    ∧ (count .pmp + a.shortPmp = row.nPmp ∧ count .gen + a.shortGen = row.nGen ∧ count .cnd + a.shortCnd = row.nCnd)
    ∧ ((a.shortPmp ≠ 0 → ∀ u, ¬ fits u .pmp) ∧ (a.shortGen ≠ 0 → ∀ u, ¬ fits u .gen) ∧ (a.shortCnd ≠ 0 → ∀ u, ¬ fits u .cnd))
    ∧ (∀ u v m cu cv, a.got.get v = some m → fits u m → s.currentMode u = some cu → s.currentMode v = some cv →
        (near m).idxOf cv < (near m).idxOf cu ∨ cv = cu ∧ s.ros.rotation.idxOf v < s.ros.rotation.idxOf u)
    ∧ (∀ u m c st, a.got.get u = some m → s.currentMode u = some c → s.params.converters = 0 → st ∈ pathOf c m → st.kind ≠ .pStart)
    ∧ (∀ u v, v ≠ u → s.waterwayOf v = s.waterwayOf u → forbidden u →
        (a.got.get u = some .pmp → ¬ against v .gen) ∧ (a.got.get u = some .gen → ¬ against v .pmp))
    ∧ (s.selectedRow = some row →
        CascadeFrame s s.assign
        ∧ (∀ u, s.assign.pln.desired.get u = if s.automatic u then some ((a.got.get u).getD .ss) else none)
        ∧ (s.assign.pln.short = true ↔ a.shortPmp + a.shortGen + a.shortCnd ≠ 0)
        ∧ s.assign.pln.shortPmp = a.shortPmp ∧ s.assign.pln.shortGen = a.shortGen ∧ s.assign.pln.shortCnd = a.shortCnd)

/-- R67 to R69: a waiting request's step is tested in the order of R67's table, and the first failure is recorded; a granted one takes the
lowest free converter for P_START and a waterway slot for flow, and is warned for the waterway's lead or ordered at once; at a warned
grant the waterway's warning pattern starts from its first pulse.
The model's choices in it: notes/assumptions/3.md, 13.md. -/
def Obligations.GrantRule : Prop :=
  ∀ (s : State) (u : Slot) (r : Request) (st : PathStep), s.req u = some r → r.state = .waiting → r.current = some st →
    let t := s.tryGrant u
    let fails (why : Option Blocked) := t = s.setReq u (some { r with blocked := why })
    let able := s.pli.part ≠ .standby ∧ s.dispatchable u = true ∧ s.orphan u = none ∧ s.reported u = some (.stable st.origin)
    let free (c : Conv) := convNumber c ≤ s.params.converters ∧ s.holder c = none
    (¬ able → fails none)
    ∧ (able → st.kind = .pStart → (∀ c, ¬ free c) → fails (some .converter))
    ∧ ∀ w q, able → (st.kind = .pStart → ∃ c, free c) → s.waterwayOf u = some w → s.waterwayRec w = some q →
      let flow := st.flowChanging = true
      let against (d : Direction) := ∃ v, v ≠ u ∧ s.waterwayOf v = some w ∧ s.flow v = d
      let mixes := q.row.mixing ≠ 1 ∧ (st.kind = .gStart ∧ against .pumping ∨ st.kind = .prime ∧ against .generating)
      let passes := flow → q.inProgress < q.row.slots ∧ q.settle = none
      (flow → q.row.slots ≤ q.inProgress → fails (some .waterway))
      ∧ (flow → q.inProgress < q.row.slots → q.settle.isSome = true → fails (some .settle))
      ∧ (passes → s.params.maxConcurrent ≤ s.plantCount → fails (some .concurrency))
      ∧ (passes → s.plantCount < s.params.maxConcurrent → mixes → fails (some .mixing))
      ∧ (passes → s.plantCount < s.params.maxConcurrent → ¬ mixes →
          CascadeFrame s t ∧ (∀ v, v ≠ u → t.req v = s.req v)
          ∧ (t.waterwayRec w).map (·.inProgress) = some (if st.flowChanging then q.inProgress + 1 else q.inProgress)
          ∧ ∃ r', t.req u = some r' ∧ r'.blocked = none ∧ r'.slotHeld = st.flowChanging ∧ r'.path = r.path ∧ r'.index = r.index
            ∧ (st.kind ≠ .pStart → r'.conv = none)
            ∧ (st.kind = .pStart → ∃ c, free c ∧ (c = .c2 → ¬ free .c1) ∧ r'.conv = some c
                ∧ t.holder c = some { slot := u, kind := .granted })
            ∧ (t.waterwayRec w).map (fun x => (x.warned, x.generator)) = some (
                if q.row.warns st.kind then
                  (q.warned ++ [u], some { pulse := 1, high := true, began := s.clock, tenths := q.row.firstHigh })
                else (q.warned, q.generator))
            ∧ if q.row.warns st.kind = true ∧ q.row.lead ≠ 0
              then r'.state = .warning ∧ r'.leadExpiry = some (later s.clock q.row.lead) ∧ t.ste = s.ste
              else r'.state = .ordered ∧ r'.startedAt = some s.clock
                ∧ t.ste = (s.post .stepOrdered (some u) (some (stepCode st.kind))).ste)
end

