-- ==== Sys2Proof/Laws/State.lean ====
section
/-! SUPPORT. One lemma for each field after each setter of Machine/Ops.lean and Machine/Scheduler.lean, and the read-after-write
laws of the slot, port and waterway tables. -/

namespace Sys2Proof

/-! ## Tables -/

@[simp] theorem SlotMap.get_set {α : Type} (m : SlotMap α) (i j : Slot) (x : α) :
    (m.set i x).get j = if j = i then x else m.get j := by
  cases i <;> cases j <;> rfl
@[simp] theorem SlotMap.get_ofFn {α : Type} (f : Slot → α) (i : Slot) : (SlotMap.ofFn f).get i = f i := by cases i <;> rfl
@[simp] theorem SlotMap.get_const {α : Type} (x : α) (i : Slot) : (SlotMap.const x).get i = x := by cases i <;> rfl
theorem SlotMap.ext_get {α : Type} {m n : SlotMap α} (h : ∀ i, m.get i = n.get i) : m = n := by
  cases m
  cases n
  simp only [SlotMap.mk.injEq]
  exact ⟨h .u1, h .u2, h .u3, h .u4, h .u5, h .u6, h .u7, h .u8⟩

@[simp] theorem PortMap.get_set {α : Type} (m : PortMap α) (i j : Port) (x : α) :
    (m.set i x).get j = if j = i then x else m.get j := by
  cases i <;> cases j <;> rfl
@[simp] theorem PortMap.get_ofFn {α : Type} (f : Port → α) (i : Port) : (PortMap.ofFn f).get i = f i := by cases i <;> rfl
@[simp] theorem PortMap.get_const {α : Type} (x : α) (i : Port) : (PortMap.const x).get i = x := by cases i <;> rfl
theorem PortMap.ext_get {α : Type} {m n : PortMap α} (h : ∀ i, m.get i = n.get i) : m = n := by
  cases m
  cases n
  simp only [PortMap.mk.injEq]
  exact ⟨h .a, h .b, h .c, h .d, h .e, h .f, h .g, h .h⟩

@[simp] theorem WaterwayMap.get_set {α : Type} (m : WaterwayMap α) (i j : Waterway) (x : α) :
    (m.set i x).get j = if j = i then x else m.get j := by
  cases i <;> cases j <;> rfl
@[simp] theorem WaterwayMap.get_ofFn {α : Type} (f : Waterway → α) (i : Waterway) : (WaterwayMap.ofFn f).get i = f i := by cases i <;> rfl
@[simp] theorem WaterwayMap.get_const {α : Type} (x : α) (i : Waterway) : (WaterwayMap.const x).get i = x := by cases i <;> rfl
theorem WaterwayMap.ext_get {α : Type} {m n : WaterwayMap α} (h : ∀ i, m.get i = n.get i) : m = n := by
  cases m
  cases n
  simp only [WaterwayMap.mk.injEq]
  exact ⟨h .w1, h .w2, h .w3, h .w4⟩

@[simp] theorem Slot.mem_all (u : Slot) : u ∈ Slot.all := by cases u <;> decide
@[simp] theorem Port.mem_all (p : Port) : p ∈ Port.all := by cases p <;> decide
@[simp] theorem Waterway.mem_all (w : Waterway) : w ∈ Waterway.all := by cases w <;> decide
theorem Slot.all_nodup : Slot.all.Nodup := by decide
theorem Port.all_nodup : Port.all.Nodup := by decide

namespace Machine

variable (s : State)

/-! ## setPli -/

@[simp] theorem State.setPli_pending (b : Pli) : (s.setPli b).pending = s.pending := rfl
@[simp] theorem State.setPli_pli (b : Pli) : (s.setPli b).pli = b := rfl
@[simp] theorem State.setPli_ports (b : Pli) : (s.setPli b).ports = s.ports := rfl
@[simp] theorem State.setPli_ros (b : Pli) : (s.setPli b).ros = s.ros := rfl
@[simp] theorem State.setPli_head (b : Pli) : (s.setPli b).head = s.head := rfl
@[simp] theorem State.setPli_tgt (b : Pli) : (s.setPli b).tgt = s.tgt := rfl
@[simp] theorem State.setPli_prf (b : Pli) : (s.setPli b).prf = s.prf := rfl
@[simp] theorem State.setPli_pln (b : Pli) : (s.setPli b).pln = s.pln := rfl
@[simp] theorem State.setPli_trs (b : Pli) : (s.setPli b).trs = s.trs := rfl
@[simp] theorem State.setPli_alc (b : Pli) : (s.setPli b).alc = s.alc := rfl
@[simp] theorem State.setPli_ste (b : Pli) : (s.setPli b).ste = s.ste := rfl
@[simp] theorem State.setPli_plantOut (b : Pli) : (s.setPli b).plantOut = s.plantOut := rfl
@[simp] theorem State.setPli_unitOut (b : Pli) : (s.setPli b).unitOut = s.unitOut := rfl

/-! ## setRos -/

@[simp] theorem State.setRos_pending (b : Ros) : (s.setRos b).pending = s.pending := rfl
@[simp] theorem State.setRos_pli (b : Ros) : (s.setRos b).pli = s.pli := rfl
@[simp] theorem State.setRos_ports (b : Ros) : (s.setRos b).ports = s.ports := rfl
@[simp] theorem State.setRos_ros (b : Ros) : (s.setRos b).ros = b := rfl
@[simp] theorem State.setRos_head (b : Ros) : (s.setRos b).head = s.head := rfl
@[simp] theorem State.setRos_tgt (b : Ros) : (s.setRos b).tgt = s.tgt := rfl
@[simp] theorem State.setRos_prf (b : Ros) : (s.setRos b).prf = s.prf := rfl
@[simp] theorem State.setRos_pln (b : Ros) : (s.setRos b).pln = s.pln := rfl
@[simp] theorem State.setRos_trs (b : Ros) : (s.setRos b).trs = s.trs := rfl
@[simp] theorem State.setRos_alc (b : Ros) : (s.setRos b).alc = s.alc := rfl
@[simp] theorem State.setRos_ste (b : Ros) : (s.setRos b).ste = s.ste := rfl
@[simp] theorem State.setRos_plantOut (b : Ros) : (s.setRos b).plantOut = s.plantOut := rfl
@[simp] theorem State.setRos_unitOut (b : Ros) : (s.setRos b).unitOut = s.unitOut := rfl

/-! ## setHead -/

@[simp] theorem State.setHead_pending (b : Head) : (s.setHead b).pending = s.pending := rfl
@[simp] theorem State.setHead_pli (b : Head) : (s.setHead b).pli = s.pli := rfl
@[simp] theorem State.setHead_ports (b : Head) : (s.setHead b).ports = s.ports := rfl
@[simp] theorem State.setHead_ros (b : Head) : (s.setHead b).ros = s.ros := rfl
@[simp] theorem State.setHead_head (b : Head) : (s.setHead b).head = b := rfl
@[simp] theorem State.setHead_tgt (b : Head) : (s.setHead b).tgt = s.tgt := rfl
@[simp] theorem State.setHead_prf (b : Head) : (s.setHead b).prf = s.prf := rfl
@[simp] theorem State.setHead_pln (b : Head) : (s.setHead b).pln = s.pln := rfl
@[simp] theorem State.setHead_trs (b : Head) : (s.setHead b).trs = s.trs := rfl
@[simp] theorem State.setHead_alc (b : Head) : (s.setHead b).alc = s.alc := rfl
@[simp] theorem State.setHead_ste (b : Head) : (s.setHead b).ste = s.ste := rfl
@[simp] theorem State.setHead_plantOut (b : Head) : (s.setHead b).plantOut = s.plantOut := rfl
@[simp] theorem State.setHead_unitOut (b : Head) : (s.setHead b).unitOut = s.unitOut := rfl

/-! ## setTgt -/

@[simp] theorem State.setTgt_pending (b : Tgt) : (s.setTgt b).pending = s.pending := rfl
@[simp] theorem State.setTgt_pli (b : Tgt) : (s.setTgt b).pli = s.pli := rfl
@[simp] theorem State.setTgt_ports (b : Tgt) : (s.setTgt b).ports = s.ports := rfl
@[simp] theorem State.setTgt_ros (b : Tgt) : (s.setTgt b).ros = s.ros := rfl
@[simp] theorem State.setTgt_head (b : Tgt) : (s.setTgt b).head = s.head := rfl
@[simp] theorem State.setTgt_tgt (b : Tgt) : (s.setTgt b).tgt = b := rfl
@[simp] theorem State.setTgt_prf (b : Tgt) : (s.setTgt b).prf = s.prf := rfl
@[simp] theorem State.setTgt_pln (b : Tgt) : (s.setTgt b).pln = s.pln := rfl
@[simp] theorem State.setTgt_trs (b : Tgt) : (s.setTgt b).trs = s.trs := rfl
@[simp] theorem State.setTgt_alc (b : Tgt) : (s.setTgt b).alc = s.alc := rfl
@[simp] theorem State.setTgt_ste (b : Tgt) : (s.setTgt b).ste = s.ste := rfl
@[simp] theorem State.setTgt_plantOut (b : Tgt) : (s.setTgt b).plantOut = s.plantOut := rfl
@[simp] theorem State.setTgt_unitOut (b : Tgt) : (s.setTgt b).unitOut = s.unitOut := rfl

/-! ## setPrf -/

@[simp] theorem State.setPrf_pending (b : Prf) : (s.setPrf b).pending = s.pending := rfl
@[simp] theorem State.setPrf_pli (b : Prf) : (s.setPrf b).pli = s.pli := rfl
@[simp] theorem State.setPrf_ports (b : Prf) : (s.setPrf b).ports = s.ports := rfl
@[simp] theorem State.setPrf_ros (b : Prf) : (s.setPrf b).ros = s.ros := rfl
@[simp] theorem State.setPrf_head (b : Prf) : (s.setPrf b).head = s.head := rfl
@[simp] theorem State.setPrf_tgt (b : Prf) : (s.setPrf b).tgt = s.tgt := rfl
@[simp] theorem State.setPrf_prf (b : Prf) : (s.setPrf b).prf = b := rfl
@[simp] theorem State.setPrf_pln (b : Prf) : (s.setPrf b).pln = s.pln := rfl
@[simp] theorem State.setPrf_trs (b : Prf) : (s.setPrf b).trs = s.trs := rfl
@[simp] theorem State.setPrf_alc (b : Prf) : (s.setPrf b).alc = s.alc := rfl
@[simp] theorem State.setPrf_ste (b : Prf) : (s.setPrf b).ste = s.ste := rfl
@[simp] theorem State.setPrf_plantOut (b : Prf) : (s.setPrf b).plantOut = s.plantOut := rfl
@[simp] theorem State.setPrf_unitOut (b : Prf) : (s.setPrf b).unitOut = s.unitOut := rfl

/-! ## setPln -/

@[simp] theorem State.setPln_pending (b : Pln) : (s.setPln b).pending = s.pending := rfl
@[simp] theorem State.setPln_pli (b : Pln) : (s.setPln b).pli = s.pli := rfl
@[simp] theorem State.setPln_ports (b : Pln) : (s.setPln b).ports = s.ports := rfl
@[simp] theorem State.setPln_ros (b : Pln) : (s.setPln b).ros = s.ros := rfl
@[simp] theorem State.setPln_head (b : Pln) : (s.setPln b).head = s.head := rfl
@[simp] theorem State.setPln_tgt (b : Pln) : (s.setPln b).tgt = s.tgt := rfl
@[simp] theorem State.setPln_prf (b : Pln) : (s.setPln b).prf = s.prf := rfl
@[simp] theorem State.setPln_pln (b : Pln) : (s.setPln b).pln = b := rfl
@[simp] theorem State.setPln_trs (b : Pln) : (s.setPln b).trs = s.trs := rfl
@[simp] theorem State.setPln_alc (b : Pln) : (s.setPln b).alc = s.alc := rfl
@[simp] theorem State.setPln_ste (b : Pln) : (s.setPln b).ste = s.ste := rfl
@[simp] theorem State.setPln_plantOut (b : Pln) : (s.setPln b).plantOut = s.plantOut := rfl
@[simp] theorem State.setPln_unitOut (b : Pln) : (s.setPln b).unitOut = s.unitOut := rfl

/-! ## setTrs -/

@[simp] theorem State.setTrs_pending (b : Trs) : (s.setTrs b).pending = s.pending := rfl
@[simp] theorem State.setTrs_pli (b : Trs) : (s.setTrs b).pli = s.pli := rfl
@[simp] theorem State.setTrs_ports (b : Trs) : (s.setTrs b).ports = s.ports := rfl
@[simp] theorem State.setTrs_ros (b : Trs) : (s.setTrs b).ros = s.ros := rfl
@[simp] theorem State.setTrs_head (b : Trs) : (s.setTrs b).head = s.head := rfl
@[simp] theorem State.setTrs_tgt (b : Trs) : (s.setTrs b).tgt = s.tgt := rfl
@[simp] theorem State.setTrs_prf (b : Trs) : (s.setTrs b).prf = s.prf := rfl
@[simp] theorem State.setTrs_pln (b : Trs) : (s.setTrs b).pln = s.pln := rfl
@[simp] theorem State.setTrs_trs (b : Trs) : (s.setTrs b).trs = b := rfl
@[simp] theorem State.setTrs_alc (b : Trs) : (s.setTrs b).alc = s.alc := rfl
@[simp] theorem State.setTrs_ste (b : Trs) : (s.setTrs b).ste = s.ste := rfl
@[simp] theorem State.setTrs_plantOut (b : Trs) : (s.setTrs b).plantOut = s.plantOut := rfl
@[simp] theorem State.setTrs_unitOut (b : Trs) : (s.setTrs b).unitOut = s.unitOut := rfl

/-! ## setAlc -/

@[simp] theorem State.setAlc_pending (b : Alc) : (s.setAlc b).pending = s.pending := rfl
@[simp] theorem State.setAlc_pli (b : Alc) : (s.setAlc b).pli = s.pli := rfl
@[simp] theorem State.setAlc_ports (b : Alc) : (s.setAlc b).ports = s.ports := rfl
@[simp] theorem State.setAlc_ros (b : Alc) : (s.setAlc b).ros = s.ros := rfl
@[simp] theorem State.setAlc_head (b : Alc) : (s.setAlc b).head = s.head := rfl
@[simp] theorem State.setAlc_tgt (b : Alc) : (s.setAlc b).tgt = s.tgt := rfl
@[simp] theorem State.setAlc_prf (b : Alc) : (s.setAlc b).prf = s.prf := rfl
@[simp] theorem State.setAlc_pln (b : Alc) : (s.setAlc b).pln = s.pln := rfl
@[simp] theorem State.setAlc_trs (b : Alc) : (s.setAlc b).trs = s.trs := rfl
@[simp] theorem State.setAlc_alc (b : Alc) : (s.setAlc b).alc = b := rfl
@[simp] theorem State.setAlc_ste (b : Alc) : (s.setAlc b).ste = s.ste := rfl
@[simp] theorem State.setAlc_plantOut (b : Alc) : (s.setAlc b).plantOut = s.plantOut := rfl
@[simp] theorem State.setAlc_unitOut (b : Alc) : (s.setAlc b).unitOut = s.unitOut := rfl

/-! ## setSte -/

@[simp] theorem State.setSte_pending (b : Ste) : (s.setSte b).pending = s.pending := rfl
@[simp] theorem State.setSte_pli (b : Ste) : (s.setSte b).pli = s.pli := rfl
@[simp] theorem State.setSte_ports (b : Ste) : (s.setSte b).ports = s.ports := rfl
@[simp] theorem State.setSte_ros (b : Ste) : (s.setSte b).ros = s.ros := rfl
@[simp] theorem State.setSte_head (b : Ste) : (s.setSte b).head = s.head := rfl
@[simp] theorem State.setSte_tgt (b : Ste) : (s.setSte b).tgt = s.tgt := rfl
@[simp] theorem State.setSte_prf (b : Ste) : (s.setSte b).prf = s.prf := rfl
@[simp] theorem State.setSte_pln (b : Ste) : (s.setSte b).pln = s.pln := rfl
@[simp] theorem State.setSte_trs (b : Ste) : (s.setSte b).trs = s.trs := rfl
@[simp] theorem State.setSte_alc (b : Ste) : (s.setSte b).alc = s.alc := rfl
@[simp] theorem State.setSte_ste (b : Ste) : (s.setSte b).ste = b := rfl
@[simp] theorem State.setSte_plantOut (b : Ste) : (s.setSte b).plantOut = s.plantOut := rfl
@[simp] theorem State.setSte_unitOut (b : Ste) : (s.setSte b).unitOut = s.unitOut := rfl

/-! ## Setters of one record -/

@[simp] theorem State.setPort_pending (p : Port) (r : PortRec) : (s.setPort p r).pending = s.pending := rfl
@[simp] theorem State.setPort_pli (p : Port) (r : PortRec) : (s.setPort p r).pli = s.pli := rfl
@[simp] theorem State.setPort_ports (p : Port) (r : PortRec) : (s.setPort p r).ports = s.ports.set p r := rfl
@[simp] theorem State.setPort_ros (p : Port) (r : PortRec) : (s.setPort p r).ros = s.ros := rfl
@[simp] theorem State.setPort_head (p : Port) (r : PortRec) : (s.setPort p r).head = s.head := rfl
@[simp] theorem State.setPort_tgt (p : Port) (r : PortRec) : (s.setPort p r).tgt = s.tgt := rfl
@[simp] theorem State.setPort_prf (p : Port) (r : PortRec) : (s.setPort p r).prf = s.prf := rfl
@[simp] theorem State.setPort_pln (p : Port) (r : PortRec) : (s.setPort p r).pln = s.pln := rfl
@[simp] theorem State.setPort_trs (p : Port) (r : PortRec) : (s.setPort p r).trs = s.trs := rfl
@[simp] theorem State.setPort_alc (p : Port) (r : PortRec) : (s.setPort p r).alc = s.alc := rfl
@[simp] theorem State.setPort_ste (p : Port) (r : PortRec) : (s.setPort p r).ste = s.ste := rfl
@[simp] theorem State.setPort_plantOut (p : Port) (r : PortRec) : (s.setPort p r).plantOut = s.plantOut := rfl
@[simp] theorem State.setPort_unitOut (p : Port) (r : PortRec) : (s.setPort p r).unitOut = s.unitOut := rfl

@[simp] theorem State.setParams_pending (b : Params) : (s.setParams b).pending = s.pending := rfl
@[simp] theorem State.setParams_pli (b : Params) : (s.setParams b).pli = { s.pli with params := b } := rfl
@[simp] theorem State.setParams_ports (b : Params) : (s.setParams b).ports = s.ports := rfl
@[simp] theorem State.setParams_ros (b : Params) : (s.setParams b).ros = s.ros := rfl
@[simp] theorem State.setParams_head (b : Params) : (s.setParams b).head = s.head := rfl
@[simp] theorem State.setParams_tgt (b : Params) : (s.setParams b).tgt = s.tgt := rfl
@[simp] theorem State.setParams_prf (b : Params) : (s.setParams b).prf = s.prf := rfl
@[simp] theorem State.setParams_pln (b : Params) : (s.setParams b).pln = s.pln := rfl
@[simp] theorem State.setParams_trs (b : Params) : (s.setParams b).trs = s.trs := rfl
@[simp] theorem State.setParams_alc (b : Params) : (s.setParams b).alc = s.alc := rfl
@[simp] theorem State.setParams_ste (b : Params) : (s.setParams b).ste = s.ste := rfl
@[simp] theorem State.setParams_plantOut (b : Params) : (s.setParams b).plantOut = s.plantOut := rfl
@[simp] theorem State.setParams_unitOut (b : Params) : (s.setParams b).unitOut = s.unitOut := rfl

@[simp] theorem State.setUnit_pending (u : Slot) (r : UnitRec) : (s.setUnit u r).pending = s.pending := rfl
@[simp] theorem State.setUnit_pli (u : Slot) (r : UnitRec) : (s.setUnit u r).pli = s.pli := rfl
@[simp] theorem State.setUnit_ports (u : Slot) (r : UnitRec) : (s.setUnit u r).ports = s.ports := rfl
@[simp] theorem State.setUnit_ros (u : Slot) (r : UnitRec) : (s.setUnit u r).ros = { s.ros with units := s.ros.units.set u r } := rfl
@[simp] theorem State.setUnit_head (u : Slot) (r : UnitRec) : (s.setUnit u r).head = s.head := rfl
@[simp] theorem State.setUnit_tgt (u : Slot) (r : UnitRec) : (s.setUnit u r).tgt = s.tgt := rfl
@[simp] theorem State.setUnit_prf (u : Slot) (r : UnitRec) : (s.setUnit u r).prf = s.prf := rfl
@[simp] theorem State.setUnit_pln (u : Slot) (r : UnitRec) : (s.setUnit u r).pln = s.pln := rfl
@[simp] theorem State.setUnit_trs (u : Slot) (r : UnitRec) : (s.setUnit u r).trs = s.trs := rfl
@[simp] theorem State.setUnit_alc (u : Slot) (r : UnitRec) : (s.setUnit u r).alc = s.alc := rfl
@[simp] theorem State.setUnit_ste (u : Slot) (r : UnitRec) : (s.setUnit u r).ste = s.ste := rfl
@[simp] theorem State.setUnit_plantOut (u : Slot) (r : UnitRec) : (s.setUnit u r).plantOut = s.plantOut := rfl
@[simp] theorem State.setUnit_unitOut (u : Slot) (r : UnitRec) : (s.setUnit u r).unitOut = s.unitOut := rfl

@[simp] theorem State.setReq_pending (u : Slot) (r : Option Request) : (s.setReq u r).pending = s.pending := rfl
@[simp] theorem State.setReq_pli (u : Slot) (r : Option Request) : (s.setReq u r).pli = s.pli := rfl
@[simp] theorem State.setReq_ports (u : Slot) (r : Option Request) : (s.setReq u r).ports = s.ports := rfl
@[simp] theorem State.setReq_ros (u : Slot) (r : Option Request) : (s.setReq u r).ros = s.ros := rfl
@[simp] theorem State.setReq_head (u : Slot) (r : Option Request) : (s.setReq u r).head = s.head := rfl
@[simp] theorem State.setReq_tgt (u : Slot) (r : Option Request) : (s.setReq u r).tgt = s.tgt := rfl
@[simp] theorem State.setReq_prf (u : Slot) (r : Option Request) : (s.setReq u r).prf = s.prf := rfl
@[simp] theorem State.setReq_pln (u : Slot) (r : Option Request) : (s.setReq u r).pln = s.pln := rfl
@[simp] theorem State.setReq_trs (u : Slot) (r : Option Request) : (s.setReq u r).trs = { s.trs with requests := s.trs.requests.set u r } := rfl
@[simp] theorem State.setReq_alc (u : Slot) (r : Option Request) : (s.setReq u r).alc = s.alc := rfl
@[simp] theorem State.setReq_ste (u : Slot) (r : Option Request) : (s.setReq u r).ste = s.ste := rfl
@[simp] theorem State.setReq_plantOut (u : Slot) (r : Option Request) : (s.setReq u r).plantOut = s.plantOut := rfl
@[simp] theorem State.setReq_unitOut (u : Slot) (r : Option Request) : (s.setReq u r).unitOut = s.unitOut := rfl

@[simp] theorem State.setOrphan_pending (u : Slot) (r : Option Orphan) : (s.setOrphan u r).pending = s.pending := rfl
@[simp] theorem State.setOrphan_pli (u : Slot) (r : Option Orphan) : (s.setOrphan u r).pli = s.pli := rfl
@[simp] theorem State.setOrphan_ports (u : Slot) (r : Option Orphan) : (s.setOrphan u r).ports = s.ports := rfl
@[simp] theorem State.setOrphan_ros (u : Slot) (r : Option Orphan) : (s.setOrphan u r).ros = s.ros := rfl
@[simp] theorem State.setOrphan_head (u : Slot) (r : Option Orphan) : (s.setOrphan u r).head = s.head := rfl
@[simp] theorem State.setOrphan_tgt (u : Slot) (r : Option Orphan) : (s.setOrphan u r).tgt = s.tgt := rfl
@[simp] theorem State.setOrphan_prf (u : Slot) (r : Option Orphan) : (s.setOrphan u r).prf = s.prf := rfl
@[simp] theorem State.setOrphan_pln (u : Slot) (r : Option Orphan) : (s.setOrphan u r).pln = s.pln := rfl
@[simp] theorem State.setOrphan_trs (u : Slot) (r : Option Orphan) : (s.setOrphan u r).trs = { s.trs with orphans := s.trs.orphans.set u r } := rfl
@[simp] theorem State.setOrphan_alc (u : Slot) (r : Option Orphan) : (s.setOrphan u r).alc = s.alc := rfl
@[simp] theorem State.setOrphan_ste (u : Slot) (r : Option Orphan) : (s.setOrphan u r).ste = s.ste := rfl
@[simp] theorem State.setOrphan_plantOut (u : Slot) (r : Option Orphan) : (s.setOrphan u r).plantOut = s.plantOut := rfl
@[simp] theorem State.setOrphan_unitOut (u : Slot) (r : Option Orphan) : (s.setOrphan u r).unitOut = s.unitOut := rfl

@[simp] theorem State.setPlayback_pending (b : Playback) : (s.setPlayback b).pending = s.pending := rfl
@[simp] theorem State.setPlayback_pli (b : Playback) : (s.setPlayback b).pli = s.pli := rfl
@[simp] theorem State.setPlayback_ports (b : Playback) : (s.setPlayback b).ports = s.ports := rfl
@[simp] theorem State.setPlayback_ros (b : Playback) : (s.setPlayback b).ros = s.ros := rfl
@[simp] theorem State.setPlayback_head (b : Playback) : (s.setPlayback b).head = s.head := rfl
@[simp] theorem State.setPlayback_tgt (b : Playback) : (s.setPlayback b).tgt = s.tgt := rfl
@[simp] theorem State.setPlayback_prf (b : Playback) : (s.setPlayback b).prf = { s.prf with playback := b } := rfl
@[simp] theorem State.setPlayback_pln (b : Playback) : (s.setPlayback b).pln = s.pln := rfl
@[simp] theorem State.setPlayback_trs (b : Playback) : (s.setPlayback b).trs = s.trs := rfl
@[simp] theorem State.setPlayback_alc (b : Playback) : (s.setPlayback b).alc = s.alc := rfl
@[simp] theorem State.setPlayback_ste (b : Playback) : (s.setPlayback b).ste = s.ste := rfl
@[simp] theorem State.setPlayback_plantOut (b : Playback) : (s.setPlayback b).plantOut = s.plantOut := rfl
@[simp] theorem State.setPlayback_unitOut (b : Playback) : (s.setPlayback b).unitOut = s.unitOut := rfl

@[simp] theorem State.sendUp_pending (f : PlantFrame) : (s.sendUp f).pending = s.pending := rfl
@[simp] theorem State.sendUp_pli (f : PlantFrame) : (s.sendUp f).pli = s.pli := rfl
@[simp] theorem State.sendUp_ports (f : PlantFrame) : (s.sendUp f).ports = s.ports := rfl
@[simp] theorem State.sendUp_ros (f : PlantFrame) : (s.sendUp f).ros = s.ros := rfl
@[simp] theorem State.sendUp_head (f : PlantFrame) : (s.sendUp f).head = s.head := rfl
@[simp] theorem State.sendUp_tgt (f : PlantFrame) : (s.sendUp f).tgt = s.tgt := rfl
@[simp] theorem State.sendUp_prf (f : PlantFrame) : (s.sendUp f).prf = s.prf := rfl
@[simp] theorem State.sendUp_pln (f : PlantFrame) : (s.sendUp f).pln = s.pln := rfl
@[simp] theorem State.sendUp_trs (f : PlantFrame) : (s.sendUp f).trs = s.trs := rfl
@[simp] theorem State.sendUp_alc (f : PlantFrame) : (s.sendUp f).alc = s.alc := rfl
@[simp] theorem State.sendUp_ste (f : PlantFrame) : (s.sendUp f).ste = s.ste := rfl
@[simp] theorem State.sendUp_plantOut (f : PlantFrame) : (s.sendUp f).plantOut = s.plantOut ++ [f] := rfl
@[simp] theorem State.sendUp_unitOut (f : PlantFrame) : (s.sendUp f).unitOut = s.unitOut := rfl

@[simp] theorem State.takePlantFrame_pending : s.takePlantFrame.pending = s.pending := rfl
@[simp] theorem State.takePlantFrame_pli : s.takePlantFrame.pli = { s.pli with framer := none } := rfl
@[simp] theorem State.takePlantFrame_ports : s.takePlantFrame.ports = s.ports := rfl
@[simp] theorem State.takePlantFrame_ros : s.takePlantFrame.ros = s.ros := rfl
@[simp] theorem State.takePlantFrame_head : s.takePlantFrame.head = s.head := rfl
@[simp] theorem State.takePlantFrame_tgt : s.takePlantFrame.tgt = s.tgt := rfl
@[simp] theorem State.takePlantFrame_prf : s.takePlantFrame.prf = s.prf := rfl
@[simp] theorem State.takePlantFrame_pln : s.takePlantFrame.pln = s.pln := rfl
@[simp] theorem State.takePlantFrame_trs : s.takePlantFrame.trs = s.trs := rfl
@[simp] theorem State.takePlantFrame_alc : s.takePlantFrame.alc = s.alc := rfl
@[simp] theorem State.takePlantFrame_ste : s.takePlantFrame.ste = s.ste := rfl
@[simp] theorem State.takePlantFrame_plantOut : s.takePlantFrame.plantOut = s.plantOut := rfl
@[simp] theorem State.takePlantFrame_unitOut : s.takePlantFrame.unitOut = s.unitOut := rfl

@[simp] theorem State.takeUnitFrame_pending (p : Port) : (s.takeUnitFrame p).pending = s.pending := rfl
@[simp] theorem State.takeUnitFrame_pli (p : Port) : (s.takeUnitFrame p).pli = s.pli := rfl
@[simp] theorem State.takeUnitFrame_ports (p : Port) : (s.takeUnitFrame p).ports = s.ports.set p { s.portRec p with framer := none } := rfl
@[simp] theorem State.takeUnitFrame_ros (p : Port) : (s.takeUnitFrame p).ros = s.ros := rfl
@[simp] theorem State.takeUnitFrame_head (p : Port) : (s.takeUnitFrame p).head = s.head := rfl
@[simp] theorem State.takeUnitFrame_tgt (p : Port) : (s.takeUnitFrame p).tgt = s.tgt := rfl
@[simp] theorem State.takeUnitFrame_prf (p : Port) : (s.takeUnitFrame p).prf = s.prf := rfl
@[simp] theorem State.takeUnitFrame_pln (p : Port) : (s.takeUnitFrame p).pln = s.pln := rfl
@[simp] theorem State.takeUnitFrame_trs (p : Port) : (s.takeUnitFrame p).trs = s.trs := rfl
@[simp] theorem State.takeUnitFrame_alc (p : Port) : (s.takeUnitFrame p).alc = s.alc := rfl
@[simp] theorem State.takeUnitFrame_ste (p : Port) : (s.takeUnitFrame p).ste = s.ste := rfl
@[simp] theorem State.takeUnitFrame_plantOut (p : Port) : (s.takeUnitFrame p).plantOut = s.plantOut := rfl
@[simp] theorem State.takeUnitFrame_unitOut (p : Port) : (s.takeUnitFrame p).unitOut = s.unitOut := rfl

@[simp] theorem State.setHolder_pending (c : Conv) (h : Option Holder) : (s.setHolder c h).pending = s.pending := by cases c <;> rfl
@[simp] theorem State.setHolder_pli (c : Conv) (h : Option Holder) : (s.setHolder c h).pli = s.pli := by cases c <;> rfl
@[simp] theorem State.setHolder_ports (c : Conv) (h : Option Holder) : (s.setHolder c h).ports = s.ports := by cases c <;> rfl
@[simp] theorem State.setHolder_ros (c : Conv) (h : Option Holder) : (s.setHolder c h).ros = s.ros := by cases c <;> rfl
@[simp] theorem State.setHolder_head (c : Conv) (h : Option Holder) : (s.setHolder c h).head = s.head := by cases c <;> rfl
@[simp] theorem State.setHolder_tgt (c : Conv) (h : Option Holder) : (s.setHolder c h).tgt = s.tgt := by cases c <;> rfl
@[simp] theorem State.setHolder_prf (c : Conv) (h : Option Holder) : (s.setHolder c h).prf = s.prf := by cases c <;> rfl
@[simp] theorem State.setHolder_pln (c : Conv) (h : Option Holder) : (s.setHolder c h).pln = s.pln := by cases c <;> rfl
@[simp] theorem State.setHolder_alc (c : Conv) (h : Option Holder) : (s.setHolder c h).alc = s.alc := by cases c <;> rfl
@[simp] theorem State.setHolder_ste (c : Conv) (h : Option Holder) : (s.setHolder c h).ste = s.ste := by cases c <;> rfl
@[simp] theorem State.setHolder_plantOut (c : Conv) (h : Option Holder) : (s.setHolder c h).plantOut = s.plantOut := by cases c <;> rfl
@[simp] theorem State.setHolder_unitOut (c : Conv) (h : Option Holder) : (s.setHolder c h).unitOut = s.unitOut := by cases c <;> rfl

@[simp] theorem State.setWaterway_pending (w : Waterway) (r : WaterwayRec) : (s.setWaterway w r).pending = s.pending := by
  unfold State.setWaterway; split <;> rfl
@[simp] theorem State.setWaterway_pli (w : Waterway) (r : WaterwayRec) : (s.setWaterway w r).pli = s.pli := by
  unfold State.setWaterway; split <;> rfl
@[simp] theorem State.setWaterway_ports (w : Waterway) (r : WaterwayRec) : (s.setWaterway w r).ports = s.ports := by
  unfold State.setWaterway; split <;> rfl
@[simp] theorem State.setWaterway_ros (w : Waterway) (r : WaterwayRec) : (s.setWaterway w r).ros = s.ros := by
  unfold State.setWaterway; split <;> rfl
@[simp] theorem State.setWaterway_head (w : Waterway) (r : WaterwayRec) : (s.setWaterway w r).head = s.head := by
  unfold State.setWaterway; split <;> rfl
@[simp] theorem State.setWaterway_tgt (w : Waterway) (r : WaterwayRec) : (s.setWaterway w r).tgt = s.tgt := by
  unfold State.setWaterway; split <;> rfl
@[simp] theorem State.setWaterway_prf (w : Waterway) (r : WaterwayRec) : (s.setWaterway w r).prf = s.prf := by
  unfold State.setWaterway; split <;> rfl
@[simp] theorem State.setWaterway_pln (w : Waterway) (r : WaterwayRec) : (s.setWaterway w r).pln = s.pln := by
  unfold State.setWaterway; split <;> rfl
@[simp] theorem State.setWaterway_alc (w : Waterway) (r : WaterwayRec) : (s.setWaterway w r).alc = s.alc := by
  unfold State.setWaterway; split <;> rfl
@[simp] theorem State.setWaterway_ste (w : Waterway) (r : WaterwayRec) : (s.setWaterway w r).ste = s.ste := by
  unfold State.setWaterway; split <;> rfl
@[simp] theorem State.setWaterway_plantOut (w : Waterway) (r : WaterwayRec) : (s.setWaterway w r).plantOut = s.plantOut := by
  unfold State.setWaterway; split <;> rfl
@[simp] theorem State.setWaterway_unitOut (w : Waterway) (r : WaterwayRec) : (s.setWaterway w r).unitOut = s.unitOut := by
  unfold State.setWaterway; split <;> rfl

@[simp] theorem State.post_pending (k : EventKind) (u : Option Slot) (v : Option Int) : (s.post k u v).pending = s.pending := rfl
@[simp] theorem State.post_pli (k : EventKind) (u : Option Slot) (v : Option Int) : (s.post k u v).pli = s.pli := rfl
@[simp] theorem State.post_ports (k : EventKind) (u : Option Slot) (v : Option Int) : (s.post k u v).ports = s.ports := rfl
@[simp] theorem State.post_ros (k : EventKind) (u : Option Slot) (v : Option Int) : (s.post k u v).ros = s.ros := rfl
@[simp] theorem State.post_head (k : EventKind) (u : Option Slot) (v : Option Int) : (s.post k u v).head = s.head := rfl
@[simp] theorem State.post_tgt (k : EventKind) (u : Option Slot) (v : Option Int) : (s.post k u v).tgt = s.tgt := rfl
@[simp] theorem State.post_prf (k : EventKind) (u : Option Slot) (v : Option Int) : (s.post k u v).prf = s.prf := rfl
@[simp] theorem State.post_pln (k : EventKind) (u : Option Slot) (v : Option Int) : (s.post k u v).pln = s.pln := rfl
@[simp] theorem State.post_trs (k : EventKind) (u : Option Slot) (v : Option Int) : (s.post k u v).trs = s.trs := rfl
@[simp] theorem State.post_alc (k : EventKind) (u : Option Slot) (v : Option Int) : (s.post k u v).alc = s.alc := rfl
@[simp] theorem State.post_plantOut (k : EventKind) (u : Option Slot) (v : Option Int) : (s.post k u v).plantOut = s.plantOut := rfl
@[simp] theorem State.post_unitOut (k : EventKind) (u : Option Slot) (v : Option Int) : (s.post k u v).unitOut = s.unitOut := rfl

@[simp] theorem State.hand_pending (p : Port) (f : UnitFrame) : (s.hand p f).pending = s.pending := by
  unfold State.hand; split <;> rfl
@[simp] theorem State.hand_pli (p : Port) (f : UnitFrame) : (s.hand p f).pli = s.pli := by
  unfold State.hand; split <;> rfl
@[simp] theorem State.hand_ros (p : Port) (f : UnitFrame) : (s.hand p f).ros = s.ros := by
  unfold State.hand; split <;> rfl
@[simp] theorem State.hand_head (p : Port) (f : UnitFrame) : (s.hand p f).head = s.head := by
  unfold State.hand; split <;> rfl
@[simp] theorem State.hand_tgt (p : Port) (f : UnitFrame) : (s.hand p f).tgt = s.tgt := by
  unfold State.hand; split <;> rfl
@[simp] theorem State.hand_prf (p : Port) (f : UnitFrame) : (s.hand p f).prf = s.prf := by
  unfold State.hand; split <;> rfl
@[simp] theorem State.hand_pln (p : Port) (f : UnitFrame) : (s.hand p f).pln = s.pln := by
  unfold State.hand; split <;> rfl
@[simp] theorem State.hand_trs (p : Port) (f : UnitFrame) : (s.hand p f).trs = s.trs := by
  unfold State.hand; split <;> rfl
@[simp] theorem State.hand_alc (p : Port) (f : UnitFrame) : (s.hand p f).alc = s.alc := by
  unfold State.hand; split <;> rfl
@[simp] theorem State.hand_ste (p : Port) (f : UnitFrame) : (s.hand p f).ste = s.ste := by
  unfold State.hand; split <;> rfl
@[simp] theorem State.hand_plantOut (p : Port) (f : UnitFrame) : (s.hand p f).plantOut = s.plantOut := by
  unfold State.hand; split <;> rfl

@[simp] theorem State.reply_pending (tag cls kind : Byte) (c : Code) (d : Nat) (b : List Byte) :
    (s.reply tag cls kind c d b).pending = s.pending := rfl
@[simp] theorem State.reply_pli (tag cls kind : Byte) (c : Code) (d : Nat) (b : List Byte) :
    (s.reply tag cls kind c d b).pli = s.pli := rfl
@[simp] theorem State.reply_ports (tag cls kind : Byte) (c : Code) (d : Nat) (b : List Byte) :
    (s.reply tag cls kind c d b).ports = s.ports := rfl
@[simp] theorem State.reply_ros (tag cls kind : Byte) (c : Code) (d : Nat) (b : List Byte) :
    (s.reply tag cls kind c d b).ros = s.ros := rfl
@[simp] theorem State.reply_head (tag cls kind : Byte) (c : Code) (d : Nat) (b : List Byte) :
    (s.reply tag cls kind c d b).head = s.head := rfl
@[simp] theorem State.reply_tgt (tag cls kind : Byte) (c : Code) (d : Nat) (b : List Byte) :
    (s.reply tag cls kind c d b).tgt = s.tgt := rfl
@[simp] theorem State.reply_prf (tag cls kind : Byte) (c : Code) (d : Nat) (b : List Byte) :
    (s.reply tag cls kind c d b).prf = s.prf := rfl
@[simp] theorem State.reply_pln (tag cls kind : Byte) (c : Code) (d : Nat) (b : List Byte) :
    (s.reply tag cls kind c d b).pln = s.pln := rfl
@[simp] theorem State.reply_trs (tag cls kind : Byte) (c : Code) (d : Nat) (b : List Byte) :
    (s.reply tag cls kind c d b).trs = s.trs := rfl
@[simp] theorem State.reply_alc (tag cls kind : Byte) (c : Code) (d : Nat) (b : List Byte) :
    (s.reply tag cls kind c d b).alc = s.alc := rfl
@[simp] theorem State.reply_ste (tag cls kind : Byte) (c : Code) (d : Nat) (b : List Byte) :
    (s.reply tag cls kind c d b).ste = s.ste := rfl
@[simp] theorem State.reply_plantOut (tag cls kind : Byte) (c : Code) (d : Nat) (b : List Byte) :
    (s.reply tag cls kind c d b).plantOut = s.plantOut ++ [.reply tag cls kind c (BitVec.ofNat 16 d) b] := rfl
@[simp] theorem State.reply_unitOut (tag cls kind : Byte) (c : Code) (d : Nat) (b : List Byte) :
    (s.reply tag cls kind c d b).unitOut = s.unitOut := rfl

@[simp] theorem State.manage_pending (tag kind : Byte) (c : Code) (d : Nat) (b : List Byte) :
    (s.manage tag kind c d b).pending = s.pending := rfl
@[simp] theorem State.manage_pli (tag kind : Byte) (c : Code) (d : Nat) (b : List Byte) :
    (s.manage tag kind c d b).pli = s.pli := rfl
@[simp] theorem State.manage_ports (tag kind : Byte) (c : Code) (d : Nat) (b : List Byte) :
    (s.manage tag kind c d b).ports = s.ports := rfl
@[simp] theorem State.manage_ros (tag kind : Byte) (c : Code) (d : Nat) (b : List Byte) :
    (s.manage tag kind c d b).ros = s.ros := rfl
@[simp] theorem State.manage_head (tag kind : Byte) (c : Code) (d : Nat) (b : List Byte) :
    (s.manage tag kind c d b).head = s.head := rfl
@[simp] theorem State.manage_tgt (tag kind : Byte) (c : Code) (d : Nat) (b : List Byte) :
    (s.manage tag kind c d b).tgt = s.tgt := rfl
@[simp] theorem State.manage_prf (tag kind : Byte) (c : Code) (d : Nat) (b : List Byte) :
    (s.manage tag kind c d b).prf = s.prf := rfl
@[simp] theorem State.manage_pln (tag kind : Byte) (c : Code) (d : Nat) (b : List Byte) :
    (s.manage tag kind c d b).pln = s.pln := rfl
@[simp] theorem State.manage_trs (tag kind : Byte) (c : Code) (d : Nat) (b : List Byte) :
    (s.manage tag kind c d b).trs = s.trs := rfl
@[simp] theorem State.manage_alc (tag kind : Byte) (c : Code) (d : Nat) (b : List Byte) :
    (s.manage tag kind c d b).alc = s.alc := rfl
@[simp] theorem State.manage_ste (tag kind : Byte) (c : Code) (d : Nat) (b : List Byte) :
    (s.manage tag kind c d b).ste = s.ste := rfl
@[simp] theorem State.manage_plantOut (tag kind : Byte) (c : Code) (d : Nat) (b : List Byte) :
    (s.manage tag kind c d b).plantOut = s.plantOut ++ [.reply tag classManage kind c (BitVec.ofNat 16 d) b] := rfl
@[simp] theorem State.manage_unitOut (tag kind : Byte) (c : Code) (d : Nat) (b : List Byte) :
    (s.manage tag kind c d b).unitOut = s.unitOut := rfl

@[simp] theorem State.answer_pending (tag kind : Byte) (c : Code) (d : Nat) (b : List Byte) :
    (s.answer tag kind c d b).pending = s.pending := rfl
@[simp] theorem State.answer_pli (tag kind : Byte) (c : Code) (d : Nat) (b : List Byte) :
    (s.answer tag kind c d b).pli = s.pli := rfl
@[simp] theorem State.answer_ports (tag kind : Byte) (c : Code) (d : Nat) (b : List Byte) :
    (s.answer tag kind c d b).ports = s.ports := rfl
@[simp] theorem State.answer_ros (tag kind : Byte) (c : Code) (d : Nat) (b : List Byte) :
    (s.answer tag kind c d b).ros = s.ros := rfl
@[simp] theorem State.answer_head (tag kind : Byte) (c : Code) (d : Nat) (b : List Byte) :
    (s.answer tag kind c d b).head = s.head := rfl
@[simp] theorem State.answer_tgt (tag kind : Byte) (c : Code) (d : Nat) (b : List Byte) :
    (s.answer tag kind c d b).tgt = s.tgt := rfl
@[simp] theorem State.answer_prf (tag kind : Byte) (c : Code) (d : Nat) (b : List Byte) :
    (s.answer tag kind c d b).prf = s.prf := rfl
@[simp] theorem State.answer_pln (tag kind : Byte) (c : Code) (d : Nat) (b : List Byte) :
    (s.answer tag kind c d b).pln = s.pln := rfl
@[simp] theorem State.answer_trs (tag kind : Byte) (c : Code) (d : Nat) (b : List Byte) :
    (s.answer tag kind c d b).trs = s.trs := rfl
@[simp] theorem State.answer_alc (tag kind : Byte) (c : Code) (d : Nat) (b : List Byte) :
    (s.answer tag kind c d b).alc = s.alc := rfl
@[simp] theorem State.answer_ste (tag kind : Byte) (c : Code) (d : Nat) (b : List Byte) :
    (s.answer tag kind c d b).ste = s.ste := rfl
@[simp] theorem State.answer_plantOut (tag kind : Byte) (c : Code) (d : Nat) (b : List Byte) :
    (s.answer tag kind c d b).plantOut = s.plantOut ++ [.reply tag classQuery kind c (BitVec.ofNat 16 d) b] := rfl
@[simp] theorem State.answer_unitOut (tag kind : Byte) (c : Code) (d : Nat) (b : List Byte) :
    (s.answer tag kind c d b).unitOut = s.unitOut := rfl

/-! ## Reads of records after writes -/

@[simp] theorem State.setPort_portRec (p q : Port) (r : PortRec) :
    (s.setPort p r).portRec q = if q = p then r else s.portRec q := by simp [State.portRec]
@[simp] theorem State.setUnit_unitRec (u v : Slot) (r : UnitRec) :
    (s.setUnit u r).unitRec v = if v = u then r else s.unitRec v := by simp [State.unitRec]
@[simp] theorem State.setReq_req (u v : Slot) (r : Option Request) :
    (s.setReq u r).req v = if v = u then r else s.req v := by simp [State.req]
@[simp] theorem State.setOrphan_orphan (u v : Slot) (r : Option Orphan) :
    (s.setOrphan u r).orphan v = if v = u then r else s.orphan v := by simp [State.orphan]
@[simp] theorem State.setHolder_holder (c d : Conv) (h : Option Holder) :
    (s.setHolder c h).holder d = if d = c then h else s.holder d := by cases c <;> cases d <;> rfl
@[simp] theorem State.setOrphan_req (u v : Slot) (r : Option Orphan) : (s.setOrphan u r).req v = s.req v := rfl
@[simp] theorem State.setReq_orphan (u v : Slot) (r : Option Request) : (s.setReq u r).orphan v = s.orphan v := rfl
@[simp] theorem State.setReq_holder (u : Slot) (r : Option Request) (c : Conv) : (s.setReq u r).holder c = s.holder c := by
  cases c <;> rfl
@[simp] theorem State.setOrphan_holder (u : Slot) (r : Option Orphan) (c : Conv) :
    (s.setOrphan u r).holder c = s.holder c := by cases c <;> rfl
@[simp] theorem State.setHolder_req (c : Conv) (h : Option Holder) (u : Slot) : (s.setHolder c h).req u = s.req u := by
  cases c <;> rfl
@[simp] theorem State.setHolder_orphan (c : Conv) (h : Option Holder) (u : Slot) :
    (s.setHolder c h).orphan u = s.orphan u := by cases c <;> rfl
@[simp] theorem State.setHolder_waterways (c : Conv) (h : Option Holder) :
    (s.setHolder c h).trs.waterways = s.trs.waterways := by cases c <;> rfl
@[simp] theorem State.setWaterway_req (w : Waterway) (r : WaterwayRec) (u : Slot) : (s.setWaterway w r).req u = s.req u := by
  unfold State.setWaterway; split <;> rfl
@[simp] theorem State.setWaterway_orphan (w : Waterway) (r : WaterwayRec) (u : Slot) :
    (s.setWaterway w r).orphan u = s.orphan u := by unfold State.setWaterway; split <;> rfl
@[simp] theorem State.setWaterway_holder (w : Waterway) (r : WaterwayRec) (c : Conv) :
    (s.setWaterway w r).holder c = s.holder c := by unfold State.setWaterway; cases c <;> split <;> rfl
@[simp] theorem State.setWaterway_waterwayOf (w : Waterway) (r : WaterwayRec) (u : Slot) :
    (s.setWaterway w r).waterwayOf u = s.waterwayOf u := by
  unfold State.setWaterway State.waterwayOf; split <;> simp [*]
/-- Writing a waterway record changes that record alone, and none while no table is in force. -/
@[simp] theorem State.setWaterway_waterwayRec (w v : Waterway) (r : WaterwayRec) :
    (s.setWaterway w r).waterwayRec v = if v = w then (s.waterwayRec v).map (fun _ => r) else s.waterwayRec v := by
  unfold State.setWaterway State.waterwayRec
  cases h : s.trs.waterways
  · simp [h]
  · by_cases hv : v = w <;> simp [hv]

/-! ## What a read depends on -/

theorem State.clock_congr {s t : State} (h : t.pli = s.pli) : t.clock = s.clock := by simp only [State.clock, h]
theorem State.params_congr {s t : State} (h : t.pli = s.pli) : t.params = s.params := by simp only [State.params, h]
theorem State.governs_congr {s t : State} (h : t.pli = s.pli) : t.governs = s.governs := by simp only [State.governs, h]
theorem State.inFallback_congr {s t : State} (h : t.pli = s.pli) : t.inFallback = s.inFallback := by
  simp only [State.inFallback, h]
theorem State.unitRec_congr {s t : State} (h : t.ros = s.ros) (u : Slot) : t.unitRec u = s.unitRec u := by
  simp only [State.unitRec, h]
theorem State.portRec_congr {s t : State} (h : t.ports = s.ports) (p : Port) : t.portRec p = s.portRec p := by
  simp only [State.portRec, h]
theorem State.req_congr {s t : State} (h : t.trs = s.trs) (u : Slot) : t.req u = s.req u := by simp only [State.req, h]
theorem State.orphan_congr {s t : State} (h : t.trs = s.trs) (u : Slot) : t.orphan u = s.orphan u := by
  simp only [State.orphan, h]
theorem State.holder_congr {s t : State} (h : t.trs = s.trs) (c : Conv) : t.holder c = s.holder c := by
  cases c <;> simp only [State.holder, h]
theorem State.waterwayOf_congr {s t : State} (h : t.trs = s.trs) (u : Slot) : t.waterwayOf u = s.waterwayOf u := by
  simp only [State.waterwayOf, h]
theorem State.waterwayRec_congr {s t : State} (h : t.trs = s.trs) (w : Waterway) : t.waterwayRec w = s.waterwayRec w := by
  simp only [State.waterwayRec, h]
theorem State.headInUse_congr {s t : State} (h : t.head = s.head) (hp : t.params = s.params) : t.headInUse = s.headInUse := by
  simp only [State.headInUse, State.headSource, h, hp]
theorem State.record_congr {s t : State} (h : t.head = s.head) (hp : t.params = s.params) (u : Slot) :
    t.record u = s.record u := by
  simp only [State.record, State.headInUse_congr h hp, h]
theorem State.limits_congr {s t : State} (h : t.head = s.head) (hp : t.params = s.params) (u : Slot) :
    t.limits u = s.limits u := by
  simp only [State.limits, State.record_congr h hp]

end Machine

end Sys2Proof
end

