-- ==== Sys2Proof/Laws/Frames.lean ====
section
/-! SUPPORT. What the shared operations leave alone: the frames of Safety.lean compose, and each operation of the cascade
(requests, grants, orders, assignment, allocation) keeps `CascadeFrame`. -/

namespace Sys2Proof.Machine

/-! ## The relations compose -/

theorem Posted.trans {now : Word} {a b c : Ste} (h : Posted now a b) (k : Posted now b c) : Posted now a c := by
  induction k with
  | refl => exact h
  | post _ kind slot value ih => exact ih.post kind slot value

/-- `post` posts one event at the part clock. -/
theorem posted_post (s : State) (k : EventKind) (u : Option Slot) (v : Option Int) :
    Posted s.clock s.ste (s.post k u v).ste := by
  have h := Posted.post (Posted.refl (now := s.clock) (a := s.ste)) k u v
  have e : (if decide (64 ≤ s.ste.events.length) = true then s.ste.events.tail else s.ste.events)
      = if 64 ≤ s.ste.events.length then s.ste.events.tail else s.ste.events := by simp
  rw [← e] at h
  exact h

theorem SameUnits.refl (s : State) : SameUnits s s := ⟨rfl, fun _ => rfl⟩
theorem SameUnits.of_eq {s t : State} (h : t.ros = s.ros) : SameUnits s t :=
  ⟨by rw [h], fun u => by rw [State.unitRec_congr h]⟩
theorem SameUnits.trans {s t r : State} (h : SameUnits s t) (k : SameUnits t r) : SameUnits s r :=
  ⟨k.1.trans h.1, fun u => (k.2 u).trans (h.2 u)⟩
theorem SamePorts.refl (s : State) : SamePorts s s := fun _ => rfl
theorem SamePorts.of_eq {s t : State} (h : t.ports = s.ports) : SamePorts s t := fun p => by rw [State.portRec_congr h]
theorem SamePorts.trans {s t r : State} (h : SamePorts s t) (k : SamePorts t r) : SamePorts s r :=
  fun p => (k p).trans (h p)
theorem SameWaterways.of_eq {s t : State} (h : t.trs.waterways = s.trs.waterways) : SameWaterways s t :=
  ⟨fun w => by simp only [State.waterwayRec, h], fun u => by simp only [State.waterwayOf, h]⟩
theorem SameWaterways.trans {s t r : State} (h : SameWaterways s t) (k : SameWaterways t r) : SameWaterways s r :=
  ⟨fun w => (k.1 w).trans (h.1 w), fun u => (k.2 u).trans (h.2 u)⟩

theorem PlayFrame.refl (s : State) : PlayFrame s s :=
  ⟨rfl, rfl, rfl, rfl, rfl, rfl, rfl, rfl, .refl s, .refl s, .of_eq rfl, .refl⟩
theorem PlayFrame.trans {s t r : State} (h : PlayFrame s t) (k : PlayFrame t r) : PlayFrame s r where
  pending := k.pending.trans h.pending
  pli := k.pli.trans h.pli
  head := k.head.trans h.head
  dir := k.dir.trans h.dir
  divider := k.divider.trans h.divider
  pulse := k.pulse.trans h.pulse
  plantOut := k.plantOut.trans h.plantOut
  table := k.table.trans h.table
  units := h.units.trans k.units
  ports := h.ports.trans k.ports
  waterways := h.waterways.trans k.waterways
  posted := h.posted.trans (State.clock_congr h.pli ▸ k.posted)
theorem TargetFrame.refl (s : State) : TargetFrame s s := ⟨.refl s, rfl⟩
theorem TargetFrame.trans {s t r : State} (h : TargetFrame s t) (k : TargetFrame t r) : TargetFrame s r :=
  ⟨h.toPlayFrame.trans k.toPlayFrame, k.playback.trans h.playback⟩
theorem SelectFrame.refl (s : State) : SelectFrame s s := ⟨.refl s, rfl⟩
theorem SelectFrame.trans {s t r : State} (h : SelectFrame s t) (k : SelectFrame t r) : SelectFrame s r :=
  ⟨h.toTargetFrame.trans k.toTargetFrame, k.tgt.trans h.tgt⟩
theorem CascadeFrame.refl (s : State) : CascadeFrame s s := ⟨.refl s, rfl, rfl, rfl⟩
theorem CascadeFrame.trans {s t r : State} (h : CascadeFrame s t) (k : CascadeFrame t r) : CascadeFrame s r :=
  ⟨h.toSelectFrame.trans k.toSelectFrame, k.selected.trans h.selected, k.proposal.trans h.proposal, k.gap.trans h.gap⟩

/-- A fold keeps what each of its steps keeps. -/
theorem CascadeFrame.foldl {α : Type} {f : State → α → State} (h : ∀ s a, CascadeFrame s (f s a)) (xs : List α) (s : State) :
    CascadeFrame s (xs.foldl f s) := by
  induction xs generalizing s with
  | nil => exact .refl s
  | cons a xs ih => exact (h s a).trans (ih (f s a))

/-- The frame from its parts, for an operation that keeps the planner's selection and the profile store whole. -/
theorem CascadeFrame.of_parts {s t : State} (pending : t.pending = s.pending) (pli : t.pli = s.pli) (head : t.head = s.head)
    (tgt : t.tgt = s.tgt) (prf : t.prf = s.prf) (plantOut : t.plantOut = s.plantOut) (pln : t.pln = s.pln)
    (units : SameUnits s t) (ports : SamePorts s t) (waterways : SameWaterways s t) (posted : Posted s.clock s.ste t.ste) :
    CascadeFrame s t :=
  ⟨⟨⟨⟨pending, pli, head, by rw [prf], by rw [prf], by rw [prf], plantOut, by rw [pln], units, ports, waterways, posted⟩,
    by rw [prf]⟩, tgt⟩, by rw [pln], by rw [pln], by rw [pln]⟩

/-! ## Requests, resources and events -/

theorem cascade_post (s : State) (k : EventKind) (u : Option Slot) (v : Option Int) : CascadeFrame s (s.post k u v) :=
  .of_parts rfl rfl rfl rfl rfl rfl rfl (.of_eq rfl) (.of_eq rfl) (.of_eq rfl) (posted_post s k u v)

theorem cascade_setReq (s : State) (u : Slot) (r : Option Request) : CascadeFrame s (s.setReq u r) :=
  .of_parts rfl rfl rfl rfl rfl rfl rfl (.of_eq rfl) (.of_eq rfl) (.of_eq rfl) .refl

theorem cascade_setOrphan (s : State) (u : Slot) (r : Option Orphan) : CascadeFrame s (s.setOrphan u r) :=
  .of_parts rfl rfl rfl rfl rfl rfl rfl (.of_eq rfl) (.of_eq rfl) (.of_eq rfl) .refl

theorem cascade_setHolder (s : State) (c : Conv) (h : Option Holder) : CascadeFrame s (s.setHolder c h) :=
  .of_parts (by simp) (by simp) (by simp) (by simp) (by simp) (by simp) (by simp) (.of_eq (by simp)) (.of_eq (by simp))
    (.of_eq (by simp)) (by rw [State.setHolder_ste]; exact .refl)

/-- Writing a waterway record whose settings stay keeps the table in force. -/
theorem cascade_setWaterway (s : State) (w : Waterway) (r : WaterwayRec) (h : ∀ q, s.waterwayRec w = some q → r.row = q.row) :
    CascadeFrame s (s.setWaterway w r) := by
  refine .of_parts (by simp) (by simp) (by simp) (by simp) (by simp) (by simp) (by simp) (.of_eq (by simp)) (.of_eq (by simp))
    ⟨fun v => ?_, fun u => by simp⟩ (by rw [State.setWaterway_ste]; exact .refl)
  by_cases hv : v = w
  · subst hv
    cases hq : s.waterwayRec v with
    | none => simp [hq]
    | some q => simp [hq, h q hq]
  · simp [hv]

theorem cascade_updateWaterwayOf (s : State) (u : Slot) (f : WaterwayRec → WaterwayRec) (h : ∀ r, (f r).row = r.row) :
    CascadeFrame s (s.updateWaterwayOf u f) := by
  unfold State.updateWaterwayOf
  split
  · exact .refl s
  · split
    · exact .refl s
    · rename_i r hr
      exact cascade_setWaterway s _ _ (fun q hq => by rw [hr] at hq; cases hq; exact h r)

@[simp] theorem WaterwayRec.startSettle_row (r : WaterwayRec) (now : Word) : (r.startSettle now).row = r.row := rfl
@[simp] theorem WaterwayRec.release_row (r : WaterwayRec) (now : Word) (b : Bool) : (r.release now b).row = r.row := by
  unfold WaterwayRec.release; cases b <;> rfl
@[simp] theorem WaterwayRec.warn_row (r : WaterwayRec) (u : Slot) (now : Word) : (r.warn u now).row = r.row := rfl
@[simp] theorem WaterwayRec.unwarn_row (r : WaterwayRec) (u : Slot) : (r.unwarn u).row = r.row := by
  unfold WaterwayRec.unwarn; split <;> rfl
@[simp] theorem WaterwayRec.nextPhase_row (r : WaterwayRec) (now : Word) : (r.nextPhase now).row = r.row := by
  unfold WaterwayRec.nextPhase; split <;> [rfl; (split <;> [(split <;> rfl); rfl])]

theorem cascade_unwarn (s : State) (u : Slot) : CascadeFrame s (s.unwarn u) := by
  unfold State.unwarn
  split
  · exact .refl s
  · rename_i t ht
    refine .of_parts rfl rfl rfl rfl rfl rfl rfl (.of_eq rfl) (.of_eq rfl) ⟨fun w => ?_, fun v => ?_⟩ .refl
    · simp [State.waterwayRec, ht]
    · simp [State.waterwayOf, ht]

/-! ## Orders and frames -/

theorem cascade_setPort (s : State) (p : Port) (r : PortRec) (h : r.core = (s.portRec p).core) :
    CascadeFrame s (s.setPort p r) := by
  refine .of_parts rfl rfl rfl rfl rfl rfl rfl (.of_eq rfl) (fun q => ?_) (.of_eq rfl) .refl
  by_cases hq : q = p
  · subst hq; simp [h]
  · simp [hq]

theorem cascade_hand (s : State) (p : Port) (f : UnitFrame) : CascadeFrame s (s.hand p f) := by
  unfold State.hand
  split
  · have h := cascade_setPort s p { s.portRec p with sending := some f } rfl
    exact ⟨⟨⟨⟨h.pending, h.pli, h.head, h.dir, h.divider, h.pulse, h.plantOut, h.table, h.units, h.ports, h.waterways,
      h.posted⟩, h.playback⟩, h.tgt⟩, h.selected, h.proposal, h.gap⟩
  · exact cascade_setPort s p _ rfl

theorem cascade_sendOrder (s : State) (p : Port) (k : StepKind) (c : Option Conv) (q : Purpose) :
    CascadeFrame s (s.sendOrder p k c q) := by
  unfold State.sendOrder
  refine (cascade_setPort s p _ ?_).trans (cascade_hand _ _ _)
  rfl

theorem cascade_ceaseOrder (s : State) (u : Slot) (q : Purpose) : CascadeFrame s (s.ceaseOrder u q) := by
  unfold State.ceaseOrder
  split
  · exact .refl s
  · split
    · exact cascade_setPort s _ _ rfl
    · exact .refl s

/-! ## The end of a request -/

theorem cascade_endRequest (s : State) (u : Slot) : CascadeFrame s (s.endRequest u) :=
  (cascade_setReq s u none).trans (cascade_ceaseOrder _ _ _)

theorem cascade_freeConverter (s : State) (c : Option Conv) :
    CascadeFrame s (match c with | some c => s.setHolder c none | none => s) := by
  cases c
  · exact .refl s
  · exact cascade_setHolder s _ _

theorem cascade_freeSlot (s : State) (u : Slot) (held : Bool) (now : Word) (settle : Bool) :
    CascadeFrame s (if held then s.updateWaterwayOf u (·.release now settle) else s) := by
  cases held
  · exact .refl s
  · exact cascade_updateWaterwayOf s u _ (fun r => by simp)

theorem cascade_releaseHeld (s : State) (u : Slot) (settle : Bool) : CascadeFrame s (s.releaseHeld u settle) := by
  unfold State.releaseHeld
  split
  · exact .refl s
  · rename_i r _
    exact (cascade_freeConverter s r.conv).trans ((cascade_freeSlot _ u r.slotHeld _ settle).trans
      ((cascade_unwarn _ u).trans (cascade_setReq _ u _)))

theorem cascade_withdraw (s : State) (u : Slot) : CascadeFrame s (s.withdraw u) := by
  unfold State.withdraw
  refine (cascade_releaseHeld s u false).trans ?_
  dsimp only
  split
  · exact .refl _
  · exact cascade_setReq _ _ _

theorem cascade_waitOn (s : State) (u : Slot) (r : Request) (c : ReqClass) (d : Stable) (p : List PathStep) :
    CascadeFrame s (s.waitOn u r c d p) := by
  unfold State.waitOn
  split
  · exact cascade_endRequest s u
  · exact cascade_setReq s u _

theorem cascade_rewarn (s : State) (u : Slot) (r : Request) (c : ReqClass) (d : Stable) : CascadeFrame s (s.rewarn u r c d) := by
  unfold State.rewarn
  dsimp only
  split
  · exact cascade_setReq s u _
  · refine (cascade_withdraw s u).trans ?_
    split
    · exact .refl _
    · exact cascade_waitOn _ _ _ _ _ _

theorem cascade_failRequest (s : State) (u : Slot) (settle : Bool) : CascadeFrame s (s.failRequest u settle) :=
  (cascade_releaseHeld s u settle).trans (cascade_endRequest _ u)

theorem cascade_cancelRequest (s : State) (u : Slot) : CascadeFrame s (s.cancelRequest u) := by
  unfold State.cancelRequest
  split
  · exact .refl s
  · exact cascade_failRequest s u _

theorem cascade_completeStep (s : State) (u : Slot) (r : Request) (k : StepKind) : CascadeFrame s (s.completeStep u r k) := by
  unfold State.completeStep
  refine ((cascade_releaseHeld s u true).trans (cascade_post _ .stepDone (some u) (some (stepCode k)))).trans ?_
  refine (cascade_ceaseOrder _ u .supervised).trans ?_
  dsimp only
  repeat' split
  all_goals first
    | exact cascade_endRequest _ u
    | exact cascade_setReq _ u _

theorem cascade_judgeStep (s : State) (u : Slot) (r : Request) (st : PathStep) (m : Reported) :
    CascadeFrame s (s.judgeStep u r st m) := by
  unfold State.judgeStep
  repeat' split
  · exact cascade_completeStep _ _ _ _
  · exact cascade_failRequest _ _ _
  · exact cascade_setReq _ _ _
  · exact .refl s
  · exact (cascade_failRequest _ _ _).trans (cascade_post _ _ _ _)

theorem cascade_supervise (s : State) (u : Slot) (m : Reported) (changed : Bool) : CascadeFrame s (s.supervise u m changed) := by
  unfold State.supervise
  split
  · exact .refl s
  · repeat' split
    all_goals first
      | exact .refl s
      | exact cascade_endRequest _ _
      | exact cascade_waitOn _ _ _ _ _ _
      | exact (cascade_withdraw _ _).trans (cascade_endRequest _ _)
      | exact cascade_rewarn _ _ _ _ _
      | exact cascade_judgeStep _ _ _ _ _

/-! ## Demands -/

theorem cascade_compareDemand (s : State) (u : Slot) : CascadeFrame s (s.compareDemand u) := by
  unfold State.compareDemand
  split
  · dsimp only
    split
    · exact .of_parts rfl rfl rfl rfl rfl rfl rfl (.of_eq rfl) (.of_eq rfl) (.of_eq rfl) .refl
    · exact .refl s
  · exact .refl s

theorem cascade_takeDemand (s : State) (u : Slot) : CascadeFrame s (s.takeDemand u) := by
  unfold State.takeDemand
  split
  · exact cascade_compareDemand s u
  · repeat' split
    all_goals first
      | exact cascade_setReq _ _ _
      | exact cascade_endRequest _ _
      | exact cascade_waitOn _ _ _ _ _ _
      | exact (cascade_withdraw _ _).trans (cascade_endRequest _ _)
      | exact cascade_rewarn _ _ _ _ _

/-! ## Grants -/

theorem cascade_orderStep (s : State) (u : Slot) : CascadeFrame s (s.orderStep u) := by
  unfold State.orderStep
  split
  · split
    · exact .refl s
    · exact (cascade_sendOrder s _ _ _ _).trans ((cascade_setReq _ _ _).trans (cascade_post _ _ _ _))
  · exact .refl s

theorem cascade_takeConverter (s : State) (u : Slot) (c : Option Conv) : CascadeFrame s (s.takeConverter u c) := by
  unfold State.takeConverter
  split
  · exact cascade_setHolder s _ _
  · exact .refl s

/-- A granted step is warned or ordered. -/
theorem cascade_warnOrOrder (s : State) (u : Slot) (k : StepKind) (r : Request) :
    CascadeFrame s
      (match s.warningLead u k with
      | none => (s.setReq u (some r)).orderStep u
      | some lead =>
        if lead = 0 then ((s.updateWaterwayOf u (·.warn u s.clock)).setReq u (some r)).orderStep u
        else (s.updateWaterwayOf u (·.warn u s.clock)).setReq u
          (some { r with state := .warning, leadExpiry := some (later (s.updateWaterwayOf u (·.warn u s.clock)).clock lead) })) := by
  split
  · exact (cascade_setReq _ _ _).trans (cascade_orderStep _ _)
  · refine (cascade_updateWaterwayOf s u (·.warn u s.clock) (fun _ => by simp)).trans ?_
    split
    · exact (cascade_setReq _ _ _).trans (cascade_orderStep _ _)
    · exact cascade_setReq _ _ _

theorem cascade_takeSlot (s : State) (u : Slot) (flow : Bool) :
    CascadeFrame s (if flow then s.updateWaterwayOf u (fun w => { w with inProgress := w.inProgress + 1 }) else s) := by
  split
  · exact cascade_updateWaterwayOf s u _ (fun _ => rfl)
  · exact .refl s

theorem cascade_grantStep (s : State) (u : Slot) (r : Request) (st : PathStep) : CascadeFrame s (s.grantStep u r st) :=
  (cascade_takeConverter s u (if st.kind = .pStart then s.freeConverter else none)).trans
    ((cascade_takeSlot _ u st.flowChanging).trans (cascade_warnOrOrder _ u st.kind _))

theorem cascade_tryGrant (s : State) (u : Slot) : CascadeFrame s (s.tryGrant u) := by
  unfold State.tryGrant
  repeat' split
  all_goals first
    | exact .refl s
    | exact cascade_grantStep _ _ _ _
    | exact cascade_setReq _ _ _

theorem cascade_evalGrants (s : State) : CascadeFrame s s.evalGrants := .foldl cascade_tryGrant _ s

/-! ## Assignment -/

/-- Writing the desired modes or PLAN_SHORT and its counts. -/
theorem cascade_setPln (s : State) (b : Pln) (table : b.table = s.pln.table) (selected : b.selected = s.pln.selected)
    (proposal : b.proposal = s.pln.proposal) (gap : b.gap = s.pln.gap) : CascadeFrame s (s.setPln b) :=
  ⟨⟨⟨⟨rfl, rfl, rfl, rfl, rfl, rfl, rfl, table, .of_eq rfl, .of_eq rfl, .of_eq rfl, .refl⟩, rfl⟩, rfl⟩,
    selected, proposal, gap⟩

theorem cascade_notePlanShort (s : State) (a : Assignment) : CascadeFrame s (s.notePlanShort a) := by
  unfold State.notePlanShort
  dsimp only
  split
  · refine (cascade_setPln s _ ?_ ?_ ?_ ?_).trans (cascade_post _ _ _ _) <;> rfl
  · exact cascade_setPln s _ rfl rfl rfl rfl

theorem cascade_handDesired (old : SlotMap (Option Stable)) (s : State) (u : Slot) : CascadeFrame s (State.handDesired old s u) := by
  unfold State.handDesired
  split
  · exact .refl s
  · exact cascade_takeDemand s u

theorem cascade_assign (s : State) : CascadeFrame s s.assign := by
  unfold State.assign
  split
  · exact .refl s
  · rename_i row _
    exact ((cascade_setPln s { s.pln with desired := s.desiredOf (s.assignRow row) } rfl rfl rfl rfl).trans
      (cascade_notePlanShort _ (s.assignRow row))).trans (.foldl (cascade_handDesired _) _ _)

theorem cascade_dropDesired (before s : State) (u : Slot) : CascadeFrame s (State.dropDesired before s u) := by
  unfold State.dropDesired
  split
  · refine (cascade_setPln s _ ?_ ?_ ?_ ?_).trans (cascade_takeDemand _ _) <;> rfl
  · exact .refl s

theorem cascade_replan (before s : State) : CascadeFrame s (State.replan before s) := by
  unfold State.replan
  repeat' split
  · exact .refl s
  · exact cascade_assign s
  · exact .foldl (cascade_dropDesired before) _ _

/-! ## Allocation -/

theorem cascade_setAlc (s : State) (b : Alc) : CascadeFrame s (s.setAlc b) :=
  .of_parts rfl rfl rfl rfl rfl rfl rfl (.of_eq rfl) (.of_eq rfl) (.of_eq rfl) .refl

theorem cascade_postAllocFlags (old : Alc) (s : State) : CascadeFrame s (State.postAllocFlags old s) := by
  unfold State.postAllocFlags
  repeat' split
  all_goals first
    | exact cascade_post _ _ _ _
    | exact .refl s

theorem cascade_sendSetpoint (s : State) (u : Slot) (v : Int) : CascadeFrame s (s.sendSetpoint u v) := by
  unfold State.sendSetpoint
  split
  · exact .refl s
  · refine CascadeFrame.trans (t := s.setUnit u _) ?_ (cascade_hand _ _ _)
    refine .of_parts rfl rfl rfl rfl rfl rfl rfl ⟨rfl, fun w => ?_⟩ (.of_eq rfl) (.of_eq rfl) .refl
    by_cases hw : w = u
    · subst hw; simp [UnitRec.core]
    · simp [hw]

theorem cascade_emitSetpoint (s : State) (u : Slot) : CascadeFrame s (s.emitSetpoint u) := by
  unfold State.emitSetpoint
  repeat' split
  · exact .refl s
  · exact cascade_sendSetpoint _ _ _
  · exact .refl s

theorem cascade_allocate (s : State) : CascadeFrame s s.allocate :=
  ((cascade_setAlc s _).trans (cascade_postAllocFlags _ _)).trans (.foldl cascade_emitSetpoint _ _)

/-! ## The cascade of a command -/

theorem cascade_dropGrant (before s : State) (u : Slot) : CascadeFrame s (State.dropGrant before s u) := by
  unfold State.dropGrant
  split
  · exact cascade_withdraw s u
  · exact .refl s

theorem cascade_planStage (s before : State) (c : Causes) : CascadeFrame s (s.planStage before c) := by
  unfold State.planStage
  refine (CascadeFrame.foldl (cascade_dropGrant before) Slot.all s).trans ?_
  refine CascadeFrame.trans ?_ (.foldl cascade_takeDemand c.hand _)
  split
  · exact cascade_replan before _
  · exact .refl _

theorem cascade_grantStage (s before : State) (c : Causes) : CascadeFrame s (s.grantStage before c) := by
  unfold State.grantStage
  split
  · exact cascade_evalGrants s
  · exact .refl s

theorem cascade_allocStage (s before : State) (c : Causes) : CascadeFrame s (s.allocStage before c) := by
  unfold State.allocStage
  split
  · exact cascade_allocate s
  · exact .refl s

/-- Whatever a command's cascade does, it keeps the cascade's frame. -/
theorem cascade_finish (s before : State) (c : Causes) : CascadeFrame s (s.finish before c) :=
  ((cascade_planStage s before c).trans (cascade_grantStage _ before c)).trans (cascade_allocStage _ before c)

/-! ## Row selection and the targets -/

theorem select_setPln (s : State) (b : Pln) (table : b.table = s.pln.table) : SelectFrame s (s.setPln b) :=
  ⟨⟨⟨rfl, rfl, rfl, rfl, rfl, rfl, rfl, table, .of_eq rfl, .of_eq rfl, .of_eq rfl, .refl⟩, rfl⟩, rfl⟩

theorem select_planGap (s : State) : SelectFrame s s.planGap := by
  unfold State.planGap
  dsimp only
  split
  · exact select_setPln s _ rfl
  · refine (select_setPln s _ ?_).trans (cascade_post _ _ _ _).toSelectFrame
    rfl

theorem select_adopt (s : State) (k : Nat) : SelectFrame s (s.adopt k) := by
  unfold State.adopt
  refine ((select_setPln s _ ?_).trans (cascade_post _ _ _ _).toSelectFrame).trans (cascade_assign _).toSelectFrame
  rfl

theorem select_proposeRow (expired : Bool) (s : State) (k : Nat) : SelectFrame s (State.proposeRow expired s k) := by
  unfold State.proposeRow
  refine (select_setPln s _ rfl : SelectFrame s s.clearGap).trans ?_
  dsimp only
  repeat' split
  all_goals first
    | exact .refl _
    | exact select_adopt _ k
    | exact select_setPln _ _ rfl

theorem select_selectRow (expired : Bool) (s : State) : SelectFrame s (State.selectRow expired s) := by
  unfold State.selectRow
  dsimp only
  repeat' split
  · exact (select_setPln s _ rfl : SelectFrame s s.dropProposal).trans (select_setPln _ _ rfl)
  · exact select_planGap s
  · exact select_adopt s _
  · exact select_proposeRow expired s _

theorem target_setTgt (s : State) (b : Tgt) : TargetFrame s (s.setTgt b) :=
  ⟨⟨rfl, rfl, rfl, rfl, rfl, rfl, rfl, rfl, .of_eq rfl, .of_eq rfl, .of_eq rfl, .refl⟩, rfl⟩

/-- Writing the planning target writes that target alone, and keeps the frame of a target. -/
theorem target_setPlanTarget (s : State) (x : Int) :
    TargetFrame s (s.setPlanTarget x) ∧ (s.setPlanTarget x).tgt = { s.tgt with plan := x } := by
  unfold State.setPlanTarget
  split
  · rename_i h
    exact ⟨.refl s, by rw [h]⟩
  · dsimp only
    split
    · have h := select_selectRow false (s.setTgt { s.tgt with plan := x })
      exact ⟨(target_setTgt s _).trans h.toTargetFrame, h.tgt⟩
    · exact ⟨target_setTgt s _, rfl⟩

/-- The targets after the requested base target is written (R110, R116): the ramped target jumps to a new value while ramp_rate is 0
and the part governs, and the planning target follows outside PROFILE. -/
def State.baseTgt (s : State) (v : Int) : Tgt :=
  { s.tgt with
    reqBase := v
    ramped := if v ≠ s.tgt.reqBase ∧ s.params.rampRate = 0 ∧ s.governs = true then v else s.tgt.ramped
    plan := if s.tgt.source = .profile then s.tgt.plan else v }

theorem target_setReqBase (s : State) (v : Int) :
    TargetFrame s (s.setReqBase v) ∧ (s.setReqBase v).tgt = s.baseTgt (clampPlant v) := by
  unfold State.setReqBase State.baseTgt
  dsimp only
  by_cases h : s.tgt.source = .profile
  · simp only [State.setTgt_tgt, h, if_true]
    exact ⟨target_setTgt s _, trivial⟩
  · simp only [State.setTgt_tgt, h, if_false]
    have k := target_setPlanTarget (s.setTgt { s.tgt with
      reqBase := clampPlant v
      ramped := if clampPlant v ≠ s.tgt.reqBase ∧ s.params.rampRate = 0 ∧ s.governs = true then clampPlant v
        else s.tgt.ramped }) (clampPlant v)
    exact ⟨(target_setTgt s _).trans k.1, k.2⟩

end Sys2Proof.Machine
end

