-- ==== Sys2Proof/Laws/Reads.lean ====
section
/-! SUPPORT. What the frames keep of the values that the rules read: dispatchable and automatic (R7, R8), the head in use and the
records (R27, R32), the reported modes, the demands (R62); and when the cascade of a command does nothing at all. -/

namespace Sys2Proof

/-! ## The tables: the later of two writes stands -/

theorem SlotMap.set_set {α : Type} (m : SlotMap α) (i : Slot) (x y : α) : (m.set i x).set i y = m.set i y := by cases i <;> rfl
theorem PortMap.set_set {α : Type} (m : PortMap α) (i : Port) (x y : α) : (m.set i x).set i y = m.set i y := by cases i <;> rfl
theorem SlotMap.set_self {α : Type} (m : SlotMap α) (i : Slot) : m.set i (m.get i) = m := by cases i <;> rfl
theorem PortMap.set_self {α : Type} (m : PortMap α) (i : Port) : m.set i (m.get i) = m := by cases i <;> rfl

end Sys2Proof

namespace Sys2Proof.Machine

/-! ## Reads that a frame keeps -/

section Play
variable {s t : State} (h : PlayFrame s t)
include h

theorem PlayFrame.clock : t.clock = s.clock := State.clock_congr h.pli
theorem PlayFrame.params : t.params = s.params := State.params_congr h.pli
theorem PlayFrame.governs : t.governs = s.governs := by simp [State.governs, h.pli]
theorem PlayFrame.inFallback : t.inFallback = s.inFallback := by simp [State.inFallback, h.pli]
theorem PlayFrame.rotation : t.ros.rotation = s.ros.rotation := h.units.1

theorem PlayFrame.unit_port (u : Slot) : (t.unitRec u).port = (s.unitRec u).port := (UnitRec.mk.inj (h.units.2 u)).1
theorem PlayFrame.unit_expected (u : Slot) : (t.unitRec u).expected = (s.unitRec u).expected :=
  (UnitRec.mk.inj (h.units.2 u)).2.1
theorem PlayFrame.unit_report (u : Slot) : (t.unitRec u).report = (s.unitRec u).report :=
  (UnitRec.mk.inj (h.units.2 u)).2.2.1
theorem PlayFrame.unit_hold (u : Slot) : (t.unitRec u).hold = (s.unitRec u).hold :=
  (UnitRec.mk.inj (h.units.2 u)).2.2.2.1
theorem PlayFrame.unit_trip (u : Slot) : (t.unitRec u).trip = (s.unitRec u).trip :=
  (UnitRec.mk.inj (h.units.2 u)).2.2.2.2.1
theorem PlayFrame.unit_fault (u : Slot) : (t.unitRec u).fault = (s.unitRec u).fault :=
  (UnitRec.mk.inj (h.units.2 u)).2.2.2.2.2.1
theorem PlayFrame.unit_backoff (u : Slot) : (t.unitRec u).backoff = (s.unitRec u).backoff :=
  (UnitRec.mk.inj (h.units.2 u)).2.2.2.2.2.2.1

theorem PlayFrame.port_state (p : Port) : (t.portRec p).state = (s.portRec p).state := (PortRec.mk.inj (h.ports p)).1
theorem PlayFrame.port_probe (p : Port) : (t.portRec p).probe = (s.portRec p).probe := (PortRec.mk.inj (h.ports p)).2.1
theorem PlayFrame.port_liveness (p : Port) : (t.portRec p).liveness = (s.portRec p).liveness :=
  (PortRec.mk.inj (h.ports p)).2.2.1
theorem PlayFrame.port_lastMachine (p : Port) : (t.portRec p).lastMachine = (s.portRec p).lastMachine :=
  (PortRec.mk.inj (h.ports p)).2.2.2.1
theorem PlayFrame.port_ackMode (p : Port) : (t.portRec p).ackMode = (s.portRec p).ackMode :=
  (PortRec.mk.inj (h.ports p)).2.2.2.2.2.2.2.2.1
theorem PlayFrame.port_framer (p : Port) : (t.portRec p).framer = (s.portRec p).framer :=
  (PortRec.mk.inj (h.ports p)).2.2.2.2.2.2.2.2.2

theorem PlayFrame.slotOf (p : Port) : t.slotOf p = s.slotOf p := by
  unfold State.slotOf
  congr 1
  funext u
  rw [h.unit_port]
theorem PlayFrame.portState (u : Slot) : t.portState u = s.portState u := by
  unfold State.portState State.slotPort
  rw [h.unit_port]
  cases (s.unitRec u).port with
  | none => rfl
  | some p => simp [h.port_state]
theorem PlayFrame.reported (u : Slot) : t.reported u = s.reported u := by
  unfold State.reported; rw [h.unit_report]
theorem PlayFrame.power (u : Slot) : t.power u = s.power u := by
  unfold State.power; rw [h.unit_report]
theorem PlayFrame.known (u : Slot) : t.known u = s.known u := by
  unfold State.known; rw [h.reported]
theorem PlayFrame.dispatchable (u : Slot) : t.dispatchable u = s.dispatchable u := by
  unfold State.dispatchable
  simp only [h.portState, h.unit_report, h.unit_trip, h.unit_fault, h.unit_backoff, h.head]
theorem PlayFrame.automatic (u : Slot) : t.automatic u = s.automatic u := by
  unfold State.automatic
  rw [h.dispatchable, h.unit_hold]
theorem PlayFrame.headInUse : t.headInUse = s.headInUse := by
  unfold State.headInUse State.headSource
  rw [h.params, h.head]
theorem PlayFrame.record (u : Slot) : t.record u = s.record u := by
  unfold State.record
  rw [h.headInUse, h.head]
theorem PlayFrame.waterwayOf (u : Slot) : t.waterwayOf u = s.waterwayOf u := h.waterways.2 u

end Play

theorem CascadeFrame.play {s t : State} (h : CascadeFrame s t) : PlayFrame s t := h.toSelectFrame.toTargetFrame.toPlayFrame
theorem SelectFrame.play {s t : State} (h : SelectFrame s t) : PlayFrame s t := h.toTargetFrame.toPlayFrame

/-! ## A cascade with nothing to do -/

/-- With no change that R51, R66, R77 or R91 names, the cascade leaves the state as it is. -/
theorem finish_quiet {before s : State} (hd : ∀ u, s.dispatchable u = before.dispatchable u)
    (ha : ∀ u, s.automatic u = before.automatic u) (hg : grantsDue before s = false)
    (hl : allocationDue before s = false) : s.finish before = s := by
  have h1 : ∀ u, State.dropGrant before s u = s := by
    intro u; simp [State.dropGrant, hd u]
  have h2 : Slot.all.foldl (State.dropGrant before) s = s := by
    simp [Slot.all, h1]
  have h3 : autoChanged before s = false := by
    simp [autoChanged, ha]
  have h4 : s.planStage before {} = s := by
    simp [State.planStage, h2, h3]
  have h5 : s.grantStage before {} = s := by simp [State.grantStage, hg]
  have h6 : s.allocStage before {} = s := by simp [State.allocStage, hl]
  simp [State.finish, h4, h5, h6]

/-- What the rules of the cascade compare is the same in both states. -/
structure Unmoved (before s : State) : Prop where
  part : s.pli.part = before.pli.part
  units : ∀ u, s.unitRec u = before.unitRec u
  ports : ∀ p, (s.portRec p).state = (before.portRec p).state
  head : s.head = before.head
  override : s.params.headOverride = before.params.headOverride
  ramped : s.tgt.ramped = before.tgt.ramped
  increment : s.tgt.increment = before.tgt.increment
  trs : s.trs = before.trs

theorem Unmoved.refl (s : State) : Unmoved s s := ⟨rfl, fun _ => rfl, fun _ => rfl, rfl, rfl, rfl, rfl, rfl⟩

theorem Unmoved.portState {b s : State} (h : Unmoved b s) (u : Slot) : s.portState u = b.portState u := by
  unfold State.portState State.slotPort
  rw [h.units]
  cases (b.unitRec u).port with
  | none => rfl
  | some p => simp [h.ports]
theorem Unmoved.dispatchable {b s : State} (h : Unmoved b s) (u : Slot) : s.dispatchable u = b.dispatchable u := by
  unfold State.dispatchable
  simp only [h.portState, h.units, h.head]
theorem Unmoved.automatic {b s : State} (h : Unmoved b s) (u : Slot) : s.automatic u = b.automatic u := by
  unfold State.automatic
  rw [h.dispatchable, h.units]
theorem Unmoved.req {b s : State} (h : Unmoved b s) (u : Slot) : s.req u = b.req u := by simp [State.req, h.trs]
theorem Unmoved.headInUse {b s : State} (h : Unmoved b s) : s.headInUse = b.headInUse := by
  unfold State.headInUse State.headSource
  rw [h.override, h.head]

theorem queueChanged_same {b s : State} (u : Slot) (h : s.req u = b.req u) : queueChanged b s u = false := by
  unfold queueChanged
  rw [h]
  cases b.req u <;> simp

theorem Unmoved.resourceReleased {b s : State} (h : Unmoved b s) : resourceReleased b s = false := by
  have h1 : ∀ c, s.holder c = b.holder c := by intro c; cases c <;> simp [State.holder, h.trs]
  have h2 : ∀ w, s.waterwayRec w = b.waterwayRec w := by intro w; simp [State.waterwayRec, h.trs]
  have h3 : s.plantCount = b.plantCount := by
    simp only [State.plantCount, State.orphan, State.req, h.trs]
  unfold Sys2Proof.Machine.resourceReleased
  simp only [h1, h2, h3, Nat.lt_irrefl, decide_false, Bool.or_false]
  have h5 : ∀ o : Option Holder, (o.isSome && o.isNone) = false := by intro o; cases o <;> rfl
  simp only [h5, Bool.false_or, List.any_eq_false]
  intro w _
  cases b.waterwayRec w <;> simp

theorem Unmoved.grantsDue {b s : State} (h : Unmoved b s) : grantsDue b s = false := by
  unfold Sys2Proof.Machine.grantsDue
  rw [h.resourceReleased, h.part]
  have h1 : ∀ u, queueChanged b s u = false := fun u => queueChanged_same u (h.req u)
  have h2 : ∀ u, s.reported u = b.reported u := fun u => by simp [State.reported, h.units]
  cases hp : b.pli.part <;> simp [h1, h2, h.dispatchable]

theorem Unmoved.allocationDue {b s : State} (h : Unmoved b s) : allocationDue b s = false := by
  unfold Sys2Proof.Machine.allocationDue
  have h1 : ∀ u, slotChanged b s u = false := fun u => by
    simp [slotChanged, h.units, h.portState, h.dispatchable, h.automatic, orderMark, h.req]
  simp [h1, h.ramped, h.increment, h.headInUse]

/-- A command that has moved nothing the cascade compares ends with its own effect. -/
theorem Unmoved.finish {before s : State} (h : Unmoved before s) : s.finish before = s :=
  finish_quiet h.dispatchable h.automatic h.grantsDue h.allocationDue

end Sys2Proof.Machine
end

