-- ==== Sys2Proof/Laws/Cascade.lean ====
section
/-! SUPPORT. Everything the cascade of a command can do, said once: it is a run of the small steps of `Micro`. With `keep` the run
creates, ends and redirects no request, as grant evaluation and allocation do not. -/

namespace Sys2Proof.Machine

/-- The class and destination of a request. -/
def Request.key (r : Request) : ReqClass × Stable := (r.cls, r.dest)

inductive Micro (keep : Bool) : State → State → Prop where
  | post (s : State) (k : EventKind) (u : Option Slot) (v : Option Int) : Micro keep s (s.post k u v)
  | req (s : State) (u : Slot) (r : Option Request)
      (h : r.isSome = true → (s.req u).isSome = true ∨ (s.demand u).isSome = true)
      (k : keep = true → r.map Request.key = (s.req u).map Request.key) : Micro keep s (s.setReq u r)
  | counter (s : State) (n : Word) : Micro keep s (s.setTrs { s.trs with entryCounter := n })
  | free (s : State) (c : Conv) : Micro keep s (s.setHolder c none)
  | take (s : State) (c : Conv) (u : Slot) : Micro keep s (s.setHolder c (some { slot := u, kind := .granted }))
  | waterway (s : State) (w : Waterway) (q r : WaterwayRec) (h : s.waterwayRec w = some q) (row : r.row = q.row)
      (settle : r.settle = q.settle) : Micro keep s (s.setWaterway w r)
  | unwarn (s : State) (u : Slot) : Micro keep s (s.unwarn u)
  | order (s : State) (u : Slot) (p : Port) (k : StepKind) (c : Option Conv) (hp : (s.unitRec u).port = some p)
      (hr : (s.req u).isSome = true) (hd : s.dispatchable u = true) : Micro keep s (s.sendOrder p k c .supervised)
  | cease (s : State) (u : Slot) : Micro keep s (s.ceaseOrder u .supervised)
  | pln (s : State) (b : Pln) (table : b.table = s.pln.table) (selected : b.selected = s.pln.selected)
      (proposal : b.proposal = s.pln.proposal) (gap : b.gap = s.pln.gap) (h : keep = false) : Micro keep s (s.setPln b)
  | alc (s : State) (b : Alc) : Micro keep s (s.setAlc b)
  | setpoint (s : State) (u : Slot) (v : Int) : Micro keep s (s.sendSetpoint u v)

/-- A run of small steps. -/
inductive Reach (keep : Bool) (s : State) : State → Prop where
  | refl : Reach keep s s
  | step {t r : State} (h : Reach keep s t) (k : Micro keep t r) : Reach keep s r

theorem Reach.trans {k : Bool} {s t r : State} (h : Reach k s t) (g : Reach k t r) : Reach k s r := by
  induction g with
  | refl => exact h
  | step _ m ih => exact ih.step m
theorem Micro.reach {k : Bool} {s t : State} (h : Micro k s t) : Reach k s t := .step .refl h
theorem Reach.foldl {k : Bool} {α : Type} {f : State → α → State} (h : ∀ s a, Reach k s (f s a)) (xs : List α) (s : State) :
    Reach k s (xs.foldl f s) := by
  induction xs generalizing s with
  | nil => exact .refl
  | cons a xs ih => exact (h s a).trans (ih (f s a))

theorem Micro.loosen {s t : State} (h : Micro true s t) : Micro false s t := by
  cases h with
  | post k u v => exact .post _ _ _ _
  | req u r h k => exact .req _ _ _ h (by simp)
  | counter n => exact .counter _ _
  | free c => exact .free _ _
  | take c u => exact .take _ _ _
  | waterway w q r h row settle => exact .waterway _ _ _ _ h row settle
  | unwarn u => exact .unwarn _ _
  | order u p k c hp hr hd => exact .order _ _ _ _ _ hp hr hd
  | cease u => exact .cease _ _
  | pln b h1 h2 h3 h4 h => simp at h
  | alc b => exact .alc _ _
  | setpoint u v => exact .setpoint _ _ _
theorem Reach.loosen {s t : State} (h : Reach true s t) : Reach false s t := by
  induction h with
  | refl => exact .refl
  | step _ m ih => exact ih.step m.loosen

/-- A small step keeps the cascade's frame. -/
theorem Micro.frame {k : Bool} {s t : State} (h : Micro k s t) : CascadeFrame s t := by
  cases h with
  | post k u v => exact cascade_post _ _ _ _
  | req u r h k => exact cascade_setReq _ _ _
  | counter n => exact .of_parts rfl rfl rfl rfl rfl rfl rfl (.of_eq rfl) (.of_eq rfl) (.of_eq rfl) .refl
  | free c => exact cascade_setHolder _ _ _
  | take c u => exact cascade_setHolder _ _ _
  | waterway w q r h row settle =>
    exact cascade_setWaterway _ _ _ (fun q' h' => by rw [h] at h'; cases h'; exact row)
  | unwarn u => exact cascade_unwarn _ _
  | order u p k c hp hr hd => exact cascade_sendOrder _ _ _ _ _
  | cease u => exact cascade_ceaseOrder _ _ _
  | pln b h1 h2 h3 h4 _ => exact cascade_setPln _ _ h1 h2 h3 h4
  | alc b => exact cascade_setAlc _ _
  | setpoint u v => exact cascade_sendSetpoint _ _ _
theorem Reach.frame {k : Bool} {s t : State} (h : Reach k s t) : CascadeFrame s t := by
  induction h with
  | refl => exact .refl _
  | step _ m ih => exact ih.trans m.frame

/-! ## The operations as runs -/

theorem reach_updateWaterwayOf {k : Bool} (s : State) (u : Slot) (f : WaterwayRec → WaterwayRec) (row : ∀ r, (f r).row = r.row)
    (settle : ∀ r, (f r).settle = r.settle) : Reach k s (s.updateWaterwayOf u f) := by
  unfold State.updateWaterwayOf
  split
  · exact .refl
  · split
    · exact .refl
    · rename_i r hr
      exact (Micro.waterway _ _ r _ hr (row r) (settle r)).reach

theorem reach_setReq_some {s : State} {u : Slot} {r : Option Request} (h : (s.req u).isSome = true) :
    Reach false s (s.setReq u r) := (Micro.req _ _ _ (fun _ => .inl h) (by simp)).reach

theorem reach_endRequest (s : State) (u : Slot) : Reach false s (s.endRequest u) :=
  (Micro.req s u none (by simp) (by simp)).reach.step (.cease _ _)

theorem updateWaterwayOf_requests (s : State) (u : Slot) (f : WaterwayRec → WaterwayRec) :
    (s.updateWaterwayOf u f).trs.requests = s.trs.requests := by
  unfold State.updateWaterwayOf State.setWaterway
  repeat' split
  all_goals rfl
theorem unwarn_requests (s : State) (u : Slot) : (s.unwarn u).trs.requests = s.trs.requests := by
  unfold State.unwarn
  split <;> rfl
theorem setHolder_requests (s : State) (c : Conv) (h : Option Holder) : (s.setHolder c h).trs.requests = s.trs.requests := by
  cases c <;> rfl
theorem req_of_requests {s t : State} (h : t.trs.requests = s.trs.requests) (u : Slot) : t.req u = s.req u := by
  unfold State.req; rw [h]

theorem reach_releaseHeld (s : State) (u : Slot) : Reach false s (s.releaseHeld u false) := by
  unfold State.releaseHeld
  split
  · exact .refl
  · rename_i r hr
    dsimp only
    have tail : ∀ a : State, Reach false s a → a.trs.requests = s.trs.requests → ∀ q : Option Request,
        Reach false s (((if r.slotHeld then a.updateWaterwayOf u (·.release a.clock false) else a).unwarn u).setReq u q) := by
      intro a h1 h1r q
      have h2 : Reach false a (if r.slotHeld then a.updateWaterwayOf u (·.release a.clock false) else a)
          ∧ (if r.slotHeld then a.updateWaterwayOf u (·.release a.clock false) else a).trs.requests = a.trs.requests := by
        split
        · exact ⟨reach_updateWaterwayOf _ _ _ (by simp) (fun r => by simp [WaterwayRec.release]),
            updateWaterwayOf_requests _ _ _⟩
        · exact ⟨.refl, rfl⟩
      generalize (if r.slotHeld then a.updateWaterwayOf u (·.release a.clock false) else a) = b at h2
      refine ((h1.trans h2.1).step (.unwarn b u)).trans (reach_setReq_some ?_)
      rw [req_of_requests (unwarn_requests b u), req_of_requests h2.2, req_of_requests h1r, hr]
      rfl
    cases r.conv with
    | none => exact tail s .refl rfl _
    | some c => exact tail _ (Micro.free s c).reach (setHolder_requests _ _ _) _

/-- A request that stands survives the release of what it holds. -/
theorem releaseHeld_isSome (s : State) (u : Slot) (b : Bool) (h : (s.req u).isSome = true) :
    ((s.releaseHeld u b).req u).isSome = true := by
  unfold State.releaseHeld
  split
  · exact h
  · simp
theorem withdraw_isSome (s : State) (u : Slot) (h : (s.req u).isSome = true) : ((s.withdraw u).req u).isSome = true := by
  unfold State.withdraw
  have := releaseHeld_isSome s u false h
  dsimp only
  split
  · rename_i e; rw [e] at this; simp at this
  · simp

theorem reach_withdraw (s : State) (u : Slot) : Reach false s (s.withdraw u) := by
  unfold State.withdraw
  refine (reach_releaseHeld s u).trans ?_
  dsimp only
  split
  · exact .refl
  · rename_i r hr
    exact reach_setReq_some (by simp [hr])

theorem reach_waitOn (s : State) (u : Slot) (r : Request) (c : ReqClass) (d : Stable) (p : List PathStep)
    (h : (s.req u).isSome = true) : Reach false s (s.waitOn u r c d p) := by
  unfold State.waitOn
  split
  · exact reach_endRequest s u
  · exact reach_setReq_some h

theorem reach_rewarn (s : State) (u : Slot) (r : Request) (c : ReqClass) (d : Stable) (h : (s.req u).isSome = true) :
    Reach false s (s.rewarn u r c d) := by
  unfold State.rewarn
  dsimp only
  split
  · exact reach_setReq_some h
  · refine (reach_withdraw s u).trans ?_
    split
    · exact .refl
    · exact reach_waitOn _ _ _ _ _ _ (withdraw_isSome s u h)

theorem reach_compareDemand (s : State) (u : Slot) : Reach false s (s.compareDemand u) := by
  unfold State.compareDemand
  split
  · rename_i d c m h1 h2 h3
    dsimp only
    split
    · exact (Micro.req s u _ (fun _ => .inr (by simp [h2])) (by simp)).reach.step (.counter _ _)
    · exact .refl
  · exact .refl

theorem reach_takeDemand (s : State) (u : Slot) : Reach false s (s.takeDemand u) := by
  unfold State.takeDemand
  split
  · exact reach_compareDemand s u
  · rename_i r hr
    have h : (s.req u).isSome = true := by simp [hr]
    repeat' split
    all_goals first
      | exact reach_setReq_some h
      | exact reach_endRequest _ _
      | exact reach_waitOn _ _ _ _ _ _ h
      | exact (reach_withdraw _ _).trans (reach_endRequest _ _)
      | exact reach_rewarn _ _ _ _ _ h

theorem setReq_key {k : Bool} {s : State} {u : Slot} {r : Request} {q : Option Request} (hr : s.req u = some r)
    (h : q.map Request.key = some r.key) : Reach k s (s.setReq u q) :=
  (Micro.req _ _ _ (fun _ => .inl (by simp [hr])) (fun _ => by rw [hr, h]; rfl)).reach

theorem reach_orderStep (s : State) (u : Slot) (hd : s.dispatchable u = true) : Reach true s (s.orderStep u) := by
  unfold State.orderStep
  split
  · rename_i r p hr hp
    split
    · exact .refl
    · rename_i st _
      refine (((Micro.order s u p st.kind r.conv hp (by simp [hr]) hd).reach).trans ?_).step (.post _ _ _ _)
      have e : (s.sendOrder p st.kind r.conv .supervised).req u = some r := by
        rw [← hr]
        refine req_of_requests ?_ u
        unfold State.sendOrder State.hand State.beginSending
        dsimp only
        split <;> rfl
      exact setReq_key e rfl
  · exact .refl

theorem reach_grantStep (s : State) (u : Slot) (r : Request) (st : PathStep) (hr : s.req u = some r)
    (hd : s.dispatchable u = true) : Reach true s (s.grantStep u r st) := by
  unfold State.grantStep
  dsimp only
  generalize (if st.kind = StepKind.pStart then s.freeConverter else none) = c
  have h1 : Reach true s (s.takeConverter u c) ∧ (s.takeConverter u c).trs.requests = s.trs.requests := by
    unfold State.takeConverter
    cases c with
    | none => exact ⟨.refl, rfl⟩
    | some c => exact ⟨(Micro.take s c u).reach, setHolder_requests _ _ _⟩
  generalize s.takeConverter u c = a at h1
  have h2 : Reach true a (if st.flowChanging then a.updateWaterwayOf u (fun w => { w with inProgress := w.inProgress + 1 }) else a)
      ∧ (if st.flowChanging then a.updateWaterwayOf u (fun w => { w with inProgress := w.inProgress + 1 }) else a).trs.requests
        = a.trs.requests := by
    split
    · exact ⟨reach_updateWaterwayOf _ _ _ (fun _ => rfl) (fun _ => rfl), updateWaterwayOf_requests _ _ _⟩
    · exact ⟨.refl, rfl⟩
  generalize (if st.flowChanging then a.updateWaterwayOf u (fun w => { w with inProgress := w.inProgress + 1 }) else a) = b at h2
  have hb : Reach true s b := h1.1.trans h2.1
  have hbr : b.req u = some r := by rw [req_of_requests h2.2, req_of_requests h1.2, hr]
  have order : ∀ e : State, Reach true s e → e.req u = some r →
      ∀ q : Request, q.key = r.key → Reach true e ((e.setReq u (some q)).orderStep u) := by
    intro e he hq q hk
    refine (setReq_key hq (by simp [hk])).trans (reach_orderStep _ _ ?_)
    rw [(cascade_setReq e u _).play.dispatchable, he.frame.play.dispatchable]
    exact hd
  split
  · exact hb.trans (order b hb hbr _ rfl)
  · have h3 : Reach true b (b.updateWaterwayOf u (·.warn u b.clock))
        ∧ (b.updateWaterwayOf u (·.warn u b.clock)).trs.requests = b.trs.requests :=
      ⟨reach_updateWaterwayOf _ _ _ (by simp) (fun _ => rfl), updateWaterwayOf_requests _ _ _⟩
    have h4 : (b.updateWaterwayOf u (·.warn u b.clock)).req u = some r := by rw [req_of_requests h3.2, hbr]
    split
    · exact (hb.trans h3.1).trans (order _ (hb.trans h3.1) h4 _ rfl)
    · exact (hb.trans h3.1).trans (setReq_key h4 rfl)

theorem testGrant_dispatchable {s : State} {u : Slot} {st : PathStep} (h : s.testGrant u st = .granted) :
    s.dispatchable u = true := by
  unfold State.testGrant at h
  split at h
  · cases h
  · rename_i k
    simp at k
    exact k.1.1.2

theorem reach_tryGrant (s : State) (u : Slot) : Reach true s (s.tryGrant u) := by
  unfold State.tryGrant
  split
  · exact .refl
  · rename_i r hr
    split
    · exact .refl
    · split
      · exact .refl
      · split
        · rename_i st _ _ h
          exact reach_grantStep s u r st hr (testGrant_dispatchable h)
        · exact setReq_key hr rfl

theorem reach_evalGrants (s : State) : Reach true s s.evalGrants := .foldl reach_tryGrant _ s

theorem reach_notePlanShort (s : State) (a : Assignment) : Reach false s (s.notePlanShort a) := by
  have h : Reach false s (s.setPln { s.pln with
      short := decide (a.shortPmp + a.shortGen + a.shortCnd ≠ 0), shortPmp := a.shortPmp, shortGen := a.shortGen,
      shortCnd := a.shortCnd }) := by
    refine (Micro.pln s _ ?_ ?_ ?_ ?_ rfl).reach <;> rfl
  unfold State.notePlanShort
  dsimp only
  split
  · exact h.step (.post _ _ _ _)
  · exact h

theorem reach_handDesired (old : SlotMap (Option Stable)) (s : State) (u : Slot) : Reach false s (State.handDesired old s u) := by
  unfold State.handDesired
  split
  · exact .refl
  · exact reach_takeDemand s u

theorem reach_assign (s : State) : Reach false s s.assign := by
  unfold State.assign
  split
  · exact .refl
  · rename_i row _
    refine Reach.trans ?_ (.foldl (reach_handDesired _) _ _)
    refine (Micro.pln s { s.pln with desired := s.desiredOf (s.assignRow row) } rfl rfl rfl rfl rfl).reach.trans ?_
    exact reach_notePlanShort _ _

theorem reach_replan (before s : State) : Reach false s (State.replan before s) := by
  unfold State.replan
  repeat' split
  · exact .refl
  · exact reach_assign s
  · refine .foldl (fun a u => ?_) _ _
    unfold State.dropDesired
    split
    · refine (Micro.pln _ _ ?_ ?_ ?_ ?_ rfl).reach.trans (reach_takeDemand _ _) <;> rfl
    · exact .refl

theorem reach_allocate {k : Bool} (s : State) : Reach k s s.allocate := by
  unfold State.allocate
  refine Reach.trans (t := (s.setAlc s.allocated).postAllocFlags s.alc) ?_ (.foldl (fun a u => ?_) _ _)
  · refine (Micro.alc s s.allocated).reach.trans ?_
    unfold State.postAllocFlags
    repeat' split
    all_goals first
      | exact (Micro.post _ _ _ _).reach
      | exact .refl
  · unfold State.emitSetpoint
    repeat' split
    · exact .refl
    · exact (Micro.setpoint _ _ _).reach
    · exact .refl

theorem reach_dropGrant (before s : State) (u : Slot) : Reach false s (State.dropGrant before s u) := by
  unfold State.dropGrant
  split
  · exact reach_withdraw s u
  · exact .refl

theorem reach_planStage (s before : State) (c : Causes) : Reach false s (s.planStage before c) := by
  unfold State.planStage
  refine (Reach.foldl (reach_dropGrant before) Slot.all s).trans ?_
  refine Reach.trans ?_ (.foldl reach_takeDemand c.hand _)
  split
  · exact reach_replan before _
  · exact .refl

/-- After the PLN's part, the cascade creates, ends and redirects no request. -/
theorem reach_afterPlan (s before : State) (c : Causes) : Reach true (s.planStage before c) (s.finish before c) := by
  unfold State.finish
  refine Reach.trans (t := (s.planStage before c).grantStage before c) ?_ ?_
  · unfold State.grantStage
    split
    · exact reach_evalGrants _
    · exact .refl
  · unfold State.allocStage
    split
    · exact reach_allocate _
    · exact .refl

/-- The cascade of a command is a run of small steps. -/
theorem reach_finish (s before : State) (c : Causes) : Reach false s (s.finish before c) :=
  (reach_planStage s before c).trans (reach_afterPlan s before c).loosen

end Sys2Proof.Machine
end

