-- ==== Sys2Proof/Laws/Heard.lean ====
section
/-! SUPPORT. What a valid dispatch frame does before its owner takes it (R156, R161, R163), and the writing of a base target in
STANDBY. -/

namespace Sys2Proof.Machine

theorem clampInt_eq (n : Nat) (v : Int) : clampInt (-(n:Int)) n v = max (-(n:Int)) (min n v) := by
  unfold clampInt; split <;> [skip; split] <;> omega

theorem heard_accept (s : State) : Heard s s.takePlantFrame.acceptDispatch := by
  have key : s.takePlantFrame.acceptDispatch = (if s.returns = true ∧ s.tgt.source = .pattern ∧ s.tgt.run.isSome = true then s.heard.setReqBase (s.tgt.pattern.level ((s.tgt.run.map (·.pos)).getD 0)) else s.heard) := by
    unfold State.acceptDispatch State.heard State.returns State.inFallback State.partHeard
    cases hp : s.pli.part with
    | standby => simp [State.takePlantFrame, State.refreshLiveness, hp, State.setPli, State.clock, State.params]
    | dispatching => simp [State.takePlantFrame, State.refreshLiveness, hp, State.setPli, State.clock, State.params]
    | fallback sub =>
      have e1 : s.takePlantFrame.refreshLiveness.pli.part = .fallback sub := hp
      have e2 : s.takePlantFrame.refreshLiveness.params = s.params := rfl
      simp only [e1, e2]
      cases ha : s.params.autoResume with
      | false => simp [State.takePlantFrame, State.refreshLiveness, State.setPli, State.clock, State.params]
      | true =>
        unfold State.returnToDispatching
        simp only [Bool.true_and, true_and, if_true]
        cases hsrc : s.tgt.source <;> cases hrun : s.tgt.run <;>
          simp [State.takePlantFrame, State.refreshLiveness, State.setPli, State.clock, State.params, hsrc, hrun]
  constructor
  · rw [key]; split
    · exact (target_setReqBase _ _).1
    · exact .refl _
  · intro h
    rw [key, if_neg]
    rintro ⟨a, b, c⟩
    rcases h with h | h | h
    · simp [h] at a
    · exact h b
    · simp [h] at c
  · intro r h1 h2 h3
    rw [key, if_pos ⟨h1, h2, by simp [h3]⟩, (target_setReqBase _ _).2]
    have hh : s.heard.tgt = s.tgt := by unfold State.heard; simp [h1]
    have hg : s.heard.governs = true := by
      unfold State.returns State.inFallback at h1
      unfold State.heard State.governs State.partHeard
      cases hp : s.pli.part <;> simp [hp] at h1
      simp [h1]
      split <;> simp
    have hpar : s.heard.params = s.params := by unfold State.heard; split <;> rfl
    simp [State.baseTgt, Tgt.withBase, hh, h3, hg, hpar]
    congr 1
    · by_cases z : s.params.rampRate = 0 <;> simp [z]

theorem heard_inFallback (s : State) : s.heard.inFallback = (s.inFallback && !s.params.autoResume) := by
  unfold State.heard State.inFallback State.partHeard
  cases hp : s.pli.part <;> simp [State.returns, State.inFallback, hp]
  cases s.params.autoResume <;> simp

theorem heard_reads (s : State) : s.heard.tgt = s.tgt ∧ s.heard.params = s.params := by
  unfold State.heard
  split <;> exact ⟨rfl, rfl⟩
theorem heard_governs (s : State) : s.heard.governs = s.governs := by
  unfold State.heard State.governs State.partHeard
  cases hp : s.pli.part <;> simp [State.returns, State.inFallback, hp]
  cases s.params.autoResume <;> simp <;> rfl

theorem Heard.source {s m : State} (h : Heard s m) : m.tgt.source = s.tgt.source := by
  by_cases k : s.returns = false ∨ s.tgt.source ≠ .pattern ∨ s.tgt.run = none
  · rw [h.stays k, (heard_reads s).1]
  · simp only [not_or] at k
    obtain ⟨k1, k2, k3⟩ := k
    simp at k1 k2
    obtain ⟨r, hr⟩ := Option.ne_none_iff_exists'.mp k3
    rw [h.handed r k1 k2 hr]
    rfl

theorem setReqBase_standby {s : State} (h : s.governs = false) (v : Int) : s.setReqBase v = s.setTgt (s.tgt.withBase v false) := by
  unfold State.setReqBase State.setPlanTarget Tgt.withBase
  have h2 : ∀ x, (s.setTgt x).governs = false := fun _ => h
  have h3 : ∀ x y, ((s.setTgt x).setTgt y).governs = false := fun _ _ => h
  by_cases e : s.tgt.source = .profile
  · simp [e, h]
  · by_cases z : clampPlant v = s.tgt.plan
    · simp [e, h, z]
    · simp [e, h, z]
      rw [h3]; rfl

theorem heard_play (s : State) : s.heard.ports = s.ports ∧ s.heard.ros = s.ros ∧ s.heard.head = s.head ∧ s.heard.clock = s.clock ∧ s.heard.trs = s.trs ∧ s.heard.pln = s.pln := by
  unfold State.heard; split <;> exact ⟨rfl, rfl, rfl, rfl, rfl, rfl⟩

section
variable {s m : State} (hh : Heard s m)
include hh
theorem Heard.core (u : Slot) : (m.unitRec u).core = (s.unitRec u).core := by
  rw [hh.frame.units.2 u, State.unitRec_congr (heard_play s).2.1]
theorem Heard.hold (u : Slot) : (m.unitRec u).hold = (s.unitRec u).hold := by
  have := congrArg UnitRec.hold (hh.core u); exact this
theorem Heard.unit_port (u : Slot) : (m.unitRec u).port = (s.unitRec u).port := by
  have := congrArg UnitRec.port (hh.core u); exact this
theorem Heard.head : m.head = s.head := hh.frame.head.trans (heard_play s).2.2.1
theorem Heard.params : m.params = s.params := hh.frame.params.trans (heard_reads s).2
theorem Heard.governs : m.governs = s.governs := hh.frame.governs.trans (heard_governs s)
theorem Heard.record (u : Slot) : m.record u = s.record u := by
  unfold State.record State.headInUse State.headSource; rw [hh.head, hh.params]
theorem Heard.reported (u : Slot) : m.reported u = s.reported u := by
  have := congrArg UnitRec.report (hh.core u)
  unfold State.reported
  exact congrArg (Option.map (·.mode)) this
theorem Heard.known (u : Slot) : m.known u = s.known u := by unfold State.known; rw [hh.reported]
theorem Heard.portState (u : Slot) : m.portState u = s.portState u := by
  have h1 := hh.frame.portState u
  rw [h1]
  unfold State.portState State.slotPort
  rw [State.unitRec_congr (heard_play s).2.1]
  cases (s.unitRec u).port with
  | none => rfl
  | some p => simp [State.portRec_congr (heard_play s).1]
end

end Sys2Proof.Machine
end

