-- ==== Sys2Proof/Laws/Runs.lean ====
section
/-! SUPPORT. What a run of the cascade keeps beside its frame: orphans, settle timers, the orders that are no supervised ones, the
requests' classes and destinations, and the slots under an emergency stop. -/

namespace Sys2Proof.Machine

theorem hand_trs (s : State) (p : Port) (f : UnitFrame) : (s.hand p f).trs = s.trs := by
  unfold State.hand State.beginSending; split <;> rfl
theorem hand_ros (s : State) (p : Port) (f : UnitFrame) : (s.hand p f).ros = s.ros := by
  unfold State.hand State.beginSending; split <;> rfl
theorem hand_outstanding (s : State) (p q : Port) (f : UnitFrame) :
    ((s.hand p f).portRec q).outstanding = (s.portRec q).outstanding := by
  unfold State.hand State.beginSending
  by_cases h : q = p
  · subst h; split <;> simp [State.portRec, State.setPort]
  · split <;> simp [State.portRec, State.setPort, h]
theorem sendOrder_trs (s : State) (p : Port) (k : StepKind) (c : Option Conv) (q : Purpose) :
    (s.sendOrder p k c q).trs = s.trs := by
  unfold State.sendOrder; rw [hand_trs]; rfl
theorem sendOrder_ros (s : State) (p : Port) (k : StepKind) (c : Option Conv) (q : Purpose) :
    (s.sendOrder p k c q).ros = s.ros := by
  unfold State.sendOrder; rw [hand_ros]; rfl
theorem sendOrder_outstanding (s : State) (p q : Port) (k : StepKind) (c : Option Conv) (w : Purpose) :
    ((s.sendOrder p k c w).portRec q).outstanding
      = if q = p then some { tag := (s.portRec p).tagCounter, kind := k, purpose := w } else (s.portRec q).outstanding := by
  unfold State.sendOrder
  rw [hand_outstanding]
  by_cases h : q = p
  · subst h; simp
  · simp [h]
theorem ceaseOrder_trs (s : State) (u : Slot) (q : Purpose) : (s.ceaseOrder u q).trs = s.trs := by
  unfold State.ceaseOrder; repeat' split
  all_goals rfl
theorem ceaseOrder_ros (s : State) (u : Slot) (q : Purpose) : (s.ceaseOrder u q).ros = s.ros := by
  unfold State.ceaseOrder; repeat' split
  all_goals rfl
/-- An order ceases only where it has the purpose named. -/
theorem ceaseOrder_outstanding (s : State) (u : Slot) (q : Purpose) (p : Port) :
    ((s.ceaseOrder u q).portRec p).outstanding = (s.portRec p).outstanding
      ∨ ((s.ceaseOrder u q).portRec p).outstanding = none ∧ (s.portRec p).outstanding.any (fun o => o.purpose == q) = true := by
  unfold State.ceaseOrder
  split
  · exact .inl rfl
  · rename_i r _
    split
    · rename_i h
      by_cases e : p = r
      · subst e; right; exact ⟨by simp, h⟩
      · left; simp [e]
    · exact .inl rfl
theorem sendSetpoint_trs (s : State) (u : Slot) (v : Int) : (s.sendSetpoint u v).trs = s.trs := by
  unfold State.sendSetpoint; split
  · rfl
  · rw [hand_trs]; rfl
theorem sendSetpoint_outstanding (s : State) (u : Slot) (v : Int) (p : Port) :
    ((s.sendSetpoint u v).portRec p).outstanding = (s.portRec p).outstanding := by
  unfold State.sendSetpoint; split
  · rfl
  · rw [hand_outstanding]; rfl
theorem unwarn_orphans (s : State) (u : Slot) : (s.unwarn u).trs.orphans = s.trs.orphans := by
  unfold State.unwarn; split <;> rfl
theorem unwarn_holders (s : State) (u : Slot) : (s.unwarn u).trs.c1 = s.trs.c1 ∧ (s.unwarn u).trs.c2 = s.trs.c2 := by
  unfold State.unwarn; split <;> exact ⟨rfl, rfl⟩

section
variable {k : Bool} {s t : State}

theorem Reach.orphan (h : Reach k s t) (u : Slot) : t.orphan u = s.orphan u := by
  induction h with
  | refl => rfl
  | step _ m ih =>
    rw [← ih]
    unfold State.orphan
    congr 1
    cases m with
    | free c => cases c <;> rfl
    | take c u => cases c <;> rfl
    | waterway w q r h => unfold State.setWaterway; split <;> rfl
    | unwarn u => exact unwarn_orphans _ _
    | order u p k c => rw [sendOrder_trs]
    | cease u => rw [ceaseOrder_trs]
    | setpoint u v => rw [sendSetpoint_trs]
    | _ => rfl

/-- A converter's holder is as before, or gone, or one granted now. -/
theorem Reach.holder (h : Reach k s t) (c : Conv) :
    t.holder c = s.holder c ∨ t.holder c = none ∨ ∃ u, t.holder c = some { slot := u, kind := .granted } := by
  induction h with
  | refl => exact .inl rfl
  | @step a b _ m ih =>
    have same : b.trs.c1 = a.trs.c1 → b.trs.c2 = a.trs.c2 → b.holder c = a.holder c := by
      intro h1 h2; cases c <;> assumption
    have put : ∀ d x, b = a.setHolder d x → b.holder c = a.holder c ∨ b.holder c = x := by
      intro d x e; subst e; cases d <;> cases c <;> simp [State.setHolder, State.holder]
    have keep : b.trs.c1 = a.trs.c1 → b.trs.c2 = a.trs.c2 → _ := fun h1 h2 => (same h1 h2) ▸ ih
    cases m with
    | free d =>
      rcases put d none rfl with e | e
      · rw [e]; exact ih
      · exact .inr (.inl e)
    | take d u =>
      rcases put d _ rfl with e | e
      · rw [e]; exact ih
      · exact .inr (.inr ⟨u, e⟩)
    | waterway w q r h =>
      exact keep (by unfold State.setWaterway; split <;> rfl) (by unfold State.setWaterway; split <;> rfl)
    | unwarn u => exact keep (unwarn_holders _ _).1 (unwarn_holders _ _).2
    | order u p k c => exact keep (by rw [sendOrder_trs]) (by rw [sendOrder_trs])
    | cease u => exact keep (by rw [ceaseOrder_trs]) (by rw [ceaseOrder_trs])
    | setpoint u v => exact keep (by rw [sendSetpoint_trs]) (by rw [sendSetpoint_trs])
    | _ => exact keep rfl rfl

/-- The cascade starts no settle timer and stops none. -/
theorem Reach.settle (h : Reach k s t) (w : Waterway) : (t.waterwayRec w).map (·.settle) = (s.waterwayRec w).map (·.settle) := by
  induction h with
  | refl => rfl
  | @step a b _ m ih =>
    rw [← ih]
    have same : b.trs.waterways = a.trs.waterways → b.waterwayRec w = a.waterwayRec w := fun e => by
      unfold State.waterwayRec; rw [e]
    cases m with
    | free d => rw [same]; cases d <;> rfl
    | take d u => rw [same]; cases d <;> rfl
    | waterway v q r h row settle =>
      by_cases e : w = v
      · subst e; simp [h, settle]
      · simp [e]
    | unwarn u =>
      unfold State.unwarn
      split
      · rfl
      · rename_i x hx
        simp only [State.waterwayRec, State.setTrs_trs, hx, Option.map_some]
        simp [WaterwayRec.unwarn]
        split <;> rfl
    | order u p k c => rw [same]; rw [sendOrder_trs]
    | cease u => rw [same]; rw [ceaseOrder_trs]
    | setpoint u v => rw [same]; rw [sendSetpoint_trs]
    | _ => rw [same]; rfl

/-- An order that stands after a run stood before it, or is a supervised one. -/
theorem Reach.outstanding (h : Reach k s t) (p : Port) (o : Outstanding) (ho : (t.portRec p).outstanding = some o) :
    o.purpose = .supervised ∨ (s.portRec p).outstanding = some o := by
  induction h with
  | refl => exact .inr ho
  | @step a b _ m ih =>
    have same : b.ports = a.ports → o.purpose = .supervised ∨ (s.portRec p).outstanding = some o := fun e =>
      ih (by rw [← State.portRec_congr e]; exact ho)
    cases m with
    | free d => exact same (by cases d <;> rfl)
    | take d u => exact same (by cases d <;> rfl)
    | waterway v q r h => exact same (by simp)
    | unwarn u => exact same (by unfold State.unwarn; split <;> rfl)
    | order u q k c hp hr hd =>
      rw [sendOrder_outstanding] at ho
      split at ho
      · cases ho; exact .inl rfl
      · exact ih ho
    | cease u =>
      rcases ceaseOrder_outstanding a u .supervised p with e | ⟨e, _⟩
      · exact ih (e ▸ ho)
      · rw [e] at ho; cases ho
    | setpoint u v => exact ih (by rw [sendSetpoint_outstanding] at ho; exact ho)
    | _ => exact same rfl

theorem Micro.request (h : Micro k s t) (v : Slot) :
    t.req v = s.req v ∨ ((t.req v).isSome = true → (s.req v).isSome = true ∨ (s.demand v).isSome = true)
      ∧ (k = true → (t.req v).map Request.key = (s.req v).map Request.key) := by
  cases h with
  | req u r h1 h2 =>
    by_cases e : v = u
    · subst e; right; simpa using ⟨h1, h2⟩
    · left; simp [e]
  | free c => left; exact req_of_requests (setHolder_requests _ _ _) v
  | take c u => left; exact req_of_requests (setHolder_requests _ _ _) v
  | waterway w q r h => left; simp
  | unwarn u => left; exact req_of_requests (unwarn_requests _ _) v
  | order u p k c => left; exact req_of_requests (by rw [sendOrder_trs]) v
  | cease u => left; exact req_of_requests (by rw [ceaseOrder_trs]) v
  | setpoint u w => left; exact req_of_requests (by rw [sendSetpoint_trs]) v
  | _ => left; rfl

/-- Grant evaluation and allocation keep every request with its class and destination. -/
theorem Reach.key (h : Reach true s t) (u : Slot) : (t.req u).map Request.key = (s.req u).map Request.key := by
  induction h with
  | refl => rfl
  | step _ m ih =>
    rw [← ih]
    rcases m.request u with e | ⟨_, e⟩
    · rw [e]
    · exact e rfl

/-- The slot is under an emergency stop: such a hold, and no request. -/
def State.stopped (s : State) (u : Slot) : Prop := (s.unitRec u).hold.any (·.emergency) = true ∧ s.req u = none

/-- A slot under an emergency stop stays so (R62). -/
theorem Reach.stopped {u : Slot} (h : Reach k s t) (hs : s.stopped u) : t.stopped u := by
  induction h with
  | refl => exact hs
  | @step a b _ m ih =>
    refine ⟨by rw [m.frame.play.unit_hold]; exact ih.1, ?_⟩
    rcases m.request u with e | ⟨e, _⟩
    · rw [e]; exact ih.2
    · cases hb : b.req u with
      | none => rfl
      | some r =>
        have hd : a.demand u = none := by
          have h1 := ih.1
          unfold State.demand
          cases hh : (a.unitRec u).hold with
          | none => simp [hh] at h1
          | some h => simp [hh] at h1; simp [h1]
        have := e (by simp [hb])
        simp [ih.2, hd] at this

/-- An order that is no supervised one stands on while no slot of its port can be ordered. -/
theorem Reach.order {p : Port} {o : Outstanding} (h : Reach k s t) (ho : (s.portRec p).outstanding = some o)
    (hn : o.purpose ≠ .supervised)
    (hq : ∀ u, (s.unitRec u).port = some p → s.dispatchable u = false ∨ s.stopped u) :
    (t.portRec p).outstanding = some o := by
  induction h with
  | refl => exact ho
  | @step a b g m ih =>
    have same : b.ports = a.ports → (b.portRec p).outstanding = some o := fun e => by
      rw [State.portRec_congr e]; exact ih
    cases m with
    | free d => exact same (by cases d <;> rfl)
    | take d u => exact same (by cases d <;> rfl)
    | waterway v q r h => exact same (by simp)
    | unwarn u => exact same (by unfold State.unwarn; split <;> rfl)
    | order u q k c hp hr hd =>
      rw [sendOrder_outstanding]
      split
      · rename_i e
        subst e
        rcases hq u (by rw [← g.frame.play.unit_port]; exact hp) with e | e
        · rw [← g.frame.play.dispatchable, hd] at e; cases e
        · rw [(g.stopped e).2] at hr; cases hr
      · exact ih
    | cease u =>
      rcases ceaseOrder_outstanding a u .supervised p with e | ⟨_, e⟩
      · rw [e]; exact ih
      · rw [ih] at e
        simp at e
        exact absurd e hn
    | setpoint u v => rw [sendSetpoint_outstanding]; exact ih
    | _ => exact same rfl

end

end Sys2Proof.Machine
end

