-- ==== Sys2Proof/Laws/Settling.lean ====
section
/-! SUPPORT. The settlement of holds (R14, R37): what it writes, and that it leaves the rest of the state alone. -/

namespace Sys2Proof.Machine

/-- The state is the same but for the unit records and the events posted. -/
structure RosFrame (s t : State) : Prop where
  pending : t.pending = s.pending
  pli : t.pli = s.pli
  ports : t.ports = s.ports
  rotation : t.ros.rotation = s.ros.rotation
  head : t.head = s.head
  tgt : t.tgt = s.tgt
  prf : t.prf = s.prf
  pln : t.pln = s.pln
  trs : t.trs = s.trs
  alc : t.alc = s.alc
  plantOut : t.plantOut = s.plantOut
  unitOut : t.unitOut = s.unitOut
  posted : Posted s.clock s.ste t.ste

theorem RosFrame.refl (s : State) : RosFrame s s := ⟨rfl, rfl, rfl, rfl, rfl, rfl, rfl, rfl, rfl, rfl, rfl, rfl, .refl⟩
theorem RosFrame.trans {s t r : State} (h : RosFrame s t) (k : RosFrame t r) : RosFrame s r where
  pending := k.pending.trans h.pending
  pli := k.pli.trans h.pli
  ports := k.ports.trans h.ports
  rotation := k.rotation.trans h.rotation
  head := k.head.trans h.head
  tgt := k.tgt.trans h.tgt
  prf := k.prf.trans h.prf
  pln := k.pln.trans h.pln
  trs := k.trs.trans h.trs
  alc := k.alc.trans h.alc
  plantOut := k.plantOut.trans h.plantOut
  unitOut := k.unitOut.trans h.unitOut
  posted := h.posted.trans (State.clock_congr h.pli ▸ k.posted)
theorem RosFrame.headInUse {s t : State} (h : RosFrame s t) : t.headInUse = s.headInUse := by
  unfold State.headInUse State.headSource
  rw [h.head, State.params_congr h.pli]
theorem RosFrame.record {s t : State} (h : RosFrame s t) (u : Slot) : t.record u = s.record u := by
  unfold State.record; rw [h.headInUse, h.head]

theorem ros_setUnit (s : State) (u : Slot) (r : UnitRec) : RosFrame s (s.setUnit u r) :=
  ⟨rfl, rfl, rfl, rfl, rfl, rfl, rfl, rfl, rfl, rfl, rfl, rfl, .refl⟩
theorem ros_post (s : State) (k : EventKind) (u : Option Slot) (v : Option Int) : RosFrame s (s.post k u v) :=
  ⟨rfl, rfl, rfl, rfl, rfl, rfl, rfl, rfl, rfl, rfl, rfl, rfl, posted_post s k u v⟩

/-- A hold with its settlement against a record. -/
def Hold.settle (h : Hold) (c : Option CapRecord) : Hold := { h with settled := h.settledAgainst c }

/-- A unit record with its hold settled against a record. -/
def UnitRec.settle (r : UnitRec) (c : Option CapRecord) : UnitRec := { r with hold := r.hold.map (fun h => h.settle c) }

theorem settleHold_effect (s : State) (u : Slot) :
    RosFrame s (s.settleHold u)
      ∧ ∀ v, (s.settleHold u).unitRec v = if v = u then (s.unitRec v).settle (s.record v) else s.unitRec v := by
  unfold State.settleHold
  cases hh : (s.unitRec u).hold with
  | none =>
    refine ⟨.refl s, fun v => ?_⟩
    by_cases e : v = u
    · subst e
      have : (s.unitRec v).settle (s.record v) = s.unitRec v := by
        unfold UnitRec.settle; rw [hh]; cases hr : s.unitRec v; rw [hr] at hh; simp at hh; simp [hh]
      simp [this]
    · simp [e]
  | some h =>
    dsimp only
    have f := ros_setUnit s u { s.unitRec u with hold := some (h.settle (s.record u)) }
    have r : ∀ v, (s.setUnit u { s.unitRec u with hold := some (h.settle (s.record u)) }).unitRec v
        = if v = u then (s.unitRec v).settle (s.record v) else s.unitRec v := by
      intro v
      by_cases e : v = u
      · subst e; simp [UnitRec.settle, hh]
      · simp [e]
    split
    · exact ⟨f.trans (ros_post _ _ _ _), r⟩
    · exact ⟨f, r⟩

theorem settleFold_effect (us : List Slot) (hn : us.Nodup) (s : State) :
    RosFrame s (us.foldl State.settleHold s)
      ∧ ∀ v, (us.foldl State.settleHold s).unitRec v
        = if v ∈ us then (s.unitRec v).settle (s.record v) else s.unitRec v := by
  induction us generalizing s with
  | nil => exact ⟨.refl s, by simp⟩
  | cons u us ih =>
    obtain ⟨h1, h2⟩ := List.nodup_cons.mp hn
    obtain ⟨f, r⟩ := settleHold_effect s u
    obtain ⟨g, q⟩ := ih h2 (s.settleHold u)
    refine ⟨f.trans g, fun v => ?_⟩
    simp only [List.foldl_cons]
    rw [q, r, f.record]
    by_cases e : v = u
    · subst e; simp [h1]
    · simp [e]

/-- Settlement of every hold (R37). -/
theorem settleHolds_effect (s : State) :
    RosFrame s s.settleHolds ∧ ∀ v, s.settleHolds.unitRec v = (s.unitRec v).settle (s.record v) := by
  obtain ⟨f, r⟩ := settleFold_effect Slot.all (by decide) s
  refine ⟨f, fun v => ?_⟩
  have := r v
  rw [if_pos (by cases v <;> decide)] at this
  exact this

/-- Settlement after a change of the head in use, and nothing where it is the same (R37). -/
theorem resettle_effect (before : Option Nat) (s : State) :
    RosFrame s (State.resettle before s)
      ∧ ∀ v, (State.resettle before s).unitRec v
        = if s.headInUse = before then s.unitRec v else (s.unitRec v).settle (s.record v) := by
  unfold State.resettle
  split
  · exact ⟨.refl s, fun _ => rfl⟩
  · exact settleHolds_effect s

end Sys2Proof.Machine
end

