-- ==== Sys2Proof/Laws/Requests.lean ====
section
/-! SUPPORT. The slot's request under the operations of the TRS: an operation on one slot leaves every other slot's request alone,
and the taking of a demand leaves a request of that demand or none (R62 to R64). -/

namespace Sys2Proof.Machine

/-! ## The other slots -/

section
variable {s : State} {u v : Slot}

theorem releaseHeld_requests (s : State) (u : Slot) (b : Bool) :
    (s.releaseHeld u b).trs.requests = match s.req u with
      | none => s.trs.requests
      | some r => s.trs.requests.set u (some { r with conv := none, slotHeld := false }) := by
  unfold State.releaseHeld
  cases s.req u with
  | none => rfl
  | some r =>
    dsimp only
    have h : ∀ (a : State) q, a.trs.requests = s.trs.requests →
        (((if r.slotHeld = true then a.updateWaterwayOf u (·.release a.clock b) else a).unwarn u).setReq u q).trs.requests
          = s.trs.requests.set u q := by
      intro a q ha
      show (State.trs _).requests.set u q = _
      rw [unwarn_requests]
      split
      · rw [updateWaterwayOf_requests, ha]
      · rw [ha]
    cases r.conv with
    | none => exact h s _ rfl
    | some c => exact h _ _ (setHolder_requests _ _ _)

theorem endRequest_requests (s : State) (u : Slot) : (s.endRequest u).trs.requests = s.trs.requests.set u none := by
  unfold State.endRequest; rw [ceaseOrder_trs]; rfl

theorem endRequest_req (s : State) (u : Slot) : (s.endRequest u).req u = none := by
  unfold State.req; rw [endRequest_requests]; simp
theorem endRequest_other (h : v ≠ u) : (s.endRequest u).req v = s.req v := by
  unfold State.req; rw [endRequest_requests]; simp [h]
theorem releaseHeld_req (s : State) (u : Slot) (b : Bool) :
    (s.releaseHeld u b).req u = (s.req u).map (fun r => { r with conv := none, slotHeld := false }) := by
  unfold State.req; rw [releaseHeld_requests]
  unfold State.req
  cases h : s.trs.requests.get u <;> simp [h]
theorem releaseHeld_other (b : Bool) (h : v ≠ u) : (s.releaseHeld u b).req v = s.req v := by
  unfold State.req; rw [releaseHeld_requests]
  cases s.req u <;> simp [h]
/-- A withdrawn request waits, with what it was to do unchanged (R64). -/
theorem withdraw_req (s : State) (u : Slot) :
    (s.withdraw u).req u
      = (s.req u).map (fun r => ({ r with conv := none, slotHeld := false } : Request).toWaiting r.dest r.path r.index) := by
  unfold State.withdraw
  dsimp only
  have := releaseHeld_req s u false
  cases h : s.req u with
  | none => simp [h] at this ⊢; simp [this]
  | some r => simp [h] at this ⊢; simp [this]
theorem withdraw_other (h : v ≠ u) : (s.withdraw u).req v = s.req v := by
  unfold State.withdraw
  dsimp only
  rw [← releaseHeld_other (s := s) false h]
  split
  · rfl
  · simp [h]
theorem waitOn_other {r : Request} {c : ReqClass} {d : Stable} {p : List PathStep} (h : v ≠ u) :
    (s.waitOn u r c d p).req v = s.req v := by
  unfold State.waitOn
  split
  · exact endRequest_other h
  · simp [h]
theorem rewarn_other {r : Request} {c : ReqClass} {d : Stable} (h : v ≠ u) : (s.rewarn u r c d).req v = s.req v := by
  unfold State.rewarn
  dsimp only
  split
  · simp [h]
  · split
    · exact withdraw_other h
    · rw [waitOn_other h, withdraw_other h]
theorem compareDemand_other (h : v ≠ u) : (s.compareDemand u).req v = s.req v := by
  unfold State.compareDemand
  split
  · dsimp only
    split
    · show (State.req (s.setReq u _) v) = _
      simp [h]
    · rfl
  · rfl
theorem takeDemand_other (h : v ≠ u) : (s.takeDemand u).req v = s.req v := by
  unfold State.takeDemand
  split
  · exact compareDemand_other h
  · repeat' split
    all_goals first
      | exact endRequest_other h
      | exact waitOn_other h
      | (rw [endRequest_other h, withdraw_other h])
      | exact rewarn_other h
      | simp [h]
theorem dropGrant_other {before : State} (h : v ≠ u) : (State.dropGrant before s u).req v = s.req v := by
  unfold State.dropGrant
  split
  · exact withdraw_other h
  · rfl
theorem cancelRequest_other (h : v ≠ u) : (s.cancelRequest u).req v = s.req v := by
  unfold State.cancelRequest
  split
  · rfl
  · unfold State.failRequest
    rw [endRequest_other h, releaseHeld_other _ h]
theorem cancelRequest_req (s : State) (u : Slot) : (s.cancelRequest u).req u = none := by
  unfold State.cancelRequest
  split
  · assumption
  · exact endRequest_req _ _

end

/-! ## The taking of a demand -/

/-- A request that waits anew has the class and destination given. -/
theorem waitOn_key {s : State} {u : Slot} {r q : Request} {c : ReqClass} {d : Stable} {p : List PathStep}
    (h : (s.waitOn u r c d p).req u = some q) : q.cls = c ∧ q.dest = d := by
  unfold State.waitOn at h
  split at h
  · rw [endRequest_req] at h; cases h
  · simp at h; subst h; exact ⟨rfl, rfl⟩

theorem rewarn_key {s : State} {u : Slot} {r q : Request} {c : ReqClass} {d : Stable} (hr : s.req u = some r)
    (h : (s.rewarn u r c d).req u = some q) : q.cls = c ∧ q.dest = d := by
  unfold State.rewarn at h
  dsimp only at h
  split at h
  · simp at h; subst h; exact ⟨rfl, rfl⟩
  · split at h
    · rename_i e; rw [withdraw_req, hr] at e; cases e
    · exact waitOn_key h

/-- A request after the taking of a demand has the demand's class and destination. -/
theorem takeDemand_key {s : State} {u : Slot} {q : Request} {c : ReqClass} {d : Stable} (hd : s.demand u = some (d, c))
    (h : (s.takeDemand u).req u = some q) : q.cls = c ∧ q.dest = d := by
  unfold State.takeDemand at h
  split at h
  · rename_i hr
    unfold State.compareDemand at h
    rw [hr, hd] at h
    split at h
    · rename_i e _
      cases e
      dsimp only at h
      split at h
      · have : (s.setReq u (some (Request.new c d _ s.trs.entryCounter))).req u = some q := h
        simp at this
        subst this
        exact ⟨rfl, rfl⟩
      · rw [hr] at h; cases h
    · rw [hr] at h; cases h
  · rename_i r hr
    simp only [hd] at h
    split at h
    · rename_i e; cases e
    · rename_i e
      cases e
      split at h
      · rename_i e; simp at h; subst h; exact ⟨rfl, e.symm⟩
      · exact waitOn_key h
    · rename_i e; cases e
    · rename_i e
      cases e
      split at h
      · rename_i e; simp at h; subst h; exact ⟨rfl, e.symm⟩
      · exact rewarn_key hr h
    · rename_i e _ _; cases e
    · rename_i e _ _
      cases e
      simp at h
      subst h
      exact ⟨rfl, rfl⟩

/-- With no demand, a request that stays keeps its class. -/
theorem takeDemand_none {s : State} {u : Slot} {q : Request} (hd : s.demand u = none)
    (h : (s.takeDemand u).req u = some q) : ∃ r, s.req u = some r ∧ q.cls = r.cls := by
  unfold State.takeDemand at h
  split at h
  · rename_i hr
    unfold State.compareDemand at h
    rw [hr, hd] at h
    simp [hr] at h
  · rename_i r hr
    simp only [hd] at h
    split at h
    · rw [endRequest_req] at h; cases h
    · rename_i e; cases e
    · rw [endRequest_req] at h; cases h
    · rename_i e; cases e
    · simp at h; subst h; exact ⟨r, hr, rfl⟩
    · rename_i e _ _; cases e

theorem pathOf_ne {a b : Stable} (h : a ≠ b) : (pathOf a b).isEmpty = false := by
  cases a <;> cases b <;> first | rfl | exact absurd rfl h

/-- A demand other than the known mode leaves a request while the part governs (R62). -/
theorem takeDemand_isSome {s : State} {u : Slot} {c : ReqClass} {d k : Stable} (hd : s.demand u = some (d, c))
    (hg : s.governs = true) (hk : s.known u = some k) (hn : k ≠ d) : ((s.takeDemand u).req u).isSome = true := by
  have hp : (s.pathTo u d).isEmpty = false := by
    unfold State.pathTo; rw [hk]; exact pathOf_ne hn
  unfold State.takeDemand
  split
  · rename_i hr
    unfold State.compareDemand
    simp only [hr, hd, hk, hg]
    rw [if_pos (by simp [hn])]
    show (State.req (s.setReq u _) u).isSome = true
    simp
  · rename_i r hr
    have hw : ∀ (x : State) (q : Request), (x.waitOn u q c d (s.pathTo u d)).req u ≠ none := by
      intro x q; unfold State.waitOn; rw [hp]; simp
    simp only [hd]
    split
    · rename_i e; cases e
    · rename_i e
      cases e
      split
      · simp
      · exact Option.isSome_iff_ne_none.mpr (hw s r)
    · rename_i e; cases e
    · rename_i e
      cases e
      split
      · simp
      · unfold State.rewarn
        dsimp only
        split
        · simp
        · split
          · rename_i e; rw [withdraw_req, hr] at e; cases e
          · exact Option.isSome_iff_ne_none.mpr (hw _ _)
    · rename_i e _ _; cases e
    · simp

/-! ## A hold and its frame -/

theorem CascadeFrame.setHold {s t : State} (h : CascadeFrame s t) (u : Slot) (x : Option Hold) :
    CascadeFrame (s.setHold u x) (t.setHold u x) := by
  refine ⟨⟨⟨⟨h.pending, h.pli, h.head, h.dir, h.divider, h.pulse, h.plantOut, h.table, ⟨h.units.1, fun v => ?_⟩, h.ports,
    h.waterways, h.posted⟩, h.playback⟩, h.tgt⟩, h.selected, h.proposal, h.gap⟩
  by_cases e : v = u
  · subst e
    have := h.units.2 v
    unfold State.setHold
    simp only [State.setUnit_unitRec, UnitRec.core] at this ⊢
    simp at this ⊢
    simp [this]
  · have := h.units.2 v
    unfold State.setHold
    simp [e, this]

end Sys2Proof.Machine
end

