-- ==== Sys2Proof/Laws/Handing.lean ====
section
/-! SUPPORT. The handing of a profile's values (R114, R131) and the beginning of an entry (R132): the frame they keep, and what they
write of the targets and of the playback record. -/

namespace Sys2Proof.Machine

theorem play_setPlayback (s : State) (b : Playback) : PlayFrame s (s.setPlayback b) :=
  ⟨rfl, rfl, rfl, rfl, rfl, rfl, rfl, rfl, .of_eq rfl, .of_eq rfl, .of_eq rfl, .refl⟩

theorem play_post (s : State) (k : EventKind) (u : Option Slot) (v : Option Int) : PlayFrame s (s.post k u v) :=
  (cascade_post s k u v).play

/-- A plan value handed (R114). -/
theorem handPlan_effect (s : State) (v : Int) :
    PlayFrame s (s.handPlan v) ∧ (s.handPlan v).prf.playback = { s.prf.playback with planHanded := true }
      ∧ (s.handPlan v).tgt = (if s.tgt.source = .profile then { s.tgt with plan := v } else s.tgt) := by
  by_cases h : s.tgt.source = .profile
  · have e : s.handPlan v = (s.setPlayback { s.prf.playback with planHanded := true }).setPlanTarget v := if_pos h
    obtain ⟨f, g⟩ := target_setPlanTarget (s.setPlayback { s.prf.playback with planHanded := true }) v
    rw [e, if_pos h]
    exact ⟨(play_setPlayback _ _).trans f.toPlayFrame, f.playback, g⟩
  · have e : s.handPlan v = s.setPlayback { s.prf.playback with planHanded := true } := if_neg h
    rw [e, if_neg h]
    exact ⟨play_setPlayback _ _, rfl, rfl⟩

/-- A requested base target written, in the terms of the statements (R110, R116). -/
theorem baseTgt_withBase (s : State) (v : Int) : s.baseTgt (clampPlant v) = s.tgt.withBase v s.jumps := by
  unfold State.baseTgt Tgt.withBase State.jumps
  simp only [Bool.and_eq_true, beq_iff_eq]
  congr 1
  by_cases h : clampPlant v = s.tgt.reqBase <;> simp [h]

/-- A ramp value handed (R114, R116). -/
theorem handRamp_effect (s : State) (v : Int) :
    PlayFrame s (s.handRamp v) ∧ (s.handRamp v).prf.playback = { s.prf.playback with rampHanded := true }
      ∧ (s.handRamp v).tgt = (if s.tgt.source = .profile then s.tgt.withBase v s.jumps else s.tgt) := by
  by_cases h : s.tgt.source = .profile
  · have e : s.handRamp v = (s.setPlayback { s.prf.playback with rampHanded := true }).setReqBase v := if_pos h
    obtain ⟨f, g⟩ := target_setReqBase (s.setPlayback { s.prf.playback with rampHanded := true }) v
    rw [e, if_pos h]
    exact ⟨(play_setPlayback _ _).trans f.toPlayFrame, f.playback, g.trans (baseTgt_withBase _ v)⟩
  · have e : s.handRamp v = s.setPlayback { s.prf.playback with rampHanded := true } := if_neg h
    rw [e, if_neg h]
    exact ⟨play_setPlayback _ _, rfl, rfl⟩

/-- What any handing leaves of the playback record and of the targets. -/
structure Handed (s t : State) : Prop where
  frame : PlayFrame s t
  playback : t.prf.playback = { s.prf.playback with
    planHanded := t.prf.playback.planHanded, rampHanded := t.prf.playback.rampHanded }
  other : s.tgt.source ≠ .profile → t.tgt = s.tgt
  rest : t.tgt = { s.tgt with plan := t.tgt.plan, reqBase := t.tgt.reqBase, ramped := t.tgt.ramped }

theorem Handed.refl (s : State) : Handed s s := ⟨.refl s, rfl, fun _ => rfl, rfl⟩
theorem Handed.source {s t : State} (h : Handed s t) : t.tgt.source = s.tgt.source := by rw [h.rest]
theorem Handed.trans {s t r : State} (h : Handed s t) (k : Handed t r) : Handed s r where
  frame := h.frame.trans k.frame
  playback := by rw [k.playback, h.playback]
  other := fun e => (k.other (by rw [h.source]; exact e)).trans (h.other e)
  rest := by rw [k.rest, h.rest]

theorem handed_plan (s : State) (v : Int) : Handed s (s.handPlan v) := by
  obtain ⟨f, p, g⟩ := handPlan_effect s v
  refine ⟨f, by rw [p], fun e => by rw [g, if_neg e], ?_⟩
  rw [g]; split <;> rfl
theorem handed_ramp (s : State) (v : Int) : Handed s (s.handRamp v) := by
  obtain ⟨f, p, g⟩ := handRamp_effect s v
  refine ⟨f, by rw [p], fun e => by rw [g, if_neg e], ?_⟩
  rw [g]; split <;> rfl
theorem handed_meetPlan (s : State) : Handed s s.meetPlan := by
  unfold State.meetPlan; split
  · exact handed_plan _ _
  · exact .refl s
theorem handed_meetRamp (s : State) : Handed s s.meetRamp := by
  unfold State.meetRamp; split
  · exact handed_ramp _ _
  · exact .refl s
theorem handed_meetDue (s : State) : Handed s s.meetDue := (handed_meetPlan s).trans (handed_meetRamp _)
theorem handed_completeHanding (s : State) (v : Int) : Handed s (s.completeHanding v) := by
  have h : Handed s (if s.prf.playback.planHanded = true then s else s.handPlan v) := by
    split
    · exact .refl s
    · exact handed_plan s v
  unfold State.completeHanding
  dsimp only
  split
  · exact h
  · exact h.trans (handed_ramp _ v)

/-- The name a playback record holds is the profile's while nothing but the handing has happened. -/
theorem Handed.playing {s t : State} (h : Handed s t) : t.playing = s.playing := by
  unfold State.playing State.profileNamed
  rw [h.playback, h.frame.dir]

/-- Whether the part governs, and so whether a ramp value jumps, does not change by a handing. -/
theorem Handed.jumps {s t : State} (h : Handed s t) : t.jumps = s.jumps := by
  unfold State.jumps State.governs
  rw [h.frame.params, h.frame.pli]

/-- At the boundary just made a switching time has come exactly where the advance reaches the whole interval (R131). -/
theorem reached_whole (now : Word) (advance seconds : Nat) (m : seconds ≤ 0x80000000) :
    reached now (switchingTime (later now seconds) advance seconds) = decide (seconds ≤ advance) := by
  unfold reached switchingTime later
  have e : ∀ n : Nat, now - (now + BitVec.ofNat 32 seconds - BitVec.ofNat 32 n) = BitVec.ofNat 32 n - BitVec.ofNat 32 seconds := by
    intro n; ring
  rw [e, decide_eq_decide, BitVec.toNat_sub]
  simp only [BitVec.toNat_ofNat]
  omega

/-- What is due right after a boundary, before anything of the next entry has been handed (R131). -/
theorem due_whole {b : State} {p : Profile} (hp : b.playing = some p) (hm : p.minutes ≤ 60)
    (hn : b.prf.playback.next = some (later b.clock (60 * p.minutes))) :
    (b.prf.playback.planHanded = false → b.duePlan =
        if 60 * p.minutes ≤ b.params.planAdvance then (b.prf.playback.nextEntry p).map p.value else none)
      ∧ (b.prf.playback.rampHanded = false → b.dueRamp =
        if 60 * p.minutes ≤ b.params.rampAdvance then (b.prf.playback.nextEntry p).map p.value else none) := by
  have r := fun a => reached_whole b.clock a (60 * p.minutes) (by omega)
  constructor
  · intro h
    unfold State.duePlan Profile.seconds
    rw [hp, hn, h]
    dsimp only
    rw [r]
    by_cases g : 60 * p.minutes ≤ b.params.planAdvance <;> simp [g]
  · intro h
    unfold State.dueRamp Profile.seconds
    rw [hp, hn, h]
    dsimp only
    rw [r]
    by_cases g : 60 * p.minutes ≤ b.params.rampAdvance <;> simp [g]

/-- What the handing of values due right after a boundary does (R131): each kind once, where its advance reaches the whole interval. -/
theorem meetDue_whole {b : State} {p : Profile} (hp : b.playing = some p) (hm : p.minutes ≤ 60)
    (hn : b.prf.playback.next = some (later b.clock (60 * p.minutes))) (h1 : b.prf.playback.planHanded = false)
    (h2 : b.prf.playback.rampHanded = false) :
    let j := b.prf.playback.nextEntry p
    b.meetDue.prf.playback = { b.prf.playback with
        planHanded := decide (60 * p.minutes ≤ b.params.planAdvance) && j.isSome
        rampHanded := decide (60 * p.minutes ≤ b.params.rampAdvance) && j.isSome }
      ∧ (b.tgt.source = .profile → b.meetDue.tgt = match j with
        | none => b.tgt
        | some j =>
          let next : Tgt := if 60 * p.minutes ≤ b.params.planAdvance then { b.tgt with plan := p.entries.getD j 0 } else b.tgt
          if 60 * p.minutes ≤ b.params.rampAdvance then next.withBase (p.entries.getD j 0) b.jumps else next) := by
  intro j
  have hd := handed_meetPlan b
  have d1 := (due_whole hp hm hn).1 h1
  have pl : b.meetPlan.prf.playback = { b.prf.playback with
        planHanded := decide (60 * p.minutes ≤ b.params.planAdvance) && j.isSome }
      ∧ (b.tgt.source = .profile → b.meetPlan.tgt = match j with
        | none => b.tgt
        | some j => if 60 * p.minutes ≤ b.params.planAdvance then { b.tgt with plan := p.entries.getD j 0 } else b.tgt) := by
    unfold State.meetPlan
    rw [d1]
    by_cases g : 60 * p.minutes ≤ b.params.planAdvance
    · cases hj : b.prf.playback.nextEntry p with
      | none => simp [g, hj, j, ← h1]
      | some k =>
        simp only [g, if_true, Option.map_some, j, hj]
        obtain ⟨_, e, q⟩ := handPlan_effect b (p.value k)
        refine ⟨by rw [e]; simp, fun hs => by rw [q, if_pos hs]; rfl⟩
    · simp only [g, if_false, decide_false, Bool.false_and]
      refine ⟨by rw [← h1], fun _ => ?_⟩
      cases hj : b.prf.playback.nextEntry p <;> simp [j, hj]
  have hn' : b.meetPlan.prf.playback.next = some (later b.meetPlan.clock (60 * p.minutes)) := by
    rw [pl.1, hd.frame.clock]; exact hn
  have nx : b.meetPlan.prf.playback.nextEntry p = j := by rw [pl.1]; rfl
  have d2 := (due_whole (hd.playing.trans hp) hm hn').2 (by rw [pl.1]; exact h2)
  rw [nx, hd.frame.params] at d2
  have src : b.meetPlan.tgt.source = b.tgt.source := hd.source
  unfold State.meetDue State.meetRamp
  rw [d2]
  by_cases g : 60 * p.minutes ≤ b.params.rampAdvance
  · cases hj : j with
    | none =>
      rw [hj] at pl
      simp only [g, if_true, Option.map_none, Option.isSome_none, Bool.and_false]
      refine ⟨by rw [pl.1]; simp [← h2], pl.2⟩
    | some k =>
      rw [hj] at pl
      simp only [g, if_true, Option.map_some]
      obtain ⟨_, e, q⟩ := handRamp_effect b.meetPlan (p.value k)
      refine ⟨by rw [e, pl.1]; simp, fun hs => ?_⟩
      rw [q, if_pos (src.trans hs), pl.2 hs, hd.jumps]; rfl
  · simp only [g, if_false, decide_false, Bool.false_and]
    refine ⟨by rw [pl.1, ← h2], fun hs => ?_⟩
    rw [pl.2 hs]

/-- The handing that completes the beginning entry's (R132). -/
theorem completeHanding_tgt {s : State} (v : Int) (hs : s.tgt.source = .profile) :
    (s.completeHanding v).tgt =
      let plan : Tgt := if s.prf.playback.planHanded then s.tgt else { s.tgt with plan := v }
      if s.prf.playback.rampHanded then plan else plan.withBase v s.jumps := by
  have h : (if s.prf.playback.planHanded = true then s else s.handPlan v).tgt
        = (if s.prf.playback.planHanded then s.tgt else { s.tgt with plan := v })
      ∧ (if s.prf.playback.planHanded = true then s else s.handPlan v).jumps = s.jumps := by
    split
    · exact ⟨rfl, rfl⟩
    · exact ⟨by rw [(handPlan_effect s v).2.2, if_pos hs], (handed_plan s v).jumps⟩
  unfold State.completeHanding
  dsimp only
  cases s.prf.playback.rampHanded with
  | true => exact h.1
  | false =>
    simp only [Bool.false_eq_true, if_false]
    rw [(handRamp_effect _ v).2.2, h.1, h.2]
    refine if_pos ?_
    split <;> exact hs

/-- Entry `k` of `p` begins (R132): the record, the targets, and PROFILE_STARTED at the boundary that ends ALIGNED. -/
theorem beginEntry_effect {s : State} {p : Profile} (k : Nat) (hp : s.playing = some p) (hm : p.minutes ≤ 60) :
    ∃ m, EntryBegins s m p k
      ∧ s.beginEntry p k
        = (if s.prf.playback.state = .aligned then m.post .profileStarted none (some p.entries.length) else m) := by
  have hc := handed_completeHanding s (p.value k)
  have ct := completeHanding_tgt (s := s) (p.value k)
  have cp := hc.playing
  generalize hcs : s.completeHanding (p.value k) = c at hc cp ct
  have cclock : c.clock = s.clock := hc.frame.clock
  let b := c.setPlayback { c.prf.playback with
    state := .playing, current := some k, last := some c.clock, next := some (later c.clock p.seconds),
    planHanded := false, rampHanded := false }
  have hb : s.beginEntry p k
      = (if s.prf.playback.state = .aligned then b.meetDue.post .profileStarted none (some p.entries.length) else b.meetDue) := by
    unfold State.beginEntry
    rw [hcs]
    by_cases e : s.prf.playback.state = .aligned
    · simp [e, b]
    · simp [e, b]
  have hd := handed_meetDue b
  have bplaying : b.playing = some p := by rw [← hp, ← cp]; rfl
  have bparams : b.params = s.params := hc.frame.params
  obtain ⟨mp, mt⟩ := meetDue_whole bplaying hm rfl rfl rfl
  have nx : b.prf.playback.nextEntry p = p.follows k := rfl
  rw [nx, bparams] at mp mt
  refine ⟨b.meetDue, ⟨(hc.frame.trans (play_setPlayback c _)).trans hd.frame, ?_, ?_, ?_⟩, hb⟩
  · rw [mp]
    have e1 : c.prf.playback.profile = s.prf.playback.profile := by rw [hc.playback]
    have e2 : c.prf.playback.markerLost = s.prf.playback.markerLost := by rw [hc.playback]
    show Playback.mk c.prf.playback.profile .playing (some k) (some c.clock) (some (later c.clock p.seconds)) _ _
      c.prf.playback.markerLost = _
    rw [e1, e2, cclock]; rfl
  · intro h
    rw [hd.other (by show c.tgt.source ≠ _; rw [hc.source]; exact h)]
    exact hc.other h
  · intro hs
    have bj : b.jumps = s.jumps := hc.jumps
    have bt : b.tgt = c.tgt := rfl
    rw [mt (by show c.tgt.source = _; rw [hc.source]; exact hs), bj, bt, ct hs]
    rfl

/-- A boundary of the profile in play (R132). -/
theorem boundary_effect {s : State} {p : Profile} (hp : s.playing = some p) (hm : p.minutes ≤ 60) : Bounded s s.boundary p := by
  constructor
  · intro k hk
    have : s.boundary = s.beginEntry p k := by
      unfold State.boundary; simp only [hp, hk]
    rw [this]
    exact beginEntry_effect k hp hm
  · intro hk hs
    unfold State.boundary
    simp only [hp, hk, hs, if_true]
    rfl

end Sys2Proof.Machine
end

