-- ==== Sys2Proof/Laws/Standby.lean ====
section
/-! SUPPORT. The cascade in STANDBY (R43, R67, R91): no assignment, no grant and no allocation; the scan of the queue can write
blocked reasons alone. -/

namespace Sys2Proof.Machine

theorem tryGrant_standby (s : State) (hg : s.governs = false) (u : Slot) : ∃ q, s.tryGrant u = s.setTrs { s.trs with requests := q } := by
  unfold State.tryGrant
  cases hr : s.req u with
  | none => exact ⟨_, rfl⟩
  | some r =>
    dsimp only
    split
    · exact ⟨s.trs.requests, rfl⟩
    · split
      · exact ⟨s.trs.requests, rfl⟩
      · split
        · rename_i h; unfold State.testGrant at h; simp [hg] at h
        · exact ⟨_, rfl⟩
theorem evalGrants_standby (s : State) (hg : s.governs = false) : ∃ q, s.evalGrants = s.setTrs { s.trs with requests := q } := by
  unfold State.evalGrants
  generalize s.queue = us
  have : ∀ (us : List Slot) (x : State), x.governs = false → ∃ q, us.foldl State.tryGrant x = x.setTrs { x.trs with requests := q } := by
    intro us
    induction us with
    | nil => intro x _; exact ⟨x.trs.requests, rfl⟩
    | cons u us ih =>
      intro x hx
      obtain ⟨q, hq⟩ := tryGrant_standby x hx u
      obtain ⟨q', hq'⟩ := ih (x.tryGrant u) (by rw [hq]; exact hx)
      refine ⟨q', ?_⟩
      simp only [List.foldl_cons]
      rw [hq', hq]; rfl
  exact this us s hg
theorem finish_standby {before s : State} {c : Causes} (hg : s.governs = false) (hc : c.hand = []) (hd : ∀ u, before.dispatchable u = true → s.dispatchable u = true) :
    ∃ q, s.finish before c = s.setTrs { s.trs with requests := q } := by
  have h1 : ∀ u, State.dropGrant before s u = s := by
    intro u; unfold State.dropGrant
    rw [if_neg]
    simp only [Bool.and_eq_true, not_and]
    intro ⟨a, b⟩
    rw [hd u a] at b; cases b
  have h2 : Slot.all.foldl (State.dropGrant before) s = s := by simp [Slot.all, h1]
  have h3 : s.planStage before c = s := by
    unfold State.planStage
    rw [h2, hc]
    simp [State.replan, hg]
  unfold State.finish
  rw [h3]
  have h4 : ∃ q, s.grantStage before c = s.setTrs { s.trs with requests := q } := by
    unfold State.grantStage
    split
    · exact evalGrants_standby s hg
    · exact ⟨s.trs.requests, rfl⟩
  obtain ⟨q, hq⟩ := h4
  refine ⟨q, ?_⟩
  rw [hq]
  unfold State.allocStage
  have : (s.setTrs { s.trs with requests := q }).governs = false := hg
  simp [this]

end Sys2Proof.Machine
end

