-- ==== Sys2Proof/Laws/Ports.lean ====
section
/-! SUPPORT. What the departure of a port from QUALIFIED does (R149), and the handing of a PROBE (R145). -/

namespace Sys2Proof.Machine

/-- `m` is `s` after port `p` of slot `u` has left QUALIFIED for `st` (R4, R79, R149). -/
structure PortLeft (s m : State) (p : Port) (u : Slot) (st : PortState) : Prop where
  port : m.portRec p = (s.portRec p).left st
  ports : ∀ q, q ≠ p → m.portRec q = s.portRec q
  unit : m.unitRec u = (s.unitRec u).left
  units : ∀ v, v ≠ u → m.unitRec v = s.unitRec v
  request : m.req u = (s.req u).bind Request.left
  requests : ∀ v, v ≠ u → m.req v = s.req v
  orphan : m.orphan u = if s.underOrder u then (s.req u).map Request.orphaned else s.orphan u
  orphans : ∀ v, v ≠ u → m.orphan v = s.orphan v
  converter : ∀ r c, s.req u = some r → r.ordered = true → r.conv = some c → m.holder c = some { slot := u, kind := .orphaned }
  rotation : m.ros.rotation = s.ros.rotation
  pending : m.pending = s.pending
  pli : m.pli = s.pli
  head : m.head = s.head
  tgt : m.tgt = s.tgt
  prf : m.prf = s.prf
  pln : m.pln = s.pln
  alc : m.alc = s.alc
  ste : m.ste = s.ste
  waterways : SameWaterways s m
  plantOut : m.plantOut = s.plantOut
  unitOut : m.unitOut = s.unitOut

/-! ## A PROBE -/

theorem probeNow_portRec (s : State) (p q : Port) :
    (s.probeNow p).portRec q = if q = p then (s.portRec p).probed s.clock else s.portRec q := by
  unfold State.probeNow State.hand State.beginSending
  by_cases h : q = p
  · subst h
    cases e : (s.portRec q).sending with
    | none =>
      simp [e, PortRec.probed, probePeriod]
      simp [State.portRec]
    | some f => simp [e, PortRec.probed, probePeriod]
  · cases e : (s.portRec p).sending with
    | none =>
      simp [e, h]
      simp [State.portRec, h]
    | some f => simp [e, h]

theorem probeNow_unitOut (s : State) (p : Port) :
    (s.probeNow p).unitOut = s.unitOut ++ (if (s.portRec p).sending.isNone then [(p, .probe)] else []) := by
  unfold State.probeNow State.hand State.beginSending
  cases e : (s.portRec p).sending <;> simp [e]

theorem probeNow_eq (s : State) (p : Port) : ∃ ports out, s.probeNow p = { s with ports := ports, unitOut := out } := by
  unfold State.probeNow State.hand State.beginSending
  dsimp only
  split
  · exact ⟨_, _, rfl⟩
  · exact ⟨_, s.unitOut, rfl⟩

/-! ## Departure from QUALIFIED -/

theorem unwarn_trs (s : State) (u : Slot) : (s.unwarn u).trs.requests = s.trs.requests ∧ (s.unwarn u).trs.orphans = s.trs.orphans
    ∧ (s.unwarn u).trs.c1 = s.trs.c1 ∧ (s.unwarn u).trs.c2 = s.trs.c2 := by
  unfold State.unwarn; split <;> exact ⟨rfl, rfl, rfl, rfl⟩

theorem isProbe_eq (f : UnitFrame) : f.isProbe = (f == .probe) := by cases f <;> rfl

/-- The state is the same but for the TRS's own records. -/
def OnlyTrs (s t : State) : Prop := t = s.setTrs t.trs

theorem OnlyTrs.refl (s : State) : OnlyTrs s s := rfl
theorem OnlyTrs.trans {s t r : State} (h : OnlyTrs s t) (k : OnlyTrs t r) : OnlyTrs s r := by
  unfold OnlyTrs at *; rw [k, h]; rfl
theorem only_setTrs (s : State) (b : Trs) : OnlyTrs s (s.setTrs b) := rfl
theorem only_setReq (s : State) (u : Slot) (r : Option Request) : OnlyTrs s (s.setReq u r) := rfl
theorem only_setOrphan (s : State) (u : Slot) (r : Option Orphan) : OnlyTrs s (s.setOrphan u r) := rfl
theorem only_setHolder (s : State) (c : Conv) (h : Option Holder) : OnlyTrs s (s.setHolder c h) := by cases c <;> rfl
theorem only_setWaterway (s : State) (w : Waterway) (r : WaterwayRec) : OnlyTrs s (s.setWaterway w r) := by
  unfold State.setWaterway; split <;> rfl
theorem only_updateWaterwayOf (s : State) (u : Slot) (f : WaterwayRec → WaterwayRec) : OnlyTrs s (s.updateWaterwayOf u f) := by
  unfold State.updateWaterwayOf; split
  · rfl
  · split
    · rfl
    · exact only_setWaterway _ _ _
theorem only_unwarn (s : State) (u : Slot) : OnlyTrs s (s.unwarn u) := by
  unfold State.unwarn; split <;> rfl
theorem only_releaseHeld (s : State) (u : Slot) (b : Bool) : OnlyTrs s (s.releaseHeld u b) := by
  unfold State.releaseHeld
  split
  · rfl
  · rename_i r _
    dsimp only
    refine OnlyTrs.trans ?_ ((only_unwarn _ _).trans (only_setReq _ _ _))
    have h1 : OnlyTrs s (match r.conv with | some c => s.setHolder c none | none => s) := by
      split
      · exact only_setHolder _ _ _
      · rfl
    split
    · exact h1.trans (only_updateWaterwayOf _ _ _)
    · exact h1
theorem only_withdraw (s : State) (u : Slot) : OnlyTrs s (s.withdraw u) := by
  unfold State.withdraw
  dsimp only
  split
  · exact only_releaseHeld _ _ _
  · exact (only_releaseHeld _ _ _).trans (only_setReq _ _ _)

theorem ceaseOrder_none {s : State} {u : Slot} {p : Port} {q : Purpose} (hp : (s.unitRec u).port = some p)
    (ho : (s.portRec p).outstanding = none) : s.ceaseOrder u q = s := by
  unfold State.ceaseOrder
  simp [hp, ho]

/-- The grant given up or the resources orphaned (R79). -/
theorem orphanRequest_effect {s : State} {u : Slot} {p : Port} (hp : (s.unitRec u).port = some p)
    (ho : (s.portRec p).outstanding = none) :
    OnlyTrs s (s.orphanRequest u) ∧ SameWaterways s (s.orphanRequest u)
      ∧ (s.orphanRequest u).req u = (s.req u).bind Request.left
      ∧ (∀ v, v ≠ u → (s.orphanRequest u).req v = s.req v)
      ∧ (s.orphanRequest u).orphan u = (if s.underOrder u then (s.req u).map Request.orphaned else s.orphan u)
      ∧ (∀ v, v ≠ u → (s.orphanRequest u).orphan v = s.orphan v)
      ∧ ∀ r c, s.req u = some r → r.ordered = true → r.conv = some c →
          (s.orphanRequest u).holder c = some { slot := u, kind := .orphaned } := by
  have hw0 : (s.withdraw u).trs.orphans = s.trs.orphans := by
    have := fun v => (reach_withdraw s u).orphan v
    exact SlotMap.ext_get this
  have under : ∀ r, s.req u = some r → s.underOrder u = r.ordered := fun r h => by unfold State.underOrder; rw [h]; rfl
  unfold State.orphanRequest
  cases hr : s.req u with
  | none =>
    refine ⟨rfl, .of_eq rfl, by simp [hr], fun v _ => Eq.refl (s.req v), ?_, fun v _ => Eq.refl (s.orphan v), fun _ _ h => by cases h⟩
    simp [State.underOrder, hr]
  | some r =>
    have hu := under r hr
    cases hs : r.state <;> simp only [hs]
    · refine ⟨rfl, .of_eq rfl, by simp [hr, Request.left, hs], by simp, ?_, by simp, ?_⟩
      · rw [hu]; simp [Request.ordered, hs]
      · intro q c e h; cases e; simp [Request.ordered, hs] at h
    · refine ⟨only_withdraw s u, (cascade_withdraw s u).waterways, ?_, fun v hv => withdraw_other hv, ?_, ?_, ?_⟩
      · rw [withdraw_req, hr]; simp [Request.left, hs]
      · rw [hu]; simp [Request.ordered, hs, State.orphan, hw0]
      · intro v _; simp [State.orphan, hw0]
      · intro q c e h; cases e; simp [Request.ordered, hs] at h
    all_goals
      let a := match r.conv with
        | some c => s.setHolder c (some { slot := u, kind := .orphaned })
        | none => s
      let b := (a.setOrphan u (some { conv := r.conv, slotHeld := r.slotHeld, place := true })).unwarn u
      have ha : OnlyTrs s a := by
        simp only [a]; split
        · exact only_setHolder _ _ _
        · rfl
      have hb : OnlyTrs s b := (ha.trans (only_setOrphan _ _ _)).trans (only_unwarn _ _)
      have arq : a.trs.requests = s.trs.requests := by
        simp only [a]; split
        · exact setHolder_requests _ _ _
        · rfl
      have aor : a.trs.orphans = s.trs.orphans := by
        simp only [a]; split
        · rename_i c _; cases c <;> rfl
        · rfl
      have aw : a.trs.waterways = s.trs.waterways := by
        simp only [a]; split
        · rename_i c _; cases c <;> rfl
        · rfl
      have he : b.endRequest u = b.setReq u none := by
        unfold State.endRequest
        refine ceaseOrder_none (p := p) ?_ ?_
        · show (b.unitRec u).port = _
          rw [hb]; exact hp
        · show (b.portRec p).outstanding = _
          rw [hb]; exact ho
      have key : OnlyTrs s (b.endRequest u) ∧ SameWaterways s (b.endRequest u) ∧ (b.endRequest u).req u = none
          ∧ (∀ v, v ≠ u → (b.endRequest u).req v = s.req v)
          ∧ (b.endRequest u).orphan u = some { conv := r.conv, slotHeld := r.slotHeld, place := true }
          ∧ (∀ v, v ≠ u → (b.endRequest u).orphan v = s.orphan v)
          ∧ ∀ c, r.conv = some c → (b.endRequest u).holder c = some { slot := u, kind := .orphaned } := by
        have borph : b.trs.orphans = s.trs.orphans.set u (some { conv := r.conv, slotHeld := r.slotHeld, place := true }) := by
          simp only [b]; rw [(unwarn_trs _ u).2.1]; show a.trs.orphans.set u _ = _; rw [aor]
        have breq : b.trs.requests = s.trs.requests := by
          simp only [b]; rw [(unwarn_trs _ u).1]; show a.trs.requests = _; rw [arq]
        refine ⟨hb.trans (by rw [he]; exact only_setReq _ _ _), ?_, endRequest_req _ _, ?_, ?_, ?_, ?_⟩
        · have h1 : SameWaterways s (a.setOrphan u (some { conv := r.conv, slotHeld := r.slotHeld, place := true })) := .of_eq aw
          rw [he]
          exact (h1.trans (cascade_unwarn _ u).waterways).trans (.of_eq rfl)
        · intro v hv
          rw [endRequest_other hv]; unfold State.req; rw [breq]
        · rw [he]; unfold State.orphan
          show b.trs.orphans.get u = _
          rw [borph]; simp
        · intro v hv
          rw [he]; unfold State.orphan
          show b.trs.orphans.get v = _
          rw [borph]; simp [hv]
        · intro c hc
          rw [he]
          have : ∀ d, b.holder d = a.holder d := by
            intro d; cases d
            · exact (unwarn_trs _ u).2.2.1
            · exact (unwarn_trs _ u).2.2.2
          show b.holder c = _
          rw [this]
          simp only [a, hc]
          cases c <;> rfl
      obtain ⟨k1, k2, k3, k4, k5, k6, k7⟩ := key
      refine ⟨k1, k2, ?_, k4, ?_, k6, ?_⟩
      · simp only [Option.bind_some, Request.left, hs]; exact k3
      · rw [hu]; simp only [Request.ordered, hs]; exact k5
      · intro q c e _ hc; cases e; exact k7 c hc

/-- A port leaves QUALIFIED (R149). -/
theorem leaveQualified_effect {s : State} {p : Port} {u : Slot} (st : PortState) (hs : s.slotOf p = some u) :
    PortLeft s (s.leaveQualified p st) p u st := by
  have hp : (s.unitRec u).port = some p := by
    have := List.find?_some hs
    simpa using this
  let a := s.setPort p ((s.portRec p).left st)
  let b := a.setUnit u (s.unitRec u).left
  have e : s.leaveQualified p st = b.orphanRequest u := by
    unfold State.leaveQualified
    have : (s.portRec p).leave st = (s.portRec p).left st := by
      unfold PortRec.leave PortRec.left
      congr 1
      exact List.filter_congr (fun f _ => isProbe_eq f)
    rw [hs, this]
    rfl
  obtain ⟨o, w, r1, r2, o1, o2, h⟩ := orphanRequest_effect (s := b) (u := u) (p := p) (by simp [b, UnitRec.left, hp])
    (by show ((s.setPort p ((s.portRec p).left st)).portRec p).outstanding = none
        simp [PortRec.left])
  rw [← e] at o w r1 r2 o1 o2 h
  have br : ∀ v, b.req v = s.req v := fun _ => rfl
  have bo : ∀ v, b.orphan v = s.orphan v := fun _ => rfl
  have bu : b.underOrder u = s.underOrder u := rfl
  constructor
  · rw [o]; show (s.setPort p ((s.portRec p).left st)).portRec p = _; simp
  · intro q hq; rw [o]; show (s.setPort p ((s.portRec p).left st)).portRec q = _; simp [hq]
  · rw [o]; show b.unitRec u = _; simp [b]
  · intro v hv; rw [o]; show b.unitRec v = _; simp [b, hv]; rfl
  · rw [r1, br]
  · intro v hv; rw [r2 v hv, br]
  · rw [o1, bu, br, bo]
  · intro v hv; rw [o2 v hv, bo]
  · exact h
  · rw [o]; rfl
  · rw [o]; rfl
  · rw [o]; rfl
  · rw [o]; rfl
  · rw [o]; rfl
  · rw [o]; rfl
  · rw [o]; rfl
  · rw [o]; rfl
  · rw [o]; rfl
  · exact w
  · rw [o]; rfl
  · rw [o]; rfl

end Sys2Proof.Machine
end

