-- ==== Sys2Proof/Laws/Clocking.lean ====
section
/-! SUPPORT. The alignment boundary (R135), the base target written by the pattern generator (R122), the length of the plant status, the framer's hunt (R181), the first slot without a table (R160), and the requests at DISABLE (R83). -/

namespace Sys2Proof.Machine

theorem statusBody_length (m : State) : m.statusBody.length = 50 := by
    have h1 : ∀ i, (int16 i).length = 2 := fun _ => by simp [int16, halfBytes]
    have h2 : ∀ i, (optInt16 i).length = 2 := fun _ => by simp [optInt16, h1]
    have h4 : ∀ i, (wordBytes i).length = 4 := fun _ => by simp [wordBytes]
    have h3 : ∀ i, (optWord i).length = 4 := fun _ => by simp [optWord, h4]
    have h5 : ∀ i, (int32 i).length = 4 := fun _ => by simp [int32, h4]
    have h7 : ∀ i, (halfBytes i).length = 2 := fun _ => by simp [halfBytes]
    have h6 : ∀ i, (nat16 i).length = 2 := fun _ => by simp [nat16, h7]
    have h8 : ∀ o : Option Nat, ((o.map nat16).getD [0xFF, 0xFF]).length = 2 := fun o => by cases o <;> simp [h6]
    unfold State.statusBody
    rw [List.length_append, List.length_append]
    simp only [List.length_append, h1, h2, h3, h4, h5, h6, h7, h8, List.length_cons, List.length_nil]

theorem huntFrom_quiet (h : Nat) (n : Nat) (bs : List Byte) (hb : startByte ∉ bs) : huntFrom h n bs = { bodies := [], held := none } := by
  induction bs generalizing n with
  | nil => cases n <;> simp [huntFrom]
  | cons b bs ih =>
    cases n with
    | zero => simp [huntFrom]
    | succ n =>
      simp at hb
      simp [huntFrom, Ne.symm hb.1, ih n hb.2]

/-- More restarts than bytes change nothing of a hunt. -/
theorem huntFrom_fuel (h : Nat) (n : Nat) : ∀ (bs : List Byte), bs.length ≤ n → ∀ m, n ≤ m → huntFrom h m bs = huntFrom h n bs := by
  induction n with
  | zero =>
    intro bs hl m _
    have : bs = [] := List.length_eq_zero_iff.mp (by omega)
    subst this
    cases m <;> simp [huntFrom]
  | succ n ih =>
    intro bs hl m hm
    cases m with
    | zero => omega
    | succ m =>
      cases bs with
      | nil => simp [huntFrom]
      | cons b rest =>
        have hl' : rest.length ≤ n := by simpa using hl
        have e1 := ih rest hl' m (by omega)
        unfold huntFrom
        split
        · exact e1
        · split
          · rfl
          · split
            · exact e1
            · split
              · rfl
              · rename_i len tl _ _ body crc after hs
                split
                · have : after.length ≤ n := by
                    unfold splitFrame at hs
                    dsimp only at hs
                    split at hs
                    · cases hs
                    · cases hs
                      rw [List.length_drop]
                      simp only [List.length_cons] at hl' ⊢
                      omega
                  rw [ih after this m (by omega)]
                · exact e1

theorem meetRamp_effect (s : State) : Handed s s.meetRamp := handed_meetRamp s

/-- The alignment boundary (R135), with the switching times that lie at it (R131). -/
theorem align_effect {s : State} {p : Profile} (hp : s.playing = some p) (hm : p.minutes ≤ 60) :
    let t := s.align p
    PlayFrame s t
      ∧ t.prf.playback = { s.prf.playback with
          state := .aligned, last := some s.clock, next := some (later s.clock (60 * p.minutes))
          planHanded := decide (60 * p.minutes ≤ s.params.planAdvance)
          rampHanded := decide (60 * p.minutes ≤ s.params.rampAdvance) }
      ∧ (s.tgt.source ≠ .profile → t.tgt = s.tgt)
      ∧ (s.tgt.source = .profile →
        let plan : Tgt := if 60 * p.minutes ≤ s.params.planAdvance then { s.tgt with plan := p.entries.getD 0 0 } else s.tgt
        t.tgt = if 60 * p.minutes ≤ s.params.rampAdvance then plan.withBase (p.entries.getD 0 0) s.jumps else plan) := by
  intro t
  let b := s.setPlayback { s.prf.playback with
    state := .aligned, last := some s.clock, next := some (later s.clock p.seconds), planHanded := false, rampHanded := false }
  have hd := handed_meetDue b
  have bp : b.playing = some p := hp
  obtain ⟨mp, mt⟩ := meetDue_whole bp hm rfl rfl rfl
  have nx : b.prf.playback.nextEntry p = some 0 := rfl
  rw [nx] at mp mt
  refine ⟨(play_setPlayback s _).trans hd.frame, ?_, fun h => hd.other h, fun h => mt h⟩
  refine mp.trans ?_
  simp only [Option.isSome_some, Bool.and_true]
  rfl

theorem pattern_level_zero (p : Pattern) : p.level 0 = p.low := by
  unfold Pattern.level; cases p.shape <;> simp [stairFactor]

theorem replied_of_manage {s t : State} (h : t.pli = { s.pli with framer := none }) (tag k : Byte) (c : Code) (d : Nat) (b : List Byte) :
    t.manage tag k c d b = t.replied tag 2 k c d b := by
  unfold State.manage State.reply State.sendUp State.replied
  have : ({ t.pli with framer := none } : Pli) = t.pli := by rw [h]
  rw [this]; rfl

theorem stair_eq (k : Nat) : stairFactor k = ([0, 1, 2, 3, 4, 3, 2, 1] : List Int).getD k 0 := by
  match k with
  | 0 | 1 | 2 | 3 | 4 | 5 | 6 | 7 => rfl
  | k + 8 => simp [stairFactor]

theorem lacksTable_find (s : State) (u : Slot) (h : s.lacksTable u = true) (hv : ∀ v, (slotCode v).toNat < (slotCode u).toNat → s.lacksTable v = false) :
   Slot.all.find? s.lacksTable = some u := by
  have h1 := hv .u1; have h2 := hv .u2; have h3 := hv .u3; have h4 := hv .u4
  have h5 := hv .u5; have h6 := hv .u6; have h7 := hv .u7; have h8 := hv .u8
  unfold Slot.all
  cases u <;> simp [slotCode, List.find?] at * <;> simp_all

theorem emit_alc (s : State) (u : Slot) : (s.emitSetpoint u).alc = s.alc := by
  unfold State.emitSetpoint; split
  · rfl
  · split
    · unfold State.sendSetpoint; split
      · rfl
      · dsimp only; unfold State.hand State.beginSending; split <;> rfl
    · rfl

theorem allocate_alc (s : State) : s.allocate.alc = s.allocated := by
  have : ∀ (us : List Slot) (x : State), (us.foldl State.emitSetpoint x).alc = x.alc := by
    intro us; induction us with
    | nil => intro x; rfl
    | cons a us ih => intro x; simp only [List.foldl_cons]; rw [ih, emit_alc]
  unfold State.allocate
  dsimp only
  rw [this]
  unfold State.postAllocFlags
  repeat' split
  all_goals rfl

theorem disable_one (s : State) (u : Slot) :
    CascadeFrame s (s.disableRequest u) ∧ (∀ v, v ≠ u → (s.disableRequest u).req v = s.req v)
      ∧ (s.disableRequest u).req u = (s.req u).bind (fun r =>
            let dest := (r.current.map (fun st => st.kind.dest)).getD r.dest
            if r.state = .ordered ∨ r.state = .inStep
            then some { r with dest := dest, redirected := r.redirected || r.dest != dest } else none) := by
  unfold State.disableRequest
  cases hr : s.req u with
  | none => exact ⟨.refl s, fun _ _ => rfl, by simp [hr]⟩
  | some r =>
    cases hs : r.state <;> simp only [hs]
    · refine ⟨cascade_endRequest s u, fun v hv => endRequest_other hv, ?_⟩
      rw [endRequest_req]; simp [hs]
    · refine ⟨(cascade_withdraw s u).trans (cascade_endRequest _ u), fun v hv => ?_, ?_⟩
      · rw [endRequest_other hv, withdraw_other hv]
      · rw [endRequest_req]; simp [hs]
    · refine ⟨cascade_setReq s u _, fun v hv => by simp [hv], ?_⟩
      simp [hs, Request.redirect, Request.stepDest]
    · refine ⟨cascade_setReq s u _, fun v hv => by simp [hv], ?_⟩
      simp [hs, Request.redirect, Request.stepDest]

theorem disable_fold (us : List Slot) (hn : us.Nodup) (s : State) :
    CascadeFrame s (us.foldl State.disableRequest s)
      ∧ ∀ v, (us.foldl State.disableRequest s).req v = if v ∈ us then (s.req v).bind (fun r =>
            let dest := (r.current.map (fun st => st.kind.dest)).getD r.dest
            if r.state = .ordered ∨ r.state = .inStep
            then some { r with dest := dest, redirected := r.redirected || r.dest != dest } else none) else s.req v := by
  induction us generalizing s with
  | nil => exact ⟨.refl s, by simp⟩
  | cons u us ih =>
    obtain ⟨h1, h2⟩ := List.nodup_cons.mp hn
    obtain ⟨a, b, c⟩ := disable_one s u
    obtain ⟨d, e⟩ := ih h2 (s.disableRequest u)
    refine ⟨a.trans d, fun v => ?_⟩
    simp only [List.foldl_cons]
    rw [e]
    by_cases hv : v = u
    · subst hv; rw [if_neg h1, c, if_pos (by simp)]
    · rw [b v hv]; simp [hv]

theorem setWaterway_self (s : State) (w : Waterway) (r : WaterwayRec) (h : s.waterwayRec w = some r) : s.setWaterway w r = s := by
  unfold State.setWaterway
  unfold State.waterwayRec at h
  cases ht : s.trs.waterways with
  | none => rfl
  | some t =>
    rw [ht] at h
    simp at h
    simp only
    have : t.recs.set w r = t.recs := by
      apply WaterwayMap.ext_get; intro v
      by_cases e : v = w
      · subst e; simp [h]
      · simp [e]
    rw [this]
    unfold State.setTrs
    cases hs : s
    rename_i trs _ _ _ _
    simp only
    subst hs
    cases trs
    simp at ht
    simp [ht]

end Sys2Proof.Machine
end

