-- ==== Sys2Proof/Laws/Stores.lean ====
section
/-! SUPPORT. The stores by index and name: parameters held and written (R170), rows of the shadow buffer (R168, R169), entries of a profile (R125), the directory without one profile (R127), and the first bad entry of a rotation list (R20). -/

namespace Sys2Proof.Machine

theorem held_congr {s t : State} (q : Param) (h : t.params = s.params) (hp : ∀ p, (t.portRec p).ackMode = (s.portRec p).ackMode) : t.held q = s.held q := by
  unfold State.held
  rw [h]
  cases q <;> try rfl
  dsimp only
  rw [hp]

theorem storeNamed_two {v : Int} {n : Nat} (h : storeNamed 2 v = some n) : n = 0 ∨ n = 1 := by
  unfold storeNamed at h
  split at h
  · cases h; omega
  · cases h

theorem writeParam_held (s : State) (q : Param) (v : Int) (n : Nat) (h : q.store v = some n) : (s.writeParam q n).held q = n := by
  cases q <;> try rfl
  · rcases storeNamed_two h with rfl | rfl <;> rfl
  · rcases storeNamed_two h with rfl | rfl <;> rfl
  · rcases storeNamed_two h with rfl | rfl <;> rfl
  · rcases storeNamed_two h with rfl | rfl <;> simp [State.held, State.writeParam]

theorem writeParam_other (s : State) (q r : Param) (n : Nat) (h : r ≠ q) : (s.writeParam q n).held r = s.held r := by
  cases q <;> cases r <;> first
    | rfl
    | exact absurd rfl h
    | skip
  rename_i p p'
  have : p' ≠ p := fun e => h (by rw [e])
  simp [State.held, State.writeParam, this]

theorem clampInt_max_min (lo hi v : Int) (h : lo ≤ hi) : clampInt lo hi v = max lo (min hi v) := by
  unfold clampInt; split <;> [skip; split] <;> omega

theorem resettle_finish {b a before : State} {c : Causes} {hu : Option Nat} (hb : b = State.resettle hu a) (hru : hu = before.headInUse)
   (hunits : ∀ u, (a.unitRec u).core = (before.unitRec u).core) :
   HeadFrame a (b.finish before c) ∧ (b.finish before c).head = a.head ∧
   ∀ u, ((b.finish before c).unitRec u).core = if (b.finish before c).headInUse = before.headInUse then (before.unitRec u).core
     else { (before.unitRec u).core with hold := (before.unitRec u).hold.map (fun h => { h with settled := h.settledAgainst ((b.finish before c).record u) }) } := by
  obtain ⟨f, r⟩ := resettle_effect hu a
  rw [← hb] at f r
  have fin := cascade_finish b before c
  refine ⟨?_, ?_, ?_⟩
  · constructor
    · rw [fin.pending, f.pending]
    · rw [fin.pli, f.pli]
    · rw [fin.tgt, f.tgt]
    · have h1 : b.prf = a.prf := f.prf
      have := fin.playback; have := fin.dir; have := fin.divider; have := fin.pulse
      rw [← h1]
      cases hx : (b.finish before c).prf; cases hy : b.prf
      simp_all
    · rw [fin.plantOut, f.plantOut]
    · rw [fin.table, f.pln]
    · rw [fin.selected, f.pln]
    · rw [fin.proposal, f.pln]
    · rw [fin.gap, f.pln]
    · rw [fin.play.rotation, f.rotation]
    · intro p
      rw [fin.ports p, State.portRec_congr f.ports]
    · refine SameWaterways.trans ?_ fin.waterways
      exact SameWaterways.of_eq (by rw [f.trs])
    · have h2 := fin.posted
      rw [State.clock_congr f.pli] at h2
      exact f.posted.trans h2
  · rw [fin.head, f.head]
  · intro u
    have e1 : (b.finish before c).headInUse = a.headInUse := by rw [fin.play.headInUse, f.headInUse]
    have e2 : (b.finish before c).record u = a.record u := by rw [fin.play.record, f.record]
    rw [e1, e2, ← hru, fin.units.2 u, r u]
    have e3 := hunits u
    have e4 : (a.unitRec u).hold = (before.unitRec u).hold := by have := congrArg UnitRec.hold e3; exact this
    split
    · exact e3
    · rw [← e3, ← e4]; rfl

theorem storeRow_mem (n : Nat) (r : Row) (rows : List (Nat × Row)) (h : rows.Pairwise (fun a b => a.1 < b.1)) :
    (storeRow n r rows).Pairwise (fun a b => a.1 < b.1) ∧ ∀ i q, (i, q) ∈ storeRow n r rows ↔ (i = n ∧ q = r) ∨ (i ≠ n ∧ (i, q) ∈ rows) := by
  induction rows with
  | nil => simp [storeRow]
  | cons x rest ih =>
    obtain ⟨j, y⟩ := x
    obtain ⟨h1, h2⟩ := List.pairwise_cons.mp h
    obtain ⟨i1, i2⟩ := ih h2
    unfold storeRow
    split
    · rename_i hlt
      refine ⟨List.pairwise_cons.mpr ⟨?_, h⟩, ?_⟩
      · intro a ha
        rcases List.mem_cons.mp ha with e | e
        · subst e; exact hlt
        · exact Nat.lt_trans hlt (h1 a e)
      · intro i q
        simp only [List.mem_cons, Prod.mk.injEq]
        constructor
        · rintro (e | e | e)
          · exact .inl e
          · right; obtain ⟨rfl, rfl⟩ := e; exact ⟨by omega, .inl ⟨rfl, rfl⟩⟩
          · right; have := h1 _ e; exact ⟨by simp at this; omega, .inr e⟩
        · rintro (e | ⟨_, e⟩)
          · exact .inl e
          · exact .inr e
    · split
      · rename_i hne heq
        subst heq
        refine ⟨List.pairwise_cons.mpr ⟨h1, h2⟩, ?_⟩
        intro i q
        simp only [List.mem_cons, Prod.mk.injEq]
        constructor
        · rintro (e | e)
          · exact .inl e
          · right; have := h1 _ e; exact ⟨by simp at this; omega, .inr e⟩
        · rintro (e | ⟨hn, e | e⟩)
          · exact .inl e
          · exact absurd e.1 hn
          · exact .inr e
      · rename_i hlt hne
        refine ⟨List.pairwise_cons.mpr ⟨?_, i1⟩, ?_⟩
        · rintro ⟨a, b⟩ ha
          rcases (i2 a b).mp ha with ⟨e, _⟩ | ⟨_, e⟩
          · subst e; show j < a; omega
          · exact h1 _ e
        · intro i q
          simp only [List.mem_cons, Prod.mk.injEq, i2]
          constructor
          · rintro (⟨rfl, rfl⟩ | e | ⟨hn, e⟩)
            · right; exact ⟨by omega, .inl ⟨rfl, rfl⟩⟩
            · exact .inl e
            · exact .inr ⟨hn, .inr e⟩
          · rintro (e | ⟨hn, e | e⟩)
            · exact .inr (.inl e)
            · exact .inl e
            · exact .inr (.inr ⟨hn, e⟩)

theorem find_mapIdx (rs : List Row) (i : Nat) : ((rs.mapIdx Prod.mk).find? (fun x => x.1 == i)).map (·.2) = rs[i]? := by
  induction rs using List.reverseRecOn with
  | nil => simp
  | append_singleton rs r ih =>
    rw [List.mapIdx_concat, List.find?_append]
    by_cases h : i < rs.length
    · have : ((rs.mapIdx Prod.mk).find? (fun x => x.1 == i)).isSome = true := by
        have h2 := congrArg Option.isSome ih
        simpa [h] using h2
      obtain ⟨x, hx⟩ := Option.isSome_iff_exists.mp this
      rw [hx] at ih ⊢
      simp only [Option.some_or]
      rw [ih, List.getElem?_append_left h]
    · have : (rs.mapIdx Prod.mk).find? (fun x => x.1 == i) = none := by
        have h2 := congrArg Option.isSome ih
        simpa [h] using h2
      rw [this]
      simp only [Option.none_or]
      rw [List.getElem?_append_right (by omega)]
      by_cases e : i = rs.length
      · subst e; simp
      · have : i - rs.length ≠ 0 := by omega
        obtain ⟨k, hk⟩ : ∃ k, i - rs.length = k + 1 := ⟨i - rs.length - 1, by omega⟩
        rw [hk]
        simp [Ne.symm e]

theorem load_row_of {l : Load} {rs : List Row} (h : l.rows = rs.mapIdx Prod.mk) (i : Nat) : l.row i = rs[i]? := by
  unfold Load.row; rw [h, find_mapIdx]

theorem load_inOrder_of {l : Load} {rs : List Row} (h : l.rows = rs.mapIdx Prod.mk) : l.inOrder = rs := by
  unfold Load.inOrder; rw [h]
  apply List.ext_getElem?
  intro i
  simp

theorem find_range (f : Nat → Bool) (n i : Nat) (hi : i < n) (hf : f i = true) (hj : ∀ j, j < i → f j = false) : (List.range n).find? f = some i := by
  rw [List.find?_range_eq_some]
  exact ⟨hf, by simpa using hi, fun j hj' => by simp [hj j hj']⟩

theorem find_range_none (f : Nat → Bool) (n : Nat) (hj : ∀ j, j < n → f j = false) : (List.range n).find? f = none := by
  rw [List.find?_eq_none]
  intro x hx; simp at hx; simp [hj x hx]

theorem loadEnd_ok {tag : Byte} {s : State} {l : Load} (h : s.pli.load = some l) (hw : l.pos = .waterway → s.pli.part = .standby)
   (hm : ∀ j, j < l.count → (l.row j).isSome = true) (hp : ∀ j, j < l.count → l.passes j = true) (hb : (l.pos == .waterway && s.waterwayBusy) = false) :
   exec (.loadEnd tag) s = .next ((({ s with pli := { s.pli with load := none, framer := none } } : State).commit l |>.finish s.takePlantFrame (commitCauses l.pos)).sendUp (.reply tag 2 5 .ok 0 [])) := by
  show execLoadEnd _ _ = _; unfold execLoadEnd
  have h2 : s.takePlantFrame.pli.load = some l := h
  have hbar : ¬ s.takePlantFrame.waterwayBarred l.pos = true := by
    unfold State.waterwayBarred State.governs
    show ¬ (l.pos == .waterway && s.pli.part != .standby) = true
    simpa using hw
  simp only [h2]
  rw [if_neg hbar]
  have m1 : l.missing = none := find_range_none _ _ (fun j hj => by
    have := hm j hj
    cases hx : l.row j with
    | none => rw [hx] at this; cases this
    | some _ => rfl)
  have m2 : l.failing = none := find_range_none _ _ (fun j hj => by simp [hp j hj])
  simp only [m1, m2]
  have : ¬ (l.pos == .waterway && s.takePlantFrame.waterwayBusy) = true := by
    have e : s.takePlantFrame.waterwayBusy = s.waterwayBusy := rfl
    rw [e, hb]; simp
  rw [if_neg this]
  rfl

theorem writeAt_get {α : Type} (first : Nat) (vs xs : List α) (h : first + vs.length ≤ xs.length) (j : Nat) :
    (writeAt first vs xs)[j]? = if first ≤ j ∧ j < first + vs.length then vs[j - first]? else xs[j]? := by
  unfold writeAt
  by_cases h1 : j < first
  · rw [if_neg (by omega), List.append_assoc, List.getElem?_append_left (by simp; omega), List.getElem?_take_of_lt h1]
  · by_cases h2 : j < first + vs.length
    · rw [if_pos ⟨by omega, h2⟩, List.append_assoc, List.getElem?_append_right (by simp; omega)]
      simp only [List.length_take]
      have : min first xs.length = first := by omega
      rw [this, List.getElem?_append_left (by omega)]
    · rw [if_neg (by omega), List.getElem?_append_right (by simp; omega)]
      simp only [List.length_append, List.length_take, List.getElem?_drop]
      congr 1; omega

theorem sum_filter (dir : List Profile) (n : List Byte) (p : Profile) (hp : dir.find? (fun q => q.name == n) = some p) (hnd : (dir.map (·.name)).Nodup) :
   ((dir.filter (fun q => decide (q.name ≠ n))).map (fun q => q.entries.length)).sum + p.entries.length = (dir.map (fun q => q.entries.length)).sum := by
  induction dir with
  | nil => simp at hp
  | cons q rest ih =>
    simp only [List.map_cons, List.nodup_cons] at hnd
    by_cases e : q.name = n
    · have hq : p = q := by simp [List.find?_cons, e] at hp; exact hp.symm
      subst hq
      have : rest.filter (fun q => decide (q.name ≠ n)) = rest := by
        rw [List.filter_eq_self]
        intro a ha
        simp only [decide_eq_true_eq]
        intro hh
        exact hnd.1 (by rw [e, ← hh]; exact List.mem_map_of_mem ha)
      rw [List.filter_cons_of_neg (by simp [e]), this]
      simp only [List.map_cons, List.sum_cons]; omega
    · have hr : rest.find? (fun q => q.name == n) = some p := by
        rw [List.find?_cons] at hp
        have : (q.name == n) = false := by simp [e]
        rw [this] at hp; exact hp
      have := ih hr hnd.2
      rw [List.filter_cons_of_pos (by simp [e])]
      simp only [List.map_cons, List.sum_cons]; omega

theorem firstBad_none (i : Nat) (seen : List Slot) (codes : List Byte) (order : List Slot) (h : codes = order.map slotCode) (hn : order.Nodup) (hd : ∀ u ∈ order, u ∉ seen) :
    firstBadEntry i seen codes = none := by
  induction order generalizing i seen codes with
  | nil => subst h; rfl
  | cons u us ih =>
    subst h
    obtain ⟨h1, h2⟩ := List.nodup_cons.mp hn
    have hc : slotOfCode (slotCode u) = some u := by cases u <;> rfl
    simp only [List.map_cons, firstBadEntry, hc]
    have : seen.contains u = false := by
      have := hd u (by simp)
      simpa using this
    rw [this]
    simp only [Bool.false_eq_true, if_false]
    apply ih _ _ _ rfl h2
    intro v hv
    simp only [List.mem_cons, not_or]
    exact ⟨fun e => h1 (e ▸ hv), hd v (by simp [hv])⟩

theorem slotOfCode_inj {a b : Byte} {u : Slot} (h : slotOfCode a = some u) (k : slotOfCode b = some u) : a = b := by
  have key : ∀ c : Byte, slotOfCode c = some u → c = slotCode u := by
    intro c hc
    unfold slotOfCode at hc
    split at hc <;> simp at hc
    all_goals
      subst hc
      rename_i e
      exact BitVec.eq_of_toNat_eq e
  rw [key a h, key b k]

/-- Position n of the rest is bad, the earlier ones good. -/
theorem firstBad_at (n : Nat) (i : Nat) (seen : List Slot) (codes : List Byte)
    (hg : ∀ j < n, ∃ c u, codes[j]? = some c ∧ slotOfCode c = some u ∧ u ∉ seen ∧ ∀ k < j, codes[k]? ≠ some c)
    (hl : n < codes.length)
    (hb : ¬ ∃ c u, codes[n]? = some c ∧ slotOfCode c = some u ∧ u ∉ seen ∧ ∀ k < n, codes[k]? ≠ some c) :
    firstBadEntry i seen codes = some (i + n) := by
  induction n generalizing i seen codes with
  | zero =>
    cases codes with
    | nil => simp at hl
    | cons c rest =>
      simp only [firstBadEntry]
      cases hc : slotOfCode c with
      | none => rfl
      | some u =>
        simp only
        by_cases hm : u ∈ seen
        · simp [hm]
        · exact absurd ⟨c, u, rfl, hc, hm, by simp⟩ hb
  | succ n ih =>
    cases codes with
    | nil => simp at hl
    | cons c rest =>
      obtain ⟨c', u, h1, h2, h3, _⟩ := hg 0 (by omega)
      simp at h1; subst h1
      simp only [firstBadEntry, h2]
      have : seen.contains u = false := by simpa using h3
      rw [this]
      simp only [Bool.false_eq_true, if_false]
      rw [ih (i + 1) (u :: seen) rest ?_ (by simpa using hl) ?_]
      · congr 1; omega
      · intro j hj
        obtain ⟨d, v, e1, e2, e3, e4⟩ := hg (j + 1) (by omega)
        refine ⟨d, v, by simpa using e1, e2, ?_, fun k hk => ?_⟩
        · simp only [List.mem_cons, not_or]
          refine ⟨fun e => ?_, e3⟩
          subst e
          have := slotOfCode_inj h2 e2
          exact e4 0 (by omega) (by simp [this])
        · have := e4 (k + 1) (by omega); simpa using this
      · rintro ⟨d, v, e1, e2, e3, e4⟩
        refine hb ⟨d, v, by simpa using e1, e2, fun e => e3 (by simp [e]), fun k hk => ?_⟩
        cases k with
        | zero =>
          simp
          intro e; subst e
          rw [h2] at e2; cases e2
          exact e3 (by simp)
        | succ k => simpa using e4 k (by omega)

end Sys2Proof.Machine
end

