-- ==== Sys2Proof/Laws/Configuring.lean ====
section
/-! SUPPORT. What the writing of a parameter causes at once (R139, R37): values already due are handed, holds are settled again. -/

namespace Sys2Proof.Machine

/-- A change of the head in use settles every hold again, and what follows leaves the head and the holds (R37, R14). -/
theorem headChange {b a before : State} {c : Causes} {hu : Option Nat} (hb : b = State.resettle hu a) (hru : hu = before.headInUse)
    (hunits : ∀ u, (a.unitRec u).core = (before.unitRec u).core) :
    let t := b.finish before c
    HeadFrame a t ∧ t.head = a.head ∧ ∀ u, (t.unitRec u).core =
      if t.headInUse = before.headInUse then (before.unitRec u).core
      else { (before.unitRec u).core with
        hold := (before.unitRec u).hold.map (fun h => { h with settled := h.settledAgainst (t.record u) }) } := by
  obtain ⟨f, r⟩ := resettle_effect hu a
  rw [← hb] at f r
  have fin := cascade_finish b before c
  refine ⟨?_, ?_, ?_⟩
  · constructor
    · rw [fin.pending, f.pending]
    · rw [fin.pli, f.pli]
    · rw [fin.tgt, f.tgt]
    · have h1 : b.prf = a.prf := f.prf
      have := fin.playback; have := fin.dir; have := fin.divider; have := fin.pulse
      rw [← h1]
      cases hx : (b.finish before c).prf; cases hy : b.prf
      simp_all
    · rw [fin.plantOut, f.plantOut]
    · rw [fin.table, f.pln]
    · rw [fin.selected, f.pln]
    · rw [fin.proposal, f.pln]
    · rw [fin.gap, f.pln]
    · rw [fin.play.rotation, f.rotation]
    · intro p
      rw [fin.ports p, State.portRec_congr f.ports]
    · refine SameWaterways.trans ?_ fin.waterways
      exact SameWaterways.of_eq (by rw [f.trs])
    · have h2 := fin.posted
      rw [State.clock_congr f.pli] at h2
      exact f.posted.trans h2
  · rw [fin.head, f.head]
  · intro u
    have e1 : (b.finish before c).headInUse = a.headInUse := by rw [fin.play.headInUse, f.headInUse]
    have e2 : (b.finish before c).record u = a.record u := by rw [fin.play.record, f.record]
    rw [e1, e2, ← hru, fin.units.2 u, r u]
    have e3 := hunits u
    have e4 : (a.unitRec u).hold = (before.unitRec u).hold := by have := congrArg UnitRec.hold e3; exact this
    split
    · exact e3
    · rw [← e3, ← e4]; rfl

/-- What the handing of values already due writes: each kind once, where its switching time has been reached (R131, R139). -/
theorem meetDue_effect (s : State) :
    let due (advance : Nat) (p : Profile) (k : Nat) : Prop := s.playing = some p
      ∧ s.prf.playback.nextEntry p = some k ∧ ∃ e, s.prf.playback.next = some e
      ∧ reached s.clock (e - BitVec.ofNat 32 (min advance (60 * p.minutes))) = true
    let plan (p : Profile) (k : Nat) := s.prf.playback.planHanded = false ∧ due s.params.planAdvance p k
    let ramp (p : Profile) (k : Nat) := s.prf.playback.rampHanded = false ∧ due s.params.rampAdvance p k
    let t := s.meetDue
    ((∀ p k, ¬ plan p k) → t.prf.playback.planHanded = s.prf.playback.planHanded ∧ t.tgt.plan = s.tgt.plan)
    ∧ ((∀ p k, ¬ ramp p k) → t.prf.playback.rampHanded = s.prf.playback.rampHanded
        ∧ t.tgt.reqBase = s.tgt.reqBase ∧ t.tgt.ramped = s.tgt.ramped)
    ∧ (∀ p k, plan p k → t.prf.playback.planHanded = true
        ∧ t.tgt.plan = if s.tgt.source = .profile then p.entries.getD k 0 else s.tgt.plan)
    ∧ ∀ p k, ramp p k → t.prf.playback.rampHanded = true
        ∧ (s.tgt.source ≠ .profile → t.tgt = s.tgt)
        ∧ (s.tgt.source = .profile →
          let v := clampPlant (p.entries.getD k 0)
          t.tgt.reqBase = v
            ∧ t.tgt.ramped = if s.jumps = true ∧ v ≠ s.tgt.reqBase then v else s.tgt.ramped) := by
  intro due plan ramp t
  have hd := handed_meetPlan s
  have key : ∀ (h : Bool) (adv : Nat) (w : Int), 
      ((match s.playing, s.prf.playback.next with
        | some p, some e => if h || !reached s.clock (switchingTime e adv p.seconds) then none else (s.prf.playback.nextEntry p).map p.value
        | _, _ => none) = some w) ↔ ∃ p k, h = false ∧ due adv p k ∧ w = p.entries.getD k 0 := by
    intro h adv w
    simp only [due]
    cases hp : s.playing with
    | none => simp
    | some p =>
      cases hn : s.prf.playback.next with
      | none => simp
      | some e =>
        simp only [Option.some.injEq]
        constructor
        · intro g
          split at g
          · cases g
          · rename_i hc
            simp only [Bool.or_eq_true, not_or, Bool.not_eq_true, Bool.not_eq_false'] at hc
            rw [Option.map_eq_some_iff] at g
            obtain ⟨k, hk, hv⟩ := g
            exact ⟨p, k, hc.1, ⟨rfl, hk, e, rfl, hc.2⟩, hv.symm⟩
        · rintro ⟨p', k, rfl, ⟨rfl, hk, e', rfl, hr⟩, rfl⟩
          rw [if_neg (by simp only [Bool.false_or]; unfold switchingTime Profile.seconds; rw [hr]; decide), hk]
          rfl
  have kp : ∀ w, s.duePlan = some w ↔ ∃ p k, plan p k ∧ w = p.entries.getD k 0 := by
    intro w
    have := key s.prf.playback.planHanded s.params.planAdvance w
    refine Iff.trans this ?_
    simp only [plan, and_assoc]
  have kr : ∀ w, s.dueRamp = some w ↔ ∃ p k, ramp p k ∧ w = p.entries.getD k 0 := by
    intro w
    have := key s.prf.playback.rampHanded s.params.rampAdvance w
    refine Iff.trans this ?_
    simp only [ramp, and_assoc]
  have mp : s.meetPlan.prf.playback.rampHanded = s.prf.playback.rampHanded ∧ s.meetPlan.tgt.reqBase = s.tgt.reqBase
      ∧ s.meetPlan.tgt.ramped = s.tgt.ramped := by
    unfold State.meetPlan
    split
    · obtain ⟨_, g, r⟩ := handPlan_effect s (by assumption)
      rw [g, r]; refine ⟨rfl, ?_, ?_⟩ <;> split <;> rfl
    · exact ⟨rfl, rfl, rfl⟩
  have dr : s.meetPlan.dueRamp = s.dueRamp := by
    unfold State.dueRamp
    rw [hd.playing, hd.frame.clock, hd.frame.params, mp.1, hd.playback]
    rfl
  have rp : t.prf.playback.planHanded = s.meetPlan.prf.playback.planHanded ∧ t.tgt.plan = s.meetPlan.tgt.plan := by
    show (s.meetPlan.meetRamp).prf.playback.planHanded = _ ∧ _
    simp only [t, State.meetDue]
    unfold State.meetRamp
    split
    · obtain ⟨_, g, r⟩ := handRamp_effect s.meetPlan (by assumption)
      rw [g, r]
      refine ⟨rfl, ?_⟩
      split
      · exact if_pos ‹_›
      · rfl
    · exact ⟨rfl, rfl⟩
  refine ⟨?_, ?_, ?_, ?_⟩
  · intro h
    have : s.duePlan = none := by
      rw [Option.eq_none_iff_forall_ne_some]
      intro w hw
      obtain ⟨p, k, g, _⟩ := (kp w).mp hw
      exact h p k g
    rw [rp.1, rp.2]
    unfold State.meetPlan; rw [this]; exact ⟨rfl, rfl⟩
  · intro h
    have : s.dueRamp = none := by
      rw [Option.eq_none_iff_forall_ne_some]
      intro w hw
      obtain ⟨p, k, g, _⟩ := (kr w).mp hw
      exact h p k g
    have e : t = s.meetPlan := by
      show s.meetPlan.meetRamp = _
      unfold State.meetRamp; rw [dr, this]
    rw [e]; exact mp
  · intro p k h
    rw [rp.1, rp.2]
    have := (kp _).mpr ⟨p, k, h, rfl⟩
    unfold State.meetPlan; rw [this]
    obtain ⟨_, g, r⟩ := handPlan_effect s (p.entries.getD k 0)
    dsimp only
    rw [g, r]
    refine ⟨rfl, ?_⟩
    split <;> rfl
  · intro p k h
    have hw := (kr _).mpr ⟨p, k, h, rfl⟩
    have e : t = s.meetPlan.handRamp (p.entries.getD k 0) := by
      show s.meetPlan.meetRamp = _
      unfold State.meetRamp; rw [dr, hw]
    have srce : s.meetPlan.tgt.source = s.tgt.source := hd.source
    rw [e]
    refine ⟨by rw [(handRamp_effect _ _).2.1], ?_, ?_⟩
    · intro hs
      rw [(handRamp_effect _ _).2.2, srce, if_neg hs]
      exact hd.other hs
    · intro hs v
      rw [(handRamp_effect _ _).2.2, if_pos (srce.trans hs), hd.jumps]
      refine ⟨rfl, ?_⟩
      show (if s.jumps = true ∧ v ≠ s.meetPlan.tgt.reqBase then v else s.meetPlan.tgt.ramped) = _
      rw [mp.2.1, mp.2.2]

end Sys2Proof.Machine
end

