-- ==== Sys2Proof/Laws/Emergency.lean ====
section
/-! SUPPORT. A released slot (R15, R63) and an emergency stop (R16, R82), for one slot and for all. -/

namespace Sys2Proof.Machine

/-- `Auto`: no hold and every request AUTOMATIC. -/
def Auto (u : Slot) (x : State) : Prop := (x.unitRec u).hold = none ∧ ∀ r, x.req u = some r → r.cls = .automatic

theorem Auto.takeDemand {u v : Slot} {x : State} (h : Auto u x) : Auto u (x.takeDemand v) := by
  refine ⟨by rw [(cascade_takeDemand x v).play.unit_hold]; exact h.1, fun r hr => ?_⟩
  by_cases e : u = v
  · subst e
    cases hd : x.demand u with
    | none =>
      obtain ⟨q, h1, h2⟩ := takeDemand_none hd hr
      rw [h2]; exact h.2 q h1
    | some dc =>
      obtain ⟨d, c⟩ := dc
      have hc : c = .automatic := by
        unfold State.demand at hd
        rw [h.1] at hd
        dsimp only at hd
        split at hd
        · cases hdes : x.pln.desired.get u with
          | none => rw [hdes] at hd; cases hd
          | some z => rw [hdes] at hd; simp at hd; exact hd.2.symm
        · cases hd
      rw [(takeDemand_key hd hr).1, hc]
  · rw [takeDemand_other e] at hr; exact h.2 r hr

theorem Auto.handDesired {u v : Slot} {old : SlotMap (Option Stable)} {x : State} (h : Auto u x) :
    Auto u (State.handDesired old x v) := by
  unfold State.handDesired
  split
  · exact h
  · exact h.takeDemand

theorem Auto.dropGrant {u v : Slot} {b x : State} (h : Auto u x) : Auto u (State.dropGrant b x v) := by
  refine ⟨by rw [(cascade_dropGrant b x v).play.unit_hold]; exact h.1, fun r hr => ?_⟩
  by_cases e : u = v
  · subst e
    unfold State.dropGrant at hr
    split at hr
    · rw [withdraw_req] at hr
      cases hq : x.req u with
      | none => rw [hq] at hr; cases hr
      | some q => rw [hq] at hr; cases hr; exact h.2 q hq
    · exact h.2 r hr
  · rw [dropGrant_other e] at hr; exact h.2 r hr

theorem Auto.foldl {u : Slot} {f : State → Slot → State} (hf : ∀ x v, Auto u x → Auto u (f x v)) (vs : List Slot) {x : State} (h : Auto u x) : Auto u (vs.foldl f x) := by
  induction vs generalizing x with
  | nil => exact h
  | cons v vs ih => exact ih (hf x v h)

theorem Auto.same {u : Slot} {x y : State} (h : Auto u x) (h1 : y.ros = x.ros) (h2 : y.trs.requests = x.trs.requests) : Auto u y := by
  refine ⟨by rw [State.unitRec_congr h1]; exact h.1, fun r hr => h.2 r (by rw [← req_of_requests h2]; exact hr)⟩

theorem Auto.planStage {u : Slot} {x b : State} {c : Causes} (h : Auto u x) : Auto u (x.planStage b c) := by
  unfold State.planStage
  refine Auto.foldl (fun x v h => h.takeDemand) _ ?_
  have h1 : Auto u (Slot.all.foldl (State.dropGrant b) x) := Auto.foldl (fun x v h => h.dropGrant) _ h
  split
  · unfold State.replan
    split
    · exact h1
    · split
      · unfold State.assign
        split
        · exact h1
        · rename_i row _
          refine Auto.foldl (fun x v h => h.handDesired) _ ?_
          refine h1.same ?_ ?_
          · unfold State.notePlanShort; dsimp only; split <;> rfl
          · unfold State.notePlanShort; dsimp only; split <;> rfl
      · refine Auto.foldl (fun x v h => ?_) _ h1
        unfold State.dropDesired
        split
        · have h2 : Auto u (x.setPln { x.pln with desired := x.pln.desired.set v none }) := h.same rfl rfl
          exact h2.takeDemand
        · exact h
  · exact h1

/-- what an emergency event does to the state it starts from -/
theorem emergencyStop_effect (s : State) (u : Slot) :
    let h0 := ((s.unitRec u).hold.filter (·.emergency)).getD Hold.emergencyStop
    let sends := s.portState u == .qualified && (s.reported u).any Reported.running
    ∃ h, h = { h0 with stopOutstanding := h.stopOutstanding } ∧ (sends = true → h.stopOutstanding = true) ∧ (sends = false → h = h0)
      ∧ CascadeFrame (s.setUnit u { s.unitRec u with hold := some h }) (s.emergencyStop u)
      ∧ (s.emergencyStop u).req u = none
      ∧ (∀ v, v ≠ u → (s.emergencyStop u).req v = s.req v)
      ∧ (sends = true → ∀ p, (s.unitRec u).port = some p → ∃ tag, ((s.emergencyStop u).portRec p).outstanding = some { tag := tag, kind := .stop, purpose := .emergency }) := by
  intro h0 sends
  have hset : ∀ x : Option Hold, s.setHold u x = s.setUnit u { s.unitRec u with hold := x } := fun _ => rfl
  let a := (s.setHold u (some h0)).cancelRequest u
  have fa : CascadeFrame (s.setHold u (some h0)) a := cascade_cancelRequest _ _
  have ra : a.req u = none := cancelRequest_req _ _
  have rv : ∀ v, v ≠ u → a.req v = s.req v := fun v hv => by
    rw [cancelRequest_other hv]; rfl
  have hs : s.emergencyStop u = if (a.portState u == .qualified && (a.reported u).any Reported.running) then a.sendEmergencyStop u h0 else a := rfl
  have e1 : (a.portState u == .qualified && (a.reported u).any Reported.running) = sends := by
    have p1 := fa.play.portState u
    have p2 := fa.play.reported u
    have q1 : (s.setHold u (some h0)).portState u = s.portState u := by
      unfold State.portState State.slotPort State.setHold; simp
      rfl
    have q2 : (s.setHold u (some h0)).reported u = s.reported u := by
      unfold State.reported State.setHold; simp
    rw [p1, p2, q1, q2]
  rw [hs, e1]
  cases hsend : sends with
  | false =>
    refine ⟨h0, rfl, by simp, by simp, ?_, ra, rv, by simp⟩
    simp only [Bool.false_eq_true, if_false]
    exact fa
  | true =>
    refine ⟨{ h0 with stopOutstanding := true }, rfl, by simp, by simp, ?_⟩
    simp only [if_true]
    have hport : ∃ p, (s.unitRec u).port = some p := by
      have : s.portState u = .qualified := by simp [sends] at hsend; exact hsend.1
      unfold State.portState State.slotPort at this
      cases hp : (s.unitRec u).port with
      | none => simp [hp] at this
      | some p => exact ⟨p, rfl⟩
    obtain ⟨p, hp⟩ := hport
    have hpa : (a.unitRec u).port = some p := by
      rw [fa.play.unit_port]; unfold State.setHold; simp [hp]
    have hse : a.sendEmergencyStop u h0 = (a.sendOrder p .stop none .emergency).setHold u (some { h0 with stopOutstanding := true }) := by
      unfold State.sendEmergencyStop; rw [hpa]
    rw [hse]
    refine ⟨?_, ?_, ?_, ?_⟩
    · have f2 := (fa.trans (cascade_sendOrder a p .stop none .emergency)).setHold u (some { h0 with stopOutstanding := true })
      have : (s.setHold u (some h0)).setHold u (some { h0 with stopOutstanding := true }) = s.setUnit u { s.unitRec u with hold := some { h0 with stopOutstanding := true } } := by
        unfold State.setHold
        simp [State.setUnit, State.setRos, SlotMap.set_set, State.unitRec]
      rw [this] at f2
      exact f2
    · show State.req (a.sendOrder p .stop none .emergency) u = none
      rw [req_of_requests (s := a) (by rw [sendOrder_trs])]; exact ra
    · intro v hv
      show State.req (a.sendOrder p .stop none .emergency) v = _
      rw [req_of_requests (s := a) (by rw [sendOrder_trs])]; exact rv v hv
    · intro _ q hq
      rw [hp] at hq; cases hq
      refine ⟨(a.portRec p).tagCounter, ?_⟩
      show (State.portRec (a.sendOrder p .stop none .emergency) p).outstanding = _
      rw [sendOrder_outstanding]; simp

/-- all but holds, requests and so on -/
structure HoldsFrame (m t : State) : Prop where
  hf : HeadFrame m t
  head : t.head = m.head
  core : ∀ u, { (t.unitRec u).core with hold := none } = { (m.unitRec u).core with hold := none }

theorem HoldsFrame.refl (m : State) : HoldsFrame m m := ⟨⟨rfl, rfl, rfl, rfl, rfl, rfl, rfl, rfl, rfl, rfl, .refl m, .of_eq rfl, .refl⟩, rfl, fun _ => rfl⟩

theorem HoldsFrame.trans {a b c : State} (h : HoldsFrame a b) (k : HoldsFrame b c) : HoldsFrame a c :=
  ⟨⟨k.hf.pending.trans h.hf.pending, k.hf.pli.trans h.hf.pli, k.hf.tgt.trans h.hf.tgt, k.hf.prf.trans h.hf.prf, k.hf.plantOut.trans h.hf.plantOut, k.hf.table.trans h.hf.table, k.hf.selected.trans h.hf.selected, k.hf.proposal.trans h.hf.proposal, k.hf.gap.trans h.hf.gap, k.hf.rotation.trans h.hf.rotation, h.hf.ports.trans k.hf.ports, h.hf.waterways.trans k.hf.waterways, h.hf.posted.trans (State.clock_congr h.hf.pli ▸ k.hf.posted)⟩, k.head.trans h.head, fun u => (k.core u).trans (h.core u)⟩

theorem HoldsFrame.of_cascade {a b : State} (h : CascadeFrame a b) : HoldsFrame a b := by
  refine ⟨⟨h.pending, h.pli, h.tgt, ?_, h.plantOut, h.table, h.selected, h.proposal, h.gap, h.units.1, h.ports, h.waterways, h.posted⟩, h.head, fun u => ?_⟩
  · have := h.playback; have := h.dir; have := h.divider; have := h.pulse
    cases hx : b.prf; cases hy : a.prf
    simp_all
  · rw [h.units.2 u]

theorem HoldsFrame.of_setHold (a : State) (u : Slot) (x : Option Hold) : HoldsFrame a (a.setUnit u { a.unitRec u with hold := x }) := by
  refine ⟨⟨rfl, rfl, rfl, rfl, rfl, rfl, rfl, rfl, rfl, rfl, .of_eq rfl, .of_eq rfl, .refl⟩, rfl, fun v => ?_⟩
  by_cases e : v = u
  · subst e; simp [UnitRec.core]
  · simp [e]

theorem emergencyEvent_effect (before s : State) (u : Slot) :
    let t := State.emergencyEvent before s u
    HoldsFrame s t ∧ t.stopped u ∧ (∀ v, s.stopped v → t.stopped v)
      ∧ (∀ v, v ≠ u → (t.unitRec v).hold = (s.unitRec v).hold)
      ∧ ((s.unitRec u).hold.any (·.emergency) = false → ∃ h, (t.unitRec u).hold = some h ∧ h.mode = .ss ∧ h.requested = none ∧ h.settled = none) := by
  intro t
  obtain ⟨h, h1, h2, h3, f, r1, r2, _⟩ := emergencyStop_effect s u
  have ht : ∃ c, t = (s.emergencyStop u).finish before c := ⟨_, rfl⟩
  obtain ⟨c, hc⟩ := ht
  have rf := reach_finish (s.emergencyStop u) before c
  rw [← hc] at rf
  have fr := rf.frame
  have hem : h.emergency = true := by
    rw [h1]; dsimp only
    cases hx : (s.unitRec u).hold with
    | none => rfl
    | some x => cases hxe : x.emergency <;> simp [Hold.emergencyStop, Option.filter, hxe]
  have hold : ((s.emergencyStop u).unitRec u).hold = some h := by rw [f.play.unit_hold]; simp
  have st : (s.emergencyStop u).stopped u := ⟨by rw [hold]; simp [hem], r1⟩
  refine ⟨?_, rf.stopped st, fun v hv => ?_, fun v hv => ?_, fun hn => ?_⟩
  · exact ((HoldsFrame.of_setHold s u _).trans (.of_cascade f)).trans (.of_cascade fr)
  · by_cases e : v = u
    · subst e; exact rf.stopped st
    · refine rf.stopped ⟨?_, ?_⟩
      · rw [f.play.unit_hold]; simp [e]; simpa using hv.1
      · rw [r2 v e]; exact hv.2
  · rw [fr.play.unit_hold, f.play.unit_hold]; simp [hv]
  · refine ⟨h, by rw [fr.play.unit_hold]; exact hold, ?_⟩
    rw [h1]
    cases hx : (s.unitRec u).hold with
    | none => exact ⟨rfl, rfl, rfl⟩
    | some x =>
      have : x.emergency = false := by simpa [hx] using hn
      simp [Hold.emergencyStop, Option.filter, this]

theorem emergencyFold (us : List Slot) (hn : us.Nodup) (s : State) (f : State → Slot → State) (hf : ∀ x v, ∃ b, f x v = State.emergencyEvent b x v) :
    let t := us.foldl f s
    HoldsFrame s t ∧ (∀ v, (v ∈ us ∨ s.stopped v) → t.stopped v)
      ∧ (∀ v, v ∉ us → (t.unitRec v).hold = (s.unitRec v).hold)
      ∧ (∀ v, v ∈ us → (s.unitRec v).hold.any (·.emergency) = false → ∃ h, (t.unitRec v).hold = some h ∧ h.mode = .ss ∧ h.requested = none ∧ h.settled = none) := by
  induction us generalizing s with
  | nil => exact ⟨.refl s, by simp, by simp, by simp⟩
  | cons u us ih =>
    obtain ⟨n1, n2⟩ := List.nodup_cons.mp hn
    obtain ⟨b, hb⟩ := hf s u
    obtain ⟨g1, g2, g3, g4, g5⟩ := emergencyEvent_effect b s u
    rw [← hb] at g1 g2 g3 g4 g5
    obtain ⟨i1, i2, i3, i4⟩ := ih n2 (f s u)
    refine ⟨g1.trans i1, fun v hv => ?_, fun v hv => ?_, fun v hv he => ?_⟩
    · simp only [List.foldl_cons]
      refine i2 v ?_
      simp only [List.mem_cons] at hv
      rcases hv with (e | e) | e
      · subst e; exact .inr g2
      · exact .inl e
      · exact .inr (g3 v e)
    · simp only [List.mem_cons, not_or] at hv
      simp only [List.foldl_cons]
      rw [i3 v hv.2, g4 v hv.1]
    · simp only [List.foldl_cons]
      simp only [List.mem_cons] at hv
      by_cases e : v = u
      · subst e
        rw [i3 v n1]
        exact g5 he
      · refine i4 v (hv.resolve_left e) ?_
        rw [g4 v e]; exact he

end Sys2Proof.Machine
end

