-- ==== Sys2Proof/Laws/Emitting.lean ====
section
/-! SUPPORT. Frames handed to ports, and the emission of one setpoint (R103, R105, R141). -/

namespace Sys2Proof.Machine

/-- Reading a port just written. -/
theorem portMap_get_self {α : Type} (m : PortMap α) (i : Port) (x : α) : (m.set i x).get i = x := by simp

/-- Reading another port than the one written. -/
theorem portMap_get_ne {α : Type} (m : PortMap α) {i j : Port} (x : α) (h : j ≠ i) : (m.set i x).get j = m.get j := by simp [h]

/-- Reading a slot just written. -/
theorem slotMap_get_self {α : Type} (m : SlotMap α) (i : Slot) (x : α) : (m.set i x).get i = x := by simp

/-- Reading another slot than the one written. -/
theorem slotMap_get_ne {α : Type} (m : SlotMap α) {i j : Slot} (x : α) (h : j ≠ i) : (m.set i x).get j = m.get j := by simp [h]

/-- A frame handed waits in the queue. -/
theorem mem_enqueue (f : UnitFrame) (l : List UnitFrame) : f ∈ enqueue f l := by
  induction l with
  | nil => simp [enqueue]
  | cons g l ih => unfold enqueue; split <;> simp [ih]

/-- A frame handed is sent or waits (R141). -/
theorem hand_self (s : State) (p : Port) (f : UnitFrame) :
    ((s.hand p f).portRec p).sending = some f ∨ f ∈ ((s.hand p f).portRec p).queue := by
  unfold State.hand
  split
  · left; unfold State.beginSending State.portRec State.setPort; dsimp only; rw [portMap_get_self]
  · right; unfold State.portRec State.setPort; dsimp only; rw [portMap_get_self]; exact mem_enqueue _ _

/-- A frame handed leaves every other port. -/
theorem hand_other (s : State) (p q : Port) (f : UnitFrame) (h : q ≠ p) : (s.hand p f).portRec q = s.portRec q := by
  unfold State.hand
  split
  · unfold State.beginSending State.portRec State.setPort; dsimp only; rw [portMap_get_ne _ _ h]
  · unfold State.portRec State.setPort; dsimp only; rw [portMap_get_ne _ _ h]

/-- The slot is sent its value of the allocation (R103). -/
def EmitsTo (a : Allocation) (x : State) (u : Slot) : Prop :=
  ((a.shares.get u).line = .regulating ∨ (a.shares.get u).line = .genHeld)
    ∧ emits (x.limits u) x.params.deadband ((x.unitRec u).lastSetpoint.map (·.value)) (a.shares.get u).value = true

/-- SameButSent allocation, head, configuration and map. -/
structure SameButSent (x y : State) : Prop where
  alc : y.alc = x.alc
  head : y.head = x.head
  pli : y.pli = x.pli
  ports : ∀ u, (y.unitRec u).port = (x.unitRec u).port

/-- An emission keeps what other emissions read. -/
theorem emitSetpoint_same (x : State) (v : Slot) : SameButSent x (x.emitSetpoint v) := by
  unfold State.emitSetpoint
  split
  · exact ⟨rfl, rfl, rfl, fun _ => rfl⟩
  · split
    · unfold State.sendSetpoint
      split
      · exact ⟨rfl, rfl, rfl, fun _ => rfl⟩
      · refine ⟨by simp, by simp, by simp, fun u => ?_⟩
        unfold State.unitRec
        rw [State.hand_ros]
        unfold State.setUnit State.setRos
        dsimp only
        by_cases h : u = v
        · subst h; rw [slotMap_get_self]
        · rw [slotMap_get_ne _ _ h]
    · exact ⟨rfl, rfl, rfl, fun _ => rfl⟩

/-- An emission leaves every other slot and its port. -/
theorem emitSetpoint_other (x : State) (hm : ∀ u v, (x.unitRec u).port.isSome = true → (x.unitRec u).port = (x.unitRec v).port → u = v)
    (u v : Slot) (p : Port) (hp : (x.unitRec u).port = some p) (hne : u ≠ v) :
    (x.emitSetpoint v).unitRec u = x.unitRec u ∧ (x.emitSetpoint v).portRec p = x.portRec p := by
  unfold State.emitSetpoint
  split
  · exact ⟨rfl, rfl⟩
  · split
    · unfold State.sendSetpoint
      split
      · exact ⟨rfl, rfl⟩
      · rename_i q hq
        have hpq : p ≠ q := by
          rintro rfl
          exact hne (hm u v (by rw [hp]; rfl) (by rw [hp, hq]))
        constructor
        · unfold State.unitRec
          rw [State.hand_ros]
          unfold State.setUnit State.setRos
          dsimp only
          rw [slotMap_get_ne _ _ hne]
        · rw [hand_other _ _ _ _ hpq]; rfl
    · exact ⟨rfl, rfl⟩

/-- What an emission does to its own slot and port (R103, R105). -/
theorem emitSetpoint_self (x : State) (a : Allocation) (ha : x.alc.last = some a) (u : Slot) (p : Port) (hp : (x.unitRec u).port = some p) :
    (EmitsTo a x u → ((x.emitSetpoint u).unitRec u).lastSetpoint = some { value := (a.shares.get u).value, time := x.clock }
        ∧ (((x.emitSetpoint u).portRec p).sending = some (.setpoint (a.shares.get u).value)
              ∨ .setpoint (a.shares.get u).value ∈ ((x.emitSetpoint u).portRec p).queue))
    ∧ (¬ EmitsTo a x u → x.emitSetpoint u = x) := by
  unfold State.emitSetpoint
  rw [ha]
  dsimp only [Option.map_some]
  constructor
  · intro hc
    unfold EmitsTo at hc
    rw [if_pos hc]
    unfold State.sendSetpoint
    rw [hp]
    dsimp only
    refine ⟨?_, hand_self _ _ _⟩
    unfold State.unitRec
    rw [State.hand_ros]
    unfold State.setUnit State.setRos
    dsimp only
    rw [slotMap_get_self]
  · intro hc
    unfold EmitsTo at hc
    rw [if_neg hc]

end Sys2Proof.Machine
end

