-- ==== Sys2Proof/Laws/Filling.lean ====
section
/-! SUPPORT. The filling of one demand (R53 to R56): it only grows, it gives modes to automatic slots alone, it leaves no fitting slot over while it is short, and it takes the slots already in the mode first. -/

namespace Sys2Proof.Machine

/-- `b` comes from `a` by giving `mode` to more slots. -/
structure Grew (s : State) (mode : Stable) (a b : Filling) : Prop where
  keep : ∀ u m, a.got.get u = some m → b.got.get u = some m
  new : ∀ u m, b.got.get u = some m → a.got.get u = some m ∨ (a.got.get u = none ∧ m = mode ∧ s.automatic u = true ∧ (s.currentMode u).isSome = true)
  left : b.left ≤ a.left
  count : (Slot.all.filter (fun u => b.got.get u == some mode)).length + b.left = (Slot.all.filter (fun u => a.got.get u == some mode)).length + a.left

theorem Grew.refl (s : State) (mode : Stable) (a : Filling) : Grew s mode a a := ⟨fun _ _ h => h, fun _ _ h => .inl h, Nat.le_refl _, rfl⟩

theorem Grew.trans {s : State} {mode : Stable} {a b c : Filling} (h : Grew s mode a b) (k : Grew s mode b c) : Grew s mode a c where
  keep := fun u m e => k.keep u m (h.keep u m e)
  new := by
    intro u m e
    rcases k.new u m e with e | ⟨e1, e2, e3⟩
    · exact h.new u m e
    · right
      refine ⟨?_, e2, e3⟩
      cases hh : a.got.get u with
      | none => rfl
      | some x => rw [h.keep u x hh] at e1; cases e1
  left := Nat.le_trans k.left h.left
  count := k.count.trans h.count

theorem count_set (got : SlotMap (Option Stable)) (u : Slot) (mode : Stable) (h : got.get u = none) :
    (Slot.all.filter (fun v => (got.set u (some mode)).get v == some mode)).length = (Slot.all.filter (fun v => got.get v == some mode)).length + 1 := by
  have key : ∀ us : List Slot, us.Nodup → (us.filter (fun v => (got.set u (some mode)).get v == some mode)).length
      = (us.filter (fun v => got.get v == some mode)).length + if u ∈ us then 1 else 0 := by
    intro us hn
    induction us with
    | nil => rfl
    | cons v us ih =>
      obtain ⟨h1, h2⟩ := List.nodup_cons.mp hn
      have ih := ih h2
      by_cases e : v = u
      · subst e
        rw [if_neg h1] at ih
        have a1 : ((got.set v (some mode)).get v == some mode) = true := by simp
        have a2 : (got.get v == some mode) = false := by simp [h]
        rw [List.filter_cons, List.filter_cons, a1, a2]
        simp only [if_true, List.length_cons, Bool.false_eq_true, if_false, List.mem_cons, true_or]
        omega
      · have e' : ¬ u = v := fun x => e x.symm
        simp only [List.filter_cons, List.mem_cons, e', false_or]
        have : (got.set u (some mode)).get v = got.get v := by simp [e]
        rw [this]
        split
        · simp only [List.length_cons, ih]; omega
        · exact ih
  rw [key Slot.all (by decide), if_pos (by cases u <;> decide)]

theorem grew_takeSlot (s : State) (mode cur : Stable) (a : Filling) (u : Slot) : Grew s mode a (s.takeSlot mode cur a u) := by
  unfold State.takeSlot
  split
  · rename_i h
    unfold State.takes at h
    simp only [Bool.and_eq_true, decide_eq_true_eq, Option.isNone_iff_eq_none, beq_iff_eq] at h
    obtain ⟨⟨⟨⟨⟨h1, h2⟩, h3⟩, h4⟩, h5⟩, h6⟩ := h
    refine ⟨?_, ?_, ?_, ?_⟩
    · intro v m e
      by_cases hv : v = u
      · subst hv; rw [h3] at e; cases e
      · simpa [hv] using e
    · intro v m e
      by_cases hv : v = u
      · subst hv
        simp at e
        right; exact ⟨h3, e.symm, h2, by rw [h4]; rfl⟩
      · left; simpa [hv] using e
    · show a.left - 1 ≤ a.left; omega
    · show _ + (a.left - 1) = _
      rw [count_set _ _ _ h3]; omega
  · exact .refl _ _ _

theorem grew_fold {α : Type} (s : State) (mode : Stable) (f : Filling → α → Filling) (hf : ∀ a x, Grew s mode a (f a x)) (xs : List α) (a : Filling) :
    Grew s mode a (xs.foldl f a) := by
  induction xs generalizing a with
  | nil => exact .refl _ _ _
  | cons x xs ih => exact (hf a x).trans (ih _)

theorem grew_stage (s : State) (mode cur : Stable) (a : Filling) : Grew s mode a (s.fillStage mode a cur) :=
  grew_fold s mode _ (grew_takeSlot s mode cur) _ a

theorem grew_fill (s : State) (mode : Stable) (curs : List Stable) (a : Filling) : Grew s mode a (curs.foldl (s.fillStage mode) a) :=
  grew_fold s mode _ (fun a c => grew_stage s mode c a) _ a

/-- More slots given a mode can only turn the mixing check off. -/
theorem mixing_mono {s : State} {g h : SlotMap (Option Stable)} (hk : ∀ u m, g.get u = some m → h.get u = some m) (mode : Stable) (u : Slot)
    (hm : s.mixingOk h mode u = true) : s.mixingOk g mode u = true := by
  unfold State.mixingOk at hm ⊢
  split
  · rfl
  · rename_i opp ho
    rw [ho] at hm
    simp only [Bool.not_eq_true', Bool.and_eq_false_iff] at hm ⊢
    rcases hm with hm | hm
    · exact .inl hm
    · right
      unfold State.opposed at hm ⊢
      rw [List.any_eq_false] at hm ⊢
      intro v hv
      have := hm v hv
      simp only [Bool.and_eq_true, bne_iff_ne, ne_eq, Bool.or_eq_true, beq_iff_eq, not_and, not_or] at this ⊢
      intro ⟨a, b⟩
      obtain ⟨c, d⟩ := this ⟨a, b⟩
      exact ⟨fun e => c (hk v opp e), d⟩

/-- What is left free after a stage, the count not met, is of another mode or fails a check. -/
theorem stage_complete (s : State) (mode cur : Stable) (us : List Slot) (a : Filling) (u : Slot) (hu : u ∈ us)
    (hl : (us.foldl (s.takeSlot mode cur) a).left ≠ 0) (ha : s.automatic u = true)
    (hn : (us.foldl (s.takeSlot mode cur) a).got.get u = none) (hc : s.currentMode u = some cur) (ho : s.converterOk cur mode = true) :
    s.mixingOk (us.foldl (s.takeSlot mode cur) a).got mode u = false := by
  induction us generalizing a with
  | nil => simp at hu
  | cons v us ih =>
    simp only [List.foldl_cons] at hl hn ⊢
    by_cases e : u = v
    · subst e
      have g := grew_fold s mode _ (grew_takeSlot s mode cur) us (s.takeSlot mode cur a u)
      have gt := grew_takeSlot s mode cur a u
      cases hm : s.mixingOk (us.foldl (s.takeSlot mode cur) (s.takeSlot mode cur a u)).got mode u with
      | false => rfl
      | true =>
        exfalso
        have h1 : s.mixingOk a.got mode u = true := mixing_mono (fun w m h => g.keep w m (gt.keep w m h)) mode u hm
        have h2 : a.got.get u = none := by
          cases hh : a.got.get u with
          | none => rfl
          | some x => rw [g.keep u x (gt.keep u x hh)] at hn; cases hn
        have h3 : a.left ≠ 0 := by
          have := g.left; have := gt.left; omega
        have ht : s.takes mode cur a u = true := by
          unfold State.takes; simp [h3, ha, h2, hc, ho, h1]
        have h4 : (s.takeSlot mode cur a u).got.get u = some mode := by
          unfold State.takeSlot; rw [if_pos ht]; simp
        rw [g.keep u mode h4] at hn; cases hn
    · have : u ∈ us := by simpa [e] using hu
      exact ih _ this hl hn

/-- As `stage_complete`, of the whole filling of a demand. -/
theorem fill_complete (s : State) (mode : Stable) (hr : ∀ u, u ∈ s.ros.rotation) (curs : List Stable) (a : Filling) (u : Slot) (cur : Stable) (hcur : cur ∈ curs)
    (hl : (curs.foldl (s.fillStage mode) a).left ≠ 0) (ha : s.automatic u = true)
    (hn : (curs.foldl (s.fillStage mode) a).got.get u = none) (hc : s.currentMode u = some cur) (ho : s.converterOk cur mode = true) :
    s.mixingOk (curs.foldl (s.fillStage mode) a).got mode u = false := by
  induction curs generalizing a with
  | nil => simp at hcur
  | cons c cs ih =>
    simp only [List.foldl_cons] at hl hn ⊢
    by_cases e : cur = c
    · subst e
      have g := grew_fill s mode cs (s.fillStage mode a cur)
      have h1 : (s.fillStage mode a cur).left ≠ 0 := by have := g.left; omega
      have h2 : (s.fillStage mode a cur).got.get u = none := by
        cases hh : (s.fillStage mode a cur).got.get u with
        | none => rfl
        | some x => rw [g.keep u x hh] at hn; cases hn
      have := stage_complete s mode cur s.ros.rotation a u (hr u) h1 ha h2 hc ho
      cases hm : s.mixingOk (cs.foldl (s.fillStage mode) (s.fillStage mode a cur)).got mode u with
      | false => rfl
      | true =>
        have h3 := mixing_mono (fun w m h => g.keep w m h) mode u hm
        rw [show s.mixingOk (s.fillStage mode a cur).got mode u = false from this] at h3
        cases h3
    · exact ih _ (by simpa [e] using hcur) hl hn

/-- A stage gives the mode to slots of its current mode. -/
theorem stage_cur (s : State) (mode cur : Stable) (us : List Slot) (a : Filling) (u : Slot) (hn : a.got.get u = none)
    (hg : (us.foldl (s.takeSlot mode cur) a).got.get u = some mode) : s.currentMode u = some cur := by
  induction us generalizing a with
  | nil => rw [List.foldl_nil, hn] at hg; cases hg
  | cons v us ih =>
    simp only [List.foldl_cons] at hg
    by_cases h : (s.takeSlot mode cur a v).got.get u = none
    · exact ih _ h hg
    · unfold State.takeSlot at h
      split at h
      · rename_i ht
        by_cases e : u = v
        · subst e
          unfold State.takes at ht
          simp only [Bool.and_eq_true, decide_eq_true_eq, Option.isNone_iff_eq_none, beq_iff_eq] at ht
          exact ht.1.1.2
        · simp [e, hn] at h
      · exact absurd hn h

/-- Keep-first: a slot taken from another mode shows that the first stage left the count unmet. -/
theorem keep_first (s : State) (mode : Stable) (hr : ∀ u, u ∈ s.ros.rotation) (curs : List Stable) (a : Filling) (u v : Slot)
    (hvn : a.got.get v = none) (hv : ((mode :: curs).foldl (s.fillStage mode) a).got.get v = some mode) (hvc : s.currentMode v ≠ some mode)
    (ha : s.automatic u = true) (hn : ((mode :: curs).foldl (s.fillStage mode) a).got.get u = none) (hc : s.currentMode u = some mode) (ho : s.converterOk mode mode = true) :
    s.mixingOk ((mode :: curs).foldl (s.fillStage mode) a).got mode u = false := by
  simp only [List.foldl_cons] at hv hn ⊢
  have g := grew_fill s mode curs (s.fillStage mode a mode)
  have hv1 : (s.fillStage mode a mode).got.get v = none := by
    cases hh : (s.fillStage mode a mode).got.get v with
    | none => rfl
    | some x =>
      have := g.keep v x hh
      rw [hv] at this; cases this
      exact absurd (stage_cur s mode mode s.ros.rotation a v hvn hh) hvc
  have hl : (s.fillStage mode a mode).left ≠ 0 := by
    intro h0
    -- nothing is taken with the count met
    have none_taken : ∀ (us : List Slot) (c : Stable) (b : Filling), b.left = 0 → us.foldl (s.takeSlot mode c) b = b := by
      intro us c; induction us with
      | nil => intro b _; rfl
      | cons w us ih =>
        intro b hb
        simp only [List.foldl_cons]
        have : s.takeSlot mode c b w = b := by
          unfold State.takeSlot; rw [if_neg]; unfold State.takes; simp [hb]
        rw [this]; exact ih b hb
    have all : ∀ (cs : List Stable) (b : Filling), b.left = 0 → cs.foldl (s.fillStage mode) b = b := by
      intro cs; induction cs with
      | nil => intro b _; rfl
      | cons c cs ih =>
        intro b hb
        simp only [List.foldl_cons]
        have : s.fillStage mode b c = b := none_taken _ _ _ hb
        rw [this]; exact ih b hb
    rw [all curs _ h0, hv1] at hv; cases hv
  have h2 : (s.fillStage mode a mode).got.get u = none := by
    cases hh : (s.fillStage mode a mode).got.get u with
    | none => rfl
    | some x => rw [g.keep u x hh] at hn; cases hn
  have := stage_complete s mode mode s.ros.rotation a u (hr u) hl ha h2 hc ho
  cases hm : s.mixingOk (curs.foldl (s.fillStage mode) (s.fillStage mode a mode)).got mode u with
  | false => rfl
  | true =>
    have h3 := mixing_mono (fun w m h => g.keep w m h) mode u hm
    rw [show s.mixingOk (s.fillStage mode a mode).got mode u = false from this] at h3
    cases h3

end Sys2Proof.Machine
end

