-- ==== Sys2Proof/Laws/Interpolating.lean ====
section
/-! SUPPORT. Rounded quotients, and the order of an interpolated record (R28 to R30). -/

namespace Sys2Proof.Machine

/-- A quotient rounded down. -/
theorem ediv_bounds (x d : Int) (hd : 0 < d) : x / d * d ≤ x ∧ x < x / d * d + d := by
  have h1 := Int.mul_ediv_add_emod x d
  have h2 := Int.emod_nonneg x (by omega : d ≠ 0)
  have h3 := Int.emod_lt_of_pos x hd
  rw [Int.mul_comm] at h1
  omega

/-- A quotient rounded up. -/
theorem ceilDiv_bounds (x d : Int) (hd : 0 < d) : x ≤ ceilDiv x d * d ∧ ceilDiv x d * d < x + d := by
  have := ediv_bounds (-x) d hd
  unfold ceilDiv
  rw [Int.neg_mul]; omega

/-- A quotient rounded to the nearest. -/
theorem nearestDiv_bounds (x d : Int) (hd : 0 < d) (hx : 0 ≤ x) : 2 * x - d < 2 * nearestDiv x d * d ∧ 2 * nearestDiv x d * d ≤ 2 * x + d := by
  have := ediv_bounds (2 * x + d) (2 * d) (by omega)
  unfold nearestDiv
  rw [if_pos hx]
  rw [show 2 * ((2 * x + d) / (2 * d)) * d = (2 * x + d) / (2 * d) * (2 * d) by rw [Int.mul_comm 2, Int.mul_assoc]]
  omega

/-- A sound breakpoint gives an ordered record. -/
theorem recordAt_wf (c : Int) (b : Breakpoint) (e : Bool) (h : b.sound = true) : (recordAt c b e).Wf := by
  simp only [Breakpoint.sound, decide_eq_true_eq] at h
  obtain ⟨-, -, -, h1, h2, h3, h4, -⟩ := h
  refine ⟨by dsimp only [recordAt]; omega, ?_⟩
  intro z hz
  simp only [recordAt, zoneOf] at hz
  split at hz
  · cases hz
  · cases hz; dsimp only [recordAt]; omega

/-- Of two multiples less than a step apart the first is no more. -/
theorem le_of_mul_lt {a b d : Int} (hd : 0 < d) (h : a * d < (b + 1) * d) : a ≤ b := by
  have := Int.lt_of_mul_lt_mul_right h (by omega); omega

/-- Interpolation keeps an order with its margin. -/
theorem interpNum_le (a b : Breakpoint) (h : Nat) (ha : a.head < h) (hb : h < b.head) {u v u' v' k : Int} (h1 : u + k ≤ v) (h2 : u' + k ≤ v') :
    interpNum a b h u u' + k * ((b.head : Int) - a.head) ≤ interpNum a b h v v' := by
  unfold interpNum
  generalize hx : ((b.head : Int) - a.head) = d
  generalize hy : ((h : Int) - a.head) = y
  have : 0 ≤ y := by omega
  have : y ≤ d := by omega
  nlinarith [Int.mul_nonneg (show 0 ≤ v - u - k by omega) (show 0 ≤ d - y by omega), Int.mul_nonneg (show 0 ≤ v' - u' - k by omega) (show 0 ≤ y by omega)]

/-- Between two sound breakpoints the record is ordered (R29). -/
theorem recordBetween_wf (c : Int) (a b : Breakpoint) (h : Nat) (ha : a.head < h) (hb : h < b.head) (sa : a.sound = true) (sb : b.sound = true) :
    (recordBetween c a b h).Wf := by
  simp only [Breakpoint.sound, decide_eq_true_eq] at sa sb
  obtain ⟨-, -, -, a1, a2, a3, a4, -⟩ := sa
  obtain ⟨-, -, -, b1, b2, b3, b4, -⟩ := sb
  have hd : (0 : Int) < (b.head : Int) - a.head := by omega
  have n1 := interpNum_le a b h ha hb a1 b1
  have n2 := interpNum_le (k := 0) a b h ha hb (by omega : a.genMin + 0 ≤ a.rzLo) (by omega : b.genMin + 0 ≤ b.rzLo)
  have n3 := interpNum_le (k := 0) a b h ha hb (by omega : a.rzLo + 0 ≤ a.rzHi) (by omega : b.rzLo + 0 ≤ b.rzHi)
  have n4 := interpNum_le (k := 0) a b h ha hb (by omega : a.rzHi + 0 ≤ a.genMax) (by omega : b.rzHi + 0 ≤ b.genMax)
  have c1 := ceilDiv_bounds (interpNum a b h a.genMin b.genMin) _ hd
  have c2 := ediv_bounds (interpNum a b h a.genMax b.genMax) _ hd
  have c3 := ediv_bounds (interpNum a b h a.rzLo b.rzLo) _ hd
  have c4 := ceilDiv_bounds (interpNum a b h a.rzHi b.rzHi) _ hd
  unfold recordBetween CapRecord.Wf
  dsimp only
  generalize ceilDiv (interpNum a b h a.genMin b.genMin) _ = m at *
  generalize interpNum a b h a.genMax b.genMax / _ = M at *
  generalize interpNum a b h a.rzLo b.rzLo / _ = lo at *
  generalize ceilDiv (interpNum a b h a.rzHi b.rzHi) _ = hi at *
  generalize ((b.head : Int) - a.head) = d at *
  have e1 : m < M := by nlinarith
  have e2 : lo ≤ hi := le_of_mul_lt hd (by nlinarith)
  have e3 : lo ≤ M := le_of_mul_lt hd (by nlinarith)
  have e4 : m ≤ hi := le_of_mul_lt hd (by nlinarith)
  refine ⟨e1, ?_⟩
  intro z hz
  unfold zoneOf at hz
  split at hz
  · cases hz
  · cases hz; dsimp only; omega

end Sys2Proof.Machine
end

