-- ==== Sys2Proof/Laws/Mapping.lean ====
section
/-! SUPPORT. The taking away and giving of a slot's port (R153), and the cascade in STANDBY where no dispatchable slot is lost. -/

namespace Sys2Proof.Machine

theorem finish_standby_dispatchable {before s : State} {c : Causes} (hg : s.governs = false) (hc : c.hand = [])
    (hd : ∀ u, before.dispatchable u = true → s.dispatchable u = false → (s.req u).any (fun r => r.state == .warning) = false) :
    ∃ q, s.finish before c = s.setTrs { s.trs with requests := q } := by
  have h1 : ∀ u, State.dropGrant before s u = s := by
    intro u; unfold State.dropGrant
    rw [if_neg]
    simp only [Bool.and_eq_true, not_and]
    intro ⟨a, b⟩ w
    rw [hd u a (by simpa using b)] at w; cases w
  have h2 : Slot.all.foldl (State.dropGrant before) s = s := by simp [Slot.all, h1]
  have h3 : s.planStage before c = s := by
    unfold State.planStage
    rw [h2, hc]
    simp [State.replan, hg]
  unfold State.finish
  rw [h3]
  have h4 : ∃ q, s.grantStage before c = s.setTrs { s.trs with requests := q } := by
    unfold State.grantStage
    split
    · exact evalGrants_standby s hg
    · exact ⟨s.trs.requests, rfl⟩
  obtain ⟨q, hq⟩ := h4
  refine ⟨q, ?_⟩
  rw [hq]
  unfold State.allocStage
  have : (s.setTrs { s.trs with requests := q }).governs = false := hg
  simp [this]

theorem slotOf_of_wf {s : State} (h : RosterWf s) {u : Slot} {p : Port} (hp : (s.unitRec u).port = some p) : s.slotOf p = some u := by
  have : (s.slotOf p).isSome = true := by
    unfold State.slotOf
    rw [List.find?_isSome]
    exact ⟨u, by cases u <;> decide, by simp [hp]⟩
  obtain ⟨v, hv⟩ := Option.isSome_iff_exists.mp this
  have h2 := List.find?_some hv
  simp at h2
  rw [hv]
  have := h.map v u (by rw [h2]; rfl) (by rw [h2, hp])
  rw [this]

/-- The state after the old port is takePortAway_effect. -/
structure Gone (s m : State) (u : Slot) : Prop where
  unit_none : (s.unitRec u).port = none → m.unitRec u = s.unitRec u
  unit_plain : ∀ q, (s.unitRec u).port = some q → (s.portRec q).state ≠ .qualified → m.unitRec u = { s.unitRec u with port := none, report := none, lastSetpoint := none }
  unit_qual : ∀ q, (s.unitRec u).port = some q → (s.portRec q).state = .qualified → m.unitRec u = { (s.unitRec u).left with port := none, report := none }
  units : ∀ v, v ≠ u → m.unitRec v = s.unitRec v
  port_plain : ∀ q, (s.unitRec u).port = some q → (s.portRec q).state ≠ .qualified → m.portRec q = { s.portRec q with state := .unused, probe := none, queue := [] }
  port_qual : ∀ q, (s.unitRec u).port = some q → (s.portRec q).state = .qualified → m.portRec q = (s.portRec q).left .unused
  ports : ∀ q, (s.unitRec u).port ≠ some q → m.portRec q = s.portRec q
  orphan : ∀ q, (s.unitRec u).port = some q → (s.portRec q).state = .qualified → m.orphan u = if s.underOrder u then (s.req u).map Request.orphaned else s.orphan u
  req : ∀ q, (s.unitRec u).port = some q → (s.portRec q).state = .qualified → m.req u = (s.req u).bind Request.left
  rest : m.pli = s.pli ∧ m.pending = s.pending ∧ m.ros.rotation = s.ros.rotation ∧ m.head = s.head ∧ m.tgt = s.tgt ∧ m.prf = s.prf ∧ m.pln = s.pln ∧ m.alc = s.alc ∧ m.ste = s.ste ∧ m.plantOut = s.plantOut

theorem takePortAway_effect (s : State) (u : Slot) (h : RosterWf s) : Gone s (match (s.unitRec u).port with
    | some old => s.takePortAway u old
    | none => s) u := by
  cases hp : (s.unitRec u).port with
  | none =>
    simp only
    constructor
    · intro _; rfl
    · intro q e; rw [hp] at e; cases e
    · intro q e; rw [hp] at e; cases e
    · intro _ _; rfl
    · intro q e; rw [hp] at e; cases e
    · intro q e; rw [hp] at e; cases e
    · intro _ _; rfl
    · intro q e; rw [hp] at e; cases e
    · intro q e; rw [hp] at e; cases e
    · exact ⟨rfl, rfl, rfl, rfl, rfl, rfl, rfl, rfl, rfl, rfl⟩
  | some old =>
    simp only
    have he : ∀ q, (some old : Option Port) = some q → q = old := fun q e => by cases e; rfl
    by_cases hq : (s.portRec old).state = .qualified
    · have pl := leaveQualified_effect .unused (slotOf_of_wf h hp)
      generalize hm : s.leaveQualified old .unused = m at pl
      have e : s.takePortAway u old = m.setUnit u { m.unitRec u with port := none, report := none, lastSetpoint := none } := by
        unfold State.takePortAway; rw [if_pos hq, hm]
      rw [e]
      constructor
      · intro h; rw [hp] at h; cases h
      · intro q h h2; rw [hp] at h; cases h; exact absurd hq h2
      · intro q h h2; simp [pl.unit, UnitRec.left]
      · intro v hv; simp [hv, pl.units]
      · intro q h h2; rw [hp] at h; cases h; exact absurd hq h2
      · intro q h h2; rw [hp] at h; cases h; exact pl.port
      · intro q h; rw [hp] at h; exact pl.ports q (fun e => h (by rw [e]))
      · intro q h h2; exact pl.orphan
      · intro q h h2; exact pl.request
      · exact ⟨pl.pli, pl.pending, pl.rotation, pl.head, pl.tgt, pl.prf, pl.pln, pl.alc, pl.ste, pl.plantOut⟩
    · have e : s.takePortAway u old = (s.setPort old (s.portRec old).unmapped).setUnit u { s.unitRec u with port := none, report := none, lastSetpoint := none } := by
        unfold State.takePortAway; rw [if_neg hq]; rfl
      rw [e]
      constructor
      · intro h; rw [hp] at h; cases h
      · intro q h h2; simp
      · intro q h h2; rw [hp] at h; cases h; exact absurd h2 hq
      · intro v hv; simp [hv]; rfl
      · intro q h h2; rw [hp] at h; cases h
        show (s.setPort old _).portRec old = _; simp; rfl
      · intro q h h2; rw [hp] at h; cases h; exact absurd h2 hq
      · intro q h; rw [hp] at h
        have : q ≠ old := fun e => h (by rw [e])
        show (s.setPort old _).portRec q = _; simp [this]
      · intro q h h2; rw [hp] at h; cases h; exact absurd h2 hq
      · intro q h h2; rw [hp] at h; cases h; exact absurd h2 hq
      · exact ⟨rfl, rfl, rfl, rfl, rfl, rfl, rfl, rfl, rfl, rfl⟩

def State.given (m : State) (u : Slot) : Option Port → State
  | some q => m.givePort u q
  | none => m

theorem remap_eq (s : State) (u : Slot) (p : Option Port) : s.remap u p = State.given (match (s.unitRec u).port with
    | some old => s.takePortAway u old
    | none => s) u p := by
  unfold State.remap; cases p <;> rfl

theorem given_effect (m : State) (now : Word) (mclock : m.clock = now) (u : Slot) (p : Option Port) (hport : (m.unitRec u).port = none) :
             let b := State.given m u p
             b.unitRec u = { m.unitRec u with port := p } ∧ (∀ v, v ≠ u → b.unitRec v = m.unitRec v)
             ∧ (∀ q, p = some q → b.portRec q = ({ m.portRec q with state := .probing, lastMachine := none, outstanding := none } : PortRec).probed now)
             ∧ (∀ q, p ≠ some q → b.portRec q = m.portRec q)
             ∧ b.trs = m.trs
             ∧ b.pli = m.pli ∧ b.pending = m.pending ∧ b.ros.rotation = m.ros.rotation ∧ b.head = m.head ∧ b.tgt = m.tgt ∧ b.prf = m.prf ∧ b.pln = m.pln ∧ b.alc = m.alc ∧ b.ste = m.ste ∧ b.plantOut = m.plantOut := by
            intro b
            cases p with
            | none =>
              refine ⟨?_, fun _ _ => rfl, by simp, fun _ _ => rfl, rfl, rfl, rfl, rfl, rfl, rfl, rfl, rfl, rfl, rfl, rfl⟩
              show m.unitRec u = _
              rw [← hport]
            | some q =>
              let c := (m.setUnit u { m.unitRec u with port := some q }).setPort q { m.portRec q with state := .probing, lastMachine := none, outstanding := none }
              have e : b = c.probeNow q := rfl
              have e2 := probeNow_portRec c q
              obtain ⟨po, ou, e3⟩ := probeNow_eq c q
              rw [← e] at e3
              have cq : c.portRec q = { m.portRec q with state := .probing, lastMachine := none, outstanding := none } := by
                show (State.setPort (m.setUnit u _) q _).portRec q = _
                simp
              refine ⟨?_, ?_, ?_, ?_, ?_⟩
              · rw [e3]; show (m.setUnit u { m.unitRec u with port := some q }).unitRec u = _; simp
              · intro v hv; rw [e3]; show (m.setUnit u { m.unitRec u with port := some q }).unitRec v = _; simp [hv]
              · intro q' hq'; cases hq'
                rw [e, e2, if_pos rfl, cq]
                show PortRec.probed _ m.clock = _
                rw [mclock]
              · intro q' hq'
                have : q' ≠ q := fun e => hq' (by rw [e])
                rw [e, e2, if_neg this]
                show (State.setPort (m.setUnit u _) q _).portRec q' = _
                simp [this]
                rfl
              · rw [e3]; exact ⟨rfl, rfl, rfl, rfl, rfl, rfl, rfl, rfl, rfl, rfl, rfl⟩

end Sys2Proof.Machine
end

