-- ==== Sys2Proof/Laws/Orders.lean ====
section
/-! SUPPORT. Orders and the ends of steps (R70 to R81): what an order sets, what a released, refused or failed request leaves, what the watching of converters keeps, and what an allocation leaves alone. -/

namespace Sys2Proof.Machine

theorem setReq_quiet {b s : State} (um : Unmoved b s) {u : Slot} {r r' : Request} (hr : s.req u = some r) (h1 : r.state = .ordered) (h2 : r'.state = .inStep)
    (e1 : r'.entry = r.entry) (e2 : r'.tag = r.tag) (e3 : r'.startedAt = r.startedAt) : (s.setReq u (some r')).finish b = s.setReq u (some r') := by
  let x := s.setReq u (some r')
  have hrb : b.req u = some r := by rw [← um.req]; exact hr
  have hru : s.trs.requests.get u = some r := hr
  have dd : ∀ v, x.dispatchable v = b.dispatchable v := fun v => um.dispatchable v
  have aa : ∀ v, x.automatic v = b.automatic v := fun v => um.automatic v
  have gr : ∀ v, (x.req v).any Request.granted = (b.req v).any Request.granted := by
    intro v
    by_cases e : v = u
    · subst e; rw [hrb]; simp [x, Request.granted, h1, h2]; decide
    · have : x.req v = b.req v := by rw [← um.req]; simp [x, e]
      rw [this]
  have hpc : x.plantCount = b.plantCount := by
    unfold State.plantCount
    have o : ∀ v, x.orphan v = b.orphan v := fun v => by unfold State.orphan; show s.trs.orphans.get v = _; rw [um.trs]
    simp only [gr, o]
  have hq : ∀ v, queueChanged b x v = false := by
    intro v
    by_cases e : v = u
    · subst e
      unfold queueChanged
      simp [x, h2]
    · exact queueChanged_same v (by rw [← um.req]; simp [x, e])
  have hres : resourceReleased b x = false := by
    have hh : ∀ c, x.holder c = b.holder c := by
      intro c; cases c
      · show s.trs.c1 = b.trs.c1; rw [um.trs]
      · show s.trs.c2 = b.trs.c2; rw [um.trs]
    have hw : ∀ w, x.waterwayRec w = b.waterwayRec w := by
      intro w; unfold State.waterwayRec; show (s.trs.waterways.map _) = _; rw [um.trs]
    unfold resourceReleased
    simp only [hh, hw, hpc, Nat.lt_irrefl, decide_false, Bool.or_false]
    have h5 : ∀ o : Option Holder, (o.isSome && o.isNone) = false := by intro o; cases o <;> rfl
    simp only [h5, Bool.false_or, List.any_eq_false]
    intro w _
    cases b.waterwayRec w <;> simp
  have rep : ∀ v, x.reported v = b.reported v := fun v => by unfold State.reported; show ((s.unitRec v).report.map _) = _; rw [um.units]
  have hpart : x.pli.part = b.pli.part := um.part
  have hg : grantsDue b x = false := by
    unfold grantsDue
    rw [hres, hpart]
    cases hp : b.pli.part <;> simp [hq, rep, dd]
  have hl : allocationDue b x = false := by
    have om : ∀ v, orderMark b v = orderMark x v := by
      intro v
      by_cases e : v = u
      · subst e
        unfold orderMark
        rw [hrb]
        have : x.req v = some r' := by simp [x]
        rw [this]
        simp [Option.filter, Request.ordered, h1, h2, e1, e2, e3]
      · unfold orderMark
        have : x.req v = b.req v := by rw [← um.req]; simp [x, e]
        rw [this]
    have sc : ∀ v, slotChanged b x v = false := by
      intro v
      have ps : x.portState v = b.portState v := um.portState v
      have ur : x.unitRec v = b.unitRec v := um.units v
      simp [slotChanged, ur, ps, dd, aa, om]
    have hiu : x.headInUse = b.headInUse := um.headInUse
    have rt : x.tgt.ramped = b.tgt.ramped := um.ramped
    have it : x.tgt.increment = b.tgt.increment := um.increment
    unfold allocationDue
    simp [sc, hiu, rt, it]
  exact finish_quiet dd aa hg hl

theorem refuse_effect (s : State) (u : Slot) (cause : Int) (r : Request) (hr : s.req u = some r) (x : UnitRec) (hx : x = { s.unitRec u with
      backoff := if s.params.refusalBackoff = 0 then (s.unitRec u).backoff else some (later s.clock s.params.refusalBackoff) }) (b : State) (c : Causes) :
    CascadeFrame ((s.setUnit u x).post .stepRefused (some u) (some cause)) ((s.refuseStep u cause).finish b c)
    ∧ ∀ d, r.conv = some d → ((s.refuseStep u cause).finish b c).holder d = none ∨ ∃ v, ((s.refuseStep u cause).finish b c).holder d = some { slot := v, kind := .granted } := by
  subst hx
  have f1 := cascade_failRequest s u false
  generalize hm : s.failRequest u false = m at f1
  have mp : m.params = s.params := f1.play.params
  have mc : m.clock = s.clock := f1.play.clock
  let n := if m.params.refusalBackoff = 0 then m else m.setUnit u { m.unitRec u with backoff := some (later m.clock m.params.refusalBackoff) }
  have hrf : s.refuseStep u cause = (n.post .stepRefused (some u) (some cause)).compareDemand u := by
    unfold State.refuseStep; rw [hm]
  have huo : ∀ v, (m.unitRec v).core = (s.unitRec v).core := f1.units.2
  have mste : m.ste = s.ste := by
    rw [← hm]
    unfold State.failRequest State.endRequest
    have : ∀ (y : State), (y.ceaseOrder u .supervised).ste = y.ste := by
      intro y; unfold State.ceaseOrder; repeat' split
      all_goals rfl
    rw [this]
    show (s.releaseHeld u false).ste = _
    rw [only_releaseHeld s u false]; rfl
  have fn : CascadeFrame ((s.setUnit u { s.unitRec u with
      backoff := if s.params.refusalBackoff = 0 then (s.unitRec u).backoff else some (later s.clock s.params.refusalBackoff) }).post .stepRefused (some u) (some cause)) (n.post .stepRefused (some u) (some cause)) := by
    have nn : n = m ∧ s.params.refusalBackoff = 0 ∨ n = m.setUnit u { m.unitRec u with backoff := some (later m.clock m.params.refusalBackoff) } ∧ s.params.refusalBackoff ≠ 0 := by
      simp only [n, mp]
      by_cases h : s.params.refusalBackoff = 0
      · left; exact ⟨if_pos h, h⟩
      · right; exact ⟨if_neg h, h⟩
    have hust : ∀ v, (n.unitRec v).core = ((s.setUnit u { s.unitRec u with
      backoff := if s.params.refusalBackoff = 0 then (s.unitRec u).backoff else some (later s.clock s.params.refusalBackoff) }).unitRec v).core := by
      intro v
      rcases nn with ⟨h, h0⟩ | ⟨h, h0⟩
      · rw [h, huo v]
        by_cases e : v = u
        · subst e; simp [h0]
        · simp [e]
      · rw [h]
        by_cases e : v = u
        · subst e
          have := huo v
          simp [h0, UnitRec.core, mp, mc] at this ⊢
          simp [this]
        · simp [e, huo v]
    have pe : ∀ {γ : Type} (g : State → γ), (∀ (y : State) v z, g (y.setUnit v z) = g y) → g n = g m := by
      intro γ g hg
      rcases nn with ⟨h, _⟩ | ⟨h, _⟩
      · rw [h]
      · rw [h, hg]
    have nste : n.ste = s.ste := (pe State.ste (fun _ _ _ => rfl)).trans mste
    refine .of_parts ?_ ?_ ?_ ?_ ?_ ?_ ?_ ⟨?_, ?_⟩ ?_ ?_ ?_
    · exact (pe State.pending (fun _ _ _ => rfl)).trans f1.pending
    · exact (pe State.pli (fun _ _ _ => rfl)).trans f1.pli
    · exact (pe State.head (fun _ _ _ => rfl)).trans f1.head
    · exact (pe State.tgt (fun _ _ _ => rfl)).trans f1.tgt
    · have : m.prf = s.prf := by
        have := f1.playback; have := f1.dir; have := f1.divider; have := f1.pulse
        cases hx : m.prf; cases hy : s.prf; simp_all
      exact (pe State.prf (fun _ _ _ => rfl)).trans this
    · exact (pe State.plantOut (fun _ _ _ => rfl)).trans f1.plantOut
    · have : m.pln = s.pln := by
        rw [← hm]
        unfold State.failRequest State.endRequest
        have : ∀ (y : State), (y.ceaseOrder u .supervised).pln = y.pln := by
          intro y; unfold State.ceaseOrder; repeat' split
          all_goals rfl
        rw [this]
        show (s.releaseHeld u false).pln = _
        rw [only_releaseHeld s u false]; rfl
      exact (pe State.pln (fun _ _ _ => rfl)).trans this
    · exact (pe (fun y => y.ros.rotation) (fun _ _ _ => rfl)).trans f1.units.1
    · exact hust
    · intro q; exact (pe (fun y => (y.portRec q).core) (fun _ _ _ => rfl)).trans (f1.ports q)
    · exact ⟨fun w => (pe (fun y => (y.waterwayRec w).map (·.row)) (fun _ _ _ => rfl)).trans (f1.waterways.1 w), fun v => (pe (fun y => y.waterwayOf v) (fun _ _ _ => rfl)).trans (f1.waterways.2 v)⟩
    · have : (n.post .stepRefused (some u) (some cause)).ste = ((s.setUnit u { s.unitRec u with
      backoff := if s.params.refusalBackoff = 0 then (s.unitRec u).backoff else some (later s.clock s.params.refusalBackoff) }).post .stepRefused (some u) (some cause)).ste := by
        have nc : n.clock = s.clock := State.clock_congr ((pe State.pli (fun _ _ _ => rfl)).trans f1.pli)
        unfold State.post
        simp only [State.setSte_ste, nste, nc]
        rfl
      rw [this]; exact .refl
  have fc := cascade_compareDemand (n.post .stepRefused (some u) (some cause)) u
  have ff := cascade_finish (s.refuseStep u cause) b c
  refine ⟨?_, ?_⟩
  · rw [hrf] at ff ⊢
    exact (fn.trans fc).trans ff
  · intro d hd
    have hmd : m.holder d = none := by
      rw [← hm]
      have r1 := reach_endRequest (s.releaseHeld u false) u
      have hnone : (s.releaseHeld u false).holder d = none := by
        unfold State.releaseHeld
        rw [hr]
        dsimp only
        rw [hd]
        show State.holder (State.unwarn _ u) d = none
        have hu : ∀ y : State, (y.unwarn u).holder d = y.holder d := by
          intro y; cases d
          · exact (unwarn_trs y u).2.2.1
          · exact (unwarn_trs y u).2.2.2
        rw [hu]
        have hw : ∀ (y : State) f, (y.updateWaterwayOf u f).holder d = y.holder d := by
          intro y f
          unfold State.updateWaterwayOf State.setWaterway
          repeat' split
          all_goals cases d <;> rfl
        split
        · rw [hw]; cases d <;> rfl
        · cases d <;> rfl
      show (State.holder ((s.releaseHeld u false).endRequest u) d) = none
      unfold State.endRequest
      have : ∀ y : State, (y.ceaseOrder u .supervised).holder d = y.holder d := by
        intro y; unfold State.holder; rw [ceaseOrder_trs]
      rw [this]
      cases d <;> exact hnone
    have hnd : n.holder d = none := by
      simp only [n]; split
      · exact hmd
      · cases d <;> exact hmd
    have rr : Reach false (n.post .stepRefused (some u) (some cause)) ((s.refuseStep u cause).finish b c) := by
      rw [hrf]
      exact (reach_compareDemand _ _).trans (reach_finish _ _ _)
    rcases rr.holder d with h | h | h
    · left; rw [h]; cases d <;> exact hnd
    · exact .inl h
    · exact .inr h

/-- A frame goes on through the posting of one event on both sides. -/
theorem CascadeFrame.post_both {x y : State} (f : CascadeFrame x y) (h : y.ste = x.ste) (k : EventKind) (u : Option Slot) (v : Option Int) :
    CascadeFrame (x.post k u v) (y.post k u v) := by
  refine ⟨⟨⟨⟨f.pending, f.pli, f.head, f.dir, f.divider, f.pulse, f.plantOut, f.table, f.units, f.ports, f.waterways, ?_⟩, f.playback⟩, f.tgt⟩, f.selected, f.proposal, f.gap⟩
  have : (y.post k u v).ste = (x.post k u v).ste := by
    have hc : y.clock = x.clock := State.clock_congr f.pli
    unfold State.post
    simp only [State.setSte_ste, h, hc]
  rw [this]; exact .refl

theorem CascadeFrame.setUnit {x y : State} (f : CascadeFrame x y) (u : Slot) {a b : UnitRec} (h : b.core = a.core) :
    CascadeFrame (x.setUnit u a) (y.setUnit u b) := by
  refine ⟨⟨⟨⟨f.pending, f.pli, f.head, f.dir, f.divider, f.pulse, f.plantOut, f.table, ⟨f.units.1, fun v => ?_⟩, f.ports, f.waterways, f.posted⟩, f.playback⟩, f.tgt⟩, f.selected, f.proposal, f.gap⟩
  by_cases e : v = u
  · subst e; simp [h]
  · simp [e, f.units.2 v]

theorem failRequest_ste (s : State) (u : Slot) (b : Bool) : (s.failRequest u b).ste = s.ste := by
  unfold State.failRequest State.endRequest
  have : ∀ (y : State), (y.ceaseOrder u .supervised).ste = y.ste := by
    intro y; unfold State.ceaseOrder; repeat' split
    all_goals rfl
  rw [this]
  show (s.releaseHeld u b).ste = _
  rw [only_releaseHeld s u b]; rfl

theorem releaseHeld_settle {s : State} {u : Slot} {r : Request} {w : Waterway} {q : WaterwayRec} (hr : s.req u = some r) (hh : r.slotHeld = true)
    (hw : s.waterwayOf u = some w) (hq : s.waterwayRec w = some q) :
    ((s.releaseHeld u true).waterwayRec w).map (·.settle) = some (if q.row.settle = 0 then none else some (later s.clock q.row.settle)) := by
  unfold State.releaseHeld
  rw [hr]
  dsimp only
  rw [if_pos hh]
  let x := match r.conv with
      | some c => s.setHolder c none
      | none => s
  have xw : x.trs.waterways = s.trs.waterways := by
    simp only [x]; split
    · rename_i c _; cases c <;> rfl
    · rfl
  have xc : x.clock = s.clock := by
    simp only [x]; split
    · rename_i c _; cases c <;> rfl
    · rfl
  show ((((x.updateWaterwayOf u (·.release x.clock true)).unwarn u).setReq u _).waterwayRec w).map _ = _
  have h1 : ∀ y : State, ((y.unwarn u).waterwayRec w).map (·.settle) = (y.waterwayRec w).map (·.settle) := fun y =>
    (Micro.reach (k := false) (.unwarn y u)).settle w
  show (((x.updateWaterwayOf u (·.release x.clock true)).unwarn u).waterwayRec w).map _ = _
  rw [h1]
  have e1 : x.waterwayOf u = some w := by unfold State.waterwayOf; rw [xw]; exact hw
  have e2 : x.waterwayRec w = some q := by unfold State.waterwayRec; rw [xw]; exact hq
  have e3 : x.updateWaterwayOf u (·.release x.clock true) = x.setWaterway w (q.release x.clock true) := by
    unfold State.updateWaterwayOf; simp only [e1, e2]
  rw [e3]
  simp [e2, WaterwayRec.release, WaterwayRec.startSettle, xc]

theorem allocate_trs_eq (s : State) : s.allocate.trs = s.trs := by
  have h : ∀ (y : State) u, (y.emitSetpoint u).trs = y.trs := by
    intro y u; unfold State.emitSetpoint; split
    · rfl
    · split
      · exact sendSetpoint_trs _ _ _
      · rfl
  have : ∀ (us : List Slot) (x : State), (us.foldl State.emitSetpoint x).trs = x.trs := by
    intro us; induction us with
    | nil => intro x; rfl
    | cons a us ih => intro x; simp only [List.foldl_cons]; rw [ih, h]
  unfold State.allocate
  dsimp only
  rw [this]
  unfold State.postAllocFlags
  repeat' split
  all_goals rfl

theorem allocate_outstanding (s : State) (p : Port) : (s.allocate.portRec p).outstanding = (s.portRec p).outstanding := by
  have h : ∀ (y : State) u, ((y.emitSetpoint u).portRec p).outstanding = (y.portRec p).outstanding := by
    intro y u; unfold State.emitSetpoint; split
    · rfl
    · split
      · exact sendSetpoint_outstanding _ _ _ _
      · rfl
  have : ∀ (us : List Slot) (x : State), ((us.foldl State.emitSetpoint x).portRec p).outstanding = (x.portRec p).outstanding := by
    intro us; induction us with
    | nil => intro x; rfl
    | cons a us ih => intro x; simp only [List.foldl_cons]; rw [ih, h]
  unfold State.allocate
  dsimp only
  rw [this]
  unfold State.postAllocFlags
  repeat' split
  all_goals rfl

/-- After the order of a warned step the cascade does no more than allocate. -/
theorem ordered_finish {s m : State} (f : CascadeFrame s m) {u : Slot} {r r' : Request} (hr : s.req u = some r) (hg : r.granted = true)
    (hm : m.req u = some r') (ho : r'.state = .ordered) (others : ∀ v, v ≠ u → m.req v = s.req v)
    (rest : m.trs.orphans = s.trs.orphans ∧ m.trs.c1 = s.trs.c1 ∧ m.trs.c2 = s.trs.c2 ∧ m.trs.waterways = s.trs.waterways) :
    m.finish s = m ∨ m.finish s = m.allocate := by
  have h1 : ∀ v, State.dropGrant s m v = m := by
    intro v; simp [State.dropGrant, f.play.dispatchable v]
  have h2 : Slot.all.foldl (State.dropGrant s) m = m := by simp [Slot.all, h1]
  have h3 : autoChanged s m = false := by simp [autoChanged, f.play.automatic]
  have h4 : m.planStage s {} = m := by simp [State.planStage, h2, h3]
  have hq : ∀ v, queueChanged s m v = false := by
    intro v
    by_cases e : v = u
    · subst e; unfold queueChanged; simp [hm, ho]
    · exact queueChanged_same v (others v e)
  have gr : ∀ v, (m.req v).any Request.granted = (s.req v).any Request.granted := by
    intro v
    by_cases e : v = u
    · subst e; rw [hm, hr]; simp only [Option.any_some, hg]; unfold Request.granted; rw [ho]; rfl
    · rw [others v e]
  have hpc : m.plantCount = s.plantCount := by
    unfold State.plantCount
    have o : ∀ v, m.orphan v = s.orphan v := fun v => by unfold State.orphan; rw [rest.1]
    simp only [gr, o]
  have hres : resourceReleased s m = false := by
    have hh : ∀ c, m.holder c = s.holder c := by
      intro c; cases c
      · exact rest.2.1
      · exact rest.2.2.1
    have hw : ∀ w, m.waterwayRec w = s.waterwayRec w := by
      intro w; unfold State.waterwayRec; rw [rest.2.2.2]
    unfold resourceReleased
    simp only [hh, hw, hpc, Nat.lt_irrefl, decide_false, Bool.or_false]
    have h5 : ∀ o : Option Holder, (o.isSome && o.isNone) = false := by intro o; cases o <;> rfl
    simp only [h5, Bool.false_or, List.any_eq_false]
    intro w _
    cases s.waterwayRec w <;> simp
  have hg : grantsDue s m = false := by
    unfold grantsDue
    rw [hres, f.pli]
    cases hp : s.pli.part <;> simp [hq, f.play.reported, f.play.dispatchable]
  have h5 : m.grantStage s {} = m := by simp [State.grantStage, hg]
  unfold State.finish
  rw [h4, h5]
  unfold State.allocStage
  split
  · exact .inr rfl
  · exact .inl rfl

theorem releaseHeld_ends {s : State} {u : Slot} {r : Request} (hr : s.req u = some r) :
    (∀ c, r.conv = some c → (s.releaseHeld u true).holder c = none) ∧ ∀ w q, r.slotHeld = true → s.waterwayOf u = some w → s.waterwayRec w = some q →
          ((s.releaseHeld u true).waterwayRec w).map (fun x => (x.inProgress, x.settle))
            = some (q.inProgress - 1, if q.row.settle = 0 then none else some (later s.clock q.row.settle)) := by
  unfold State.releaseHeld
  rw [hr]
  dsimp only
  have hu : ∀ (y : State) d, (y.unwarn u).holder d = y.holder d := by
    intro y d; cases d
    · exact (unwarn_trs y u).2.2.1
    · exact (unwarn_trs y u).2.2.2
  have hwd : ∀ (y : State) f d, (y.updateWaterwayOf u f).holder d = y.holder d := by
    intro y f d
    unfold State.updateWaterwayOf State.setWaterway
    repeat' split
    all_goals cases d <;> rfl
  constructor
  · intro d hd
    rw [hd]
    show State.holder (State.unwarn _ u) d = none
    rw [hu]
    split
    · rw [hwd]; cases d <;> rfl
    · cases d <;> rfl
  · intro w q hh hw hq
    rw [if_pos hh]
    let x := match r.conv with
        | some c => s.setHolder c none
        | none => s
    have xw : x.trs.waterways = s.trs.waterways := by
      simp only [x]; split
      · rename_i c _; cases c <;> rfl
      · rfl
    have xc : x.clock = s.clock := by
      simp only [x]; split
      · rename_i c _; cases c <;> rfl
      · rfl
    show (((x.updateWaterwayOf u (·.release x.clock true)).unwarn u).waterwayRec w).map _ = _
    have h1 : ∀ y : State, ((y.unwarn u).waterwayRec w).map (fun x => (x.inProgress, x.settle)) = (y.waterwayRec w).map (fun x => (x.inProgress, x.settle)) := by
      intro y
      unfold State.unwarn State.waterwayRec
      cases hy : y.trs.waterways with
      | none => simp [hy]
      | some t =>
        simp only [State.setTrs_trs, Option.map_some]
        simp [WaterwayRec.unwarn]
        split <;> exact ⟨rfl, rfl⟩
    rw [h1]
    have e1 : x.waterwayOf u = some w := by unfold State.waterwayOf; rw [xw]; exact hw
    have e2 : x.waterwayRec w = some q := by unfold State.waterwayRec; rw [xw]; exact hq
    have e3 : x.updateWaterwayOf u (·.release x.clock true) = x.setWaterway w (q.release x.clock true) := by
      unfold State.updateWaterwayOf; simp only [e1, e2]
    rw [e3]
    simp [e2, WaterwayRec.release, WaterwayRec.startSettle, xc]

theorem releaseHeld_ste (s : State) (u : Slot) (b : Bool) : (s.releaseHeld u b).ste = s.ste := by
  rw [only_releaseHeld s u b]; rfl

theorem cease_ste (y : State) (u : Slot) : (y.ceaseOrder u .supervised).ste = y.ste := by
  unfold State.ceaseOrder; repeat' split
  all_goals rfl

theorem orderStep_effect {s : State} {u : Slot} {r : Request} {st : PathStep} {p : Port} (hr : s.req u = some r) (hc : r.current = some st) (hp : (s.unitRec u).port = some p) :
    (s.orderStep u).trs = { s.trs with requests := s.trs.requests.set u (some { r with
        state := .ordered, tag := some (s.portRec p).tagCounter, startedAt := some s.clock, seen := false, leadExpiry := none,
        ackExpiry := some (later s.clock s.params.ackTimeout),
        stepExpiry := some (later s.clock (s.stepTimeout u st.kind)), redirected := false }) }
    ∧ (s.orderStep u).ste = (s.post .stepOrdered (some u) (some (stepCode st.kind))).ste := by
  let m := s.sendOrder p st.kind r.conv .supervised
  have fm := cascade_sendOrder s p st.kind r.conv .supervised
  have mste : m.ste = s.ste := by
    show (s.sendOrder _ _ _ _).ste = _
    unfold State.sendOrder State.hand State.beginSending
    dsimp only
    split <;> rfl
  have mt : m.trs = s.trs := sendOrder_trs _ _ _ _ _
  have c1 : m.clock = s.clock := fm.play.clock
  have c2 : m.params = s.params := fm.play.params
  have c3 : m.stepTimeout u st.kind = s.stepTimeout u st.kind := by unfold State.stepTimeout; rw [fm.head]
  have e : s.orderStep u = (m.setReq u (some { r with
            state := .ordered, tag := some (s.portRec p).tagCounter, startedAt := some m.clock, seen := false, leadExpiry := none
            ackExpiry := some (later m.clock m.params.ackTimeout)
            stepExpiry := some (later m.clock (m.stepTimeout u st.kind)), redirected := false })).post .stepOrdered (some u) (some (stepCode st.kind)) := by
    unfold State.orderStep
    rw [hr, hp]
    simp only [hc]
    rfl
  rw [e, c1, c2, c3]
  constructor
  · show ({ m.trs with requests := m.trs.requests.set u _ } : Trs) = _
    rw [mt]
  · unfold State.post
    have h1 : ∀ q, (m.setReq u q).clock = s.clock := fun _ => c1
    have h2 : ∀ q, (m.setReq u q).ste = s.ste := fun _ => mste
    simp only [State.setSte_ste, h1, h2]

theorem takeConverter_only (s : State) (u : Slot) (c : Option Conv) : OnlyTrs s (s.takeConverter u c)
    ∧ (s.takeConverter u c).trs.waterways = s.trs.waterways ∧ (s.takeConverter u c).trs.requests = s.trs.requests := by
  cases c with
  | none => exact ⟨rfl, rfl, rfl⟩
  | some d => cases d <;> exact ⟨rfl, rfl, rfl⟩

theorem cascade_releaseOrphan (s : State) (u : Slot) : CascadeFrame s (s.releaseOrphan u) := by
  unfold State.releaseOrphan
  cases ho : s.orphan u with
  | none => exact .refl s
  | some o =>
    dsimp only
    refine CascadeFrame.trans ?_ (cascade_setOrphan _ _ _)
    have fx : CascadeFrame s (match o.conv with | some c => s.setHolder c none | none => s) := by
      split
      · exact cascade_setHolder _ _ _
      · exact .refl _
    split
    · exact fx.trans (cascade_updateWaterwayOf _ _ _ (fun r => by simp [WaterwayRec.release, WaterwayRec.startSettle]))
    · exact fx

theorem cascade_releaseObserved (s : State) (u : Slot) : CascadeFrame s (s.releaseObserved u) := by
  unfold State.releaseObserved
  dsimp only
  have h : CascadeFrame s (if s.observes u .c1 = true then s.setHolder .c1 none else s) := by
    split
    · exact cascade_setHolder _ _ _
    · exact .refl _
  generalize (if s.observes u .c1 = true then s.setHolder .c1 none else s) = x at h
  split
  · exact h.trans (cascade_setHolder _ _ _)
  · exact h

theorem cascade_claimObserved (s : State) (u : Slot) (c : Conv) : CascadeFrame s (s.claimObserved u c) := by
  unfold State.claimObserved
  split
  · exact .refl _
  · split
    · exact cascade_setHolder _ _ _
    · exact cascade_post _ _ _ _

theorem cascade_watch_of_report (x : State) (u : Slot) (m : Reported) (c : Option Conv) : CascadeFrame x (if m = .step .pStart then
    match c, x.req u with
    | some c, none => x.claimObserved u c
    | _, _ => x
  else x.releaseObserved u) := by
  split
  · split
    · exact cascade_claimObserved _ _ _
    · exact .refl _
  · exact cascade_releaseObserved _ _

theorem cascade_watchConverters (s : State) (u : Slot) (m : Reported) (c : Option Conv) : CascadeFrame s (s.watchConverters u m c) := by
  unfold State.watchConverters
  dsimp only
  have h : CascadeFrame s (match m with | .stable _ | .trip => s.releaseOrphan u | .step _ => s) := by
    split
    · exact cascade_releaseOrphan _ _
    · exact cascade_releaseOrphan _ _
    · exact .refl _
  exact h.trans (cascade_watch_of_report _ u m c)

end Sys2Proof.Machine
end

