-- ==== Sys2Proof/Laws/Queueing.lean ====
section
/-! SUPPORT. The order of the transition queue under insertion (R65). -/

namespace Sys2Proof.Machine

/-- No request goes before one that goes before it. -/
theorem Request.before_asymm (a b : Request) (h : a.before b = true) : b.before a = false := by
  unfold Request.before at *
  cases ha : a.cls <;> cases hb : b.cls <;> simp_all [older] <;> omega

/-- What an insertion holds. -/
theorem mem_insertByRank (x : Slot × Request) (l : List (Slot × Request)) (y) : y ∈ insertByRank x l ↔ y = x ∨ y ∈ l := by
  induction l with
  | nil => simp [insertByRank]
  | cons z l ih => unfold insertByRank; split <;> simp [ih]; tauto

/-- An insertion adds its element alone. -/
theorem insertByRank_perm (x : Slot × Request) (l : List (Slot × Request)) : (insertByRank x l).Perm (x :: l) := by
  induction l with
  | nil => exact .refl _
  | cons z l ih => unfold insertByRank; split
                   · exact .refl _
                   · exact (ih.cons z).trans (.swap x z l)

/-- No element stands right behind one that it goes before. -/
def InRankOrder (l : List (Slot × Request)) : Prop := ∀ i a b, l[i]? = some a → l[i + 1]? = some b → b.2.before a.2 = false

/-- A list in order with an element before it. -/
theorem InRankOrder.cons {a : Slot × Request} {l} (h : InRankOrder l) (hh : ∀ b, l.head? = some b → b.2.before a.2 = false) : InRankOrder (a :: l) := by
  intro i x y hx hy
  rcases i with _ | i
  · simp at hx hy; subst hx; exact hh y (by rw [List.head?_eq_getElem?]; exact hy)
  · exact h i x y (by simpa using hx) (by simpa using hy)

/-- The rest of a list in order is in order. -/
theorem InRankOrder.tail {a : Slot × Request} {l} (h : InRankOrder (a :: l)) : InRankOrder l := fun i x y hx hy => h (i+1) x y (by simpa using hx) (by simpa using hy)

/-- An insertion keeps the order (R65). -/
theorem inRankOrder_insertByRank (x : Slot × Request) (l) (h : InRankOrder l) : InRankOrder (insertByRank x l) ∧
    ∀ b, (insertByRank x l).head? = some b → b = x ∨ l.head? = some b := by
  induction l with
  | nil => refine ⟨by intro i a b h1 h2; simp [insertByRank] at h2, by simp [insertByRank]⟩
  | cons z l ih =>
    unfold insertByRank
    split
    · rename_i hb
      refine ⟨InRankOrder.cons h ?_, by simp⟩
      intro b hb2; simp at hb2; subst hb2; exact Request.before_asymm _ _ hb
    · rename_i hb
      obtain ⟨i1, i2⟩ := ih (InRankOrder.tail h)
      refine ⟨InRankOrder.cons i1 ?_, by simp⟩
      intro b hb2
      rcases i2 b hb2 with rfl | hl
      · simpa using hb
      · exact h 0 z b (by simp) (by rw [List.head?_eq_getElem?] at hl; simpa using hl)

/-- What it says that `b` does not stand before `a` (R61, R65), where `base` is any number from which both lie within half the
counter's range. -/
theorem Request.not_before (a b : Request) (h : b.before a = false) :
    (b.cls = .manual → a.cls = .manual) ∧ (a.cls = b.cls → a.entry = b.entry ∨ 0x80000000 ≤ (a.entry - b.entry).toNat)
    ∧ ∀ base : Word, (a.entry - base).toNat < 0x80000000 → (b.entry - base).toNat < 0x80000000 → a.cls = b.cls →
      (a.entry - base).toNat ≤ (b.entry - base).toNat := by
  unfold Request.before at h
  refine ⟨?_, ?_, ?_⟩
  · intro hb; cases ha : a.cls <;> simp_all
  · intro hc
    have : older b.entry a.entry = false := by cases ha : a.cls <;> simp_all
    unfold older at this
    simp at this
    bv_omega
  · intro base h1 h2 hc
    have : older b.entry a.entry = false := by cases ha : a.cls <;> simp_all
    unfold older at this
    simp at this
    bv_omega

/-- A list in order keeps the classes apart, and each class in the order of its entry numbers counted from `base` (R65). -/
theorem InRankOrder.ranked (l : List (Slot × Request)) (h : InRankOrder l) (base : Word) :
    ∀ (d i : Nat) (a b : Slot × Request), l[i]? = some a → l[i + d + 1]? = some b →
    (b.2.cls = .manual → a.2.cls = .manual) ∧ ((∀ x ∈ l, (x.2.entry - base).toNat < 0x80000000) → a.2.cls = b.2.cls →
      (a.2.entry - base).toNat ≤ (b.2.entry - base).toNat) := by
  intro d
  induction d with
  | zero =>
    intro i a b ha hb
    obtain ⟨h1, -, h3⟩ := Request.not_before a.2 b.2 (h i a b ha (by simpa using hb))
    exact ⟨h1, fun hw => h3 base (hw _ (List.mem_of_getElem? ha)) (hw _ (List.mem_of_getElem? hb))⟩
  | succ d ih =>
    intro i a b ha hb
    have hlt : i + d + 1 < l.length := by
      have := (List.getElem?_eq_some_iff.1 hb).1; omega
    obtain ⟨c, hc⟩ : ∃ c, l[i + d + 1]? = some c := ⟨_, List.getElem?_eq_getElem hlt⟩
    obtain ⟨i1, i2⟩ := ih i a c ha hc
    obtain ⟨h1, -, h3⟩ := Request.not_before c.2 b.2 (h (i + d + 1) c b hc (by simpa [Nat.add_assoc] using hb))
    refine ⟨fun hm => i1 (h1 hm), fun hw he => ?_⟩
    have hcb : c.2.cls = b.2.cls := by
      cases hx : b.2.cls with
      | manual => exact h1 hx
      | automatic =>
        cases hy : c.2.cls with
        | automatic => rfl
        | manual => have := i1 hy; rw [he, hx] at this; cases this
    exact (i2 hw (he.trans hcb.symm)).trans (h3 base (hw _ (List.mem_of_getElem? hc)) (hw _ (List.mem_of_getElem? hb)) hcb)

end Sys2Proof.Machine
end

