-- ==== Sys2Proof/Laws/Restarting.lean ====
section
/-! SUPPORT. The restart (R165): what the probing of the mapped ports writes, and the state that a restart leaves. -/

namespace Sys2Proof.Machine

theorem probeMapped_effect (ps : List Port) (hn : ps.Nodup) (s : State) :
    let t := ps.foldl State.probeMapped s
    (∀ p, t.portRec p = if p ∈ ps ∧ (s.slotOf p).isSome = true then
        (match (s.portRec p).sending with
          | none => { s.portRec p with probe := some (later s.clock 2), sending := some .probe }
          | some _ => { s.portRec p with probe := some (later s.clock 2), queue := enqueue .probe (s.portRec p).queue })
        else s.portRec p)
    ∧ t.unitOut = s.unitOut ++ (ps.filter (fun p => (s.slotOf p).isSome && (s.portRec p).sending.isNone)).map (fun p => (p, .probe))
    ∧ (t.pending = s.pending ∧ t.pli = s.pli ∧ t.ros = s.ros ∧ t.head = s.head ∧ t.tgt = s.tgt ∧ t.prf = s.prf ∧ t.pln = s.pln ∧ t.trs = s.trs ∧ t.alc = s.alc ∧ t.ste = s.ste ∧ t.plantOut = s.plantOut) := by
  induction ps generalizing s with
  | nil => simp
  | cons q ps ih =>
    simp only [List.nodup_cons] at hn
    intro t
    have hq : (State.probeMapped s q).pending = s.pending ∧ (State.probeMapped s q).pli = s.pli ∧ (State.probeMapped s q).ros = s.ros ∧ (State.probeMapped s q).head = s.head ∧ (State.probeMapped s q).tgt = s.tgt ∧ (State.probeMapped s q).prf = s.prf ∧ (State.probeMapped s q).pln = s.pln ∧ (State.probeMapped s q).trs = s.trs ∧ (State.probeMapped s q).alc = s.alc ∧ (State.probeMapped s q).ste = s.ste ∧ (State.probeMapped s q).plantOut = s.plantOut := by
      unfold State.probeMapped State.probeNow State.hand State.beginSending
      dsimp only
      split
      · split <;> simp
      · simp
    have hs : ∀ p, (State.probeMapped s q).slotOf p = s.slotOf p := by
      intro p; unfold State.slotOf; congr 1; funext u; simp [State.unitRec, hq]
    have hc : (State.probeMapped s q).clock = s.clock := State.clock_congr hq.2.1
    have hp : ∀ p, (State.probeMapped s q).portRec p = if p = q ∧ (s.slotOf q).isSome = true then
        (match (s.portRec q).sending with
          | none => { s.portRec q with probe := some (later s.clock 2), sending := some .probe }
          | some _ => { s.portRec q with probe := some (later s.clock 2), queue := enqueue .probe (s.portRec q).queue })
        else s.portRec p := by
      intro p
      by_cases e : (s.slotOf q).isSome = true
      · by_cases e2 : p = q
        · subst e2
          cases e3 : (s.portRec p).sending <;> simp [State.probeMapped, State.probeNow, State.hand, State.beginSending, e, e3, probePeriod] <;> simp [State.portRec]
        · cases e3 : (s.portRec q).sending <;> simp [State.probeMapped, State.probeNow, State.hand, State.beginSending, e, e2, e3, probePeriod] <;> simp [State.portRec, e2]
      · simp [State.probeMapped, e]
    have hu : (State.probeMapped s q).unitOut = s.unitOut ++ (if (s.slotOf q).isSome && (s.portRec q).sending.isNone then [(q, .probe)] else []) := by
      by_cases e : (s.slotOf q).isSome = true
      · cases e3 : (s.portRec q).sending <;> simp [State.probeMapped, State.probeNow, State.hand, State.beginSending, e, e3]
      · simp [State.probeMapped, e]
    obtain ⟨i1, i2, i3⟩ := ih hn.2 (State.probeMapped s q)
    refine ⟨fun p => ?_, ?_, ?_⟩
    · have := i1 p
      simp only [t, List.foldl_cons]
      rw [this]
      by_cases e : p = q
      · subst e
        simp [hn.1, hp]
      · simp [hs, hp, e, hc]
    · simp only [t, List.foldl_cons]
      rw [i2, hu]
      have : (fun p => ((State.probeMapped s q).slotOf p).isSome && ((State.probeMapped s q).portRec p).sending.isNone) = fun p => if p = q then ((State.probeMapped s q).slotOf p).isSome && ((State.probeMapped s q).portRec p).sending.isNone else (s.slotOf p).isSome && (s.portRec p).sending.isNone := by
        funext p
        by_cases e : p = q
        · simp [e]
        · simp [hs, hp, e]
      have h2 : ps.filter (fun p => ((State.probeMapped s q).slotOf p).isSome && ((State.probeMapped s q).portRec p).sending.isNone) = ps.filter (fun p => (s.slotOf p).isSome && (s.portRec p).sending.isNone) := by
        apply List.filter_congr
        intro p hp'
        have : p ≠ q := fun e => hn.1 (e ▸ hp')
        simp [hs, hp, this]
      rw [h2]
      by_cases e : ((s.slotOf q).isSome && (s.portRec q).sending.isNone) = true <;> simp [e]
    · simp only [t, List.foldl_cons]
      rw [i3.1, i3.2.1, i3.2.2.1, i3.2.2.2.1, i3.2.2.2.2.1, i3.2.2.2.2.2.1, i3.2.2.2.2.2.2.1, i3.2.2.2.2.2.2.2.1, i3.2.2.2.2.2.2.2.2.1, i3.2.2.2.2.2.2.2.2.2.1, i3.2.2.2.2.2.2.2.2.2.2]
      exact hq

theorem restartedFrom_restarted (s : State) (v : Int) : RestartedFrom s (s.restarted v) v ∧ (s.restarted v).pli.framer = s.pli.framer ∧ (s.restarted v).plantOut = s.plantOut := by
  let a := s.cleared.post .restarted none (some v)
  let b := if a.tgt.source = .pattern then a.startPattern else a
  have hb : s.restarted v = Port.all.foldl State.probeMapped b := rfl
  obtain ⟨p1, p2, p3⟩ := probeMapped_effect Port.all (by decide) b
  rw [← hb] at p1 p2 p3
  obtain ⟨q1, q2, q3, q4, q5, q6, q7, q8, q9, q10, q11⟩ := p3
  have hst : a.governs = false := rfl
  have hsf : a.inFallback = false := rfl
  have hb2 : b = { a with tgt := b.tgt } ∧ b.tgt.source = s.tgt.source ∧ b.tgt.pattern = s.tgt.pattern ∧ b.tgt.reqBase = (if s.tgt.source = .pattern then clampPlant s.tgt.pattern.low else 0) ∧ b.tgt.plan = b.tgt.reqBase ∧ b.tgt.ramped = 0 ∧ b.tgt.increment = 0 ∧ b.tgt.clamped = false ∧ b.tgt.run = (if s.tgt.source = .pattern then some { pos := 0, expiry := later s.clock s.tgt.pattern.period } else none) := by
    by_cases e : s.tgt.source = .pattern
    · have e1 : a.tgt.source = .pattern := e
      have : b = a.startPattern := by simp [b, e1]
      rw [this]
      have lv : a.tgt.pattern.level 0 = s.tgt.pattern.low := by
        show s.tgt.pattern.level 0 = _
        unfold Pattern.level
        cases s.tgt.pattern.shape <;> simp [stairFactor]
      unfold State.startPattern
      dsimp only
      have : ∀ x, (a.setTgt x).governs = false := fun x => hst
      have f2 : ∀ x, (a.setTgt x).inFallback = false := fun x => hsf
      rw [State.setTgt_tgt]
      simp only [State.handLevel, f2, lv]
      rw [setReqBase_standby (this _)]
      simp only [this, f2, Bool.false_eq_true, if_false, State.setTgt_tgt]
      refine ⟨rfl, rfl, rfl, ?_, ?_, ?_, rfl, rfl, ?_⟩
      · simp [e, Tgt.withBase]
      · simp [e, e1, Tgt.withBase]
      · simp [Tgt.withBase]; rfl
      · simp [e, Tgt.withBase]; rfl
    · have e1 : ¬ a.tgt.source = .pattern := e
      have : b = a := by simp only [b, if_neg e1]
      rw [this]
      exact ⟨rfl, rfl, rfl, by simp [e]; rfl, rfl, rfl, rfl, rfl, by simp [e]; rfl⟩
  obtain ⟨r1, r2, r3, r4, r5, r6, r7, r8, r9⟩ := hb2
  have eros : b.ros = a.ros := by rw [r1]
  have epli : b.pli = a.pli := by rw [r1]
  have eports : b.ports = a.ports := by rw [r1]
  have hslot : ∀ p, b.slotOf p = s.slotOf p := by
    intro p
    unfold State.slotOf
    congr 1
    funext u
    have : b.unitRec u = (s.ros.units.get u).restarted := by
      simp only [State.unitRec, eros]
      show (SlotMap.ofFn _).get u = _
      simp
    rw [this]; rfl
  have hport : ∀ p, b.portRec p = (s.portRec p).restarted (s.slotOf p).isSome := by
    intro p
    simp only [State.portRec, eports]
    show (PortMap.ofFn _).get p = _
    simp
  have hclock : b.clock = s.clock := by rw [State.clock_congr epli]; rfl
  refine ⟨?_, ?_, ?_⟩
  · constructor
    · rw [q1, r1]; rfl
    · rw [State.clock_congr q2, hclock]
    · rw [q2, epli]; rfl
    · rw [q2, epli]; rfl
    · rw [q2, epli]; rfl
    · rw [q2, epli]; rfl
    · rw [State.params_congr q2]; rw [State.params_congr epli]; rfl
    · rw [q3, eros]; rfl
    · intro u
      simp only [State.unitRec, q3, eros]
      show (SlotMap.ofFn _).get u = _
      simp [UnitRec.restarted]
    · intro p
      rw [p1 p]
      have hm : p ∈ Port.all := by cases p <;> decide
      rw [hslot, hport, hclock]
      by_cases e : (s.slotOf p).isSome = true
      · cases e2 : (s.portRec p).sending <;> simp [hm, e, PortRec.restarted, PortRec.startedFrom, e2, enqueue]
      · simp at e
        simp [e, PortRec.restarted, PortRec.startedFrom]
    · rw [q4, r1]; rfl
    · rw [q5, r2]
    · rw [q5, r3]
    · rw [q5, r4]
    · rw [q5, r5]
    · rw [q5, r6]
    · rw [q5, r7]
    · rw [q5, r8]
    · rw [q5, r9]
    · rw [q6, r1]; rfl
    · rw [q7, r1]; rfl
    · intro u
      simp only [State.req, q8]
      rw [r1]
      show (SlotMap.const none).get u = none
      simp
    · intro u
      simp only [State.orphan, q8]
      rw [r1]
      show (SlotMap.const none).get u = none
      simp
    · rw [q8, r1]; rfl
    · intro c
      cases c <;> simp only [State.holder, q8] <;> rw [r1] <;> rfl
    · intro u
      simp only [State.waterwayOf, q8]
      rw [r1]
      show Option.map _ (Option.map _ s.trs.waterways) = _
      cases s.trs.waterways <;> rfl
    · intro w
      simp only [State.waterwayRec, q8]
      rw [r1]
      show Option.map _ (Option.map _ s.trs.waterways) = _
      cases s.trs.waterways with
      | none => rfl
      | some t => simp [WaterwayRec.restarted, WaterwayRec.startSettle, WaterwayRec.startedFrom]; rfl
    · rw [q9, r1]; rfl
    · rw [q10, r1]
      show ({events := _, seq := _, eventsLost := _, m1 := _, m2 := _} : Ste) = _
      rfl
    · rw [p2]
      have h1 : b.unitOut = s.unitOut := by rw [r1]; rfl
      rw [h1]
      congr 2
      apply List.filter_congr
      intro p _
      rw [hslot, hport]
      rfl
  · rw [q2, epli]; rfl
  · rw [q11, r1]; rfl

theorem RestartedFrom.of_framer {s : State} {t : State} {v : Int} (h : RestartedFrom { s with pli := { s.pli with framer := none } } t v) : RestartedFrom s t v := by
  cases h
  constructor <;> assumption

end Sys2Proof.Machine
end

