-- ==== Sys2Proof/Laws/Sharing.lean ====
section
/-! SUPPORT. Sharing and absorption: what the floored shares sum to, the remainder, what a unit takes of a displacement, and that a division
keeps the units and accounts for the residual (R95 to R101). -/

namespace Sys2Proof.Machine

/-- The walk over one unit and the rest. -/
theorem absorb_cons (d : Int) (q : RegUnit) (us) : absorb d (q :: us) =
  ({ q with share := q.share + q.takes d } :: (absorb (d - q.takes d) us).1, (absorb (d - q.takes d) us).2) := rfl

/-- A lawful unit stands between the limits of its room. -/
theorem room_bounds {q : RegUnit} (h : q.Wf ∧ q.Lawful) : q.share ≤ q.ceiling ∧ q.floor ≤ q.share := by
  obtain ⟨⟨h1, h2⟩, h3, h4, h5⟩ := h
  unfold RegUnit.ceiling RegUnit.floor
  rcases hz : q.zone with _ | ⟨lo, hi⟩
  · exact ⟨h4, h3⟩
  · constructor <;> (dsimp only; split <;> omega)

/-- All that a unit takes of a displacement (R100). -/
theorem takes_spec {q : RegUnit} (h : q.Wf ∧ q.Lawful) (d : Int) :
    (q.moved = true → q.takes d = 0)
    ∧ (0 ≤ d → 0 ≤ q.takes d ∧ q.takes d ≤ d ∧ q.share + q.takes d ≤ q.ceiling)
    ∧ (d ≤ 0 → d ≤ q.takes d ∧ q.takes d ≤ 0 ∧ q.floor ≤ q.share + q.takes d)
    ∧ (q.moved = false → 0 ≤ d → q.takes d = d ∨ q.share + q.takes d = q.ceiling)
    ∧ (q.moved = false → d ≤ 0 → q.takes d = d ∨ q.share + q.takes d = q.floor) := by
  obtain ⟨h1, h2⟩ := room_bounds h
  unfold RegUnit.takes
  refine ⟨fun hm => by simp [hm], ?_, ?_, ?_, ?_⟩ <;> (intros; split_ifs <;> simp_all <;> omega)

/-- Within its room a lawful unit stays lawful. -/
theorem lawful_between {q : RegUnit} (h : q.Wf ∧ q.Lawful) {v : Int} (hv : (q.share ≤ v ∧ v ≤ q.ceiling) ∨ (q.floor ≤ v ∧ v ≤ q.share)) :
    ({ q with share := v } : RegUnit).Lawful := by
  obtain ⟨⟨h1, h2⟩, h3, h4, h5⟩ := h
  unfold RegUnit.ceiling RegUnit.floor at hv
  unfold RegUnit.Lawful
  dsimp only
  rcases hz : q.zone with _ | ⟨lo, hi⟩
  · rw [hz] at hv; dsimp only at hv
    exact ⟨by omega, by omega, by simp⟩
  · rw [hz] at hv; dsimp only at hv
    have h2 := h2 _ hz; have h5 := h5 _ hz
    dsimp only at h2 h5
    refine ⟨?_, ?_, ?_⟩
    · rcases hv with hv | hv
      · omega
      · split at hv <;> omega
    · rcases hv with hv | hv
      · split at hv <;> omega
      · omega
    · rintro z ⟨⟩
      dsimp only
      rcases hv with hv | hv <;> split at hv <;> omega

/-- A displacement of 0 moves nothing. -/
theorem absorb_zero (us : List RegUnit) : absorb 0 us = (us, 0) := by
  induction us with
  | nil => rfl
  | cons q us ih =>
    have : q.takes 0 = 0 := by unfold RegUnit.takes; split_ifs <;> simp_all
    simp [absorb_cons, this, ih]

/-- The displacement is what the moves out of the zones took away (R99). -/
theorem displacement_eq (us : List RegUnit) : displacement us = sumShares us - sumShares (us.map RegUnit.leaveZone) := by
  unfold displacement sumShares
  induction us with
  | nil => rfl
  | cons q us ih => simp only [List.map_cons, List.sum_cons] at ih ⊢; rw [ih]; simp only [RegUnit.leaveZone]; omega

/-- The sum of the ranges is the difference of the sums of the limits. -/
theorem sumRange_eq (us : List RegUnit) : sumRange us = sumMax us - sumMin us := by
  unfold sumRange sumMax sumMin
  induction us with
  | nil => rfl
  | cons q us ih => simp only [List.map_cons, List.sum_cons] at ih ⊢; omega

/-- Sums of floored proportional shares: their sum, and how far below the exact sum they lie. -/
theorem floor_sums (x R : Int) (hR : 0 < R) (us : List RegUnit) :
    sumMin us + (us.map (fun q => x * (q.most - q.least) / R)).sum = sumShares (us.map (fun q => { q with share := q.least + x * (q.most - q.least) / R }))
    ∧ R * (us.map (fun q => x * (q.most - q.least) / R)).sum ≤ x * sumRange us
    ∧ (us ≠ [] → x * sumRange us < R * ((us.map (fun q => x * (q.most - q.least) / R)).sum + us.length)) := by
  induction us with
  | nil => simp [sumMin, sumShares, sumRange]
  | cons q us ih =>
    obtain ⟨i1, i2, i3⟩ := ih
    simp only [sumMin, sumShares, sumRange, List.map_cons, List.sum_cons] at *
    have h1 := Int.mul_ediv_add_emod (x * (q.most - q.least)) R
    have h2 := Int.emod_nonneg (x * (q.most - q.least)) (by omega : R ≠ 0)
    have h3 := Int.emod_lt_of_pos (x * (q.most - q.least)) hR
    refine ⟨by omega, ?_, ?_⟩
    · rw [Int.mul_add, Int.mul_add]; omega
    · intro _
      simp only [List.length_cons]
      push_cast
      rcases us with _ | ⟨p, us⟩
      · simp; rw [Int.mul_add]; omega
      · have := i3 (by simp)
        simp only [Int.mul_add, List.length_cons] at this ⊢
        push_cast at this ⊢
        simp only [Int.mul_add] at this ⊢
        omega

/-- The remainder gives one step to each of the first units (R98). -/
theorem addRemainder_eq (n : Nat) (us : List RegUnit) :
    addRemainder n us = us.mapIdx (fun i q => { q with share := q.share + if i < n then 1 else 0 }) := by
  induction us generalizing n with
  | nil => cases n <;> rfl
  | cons q us ih =>
    rcases n with _ | n
    · simp [addRemainder, List.mapIdx_cons]
      apply List.ext_getElem <;> simp
    · simp [addRemainder, List.mapIdx_cons, ih n]

/-- What the remainder adds. -/
theorem sum_addRemainder (n : Nat) (us : List RegUnit) (h : n ≤ us.length) : sumShares (addRemainder n us) = sumShares us + n := by
  induction us generalizing n with
  | nil => cases n <;> simp_all [addRemainder]
  | cons q us ih =>
    rcases n with _ | n
    · simp [addRemainder]
    · have := ih n (by simp at h; omega)
      simp only [addRemainder, sumShares, List.map_cons, List.sum_cons] at this ⊢
      push_cast; omega

/-- Recording the share before zones changes no share. -/
theorem sumShares_before (us : List RegUnit) : sumShares (us.map (fun q => { q with before := q.share })) = sumShares us := by
  simp [sumShares, Function.comp_def]

/-- The sum of the shares before remainder. -/
theorem sumShares_proportional (r : Int) (us : List RegUnit) :
    sumShares (proportional r us) = sumMin us + (us.map (fun q => (r - sumMin us) * (q.most - q.least) / sumRange us)).sum := by
  unfold proportional
  simp only [RegUnit.proportion]
  generalize sumRange us = R
  generalize r - sumMin us = x
  simp only [sumShares, sumMin, List.map_map, Function.comp_def]
  induction us with
  | nil => rfl
  | cons q us ih => simp only [List.map_cons, List.sum_cons]; omega

/-- What the floored shares leave is no more than one step for each unit (R98). -/
theorem remainder_bounds (r : Int) (us : List RegUnit) (h1 : sumMin us ≤ r) (h2 : r ≤ sumMax us) :
    0 ≤ r - sumShares (proportional r us) ∧ r - sumShares (proportional r us) ≤ us.length
      ∧ (us ≠ [] → 0 < sumRange us → r - sumShares (proportional r us) < us.length) := by
  have hr := sumRange_eq us
  rw [sumShares_proportional]
  rcases Int.lt_or_le 0 (sumRange us) with h | h
  · obtain ⟨-, f2, f3⟩ := floor_sums (r - sumMin us) (sumRange us) h us
    rw [Int.mul_comm (r - sumMin us)] at f2
    have f2 := Int.le_of_mul_le_mul_left f2 h
    have hne : us ≠ [] := by rintro rfl; simp [sumRange] at h
    have f3 := f3 hne
    rw [Int.mul_comm (r - sumMin us)] at f3
    have f3 := Int.lt_of_mul_lt_mul_left f3 (by omega)
    refine ⟨by omega, by omega, fun _ _ => by omega⟩
  · have h0 : r - sumMin us = 0 := by omega
    simp only [h0, Int.zero_mul, Int.zero_ediv, List.map_const', List.sum_replicate]
    refine ⟨by simp; omega, by simp; omega, fun _ h' => by omega⟩

/-- The shares before zones sum to the residual (R98). -/
theorem sum_sharesBeforeZones (r : Int) (us : List RegUnit) (h1 : sumMin us ≤ r) (h2 : r ≤ sumMax us) :
    sumShares (sharesBeforeZones r us) = r := by
  obtain ⟨a, b, -⟩ := remainder_bounds r us h1 h2
  unfold sharesBeforeZones
  rw [sumShares_before, sum_addRemainder _ _ (by simp [proportional] at b ⊢; omega)]
  omega

/-- The lower limit is lawful. -/
theorem lawful_least {q : RegUnit} (h : q.Wf) (b : Int) : ({ q with share := q.least, before := b } : RegUnit).Lawful := by
  obtain ⟨h1, h2⟩ := h
  refine ⟨Int.le_refl _, by dsimp only; omega, ?_⟩
  intro z hz; have := h2 z hz; dsimp only; omega

/-- The upper limit is lawful. -/
theorem lawful_most {q : RegUnit} (h : q.Wf) (b : Int) : ({ q with share := q.most, before := b } : RegUnit).Lawful := by
  obtain ⟨h1, h2⟩ := h
  refine ⟨by dsimp only; omega, Int.le_refl _, ?_⟩
  intro z hz; have := h2 z hz; dsimp only; omega

/-- The sums of the limits are in order. -/
theorem sumMin_le_sumMax (us : List RegUnit) (h : ∀ q ∈ us, q.Wf) : sumMin us ≤ sumMax us ∧ (us ≠ [] → sumMin us < sumMax us) := by
  induction us with
  | nil => simp [sumMin, sumMax]
  | cons q us ih =>
    have := (h q (by simp)).1
    have ih := (ih (fun x hx => h x (by simp [hx]))).1
    simp only [sumMin, sumMax, List.map_cons, List.sum_cons] at ih ⊢
    exact ⟨by omega, fun _ => by omega⟩

/-- The lower limit is not inside the zone. -/
theorem outOfZone_least {q : RegUnit} (h : q.Wf) : outOfZone q.zone q.least = q.least := by
  unfold outOfZone
  rcases hz : q.zone with _ | ⟨lo, hi⟩
  · rfl
  · have := h.2 _ hz; dsimp only at this ⊢; rw [if_neg (by omega)]

/-- The upper limit is not inside the zone. -/
theorem outOfZone_most {q : RegUnit} (h : q.Wf) : outOfZone q.zone q.most = q.most := by
  unfold outOfZone
  rcases hz : q.zone with _ | ⟨lo, hi⟩
  · rfl
  · have := h.2 _ hz; dsimp only at this ⊢; rw [if_neg (by omega)]

/-- The walk keeps the units in their order. -/
theorem absorb_slots (us : List RegUnit) : ∀ d, (absorb d us).1.map (·.slot) = us.map (·.slot) := by
  induction us with
  | nil => intro d; rfl
  | cons q us ih => intro d; rw [absorb_cons]; simp [ih]

/-- Sharing keeps the units in their order. -/
theorem sharesBeforeZones_slots (r : Int) (us : List RegUnit) : (sharesBeforeZones r us).map (·.slot) = us.map (·.slot) := by
  simp only [sharesBeforeZones, addRemainder_eq, proportional]
  apply List.ext_getElem <;> simp

/-- The division keeps the units in their order. -/
theorem divide_slots (r : Int) (us : List RegUnit) : (divide r us).units.map (·.slot) = us.map (·.slot) := by
  unfold divide
  split
  · simp [Function.comp_def]
  · split
    · simp [Function.comp_def]
    · simp only [absorb_slots, List.map_map, ← sharesBeforeZones_slots r us]
      rfl

/-- What the walk gives and what it leaves is the displacement. -/
theorem absorb_sum (us : List RegUnit) : ∀ d, sumShares (absorb d us).1 + (absorb d us).2 = sumShares us + d := by
  induction us with
  | nil => intro d; simp [absorb, sumShares]
  | cons q us ih =>
    intro d; rw [absorb_cons]
    have := ih (d - q.takes d)
    simp only [sumShares, List.map_cons, List.sum_cons] at this ⊢; omega

/-- The shares sum to the residual less the shortfall. -/
theorem divide_sum (r : Int) (us : List RegUnit) : sumShares (divide r us).units = r - (divide r us).shortfall := by
  unfold divide
  split
  · simp [sumShares, sumMin, Function.comp_def]
  · split
    · simp [sumShares, sumMax, Function.comp_def]
    · have h := absorb_sum ((sharesBeforeZones r us).map RegUnit.leaveZone) (displacement (sharesBeforeZones r us))
      have h2 := sum_sharesBeforeZones r us (by omega) (by omega)
      have h3 := displacement_eq (sharesBeforeZones r us)
      dsimp only; omega

/-- The contributions of slots are their fixed ones and the shares. -/
theorem sum_shareOf (s : State) (l : List Slot) : ∀ (us : List RegUnit), l.Nodup → us.map (·.slot) = l.filter s.regulates →
    (l.map (fun u => (s.shareOf us u).value)).sum = (l.map (fun u => (s.contribution u).2)).sum + sumShares us := by
  induction l with
  | nil => intro us _ h; cases us <;> simp_all [sumShares]
  | cons u l ih =>
    intro us hn h
    obtain ⟨hnu, hnl⟩ := List.nodup_cons.1 hn
    by_cases hr : s.regulates u = true
    · rw [List.filter_cons_of_pos hr] at h
      rcases us with _ | ⟨q, us⟩
      · simp at h
      simp only [List.map_cons, List.cons.injEq] at h
      obtain ⟨h1, h2⟩ := h
      have e1 : (s.shareOf (q :: us) u).value = q.share := by simp [State.shareOf, h1]
      have e2 : l.map (fun v => (s.shareOf (q :: us) v).value) = l.map (fun v => (s.shareOf us v).value) := by
        apply List.map_congr_left
        intro v hv
        have : q.slot ≠ v := by rw [h1]; rintro rfl; exact hnu hv
        simp [State.shareOf, this]
      have e3 : (s.contribution u).2 = 0 := by
        unfold State.regulates at hr
        revert hr
        unfold State.contribution
        split_ifs <;> (try split) <;> (try split) <;> (try split_ifs) <;> simp_all
      simp only [List.map_cons, List.sum_cons, e1, e2, ih us hnl h2, e3, sumShares]; omega
    · rw [List.filter_cons_of_neg hr] at h
      have e1 : (s.shareOf us u).value = (s.contribution u).2 := by
        have : us.find? (fun q => q.slot == u) = none := by
          rw [List.find?_eq_none]
          intro q hq hc
          have : q.slot ∈ us.map (·.slot) := List.mem_map_of_mem hq
          rw [h, List.mem_filter] at this
          simp at hc
          rw [hc] at this
          exact hnu this.1
        simp [State.shareOf, this]
      simp only [List.map_cons, List.sum_cons, e1, ih us hnl h]; omega

end Sys2Proof.Machine
end

