-- ==== Sys2Proof/Tests/Slice0.lean ====
section
/-! SUPPORT. Tests on small states: ill-formed terms refused, frames of every family decoded, the worked cases of the spec, and for
every obligation with hypotheses states and operands that meet them. -/

set_option maxRecDepth 100000

namespace Sys2Proof.Tests

open Sys2Proof.Machine

/-! ## Ill-formed terms are refused -/

theorem test_wf_discarded_without_start : (Instr.frameDiscarded .plant [0x00, 0x00]).wellFormed = false := by decide
theorem test_wf_discarded_too_short : (Instr.frameDiscarded .plant [0xA5]).wellFormed = false := by decide
theorem test_wf_discarded_too_long : (Instr.frameDiscarded .plant (0xA5 :: List.replicate 247 0)).wellFormed = false := by decide
theorem test_wf_row_empty : (Instr.loadRow 0 0 []).wellFormed = false := by decide
theorem test_wf_row_too_long : (Instr.loadRow 0 0 (List.replicate 240 0)).wellFormed = false := by decide
theorem test_wf_define_name : (Instr.profileDefine 0 [0x41] 1 1 0 none).wellFormed = false := by decide
theorem test_wf_write_name : (Instr.profileWrite 0 [0x41] 0 1 [0]).wellFormed = false := by decide
theorem test_wf_write_count : (Instr.profileWrite 0 (List.replicate 12 0) 0 2 [0]).wellFormed = false := by decide
theorem test_wf_write_too_long :
    (Instr.profileWrite 0 (List.replicate 12 0) 0 113 (List.replicate 113 0)).wellFormed = false := by decide
theorem test_wf_read_name : (Instr.profileRead 0 [] 0 1).wellFormed = false := by decide
theorem test_wf_delete_name : (Instr.profileDelete 0 (List.replicate 13 0)).wellFormed = false := by decide
theorem test_wf_play_name : (Instr.play 0 (List.replicate 11 0)).wellFormed = false := by decide
theorem test_wf_rotation_too_long : (Instr.rotationSet 0 (List.replicate 241 1)).wellFormed = false := by decide

/-! ## Frames decode: one of each family, its bytes written out from sections 11.1 to 11.3 -/

/-- UNIT_HOLD U3 GEN 150.0 MW. -/
theorem test_decode_unitHold :
    decodeFrame .plant (frameOf [4, 1, 4, 0, 3, 2, 0x05, 0xDC]) = some (.unitHold 3 2 (some 1500)) := by decide
/-- CONFIG_SET parameter 1 (ramp_rate) to 5.0 MW/s. -/
theorem test_decode_configSet :
    decodeFrame .plant (frameOf [6, 2, 1, 7, 1, 0, 0, 0, 50, 0]) = some (.configSet 7 1 50 0) := by decide
/-- LOAD_BEGIN PLAN with 3 rows. -/
theorem test_decode_loadBegin : decodeFrame .plant (frameOf [2, 2, 3, 1, 9, 3]) = some (.loadBegin 1 9 3) := by decide
/-- PLAY of the profile named A. -/
theorem test_decode_play : decodeFrame .plant (frameOf ([12, 2, 12, 4] ++ 0x41 :: List.replicate 11 0))
    = some (.play 4 (0x41 :: List.replicate 11 0)) := by decide
/-- SOURCE_SET PATTERN. -/
theorem test_decode_sourceSet : decodeFrame .plant (frameOf [1, 2, 14, 2, 2]) = some (.sourceSet 2 2) := by decide
/-- ENABLE. -/
theorem test_decode_enable : decodeFrame .plant (frameOf [0, 2, 16, 5]) = some (.enable 5) := by decide
/-- RESTART. -/
theorem test_decode_restart : decodeFrame .plant (frameOf [0, 2, 19, 5]) = some (.restart 5) := by decide
/-- MAP_SET U2 to none. -/
theorem test_decode_mapSet : decodeFrame .plant (frameOf [2, 2, 20, 5, 2, 0]) = some (.mapSet 5 2 0) := by decide
/-- EVENT_READ. -/
theorem test_decode_eventRead : decodeFrame .plant (frameOf [0, 3, 4, 6]) = some (.eventRead 6) := by decide
/-- A frame of class REPLY is no request. -/
theorem test_decode_unknown_class : decodeFrame .plant (frameOf [0, 4, 1, 6]) = some (.unknownFrame 4 1 6) := by decide
/-- A length above 240 ends the frame at once (R181). -/
theorem test_decode_overlong : decodeFrame .plant [0xA5, 241] = some (.frameDiscarded .plant [0xA5, 241]) := by decide
/-- The table gives no bits. -/
theorem test_decode_word : decodeTableWord 8 0 = none := rfl

/-! ## The states of the tests -/

/-- The state a command answers. -/
def after (c : Instr) (s : State) : State :=
  match exec c s with
  | .next t => t
  | .fault _ => s
  | .refused _ => s

/-- The table of U3 and U4 of section 5.10 at every head, with P_START and the rest at their defaults. -/
def table34 : CapTable :=
  { header := { count := 2, condense := 60, gStart := 120, pStart := 400, prime := 60, deprime := 60, stop := 300 }
    points := [{ head := 5000, genMin := 400, genMax := 2200, rzLo := 700, rzHi := 1000, pump := 1800 },
               { head := 6000, genMin := 400, genMax := 2200, rzLo := 700, rzHi := 1000, pump := 1800 }] }

/-- The table of U5 of section 5.10. -/
def table5 : CapTable :=
  { header := { count := 2, condense := 60, gStart := 120, pStart := 400, prime := 60, deprime := 60, stop := 300 }
    points := [{ head := 5000, genMin := 300, genMax := 1800, rzLo := 300, rzHi := 300, pump := 1800 },
               { head := 6000, genMin := 300, genMax := 1800, rzLo := 300, rzHi := 300, pump := 1800 }] }

/-- A waterway: one slot, settle time 30 s, mixing forbidden, G_START warned with a lead of 10 s, a pattern of two pulses. -/
def wayRow : WaterwayRow :=
  { slots := 1, settle := 30, mixing := 0, kinds := 1, lead := 10, firstHigh := 30, high := 10, low := 5, count := 2 }

def wayRec : WaterwayRec := { row := wayRow, inProgress := 0, settle := none, warned := [], generator := none }

/-- The rows of a mode plan: one generating unit up to 100.0 MW, two from 80.0 MW on. -/
def planRows : List PlanRow :=
  [{ lower := -1000, upper := 1000, nPmp := 0, nCnd := 0, nGen := 1 },
   { lower := 800, upper := 5000, nPmp := 0, nCnd := 0, nGen := 2 }]

/-- After power-on, with a head of 520.0 m written, every table loaded, and mapping as at power-on. -/
def tabled : State :=
  { State.reset with
    pli := { State.reset.pli with params := { State.reset.params with headOverride := 5200 } }
    head := { State.reset.head with caps := (SlotMap.const (some table34)).set .u5 (some table5) }
    pln := .cleared (some planRows)
    trs := { State.reset.trs with waterways := some { recs := .const wayRec, place := .const .w1 } } }

/-- A slot's port QUALIFIED, and a report accepted from its unit. -/
def heardAt (u : Slot) (p : Port) (m : Reported) (power : Int) (s : State) : State :=
  (s.setPort p { s.portRec p with state := .qualified, probe := none, liveness := some 3 }).setUnit u
    { s.unitRec u with report := some { mode := m, power := power, remote := true, available := true, conv := none } }

def inPart (p : PartState) (s : State) : State := s.setPli { s.pli with part := p }

/-- The plant of section 5.10: U1 and U2 pumping, U6 condensing, U7 and U8 at standstill, U3, U4 and U5 generating. -/
def plant510 : State :=
  let s := inPart .dispatching tabled
  let s := heardAt .u1 .a (.stable .pmp) (-1800) (heardAt .u2 .b (.stable .pmp) (-1800) s)
  let s := heardAt .u6 .f (.stable .cnd) (-60) (heardAt .u7 .g (.stable .ss) 0 (heardAt .u8 .h (.stable .ss) 0 s))
  let s := heardAt .u3 .c (.stable .gen) 770 (heardAt .u4 .d (.stable .gen) 770 (heardAt .u5 .e (.stable .gen) 610 s))
  let s := s.setRos { s.ros with rotation := [.u4, .u5, .u6, .u7, .u8, .u1, .u2, .u3] }
  s.setTgt { s.tgt with ramped := -1500 }

/-- U1 alone is known, at standstill on its QUALIFIED port, and the part is DISPATCHING. -/
def oneUnit : State := heardAt .u1 .a (.stable .ss) 0 (inPart .dispatching tabled)

/-! ## The worked cases of the spec, one step each -/

def half (i : Int) : Half := BitVec.ofInt 16 i

def clockAt (t : Nat) (s : State) : State := { s with pli := { s.pli with clock := BitVec.ofNat 32 t } }

def lastSent (u : Slot) (v : Int) (s : State) : State := s.setUnit u { s.unitRec u with lastSetpoint := some { value := v, time := 0 } }

/-- Section 5.10 with ramp_rate 0, the last setpoints of that section, and no plan row in reach, so that no assignment runs. -/
def sharing : State :=
  let s := plant510.setParams { plant510.params with rampRate := 0 }
  let s := s.setPln (.cleared (some [{ lower := 31000, upper := 32000, nPmp := 0, nCnd := 0, nGen := 1 }]))
  lastSent .u3 750 (lastSent .u4 700 (lastSent .u5 758 (s.setTgt { s.tgt with ramped := 0 })))

/-- U2's table of section 2.3. -/
def table2 : CapTable :=
  { header := table5.header
    points := [{ head := 4800, genMin := 350, genMax := 2000, rzLo := 700, rzHi := 950, pump := 1760 },
               { head := 5600, genMin := 480, genMax := 2310, rzLo := 700, rzHi := 700, pump := 1830 }] }

/-- U6's table of section 2.3. -/
def table6 : CapTable :=
  { header := table5.header
    points := [{ head := 4000, genMin := 200, genMax := 1000, rzLo := 200, rzHi := 200, pump := 900 },
               { head := 5000, genMin := 300, genMax := 1500, rzLo := 300, rzHi := 450, pump := 1000 }] }

/-- The plan table of section 3.6. -/
def rows36 : List PlanRow :=
  [{ lower := -8000, upper := -5000, nPmp := 5, nCnd := 0, nGen := 2 },
   { lower := -5500, upper := -2000, nPmp := 2, nCnd := 1, nGen := 1 },
   { lower := -2500, upper := 200, nPmp := 0, nCnd := 1, nGen := 1 },
   { lower := 0, upper := 6000, nPmp := 0, nCnd := 0, nGen := 3 },
   { lower := 5000, upper := 12000, nPmp := 0, nCnd := 0, nGen := 6 }]

/-- Section 3.6 with row 4 proposed until 1070, the planning target at 900.0 MW. -/
def proposed36 : State :=
  let s := clockAt 1070 oneUnit
  let s := s.setPln { s.pln with table := some rows36, selected := some 3, proposal := some { row := 4, expiry := 1070 } }
  s.setTgt { s.tgt with reqBase := 9000, plan := 9000 }

/-- Profiles RAMP3 and EVE_A of sections 7.5 and 7.6. -/
def ramp3 : Profile := { name := [0x52, 0x41, 0x4D, 0x50, 0x33], minutes := 5, rep := true, entries := [1000, 3000, 1500] }
def eveA : Profile := { name := [0x45, 0x56, 0x45, 0x5F, 0x41], minutes := 15, rep := false, entries := [2000, 5000, 8000, 4000] }

def playing (b : Playback) (s : State) : State :=
  let s := s.setPrf { s.prf with dir := [ramp3, eveA], playback := b }
  s.setTgt { s.tgt with source := .profile }

/-- Section 7.5 before its first step. -/
def lead75 : State :=
  let s := playing .idle (clockAt 20000 oneUnit)
  s.setParams { s.params with planAdvance := 60, rampAdvance := 600 }

/-- Section 7.5 before its third step. -/
def lead75b : State :=
  (clockAt 20300 lead75).setPlayback
    { profile := some ramp3.name, state := .playing, current := some 0, last := some 20000, next := some 20300,
      planHanded := true, rampHanded := true, markerLost := false }

def followParams (c : Params) : Params := { c with planAdvance := 300, rampAdvance := 120, markerMode := .follow }

/-- Section 7.6 after its sixth step, at part clock `t`. -/
def follow76 (t : Nat) : State :=
  let s := playing { profile := some eveA.name, state := .playing, current := some 1, last := some 12121, next := some 13021,
                     planHanded := true, rampHanded := false, markerLost := true } (clockAt t oneUnit)
  s.setParams (followParams s.params)

/-- Section 6.8 at its start, and before its fifth step. -/
def ramp68 : State := let s := clockAt 2000 oneUnit; s.setTgt { s.tgt with reqBase := 4000, plan := 4000, ramped := 4000 }
def fold68 : State :=
  let s := clockAt 2006 oneUnit
  let s := s.setTgt { s.tgt with reqBase := 3800, plan := 3800, ramped := 4020, increment := -1000 }
  s.setPli { s.pli with liveness := some 2006 }

/-- Section 6.9 after PATTERN_SET, and at its first period's end. -/
def stair69 : State :=
  let s := clockAt 3000 oneUnit
  s.setTgt { s.tgt with ramped := -2000, increment := 300, pattern := { low := -2000, high := 6000, period := 20, shape := .stair } }
def stair69b : State :=
  let s := clockAt 3020 oneUnit
  s.setTgt { s.tgt with
    source := .pattern, reqBase := -2000, plan := -2000, ramped := -2000
    pattern := { low := -2000, high := 6000, period := 20, shape := .stair }, run := some { pos := 0, expiry := 3020 } }

/-- Section 8.6: U3's port C at part clock `t`, after its second, sixth and tenth steps. -/
def probing86 (t : Nat) : State :=
  let s := clockAt t tabled
  s.setPort .c { s.portRec .c with state := .probing, probe := some 4 }
def live86 (t : Nat) : State :=
  let s := clockAt t tabled
  (s.setUnit .u3 { s.unitRec .u3 with expected := 7 }).setPort .c
    { s.portRec .c with state := .qualified, probe := none, liveness := some 152, lastMachine := some 7 }

/-- U3 of section 8.6 with its G_START ordered at 120 under tag 0, holding a slot of W1. -/
def ordered86 (t : Nat) : State :=
  let s := heardAt .u3 .c (.stable .ss) 0 (inPart .dispatching (clockAt t tabled))
  let s := s.setPort .c { s.portRec .c with
    liveness := some 152, tagCounter := 1, outstanding := some { tag := 0, kind := .gStart, purpose := .supervised } }
  let s := s.setUnit .u3 { s.unitRec .u3 with
    hold := some { mode := .gen, requested := none, settled := none, emergency := false, stopOutstanding := false } }
  let s := s.setReq .u3 (some { Request.new .manual .gen (pathOf .ss .gen) 0 with
    state := .ordered, slotHeld := true, tag := some 0, startedAt := some 120, ackExpiry := some 122, stepExpiry := some 240 })
  s.updateWaterwayOf .u3 (fun r => { r with inProgress := 1 })

/-- Section 4.12 before its tenth step: U1 warned for G_START until 5200. -/
def warned412 : State :=
  let s := heardAt .u1 .a (.stable .ss) 0 (inPart .dispatching (clockAt 5200 tabled))
  let s := s.setUnit .u1 { s.unitRec .u1 with
    hold := some { mode := .gen, requested := none, settled := none, emergency := false, stopOutstanding := false } }
  let s := s.setReq .u1 (some { Request.new .manual .gen (pathOf .ss .gen) 0 with
    state := .warning, slotHeld := true, leadExpiry := some 5200 })
  s.updateWaterwayOf .u1 (fun r => ({ r with inProgress := 1 } : WaterwayRec).warn .u1 5190)

/-- Section 1.7 before its first step: U3 in GEN at 90.0 MW. -/
def gen17 : State := lastSent .u3 900 (heardAt .u3 .c (.stable .gen) 900 (inPart .dispatching tabled))

def tripped17 (m : Reported) : State :=
  let s := heardAt .u3 .c m 0 (inPart .dispatching tabled)
  s.setUnit .u3 { s.unitRec .u3 with
    trip := true
    hold := some { mode := .ss, requested := none, settled := none, emergency := true, stopOutstanding := false } }

/-- Section 1.8: U5 in GEN, its zone 60.0 to 90.0 MW at the head in use. -/
def held18 : State :=
  let t : CapTable := { header := table5.header, points := table5.points.map (fun b => { b with rzLo := 600, rzHi := 900 }) }
  let s := heardAt .u5 .e (.stable .gen) 700 (inPart .dispatching tabled)
  s.setHead { s.head with caps := s.head.caps.set .u5 (some t) }

/-- Section 9.6 after its second step, and the part DISPATCHING with a load of PLAN open, holding rows 2 and 0 (section 9.7). -/
def await96 (auto : Bool) : State :=
  let s := clockAt 7018 (inPart (.fallback .awaitResume) oneUnit)
  let s := s.setTgt { s.tgt with reqBase := 6200, plan := 6200, ramped := 6200 }
  s.setParams { s.params with autoResume := auto }
def planRow1 : PlanRow := { lower := -1000, upper := 1000, nPmp := 0, nCnd := 0, nGen := 1 }
def load97 : State :=
  let s := oneUnit
  s.setPli { s.pli with load := some { pos := .plan, count := 3, rows := [(0, .plan planRow1), (2, .plan planRow1)] } }

/-- Section 10.7 after its first step: records 941 to 1004. -/
def queue107 : State :=
  State.reset.setSte { State.reset.ste with
    events := (List.range 64).map (fun i => { seq := BitVec.ofNat 16 (941 + i), time := 0, kind := .stepDone, slot := none, value := none })
    seq := 1005, eventsLost := true }

def lastReply (s : State) : Option PlantFrame := s.plantOut.getLast?
def lastEvent (s : State) : Option (EventKind × Option Slot × Option Int) := s.ste.events.getLast?.map (fun e => (e.kind, e.slot, e.value))
def posted (s : State) (k : EventKind) (u : Option Slot) (v : Option Int) : Bool :=
  s.ste.events.any (fun e => e.kind == k && e.slot == u && e.value == v)
def shareOf (u : Slot) (s : State) : Option Int := s.alc.last.map (fun a => (a.shares.get u).value)

/-- Section 2.3: U2 at 505.0 m. -/
theorem test_interpolates : interpolate table2 5050
    = some { genMin := 391, genMax := 2096, zone := some (700, 872), pump := 1782, condense := 60, extrapolated := false } := by decide
/-- Section 2.3: U6 at 400.1 m, where the zone collapses. -/
theorem test_zone_collapses : (interpolate table6 4001).map (fun c => (c.genMin, c.genMax, c.zone, c.pump))
    = some (201, 1000, none, 900) := by decide
theorem test_powerOn : (after .powerOn plant510).tgt.ramped = 0 ∧ (after .powerOn plant510).ste.events.length = 1 := by decide
theorem test_resetInput : lastEvent (after .resetInput plant510) = some (.restarted, none, some 1) := by decide
/-- Section 6.8, step 2: the ramp goes up by 5.0 MW. -/
theorem test_partClockAdvance :
    (after .partClockAdvance (ramp68.setTgt { ramp68.tgt with reqBase := 4120, plan := 4120 })).tgt.ramped = 4050 := by decide
/-- R181: after a discarded frame the framer goes on after its start byte. -/
theorem test_frameDiscarded :
    (after (.frameDiscarded .plant [0xA5, 0, 2, 23, 9, 0xA5, 0]) State.reset).pli.framer = some [0] := by decide
/-- R181: a whole frame among the discarded bytes is carried out: BASE 412.0 MW in a frame cut short by a byte. -/
theorem test_frameDiscarded_carries :
    (after (.frameDiscarded .plant ([0xA5, 9, 1, 2] ++ frameOf [2, 1, 1, 7, 0x10, 0x18])) oneUnit).tgt.reqBase = 4120 := by decide
theorem test_framerIdleTimeout :
    (after (.framerIdleTimeout .plant) (State.reset.setPli { State.reset.pli with framer := some [0] })).pli.framer = none := by decide
theorem test_unknownFrame : lastReply (after (.unknownFrame 3 9 7) State.reset) = some (.reply 7 3 9 .unknown 0 []) := by decide
/-- R141: the next frame of the queue goes out. -/
theorem test_transmitComplete :
    ((after (.transmitComplete .c) ((live86 7).setPort .c { (live86 7).portRec .c with
      sending := some .probe, queue := [.setpoint 700] })).portRec .c).sending = some (.setpoint 700) := by decide
/-- Section 5.10: U5 takes what U3 and U4 leave at their zone's lower edge. -/
theorem test_base_shares :
    let s := after (.base (half (-1500)) none) sharing
    (shareOf .u3 s, shareOf .u4 s, shareOf .u5 s, s.alc.shortfall) = (some 700, some 700, some 760, 0) := by decide
/-- Section 5.10: a SETPOINT goes to U3 alone. -/
theorem test_base_emits : (after (.base (half (-1500)) none) sharing).unitOut = [(.c, .setpoint 700)] := by decide
/-- Section 6.8, step 3. -/
theorem test_reg : (after (.reg (half (-1400))) (ramp68.setTgt { ramp68.tgt with reqBase := 4120, plan := 4120, ramped := 4120 })).allocationTarget
    = 3120 := by decide
/-- Section 2.5, step 1. -/
theorem test_levels :
    let s := after (.levels 12100 7025) (clockAt 40 (State.reset.setParams { State.reset.params with headLoss := 25 }))
    (s.head.estimate, s.head.levelTimer, s.head.clamped) = (some 5050, some 160, false) := by decide
/-- Section 1.8, step 1. -/
theorem test_unitHold : posted (after (.unitHold 5 2 (some 800)) held18) .holdAdjusted (some .u5) (some 900) = true := by decide
/-- Section 1.7, step 6. -/
theorem test_unitRelease :
    (after (.unitRelease 3) ((tripped17 (.stable .ss)).setUnit .u3 { (tripped17 (.stable .ss)).unitRec .u3 with trip := false })).automatic .u3
      = true := by decide
/-- Section 1.7, step 1. -/
theorem test_emergencyStop :
    let s := after (.emergencyStop 3) gen17
    (s.unitOut, (s.unitRec .u3).hold.map (·.stopOutstanding)) = ([(.c, .modeOrder .stop none 0)], some true) := by decide
/-- R170: ramp_rate above 200.0 is stored as 200.0. -/
theorem test_configSet : (after (.configSet 1 1 3000 0) State.reset).params.rampRate = 2000 := by decide
theorem test_configGet : lastReply (after (.configGet 1 1 0) State.reset)
    = some (.reply 1 2 2 .ok 0 [1, 0, 0, 0, 50, 0]) := by decide
/-- Section 9.7, step 3: the PLAN load held two rows. -/
theorem test_loadBegin : lastReply (after (.loadBegin 3 4 4) load97) = some (.reply 3 2 3 .ok 0x0902 []) := by decide
/-- Section 9.7, step 4: the P_START timeout of 450 s is stored as 500 s. -/
theorem test_loadRow :
    lastReply (after (.loadRow 4 0 [3, 0, 60, 0, 120, 0x01, 0xC2, 0, 60, 0, 60, 1, 0x2C]) (after (.loadBegin 3 4 4) load97))
      = some (.reply 4 2 4 .clamped 0 [0, 3, 0, 60, 0, 120, 0x01, 0xF4, 0, 60, 0, 60, 1, 0x2C]) := by decide
/-- R169: row 1 is missing. -/
theorem test_loadEnd : lastReply (after (.loadEnd 5) load97) = some (.reply 5 2 5 .incomplete 1 []) := by decide
/-- Section 9.7, step 7. -/
theorem test_loadAbort : lastReply (after (.loadAbort 5) State.reset) = some (.reply 5 2 6 .noLoad 0 []) := by decide
/-- R124: the names' letters are stored upper-case. -/
theorem test_profileDefine :
    (after (.profileDefine 1 [0x61, 0x5F, 0x7A, 0, 0, 0, 0, 0, 0, 0, 0, 0] 2 15 1 (some 5)) State.reset).prf.dir
      = [{ name := [0x41, 0x5F, 0x5A], minutes := 15, rep := true, entries := [5, 5] }] := by decide
theorem test_profileWrite :
    ((after (.profileWrite 1 (nameField ramp3.name) 1 2 [half 7, half (-8)]) lead75).profileNamed ramp3.name).map (·.entries)
      = some [1000, 7, -8] := by decide
theorem test_profileRead : lastReply (after (.profileRead 1 (nameField ramp3.name) 1 2) lead75)
    = some (.reply 1 2 9 .ok 0 [0x0B, 0xB8, 0x05, 0xDC]) := by decide
theorem test_profileDelete : (after (.profileDelete 1 (nameField ramp3.name)) lead75).prf.dir = [eveA] := by decide
theorem test_profileDeleteAll : (after (.profileDeleteAll 1) lead75).prf.dir = [] := by decide
/-- Section 7.5, step 1. -/
theorem test_play :
    let s := after (.play 1 (nameField ramp3.name)) lead75
    s.tgt.reqBase = 3000 ∧ s.tgt.plan = 1000 ∧ s.prf.playback.next = some 20300 ∧ posted s .profileStarted none (some 3) = true := by
  decide
theorem test_stopPlay : (after (.stopPlay 1) (follow76 12800)).prf.playback = .idle := by decide
/-- Section 6.9: the switch at part clock 3000. -/
theorem test_sourceSet : (after (.sourceSet 1 2) stair69).allocationTarget = -2000 := by decide
theorem test_patternSet : lastReply (after (.patternSet 1 (half (-2000)) (half 6000) 16 1) oneUnit)
    = some (.reply 1 2 15 .clamped 0 [0xF8, 0x30, 0x17, 0x70, 0, 20, 1]) := by decide
/-- R160, the fourth condition: U2 has no table. -/
theorem test_enable : lastReply (after (.enable 1) (tabled.setHead { tabled.head with caps := tabled.head.caps.set .u2 none }))
    = some (.reply 1 2 16 .state 6 []) := by decide
theorem test_disable : (after (.disable 1) plant510).pli.part = .standby := by decide
theorem test_resume : lastEvent (after (.resume 1) (await96 false)) = some (.fallbackLeft, none, some 1) := by decide
theorem test_restart : lastEvent (after (.restart 1) plant510) = some (.restarted, none, some 0) := by decide
theorem test_mapSet : ((after (.mapSet 1 3 0) tabled).portRec .c).state = .unused := by decide
/-- Section 8.6, step 5. -/
theorem test_expectSet : ((after (.expectSet 1 3 7) State.reset).unitRec .u3).expected = 7 := by decide
theorem test_rotationSet : (after (.rotationSet 1 [8, 7, 6, 5, 4, 3, 2, 1]) State.reset).ros.rotation
    = [.u8, .u7, .u6, .u5, .u4, .u3, .u2, .u1] := by decide
theorem test_rotate : (after (.rotate 1) State.reset).ros.rotation = [.u2, .u3, .u4, .u5, .u6, .u7, .u8, .u1] := by decide
/-- Section 1.7: CLEAR_UNIT while the unit still reports TRIP. -/
theorem test_clearUnit : lastReply (after (.clearUnit 1 3) (tripped17 .trip)) = some (.reply 1 2 24 .state 0 []) := by decide
/-- Section 1.7, step 5. -/
theorem test_clearUnit_at_standstill : (after (.clearUnit 1 3) (tripped17 (.stable .ss))).dispatchable .u3 = true := by decide
theorem test_releaseResources : lastReply (after (.releaseResources 1 3) tabled) = some (.reply 1 2 25 .notFound 0 []) := by decide
theorem test_lineSet : (after (.lineSet 1 2 0 1) State.reset).ste.m2 = { selection := .boundary, activeLow := true } := by decide
theorem test_statusReq : ((after (.statusReq 1) State.reset).plantOut.map (fun f => match f with
    | .reply _ _ _ _ _ body => body.length
    | .plantStatus _ => 0)) = [50] := by decide
theorem test_unitReq : lastReply (after (.unitReq 1 9) State.reset) = some (.reply 1 3 2 .invalid 1 []) := by decide
theorem test_tableRead : lastReply (after (.tableRead 1 9 1) tabled) = some (.reply 1 3 3 .ok 0 [0x03, 0x20, 0x13, 0x88, 0, 0, 2]) := by decide
/-- Section 10.7, step 2: 56 records left, EVENTS_LOST reported and cleared. -/
theorem test_eventRead :
    let s := after (.eventRead 1) queue107
    (s.ste.events.length, s.ste.eventsLost, s.ste.events.head?.map (·.seq)) = (56, false, some 949) := by decide
theorem test_profileCatalog : (after (.profileCatalog 1 (some 1)) lead75).prf = lead75.prf := by decide
/-- Section 8.6, step 4. -/
theorem test_ident : lastEvent (after (.ident .c 7) (probing86 5)) = some (.portMismatch, some .u3, some 7) := by decide
/-- Section 8.6, step 7. -/
theorem test_status : ((after (.status .c 0 0 1 1 0 0) (live86 7)).portRec .c).liveness = some 10 := by decide
/-- Section 1.7, step 3. -/
theorem test_status_trip :
    let s := after (.status .c 9 0 1 1 0 0) ((tripped17 (.step .stop)).setUnit .u3 { (tripped17 (.step .stop)).unitRec .u3 with trip := false })
    (lastEvent s, s.dispatchable .u3) = (some (.unitTrip, some .u3, none), false) := by decide
/-- Section 8.6, step 9. -/
theorem test_orderAck : ((after (.orderAck .c 0 1 0) (ordered86 121)).req .u3).map (·.state) = some .inStep := by decide
/-- Section 7.6, step 7: a marker in holdover, past half the interval. -/
theorem test_markerInputEdge :
    let s := after (.markerInputEdge true) (follow76 12800)
    s.prf.playback.current = some 2 ∧ s.prf.playback.next = some 13700 ∧ s.tgt.reqBase = 8000
      ∧ posted s .markerRestored none (some 1) = true := by decide
/-- Section 7.6, its last paragraph: a marker 279 s after the boundary. -/
theorem test_markerInputEdge_early :
    let s := after (.markerInputEdge true) (follow76 12400)
    s.prf.playback.current = some 1 ∧ s.prf.playback.next = some 13300 ∧ posted s .markerRestored none (some 0) = true := by decide
/-- Section 6.8, step 5. -/
theorem test_dispatchLivenessExpiry :
    let s := after .dispatchLivenessExpiry fold68
    (s.tgt.reqBase, s.tgt.ramped, s.tgt.plan, s.pli.part) = (2800, 3020, 2800, .fallback .linkDown) := by decide
/-- Section 2.5, step 3. -/
theorem test_levelTimerExpiry :
    lastEvent (after .levelTimerExpiry ((clockAt 220 State.reset).setHead
      { State.reset.head with levels := some (12100, 7025), estimate := some 5050, levelTimer := some 220 }))
      = some (.headStale, none, some 5050) := by decide
/-- Section 3.6, step 6. -/
theorem test_dwellTimerExpiry : (after .dwellTimerExpiry proposed36).pln.selected = some 4 := by decide
theorem test_backoffExpiry :
    ((after (.backoffExpiry .u3) (gen17.setUnit .u3 { gen17.unitRec .u3 with backoff := some 0 })).unitRec .u3).backoff = none := by decide
/-- Section 4.12, step 10: the step timer expires at 5320. -/
theorem test_leadTimerExpiry :
    ((after (.leadTimerExpiry .u1) warned412).req .u1).map (fun r => (r.state, r.stepExpiry)) = some (.ordered, some 5320) := by decide
/-- R71: no acknowledgement by 122 refuses the step, with a backoff of 60 s. -/
theorem test_ackTimerExpiry :
    let s := after (.ackTimerExpiry .u3) (ordered86 122)
    ((s.unitRec .u3).backoff, lastEvent s) = (some 182, some (.stepRefused, some .u3, some (-1))) := by decide
/-- R74. -/
theorem test_stepTimerExpiry :
    let s := after (.stepTimerExpiry .u3) ((ordered86 240).setPort .c { (ordered86 240).portRec .c with liveness := some 300 })
    ((s.unitRec .u3).fault, s.unitOut) = (true, [(.c, .modeOrder .stop none 1)]) := by decide
theorem test_settleTimerExpiry :
    ((after (.settleTimerExpiry .w1) (tabled.updateWaterwayOf .u1 (fun r => { r with settle := some 0 }))).waterwayRec .w1).map (·.settle)
      = some none := by decide
/-- R88: after the first pulse comes the low phase. -/
theorem test_warningPhaseEnd :
    ((after (.warningPhaseEnd .w1) warned412).waterwayRec .w1).bind (·.generator)
      = some { pulse := 1, high := false, began := 5200, tenths := 5 } := by decide
/-- Section 8.6, step 3. -/
theorem test_probeTimerExpiry :
    let s := after (.probeTimerExpiry .c) (probing86 4)
    (s.unitOut, (s.portRec .c).probe) = ([(.c, .probe)], some 6) := by decide
/-- Section 8.6, step 11. -/
theorem test_statusLivenessExpiry :
    let s := after (.statusLivenessExpiry .c) (live86 152)
    ((s.portRec .c).state, (s.portRec .c).probe, lastEvent s) = (.lost, some 154, some (.portLost, some .u3, none)) := by decide
/-- Section 7.5, step 3. -/
theorem test_intervalTimerBoundary :
    let s := after .intervalTimerBoundary (lead75b)
    (s.prf.playback.current, s.tgt.reqBase, s.prf.playback.next) = (some 1, 1500, some 20600) := by decide
/-- Section 7.6, step 6. -/
theorem test_planSwitchingTime :
    (after .planSwitchingTime ((follow76 12721).setPlayback { (follow76 12721).prf.playback with planHanded := false })).tgt.plan
      = 8000 := by decide
theorem test_rampSwitchingTime : (after .rampSwitchingTime (follow76 12901)).tgt.reqBase = 8000 := by decide
/-- Section 7.6, step 5. -/
theorem test_holdoverBoundary :
    let s := after .holdoverBoundary ((follow76 12121).setPlayback { (follow76 12121).prf.playback with
      current := some 0, last := some 11131, next := some 12031, rampHanded := true, markerLost := false })
    (s.prf.playback.next, lastEvent s) = (some 13021, some (.markerLost, none, some 1)) := by decide
/-- Section 6.9, at 3020. -/
theorem test_patternPeriodExpiry : (after .patternPeriodExpiry stair69b).tgt.reqBase = 0 := by decide
theorem test_markerPulseEnd : (after .markerPulseEnd (State.reset.setPrf { State.reset.prf with pulse := some 5 })).prf.pulse = none := by decide
theorem test_unitLinkFrameDiscarded :
    ((after (.unitLinkFrameDiscarded .c) (State.reset.setPort .c { State.reset.portRec .c with framer := some [1] })).portRec .c).framer
      = none := by decide

/-! ## States and operands that meet the hypotheses of each statement, at the edges of their ranges -/

def queued (c : Instr) (s : State) : State := { s with pending := [c] }

/-- U5 of section 1.8 held at 80.0 MW, settled to 90.0 MW. -/
def settled18 : State :=
  held18.setUnit .u5 { held18.unitRec .u5 with
    hold := some { mode := .gen, requested := some 800, settled := some 900, emergency := false, stopOutstanding := false } }

/-- Section 5.10's regulating units in rotation order. -/
def units510 : List RegUnit := [sharing.regUnit .u4, sharing.regUnit .u5, sharing.regUnit .u3]

/-- U1 and U2 pumping with requests toward SS and GEN that wait. -/
def waiting412 : State :=
  let s := heardAt .u1 .a (.stable .pmp) (-1800) (heardAt .u2 .b (.stable .pmp) (-1800) (inPart .dispatching (clockAt 5000 tabled)))
  (s.setReq .u1 (some (Request.new .automatic .gen (pathOf .pmp .gen) 103))).setReq .u2
    (some (Request.new .automatic .ss (pathOf .pmp .ss) 104))

def withEvery (f : WaterwayRow → WaterwayRow) (n : Nat) (settle : Option Word) (s : State) : State :=
  s.updateWaterwayOf .u1 (fun r => { r with row := f r.row, inProgress := n, settle := settle })

theorem meets_StepTakesTheFront :
    (queued (.rotate 1) oneUnit).pending = .rotate 1 :: [] ∧ State.reset.pending = [] := by decide
theorem meets_DecodeOfEncode :
    (Instr.base 0x8000 (some 0xFFFF)).wellFormed = true ∧ (encode (.base 0x8000 (some 0xFFFF))).isSome = true
      ∧ (Instr.profileWrite 255 (nameField eveA.name) 4095 2 [0, 0x7FFF]).wellFormed = true
      ∧ (encode (.profileWrite 255 (nameField eveA.name) 4095 2 [0, 0x7FFF])).isSome = true := by decide
theorem meets_StandbyPlansNothing : tabled.pli.part = .standby ∧ (after (.rotate 1) tabled).pli.part = .standby := by decide
/-- The queue is full, and the step posts an event. -/
theorem meets_StepKeepsTargetsProfilesEvents_queueFull : ∃ t, EventsWf queue107 ∧ step (queued .levelTimerExpiry queue107) = .next t :=
  ⟨_, by unfold EventsWf; decide, rfl⟩

theorem rosterWf_oneUnit : RosterWf oneUnit where
  rotation := by decide
  map := by intro u v; cases u <;> cases v <;> decide
  expected := by intro u; cases u <;> decide

theorem portsWf_oneUnit : PortsWf oneUnit where
  ports := by
    intro p
    cases p <;> exact ⟨by decide, by decide, by decide, by decide, by decide, by decide, by decide⟩
  granted := by intro u r h; cases u <;> cases h

theorem meets_StepKeepsRosterAndPorts :
    ∃ t, RosterWf oneUnit ∧ PortsWf oneUnit ∧ step (queued (.ident .a 9) oneUnit) = .next t :=
  ⟨_, rosterWf_oneUnit, portsWf_oneUnit, rfl⟩

/-- The increment stands at the limit, and the step folds it. -/
theorem meets_StepKeepsTargetsProfilesEvents_fold :
    ∃ t, step (queued .dispatchLivenessExpiry fold68) = .next t ∧ TargetsWf (queued .dispatchLivenessExpiry fold68)
      ∧ ParamsWf fold68.params := by
  refine ⟨_, rfl, ?_, ?_⟩
  · constructor <;> first | (unfold InPlant; decide) | decide
  · constructor <;> first | decide | (unfold ZeroOrLong; decide)

theorem meets_StepKeepsTargetsProfilesEvents :
    ∃ t, step (queued (.markerInputEdge true) (follow76 12800)) = .next t ∧ TargetsWf (follow76 12800)
      ∧ ParamsWf (follow76 12800).params ∧ EventsWf (follow76 12800) ∧ StoreWf (follow76 12800) ∧ PlaybackWf (follow76 12800) := by
  refine ⟨_, rfl, ?_, ?_, by unfold EventsWf; decide, ⟨by decide, by decide, by decide, by decide, by decide⟩,
    ⟨by decide, by decide, by decide, ?_, by decide, by decide⟩⟩
  · constructor <;> first | (unfold InPlant; decide) | decide
  · constructor <;> first | decide | (unfold ZeroOrLong; decide)
  · intro p k hp hk
    cases (show some eveA = some p from hp)
    cases (show some 1 = some k from hk)
    decide

theorem wf_table34 : table34.Wf := ⟨by decide, by decide, by decide, by decide, by decide⟩
theorem wf_table5 : table5.Wf := ⟨by decide, by decide, by decide, by decide, by decide⟩
theorem wf_table2 : table2.Wf := ⟨by decide, by decide, by decide, by decide, by decide⟩

theorem tablesWf_of_tabled {s : State} (hc : s.head.caps = tabled.head.caps) (hp : ∀ rows, s.pln.table = some rows →
      1 ≤ rows.length ∧ rows.length ≤ 24 ∧ ∀ r ∈ rows, r.sound = true)
    (hw : s.trs.waterways = tabled.trs.waterways) (hl : ∀ l, s.pli.load = some l → l.Wf) : TablesWf s where
  caps := by
    intro u t h
    rw [hc] at h
    cases u <;> cases h <;> first | exact wf_table34 | exact wf_table5
  plan := hp
  waterways := by
    intro w r h
    unfold State.waterwayRec at h
    rw [hw] at h
    cases w <;> cases h <;> decide
  load := hl

theorem settledWf_of_noHold {s : State} (h : ∀ u, (s.unitRec u).hold = none) : SettledWf s := by
  intro u x hx; rw [h u] at hx; cases hx

/-- A load that is complete but for a row. -/
theorem meets_StepKeepsTablesAndHolds : ∃ t, step (queued (.loadEnd 5) load97) = .next t ∧ TablesWf load97 ∧ SettledWf load97 := by
  refine ⟨_, rfl, tablesWf_of_tabled rfl ?_ rfl ?_, settledWf_of_noHold (by intro u; cases u <;> rfl)⟩
  · intro rows h; cases h; decide
  · intro l h; cases h; exact ⟨by decide, by decide, by decide, by decide⟩

/-- W1 has its one slot in use. -/
theorem meets_StepKeepsWaterwayCounts :
    ∃ t, WaterwaysWf (ordered86 240) ∧ step (queued (.stepTimerExpiry .u3) (ordered86 240)) = .next t := by
  refine ⟨_, ?_, rfl⟩
  intro w r h
  cases w <;> cases h <;> decide

/-- A hold settled away from its requested setpoint, before the head changes. -/
theorem meets_StepKeepsTablesAndHolds_settled :
    ∃ t, SettledWf settled18 ∧ step (queued (.levels 12100 7025) settled18) = .next t := by
  refine ⟨_, ?_, rfl⟩
  intro u h hu
  cases u <;> cases hu
  decide

/-- Section 5.10's plant under row 0, whose one GEN is U4's. -/
def planned510 : State :=
  plant510.setPln { plant510.pln with table := some planRows, selected := some 0, desired := (SlotMap.const (some .ss)).set .u4 (some .gen) }

theorem rosterWf_plant510 (s : State) (h : s.ros = plant510.ros) : RosterWf s where
  rotation := by rw [h]; decide
  map := by intro u v; unfold State.unitRec; rw [h]; cases u <;> cases v <;> decide
  expected := by intro u; unfold State.unitRec; rw [h]; cases u <;> decide

theorem meets_StepKeepsPlan : ∃ t, RosterWf planned510 ∧ PlanWf planned510 ∧ step (queued (.unitHold 3 2 none) planned510) = .next t :=
  ⟨_, rosterWf_plant510 _ rfl,
    { standby := by decide
      selected := by decide
      proposed := by intro p rows h; cases h
      automatic := by intro u d; cases u <;> intro _ <;> decide
      given := by intro _ u; cases u <;> decide
      counts := by intro row h; cases h; decide
      short := by decide }, rfl⟩

/-- Two requests that wait for the one slot of their waterway, which the step frees. -/
theorem meets_StepKeepsGrants :
    ∃ t, OrphansWf (withEvery id 1 none waiting412) ∧ GrantsWf (withEvery id 1 none waiting412)
      ∧ step (queued (.enable 1) (withEvery id 1 none waiting412)) = .next t := by
  refine ⟨_, ?_, ?_, rfl⟩
  · intro u o h; cases u <;> cases h
  · rintro - u r st w q hr - hst hw hq - ⟨-, -, -, -, hf, -⟩
    cases u <;> cases hr <;> cases hst <;> cases hw <;> cases hq <;> exact absurd (hf rfl).1 (by decide)

/-- Section 5.10 just after its allocation. -/
def shared510 : State := (sharing.setTgt { sharing.tgt with ramped := -1500 }).allocate

theorem meets_StepKeepsAllocation :
    ∃ t, RosterWf shared510 ∧ ParamsWf shared510.params ∧ AllocationWf shared510 ∧ step (queued (.rotate 1) shared510) = .next t := by
  refine ⟨_, ⟨by decide, ?_, ?_⟩, ?_,
    fun _ => ⟨shared510.ros.rotation, shared510.params.deadband, by decide, by decide, by decide, ?_⟩, rfl⟩
  · intro u v; cases u <;> cases v <;> decide
  · intro u; cases u <;> decide
  · constructor <;> first | decide | (unfold ZeroOrLong; decide)
  · intro a u ha
    have h : ∀ u, (shared510.alc.last.all (fun a => emits (shared510.limits u) shared510.params.deadband
        ((shared510.unitRec u).lastSetpoint.map (·.value)) (a.shares.get u).value == false
          || !((a.shares.get u).line == .regulating || (a.shares.get u).line == .genHeld))) = true := by
      intro u; cases u <;> decide
    intro _ hl
    have := h u
    rw [ha] at this
    rcases hl with hl | hl <;> simpa [hl] using this

/-- No shortfall, one below 0, and one above 0. -/
theorem meets_AllocationBalances :
    sharing.ros.rotation.Perm Slot.all
      ∧ sharing.ros.rotation.filter (fun u => (sharing.allocation.shares.get u).line == .regulating) = [.u4, .u5, .u3]
      ∧ (sharing.setTgt { sharing.tgt with ramped := -32000 }).allocate.alc.lowSat = true
      ∧ (sharing.setTgt { sharing.tgt with ramped := 32000 }).allocate.alc.highSat = true
      ∧ (sharing.setTgt { sharing.tgt with ramped := 32000 }).allocate.alc.shortfall ≠ 0
      ∧ sharing.reported .u1 = some (.stable .pmp) ∧ sharing.reported .u6 = some (.stable .cnd)
      ∧ sharing.reported .u7 = some (.stable .ss) ∧ (sharing.dispatchable .u3 = true ∧ (sharing.unitRec .u3).hold = none)
      ∧ ((settled18.unitRec .u5).hold.bind (·.settled)) = some 900 ∧ settled18.dispatchable .u5 = true
      ∧ State.reset.portState .u1 ≠ .qualified ∧ ((ordered86 121).req .u3).map (·.state) = some .ordered := by decide

/-- U3 at the lower edge of its zone, U5 without one. -/
theorem meets_SetpointsAreLawful :
    let s := sharing.setTgt { sharing.tgt with ramped := -1500 }
    TablesWf s ∧ SettledWf s ∧ s.ros.rotation.Perm Slot.all ∧ (∀ v, s.regulates v = true → (s.record v).isSome = true)
      ∧ (s.record .u3).isSome = true ∧ (s.allocation.shares.get .u3).line = .regulating
      ∧ (s.allocation.shares.get .u3).value = 700 := by
  refine ⟨tablesWf_of_tabled rfl ?_ rfl ?_, ?_, by decide, ?_, by decide, by decide, by decide⟩
  · intro rows h; cases h; decide
  · intro l h; cases h
  · intro u h hu; cases u <;> cases hu
  · intro v _; cases v <;> decide

theorem meets_SharesBeforeZones :
    units510 ≠ [] ∧ (∀ q ∈ units510, q.Wf) ∧ (sumMin units510, sumMax units510) = (1100, 6200)
      ∧ sumMin units510 ≤ 1100 ∧ (1100 : Int) ≤ sumMax units510 ∧ sumMin units510 ≤ 6200 ∧ (6200 : Int) ≤ sumMax units510 := by
  refine ⟨by decide, ?_, by decide, by decide, by decide, by decide, by decide⟩
  intro q hq
  simp only [units510, List.mem_cons, List.not_mem_nil, or_false] at hq
  obtain rfl | rfl | rfl := hq <;> refine ⟨by decide, ?_⟩ <;> intro z hz <;> cases hz <;> decide

theorem meets_SaturationRule :
    (∀ q ∈ units510, q.moved = false) ∧ (1099 : Int) < sumMin units510 ∧ sumMax units510 < 6201
      ∧ (1100 : Int) = sumMin units510 ∧ (6200 : Int) = sumMax units510 := by decide

/-- Section 5.10 after its zones: U4 and U3 moved to the lower edge. -/
def moved510 : List RegUnit :=
  [{ sharing.regUnit .u4 with share := 700, moved := true }, { sharing.regUnit .u5 with share := 611 },
   { sharing.regUnit .u3 with share := 700, moved := true }]

theorem meets_ZonesAndAbsorption :
    moved510.map (fun q => (q.slot, q.share, q.moved))
        = (sharesBeforeZones 2160 units510).map (fun q => (q.slot, q.leaveZone.share, q.leaveZone.moved))
      ∧ ∀ q ∈ moved510, q.Wf ∧ q.Lawful := by
  refine ⟨by decide, ?_⟩
  intro q hq
  simp only [moved510, List.mem_cons, List.not_mem_nil, or_false] at hq
  obtain rfl | rfl | rfl := hq <;> refine ⟨⟨by decide, ?_⟩, by decide, by decide, ?_⟩ <;> intro z hz <;> cases hz <;> decide

theorem meets_AllocationEmits :
    let s := sharing.setTgt { sharing.tgt with ramped := -1500 }
    (s.unitRec .u3).port = some .c ∧ (s.allocation.shares.get .u3).line = .regulating
      ∧ emits (s.limits .u3) s.params.deadband ((s.unitRec .u3).lastSetpoint.map (·.value)) (s.allocation.shares.get .u3).value = true
      ∧ (s.unitRec .u5).port = some .e
      ∧ emits (s.limits .u5) s.params.deadband ((s.unitRec .u5).lastSetpoint.map (·.value)) (s.allocation.shares.get .u5).value
        = false
      ∧ (s.unitRec .u3).lastSetpoint.map (·.value) = some 750 ∧ (s.allocation.shares.get .u3).value = 700
      ∧ (s.limits .u3).zone = some (700, 1000) := by decide

/-- At, before, between and beyond the breakpoint heads. -/
theorem meets_InterpolationRule :
    table2.Wf ∧ (∀ b, table2.points.head? = some b → 4799 < b.head) ∧ (∀ b, table2.points.getLast? = some b → b.head < 5601)
      ∧ (∃ b ∈ table2.points, 4800 = b.head)
      ∧ ∃ a b, table2.points[0]? = some a ∧ table2.points[1]? = some b ∧ a.head < 4801 ∧ 4801 < b.head :=
  ⟨wf_table2, by intro b h; cases h; decide, by intro b h; cases h; decide, by decide, _, _, rfl, rfl, by decide, by decide⟩

theorem meets_LongTimerCoding : 1 ≤ 1 ∧ (1500 : Nat) ≤ 1500 ∧ (1500 : Nat) < 1501 := by decide

/-- The planning target at the edges of the selected row. -/
theorem meets_RowSelectionRule_within :
    let s := proposed36.setTgt { proposed36.tgt with plan := 6000 }
    ∃ row, s.pln.table = some rows36 ∧ s.pln.selected = some 3 ∧ rows36[3]? = some row ∧ row.lower ≤ s.tgt.plan
      ∧ s.tgt.plan ≤ row.upper ∧ row.lower ≤ (0 : Int) := by
  refine ⟨_, rfl, rfl, rfl, ?_⟩; decide

/-- Beyond every row, in a row with none selected, in a row newly proposed, and in the proposed one. -/
theorem meets_RowSelectionRule :
    proposed36.pln.table = some rows36
      ∧ (∀ k row, proposed36.pln.selected = some k → rows36[k]? = some row →
          ¬ (row.lower ≤ proposed36.tgt.plan ∧ proposed36.tgt.plan ≤ row.upper))
      ∧ (∀ row ∈ rows36, ¬ (row.lower ≤ (12001 : Int) ∧ (12001 : Int) ≤ row.upper))
      ∧ (∃ row, rows36[4]? = some row ∧ row.lower ≤ proposed36.tgt.plan ∧ proposed36.tgt.plan ≤ row.upper)
      ∧ proposed36.pln.selected.isSome = true ∧ proposed36.pln.proposal.map (·.row) = some 4
      ∧ proposed36.params.dwell ≠ 0 ∧ State.reset.pln.selected = none := by
  refine ⟨rfl, ?_, by decide, ⟨_, rfl, by decide⟩, by decide, by decide, by decide, rfl⟩
  intro k row hk hr
  cases (show some 3 = some k from hk)
  cases hr
  decide

theorem meets_PathTable : pathOf .gen .pmp = { kind := .stop, origin := .gen } :: pathOf .ss .pmp := rfl
theorem meets_TransitionQueueOrder :
    waiting412.queue = [.u1, .u2] ∧ (waiting412.req .u1).map (fun r => (r.state, r.cls, r.entry)) = some (.waiting, .automatic, 103)
      ∧ (waiting412.req .u2).map (fun r => (r.state, r.cls, r.entry)) = some (.waiting, .automatic, 104)
      ∧ Slot.all.all (fun u => (waiting412.req u).all (fun r => decide ((r.entry - 0).toNat < 0x80000000))) = true := by decide
/-- A good frame and one with a bad CRC, lengths 240 and 241, a byte count just short, and a frame to be sent. -/
theorem meets_LinkEvents :
    (∃ x y, frameOf [0, 2, 23, 9] = 0xA5 :: 0 :: [2, 23, 9, x, y].take (3 + 0 + 2)) ∧ 3 + 0 + 2 ≤ [2, 23, 9, 0, 0].length
      ∧ frameOf [0, 2, 23, 9] ≠ 0xA5 :: 0 :: ([2, 23, 9, 0, 0] : List Byte).take (3 + 0 + 2)
      ∧ ([2, 23, 9, 0] : List Byte).length < 3 + 0 + 2 ∧ (240 : Byte).toNat ≤ 240 ∧ 240 < (241 : Byte).toNat ∧ (0 : Byte) ≠ 0xA5
      ∧ ((live86 7).portRec .c).sending = none
      ∧ ((after (.probeTimerExpiry .c) (probing86 4)).portRec .c).sending = some .probe
      ∧ ((after (.probeTimerExpiry .c) (probing86 4)).portRec .c).queue = [] :=
  ⟨⟨_, _, rfl⟩, by decide, by decide, by decide, by decide, by decide, by decide, by decide, by decide, by decide⟩

/-- A request in WARNING toward CND, whose first step is also the first toward PMP. -/
def warnedCnd : State :=
  warned412.setReq .u1 (some { Request.new .manual .cnd (pathOf .ss .cnd) 0 with state := .warning })

theorem meets_UnitHoldFrame :
    slotOfCode 9 = none ∧ stableOfCode 1 = none ∧ slotOfCode 8 = some .u8 ∧ stableOfCode 6 = some .pmp
      ∧ (∃ h, ((tripped17 .trip).unitRec .u3).hold = some h ∧ h.emergency = true)
      ∧ (∀ h, (settled18.unitRec .u5).hold = some h → h.emergency = false)
      ∧ settled18.pli.part ≠ .standby ∧ settled18.known .u5 = some .gen
      ∧ (∀ h, (warned412.unitRec .u1).hold = some h → h.emergency = false) ∧ warned412.returns = false
      ∧ (warned412.req .u1).map (fun r => (r.state, r.dest)) = some (.warning, .gen) ∧ warned412.known .u1 = some .ss
      ∧ (warnedCnd.req .u1).bind Request.current = (pathOf .ss .pmp).head? ∧ (pathOf .ss .pmp).head?.isSome = true
      ∧ (warned412.req .u1).bind Request.current ≠ (pathOf .ss .pmp).head? := by
  refine ⟨rfl, rfl, rfl, rfl, ⟨_, rfl, rfl⟩, ?_, by decide, by decide, ?_, by decide⟩
  · intro h hh; cases hh; rfl
  · intro h hh; cases hh; rfl
theorem meets_UnitReleaseFrame :
    slotOfCode 0 = none ∧ slotOfCode 1 = some .u1 ∧ (oneUnit.unitRec .u1).hold = none
      ∧ ((tripped17 .trip).unitRec .u3).hold.isSome = true
      ∧ ∃ o, ((ordered86 121).portRec .c).outstanding = some o ∧ ((ordered86 121).unitRec .u3).port = some .c := by
  refine ⟨rfl, rfl, rfl, rfl, _, rfl, rfl⟩
/-- A slot to which STOP goes, one already held so, and codes of all slots and of none. -/
theorem meets_EmergencyStopFrame :
    slotOfCode 9 = none ∧ (9 : Byte) ≠ 0 ∧ slotOfCode 3 = some .u3
      ∧ gen17.portState .u3 = .qualified ∧ gen17.reported .u3 = some (.stable .gen) ∧ (gen17.unitRec .u3).hold = none
      ∧ ((tripped17 .trip).unitRec .u3).hold.any (·.emergency) = true ∧ (gen17.unitRec .u3).port = some .c := by decide

theorem meets_ReadingRequests :
    paramOfCode 0 0 = .error 1 ∧ paramOfCode 21 9 = .error 3 ∧ paramOfCode 1 0 = .ok .rampRate ∧ slotOfCode 9 = none ∧ slotOfCode 8 = some .u8
      ∧ tabled.tableRow 9 2 = none ∧ (tabled.tableRow 9 1).isSome = true
      ∧ nameOfField [] = none ∧ nameOfField (nameField ramp3.name) = some ramp3.name
      ∧ lead75.profileNamed [0x41] = none ∧ lead75.profileNamed ramp3.name = some ramp3
      ∧ ramp3.entries.length < 2 + 2 ∧ 1 + 2 ≤ ramp3.entries.length ∧ (16 : Byte).toNat ≤ 16 ∧ 16 < (17 : Byte).toNat := by decide
theorem meets_BodyLayouts :
    plant510.ros.rotation.length = 8 ∧ ((11 : Byte) = 0 ∨ 11 < (12 : Byte).toNat) ∧ ramp3.name.length ≤ 12
      ∧ (∀ n, lead75b.prf.playback.profile = some n → n.length ≤ 12) := by
  refine ⟨rfl, by decide, by decide, ?_⟩
  intro n hn; cases hn; decide
/-- A refused value, one held already, one refused by its owner, and one stored; and an advance of each kind due. -/
theorem meets_ConfigSetStores :
    paramOfCode 0 0 = .error 1 ∧ paramOfCode 22 0 = .error 1 ∧ paramOfCode 21 0 = .error 3 ∧ paramOfCode 21 9 = .error 3
      ∧ paramOfCode 1 0 = .ok .rampRate ∧ paramOfCode 20 0 = .ok .autoResume ∧ paramOfCode 21 1 = .ok (.ackMode .a)
      ∧ paramOfCode 21 8 = .ok (.ackMode .h) ∧ paramOfCode 16 0 = .ok .markerMode ∧ Param.markerMode.store 2 = none ∧ Param.markerMode.store 1 = some 1
      ∧ (follow76 12800).held .markerMode = 1 ∧ (follow76 12800).prf.playback.state = .playing ∧ Param.markerMode.store 0 = some 0
      ∧ State.reset.held .markerMode ≠ 1 ∧ State.reset.prf.playback.state = .idle
      ∧ Param.planAdvance.store 300 = some 300 ∧ (follow76 12721).playing = some eveA ∧ (follow76 12721).tgt.source = .profile
      ∧ (follow76 12721).prf.playback.nextEntry eveA = some 2 ∧ (follow76 12721).prf.playback.next = some 13021
      ∧ reached (follow76 12721).clock (13021 - BitVec.ofNat 32 (min 300 900)) = true
      ∧ Param.rampAdvance.store 120 = some 120 ∧ (follow76 12901).prf.playback.rampHanded = false
      ∧ reached (follow76 12901).clock (13021 - BitVec.ofNat 32 (min 120 900)) = true := by decide
theorem meets_LoadsFillTheBuffer :
    tablePosOfCode 11 = none ∧ tablePosOfCode 10 = some .waterway ∧ oneUnit.pli.part ≠ .standby ∧ tabled.pli.part = .standby
      ∧ tablePosOfCode 9 = some .plan ∧ tablePosOfCode 1 = some (.cap .u1) ∧ State.reset.pli.load = none
      ∧ load97.pli.load.isSome = true
      ∧ TablePos.plan.readRow 2 [0xFC, 0x18, 0, 100, 0, 0, 1]
          = some (.plan { lower := -1000, upper := 100, nPmp := 0, nCnd := 0, nGen := 1 }, false)
      ∧ TablePos.plan.readRow 2 [0] = none ∧ load97.pli.load.map (·.rows.map (·.1)) = some [0, 2]
      ∧ (List.replicate 8 (1 : Byte)).length = 8 := by decide

def loadOf (pos : TablePos) (rs : List Row) (s : State) : State :=
  s.setPli { s.pli with load := some { pos := pos, count := rs.length, rows := rs.mapIdx Prod.mk } }

/-- A load with a row missing, one whose second row fails, one of each kind that passes, and a busy waterway. -/
theorem meets_LoadEndCommits :
    (∃ l, load97.pli.load = some l ∧ l.row 1 = none ∧ ∀ j, j < 1 → (l.row j).isSome = true)
      ∧ (∃ l, (loadOf .plan [.plan planRow1, .plan { planRow1 with lower := 2000 }] tabled).pli.load = some l
          ∧ (∀ j, j < l.count → (l.row j).isSome = true) ∧ l.passes 1 = false ∧ ∀ j, j < 1 → l.passes j = true)
      ∧ table2.Wf ∧ (∀ r ∈ planRows, r.sound = true) ∧ (∀ r ∈ [wayRow, wayRow, wayRow, wayRow], r.sound = true)
      ∧ (∀ n ∈ ([1, 1, 2, 2, 3, 3, 4, 4] : List Byte), 1 ≤ n.toNat ∧ n.toNat ≤ 4)
      ∧ (∀ w r, tabled.waterwayRec w = some r → r.inProgress = 0)
      ∧ ∃ w r, (ordered86 121).waterwayRec w = some r ∧ r.inProgress ≠ 0 := by
  refine ⟨⟨_, rfl, by decide⟩, ⟨_, rfl, by decide⟩, wf_table2, by decide, by decide, by decide, ?_, .w1, _, rfl, by decide⟩
  intro w r h; cases w <;> cases h <;> rfl

theorem meets_ProfilesDefinedAndWritten :
    nameOfField [0x20] = none ∧ nameOfField (nameField eveA.name) = some eveA.name
      ∧ State.reset.profileNamed eveA.name = none ∧ State.reset.prf.dir.length < 16 ∧ State.reset.entriesHeld + 4096 ≤ 4096
      ∧ (lead75.profileNamed eveA.name).isSome = true ∧ 4096 < lead75.entriesHeld + 4090
      ∧ lead75.profileNamed eveA.name = some eveA ∧ 2 + 2 ≤ eveA.entries.length ∧ eveA.entries.length < 3 + 2
      ∧ (lead75.prf.dir.map (·.name)).Nodup := by decide
theorem meets_ProfilesDeleted :
    nameOfField [] = none ∧ lead75.profileNamed [0x41] = none ∧ lead75.profileNamed eveA.name = some eveA
      ∧ (follow76 12800).prf.playback.profile = some eveA.name ∧ (follow76 12800).prf.playback.state = .playing
      ∧ (follow76 12800).profileNamed ramp3.name = some ramp3 ∧ lead75.prf.playback.state = .idle
      ∧ State.reset.prf.dir = [] ∧ State.reset.prf.playback = .idle := by decide
theorem meets_PlayAndStop :
    nameOfField [] = none ∧ lead75.profileNamed ramp3.name = some ramp3 ∧ lead75.params.markerMode = .lead ∧ lead75.inFallback = false
      ∧ ramp3.minutes ≤ 60 ∧ (follow76 12800).params.markerMode = .follow ∧ (follow76 12800).inFallback = false
      ∧ (inPart (.fallback .linkDown) lead75).inFallback = true ∧ lead75.tgt.source = .profile := by decide

def eve (b : Playback) (t : Nat) : State := (follow76 t).setPlayback b
def armedEve : Playback := { Playback.idle with profile := some eveA.name, state := .armed }
def alignedEve : Playback := { armedEve with state := .aligned, last := some 10230, next := some 11130 }
def playingEve (lost : Bool) : Playback :=
  { alignedEve with state := .playing, current := some 3, last := some 10230, next := some 11130, markerLost := lost }

/-- No counted marker, an armed, an aligned and a playing record, and holdover at half the interval and just before. -/
theorem meets_MarkerEdges :
    (follow76 12800).params.markerMode = .follow ∧ (follow76 12800).params.markerPolarity = .pos
      ∧ (follow76 12800).params.markerDivider ≤ (follow76 12800).prf.divider + 1 ∧ lead75.params.markerMode ≠ .follow
      ∧ (eve armedEve 10230).playing = some eveA ∧ (eve alignedEve 11130).playing = some eveA ∧ eveA.minutes ≤ 60
      ∧ (playingEve false).nextEntry eveA = none ∧ alignedEve.nextEntry eveA = some 0
      ∧ 30 * eveA.minutes ≤ elapsed (eve (playingEve true) 10680).clock 10230
      ∧ elapsed (eve (playingEve true) 10679).clock 10230 < 30 * eveA.minutes := by decide
/-- At the time of each, and a second before. -/
theorem meets_ClockedBoundaries :
    lead75b.params.markerMode = .lead ∧ lead75b.playing = some ramp3 ∧ timerDue lead75b.clock lead75b.prf.playback.next = true
      ∧ timerDue (clockAt 20299 lead75b).clock lead75b.prf.playback.next = false
      ∧ lead75b.params.planAdvance < 60 * ramp3.minutes ∧ 60 * ramp3.minutes ≤ lead75b.params.rampAdvance
      ∧ reached (eve (playingEve false) 11220).clock (later 11130 (6 * eveA.minutes)) = true
      ∧ reached (eve (playingEve false) 11219).clock (later 11130 (6 * eveA.minutes)) = false
      ∧ reached (eve (playingEve true) 11130).clock 11130 = true
      ∧ (follow76 12721).prf.playback.nextEntry eveA = some 2 ∧ (follow76 12901).prf.playback.rampHanded = false
      ∧ reached (follow76 12901).clock (13021 - BitVec.ofNat 32 (min 120 900)) = true
      ∧ alignedEve.planHanded = false ∧ reached (eve alignedEve 10830).clock (11130 - BitVec.ofNat 32 (min 300 900)) = true
      ∧ (follow76 12900).duePlan = none ∧ (follow76 12900).dueRamp = none := by decide
theorem meets_SourceChanges :
    sourceOfCode 3 = none ∧ sourceOfCode 0 = some .direct ∧ sourceOfCode 1 = some .profile ∧ sourceOfCode 2 = some .pattern
      ∧ stair69.tgt.source = .direct ∧ lead75.tgt.source = .profile ∧ stair69.inFallback = false
      ∧ (await96 false).inFallback = true := by decide
theorem meets_PatternRuns :
    shapeOfCode 2 = none ∧ shapeOfCode 0 = some .square ∧ shapeOfCode 1 = some .stair ∧ stair69.tgt.source ≠ .pattern
      ∧ stair69b.tgt.source = .pattern ∧ stair69b.inFallback = false ∧ (inPart (.fallback .linkDown) stair69b).inFallback = true
      ∧ stair69.tgt.run = none ∧ stair69b.tgt.run = some { pos := 0, expiry := 3020 }
      ∧ reached stair69b.clock 3020 = true ∧ reached (clockAt 3019 stair69b).clock 3020 = false := by decide

/-- The part in STANDBY with U3's G_START still under order, and U1 held in GEN without a request. -/
def leftover86 : State :=
  let s := heardAt .u1 .a (.stable .ss) 0 (inPart .standby (ordered86 121))
  s.setUnit .u1 { s.unitRec .u1 with
    hold := some { mode := .gen, requested := none, settled := none, emergency := false, stopOutstanding := false } }

theorem meets_EnableStarts_leftover :
    leftover86.pli.part = .standby ∧ leftover86.underOrder .u3 = true ∧ (leftover86.unitRec .u1).hold.isSome = true
      ∧ leftover86.req .u1 = none ∧ leftover86.known .u1 = some .ss ∧ leftover86.ros.rotation.Perm Slot.all := by decide

/-- Each condition unmet alone, and all of them met. -/
theorem meets_EnableStarts :
    oneUnit.pli.part ≠ .standby ∧ tabled.pli.part = .standby ∧ State.reset.headInUse = none ∧ tabled.headInUse.isSome = true
      ∧ tabled.pln.table = some planRows ∧ State.reset.pln.table = none ∧ State.reset.trs.waterways = none
      ∧ tabled.trs.waterways.isSome = true
      ∧ (∀ u, ¬ ((tabled.unitRec u).port.isSome = true ∧ tabled.head.caps.get u = none))
      ∧ (State.reset.unitRec .u1).port.isSome = true ∧ State.reset.head.caps.get .u1 = none := by
  refine ⟨by decide, by decide, by decide, by decide, by decide, by decide, by decide, by decide, ?_, by decide, by decide⟩
  intro u; cases u <;> decide
theorem meets_DisableAndResume :
    tabled.pli.part = .standby ∧ (await96 false).pli.part = .fallback .awaitResume ∧ oneUnit.pli.part ≠ .standby
      ∧ oneUnit.pli.part ≠ .fallback .awaitResume := by decide
/-- A port taken from a QUALIFIED slot, one given, one in use, one kept. -/
theorem meets_MapExpectLines :
    slotOfCode 0 = none ∧ slotOfCode 1 = some .u1 ∧ (portOfCode 8).isSome = true ∧ (portOfCode 9).isSome = false
      ∧ (inPart .standby oneUnit).pli.part = .standby ∧ (oneUnit.unitRec .u1).port = some .a
      ∧ (oneUnit.portRec .a).state = .qualified ∧ (oneUnit.unitRec .u2).port = some .b ∧ portOfCode 2 = some .b
      ∧ selectionOfCode 8 = none ∧ selectionOfCode 7 = some .forcedHigh := by decide
/-- The port taken is QUALIFIED, with a request under order. -/
theorem meets_MapExpectLines_underOrder :
    RosterWf leftover86 ∧ leftover86.pli.part = .standby ∧ (leftover86.unitRec .u3).port = some .c
      ∧ (leftover86.portRec .c).state = .qualified ∧ leftover86.underOrder .u3 = true ∧ portOfCode 0 = none := by
  refine ⟨⟨by decide, ?_, ?_⟩, by decide, by decide, by decide, by decide, by decide⟩
  · intro u v; cases u <;> cases v <;> decide
  · intro u; cases u <;> decide
theorem meets_RotationChanges :
    slotOfCode 9 = none ∧ ([.u8, .u7, .u6, .u5, .u4, .u3, .u2, .u1] : List Slot).Nodup
      ∧ ([8, 7, 6, 5, 4, 3, 2, 1] : List Byte) = [Slot.u8, .u7, .u6, .u5, .u4, .u3, .u2, .u1].map slotCode
      ∧ State.reset.ros.rotation = .u1 :: [.u2, .u3, .u4, .u5, .u6, .u7, .u8] := by decide

def orphaned : State := tabled.setOrphan .u3 (some { conv := some .c1, slotHeld := true, place := true })

theorem meets_MarksAndResources :
    slotOfCode 9 = none ∧ ((tripped17 .trip).unitRec .u3).trip = true ∧ (tripped17 .trip).reported .u3 ≠ some (.stable .ss)
      ∧ (tripped17 (.stable .ss)).reported .u3 = some (.stable .ss)
      ∧ timerDue (clockAt 60 oneUnit).clock (some 60) = true ∧ timerDue (clockAt 59 oneUnit).clock (some 60) = false
      ∧ (orphaned.orphan .u3).isSome = true ∧ orphaned.waterwayOf .u3 = some .w1 ∧ (orphaned.waterwayRec .w1).isSome = true
      ∧ (tabled.orphan .u3).isSome = false := by decide
theorem meets_IdentFrames :
    (probing86 5).slotOf .c = some .u3 ∧ ((probing86 5).portRec .c).state = .probing ∧ ((probing86 5).unitRec .u3).expected = 3
      ∧ ((live86 7).portRec .c).state = .qualified ∧ ((live86 7).unitRec .u3).expected = 7
      ∧ ((after (.ident .c 7) (probing86 5)).portRec .c).state = .mismatch
      ∧ (after (.mapSet 1 3 0) tabled).slotOf .c = none
      ∧ (ordered86 121).slotOf .c = some .u3 ∧ ((ordered86 121).portRec .c).state = .qualified
      ∧ ((ordered86 121).unitRec .u3).expected ≠ 9 ∧ ((ordered86 121).req .u3).bind Request.left = none
      ∧ (warned412.unitRec .u1).hold.map (fun h => (h.emergency, h.mode)) = some (false, .gen)
      ∧ ((warned412.req .u1).bind Request.left).map (·.dest) = some .gen
      ∧ (warned412.req .u1).map Request.granted = some true := by decide
theorem meets_StatusFrames :
    reportedOfCode 10 = none ∧ reportedOfCode 9 = some .trip ∧ yesNoOfCode 2 = none ∧ yesNoOfCode 1 = some true
      ∧ yesNoOfCode 0 = some false ∧ (live86 7).slotOf .c = some .u3 ∧ ((live86 7).portRec .c).state = .qualified
      ∧ ((probing86 5).portRec .c).state ≠ .qualified := by decide

def withHolder (h : Holder) (s : State) : State := s.setHolder .c1 (some h)

/-- An orphan record, a converter observed, one named while another slot holds it, and STOP to be sent under an emergency hold. -/
theorem meets_StatusFrames_resources :
    (heardAt .u3 .c .trip 0 orphaned).orphan .u3 = some { conv := some .c1, slotHeld := true, place := true }
      ∧ ((heardAt .u3 .c .trip 0 orphaned).portRec .c).state = .qualified ∧ orphaned.waterwayOf .u3 = some .w1
      ∧ (withHolder { slot := .u3, kind := .observed } (live86 7)).holder .c1 = some { slot := .u3, kind := .observed }
      ∧ (withHolder { slot := .u1, kind := .granted } (live86 7)).holder .c1 = some { slot := .u1, kind := .granted }
      ∧ convOfCode 1 = some .c1 ∧ (live86 7).holder .c1 = none ∧ (live86 7).req .u3 = none
      ∧ ((tripped17 (.stable .gen)).unitRec .u3).hold.any (fun h => h.emergency && !h.stopOutstanding) = true
      ∧ (tripped17 (.stable .gen)).req .u3 = none ∧ Reported.running (.stable .gen) = true := by decide

def orderedFor (q : Purpose) : State :=
  (ordered86 121).setPort .c { (ordered86 121).portRec .c with outstanding := some { tag := 255, kind := .stop, purpose := q } }

theorem meets_Acknowledgements :
    ((ordered86 121).portRec .c).state = .qualified ∧ (ordered86 121).slotOf .c = some .u3
      ∧ ((ordered86 121).portRec .c).outstanding = some { tag := 0, kind := .gStart, purpose := .supervised }
      ∧ ((ordered86 121).req .u3).map (·.state) = some .ordered
      ∧ ((orderedFor .emergency).portRec .c).outstanding = some { tag := 255, kind := .stop, purpose := .emergency }
      ∧ ((orderedFor .timeoutStop).portRec .c).outstanding = some { tag := 255, kind := .stop, purpose := .timeoutStop }
      ∧ ((live86 7).portRec .c).outstanding = none ∧ (oneUnit.req .u1).isNone = true
      ∧ timerDue (ordered86 122).clock (some 122) = true ∧ timerDue (ordered86 121).clock (some 122) = false
      ∧ (ordered86 121).params.refusalBackoff ≠ 0 ∧ Param.refusalBackoff.store 0 = some 0 := by decide
theorem meets_PlantTimers :
    timerDue fold68.clock fold68.pli.liveness = true ∧ timerDue (clockAt 2005 fold68).clock fold68.pli.liveness = false
      ∧ fold68.pli.part = .dispatching ∧ (await96 false).inFallback = true ∧ tabled.pli.part = .standby
      ∧ timerDue proposed36.clock (proposed36.pln.proposal.map (·.expiry)) = true
      ∧ timerDue (clockAt 1069 proposed36).clock (proposed36.pln.proposal.map (·.expiry)) = false
      ∧ State.reset.waterwayRec .w1 = none ∧ (tabled.waterwayRec .w1).isSome = true
      ∧ ((warned412.waterwayRec .w1).bind (·.generator)).isSome = true := by decide
theorem meets_StepTimers :
    (warned412.req .u1).map (fun r => (r.state, r.leadExpiry)) = some (.warning, some 5200)
      ∧ timerDue warned412.clock (some 5200) = true ∧ timerDue (clockAt 5199 warned412).clock (some 5200) = false
      ∧ (warned412.req .u1).bind Request.current = some { kind := .gStart, origin := .ss } ∧ (warned412.unitRec .u1).port = some .a
      ∧ ((ordered86 240).req .u3).map (fun r => (r.state, r.stepExpiry, r.slotHeld)) = some (.ordered, some 240, true)
      ∧ timerDue (ordered86 240).clock (some 240) = true ∧ ((ordered86 240).portRec .c).state = .qualified
      ∧ ((ordered86 240).waterwayRec .w1).map (fun q => (q.row.settle, q.inProgress)) = some (30, 1)
      ∧ (ordered86 240).waterwayOf .u3 = some .w1 := by decide
theorem meets_PortTimers :
    ((probing86 4).portRec .c).state = .probing ∧ timerDue (probing86 4).clock ((probing86 4).portRec .c).probe = true
      ∧ timerDue (probing86 3).clock ((probing86 3).portRec .c).probe = false
      ∧ ((clockAt 2 tabled).portRec .c).state = .down ∧ timerDue (clockAt 2 tabled).clock ((clockAt 2 tabled).portRec .c).probe = true
      ∧ ((live86 152).portRec .c).state = .qualified ∧ timerDue (live86 152).clock ((live86 152).portRec .c).liveness = true
      ∧ timerDue (live86 151).clock ((live86 151).portRec .c).liveness = false ∧ (live86 152).slotOf .c = some .u3 := by decide
theorem meets_StepSupervision :
    ((ordered86 121).req .u3).map (·.state) = some .ordered
      ∧ ((ordered86 121).req .u3).bind Request.current = some { kind := .gStart, origin := .ss }
      ∧ ((ordered86 121).req .u3).map (·.slotHeld) = some true ∧ (ordered86 121).waterwayOf .u3 = some .w1
      ∧ ((ordered86 121).waterwayRec .w1).isSome = true ∧ ((ordered86 121).unitRec .u3).port = some .c
      ∧ (waiting412.req .u1).map (·.state) = some .waiting ∧ waiting412.known .u1 = some .pmp
      ∧ ((after (.leadTimerExpiry .u1) warned412).req .u1).map (·.state) = some .ordered
      ∧ ((after (.leadTimerExpiry .u1) warned412).waterwayRec .w1).map (·.warned) = some [.u1] := by decide

/-- A request in WARNING whose path stands, one whose new path begins otherwise or is empty, and one without a demand. -/
theorem meets_StepSupervision_warning :
    (warned412.req .u1).map (fun r => (r.state, r.dest, r.slotHeld)) = some (.warning, .gen, true) ∧ warned412.known .u1 = some .ss
      ∧ (warned412.req .u1).bind Request.current = (pathOf .ss .gen).head? ∧ pathOf .ss .gen ≠ []
      ∧ (warned412.req .u1).bind Request.current ≠ (pathOf .ss .pmp).head? ∧ pathOf .ss .ss = []
      ∧ (warned412.unitRec .u1).hold.map (fun h => (h.mode, h.emergency)) = some (.gen, false)
      ∧ warned412.pln.desired.get .u1 = none
      ∧ warned412.waterwayOf .u1 = some .w1 ∧ (warned412.waterwayRec .w1).isSome = true := by decide
/-- Section 3.6's row 1 over section 5.10's plant: a demand met, one short, a slot kept. -/
theorem meets_AssignmentFills :
    let s := plant510.setPln { plant510.pln with table := some rows36, selected := some 1 }
    s.ros.rotation.Perm Slot.all ∧ s.selectedRow = rows36[1]? ∧ (s.assignRow planRow1).shortGen = 0
      ∧ (s.assignRow { planRow1 with nGen := 9 }).shortGen ≠ 0 ∧ (s.assignRow planRow1).got.get .u4 = some .gen
      ∧ s.currentMode .u4 = some .gen
      ∧ (s.automatic .u5 = true ∧ (s.assignRow planRow1).got.get .u5 = none ∧ s.mixingOk (s.assignRow planRow1).got .gen .u5 = true
        ∧ s.currentMode .u5 = some .gen ∧ s.converterOk .gen .gen = true)
      ∧ Param.converters.store 0 = some 0 ∧ s.waterwayOf .u4 = some .w1 ∧ (s.waterwayRec .w1).map (·.row.mixing) = some 0 := by decide
/-- A G_START that is warned, with a lead. -/
theorem meets_GrantRule_warned :
    let s := oneUnit.setReq .u1 (some (Request.new .automatic .gen (pathOf .ss .gen) 1))
    (s.req .u1).bind Request.current = some { kind := .gStart, origin := .ss } ∧ wayRow.warns .gStart = true ∧ wayRow.lead ≠ 0
      ∧ s.dispatchable .u1 = true ∧ s.reported .u1 = some (.stable .ss) ∧ s.plantCount < s.params.maxConcurrent
      ∧ (s.waterwayRec .w1).map (fun q => (q.inProgress, q.row, q.settle)) = some (0, wayRow, none) := by decide
/-- A STOP granted, one with the slot count used up, one before the settle time, one past max_concurrent, and a converter free. -/
theorem meets_GrantRule :
    (waiting412.req .u1).map (·.state) = some .waiting
      ∧ (waiting412.req .u1).bind Request.current = some { kind := .stop, origin := .pmp }
      ∧ waiting412.dispatchable .u1 = true ∧ waiting412.orphan .u1 = none ∧ waiting412.reported .u1 = some (.stable .pmp)
      ∧ waiting412.pli.part ≠ .standby ∧ waiting412.waterwayOf .u1 = some .w1 ∧ waiting412.plantCount < waiting412.params.maxConcurrent
      ∧ (waiting412.waterwayRec .w1).map (fun q => (q.inProgress, q.row.slots, q.settle)) = some (0, 1, none)
      ∧ ((withEvery id 1 none waiting412).waterwayRec .w1).map (fun q => (q.inProgress, q.row.slots)) = some (1, 1)
      ∧ ((withEvery id 0 (some 5090) waiting412).waterwayRec .w1).map (fun q => q.settle.isSome) = some true
      ∧ (waiting412.setParams { waiting412.params with maxConcurrent := 0 }).params.maxConcurrent ≤ waiting412.plantCount
      ∧ convNumber .c1 ≤ waiting412.params.converters ∧ waiting412.holder .c1 = none := by decide

end Sys2Proof.Tests
end

section
/-! The path table of R60: what its paths are made of, and O25. -/

namespace Sys2Proof.Proofs

open Sys2Proof.Machine

@[simp] theorem pathOf_self (m : Stable) : pathOf m m = [] := by
  cases m <;> rfl

theorem pathOf_length_le (a b : Stable) : (pathOf a b).length ≤ 3 := by
  cases a <;> cases b <;> decide

/-- A path is taken one step at a time: what is left after a step is the path from where that step ends. -/
theorem pathOf_eq_cons {a b : Stable} {st : PathStep} {rest : List PathStep} (h : pathOf a b = st :: rest) :
    st.origin = a ∧ rest = pathOf st.kind.dest b := by
  cases a <;> cases b <;> cases h <;> exact ⟨rfl, rfl⟩

/-- The step begins from a mode that its kind can leave. -/
def LeavesOrigin (st : PathStep) : Prop :=
  (st.kind = .gStart → st.origin = .ss) ∧ (st.kind = .pStart → st.origin = .ss) ∧ (st.kind = .prime → st.origin = .cnd)
    ∧ (st.kind = .deprime → st.origin = .pmp) ∧ (st.kind = .stop → st.origin ≠ .ss)

theorem leavesOrigin_of_pathOf_eq_cons {a b : Stable} {st : PathStep} {rest : List PathStep}
    (h : pathOf a b = st :: rest) : LeavesOrigin st := by
  cases a <;> cases b <;> cases h <;> simp [LeavesOrigin]

/-- Every step of a path is the first step of a path, so the claim about first steps carries over to each. -/
theorem leavesOrigin_of_mem_pathOf {a b : Stable} {st : PathStep} (h : st ∈ pathOf a b) : LeavesOrigin st := by
  generalize hp : pathOf a b = path at h
  induction path generalizing a with
  | nil => cases h
  | cons first rest ih =>
    obtain rfl | hrest := List.mem_cons.mp h
    · exact leavesOrigin_of_pathOf_eq_cons hp
    · obtain ⟨-, htail⟩ := pathOf_eq_cons hp
      exact ih htail.symm hrest

theorem flowChanging_iff (st : PathStep) :
    st.flowChanging = true ↔
      st.kind = .gStart ∨ st.kind = .prime ∨ st.kind = .deprime ∨ st.kind = .stop ∧ (st.origin = .gen ∨ st.origin = .pmp) := by
  obtain ⟨kind, origin⟩ := st
  cases kind <;> simp [PathStep.flowChanging]

/-- Settles O25: the table's entries stand in `pathOf` as they are written; the facts about every path are the lemmas above. -/
theorem pathTable : Obligations.PathTable :=
  ⟨pathOf_self, rfl, rfl, rfl, rfl, rfl, rfl, rfl, rfl, rfl, rfl, rfl, rfl, pathOf_length_le,
    fun _ _ _ _ => pathOf_eq_cons, fun _ _ _ => leavesOrigin_of_mem_pathOf,
    rfl, rfl, rfl, rfl, rfl, flowChanging_iff⟩

end Sys2Proof.Proofs
end

section
/-! The deletion of profiles (R127): when a profile is in use, what each request answers and does case by case, and O41. -/

namespace Sys2Proof.Proofs

open Sys2Proof.Machine

/-! ## In use -/

theorem inUse_iff (st : PlayState) : st.inUse = true ↔ st = .armed ∨ st = .aligned ∨ st = .playing := by
  cases st <;> simp [PlayState.inUse]

theorem named_iff (s : State) (n : List Byte) : s.named n = true ↔ s.prf.playback.profile = some n :=
  beq_iff_eq

/-- The profile of this name is in use: the playback record names it in ARMED, ALIGNED or PLAYING. -/
def ProfileInUse (s : State) (n : List Byte) : Prop :=
  s.prf.playback.profile = some n
    ∧ (s.prf.playback.state = .armed ∨ s.prf.playback.state = .aligned ∨ s.prf.playback.state = .playing)

/-- The test that PROFILE_DELETE makes before BUSY. -/
theorem named_and_inUse_iff (s : State) (n : List Byte) :
    (s.named n && s.prf.playback.state.inUse) = true ↔ ProfileInUse s n := by
  rw [Bool.and_eq_true, named_iff, inUse_iff, ProfileInUse]

/-! ## PROFILE_DELETE -/

/-- The store without the profile of this name; a playback record that named it is IDLE. -/
def withoutProfile (s : State) (n : List Byte) : State :=
  { s with prf := { s.prf with
      dir := s.prf.dir.filter (fun q => decide (q.name ≠ n))
      playback := if s.prf.playback.profile = some n then .idle else s.prf.playback } }

/-- The model's two writes, of the directory and then of the record, make that store. -/
theorem setDir_setPlayback_eq_withoutProfile (s : State) (n : List Byte) :
    (if s.named n then (s.setDir (s.prf.dir.filter (fun p => p.name != n))).setPlayback .idle
      else s.setDir (s.prf.dir.filter (fun p => p.name != n))) = withoutProfile s n := by
  have hfilter : s.prf.dir.filter (fun p => p.name != n) = s.prf.dir.filter (fun q => decide (q.name ≠ n)) :=
    List.filter_congr fun p _ => by simp [bne, beq_eq_decide]
  unfold withoutProfile
  by_cases hn : s.prf.playback.profile = some n
  · rw [if_pos ((named_iff s n).mpr hn), if_pos hn, hfilter]; rfl
  · rw [if_neg (mt (named_iff s n).mp hn), if_neg hn, hfilter]; rfl

section
variable {tag : Byte} {name n : List Byte} {s : State}

theorem exec_profileDelete_of_malformed (h : nameOfField name = none) :
    exec (.profileDelete tag name) s = .next (s.replied tag 2 10 .invalid 1) := by
  change execProfileDelete tag name s = _
  simp only [execProfileDelete, h]
  rfl

theorem exec_profileDelete_of_undefined (h : nameOfField name = some n) (hp : s.profileNamed n = none) :
    exec (.profileDelete tag name) s = .next (s.replied tag 2 10 .notFound) := by
  have hnone : (s.takePlantFrame.profileNamed n).isNone = true := Option.isNone_iff_eq_none.mpr hp
  change execProfileDelete tag name s = _
  simp only [execProfileDelete, h, if_pos hnone]
  rfl

/-- For a profile that is defined, what is left of the request is the test whether it is in use. -/
theorem exec_profileDelete_of_defined {p : Profile} (h : nameOfField name = some n) (hp : s.profileNamed n = some p) :
    exec (.profileDelete tag name) s
      = .next (if s.named n && s.prf.playback.state.inUse then s.replied tag 2 10 .busy
          else (withoutProfile s n).replied tag 2 10 .ok) := by
  have hsome : ¬ (s.takePlantFrame.profileNamed n).isNone = true := by
    change ¬ (s.profileNamed n).isNone = true
    simp [hp]
  change execProfileDelete tag name s = _
  simp only [execProfileDelete, h, if_neg hsome, setDir_setPlayback_eq_withoutProfile]
  by_cases hb : (s.named n && s.prf.playback.state.inUse) = true
  · rw [if_pos hb]; exact if_pos hb
  · rw [if_neg hb]; exact if_neg hb

theorem exec_profileDelete_of_inUse {p : Profile} (h : nameOfField name = some n) (hp : s.profileNamed n = some p)
    (hu : ProfileInUse s n) : exec (.profileDelete tag name) s = .next (s.replied tag 2 10 .busy) := by
  rw [exec_profileDelete_of_defined h hp, if_pos ((named_and_inUse_iff s n).mpr hu)]

theorem exec_profileDelete_of_not_inUse {p : Profile} (h : nameOfField name = some n) (hp : s.profileNamed n = some p)
    (hu : ¬ ProfileInUse s n) :
    exec (.profileDelete tag name) s = .next ((withoutProfile s n).replied tag 2 10 .ok) := by
  rw [exec_profileDelete_of_defined h hp, if_neg (mt (named_and_inUse_iff s n).mp hu)]

end

/-! ## PROFILE_DELETE_ALL -/

/-- The store with no profile and the playback record IDLE. -/
def withoutProfiles (s : State) : State :=
  { s with prf := { s.prf with dir := [], playback := .idle } }

theorem withoutProfiles_freeTotal (s : State) : (withoutProfiles s).freeTotal = 4096 := rfl

theorem withoutProfiles_eq_self {s : State} (hd : s.prf.dir = []) (hb : s.prf.playback = .idle) :
    withoutProfiles s = s := by
  unfold withoutProfiles
  rw [← hd, ← hb]

theorem exec_profileDeleteAll_eq (tag : Byte) (s : State) :
    exec (.profileDeleteAll tag) s
      = if s.prf.playback.state.inUse then .next (s.replied tag 2 11 .busy)
        else .next ((withoutProfiles s).replied tag 2 11 .ok) := rfl

/-! ## The obligation -/

/-- Settles O41: the five cases of PROFILE_DELETE's table, the pool by the sum over the kept entries, and the two cases of
PROFILE_DELETE_ALL. -/
theorem profilesDeleted : Obligations.ProfilesDeleted := by
  constructor
  · intro tag name s
    refine ⟨exec_profileDelete_of_malformed, fun n hname => ⟨exec_profileDelete_of_undefined hname, fun p hp => ?_⟩⟩
    refine ⟨exec_profileDelete_of_inUse hname hp, fun hfree => ⟨exec_profileDelete_of_not_inUse hname hp hfree, ?_⟩⟩
    exact sum_filter s.prf.dir n p hp
  · intro tag s
    refine ⟨fun hbusy => ?_, fun hfree => ⟨withoutProfiles s, ?_, rfl, withoutProfiles_freeTotal s, withoutProfiles_eq_self⟩⟩
    · rw [exec_profileDeleteAll_eq, if_pos ((inUse_iff _).mpr hbusy)]
    · rw [exec_profileDeleteAll_eq, if_neg (mt (inUse_iff _).mp hfree)]

end Sys2Proof.Proofs
end

section
/-! Steps, frames written out and the state after power-on (O1, O3, O8). -/

namespace Sys2Proof.Proofs

open Sys2Proof.Machine

/-! ## Steps -/

theorem step_of_cons {s : State} {c : Instr} {rest : List Instr} (h : s.pending = c :: rest) :
    step s = exec c { s with pending := rest } := by
  unfold step
  rw [h]

theorem step_of_nil {s : State} (h : s.pending = []) : step s = .next s := by
  unfold step
  rw [h]

/-- Settles O1: the two cases of `step`. -/
theorem stepTakesTheFront : Obligations.StepTakesTheFront :=
  ⟨fun _ _ _ h => step_of_cons h, fun _ h => step_of_nil h⟩

set_option maxRecDepth 10000 in
/-- Settles O3: each frame is written out, and its CRC and its decoding are computed. -/
theorem framesSpellCommands : Obligations.FramesSpellCommands := by
  refine ⟨?_, ?_, ?_, ?_, ?_, ?_, ?_, ?_, ?_, ?_, ?_⟩ <;> decide

/-! ## After power-on -/

theorem reset_portRec (p : Port) : State.reset.portRec p = PortRec.reset := by
  cases p <;> rfl

theorem reset_req (u : Slot) : State.reset.req u = none := by
  cases u <;> rfl

theorem reset_orphan (u : Slot) : State.reset.orphan u = none := by
  cases u <;> rfl

theorem rosterWf_reset : RosterWf State.reset where
  rotation := .refl _
  map u v _ h := by cases u <;> cases v <;> cases h <;> rfl
  expected u := by cases u <;> decide

theorem portsWf_reset : PortsWf State.reset where
  ports p :=
    { unused := by cases p <;> decide
      probe := by rw [reset_portRec]; rfl
      liveness := by rw [reset_portRec]; rfl
      outstanding := by rw [reset_portRec]; simp [PortRec.reset]
      kinds := by rw [reset_portRec]; exact .nil
      probes := by rw [reset_portRec]; simp [PortRec.reset]
      idle := by rw [reset_portRec]; simp [PortRec.reset] }
  granted u r h := by simp [reset_req] at h

theorem eventsWf_reset : EventsWf State.reset := by
  refine ⟨by decide, fun i h => ?_⟩
  have hi : i = 0 := by simpa [State.reset] using h
  subst hi
  rfl

theorem inPlant_zero : InPlant 0 := ⟨by decide, by decide⟩

theorem targetsWf_reset : TargetsWf State.reset where
  base := inPlant_zero
  plan := inPlant_zero
  ramped := inPlant_zero
  low := inPlant_zero
  high := inPlant_zero
  entries p h := by simp [State.reset] at h
  increment := by decide
  follows _ := rfl
  pattern _ := rfl

theorem paramsWf_default : ParamsWf {} := by
  constructor <;> simp [ZeroOrLong] <;> decide

theorem storeWf_reset : StoreWf State.reset := by
  constructor <;> simp [State.reset, State.entriesHeld]

theorem playbackWf_reset : PlaybackWf State.reset := by
  constructor <;> simp [State.reset, Playback.idle, State.playing, PlayState.clocked]

theorem tablesWf_reset : TablesWf State.reset := by
  constructor <;> simp [State.reset, State.waterwayRec, Pln.cleared]

theorem waterwaysWf_reset : WaterwaysWf State.reset := by
  simp [WaterwaysWf, State.waterwayRec, State.reset]

theorem settledWf_reset : SettledWf State.reset := by
  intro u h hu
  cases u <;> simp [State.unitRec, SlotMap.get, State.reset, UnitRec.reset] at hu

theorem planWf_reset : PlanWf State.reset := by
  constructor <;> simp [State.reset, Pln.cleared, State.selectedRow]

/-- Settles O8: power-on leaves no table, no request and no profile, and in STANDBY grants and allocation ask for nothing. -/
theorem resetMeetsTheInvariants : Obligations.ResetMeetsTheInvariants :=
  ⟨rosterWf_reset, portsWf_reset, eventsWf_reset, targetsWf_reset, paramsWf_default, storeWf_reset, playbackWf_reset,
    tablesWf_reset, waterwaysWf_reset, settledWf_reset, planWf_reset, fun u o h => by simp [reset_orphan] at h,
    fun h => absurd rfl h, fun h => absurd rfl h⟩

end Sys2Proof.Proofs
end

section
/-! O15 fails: what marks a step under order for the allocation (`orderMark`: entry number, order tag, start) can be the same
before and after a command that completes one step and orders the next, so that no allocation follows the change of step. -/

namespace Sys2Proof.Proofs

open Sys2Proof.Machine

/-- U1 on the QUALIFIED port A is under order toward CND by STOP and P_START. It reports SS, so STOP ends at its next report. The order
tag 0 of STOP is the tag that the port gives next, and the step has started at the part clock. -/
def markRequest : Request :=
  { Request.new .automatic .cnd [⟨.stop, .gen⟩, ⟨.pStart, .ss⟩] 0 with state := .inStep, tag := some 0, startedAt := some 0 }

/-- A table with a condense power of 2.0 MW. -/
def markTable : CapTable :=
  { header := { count := 2, condense := 20, gStart := 120, pStart := 400, prime := 60, deprime := 60, stop := 300 }
    points := [{ head := 1000, genMin := 100, genMax := 300, rzLo := 100, rzHi := 100, pump := 200 }] }

/-- U1 as it last reported: SS, remote and available. -/
def markUnit : UnitRec :=
  { UnitRec.reset .a 1 with report := some { mode := .stable .ss, power := 0, remote := true, available := true, conv := none } }

/-- The state of the counterexample before its allocation. -/
def markBase : State :=
  { State.reset with
    pending := [.status .a 0 0 1 1 0 0]
    pli := { State.reset.pli with part := .dispatching, params := { headOverride := 1000 } }
    ports := State.reset.ports.set .a { PortRec.reset with state := .qualified, probe := none, liveness := some 3 }
    ros := { State.reset.ros with units := State.reset.ros.units.set .u1 markUnit }
    head := { State.reset.head with caps := State.reset.head.caps.set .u1 (some markTable) }
    trs := { State.reset.trs with requests := State.reset.trs.requests.set .u1 (some markRequest) } }

/-- The counterexample: the allocation that `markBase` gives is recorded. -/
def markState : State := { markBase with alc := markBase.allocated }

/-- What the STATUS leaves: STOP is done, and P_START is under order with tag 0 from the same part clock on. -/
def markAfter : State :=
  match step markState with
  | .next t => t
  | _ => markState

theorem step_markState : step markState = .next markAfter := rfl

/-- What an allocation records of a slot without a share is its contribution, whatever the rotation order. -/
theorem allocated_line (s : State) (u : Slot) (h : s.regulates u = false) :
    (s.allocated.last.map (fun a => (a.shares.get u).value)) = some (s.contribution u).2 := by
  have hfind : s.division.units.find? (fun q => q.slot == u) = none := by
    rw [List.find?_eq_none]
    intro q hq hslot
    have hmem : u ∈ s.division.units.map (·.slot) := List.mem_map.mpr ⟨q, hq, by simpa using hslot⟩
    rw [State.division, divide_slots, List.map_map, List.mem_map] at hmem
    obtain ⟨v, hv, rfl⟩ := hmem
    have : s.regulates v = true := (List.mem_filter.mp hv).2
    simp_all [State.regUnit]
  simp [State.allocated, State.allocation, State.shareOf, hfind]

/-! ## The premises -/

theorem rosterWf_markState : RosterWf markState where
  rotation := .refl _
  map u v _ h := by cases u <;> cases v <;> cases h <;> rfl
  expected u := by cases u <;> decide

theorem paramsWf_markState : ParamsWf markState.params :=
  { paramsWf_default with headOverride := by decide }

set_option maxRecDepth 10000 in
theorem markState_alc : markState.alc = markState.allocated := by decide

set_option maxRecDepth 10000 in
/-- No slot is given a value to be sent. -/
theorem markState_lines : ∀ u ∈ Slot.all,
    (markState.alc.last.map (fun a => (a.shares.get u).line)).all (fun l => l != .regulating && l != .genHeld) = true := by
  decide

theorem allocationWf_markState : AllocationWf markState := by
  intro _
  refine ⟨markState.ros.rotation, 5, .refl _, by decide, markState_alc, fun a u ha _ hline => ?_⟩
  have h := markState_lines u (Slot.mem_all u)
  rw [ha] at h
  obtain hline | hline := hline <;> simp [hline] at h

/-! ## What fails -/

set_option maxRecDepth 10000 in
theorem markAfter_recorded : markAfter.alc.last.map (fun a => (a.shares.get .u1).value) = some 0 := by decide

set_option maxRecDepth 10000 in
theorem markAfter_contribution (order : List Slot) :
    ({ markAfter with ros := { markAfter.ros with rotation := order } } : State).contribution .u1 = (.step, -20) := by
  change markAfter.contribution .u1 = _
  decide

set_option maxRecDepth 10000 in
theorem markAfter_part : markAfter.pli.part = .dispatching := by decide

theorem not_allocationWf_markAfter : ¬ AllocationWf markAfter := by
  intro h
  obtain ⟨order, _, _, _, halc, -⟩ := h (by rw [markAfter_part]; decide)
  have hvalue := allocated_line { markAfter with ros := { markAfter.ros with rotation := order } } .u1
    (by rw [State.regulates, markAfter_contribution]; rfl)
  rw [← halc, markAfter_recorded, markAfter_contribution] at hvalue
  exact absurd hvalue (by decide)

/-- Refutes O15: `markState` meets its premises, and the STATUS that waits there ends the step STOP, worth 0, and orders P_START, worth
−2.0 MW, under the entry number, order tag and start time of the step before: no allocation is due, and 0 stays recorded. -/
theorem not_stepKeepsAllocation : ¬ Obligations.StepKeepsAllocation := fun h =>
  not_allocationWf_markAfter
    (h markState markAfter rosterWf_markState paramsWf_markState allocationWf_markState step_markState)

end Sys2Proof.Proofs
end

section
/-! The reading requests (R126, R158, R170 to R173, R176): what each is answered, and O35. -/

namespace Sys2Proof.Proofs

open Sys2Proof.Machine

theorem portOfCode_eq_none {port : Byte} (h : portOfCode port = none) : port = 0 ∨ 8 < port.toNat := by
  unfold portOfCode at h
  split at h
  case h_9 =>
    rw [show port = 0 ↔ port.toNat = 0 from BitVec.toNat_inj.symm]
    simp only [imp_false] at *
    omega
  all_goals cases h

/-- The two grounds on which a parameter number with its port byte is refused. -/
theorem paramOfCode_eq_error {param port : Byte} {i : Nat} (h : paramOfCode param port = .error i) :
    i = 1 ∧ (param = 0 ∨ 21 < param.toNat) ∨ i = 3 ∧ param = 21 ∧ (port = 0 ∨ 8 < port.toNat) := by
  rw [show param = 0 ↔ param.toNat = 0 from BitVec.toNat_inj.symm, show param = 21 ↔ param.toNat = 21 from BitVec.toNat_inj.symm]
  unfold paramOfCode at h
  split at h
  case h_21 hparam =>
    split at h
    · cases h
    · next hport => exact .inr ⟨(Except.error.inj h).symm, hparam, portOfCode_eq_none hport⟩
  case h_22 =>
    simp only [imp_false] at *
    exact .inl ⟨(Except.error.inj h).symm, by omega⟩
  all_goals cases h

section
variable {tag : Byte} {s : State}

theorem exec_configGet_of_error {param port : Byte} {i : Nat} (h : paramOfCode param port = .error i) :
    exec (.configGet tag param port) s = .next (s.replied tag 2 2 .invalid i) := by
  simp only [exec, execConfigGet, h]; rfl

theorem exec_configGet_of_ok {param port : Byte} {q : Param} (h : paramOfCode param port = .ok q) :
    exec (.configGet tag param port) s = .next (s.replied tag 2 2 .ok 0 ([param] ++ int32 (s.held q) ++ [port])) := by
  simp only [exec, execConfigGet, h]; cases q <;> rfl

theorem exec_statusReq : exec (.statusReq tag) s = .next (s.replied tag 3 1 .ok 0 s.statusBody) := rfl

theorem exec_unitReq_of_none {slot : Byte} (h : slotOfCode slot = none) :
    exec (.unitReq tag slot) s = .next (s.replied tag 3 2 .invalid 1) := by
  simp only [exec, execUnitReq, h]; rfl

theorem exec_unitReq_of_some {slot : Byte} {u : Slot} (h : slotOfCode slot = some u) :
    exec (.unitReq tag slot) s = .next (s.replied tag 3 2 .ok 0 (s.unitBody u)) := by
  simp only [exec, execUnitReq, h]; rfl

/-- TABLE_READ reads no more of the state than a taken frame leaves alone. -/
theorem tableRow_takePlantFrame (position : Byte) (row : Nat) : s.takePlantFrame.tableRow position row = s.tableRow position row := rfl

theorem exec_tableRead_of_none {position row : Byte} (h : s.tableRow position row.toNat = none) :
    exec (.tableRead tag position row) s = .next (s.replied tag 3 3 .notFound) := by
  simp only [exec, execTableRead, tableRow_takePlantFrame, h]; rfl

theorem exec_tableRead_of_some {position row : Byte} {body : List Byte} (h : s.tableRow position row.toNat = some body) :
    exec (.tableRead tag position row) s = .next (s.replied tag 3 3 .ok 0 body) := by
  simp only [exec, execTableRead, tableRow_takePlantFrame, h]; rfl

theorem exec_eventRead : exec (.eventRead tag) s
    = .next (({ s with ste := { s.ste with events := s.ste.events.drop 8, eventsLost := false } }).replied tag 3 4 .ok 0
        ([if s.ste.eventsLost then 1 else 0, byte (s.ste.events.length - 8)] ++ (s.ste.events.take 8).flatMap eventBytes)) := rfl

theorem exec_profileCatalog (start : Option Byte) : exec (.profileCatalog tag start) s
    = .next (s.replied tag 3 5 .ok 0 (s.catalogBody ((start.map BitVec.toNat).getD 0))) := rfl

/-! ## PROFILE_READ -/

/-- PROFILE_READ answers as its range check says. -/
theorem exec_profileRead (name : List Byte) (first : Half) (count : Byte) : exec (.profileRead tag name first count) s
    = .next (match s.rangeCheck name first.toNat count.toNat with
      | .error (c, d) => s.replied tag 2 9 c d
      | .ok p => s.replied tag 2 9 .ok 0 (((p.entries.drop first.toNat).take count.toNat).flatMap int16)) := by
  have htake : s.takePlantFrame.rangeCheck name first.toNat count.toNat = s.rangeCheck name first.toNat count.toNat := rfl
  simp only [exec, execProfileRead, htake]
  rcases s.rangeCheck name first.toNat count.toNat with ⟨_, _⟩ | _ <;> rfl

end

theorem rangeCheck_of_malformed {s : State} {name : List Byte} (h : nameOfField name = none) (first count : Nat) :
    s.rangeCheck name first count = .error (.invalid, 1) := by
  simp [State.rangeCheck, h]

section
variable {s : State} {name n : List Byte} (h : nameOfField name = some n)
include h

theorem rangeCheck_of_count {count : Nat} (hc : count < 1 ∨ 16 < count) (first : Nat) :
    s.rangeCheck name first count = .error (.invalid, 0) := by
  simp only [State.rangeCheck, h, if_pos hc]

variable {count : Nat} (h1 : 1 ≤ count) (h16 : count ≤ 16)
include h1 h16

theorem rangeCheck_of_undefined (hp : s.profileNamed n = none) (first : Nat) :
    s.rangeCheck name first count = .error (.notFound, 0) := by
  have hc : ¬ (count < 1 ∨ 16 < count) := by omega
  simp only [State.rangeCheck, h, if_neg hc, hp]

variable {p : Profile} (hp : s.profileNamed n = some p)
include hp

theorem rangeCheck_of_beyond {first : Nat} (hl : p.entries.length < first + count) :
    s.rangeCheck name first count = .error (.invalid, max first p.entries.length) := by
  have hc : ¬ (count < 1 ∨ 16 < count) := by omega
  simp only [State.rangeCheck, h, if_neg hc, hp, if_pos hl]

theorem rangeCheck_of_within {first : Nat} (hl : first + count ≤ p.entries.length) : s.rangeCheck name first count = .ok p := by
  have hc : ¬ (count < 1 ∨ 16 < count) := by omega
  simp only [State.rangeCheck, h, if_neg hc, hp, if_neg (Nat.not_lt.mpr hl)]

end

/-- Settles O35: each request's answer is the lemma of its own above; PROFILE_READ's follow from its range check. -/
theorem readingRequests : Obligations.ReadingRequests := by
  intro tag s
  refine ⟨fun param port i h => ⟨exec_configGet_of_error h, paramOfCode_eq_error h⟩, fun param port q h => exec_configGet_of_ok h,
    exec_statusReq, fun _ h => exec_unitReq_of_none h, fun _ _ h => exec_unitReq_of_some h, fun _ _ h => exec_tableRead_of_none h,
    fun _ _ _ h => exec_tableRead_of_some h, exec_eventRead, fun start => ?_, fun name first count => ⟨fun h => ?_, fun n h => ?_⟩⟩
  · cases start <;> exact exec_profileCatalog _
  · rw [exec_profileRead, rangeCheck_of_malformed h]
  · refine ⟨fun hc => ?_, fun h0 h16 => ?_⟩
    · have hc' : count.toNat < 1 ∨ 16 < count.toNat := hc.imp_left (fun hz => by simp [hz])
      rw [exec_profileRead, rangeCheck_of_count h hc']
    · have h1 : 1 ≤ count.toNat := by bv_omega
      refine ⟨fun hp => ?_, fun p hp => ⟨fun hl => ?_, fun hl => ?_⟩⟩
      · rw [exec_profileRead, rangeCheck_of_undefined h h1 h16 hp]
      · rw [exec_profileRead, rangeCheck_of_beyond h h1 h16 hp hl]
      · rw [exec_profileRead, rangeCheck_of_within h h1 h16 hp hl]

end Sys2Proof.Proofs
end

section
/-! Long-timer values (00_scope.md) and the interpolated capability record (R27 to R30): O23 and O22. -/

namespace Sys2Proof.Proofs

open Sys2Proof.Machine

/-! ## Long-timer values -/

theorem longTimer_of_le_15 {n : Nat} (h : n ≤ 15) : longTimer n = n := by
  simp [longTimer, h]

theorem longTimer_tens {n : Nat} (h : 15 < n) (h' : n ≤ 150) : longTimer n = max 20 ((n + 9) / 10 * 10) := by
  simp [longTimer, Nat.not_le.mpr h, h']

theorem longTimer_hundreds {n : Nat} (h : 150 < n) (h' : n ≤ 1500) : longTimer n = max 200 ((n + 99) / 100 * 100) := by
  have h15 : ¬ n ≤ 15 := by omega
  simp [longTimer, h15, Nat.not_le.mpr h, h']

theorem longTimer_above {n : Nat} (h : 1500 < n) : longTimer n = 1500 := by
  have h15 : ¬ n ≤ 15 := by omega
  have h150 : ¬ n ≤ 150 := by omega
  simp [longTimer, h15, h150, Nat.not_le.mpr h]

/-- Settles O23: in each of the four ranges of `longTimer` the claim is arithmetic. -/
theorem longTimerCoding : Obligations.LongTimerCoding := by
  intro n hn representable
  have ranges : n ≤ 15 ∨ (15 < n ∧ n ≤ 150) ∨ (150 < n ∧ n ≤ 1500) ∨ 1500 < n := by omega
  rcases ranges with h | ⟨h, h'⟩ | ⟨h, h'⟩ | h
  · rw [longTimer_of_le_15 h]
    exact ⟨.inl ⟨hn, h⟩, fun _ => ⟨Nat.le_refl n, fun m _ hm => hm⟩, by omega⟩
  · rw [longTimer_tens h h']
    exact ⟨.inr (.inl (by omega)), fun _ => ⟨by omega, fun m hr hm => by rcases hr with hr | hr | hr <;> omega⟩, by omega⟩
  · rw [longTimer_hundreds h h']
    exact ⟨.inr (.inr (by omega)), fun _ => ⟨by omega, fun m hr hm => by rcases hr with hr | hr | hr <;> omega⟩, by omega⟩
  · rw [longTimer_above h]
    exact ⟨.inr (.inr (by omega)), fun hle => absurd h (Nat.not_lt.mpr hle), fun _ => rfl⟩

/-! ## Interpolation: which case of R28 and R30 a head falls under -/

/-- Strictly rising heads: of two breakpoints the later one has the greater head. -/
def Rising (points : List Breakpoint) : Prop := points.Pairwise (fun a b => a.head < b.head)

theorem recordFrom_at (condense : Int) : ∀ (a : Breakpoint) (rest : List Breakpoint), Rising (a :: rest) →
    ∀ b ∈ a :: rest, recordFrom condense b.head a rest = recordAt condense b false
  | a, [], _, b, hb => by
    obtain rfl := List.mem_singleton.mp hb
    simp [recordFrom]
  | a, c :: rest, hr, b, hb => by
    obtain ⟨ha, hr'⟩ := List.pairwise_cons.mp hr
    obtain rfl | hb := List.mem_cons.mp hb
    · simp [recordFrom]
    · have hab := ha b hb
      have hcb : ¬ b.head < c.head := by
        obtain rfl | hb' := List.mem_cons.mp hb
        · omega
        · have := (List.pairwise_cons.mp hr').1 b hb'
          omega
      rw [recordFrom, if_neg (by omega), if_neg hcb]
      exact recordFrom_at condense c rest hr' b hb

theorem recordFrom_beyond (condense : Int) (h : Nat) : ∀ (a : Breakpoint) (rest : List Breakpoint), Rising (a :: rest) →
    ∀ b, (a :: rest).getLast? = some b → b.head < h → recordFrom condense h a rest = recordAt condense b true
  | a, [], _, b, hb, hlt => by
    obtain rfl : a = b := by simpa using hb
    have : h ≠ a.head := by omega
    simp [recordFrom, this]
  | a, c :: rest, hr, b, hb, hlt => by
    obtain ⟨ha, hr'⟩ := List.pairwise_cons.mp hr
    have hb' : (c :: rest).getLast? = some b := by simpa using hb
    have hmem : b ∈ c :: rest := List.mem_of_getLast? hb'
    have hab := ha b hmem
    have hcb : c.head ≤ b.head := by
      obtain rfl | hb'' := List.mem_cons.mp hmem
      · exact Nat.le_refl _
      · exact Nat.le_of_lt ((List.pairwise_cons.mp hr').1 b hb'')
    rw [recordFrom, if_neg (by omega), if_neg (by omega)]
    exact recordFrom_beyond condense h c rest hr' b hb' hlt

theorem recordFrom_between (condense : Int) (h : Nat) : ∀ (a : Breakpoint) (rest : List Breakpoint), Rising (a :: rest) →
    ∀ (i : Nat) (b c : Breakpoint), (a :: rest)[i]? = some b → (a :: rest)[i + 1]? = some c → b.head < h → h < c.head →
      recordFrom condense h a rest = recordBetween condense b c h
  | a, [], _, i, b, c, _, hc, _, _ => by simp at hc
  | a, d :: rest, _, 0, b, c, hb, hc, hbh, hhc => by
    obtain rfl : a = b := by simpa using hb
    obtain rfl : d = c := by simpa using hc
    rw [recordFrom, if_neg (by omega), if_pos hhc]
  | a, d :: rest, hr, i + 1, b, c, hb, hc, hbh, hhc => by
    obtain ⟨ha, hr'⟩ := List.pairwise_cons.mp hr
    have hb' : (d :: rest)[i]? = some b := by simpa using hb
    have hc' : (d :: rest)[i + 1]? = some c := by simpa using hc
    have hmem : b ∈ d :: rest := List.mem_of_getElem? hb'
    have hab := ha b hmem
    have hdb : d.head ≤ b.head := by
      obtain rfl | hb'' := List.mem_cons.mp hmem
      · exact Nat.le_refl _
      · exact Nat.le_of_lt ((List.pairwise_cons.mp hr').1 b hb'')
    rw [recordFrom, if_neg (by omega), if_neg (by omega)]
    exact recordFrom_between condense h d rest hr' i b c hb' hc' hbh hhc

/-- Where a head at or above that of the first of rising breakpoints lies: on one of them, between two neighbours, or beyond the last. -/
theorem head_cases (h : Nat) : ∀ (a : Breakpoint) (rest : List Breakpoint), a.head ≤ h →
    (∃ b ∈ a :: rest, h = b.head)
      ∨ (∃ (i : Nat) (b c : Breakpoint), (a :: rest)[i]? = some b ∧ (a :: rest)[i + 1]? = some c ∧ b.head < h ∧ h < c.head)
      ∨ ∃ b, (a :: rest).getLast? = some b ∧ b.head < h
  | a, [], hah => by
    obtain heq | hlt := Nat.eq_or_lt_of_le hah
    · exact .inl ⟨a, by simp, heq.symm⟩
    · exact .inr (.inr ⟨a, rfl, hlt⟩)
  | a, d :: rest, hah => by
    obtain heq | hlt := Nat.eq_or_lt_of_le hah
    · exact .inl ⟨a, by simp, heq.symm⟩
    · by_cases hd : h < d.head
      · exact .inr (.inl ⟨0, a, d, rfl, rfl, hlt, hd⟩)
      · rcases head_cases h d rest (by omega) with ⟨b, hb, he⟩ | ⟨i, b, c, hb, hc, hlt⟩ | ⟨b, hb, hlt⟩
        · exact .inl ⟨b, List.mem_cons_of_mem _ hb, he⟩
        · exact .inr (.inl ⟨i + 1, b, c, by simpa using hb, by simpa using hc, hlt⟩)
        · exact .inr (.inr ⟨b, by simpa using hb, hlt⟩)

/-- A value at or above 0 at two neighbouring breakpoints is so on the line between them. -/
theorem interpNum_nonneg {a b : Breakpoint} {h : Nat} (ha : a.head < h) (hb : h < b.head) {va vb : Int} (h1 : 0 ≤ va) (h2 : 0 ≤ vb) :
    0 ≤ interpNum a b h va vb := by
  have := interpNum_le (k := 0) a b h ha hb (u := 0) (u' := 0) (v := va) (v' := vb) (by omega) (by omega)
  have hz : interpNum a b h 0 0 = 0 := by simp [interpNum]
  omega

theorem interpolate_cons {t : CapTable} {a : Breakpoint} {rest : List Breakpoint} (h : Nat) (ht : t.points = a :: rest) :
    interpolate t h
      = some (if h < a.head then recordAt t.header.condense a true else recordFrom t.header.condense h a rest) := by
  simp [interpolate, ht]

theorem interpolate_below {t : CapTable} {h : Nat} {b : Breakpoint} (hb : t.points.head? = some b) (hlt : h < b.head) :
    interpolate t h = some (recordAt t.header.condense b true) := by
  obtain ⟨rest, hp⟩ := List.head?_eq_some_iff.mp hb
  rw [interpolate_cons h hp, if_pos hlt]

section
variable {t : CapTable} {h : Nat} (wf : t.Wf)
include wf

theorem interpolate_at {b : Breakpoint} (hb : b ∈ t.points) (hh : h = b.head) :
    interpolate t h = some (recordAt t.header.condense b false) := by
  obtain ⟨a, rest, hp⟩ := List.exists_cons_of_ne_nil (List.ne_nil_of_mem hb)
  have hr : Rising (a :: rest) := hp ▸ wf.rising
  rw [hp] at hb
  have hab : a.head ≤ b.head := by
    obtain rfl | hb' := List.mem_cons.mp hb
    · exact Nat.le_refl _
    · exact Nat.le_of_lt ((List.pairwise_cons.mp hr).1 b hb')
  rw [interpolate_cons h hp, if_neg (by omega), hh, recordFrom_at _ _ _ hr b hb]

theorem interpolate_beyond {b : Breakpoint} (hb : t.points.getLast? = some b) (hlt : b.head < h) :
    interpolate t h = some (recordAt t.header.condense b true) := by
  obtain ⟨a, rest, hp⟩ := List.exists_cons_of_ne_nil (List.ne_nil_of_mem (List.mem_of_getLast? hb))
  have hr : Rising (a :: rest) := hp ▸ wf.rising
  rw [hp] at hb
  have hab : a.head ≤ b.head := by
    obtain rfl | hb' := List.mem_cons.mp (List.mem_of_getLast? hb)
    · exact Nat.le_refl _
    · exact Nat.le_of_lt ((List.pairwise_cons.mp hr).1 b hb')
  rw [interpolate_cons h hp, if_neg (by omega), recordFrom_beyond _ _ _ _ hr b hb hlt]

theorem interpolate_between {i : Nat} {b c : Breakpoint} (hb : t.points[i]? = some b) (hc : t.points[i + 1]? = some c)
    (hbh : b.head < h) (hhc : h < c.head) : interpolate t h = some (recordBetween t.header.condense b c h) := by
  obtain ⟨a, rest, hp⟩ := List.exists_cons_of_ne_nil (List.ne_nil_of_mem (List.mem_of_getElem? hb))
  have hr : Rising (a :: rest) := hp ▸ wf.rising
  rw [hp] at hb hc
  have hab : a.head ≤ b.head := by
    obtain rfl | hb' := List.mem_cons.mp (List.mem_of_getElem? hb)
    · exact Nat.le_refl _
    · exact Nat.le_of_lt ((List.pairwise_cons.mp hr).1 b hb')
  rw [interpolate_cons h hp, if_neg (by omega), recordFrom_between _ _ _ _ hr i b c hb hc hbh hhc]

/-- Of two breakpoints in order the later one has the greater head. -/
theorem head_lt_of_index {i j : Nat} {b c : Breakpoint} (hij : i < j) (hb : t.points[i]? = some b) (hc : t.points[j]? = some c) :
    b.head < c.head := by
  obtain ⟨hi, rfl⟩ := List.getElem?_eq_some_iff.mp hb
  obtain ⟨hj, rfl⟩ := List.getElem?_eq_some_iff.mp hc
  exact List.pairwise_iff_getElem.mp wf.rising i j hi hj hij

/-- R27, R29, R30: the record at any head, whichever of the four cases the head falls under. -/
theorem interpolate_wf : ∃ c, interpolate t h = some c ∧ c.Wf ∧ c.condense = t.header.condense
    ∧ (c.extrapolated = true ↔ (∀ b ∈ t.points, h < b.head) ∨ ∀ b ∈ t.points, b.head < h) := by
  obtain ⟨a, rest, hp⟩ : ∃ a rest, t.points = a :: rest := List.exists_cons_of_length_pos (by have := wf.least; omega)
  have hfirst (b) (hb : b ∈ t.points) : a.head ≤ b.head := by
    obtain ⟨j, hj⟩ := List.mem_iff_getElem?.mp hb
    rcases Nat.eq_zero_or_pos j with rfl | hj0
    · obtain rfl : a = b := by simpa [hp] using hj
      exact Nat.le_refl _
    · exact Nat.le_of_lt (head_lt_of_index wf hj0 (by simp [hp]) hj)
  have ha : a ∈ t.points := by simp [hp]
  by_cases hlt : h < a.head
  · refine ⟨_, interpolate_below (by simp [hp]) hlt, recordAt_wf _ _ _ (wf.sound a ha), rfl, ?_⟩
    exact iff_of_true rfl (.inl fun b hb => Nat.lt_of_lt_of_le hlt (hfirst b hb))
  · rcases head_cases h a rest (by omega) with ⟨b, hb, hh⟩ | ⟨i, b, c, hb, hc, hbh, hhc⟩ | ⟨b, hb, hbh⟩
    · rw [← hp] at hb
      refine ⟨_, interpolate_at wf hb hh, recordAt_wf _ _ _ (wf.sound b hb), rfl, iff_of_false Bool.false_ne_true ?_⟩
      rintro (hall | hall)
      · exact absurd (hall b hb) (by omega)
      · exact absurd (hall b hb) (by omega)
    · rw [← hp] at hb hc
      have hbm := List.mem_of_getElem? hb
      have hcm := List.mem_of_getElem? hc
      refine ⟨_, interpolate_between wf hb hc hbh hhc, recordBetween_wf _ _ _ _ hbh hhc (wf.sound b hbm) (wf.sound c hcm),
        rfl, iff_of_false Bool.false_ne_true ?_⟩
      rintro (hall | hall)
      · exact absurd (hall b hbm) (by omega)
      · exact absurd (hall c hcm) (by omega)
    · rw [← hp] at hb
      refine ⟨_, interpolate_beyond wf hb hbh, recordAt_wf _ _ _ (wf.sound b (List.mem_of_getLast? hb)), rfl,
        iff_of_true rfl (.inr fun c hc => ?_)⟩
      obtain ⟨j, hj⟩ := List.mem_iff_getElem?.mp hc
      have hl : t.points[t.points.length - 1]? = some b := by rw [← List.getLast?_eq_getElem?, hb]
      obtain ⟨hjl, -⟩ := List.getElem?_eq_some_iff.mp hj
      rcases Nat.lt_or_ge j (t.points.length - 1) with hjl' | hjl'
      · have := head_lt_of_index wf hjl' hj hl
        omega
      · obtain rfl : j = t.points.length - 1 := by omega
        obtain rfl : b = c := Option.some.inj (hl.symm.trans hj)
        exact hbh

/-- R28, R29: the rounding of each value of a record between two neighbours. -/
theorem recordBetween_rounding {i : Nat} {a b : Breakpoint} (ha : t.points[i]? = some a) (hb : t.points[i + 1]? = some b)
    (hah : a.head < h) (hhb : h < b.head) (condense : Int) :
    let d : Int := (b.head : Int) - a.head
    let line (f : Breakpoint → Int) : Int := interpNum a b h (f a) (f b)
    let c := recordBetween condense a b h
    let lo := line (·.rzLo) / d
    let hi := ceilDiv (line (·.rzHi)) d
    (line (·.genMin) ≤ c.genMin * d ∧ c.genMin * d < line (·.genMin) + d)
      ∧ (c.genMax * d ≤ line (·.genMax) ∧ line (·.genMax) < c.genMax * d + d)
      ∧ (lo * d ≤ line (·.rzLo) ∧ line (·.rzLo) < lo * d + d)
      ∧ (line (·.rzHi) ≤ hi * d ∧ hi * d < line (·.rzHi) + d)
      ∧ (2 * line (·.pump) - d < 2 * c.pump * d ∧ 2 * c.pump * d ≤ 2 * line (·.pump) + d)
      ∧ c.zone = (if max lo c.genMin = min hi c.genMax then none else some (max lo c.genMin, min hi c.genMax)) := by
  intro d line c lo hi
  have hd : 0 < d := by show (0 : Int) < (b.head : Int) - a.head; omega
  have pump_nonneg (x) (hx : x ∈ t.points) : 0 ≤ x.pump := by
    have := wf.sound x hx
    simp only [Breakpoint.sound, decide_eq_true_eq] at this
    omega
  exact ⟨ceilDiv_bounds _ _ hd, ediv_bounds _ _ hd, ediv_bounds _ _ hd, ceilDiv_bounds _ _ hd,
    nearestDiv_bounds _ _ hd (interpNum_nonneg hah hhb (pump_nonneg a (List.mem_of_getElem? ha))
      (pump_nonneg b (List.mem_of_getElem? hb))), rfl⟩

end

/-- Settles O22: the four cases of a head, each with its record. -/
theorem interpolationRule : Obligations.InterpolationRule := by
  intro t h wf
  refine ⟨interpolate_wf wf, fun b => interpolate_at wf, fun _ => interpolate_below, fun b => interpolate_beyond wf, ?_⟩
  intro i a b ha hb hah hhb d line
  exact ⟨_, _, _, interpolate_between wf ha hb hah hhb, recordBetween_rounding wf ha hb hah hhb _⟩

end Sys2Proof.Proofs
end

section
/-! Sharing, saturation, rough zones and absorption (R95 to R100): O18, O19 and O20. -/

namespace Sys2Proof.Proofs

open Sys2Proof.Machine

/-! ## Shares before zones -/

/-- Two roundings of one share: a part of a range lies within it, and strictly within it where the part is a proper one. -/
theorem part_bounds {x range width : Int} (hr : 0 < range) (hw : 0 < width) (hx : 0 ≤ x) (hxr : x ≤ range) :
    0 ≤ x * width / range ∧ x * width / range ≤ width ∧ (x < range → x * width / range + 1 ≤ width) := by
  have upper : x * width ≤ width * range := by
    rw [Int.mul_comm width]
    exact Int.mul_le_mul_of_nonneg_right hxr (by omega)
  refine ⟨Int.ediv_nonneg (Int.mul_nonneg hx (by omega)) (by omega), Int.ediv_le_of_le_mul hr upper, fun hlt => ?_⟩
  have : x * width < width * range := by
    rw [Int.mul_comm width]
    exact Int.mul_lt_mul_of_pos_right hlt hw
  have := Int.ediv_lt_of_lt_mul hr this
  omega

/-- The number of units that get one step more. -/
def leftover (r : Int) (us : List RegUnit) : Nat := (r - sumShares (proportional r us)).toNat

/-- R97, R98: a unit with its share before zones, the floored one and the step more where its place is below `k`. -/
def sharedAt (r : Int) (us : List RegUnit) (k : Nat) (i : Nat) (q : RegUnit) : RegUnit :=
  { q with
    share := q.least + (r - sumMin us) * (q.most - q.least) / sumRange us + (if i < k then 1 else 0)
    floored := some (q.least + (r - sumMin us) * (q.most - q.least) / sumRange us)
    before := q.least + (r - sumMin us) * (q.most - q.least) / sumRange us + (if i < k then 1 else 0) }

theorem sharesBeforeZones_eq (r : Int) (us : List RegUnit) :
    sharesBeforeZones r us = us.mapIdx (sharedAt r us (leftover r us)) := by
  simp only [sharesBeforeZones, addRemainder_eq, proportional]
  apply List.ext_getElem
  · simp
  · intro i h1 h2
    simp [sharedAt, leftover, proportional, RegUnit.proportion]

section
variable {r : Int} {us : List RegUnit} (hne : us ≠ []) (wf : ∀ q ∈ us, q.Wf) (hlow : sumMin us ≤ r) (hhigh : r ≤ sumMax us)
include hne wf

theorem sumRange_pos : 0 < sumRange us := by
  have := (sumMin_le_sumMax us wf).2 hne
  rw [sumRange_eq]
  omega

/-- A residual equal to the sum of the upper limits leaves no remainder. -/
theorem leftover_of_full (hfull : r - sumMin us = sumRange us) : leftover r us = 0 := by
  have hpos := sumRange_pos hne wf
  have hsum : sumShares (proportional r us) = r := by
    rw [sumShares_proportional, hfull]
    have : us.map (fun q => sumRange us * (q.most - q.least) / sumRange us) = us.map (fun q => q.most - q.least) :=
      List.map_congr_left fun q _ => Int.mul_ediv_cancel_left _ (by omega)
    rw [this]
    show sumMin us + sumRange us = r
    omega
  simp [leftover, hsum]

include hlow hhigh

theorem leftover_lt : leftover r us < us.length := by
  obtain ⟨-, -, h⟩ := remainder_bounds r us hlow hhigh
  have := h hne (sumRange_pos hne wf)
  have : 0 < us.length := List.length_pos_iff.mpr hne
  unfold leftover
  omega

theorem sharedAt_bounds {i : Nat} {q : RegUnit} (hq : q ∈ us) :
    q.least ≤ (sharedAt r us (leftover r us) i q).share ∧ (sharedAt r us (leftover r us) i q).share ≤ q.most := by
  have hwidth : 0 < q.most - q.least := by have := (wf q hq).1; omega
  have hsum := sumRange_eq us
  obtain ⟨hzero, hpart, hproper⟩ :=
    part_bounds (sumRange_pos hne wf) hwidth (by omega : 0 ≤ r - sumMin us) (by omega : r - sumMin us ≤ sumRange us)
  simp only [sharedAt]
  rcases Int.lt_or_le (r - sumMin us) (sumRange us) with hlt | hge
  · have := hproper hlt
    split <;> omega
  · rw [leftover_of_full hne wf (by omega)]
    simp only [Nat.not_lt_zero, if_false]
    omega

theorem sharesBeforeZones_bounds : ∀ q ∈ sharesBeforeZones r us, q.least ≤ q.share ∧ q.share ≤ q.most := by
  intro q hq
  rw [sharesBeforeZones_eq] at hq
  obtain ⟨i, hi, rfl⟩ := List.mem_mapIdx.mp hq
  exact sharedAt_bounds (q := us[i]) hne wf hlow hhigh (List.getElem_mem hi)

end

/-! ## Saturation -/

theorem divide_low {r : Int} {us : List RegUnit} (h : r < sumMin us) : divide r us =
    { units := us.map (fun q => { q with share := q.least, before := q.least }), shortfall := r - sumMin us, condition := .low } := by
  rw [divide, if_pos h]

theorem divide_high {r : Int} {us : List RegUnit} (h : sumMax us < r) (hle : sumMin us ≤ sumMax us) : divide r us =
    { units := us.map (fun q => { q with share := q.most, before := q.most }), shortfall := r - sumMax us, condition := .high } := by
  rw [divide, if_neg (by omega), if_pos h]

theorem divide_shared {r : Int} {us : List RegUnit} (hlow : sumMin us ≤ r) (hhigh : r ≤ sumMax us) :
    let shared := sharesBeforeZones r us
    let done := absorb (sumShares shared - sumShares (shared.map RegUnit.leaveZone)) (shared.map RegUnit.leaveZone)
    divide r us = { units := done.1, shortfall := done.2, condition := if done.2 = 0 then .met else .zone } := by
  simp only [← displacement_eq, divide, Int.not_lt.mpr hlow, Int.not_lt.mpr hhigh, if_false]

/-- Shares none of which stands inside its zone are given as they are. -/
theorem divide_outside {r : Int} {us : List RegUnit} (hlow : sumMin us ≤ r) (hhigh : r ≤ sumMax us)
    (hout : ∀ q ∈ sharesBeforeZones r us, outOfZone q.zone q.share = q.share) :
    (divide r us).units.map (fun q => (q.slot, q.share)) = (sharesBeforeZones r us).map (fun q => (q.slot, q.share))
      ∧ (divide r us).shortfall = 0 ∧ (divide r us).condition = .met := by
  have hsame : ((sharesBeforeZones r us).map RegUnit.leaveZone).map (fun q => (q.slot, q.share))
      = (sharesBeforeZones r us).map (fun q => (q.slot, q.share)) := by
    rw [List.map_map]
    exact List.map_congr_left fun q hq => by simp [RegUnit.leaveZone, hout q hq]
  have hsum : sumShares ((sharesBeforeZones r us).map RegUnit.leaveZone) = sumShares (sharesBeforeZones r us) := by
    have := congrArg (fun l => (l.map Prod.snd).sum) hsame
    simpa [sumShares, List.map_map, Function.comp_def] using this
  have hdiv := divide_shared hlow hhigh
  simp only [hsum, Int.sub_self, absorb_zero, if_true] at hdiv
  rw [hdiv]
  exact ⟨hsame, rfl, rfl⟩

theorem eq_least_of_sum : ∀ {us : List RegUnit}, (∀ q ∈ us, q.least ≤ q.share) → sumShares us = sumMin us →
    ∀ q ∈ us, q.share = q.least
  | [], _, _ => by simp
  | p :: us, h, hsum => by
    have hp := h p (by simp)
    have hus : ∀ q ∈ us, q.least ≤ q.share := fun q hq => h q (List.mem_cons_of_mem _ hq)
    have hle : sumMin us ≤ sumShares us := List.sum_le_sum hus
    simp only [sumShares, sumMin, List.map_cons, List.sum_cons] at hsum hle
    have hrest : sumShares us = sumMin us := by simp only [sumShares, sumMin]; omega
    intro q hq
    obtain rfl | hq := List.mem_cons.mp hq
    · omega
    · exact eq_least_of_sum hus hrest q hq

theorem eq_most_of_sum : ∀ {us : List RegUnit}, (∀ q ∈ us, q.share ≤ q.most) → sumShares us = sumMax us →
    ∀ q ∈ us, q.share = q.most
  | [], _, _ => by simp
  | p :: us, h, hsum => by
    have hp := h p (by simp)
    have hus : ∀ q ∈ us, q.share ≤ q.most := fun q hq => h q (List.mem_cons_of_mem _ hq)
    have hle : sumShares us ≤ sumMax us := List.sum_le_sum hus
    simp only [sumShares, sumMax, List.map_cons, List.sum_cons] at hsum hle
    have hrest : sumShares us = sumMax us := by simp only [sumShares, sumMax]; omega
    intro q hq
    obtain rfl | hq := List.mem_cons.mp hq
    · omega
    · exact eq_most_of_sum hus hrest q hq

/-- What the shares before zones keep of the units. -/
theorem sharesBeforeZones_keeps {α : Type} (f : RegUnit → α) (hf : ∀ q v w x, f { q with share := v, floored := w, before := x } = f q)
    (r : Int) (us : List RegUnit) : (sharesBeforeZones r us).map f = us.map f := by
  rw [sharesBeforeZones_eq]
  apply List.ext_getElem
  · simp
  · intro i h1 h2
    simp only [List.getElem_map, List.getElem_mapIdx]
    exact hf ..

theorem wf_sharesBeforeZones {r : Int} {us : List RegUnit} (wf : ∀ q ∈ us, q.Wf) : ∀ q ∈ sharesBeforeZones r us, q.Wf := by
  intro q hq
  rw [sharesBeforeZones_eq] at hq
  obtain ⟨i, hi, rfl⟩ := List.mem_mapIdx.mp hq
  exact wf us[i] (List.getElem_mem hi)

theorem sharesBeforeZones_bounds_all {r : Int} {us : List RegUnit} (wf : ∀ q ∈ us, q.Wf) (hlow : sumMin us ≤ r) (hhigh : r ≤ sumMax us) :
    ∀ q ∈ sharesBeforeZones r us, q.least ≤ q.share ∧ q.share ≤ q.most := by
  rcases us with _ | ⟨p, us⟩
  · simp [sharesBeforeZones_eq]
  · exact sharesBeforeZones_bounds (List.cons_ne_nil p us) wf hlow hhigh

/-- A residual equal to the sum of the lower limits is shared to them. -/
theorem divide_sumMin {us : List RegUnit} (wf : ∀ q ∈ us, q.Wf) :
    (divide (sumMin us) us).units.map (fun q => (q.slot, q.share)) = us.map (fun q => (q.slot, q.least))
      ∧ (divide (sumMin us) us).shortfall = 0 ∧ (divide (sumMin us) us).condition = .met := by
  have hle := (sumMin_le_sumMax us wf).1
  have hmin : sumMin (sharesBeforeZones (sumMin us) us) = sumMin us :=
    congrArg List.sum (sharesBeforeZones_keeps (·.least) (fun _ _ _ _ => rfl) _ us)
  have hall : ∀ q ∈ sharesBeforeZones (sumMin us) us, q.share = q.least :=
    eq_least_of_sum (fun q hq => (sharesBeforeZones_bounds_all wf (Int.le_refl _) hle q hq).1)
      (by rw [hmin, sum_sharesBeforeZones _ _ (Int.le_refl _) hle])
  obtain ⟨hunits, hshort, hcond⟩ := divide_outside (Int.le_refl _) hle
    (fun q hq => by rw [hall q hq, outOfZone_least (wf_sharesBeforeZones wf q hq)])
  refine ⟨hunits.trans ?_, hshort, hcond⟩
  rw [List.map_congr_left (g := fun q => (q.slot, q.least)) fun q hq => by rw [hall q hq]]
  exact sharesBeforeZones_keeps (fun q => (q.slot, q.least)) (fun _ _ _ _ => rfl) _ us

/-- A residual equal to the sum of the upper limits is shared to them. -/
theorem divide_sumMax {us : List RegUnit} (wf : ∀ q ∈ us, q.Wf) :
    (divide (sumMax us) us).units.map (fun q => (q.slot, q.share)) = us.map (fun q => (q.slot, q.most))
      ∧ (divide (sumMax us) us).shortfall = 0 ∧ (divide (sumMax us) us).condition = .met := by
  have hle := (sumMin_le_sumMax us wf).1
  have hmax : sumMax (sharesBeforeZones (sumMax us) us) = sumMax us :=
    congrArg List.sum (sharesBeforeZones_keeps (·.most) (fun _ _ _ _ => rfl) _ us)
  have hall : ∀ q ∈ sharesBeforeZones (sumMax us) us, q.share = q.most :=
    eq_most_of_sum (fun q hq => (sharesBeforeZones_bounds_all wf hle (Int.le_refl _) q hq).2)
      (by rw [hmax, sum_sharesBeforeZones _ _ hle (Int.le_refl _)])
  obtain ⟨hunits, hshort, hcond⟩ := divide_outside hle (Int.le_refl _)
    (fun q hq => by rw [hall q hq, outOfZone_most (wf_sharesBeforeZones wf q hq)])
  refine ⟨hunits.trans ?_, hshort, hcond⟩
  rw [List.map_congr_left (g := fun q => (q.slot, q.most)) fun q hq => by rw [hall q hq]]
  exact sharesBeforeZones_keeps (fun q => (q.slot, q.most)) (fun _ _ _ _ => rfl) _ us

/-- Settles O19. -/
theorem saturationRule : Obligations.SaturationRule := by
  intro r us hus
  have wf : ∀ q ∈ us, q.Wf := fun q hq => (hus q hq).1
  have hle := (sumMin_le_sumMax us wf).1
  refine ⟨fun hlow => ?_, fun hhigh => ?_, ?_, ?_, ?_⟩
  · rw [divide_low hlow]
    simp
  · rw [divide_high hhigh hle]
    simp
  · rintro (hlow | hhigh) q hq
    · rw [divide_low hlow] at hq
      obtain ⟨p, hp, rfl⟩ := List.mem_map.mp hq
      exact ⟨lawful_least (wf p hp) _, (hus p hp).2⟩
    · rw [divide_high hhigh hle] at hq
      obtain ⟨p, hp, rfl⟩ := List.mem_map.mp hq
      exact ⟨lawful_most (wf p hp) _, (hus p hp).2⟩
  · rintro rfl
    exact divide_sumMin wf
  · rintro rfl
    exact divide_sumMax wf

/-! ## Rough zones and absorption -/

theorem leaveZone_share (q : RegUnit) : q.leaveZone.share = match q.zone with
    | none => q.share
    | some (lo, hi) => if q.share ≤ lo ∨ hi ≤ q.share then q.share else if hi - q.share < q.share - lo then hi else lo := by
  rcases hz : q.zone with _ | ⟨lo, hi⟩
  · simp [RegUnit.leaveZone, outOfZone, hz]
  · simp only [RegUnit.leaveZone, outOfZone, hz]
    split_ifs <;> omega

/-- What the walk over a displacement `d` that leaves `left` makes of one unit (R100). -/
def Walked (d left : Int) (q p : RegUnit) : Prop :=
  p = { q with share := p.share } ∧ p.Lawful
    ∧ (q.moved = true → p.share = q.share)
    ∧ (0 ≤ d → q.share ≤ p.share ∧ p.share ≤ q.ceiling) ∧ (d ≤ 0 → p.share ≤ q.share ∧ q.floor ≤ p.share)
    ∧ (q.moved = false → 0 < left → p.share = q.ceiling)
    ∧ (q.moved = false → left < 0 → p.share = q.floor)

theorem absorb_left (us : List RegUnit) (hus : ∀ q ∈ us, q.Wf ∧ q.Lawful) (d : Int) :
    (0 ≤ d → 0 ≤ (absorb d us).2 ∧ (absorb d us).2 ≤ d) ∧ (d ≤ 0 → d ≤ (absorb d us).2 ∧ (absorb d us).2 ≤ 0) := by
  induction us generalizing d with
  | nil => simp only [absorb]; omega
  | cons q us ih =>
    obtain ⟨-, up, down, -, -⟩ := takes_spec (hus q (by simp)) d
    have hrest := ih (fun p hp => hus p (List.mem_cons_of_mem _ hp)) (d - q.takes d)
    rw [absorb_cons]
    refine ⟨fun hd => ?_, fun hd => ?_⟩
    · have := up hd
      have := hrest.1 (by omega)
      dsimp only
      omega
    · have := down hd
      have := hrest.2 (by omega)
      dsimp only
      omega

/-- The unit at the front of a walk. -/
theorem walked_front {q : RegUnit} {us : List RegUnit} (hus : ∀ p ∈ q :: us, p.Wf ∧ p.Lawful) (d : Int) :
    Walked d (absorb d (q :: us)).2 q { q with share := q.share + q.takes d } := by
  have hq := hus q (by simp)
  obtain ⟨fixed, up, down, full, empty⟩ := takes_spec hq d
  have hroom := room_bounds hq
  have hleft := absorb_left us (fun p hp => hus p (List.mem_cons_of_mem _ hp)) (d - q.takes d)
  refine ⟨rfl, lawful_between hq ?_, fun hm => by simp [fixed hm], fun hd => ?_, fun hd => ?_, fun hm hl => ?_, fun hm hl => ?_⟩
  · rcases Int.le_total 0 d with hd | hd
    · have := up hd
      exact .inl ⟨by omega, this.2.2⟩
    · have := down hd
      exact .inr ⟨this.2.2, by omega⟩
  · have := up hd
    exact ⟨by dsimp only; omega, this.2.2⟩
  · have := down hd
    exact ⟨by dsimp only; omega, this.2.2⟩
  · rw [absorb_cons] at hl
    dsimp only at hl ⊢
    rcases Int.le_total 0 d with hd | hd
    · have := up hd
      rcases full hm hd with h | h
      · have := (hleft.1 (by omega)).2
        omega
      · exact h
    · have := down hd
      have := (hleft.2 (by omega)).2
      omega
  · rw [absorb_cons] at hl
    dsimp only at hl ⊢
    rcases Int.le_total 0 d with hd | hd
    · have := up hd
      have := (hleft.1 (by omega)).1
      omega
    · have := down hd
      rcases empty hm hd with h | h
      · have := (hleft.2 (by omega)).1
        omega
      · exact h

/-- A walk with no displacement left is the walk of none. -/
theorem walked_zero {q : RegUnit} (hq : q.Wf ∧ q.Lawful) (d : Int) : Walked d 0 q q := by
  have hroom := room_bounds hq
  exact ⟨rfl, hq.2, fun _ => rfl, fun _ => ⟨Int.le_refl _, hroom.1⟩, fun _ => ⟨Int.le_refl _, hroom.2⟩,
    fun _ h => absurd h (by omega), fun _ h => absurd h (by omega)⟩

theorem absorb_walked (us : List RegUnit) (hus : ∀ q ∈ us, q.Wf ∧ q.Lawful) (d : Int) (i : Nat) (q p : RegUnit)
    (hq : us[i]? = some q) (hp : (absorb d us).1[i]? = some p) :
    Walked d (absorb d us).2 q p
      ∧ (q.moved = false → p.share ≠ (if 0 ≤ d then q.ceiling else q.floor) → ∀ j, i < j → (absorb d us).1[j]? = us[j]?) := by
  induction us generalizing d i with
  | nil => simp at hq
  | cons a us ih =>
    have hrest : ∀ q ∈ us, q.Wf ∧ q.Lawful := fun q hq => hus q (List.mem_cons_of_mem _ hq)
    obtain ⟨-, up, down, full, empty⟩ := takes_spec (hus a (by simp)) d
    cases i with
    | zero =>
      obtain rfl : a = q := by simpa using hq
      obtain rfl : { a with share := a.share + a.takes d } = p := by simpa [absorb_cons] using hp
      refine ⟨walked_front hus d, fun hm hne j hj => ?_⟩
      obtain ⟨j, rfl⟩ : ∃ n, j = n + 1 := ⟨j - 1, by omega⟩
      have hall : a.takes d = d := by
        split at hne
        · rename_i hd
          exact (full hm hd).resolve_right hne
        · rename_i hd
          exact (empty hm (by omega)).resolve_right hne
      simp [absorb_cons, hall, absorb_zero]
    | succ i =>
      rw [absorb_cons] at hp ⊢
      simp only [List.getElem?_cons_succ] at hq hp
      by_cases hz : d - a.takes d = 0
      · rw [hz, absorb_zero] at hp ⊢
        obtain rfl : q = p := Option.some.inj (hq.symm.trans hp)
        refine ⟨walked_zero (hrest q (List.mem_of_getElem? hq)) d, fun _ _ j hj => ?_⟩
        obtain ⟨j, rfl⟩ : ∃ n, j = n + 1 := ⟨j - 1, by omega⟩
        rfl
      · obtain ⟨⟨hp1, hp2, hp3, hup, hdown, hfull, hempty⟩, hstop⟩ := ih hrest _ i hq hp
        have hsign : (0 ≤ d ↔ 0 ≤ d - a.takes d) ∧ (d ≤ 0 ↔ d - a.takes d ≤ 0) := by
          rcases Int.le_total 0 d with hd | hd
          · have := up hd
            omega
          · have := down hd
            omega
        refine ⟨⟨hp1, hp2, hp3, fun hd => hup (hsign.1.mp hd), fun hd => hdown (hsign.2.mp hd), hfull, hempty⟩, ?_⟩
        intro hm hne j hj
        obtain ⟨j, rfl⟩ : ∃ n, j = n + 1 := ⟨j - 1, by omega⟩
        simp only [List.getElem?_cons_succ]
        refine hstop hm ?_ j (by omega)
        simpa only [hsign.1] using hne

/-- Settles O20. -/
theorem zonesAndAbsorption : Obligations.ZonesAndAbsorption := by
  refine ⟨fun q => ⟨rfl, leaveZone_share q⟩, fun r us hlow hhigh => ?_, fun d us hus => ?_⟩
  · rw [divide_shared hlow hhigh]
  · obtain ⟨hup, hdown⟩ := absorb_left us hus d
    refine ⟨by simpa using congrArg List.length (absorb_slots us d), absorb_sum us d, fun i q p hq hp => ?_, hup, hdown⟩
    obtain ⟨⟨h1, h2, h3, h4, h5, h6, h7⟩, h8⟩ := absorb_walked us hus d i q p hq hp
    exact ⟨h1, h2, h3, h4, h5, h6, h7, h8⟩

/-- Settles O18. -/
theorem sharesBeforeZones : Obligations.SharesBeforeZones := by
  intro r us hne wf hlow hhigh
  exact ⟨⟨leftover r us, leftover_lt hne wf hlow hhigh, sharesBeforeZones_eq r us⟩, sum_sharesBeforeZones r us hlow hhigh,
    sharesBeforeZones_bounds hne wf hlow hhigh⟩

end Sys2Proof.Proofs
end

section
/-! What an allocation records of each slot, the balance, and the lawfulness of its values (R92 to R104): O16 and O17. -/

namespace Sys2Proof.Proofs

open Sys2Proof.Machine

/-! ## The contribution table (R93) -/

section
variable {s : State} {u : Slot}

theorem underOrder_iff : s.underOrder u = true ↔ ∃ r, s.req u = some r ∧ (r.state = .ordered ∨ r.state = .inStep) := by
  simp [State.underOrder, Option.any_eq_true, Request.ordered]

theorem outside_iff :
    s.outside u = true ↔ s.portState u ≠ .qualified ∨ ∀ x, (s.unitRec u).report = some x → x.remote = false := by
  rcases h : (s.unitRec u).report with _ | x <;> simp [State.outside, h]

theorem stepOf_ordered {r : Request} (hr : s.req u = some r) (ho : r.ordered = true) : s.stepOf u = r.current.map (·.kind) := by
  simp [State.stepOf, hr, Option.filter, ho]

theorem stepOf_of_step {k : StepKind} (hu : s.underOrder u = false) (hm : s.reported u = some (.step k)) : s.stepOf u = some k := by
  have : (s.req u).filter Request.ordered = none := by
    rcases hr : s.req u with _ | r
    · rfl
    · simpa [State.underOrder, hr, Option.filter] using hu
  simp [State.stepOf, this, hm]

theorem stepOf_of_stable {m : Stable} (hu : s.underOrder u = false) (hm : s.reported u = some (.stable m)) : s.stepOf u = none := by
  have : (s.req u).filter Request.ordered = none := by
    rcases hr : s.req u with _ | r
    · rfl
    · simpa [State.underOrder, hr, Option.filter] using hu
  simp [State.stepOf, this, hm]

theorem contribution_outside (h : s.outside u = true) : s.contribution u = (.outside, s.power u) := by
  simp [State.contribution, h]

theorem contribution_stopped (h : s.outside u = false) (hu : s.underOrder u = false)
    (hm : s.reported u = some (.stable .ss) ∨ s.reported u = some .trip) : s.contribution u = (.stopped, 0) := by
  rcases hm with hm | hm <;> simp [State.contribution, h, hu, hm]

theorem contribution_step {k : StepKind} (h : s.outside u = false)
    (hu : s.underOrder u = true ∨ (s.reported u ≠ some (.stable .ss) ∧ s.reported u ≠ some .trip)) (hk : s.stepOf u = some k) :
    s.contribution u = (.step, s.stepValue u k) := by
  rcases hu with hu | ⟨h1, h2⟩
  · simp [State.contribution, h, hu, hk]
  · simp [State.contribution, h, h1, h2, hk]

theorem contribution_pumping (h : s.outside u = false) (hu : s.underOrder u = false) (hm : s.reported u = some (.stable .pmp)) :
    s.contribution u = (.pumping, -(s.limits u).pump) := by
  have hk := stepOf_of_stable hu hm
  simp [State.contribution, h, hm, hk]

theorem contribution_condensing (h : s.outside u = false) (hu : s.underOrder u = false) (hm : s.reported u = some (.stable .cnd)) :
    s.contribution u = (.condensing, -(s.limits u).condense) := by
  have hk := stepOf_of_stable hu hm
  simp [State.contribution, h, hm, hk]

/-- The lines of a slot that reports GEN. -/
theorem contribution_generating (h : s.outside u = false) (hu : s.underOrder u = false) (hm : s.reported u = some (.stable .gen)) :
    (s.dispatchable u = false → s.contribution u = (.genOut, s.power u))
      ∧ (s.dispatchable u = true →
        (∀ v, s.settled u = some v → s.contribution u = (.genHeld, v))
        ∧ (s.settled u = none → s.automatic u = true → s.contribution u = (.regulating, 0))
        ∧ (s.settled u = none → s.automatic u = false → s.contribution u = (.genOther, s.power u))) := by
  have hk := stepOf_of_stable hu hm
  refine ⟨fun hd => ?_, fun hd => ⟨fun v hv => ?_, fun hv ha => ?_, fun hv ha => ?_⟩⟩
  · simp [State.contribution, h, hm, hk, hd]
  · simp [State.contribution, h, hm, hk, hd, hv]
  · simp [State.contribution, h, hm, hk, hd, hv, ha]
  · simp [State.contribution, h, hm, hk, hd, hv, ha]

/-- REGULATING has no fixed value, and GEN_HELD the settled setpoint. -/
theorem contribution_line (s : State) (u : Slot) :
    ((s.contribution u).1 = .regulating → (s.contribution u).2 = 0)
      ∧ ((s.contribution u).1 = .genHeld → s.settled u = some (s.contribution u).2) := by
  unfold State.contribution
  repeat' split
  all_goals simp_all

theorem contribution_regulating (h : s.regulates u = true) : (s.contribution u).2 = 0 :=
  (contribution_line s u).1 (by simpa [State.regulates] using h)

end

/-! ## The recorded shares -/

section
variable {s : State} (perm : s.ros.rotation.Perm Slot.all)

theorem slots_division (s : State) : s.division.units.map (·.slot) = s.regulating := by
  rw [State.division, divide_slots, List.map_map]
  exact List.map_id _

/-- A slot without a share has its contribution. -/
theorem shareOf_fixed {u : Slot} (h : s.regulates u = false) :
    s.shareOf s.division.units u
      = { line := (s.contribution u).1, value := (s.contribution u).2, beforeRemainder := none, beforeZones := none, moved := false } := by
  have hfind : s.division.units.find? (fun q => q.slot == u) = none := by
    rw [List.find?_eq_none]
    intro q hq hslot
    have hmem : q.slot ∈ s.regulating := slots_division s ▸ List.mem_map_of_mem hq
    have hreg : s.regulates q.slot = true := (List.mem_filter.mp hmem).2
    simp_all
  simp [State.shareOf, hfind]

include perm

theorem rotation_nodup : s.ros.rotation.Nodup := perm.nodup_iff.mpr Slot.all_nodup

/-- A unit of the division is the one its slot's share is taken from. -/
theorem shareOf_unit {q : RegUnit} (hq : q ∈ s.division.units) :
    s.shareOf s.division.units q.slot
      = { line := .regulating, value := q.share, beforeRemainder := q.floored, beforeZones := some q.before, moved := q.moved } := by
  have hnd : (s.division.units.map (·.slot)).Nodup := slots_division s ▸ (rotation_nodup perm).filter _
  have hfind : s.division.units.find? (fun p => p.slot == q.slot) = some q := by
    obtain ⟨p, hp⟩ := Option.isSome_iff_exists.mp
      (List.find?_isSome.mpr ⟨q, hq, beq_self_eq_true _⟩ : (s.division.units.find? (fun p => p.slot == q.slot)).isSome = true)
    have hslot : p.slot = q.slot := by simpa using List.find?_some hp
    rw [hp, List.inj_on_of_nodup_map hnd (List.mem_of_find?_eq_some hp) hq hslot]
  simp [State.shareOf, hfind]

/-- Every regulating slot has a unit of the division. -/
theorem unit_of_regulates {u : Slot} (h : s.regulates u = true) : ∃ q ∈ s.division.units, q.slot = u := by
  have hmem : u ∈ s.regulating := List.mem_filter.mpr ⟨perm.mem_iff.mpr (Slot.mem_all u), h⟩
  rw [← slots_division s] at hmem
  obtain ⟨q, hq, rfl⟩ := List.mem_map.mp hmem
  exact ⟨q, hq, rfl⟩

theorem shareOf_line (u : Slot) : (s.shareOf s.division.units u).line = (s.contribution u).1 := by
  by_cases h : s.regulates u = true
  · obtain ⟨q, hq, rfl⟩ := unit_of_regulates perm h
    rw [shareOf_unit perm hq]
    exact ((beq_iff_eq ..).mp h).symm
  · rw [shareOf_fixed (by simpa using h)]

theorem shareOf_line_regulating (u : Slot) : ((s.shareOf s.division.units u).line == .regulating) = s.regulates u := by
  rw [shareOf_line perm, State.regulates]

/-- What the slots without a share contribute. -/
theorem fixedSum_eq : s.fixedSum = (Slot.all.map (fun u =>
    if (s.shareOf s.division.units u).line = .regulating then 0 else (s.shareOf s.division.units u).value)).sum := by
  refine congrArg List.sum (List.map_congr_left fun u _ => ?_)
  by_cases h : s.regulates u = true
  · rw [contribution_regulating h, if_pos (beq_iff_eq.mp ((shareOf_line_regulating perm u).trans h))]
  · have h : s.regulates u = false := by simpa using h
    rw [if_neg (beq_eq_false_iff_ne.mp ((shareOf_line_regulating perm u).trans h)), shareOf_fixed h]

theorem total_allocation : s.allocation.total = s.allocationTarget - s.division.shortfall := by
  have hsum := sum_shareOf s s.ros.rotation s.division.units (rotation_nodup perm) (slots_division s)
  rw [(perm.map _).sum_eq, (perm.map _).sum_eq, State.division, divide_sum] at hsum
  simp only [Allocation.total, State.allocation, SlotMap.get_ofFn, State.division]
  rw [hsum]
  show s.fixedSum + _ = _
  omega

end

/-- R101, R102: a shortfall stands only with a condition, and its sign is that of the saturation. -/
theorem divide_condition (r : Int) (us : List RegUnit) :
    ((divide r us).shortfall ≠ 0 → (divide r us).condition ≠ .met)
      ∧ ((divide r us).condition = .low → (divide r us).shortfall < 0)
      ∧ ((divide r us).condition = .high → 0 < (divide r us).shortfall) := by
  unfold divide
  split
  · simp; omega
  · split
    · simp; omega
    · refine ⟨fun h => by simpa using h, ?_, ?_⟩ <;>
      · dsimp only
        split <;> simp

/-- The line and value of a slot in the allocation just made, by the contribution table. -/
theorem line_of_contribution {s : State} {u : Slot} {l : Line} {v : Int}
    (h : s.contribution u = (l, v)) (hl : l ≠ .regulating) :
    (s.allocation.shares.get u).line = l ∧ (s.allocation.shares.get u).value = v := by
  have hreg : s.regulates u = false := by simp [State.regulates, h, hl]
  simp [State.allocation, shareOf_fixed hreg, h]

/-- R93, R94: every line of the table, from the top. -/
theorem contributionTable {s : State} (perm : s.ros.rotation.Perm Slot.all) (u : Slot) :
    let line (l : Line) (v : Int) : Prop := (s.allocation.shares.get u).line = l ∧ (s.allocation.shares.get u).value = v
    (s.outside u = true → line .outside (s.power u))
      ∧ (s.outside u = false → s.underOrder u = false →
          s.reported u = some (.stable .ss) ∨ s.reported u = some .trip → line .stopped 0)
      ∧ (s.outside u = false → ∀ k : StepKind,
          (∃ r st, s.req u = some r ∧ (r.state = .ordered ∨ r.state = .inStep) ∧ r.current = some st ∧ st.kind = k)
            ∨ s.underOrder u = false ∧ s.reported u = some (.step k) → line .step (s.stepValue u k))
      ∧ (s.outside u = false → s.underOrder u = false →
        (s.reported u = some (.stable .pmp) → line .pumping (-(s.limits u).pump))
        ∧ (s.reported u = some (.stable .cnd) → line .condensing (-(s.limits u).condense))
        ∧ (s.reported u = some (.stable .gen) →
          (s.dispatchable u = false → line .genOut (s.power u))
          ∧ (s.dispatchable u = true →
            (∀ h v, (s.unitRec u).hold = some h → h.settled = some v → line .genHeld v)
            ∧ ((s.unitRec u).hold = none → (s.allocation.shares.get u).line = .regulating)
            ∧ (∀ h, (s.unitRec u).hold = some h → h.settled = none → line .genOther (s.power u))))) := by
  refine ⟨fun h => line_of_contribution (contribution_outside h) (by decide),
    fun h hu hm => line_of_contribution (contribution_stopped h hu hm) (by decide), fun h k hk => ?_, fun h hu => ⟨?_, ?_, ?_⟩⟩
  · refine line_of_contribution (contribution_step h ?_ ?_) (by decide)
    · rcases hk with ⟨r, st, hr, ho, -⟩ | ⟨-, hm⟩
      · exact .inl (underOrder_iff.mpr ⟨r, hr, ho⟩)
      · exact .inr (by simp [hm])
    · rcases hk with ⟨r, st, hr, ho, hc, rfl⟩ | ⟨hu, hm⟩
      · rw [stepOf_ordered hr (by simpa [Request.ordered] using ho), hc]
        rfl
      · exact stepOf_of_step hu hm
  · exact fun hm => line_of_contribution (contribution_pumping h hu hm) (by decide)
  · exact fun hm => line_of_contribution (contribution_condensing h hu hm) (by decide)
  · intro hm
    obtain ⟨hout, hin⟩ := contribution_generating h hu hm
    refine ⟨fun hd => line_of_contribution (hout hd) (by decide), fun hd => ?_⟩
    obtain ⟨hheld, hreg, hother⟩ := hin hd
    refine ⟨fun x v hx hv => ?_, fun hx => ?_, fun x hx hv => ?_⟩
    · exact line_of_contribution (hheld v (by simp [State.settled, hx, hv])) (by decide)
    · rw [State.allocation, SlotMap.get_ofFn, shareOf_line perm,
        hreg (by simp [State.settled, hx]) (by simp [State.automatic, hd, hx])]
    · exact line_of_contribution (hother (by simp [State.settled, hx, hv]) (by simp [State.automatic, hx])) (by decide)

/-- Settles O16. -/
theorem allocationBalances : Obligations.AllocationBalances := by
  intro s perm
  have hcond := divide_condition (s.allocationTarget - s.fixedSum) (s.regulating.map s.regUnit)
  rw [allocate_alc]
  refine ⟨⟨s.allocation, rfl, rfl, total_allocation perm, ?_, fun u => ?_⟩, fun h => ?_, fun h => ?_, fun h => ?_⟩
  · have hunits : s.ros.rotation.filter (fun u => (s.allocation.shares.get u).line == .regulating) = s.regulating :=
      List.filter_congr fun u _ => by simp [State.allocation, shareOf_line_regulating perm]
    have hfixed : (Slot.all.map (fun u => if (s.allocation.shares.get u).line = .regulating then 0
        else (s.allocation.shares.get u).value)).sum = s.fixedSum := by simp [State.allocation, fixedSum_eq perm]
    intro units fixed d
    have hd : d = s.division := by
      show divide (s.allocation.target - (List.map _ Slot.all).sum) (List.map _ (List.filter _ _)) = s.division
      rw [hunits, hfixed]
      rfl
    rw [hd]
    refine ⟨rfl, by simp [State.allocated], by simp [State.allocated], by simp [State.allocated], ?_, fun q hq => ?_⟩
    · rw [slots_division]
      show _ = (List.map _ (List.filter _ _)).map _
      rw [hunits, List.map_map]
      exact (List.map_id _).symm
    · simp only [State.allocation, SlotMap.get_ofFn]
      exact shareOf_unit perm hq
  · intro line reports ordered outside pump condense
    rw [show outside ↔ s.outside u = true from outside_iff.symm, show ordered ↔ s.underOrder u = true from underOrder_iff.symm,
      Bool.not_eq_true, Bool.not_eq_true]
    exact contributionTable perm u
  · have := hcond.1 h
    show (_ == _) = true ∨ (_ == _) = true ∨ (_ == _) = true
    simp only [beq_iff_eq]
    cases hc : s.division.condition
    · exact absurd hc this
    · simp
    · simp
    · simp
  · exact hcond.2.1 (beq_iff_eq.mp h)
  · exact hcond.2.2 (beq_iff_eq.mp h)

/-! ## Lawful values -/

/-- What the division keeps of the units. -/
theorem divide_keeps {α : Type} (f : RegUnit → α)
    (hf : ∀ q v w x m, f { q with share := v, floored := w, before := x, moved := m } = f q) (r : Int) (us : List RegUnit) :
    (divide r us).units.map f = us.map f := by
  have habsorb : ∀ (us : List RegUnit) d, (absorb d us).1.map f = us.map f := by
    intro us
    induction us with
    | nil => intro d; rfl
    | cons q us ih => intro d; simpa [absorb_cons, ih] using hf q _ q.floored q.before q.moved
  unfold divide
  split
  · simpa using fun q _ => hf q _ q.floored _ q.moved
  · split
    · simpa using fun q _ => hf q _ q.floored _ q.moved
    · rw [habsorb, List.map_map]
      rw [← sharesBeforeZones_keeps f (fun q v w x => hf q v w x q.moved) r us]
      exact List.map_congr_left fun q _ => hf q _ q.floored q.before _

theorem outOfZone_bounds {q : RegUnit} (wf : q.Wf) (h1 : q.least ≤ q.share) (h2 : q.share ≤ q.most) : q.leaveZone.Lawful := by
  unfold RegUnit.Lawful
  simp only [leaveZone_share]
  rcases hz : q.zone with _ | ⟨lo, hi⟩
  · exact ⟨h1, h2, by simp [RegUnit.leaveZone, hz]⟩
  · have hedges := wf.2 _ hz
    dsimp only at hedges ⊢
    simp only [RegUnit.leaveZone, hz]
    refine ⟨by split_ifs <;> omega, by split_ifs <;> omega, ?_⟩
    rintro z ⟨⟩
    dsimp only
    split_ifs <;> omega

/-- R104: every unit of a division of well-formed units is given a lawful share. -/
theorem divide_lawful {r : Int} {us : List RegUnit} (wf : ∀ q ∈ us, q.Wf) : ∀ q ∈ (divide r us).units, q.Lawful := by
  have hle := (sumMin_le_sumMax us wf).1
  intro q hq
  rcases Int.lt_or_le r (sumMin us) with hlow | hlow
  · rw [divide_low hlow] at hq
    obtain ⟨p, hp, rfl⟩ := List.mem_map.mp hq
    exact lawful_least (wf p hp) _
  · rcases Int.lt_or_le (sumMax us) r with hhigh | hhigh
    · rw [divide_high hhigh hle] at hq
      obtain ⟨p, hp, rfl⟩ := List.mem_map.mp hq
      exact lawful_most (wf p hp) _
    · rw [divide_shared hlow hhigh] at hq
      have hleft : ∀ p ∈ (Machine.sharesBeforeZones r us).map RegUnit.leaveZone, p.Wf ∧ p.Lawful := by
        intro p hp
        obtain ⟨x, hx, rfl⟩ := List.mem_map.mp hp
        have hwf := wf_sharesBeforeZones wf x hx
        obtain ⟨h1, h2⟩ := sharesBeforeZones_bounds_all wf hlow hhigh x hx
        exact ⟨hwf, outOfZone_bounds hwf h1 h2⟩
      obtain ⟨i, hi⟩ := List.mem_iff_getElem?.mp hq
      have hlen : i < ((Machine.sharesBeforeZones r us).map RegUnit.leaveZone).length := by
        have := congrArg List.length (absorb_slots ((Machine.sharesBeforeZones r us).map RegUnit.leaveZone)
          (sumShares (Machine.sharesBeforeZones r us) - sumShares ((Machine.sharesBeforeZones r us).map RegUnit.leaveZone)))
        simp only [List.length_map] at this ⊢
        obtain ⟨hi', -⟩ := List.getElem?_eq_some_iff.mp hi
        dsimp only at hi'
        omega
      exact (absorb_walked _ hleft _ i _ q (List.getElem?_eq_getElem hlen) hi).1.2.1

theorem record_wf {s : State} (tables : TablesWf s) {u : Slot} {c : CapRecord} (h : s.record u = some c) : c.Wf := by
  unfold State.record at h
  split at h
  · rename_i t hd ht _
    obtain ⟨c', hc', wf, -⟩ := interpolate_wf (h := hd) (tables.caps u t ht)
    rw [h] at hc'
    cases hc'
    exact wf
  · cases h

theorem settleValue_lawful {c : CapRecord} (wf : c.Wf) (v : Int) :
    c.genMin ≤ settleValue c v ∧ settleValue c v ≤ c.genMax
      ∧ ∀ z, c.zone = some z → ¬ (z.1 < settleValue c v ∧ settleValue c v < z.2) := by
  obtain ⟨horder, hzone⟩ := wf
  have hclamp : c.genMin ≤ clampInt c.genMin c.genMax v ∧ clampInt c.genMin c.genMax v ≤ c.genMax := by
    unfold clampInt
    split_ifs <;> omega
  unfold settleValue outOfZone
  generalize clampInt c.genMin c.genMax v = w at *
  rcases hz : c.zone with _ | ⟨lo, hi⟩
  · exact ⟨hclamp.1, hclamp.2, by simp⟩
  · have hedges := hzone _ hz
    dsimp only at hedges ⊢
    refine ⟨by split_ifs <;> omega, by split_ifs <;> omega, ?_⟩
    rintro z ⟨⟩
    dsimp only
    split_ifs <;> omega

/-- Settles O17: a share is lawful for its unit's record, and a settled setpoint for the record it is settled against. -/
theorem setpointsAreLawful : Obligations.SetpointsAreLawful := by
  intro s tables settled perm hrecord u c hc hline
  have hline' := shareOf_line perm u
  simp only [State.allocation, SlotMap.get_ofFn] at hline ⊢
  rcases hline with hline | hline
  · have hreg : s.regulates u = true := by simpa [State.regulates, hline'] using hline
    obtain ⟨q, hq, rfl⟩ := unit_of_regulates perm hreg
    have hwf : ∀ p ∈ s.regulating.map s.regUnit, p.Wf := by
      intro p hp
      obtain ⟨v, hv, rfl⟩ := List.mem_map.mp hp
      obtain ⟨d, hd⟩ := Option.isSome_iff_exists.mp (hrecord v (List.mem_filter.mp hv).2)
      have hlim : s.limits v = d := by simp [State.limits, hd]
      show (s.limits v).Wf
      exact hlim ▸ record_wf tables hd
    have hlawful : q.Lawful := divide_lawful hwf q hq
    have hfields : (q.slot, q.least, q.most, q.zone) ∈ (s.regulating.map s.regUnit).map (fun p => (p.slot, p.least, p.most, p.zone)) := by
      rw [← divide_keeps (fun p => (p.slot, p.least, p.most, p.zone)) (fun _ _ _ _ _ => rfl) (s.allocationTarget - s.fixedSum)]
      exact List.mem_map_of_mem hq
    obtain ⟨p, hp, he⟩ := List.mem_map.mp hfields
    obtain ⟨v, -, rfl⟩ := List.mem_map.mp hp
    obtain ⟨hslot, hleast, hmost, hzone⟩ : v = q.slot ∧ (s.limits v).genMin = q.least ∧ (s.limits v).genMax = q.most
        ∧ (s.limits v).zone = q.zone := by simpa [State.regUnit] using he
    have hlim : s.limits v = c := by simp [State.limits, hslot, hc]
    rw [hlim] at hleast hmost hzone
    rw [shareOf_unit perm hq, hleast, hmost, hzone]
    exact hlawful
  · rw [hline'] at hline
    have hreg : s.regulates u = false := by simp [State.regulates, hline]
    have hv := (contribution_line s u).2 hline
    rw [shareOf_fixed hreg]
    obtain ⟨h, hh, hset⟩ := Option.bind_eq_some_iff.mp hv
    have hagainst := settled u h hh
    rw [hset, hc] at hagainst
    obtain ⟨v, hval⟩ : ∃ v, (s.contribution u).2 = settleValue c v := by
      unfold Hold.settledAgainst at hagainst
      split at hagainst <;> simp_all
    dsimp only
    rw [hval]
    exact settleValue_lawful (record_wf tables hc) v

end Sys2Proof.Proofs
end

section
/-! The emission of setpoints, row selection and the transition queue: O21, O24 and O26. -/

namespace Sys2Proof.Machine

/-! ## What an emission leaves (R103) -/

section
variable {x y z : State}

theorem SameButSent.refl (x : State) : SameButSent x x := ⟨rfl, rfl, rfl, fun _ => rfl⟩

theorem SameButSent.trans (h : SameButSent x y) (k : SameButSent y z) : SameButSent x z :=
  ⟨k.alc.trans h.alc, k.head.trans h.head, k.pli.trans h.pli, fun u => (k.ports u).trans (h.ports u)⟩

theorem SameButSent.params (h : SameButSent x y) : y.params = x.params := State.params_congr h.pli

theorem SameButSent.clock (h : SameButSent x y) : y.clock = x.clock := State.clock_congr h.pli

theorem SameButSent.limits (h : SameButSent x y) (u : Slot) : y.limits u = x.limits u :=
  State.limits_congr h.head (State.params_congr h.pli) u

theorem SameButSent.emitsTo (h : SameButSent x y) {u : Slot} (hu : y.unitRec u = x.unitRec u) (a : Allocation) :
    EmitsTo a y u ↔ EmitsTo a x u := by
  rw [EmitsTo, EmitsTo, h.limits, h.params, hu]

end

end Sys2Proof.Machine

namespace Sys2Proof.Proofs

open Sys2Proof.Machine

/-! ## Emission (R103, R105) -/

/-- The map gives no port to two slots. -/
def MapOneToOne (x : State) : Prop := ∀ u v, (x.unitRec u).port.isSome = true → (x.unitRec u).port = (x.unitRec v).port → u = v

theorem MapOneToOne.of_same {x y : State} (h : MapOneToOne x) (k : SameButSent x y) : MapOneToOne y := by
  intro u v
  rw [k.ports, k.ports]
  exact h u v

/-- The emissions to other slots leave a slot and its port. -/
theorem emitFold_other {u : Slot} {p : Port} (us : List Slot) : u ∉ us → ∀ x : State, MapOneToOne x → (x.unitRec u).port = some p →
    SameButSent x (us.foldl State.emitSetpoint x) ∧ (us.foldl State.emitSetpoint x).unitRec u = x.unitRec u
      ∧ (us.foldl State.emitSetpoint x).portRec p = x.portRec p := by
  induction us with
  | nil => exact fun _ x _ _ => ⟨.refl x, rfl, rfl⟩
  | cons v us ih =>
    intro hu x hm hp
    rw [List.mem_cons, not_or] at hu
    have hsame := emitSetpoint_same x v
    obtain ⟨hunit, hport⟩ := emitSetpoint_other x hm u v p hp hu.1
    obtain ⟨h1, h2, h3⟩ := ih hu.2 (x.emitSetpoint v) (hm.of_same hsame) (by rw [hunit, hp])
    exact ⟨hsame.trans h1, h2.trans hunit, h3.trans hport⟩

/-- R103: the emissions to all slots send a slot its value where its test passes, and leave it and its port otherwise. -/
theorem emitFold_self {u : Slot} {p : Port} (us : List Slot) : us.Nodup → u ∈ us → ∀ (x : State) (a : Allocation),
    x.alc.last = some a → MapOneToOne x → (x.unitRec u).port = some p →
    let t := us.foldl State.emitSetpoint x
    (EmitsTo a x u → (t.unitRec u).lastSetpoint = some { value := (a.shares.get u).value, time := x.clock }
        ∧ ((t.portRec p).sending = some (.setpoint (a.shares.get u).value) ∨ .setpoint (a.shares.get u).value ∈ (t.portRec p).queue))
      ∧ (¬ EmitsTo a x u → t.unitRec u = x.unitRec u ∧ t.portRec p = x.portRec p) := by
  induction us with
  | nil => exact fun _ hu => absurd hu (List.not_mem_nil)
  | cons v us ih =>
    intro hn hu x a ha hm hp
    obtain ⟨hv, hn⟩ := List.nodup_cons.mp hn
    have hsame := emitSetpoint_same x v
    rw [List.foldl_cons]
    obtain rfl | hu' := List.mem_cons.mp hu
    · obtain ⟨hsends, hstays⟩ := emitSetpoint_self x a ha u p hp
      obtain ⟨-, hunit, hport⟩ := emitFold_other us hv (x.emitSetpoint u) (hm.of_same hsame) (by rw [hsame.ports, hp])
      dsimp only
      rw [hunit, hport]
      exact ⟨hsends, fun h => by rw [hstays h]; exact ⟨rfl, rfl⟩⟩
    · have hne : u ≠ v := by rintro rfl; exact hv hu'
      obtain ⟨hunit, hport⟩ := emitSetpoint_other x hm u v p hp hne
      have hrest := ih hn hu' (x.emitSetpoint v) a (by rw [hsame.alc, ha]) (hm.of_same hsame) (by rw [hunit, hp])
      rw [hsame.emitsTo hunit, hsame.clock, hunit, hport] at hrest
      exact hrest

/-- The emission test of R103 with its cases. -/
theorem emits_iff (c : CapRecord) (deadband : Nat) (last : Option SentSetpoint) (v : Int) :
    emits c deadband (last.map (·.value)) v = true ↔ match last with
      | none => True
      | some l => v ≠ l.value
          ∧ (deadband ≤ (v - l.value).natAbs
            ∨ v = c.genMin ∨ v = c.genMax ∨ (∃ z, c.zone = some z ∧ (v = z.1 ∨ v = z.2))
            ∨ l.value < c.genMin ∨ c.genMax < l.value ∨ ∃ z, c.zone = some z ∧ z.1 < l.value ∧ l.value < z.2) := by
  rcases last with _ | l
  · simp [emits]
  · rcases hz : c.zone with _ | z
    · simp only [emits, Option.map_some, CapRecord.isEdge, CapRecord.lawful, hz]
      simp
      omega
    · simp only [emits, Option.map_some, CapRecord.isEdge, CapRecord.lawful, hz]
      simp
      omega

theorem postAllocFlags_same (old : Alc) (s : State) : SameButSent s (State.postAllocFlags old s)
    ∧ (State.postAllocFlags old s).ros = s.ros ∧ (State.postAllocFlags old s).ports = s.ports
    ∧ (State.postAllocFlags old s).pln = s.pln := by
  unfold State.postAllocFlags
  split_ifs <;> exact ⟨⟨rfl, rfl, rfl, fun _ => rfl⟩, rfl, rfl, rfl⟩

theorem emitSetpoint_pln (s : State) (u : Slot) : (s.emitSetpoint u).pln = s.pln := by
  unfold State.emitSetpoint State.sendSetpoint
  repeat' split
  all_goals simp

theorem allocate_pln (s : State) : s.allocate.pln = s.pln := by
  have hfold : ∀ (us : List Slot) (x : State), (us.foldl State.emitSetpoint x).pln = x.pln := by
    intro us
    induction us with
    | nil => exact fun _ => rfl
    | cons u us ih => exact fun x => (ih _).trans (emitSetpoint_pln x u)
  exact (hfold _ _).trans (postAllocFlags_same s.alc (s.setAlc s.allocated)).2.2.2

/-- Settles O21. -/
theorem allocationEmits : Obligations.AllocationEmits := by
  intro s hros
  refine ⟨cascade_allocate s, allocate_alc s, allocate_trs_eq s, allocate_pln s, ?_⟩
  intro u p hp q c due sends
  obtain ⟨hsame, hrosEq, hportsEq, -⟩ := postAllocFlags_same s.alc (s.setAlc s.allocated)
  have hunit : (State.postAllocFlags s.alc (s.setAlc s.allocated)).unitRec u = s.unitRec u := State.unitRec_congr (hrosEq.trans rfl) u
  have hport : (State.postAllocFlags s.alc (s.setAlc s.allocated)).portRec p = s.portRec p := State.portRec_congr (hportsEq.trans rfl) p
  have hm : MapOneToOne (State.postAllocFlags s.alc (s.setAlc s.allocated)) :=
    MapOneToOne.of_same (x := s.setAlc s.allocated) hros.map hsame
  obtain ⟨h1, h2⟩ := emitFold_self Slot.all Slot.all_nodup (Slot.mem_all u) _ s.allocation (by rw [hsame.alc]; rfl) hm
    (by rw [hunit, hp])
  have htest : EmitsTo s.allocation (State.postAllocFlags s.alc (s.setAlc s.allocated)) u ↔ sends := by
    rw [hsame.emitsTo hunit]
    exact and_congr_right fun _ => emits_iff ..
  rw [htest, hsame.clock] at h1
  rw [htest, hunit, hport] at h2
  exact ⟨h1, fun h => ⟨congrArg (·.lastSetpoint) (h2 h).1, (h2 h).2⟩⟩

/-! ## Row selection (R44 to R48) -/

theorem contains_iff (r : PlanRow) (x : Int) : r.contains x = true ↔ r.lower ≤ x ∧ x ≤ r.upper := by simp [PlanRow.contains]

theorem candidateRow_none {rows : List PlanRow} {x : Int} (h : ∀ r ∈ rows, ¬ (r.lower ≤ x ∧ x ≤ r.upper)) :
    candidateRow rows x = none := by
  rw [candidateRow, List.findIdx?_eq_none_iff]
  intro r hr
  rw [← Bool.not_eq_true, contains_iff]
  exact h r hr

theorem candidateRow_some {rows : List PlanRow} {x : Int} {k : Nat} {row : PlanRow} (hk : rows[k]? = some row)
    (h1 : row.lower ≤ x) (h2 : x ≤ row.upper)
    (hleast : ∀ (j : Nat) (q : PlanRow), j < k → rows[j]? = some q → ¬ (q.lower ≤ x ∧ x ≤ q.upper)) :
    candidateRow rows x = some k := by
  obtain ⟨hlt, rfl⟩ := List.getElem?_eq_some_iff.mp hk
  rw [candidateRow, List.findIdx?_eq_some_iff_getElem]
  refine ⟨hlt, (contains_iff _ _).mpr ⟨h1, h2⟩, fun j hj => ?_⟩
  rw [contains_iff]
  exact hleast j _ hj (List.getElem?_eq_getElem (by omega))

theorem selectedRow_eq {s : State} {rows : List PlanRow} (h : s.pln.table = some rows) :
    s.selectedRow = s.pln.selected.bind (fun k => rows[k]?) := by
  simp only [State.selectedRow, h]
  cases s.pln.selected <;> rfl

/-- R50: adoption, and all that its assignment leaves alone. -/
theorem adopt_effect (s : State) (k : Nat) :
    SelectFrame s (s.adopt k) ∧ (s.adopt k).pln.selected = some k ∧ (s.adopt k).pln.proposal = none ∧ (s.adopt k).pln.gap = false
      ∧ Posted s.clock (s.post .rowAdopted none (some k)).ste (s.adopt k).ste := by
  have hassign := cascade_assign
    ((s.setPln { s.pln with selected := some k, proposal := none, gap := false }).post .rowAdopted none (some k))
  exact ⟨select_adopt s k, hassign.selected, hassign.proposal, hassign.gap, hassign.posted⟩

section
variable {s : State} {rows : List PlanRow} (ht : s.pln.table = some rows)
include ht

/-- R45: the selected row stays while it contains the planning target. -/
theorem selectRow_stays (expired : Bool) {k : Nat} {row : PlanRow} (hs : s.pln.selected = some k) (hr : rows[k]? = some row)
    (h1 : row.lower ≤ s.tgt.plan) (h2 : s.tgt.plan ≤ row.upper) :
    State.selectRow expired s = { s with pln := { s.pln with proposal := none, gap := false } } := by
  have hsel : s.selectedRow = some row := by rw [selectedRow_eq ht, hs]; exact hr
  simp only [State.selectRow, hsel, Option.any_some, (contains_iff _ _).mpr ⟨h1, h2⟩, if_true]
  rfl

/-- R46, R47: outside the selected row the candidate decides. -/
theorem selectRow_leaves (expired : Bool)
    (hout : ∀ k row, s.pln.selected = some k → rows[k]? = some row → ¬ (row.lower ≤ s.tgt.plan ∧ s.tgt.plan ≤ row.upper)) :
    (candidateRow rows s.tgt.plan = none → State.selectRow expired s = s.planGap)
      ∧ ∀ k, candidateRow rows s.tgt.plan = some k →
        State.selectRow expired s = if s.pln.selected.isNone then s.adopt k else State.proposeRow expired s k := by
  have hsel : s.selectedRow.any (fun r => r.contains s.tgt.plan) = false := by
    rw [selectedRow_eq ht, Option.any_eq_false]
    intro row hrow
    obtain ⟨k, hk, hr⟩ := Option.bind_eq_some_iff.mp hrow
    rw [← Bool.not_eq_true, contains_iff]
    exact hout k row hk hr
  refine ⟨fun hc => ?_, fun k hc => ?_⟩ <;> simp [State.selectRow, hsel, ht, hc]

end

/-- R47, R48: a candidate beside a selected row. -/
theorem proposeRow_cases (s : State) (k : Nat) :
    (s.pln.proposal.map (·.row) = some k →
      State.proposeRow false s k = { s with pln := { s.pln with gap := false } } ∧ State.proposeRow true s k = s.clearGap.adopt k)
    ∧ (s.pln.proposal.map (·.row) ≠ some k → s.params.dwell ≠ 0 → ∀ expired, State.proposeRow expired s k
        = { s with pln := { s.pln with gap := false, proposal := some { row := k, expiry := later s.clock s.params.dwell } } })
    ∧ (s.pln.proposal.map (·.row) ≠ some k → s.params.dwell = 0 → ∀ expired, State.proposeRow expired s k = s.clearGap.adopt k) := by
  have hany : s.pln.proposal.map (·.row) = some k ↔ s.clearGap.pln.proposal.any (fun p => p.row == k) = true := by
    show _ ↔ s.pln.proposal.any _ = true
    cases s.pln.proposal <;> simp
  refine ⟨fun h => ?_, fun h hd expired => ?_, fun h hd expired => ?_⟩
  · have h := hany.mp h
    constructor <;> simp only [State.proposeRow, h, if_true]
    rfl
  · have h : s.clearGap.pln.proposal.any (fun p => p.row == k) = false := by simpa using fun e => h (hany.mpr e)
    have hd : s.clearGap.params.dwell ≠ 0 := hd
    simp only [State.proposeRow, h, hd, Bool.false_eq_true, if_false]
    rfl
  · have h : s.clearGap.pln.proposal.any (fun p => p.row == k) = false := by simpa using fun e => h (hany.mpr e)
    have hd : s.clearGap.params.dwell = 0 := hd
    simp only [State.proposeRow, h, hd, Bool.false_eq_true, if_false, if_true]

/-- An adoption after PLAN_GAP is cleared is as one before it. -/
theorem adopt_clearGap (s : State) (k : Nat) : s.clearGap.adopt k = s.adopt k := rfl

/-- Settles O24. -/
theorem rowSelectionRule : Obligations.RowSelectionRule := by
  refine ⟨fun expired s rows k row ht hs hr h1 h2 => selectRow_stays ht expired hs hr h1 h2, fun s rows ht hout => ⟨fun hnone expired => ?_, ?_⟩⟩
  · have hgap := (selectRow_leaves ht expired hout).1 (candidateRow_none hnone)
    rw [hgap, State.planGap]
    refine ⟨?_, rfl⟩
    split
    · rfl
    · rfl
  · intro k row hk h1 h2 hleast adopted
    have hcand := candidateRow_some hk h1 h2 hleast
    have hpick (expired) := (selectRow_leaves ht expired hout).2 k hcand
    obtain ⟨hkept, hproposed, hatOnce⟩ := proposeRow_cases s k
    have hadopt : adopted (s.adopt k) := adopt_effect s k
    refine ⟨fun hs expired => ?_, fun hs hp => ?_, fun hs hp hd expired => ?_, fun hs hp hd expired => ?_⟩
    · rw [hpick, hs]
      exact hadopt
    · have hs : s.pln.selected.isNone = false := by simpa using hs
      rw [hpick, hpick, hs]
      exact ⟨(hkept hp).1, (hkept hp).2 ▸ hadopt⟩
    · have hs : s.pln.selected.isNone = false := by simpa using hs
      rw [hpick, hs]
      exact hproposed hp hd expired
    · have hs : s.pln.selected.isNone = false := by simpa using hs
      rw [hpick, hs]
      exact (hatOnce hp hd expired) ▸ hadopt

/-! ## The transition queue (R65, R66) -/

/-- The waiting requests in their order. -/
def ranked (s : State) : List (Slot × Request) := s.waiting.foldr insertByRank []

theorem ranked_perm (s : State) : (ranked s).Perm s.waiting := by
  unfold ranked
  induction s.waiting with
  | nil => exact .refl _
  | cons x l ih => exact (insertByRank_perm _ _).trans (ih.cons x)

theorem ranked_inOrder (s : State) : InRankOrder (ranked s) := by
  unfold ranked
  induction s.waiting with
  | nil => intro i a b ha; simp at ha
  | cons x l ih => exact (inRankOrder_insertByRank x _ ih).1

theorem queue_eq (s : State) : s.queue = (ranked s).map (·.1) := rfl

theorem mem_waiting {s : State} {u : Slot} {r : Request} : (u, r) ∈ s.waiting ↔ s.req u = some r ∧ r.state = .waiting := by
  simp only [State.waiting, List.mem_filterMap, Option.bind_eq_some_iff]
  constructor
  · rintro ⟨v, -, q, hq, h⟩
    split at h
    · rename_i hw
      cases h
      exact ⟨hq, by simpa using hw⟩
    · cases h
  · rintro ⟨hr, hw⟩
    exact ⟨u, Slot.mem_all u, r, hr, by simp [hw]⟩

theorem mem_ranked {s : State} {u : Slot} {r : Request} : (u, r) ∈ ranked s ↔ s.req u = some r ∧ r.state = .waiting := by
  rw [(ranked_perm s).mem_iff, mem_waiting]

theorem mem_queue {s : State} {u : Slot} : u ∈ s.queue ↔ ∃ r, s.req u = some r ∧ r.state = .waiting := by
  simp only [queue_eq, List.mem_map, Prod.exists, exists_and_right, exists_eq_right, mem_ranked]

theorem waiting_slots (s : State) : (s.waiting.map (·.1)).Sublist Slot.all := by
  unfold State.waiting
  induction Slot.all with
  | nil => simp
  | cons u us ih =>
    rw [List.filterMap_cons]
    split
    · exact ih.trans (List.sublist_cons_self _ _)
    · rename_i x hx
      obtain ⟨q, hq, h⟩ := Option.bind_eq_some_iff.mp hx
      split at h
      · cases h
        exact ih.cons_cons u
      · cases h

theorem queue_nodup (s : State) : s.queue.Nodup := by
  rw [queue_eq, ((ranked_perm s).map _).nodup_iff]
  exact Slot.all_nodup.sublist (waiting_slots s)

/-- A place of the queue with its request. -/
theorem ranked_getElem {s : State} {i : Nat} {u : Slot} {r : Request} (hu : s.queue[i]? = some u) (hr : s.req u = some r) :
    (ranked s)[i]? = some (u, r) := by
  rw [queue_eq, List.getElem?_map, Option.map_eq_some_iff] at hu
  obtain ⟨⟨v, q⟩, hq, rfl⟩ := hu
  obtain ⟨hv, -⟩ := mem_ranked.mp (List.mem_of_getElem? hq)
  dsimp only at hr
  rw [hr] at hv
  cases hv
  exact hq

theorem queue_order {s : State} {i j : Nat} {u v : Slot} {a b : Request} (hij : i < j) (hu : s.queue[i]? = some u)
    (hv : s.queue[j]? = some v) (ha : s.req u = some a) (hb : s.req v = some b) :
    (b.cls = .manual → a.cls = .manual)
      ∧ (j = i + 1 → a.cls = b.cls → a.entry = b.entry ∨ 0x80000000 ≤ (a.entry - b.entry).toNat)
      ∧ ∀ base : Word, (∀ w r, s.req w = some r → r.state = .waiting → (r.entry - base).toNat < 0x80000000) →
          a.cls = b.cls → (a.entry - base).toNat ≤ (b.entry - base).toNat := by
  have hi := ranked_getElem hu ha
  have hj := ranked_getElem hv hb
  obtain ⟨d, rfl⟩ : ∃ d, j = i + d + 1 := ⟨j - i - 1, by omega⟩
  have hrank (base) := InRankOrder.ranked (ranked s) (ranked_inOrder s) base d i _ _ hi hj
  refine ⟨(hrank 0).1, fun hnext hc => ?_, fun base hhalf hc => (hrank base).2 (fun x hx => ?_) hc⟩
  · obtain rfl : d = 0 := by omega
    exact (Request.not_before a b (ranked_inOrder s i _ _ hi hj)).2.1 hc
  · obtain ⟨hr, hw⟩ := mem_ranked.mp (show (x.1, x.2) ∈ ranked s from hx)
    exact hhalf x.1 x.2 hr hw

/-! ### One scan of the queue -/

theorem takeConverter_req (s : State) (u v : Slot) (c : Option Conv) : (s.takeConverter u c).req v = s.req v :=
  req_of_requests (takeConverter_only s u c).2.2 v

theorem updateWaterwayOf_req (s : State) (u v : Slot) (f : WaterwayRec → WaterwayRec) : (s.updateWaterwayOf u f).req v = s.req v :=
  req_of_requests (updateWaterwayOf_requests s u f) v

theorem orderStep_other {s : State} {u v : Slot} (h : v ≠ u) : (s.orderStep u).req v = s.req v := by
  unfold State.orderStep
  split
  · split
    · rfl
    · show ((State.setReq _ u _).post _ _ _).req v = s.req v
      exact ((State.setReq_req _ u v _).trans (if_neg h)).trans (State.req_congr (sendOrder_trs _ _ _ _ _) v)
  · rfl

theorem grantStep_other {s : State} {u v : Slot} (r : Request) (st : PathStep) (h : v ≠ u) : (s.grantStep u r st).req v = s.req v := by
  unfold State.grantStep
  dsimp only
  generalize hm : (if st.flowChanging then _ else _ : State) = m
  have hreq : m.req v = s.req v := by
    rw [← hm]
    split
    · rw [updateWaterwayOf_req, takeConverter_req]
    · rw [takeConverter_req]
  split
  · rw [orderStep_other h, State.setReq_req, if_neg h, hreq]
  · split
    · rw [orderStep_other h, State.setReq_req, if_neg h, updateWaterwayOf_req, hreq]
    · rw [State.setReq_req, if_neg h, updateWaterwayOf_req, hreq]

theorem tryGrant_other {s : State} {u v : Slot} (h : v ≠ u) : (s.tryGrant u).req v = s.req v := by
  unfold State.tryGrant
  split
  · rfl
  · split
    · rfl
    · split
      · rfl
      · split
        · exact grantStep_other _ _ h
        · rw [State.setReq_req, if_neg h]

theorem tryGrants_other {v : Slot} (us : List Slot) : v ∉ us → ∀ s : State, (us.foldl State.tryGrant s).req v = s.req v := by
  induction us with
  | nil => exact fun _ _ => rfl
  | cons u us ih =>
    intro hv s
    rw [List.mem_cons, not_or] at hv
    rw [List.foldl_cons, ih hv.2, tryGrant_other hv.1]

/-- Settles O26. -/
theorem transitionQueueOrder : Obligations.TransitionQueueOrder := by
  intro s
  refine ⟨fun u => mem_queue, queue_nodup s, fun i j u v a b => queue_order, fun i u hu => ?_, fun u hu => tryGrants_other _ hu s⟩
  obtain ⟨hi, hget⟩ := List.getElem?_eq_some_iff.mp hu
  have hsplit : s.queue.take i ++ u :: s.queue.drop (i + 1) = s.queue := by
    rw [← hget, ← List.drop_eq_getElem_cons hi, List.take_append_drop]
  have hlater : u ∉ s.queue.drop (i + 1) := by
    have hnd := queue_nodup s
    rw [← hsplit] at hnd
    exact (List.nodup_cons.mp hnd.of_append_right).1
  calc s.evalGrants.req u = ((s.queue.take i ++ u :: s.queue.drop (i + 1)).foldl State.tryGrant s).req u := by rw [hsplit]; rfl
    _ = _ := by rw [List.foldl_append, List.foldl_cons, tryGrants_other _ hlater]

end Sys2Proof.Proofs
end

section
/-! The scheduler's operations as runs of small writes, each with the condition under which the model makes it: a step becomes granted
on a QUALIFIED port alone (R79), an orphan record holds its concurrency place, a waterway's in-progress count rises below its slot
count alone (R67), and an order goes to a QUALIFIED port. -/

namespace Sys2Proof.Machine

/-- A write of a waterway record leaves its row, and its in-progress count falls, stays, or rises by one below the slot count. -/
def WaterwayRec.FollowedBy (q r : WaterwayRec) : Prop :=
  r.row = q.row ∧ (r.inProgress ≤ q.inProgress ∨ q.inProgress < q.row.slots ∧ r.inProgress = q.inProgress + 1)

inductive TrsMicro : State → State → Prop where
  | post (s : State) (k : EventKind) (u : Option Slot) (v : Option Int) : TrsMicro s (s.post k u v)
  | req (s : State) (u : Slot) (r : Option Request)
      (h : ∀ q, r = some q → q.granted = true → (s.req u).any Request.granted = true ∨ s.portState u = .qualified) :
      TrsMicro s (s.setReq u r)
  | counter (s : State) (n : Word) : TrsMicro s (s.setTrs { s.trs with entryCounter := n })
  | holder (s : State) (c : Conv) (h : Option Holder) : TrsMicro s (s.setHolder c h)
  | orphan (s : State) (u : Slot) (o : Option Orphan) (h : ∀ x, o = some x → x.place = true) : TrsMicro s (s.setOrphan u o)
  | waterway (s : State) (w : Waterway) (q r : WaterwayRec) (h : s.waterwayRec w = some q) (follows : q.FollowedBy r) :
      TrsMicro s (s.setWaterway w r)
  | unwarn (s : State) (u : Slot) : TrsMicro s (s.unwarn u)
  | order (s : State) (p : Port) (k : StepKind) (c : Option Conv) (q : Purpose) (h : (s.portRec p).state = .qualified) :
      TrsMicro s (s.sendOrder p k c q)
  | cease (s : State) (u : Slot) (q : Purpose) : TrsMicro s (s.ceaseOrder u q)

/-- A run of the scheduler's writes. -/
inductive Turn (s : State) : State → Prop where
  | refl : Turn s s
  | step {t r : State} (h : Turn s t) (k : TrsMicro t r) : Turn s r

theorem Turn.trans {s t r : State} (h : Turn s t) (g : Turn t r) : Turn s r := by
  induction g with
  | refl => exact h
  | step _ k ih => exact .step ih k

theorem TrsMicro.turn {s t : State} (h : TrsMicro s t) : Turn s t := .step .refl h

theorem Turn.foldl {α : Type} {f : State → α → State} (h : ∀ s a, Turn s (f s a)) (xs : List α) (s : State) :
    Turn s (xs.foldl f s) := by
  induction xs generalizing s with
  | nil => exact .refl
  | cons x xs ih => exact (h s x).trans (ih _)

/-! ## What a run leaves -/

/-- The roster, the planner and the allocator are the same, and the rest is as after a cascade. -/
structure TrsFrame (s t : State) : Prop where
  cascade : CascadeFrame s t
  ros : t.ros = s.ros
  pln : t.pln = s.pln
  alc : t.alc = s.alc

theorem TrsFrame.refl (s : State) : TrsFrame s s := ⟨.refl s, rfl, rfl, rfl⟩

theorem TrsFrame.trans {s t r : State} (h : TrsFrame s t) (k : TrsFrame t r) : TrsFrame s r :=
  ⟨h.cascade.trans k.cascade, k.ros.trans h.ros, k.pln.trans h.pln, k.alc.trans h.alc⟩

theorem sendOrder_planning (s : State) (p : Port) (k : StepKind) (c : Option Conv) (q : Purpose) :
    (s.sendOrder p k c q).pln = s.pln ∧ (s.sendOrder p k c q).alc = s.alc := by
  simp [State.sendOrder]

theorem ceaseOrder_planning (s : State) (u : Slot) (q : Purpose) :
    (s.ceaseOrder u q).pln = s.pln ∧ (s.ceaseOrder u q).alc = s.alc := by
  unfold State.ceaseOrder
  repeat' split
  all_goals exact ⟨rfl, rfl⟩

theorem unwarn_only (s : State) (u : Slot) : (s.unwarn u).ros = s.ros ∧ (s.unwarn u).pln = s.pln ∧ (s.unwarn u).alc = s.alc := by
  unfold State.unwarn
  split <;> exact ⟨rfl, rfl, rfl⟩

theorem TrsMicro.frame {s t : State} (h : TrsMicro s t) : TrsFrame s t := by
  cases h with
  | post k u v => exact ⟨cascade_post s k u v, rfl, rfl, rfl⟩
  | req u r _ => exact ⟨cascade_setReq s u r, rfl, rfl, rfl⟩
  | counter n => exact ⟨(Micro.counter (keep := false) s n).frame, rfl, rfl, rfl⟩
  | holder c h => exact ⟨cascade_setHolder s c h, by simp, by simp, by simp⟩
  | orphan u o _ => exact ⟨cascade_setOrphan s u o, rfl, rfl, rfl⟩
  | waterway w q r h f =>
    refine ⟨cascade_setWaterway s w r fun x hx => ?_, by simp, by simp, by simp⟩
    rw [h] at hx
    cases hx
    exact f.1
  | unwarn u => exact ⟨cascade_unwarn s u, (unwarn_only s u).1, (unwarn_only s u).2.1, (unwarn_only s u).2.2⟩
  | order p k c q _ => exact ⟨cascade_sendOrder s p k c q, sendOrder_ros s p k c q, (sendOrder_planning s p k c q).1, (sendOrder_planning s p k c q).2⟩
  | cease u q => exact ⟨cascade_ceaseOrder s u q, ceaseOrder_ros s u q, (ceaseOrder_planning s u q).1, (ceaseOrder_planning s u q).2⟩

theorem Turn.frame {s t : State} (h : Turn s t) : TrsFrame s t := by
  induction h with
  | refl => exact .refl s
  | step _ k ih => exact ih.trans k.frame

theorem Turn.portState {s t : State} (h : Turn s t) (u : Slot) : t.portState u = s.portState u := h.frame.cascade.play.portState u

/-! ## The operations as runs -/

theorem turn_setReq {s : State} {u : Slot} {r : Request} {q : Option Request} (hr : s.req u = some r)
    (h : ∀ x, q = some x → x.granted = true → r.granted = true) : Turn s (s.setReq u q) :=
  (TrsMicro.req s u q fun x hx hg => .inl (by simp [hr, h x hx hg])).turn

/-- A request written in WAITING, or none, is never granted. -/
theorem turn_setReq_waiting (s : State) (u : Slot) {q : Option Request} (h : ∀ x, q = some x → x.state = .waiting) :
    Turn s (s.setReq u q) :=
  (TrsMicro.req s u q fun x hx hg => by simp [Request.granted, h x hx] at hg).turn

theorem turn_updateWaterwayOf (s : State) (u : Slot) (f : WaterwayRec → WaterwayRec)
    (h : ∀ w q, s.waterwayOf u = some w → s.waterwayRec w = some q → q.FollowedBy (f q)) : Turn s (s.updateWaterwayOf u f) := by
  unfold State.updateWaterwayOf
  split
  · exact .refl
  · rename_i w hw
    split
    · exact .refl
    · rename_i q hq
      exact (TrsMicro.waterway s w q (f q) hq (h w q hw hq)).turn

theorem WaterwayRec.followedBy_release (q : WaterwayRec) (now : Word) (settle : Bool) : q.FollowedBy (q.release now settle) := by
  refine ⟨q.release_row now settle, .inl ?_⟩
  unfold WaterwayRec.release WaterwayRec.startSettle
  split <;> exact Nat.sub_le _ _

theorem turn_endRequest (s : State) (u : Slot) : Turn s (s.endRequest u) :=
  (turn_setReq_waiting s u (by simp)).step (.cease _ u .supervised)

theorem turn_releaseHeld (s : State) (u : Slot) (settle : Bool) : Turn s (s.releaseHeld u settle) := by
  unfold State.releaseHeld
  split
  · exact .refl
  · rename_i r hr
    have tail (x : State) (h1 : Turn s x) (hx : x.trs.requests = s.trs.requests) : Turn s
        (((if r.slotHeld then x.updateWaterwayOf u (·.release x.clock settle) else x).unwarn u).setReq u
          (some { r with conv := none, slotHeld := false })) := by
      generalize hy : (if r.slotHeld then x.updateWaterwayOf u (·.release x.clock settle) else x) = y
      have h2 : Turn x y ∧ y.trs.requests = x.trs.requests := by
        subst hy
        split
        · exact ⟨turn_updateWaterwayOf x u _ fun _ q _ _ => q.followedBy_release _ _, updateWaterwayOf_requests x u _⟩
        · exact ⟨.refl, rfl⟩
      have hreq : (y.unwarn u).req u = some r := by
        rw [req_of_requests (unwarn_requests y u), req_of_requests h2.2, req_of_requests hx, hr]
      refine ((h1.trans h2.1).step (.unwarn y u)).trans (turn_setReq hreq ?_)
      rintro _ ⟨⟩ hg
      exact hg
    cases r.conv with
    | none => exact tail s .refl rfl
    | some c => exact tail _ (TrsMicro.holder s c none).turn (setHolder_requests s c none)

theorem turn_withdraw (s : State) (u : Slot) : Turn s (s.withdraw u) := by
  unfold State.withdraw
  dsimp only
  split
  · exact turn_releaseHeld s u false
  · exact (turn_releaseHeld s u false).trans (turn_setReq_waiting _ u (by rintro _ ⟨⟩; rfl))

theorem turn_waitOn (s : State) (u : Slot) (r : Request) (c : ReqClass) (d : Stable) (p : List PathStep) :
    Turn s (s.waitOn u r c d p) := by
  unfold State.waitOn
  split
  · exact turn_endRequest s u
  · exact turn_setReq_waiting s u (by rintro _ ⟨⟩; rfl)

theorem turn_rewarn {s : State} {u : Slot} {r : Request} (hr : s.req u = some r) (c : ReqClass) (d : Stable) :
    Turn s (s.rewarn u r c d) := by
  unfold State.rewarn
  dsimp only
  split
  · refine turn_setReq hr ?_
    rintro _ ⟨⟩ hg
    exact hg
  · refine (turn_withdraw s u).trans ?_
    split
    · exact .refl
    · exact turn_waitOn ..

theorem turn_compareDemand (s : State) (u : Slot) : Turn s (s.compareDemand u) := by
  unfold State.compareDemand
  split
  · dsimp only
    split
    · exact (turn_setReq_waiting s u (by rintro _ ⟨⟩; rfl)).step (.counter _ _)
    · exact .refl
  · exact .refl

theorem turn_takeDemand (s : State) (u : Slot) : Turn s (s.takeDemand u) := by
  unfold State.takeDemand
  split
  · exact turn_compareDemand s u
  · rename_i r hr
    have hsame {q : Request} (h : q.state = r.state) : Turn s (s.setReq u (some q)) :=
      turn_setReq hr (by rintro _ ⟨⟩ hg; simpa [Request.granted, h] using hg)
    split
    · exact turn_endRequest s u
    · split
      · exact hsame rfl
      · exact turn_waitOn ..
    · exact (turn_withdraw s u).trans (turn_endRequest _ u)
    · split
      · exact hsame rfl
      · exact turn_rewarn hr ..
    · exact hsame rfl
    · exact hsame rfl

theorem turn_failRequest (s : State) (u : Slot) (settle : Bool) : Turn s (s.failRequest u settle) :=
  (turn_releaseHeld s u settle).trans (turn_endRequest _ u)

theorem turn_cancelRequest (s : State) (u : Slot) : Turn s (s.cancelRequest u) := by
  unfold State.cancelRequest
  split
  · exact .refl
  · exact turn_failRequest s u _

theorem turn_completeStep (s : State) (u : Slot) (r : Request) (k : StepKind) : Turn s (s.completeStep u r k) := by
  have h := ((turn_releaseHeld s u true).step (.post _ .stepDone (some u) (some (stepCode k)))).step (.cease _ u .supervised)
  refine h.trans ?_
  unfold State.completeStep
  dsimp only
  generalize (if r.redirected then pathOf k.dest r.dest else r.path) = path
  generalize (if r.redirected then 1 else r.index + 1) = index
  split
  · exact turn_endRequest _ u
  · exact turn_setReq_waiting _ u (by rintro _ ⟨⟩; rfl)

theorem turn_judgeStep {s : State} {u : Slot} {r : Request} (hr : s.req u = some r) (ho : r.granted = true) (st : PathStep) (m : Reported) :
    Turn s (s.judgeStep u r st m) := by
  unfold State.judgeStep
  split
  · exact turn_completeStep ..
  · split
    · exact turn_failRequest ..
    · split
      · exact turn_setReq hr fun _ _ _ => ho
      · split
        · exact .refl
        · exact (turn_failRequest s u true).step (.post _ _ _ _)

theorem turn_supervise (s : State) (u : Slot) (m : Reported) (changed : Bool) : Turn s (s.supervise u m changed) := by
  unfold State.supervise
  split
  · exact .refl
  · rename_i r hr
    split
    · split
      · exact turn_endRequest s u
      · split
        · exact turn_waitOn ..
        · exact .refl
    · split
      · exact (turn_withdraw s u).trans (turn_endRequest _ u)
      · split
        · exact turn_rewarn hr ..
        · exact .refl
    · rename_i hw _
      split
      · exact .refl
      · exact turn_judgeStep hr (by simpa [Request.granted] using hw) ..

theorem turn_orphanRequest (s : State) (u : Slot) : Turn s (s.orphanRequest u) := by
  unfold State.orphanRequest
  split
  · exact .refl
  · rename_i r _
    split
    · exact .refl
    · exact turn_withdraw s u
    · dsimp only
      refine (Turn.trans ?_ (turn_endRequest _ u))
      refine Turn.step (Turn.step ?_ (.orphan _ u _ (by rintro _ ⟨⟩; rfl))) (.unwarn _ u)
      split
      · exact (TrsMicro.holder ..).turn
      · exact .refl

theorem turn_releaseOrphan (s : State) (u : Slot) : Turn s (s.releaseOrphan u) := by
  unfold State.releaseOrphan
  split
  · exact .refl
  · rename_i o _
    have tail (x : State) (h : Turn s x) :
        Turn s ((if o.slotHeld then x.updateWaterwayOf u (·.release x.clock true) else x).setOrphan u none) := by
      refine Turn.step (h.trans ?_) (.orphan _ u none (by simp))
      split
      · exact turn_updateWaterwayOf x u _ fun _ q _ _ => q.followedBy_release _ _
      · exact .refl
    cases o.conv with
    | none => exact tail s .refl
    | some c => exact tail _ (TrsMicro.holder s c none).turn

theorem turn_ite {s t : State} (c : Bool) (h : Turn s t) : Turn s (if c then t else s) := by
  split
  · exact h
  · exact .refl

theorem turn_releaseObserved (s : State) (u : Slot) : Turn s (s.releaseObserved u) :=
  (turn_ite _ (TrsMicro.holder s .c1 none).turn).trans (turn_ite _ (TrsMicro.holder _ .c2 none).turn)

theorem turn_claimObserved (s : State) (u : Slot) (c : Conv) : Turn s (s.claimObserved u c) := by
  unfold State.claimObserved
  split
  · exact .refl
  · split
    · exact (TrsMicro.holder ..).turn
    · exact (TrsMicro.post ..).turn

theorem turn_watchConverters (s : State) (u : Slot) (m : Reported) (c : Option Conv) : Turn s (s.watchConverters u m c) := by
  have tail (x : State) (h : Turn s x) : Turn s (if m = .step .pStart then match c, x.req u with
      | some c, none => x.claimObserved u c
      | _, _ => x else x.releaseObserved u) := by
    refine h.trans ?_
    split
    · split
      · exact turn_claimObserved ..
      · exact .refl
    · exact turn_releaseObserved ..
  cases m with
  | stable => exact tail _ (turn_releaseOrphan s u)
  | trip => exact tail _ (turn_releaseOrphan s u)
  | step => exact tail s .refl

/-! ## Grants -/

theorem turn_takeConverter (s : State) (u : Slot) (c : Option Conv) : Turn s (s.takeConverter u c) := by
  unfold State.takeConverter
  split
  · exact (TrsMicro.holder ..).turn
  · exact .refl

theorem portState_of_port {s : State} {u : Slot} {p : Port} (hp : (s.unitRec u).port = some p) :
    s.portState u = (s.portRec p).state := by
  simp [State.portState, State.slotPort, hp]

theorem dispatchable_qualified {s : State} {u : Slot} (h : s.dispatchable u = true) : s.portState u = .qualified := by
  simp only [State.dispatchable, Bool.and_eq_true, beq_iff_eq] at h
  exact h.1.1.1.1.1

theorem turn_orderStep {s : State} {u : Slot} (hq : s.portState u = .qualified) : Turn s (s.orderStep u) := by
  unfold State.orderStep
  split
  · rename_i r p hr hp
    split
    · exact .refl
    · rename_i st _
      have horder := (TrsMicro.order s p st.kind r.conv .supervised (by rw [← portState_of_port hp, hq])).turn
      refine (horder.step (.req _ u _ fun _ _ _ => .inr ?_)).step (.post _ _ _ _)
      rw [horder.portState, hq]
  · exact .refl

/-- R67: the waterway of a flow-changing step that passes the grant test has room. -/
theorem testGrant_room {s : State} {u : Slot} {st : PathStep} (h : s.testGrant u st = .granted) (hf : st.flowChanging = true)
    {w : Waterway} {q : WaterwayRec} (hw : s.waterwayOf u = some w) (hq : s.waterwayRec w = some q) :
    q.inProgress < q.row.slots := by
  by_contra hfull
  have htest : flowTest (s.waterwayRec w) = some .waterway := by simp [flowTest, hq, Nat.not_lt.mp hfull]
  unfold State.testGrant at h
  simp only [hf, hw, Option.bind_some, htest, if_true] at h
  repeat' split at h
  all_goals simp at h

theorem turn_grantStep {s : State} {u : Slot} (r : Request) {st : PathStep} (hq : s.portState u = .qualified)
    (hroom : st.flowChanging = true → ∀ w q, s.waterwayOf u = some w → s.waterwayRec w = some q → q.inProgress < q.row.slots) :
    Turn s (s.grantStep u r st) := by
  unfold State.grantStep
  dsimp only
  generalize (if st.kind = .pStart then s.freeConverter else none) = c
  have h1 := turn_takeConverter s u c
  have hways := (takeConverter_only s u c).2.1
  generalize s.takeConverter u c = a at h1 hways
  generalize hb : (if st.flowChanging then a.updateWaterwayOf u _ else a : State) = b
  have h2 : Turn a b := by
    subst hb
    split
    · rename_i hf
      refine turn_updateWaterwayOf a u _ fun w q hw hq => ⟨rfl, .inr ⟨hroom hf w q ?_ ?_, rfl⟩⟩
      · rwa [← h1.frame.cascade.play.waterwayOf]
      · rwa [State.waterwayRec, ← hways]
    · exact .refl
  have hqb : b.portState u = .qualified := by rw [(h1.trans h2).portState, hq]
  have order (x : State) (hx : Turn b x) (q : Request) : Turn x ((x.setReq u (some q)).orderStep u) := by
    have hqx : x.portState u = .qualified := by rw [hx.portState, hqb]
    have hset := (TrsMicro.req x u (some q) fun _ _ _ => .inr hqx).turn
    exact hset.trans (turn_orderStep (by rw [hset.portState, hqx]))
  split
  · exact (h1.trans h2).trans (order b .refl _)
  · have h3 : Turn b (b.updateWaterwayOf u (·.warn u b.clock)) :=
      turn_updateWaterwayOf b u _ fun _ q _ _ => ⟨rfl, .inl (Nat.le_refl _)⟩
    split
    · exact ((h1.trans h2).trans h3).trans (order _ h3 _)
    · refine ((h1.trans h2).trans h3).step (.req _ u _ fun _ _ _ => .inr ?_)
      rw [h3.portState, hqb]

theorem turn_tryGrant (s : State) (u : Slot) : Turn s (s.tryGrant u) := by
  unfold State.tryGrant
  split
  · exact .refl
  · rename_i r hr
    split
    · exact .refl
    · split
      · exact .refl
      · split
        · rename_i h
          exact turn_grantStep r (dispatchable_qualified (testGrant_dispatchable h)) fun hf w q => testGrant_room h hf
        · refine turn_setReq hr ?_
          rintro _ ⟨⟩ hg
          exact hg

theorem turn_evalGrants (s : State) : Turn s s.evalGrants := .foldl turn_tryGrant _ s

theorem turn_grantStage (s before : State) (c : Causes) : Turn s (s.grantStage before c) := by
  unfold State.grantStage
  split
  · exact turn_evalGrants s
  · exact .refl

theorem turn_dropGrant (before s : State) (u : Slot) : Turn s (State.dropGrant before s u) := by
  unfold State.dropGrant
  split
  · exact turn_withdraw s u
  · exact .refl

end Sys2Proof.Machine
end

section
/-! What a command does, said once for all the invariants: the frame it came in is taken, then it does one of the things of `Did`, and then
it may send a reply. The refusals all do nothing. -/

namespace Sys2Proof

/-- The commands that may move the part state, the dispatch-liveness timer or the part clock (R156, R159 to R166). -/
def Instr.moves : Instr → Bool
  | .powerOn | .restart _ | .resetInput | .base .. | .reg _ | .levels .. | .unitHold .. | .unitRelease _ | .emergencyStop _ | .enable _
  | .disable _ | .resume _ | .partClockAdvance | .dispatchLivenessExpiry => true
  | _ => false

end Sys2Proof

namespace Sys2Proof.Machine

/-- The same but for the framers, the frames sent and the commands waiting. -/
structure Framed (s t : State) : Prop where
  pli : { t.pli with framer := none } = { s.pli with framer := none }
  ports : ∀ p, { t.portRec p with framer := none } = { s.portRec p with framer := none }
  ros : t.ros = s.ros
  head : t.head = s.head
  tgt : t.tgt = s.tgt
  prf : t.prf = s.prf
  pln : t.pln = s.pln
  trs : t.trs = s.trs
  alc : t.alc = s.alc
  ste : t.ste = s.ste

theorem Framed.refl (s : State) : Framed s s := ⟨rfl, fun _ => rfl, rfl, rfl, rfl, rfl, rfl, rfl, rfl, rfl⟩

theorem framed_takePlantFrame (s : State) : Framed s s.takePlantFrame := ⟨rfl, fun _ => rfl, rfl, rfl, rfl, rfl, rfl, rfl, rfl, rfl⟩

theorem framed_setPort (s : State) (p : Port) (f : Framer) : Framed s (s.setPort p { s.portRec p with framer := f }) := by
  refine ⟨rfl, fun q => ?_, rfl, rfl, rfl, rfl, rfl, rfl, rfl, rfl⟩
  rw [State.setPort_portRec]
  split
  · rename_i h
    rw [h]
  · rfl

theorem framed_takeUnitFrame (s : State) (p : Port) : Framed s (s.takeUnitFrame p) := framed_setPort s p none

theorem framed_setFramer (s : State) (l : Link) (f : Framer) : Framed s (s.setFramer l f) := by
  cases l with
  | plant => exact ⟨rfl, fun _ => rfl, rfl, rfl, rfl, rfl, rfl, rfl, rfl, rfl⟩
  | unit p => exact framed_setPort s p f

theorem framed_sendUp (s : State) (f : PlantFrame) : Framed s (s.sendUp f) := ⟨rfl, fun _ => rfl, rfl, rfl, rfl, rfl, rfl, rfl, rfl, rfl⟩

theorem framed_manage (s : State) (tag kind : Byte) (code : Code) (d : Nat) (b : List Byte) : Framed s (s.manage tag kind code d b) :=
  framed_sendUp s _

theorem framed_answer (s : State) (tag kind : Byte) (code : Code) (d : Nat) (b : List Byte) : Framed s (s.answer tag kind code d b) :=
  framed_sendUp s _

theorem framed_pending (s : State) (rest : List Instr) : Framed s { s with pending := rest } :=
  ⟨rfl, fun _ => rfl, rfl, rfl, rfl, rfl, rfl, rfl, rfl, rfl⟩

/-- What a command that is carried out leaves from `s`, where `a` is `s` with the command's frame taken; the mark says that the command may
move the part state, the dispatch-liveness timer or the part clock. -/
inductive Did (s a : State) : Bool → State → Prop where
  | nothing (b : Bool) : Did s a b a
  | fresh : Did s a true s.freshFrom
  | restart (v : Int) : Did s a true (a.restarted v)
  | sent (p : Port) : Did s a false (a.sendNext p)
  | heard : Did s a true (a.acceptDispatch.finish s)
  | base (v : Int) (i : Option Int) (h : a.acceptDispatch.tgt.source = .direct) : Did s a true ((a.acceptDispatch.applyBase v i).finish s)
  | reg (v : Int) (h : a.acceptDispatch.tgt.source ≠ .pattern) : Did s a true ((a.acceptDispatch.applyReg v).finish s)
  | levels (up low : Nat) : Did s a true ((a.acceptDispatch.applyLevels up low).finish s)
  | hold (u : Slot) (m : Stable) (v : Option Int) (free : (s.unitRec u).hold.any (·.emergency) = false) :
      Did s a true (((a.acceptDispatch.setHold u (some (Hold.ordered m v))).settleHold u).finish s (holdCauses (s.unitRec u).hold m u))
  | release (u : Slot) (held : (s.unitRec u).hold.isSome = true) : Did s a true ((a.acceptDispatch.releaseHold u).finish s { allocate := true, hand := [u] })
  | emergency (u : Slot) : Did s a true (State.emergencyEvent s a.acceptDispatch u)
  | emergencyAll : Did s a true (State.emergencyAll s a.acceptDispatch)
  | param (q : Param) (v : Int) (n : Nat) (store : q.store v = some n) (new : a.held q ≠ n) (taken : a.refusesChange q n = false) :
      Did s a false ((State.applyParam a (a.writeParam q n) q).finish a (paramCauses q (a.held q) n))
  | loadBegin (pos : TablePos) (n : Nat) (h : pos.takesRows n = true) :
      Did s a false (a.supersede.setLoad (some { pos := pos, count := n, rows := [] }))
  | loadRow (l : Load) (i : Nat) (row : List Byte) (r : Row) (b : Bool) (h : a.pli.load = some l) (hi : i < l.count)
      (hr : l.pos.readRow i row = some (r, b)) : Did s a false (a.setLoad (some { l with rows := storeRow i r l.rows }))
  | unload : Did s a false (a.setLoad none)
  | commit (l : Load) (h : a.pli.load = some l) (barred : a.waterwayBarred l.pos = false) (whole : l.missing = none)
      (passes : l.failing = none) (free : l.pos = .waterway → a.waterwayBusy = false) :
      Did s a false (((a.setLoad none).commit l).finish s (commitCauses l.pos))
  | define (field : List Byte) (n : List Byte) (count interval : Nat) (rep : Bool) (v : Int)
      (h : a.defineCheck field count interval = .ok n) :
      Did s a false (a.setDir (a.prf.dir ++ [{ name := n, minutes := interval, rep := rep, entries := List.replicate count (clampPlant v) }]))
  | write (field : List Byte) (first count : Nat) (values : List Half) (p : Profile) (h : a.rangeCheck field first count = .ok p)
      (hc : values.length = count) : Did s a false (a.setEntries p.name (writeAt first (clampValues values) p.entries))
  | delete (n : List Byte) (free : (a.named n && a.prf.playback.state.inUse) = false) :
      Did s a false (if a.named n then (a.setDir (a.prf.dir.filter (fun p => p.name != n))).setPlayback .idle
        else a.setDir (a.prf.dir.filter (fun p => p.name != n)))
  | deleteAll : Did s a false ((a.setDir []).setPlayback .idle)
  | play (n : List Byte) (h : (a.profileNamed n).isSome = true) : Did s a false ((a.play n).finish s { allocate := a.playMoves n })
  | stopPlay : Did s a false (a.setPlayback .idle)
  | edge : Did s a false (a.activeEdge.finish s { allocate := s.edgeMoves })
  | boundary : Did s a false (a.boundary.pulse.finish s { allocate := s.boundaryMoves })
  | holdover (h : a.prf.playback.state.clocked = true) : Did s a false (a.holdover.finish s { allocate := s.boundaryMoves })
  | meetPlan : Did s a false (a.meetPlan.finish s)
  | meetRamp : Did s a false (a.meetRamp.finish s)
  | pulseEnd : Did s a false (a.setPrf { a.prf with pulse := none })
  | source (src : Source) (h : a.inFallback = false) (new : src ≠ a.tgt.source) : Did s a false ((a.changeSource src).finish s)
  | pattern (low high : Int) (period : Nat) (shape : Shape) : Did s a false ((a.storePattern (.stored low high period shape)).finish s)
  | period (r : PatternRun) (h : a.tgt.run = some r) : Did s a false ((a.stepPattern r).finish s)
  | enable (h : a.governs = false) : Did s a true (a.enabled.finish s { allocate := true })
  | disable : Did s a true a.disabled
  | resume (h : a.pli.part = .fallback .awaitResume) : Did s a true (a.returnToDispatching.finish s)
  | map (u : Slot) (p : Option Port) (h : a.governs = false) (free : a.takenByOther u p = false) (ne : (a.unitRec u).port ≠ p) :
      Did s a false ((a.remap u p).finish s)
  | expect (u : Slot) (n : Byte) (h : n ≠ 0) : Did s a false (a.setUnit u { a.unitRec u with expected := n })
  | rotationSet (slots : List Byte) (h : rotationFault slots = none) :
      Did s a false ((a.setRotation (slots.filterMap slotOfCode)).finish s { replan := true })
  | rotate : Did s a false ((a.setRotation (rotateOnce a.ros.rotation)).finish s { replan := true })
  | clear (u : Slot) : Did s a false ((a.clearMarks u).finish s)
  | resources (u : Slot) : Did s a false (((a.releaseOrphan u).releaseObserved u).finish s { grants := true })
  | line (first : Bool) (l : MonitorLine) : Did s a false (a.setLine first l)
  | eventRead : Did s a false a.dropRead
  | ident (p : Port) (u : Slot) (n : Byte) (h : a.slotOf p = some u) (used : (a.portRec p).state ≠ .unused) :
      Did s a false ((a.compareIdent p u n).finish s { hand := a.identHand p u n })
  | status (p : Port) (u : Slot) (r : Report) (cause : Byte) (h : a.slotOf p = some u) (hq : (a.portRec p).state = .qualified) :
      Did s a false (((a.setPort p { a.portRec p with liveness := some (later a.clock a.params.unitTimeout) }).acceptStatus u r cause).finish s)
  | ack (p : Port) (u : Slot) (o : Outstanding) (accepted : Bool) (cause : Byte) (h : a.slotOf p = some u)
      (ho : (a.portRec p).outstanding = some o) (hq : (a.portRec p).state = .qualified) :
      Did s a false ((a.ackOrder p u o.purpose accepted cause).finish s)
  | tick : Did s a true ((a.setPli { a.pli with clock := a.clock + 1 }).ramp.finish s)
  | linkDown : Did s a true (a.linkDown.finish s)
  | levelStale : Did s a false ((a.setHead { a.head with levelTimer := none, stale := true }).post .headStale none (a.head.estimate.map Int.ofNat))
  | dwell (h : a.governs = true) : Did s a false ((a.selectRow true).finish s)
  | backoff (u : Slot) : Did s a false ((a.setUnit u { a.unitRec u with backoff := none }).finish s)
  | lead (u : Slot) (r : Request) (h : a.req u = some r) (hw : r.state = .warning) : Did s a false ((a.orderStep u).finish s)
  | noAck (u : Slot) (r : Request) (h : a.req u = some r) (ho : r.state = .ordered) : Did s a false ((a.refuseStep u (-1)).finish s)
  | timeout (u : Slot) (r : Request) (k : StepKind) (h : a.req u = some r) (ho : r.ordered = true) : Did s a false ((a.timeoutStep u k).finish s)
  | settled (w : Waterway) (r : WaterwayRec) (h : a.waterwayRec w = some r) :
      Did s a false ((a.setWaterway w { r with settle := none }).finish s { grants := true })
  | phase (w : Waterway) (r : WaterwayRec) (h : a.waterwayRec w = some r) : Did s a false (a.setWaterway w (r.nextPhase a.clock))
  | probe (p : Port) (h : (a.portRec p).state.isProbing = true) : Did s a false ((a.probeExpired p).finish s)
  | lost (p : Port) (h : (a.portRec p).state = .qualified) : Did s a false ((a.losePort p).finish s { hand := (a.slotOf p).toList })

/-- A frame has been taken, and nothing sent up the plant link. -/
structure Taken (s a : State) : Prop extends Framed s a where
  pending : a.pending = s.pending
  plantOut : a.plantOut = s.plantOut

theorem Taken.refl (s : State) : Taken s s := ⟨.refl s, rfl, rfl⟩

theorem taken_takePlantFrame (s : State) : Taken s s.takePlantFrame := ⟨framed_takePlantFrame s, rfl, rfl⟩

theorem taken_takeUnitFrame (s : State) (p : Port) : Taken s (s.takeUnitFrame p) := ⟨framed_takeUnitFrame s p, rfl, rfl⟩

/-- What the command sends up the plant link (R157): nothing, where it is no request, or one reply with its tag, class and kind.
`s` is the state in which the reply is sent. -/
inductive Sends (c : Instr) (s : State) : State → Prop where
  | nothing (h : ∀ k, c.plantPacket = some k → k.cls = 1) (known : ∀ cls kind tag, c = .unknownFrame cls kind tag → cls = 1) (tick : c ≠ .partClockAdvance) :
      Sends c s s
  | reply (k : PlantPacket) (h : c.plantPacket = some k) (hc : k.cls ≠ 1) (code : Code) (detail : Half) (body : List Byte) :
      Sends c s (s.sendUp (.reply k.tag k.cls k.kind code detail body))
  | unknown (cls kind tag : Byte) (h : c = .unknownFrame cls kind tag) (hc : cls ≠ 1) : Sends c s (s.sendUp (.reply tag cls kind .unknown 0 []))
  | status (h : c = .partClockAdvance) : Sends c s (s.sendUp (.plantStatus s.statusBody))

theorem Sends.framed {c : Instr} {s t : State} (h : Sends c s t) : Framed s t := by
  cases h with
  | nothing => exact .refl s
  | reply => exact framed_sendUp ..
  | unknown => exact framed_sendUp ..
  | status => exact framed_sendUp ..

/-- The command is carried out: its frame is taken, something is done, and a reply may be sent. -/
def Carries (c : Instr) (s : State) : Prop := ∃ a m t, exec c s = .next t ∧ Taken s a ∧ Did s a c.moves m ∧ Sends c m t

namespace Carries

variable {c : Instr} {s : State}

/-- A dispatch frame, or a frame of no known kind of class DISPATCH. -/
theorem of_plant {m : State} (h : exec c s = .next m) (d : Did s s.takePlantFrame c.moves m)
    (silent : ∀ k, c.plantPacket = some k → k.cls = 1 := by rintro _ ⟨⟩; rfl)
    (known : ∀ cls kind tag, c = .unknownFrame cls kind tag → cls = 1 := by nofun) (tick : c ≠ .partClockAdvance := by nofun) : Carries c s :=
  ⟨_, m, m, h, taken_takePlantFrame s, d, .nothing silent known tick⟩

theorem of_unit {t : State} (p : Port) (h : exec c s = .next t) (d : Did s (s.takeUnitFrame p) c.moves t)
    (silent : ∀ k, c.plantPacket = some k → k.cls = 1 := by nofun)
    (known : ∀ cls kind tag, c = .unknownFrame cls kind tag → cls = 1 := by nofun) (tick : c ≠ .partClockAdvance := by nofun) : Carries c s :=
  ⟨_, t, t, h, taken_takeUnitFrame s p, d, .nothing silent known tick⟩

theorem of_timer {t : State} (h : exec c s = .next t) (d : Did s s c.moves t)
    (silent : ∀ k, c.plantPacket = some k → k.cls = 1 := by nofun)
    (known : ∀ cls kind tag, c = .unknownFrame cls kind tag → cls = 1 := by nofun) (tick : c ≠ .partClockAdvance := by nofun) : Carries c s :=
  ⟨s, t, t, h, .refl s, d, .nothing silent known tick⟩

/-- A management request that is carried out, with its reply. -/
theorem managed {m : State} {tag kind : Byte} {code : Code} {d : Nat} {b : List Byte} (h : exec c s = .next (m.manage tag kind code d b))
    (did : Did s s.takePlantFrame c.moves m) (k : ∃ w, c.plantPacket = some ⟨2, kind, tag, w⟩ := by exact ⟨_, rfl⟩) : Carries c s := by
  obtain ⟨w, hk⟩ := k
  exact ⟨_, m, _, h, taken_takePlantFrame s, did, .reply _ hk (show (2 : Byte) ≠ 1 by decide) code _ b⟩

/-- A request refused, with its reply. -/
theorem refused {tag kind : Byte} {code : Code} {d : Nat} {b : List Byte} (h : exec c s = .next (s.takePlantFrame.manage tag kind code d b))
    (k : ∃ w, c.plantPacket = some ⟨2, kind, tag, w⟩ := by exact ⟨_, rfl⟩) : Carries c s :=
  managed h (.nothing _) k

/-- A query that is carried out, with its answer. -/
theorem queried {m : State} {tag kind : Byte} {code : Code} {d : Nat} {b : List Byte} (h : exec c s = .next (m.answer tag kind code d b))
    (did : Did s s.takePlantFrame c.moves m) (k : ∃ w, c.plantPacket = some ⟨3, kind, tag, w⟩ := by exact ⟨_, rfl⟩) : Carries c s := by
  obtain ⟨w, hk⟩ := k
  exact ⟨_, m, _, h, taken_takePlantFrame s, did, .reply _ hk (show (3 : Byte) ≠ 1 by decide) code _ b⟩

/-- A query, with its answer. -/
theorem answered {tag kind : Byte} {code : Code} {d : Nat} {b : List Byte} (h : exec c s = .next (s.takePlantFrame.answer tag kind code d b))
    (k : ∃ w, c.plantPacket = some ⟨3, kind, tag, w⟩ := by exact ⟨_, rfl⟩) : Carries c s :=
  queried h (.nothing _) k

end Carries

end Sys2Proof.Machine
end

section
/-! Every command is carried out (`Carries`), one lemma per command that has cases, and what follows for an invariant. -/

namespace Sys2Proof.Machine

-- One lemma after another: side by side, these many `split`s ask for more threads than the check's memory limit leaves.
set_option Elab.async false

/-! ## The class of a command's frame, with its options or without -/

theorem dispatch_base (t : Half) (i : Option Half) (k : PlantPacket) (h : (Instr.base t i).plantPacket = some k) : k.cls = 1 := by
  cases i with
  | none => exact (Option.some.inj h) ▸ rfl
  | some _ => exact (Option.some.inj h) ▸ rfl

theorem dispatch_unitHold (u m : Byte) (v : Option Half) (k : PlantPacket) (h : (Instr.unitHold u m v).plantPacket = some k) : k.cls = 1 := by
  cases v with
  | none => exact (Option.some.inj h) ▸ rfl
  | some _ => exact (Option.some.inj h) ▸ rfl

theorem packet_profileDefine (tag : Byte) (name : List Byte) (c : Half) (i r : Byte) (fill : Option Half) :
    ∃ w, (Instr.profileDefine tag name c i r fill).plantPacket = some ⟨2, 7, tag, w⟩ := by
  cases fill with
  | none => exact ⟨_, rfl⟩
  | some _ => exact ⟨_, rfl⟩

theorem packet_profileCatalog (tag : Byte) (start : Option Byte) : ∃ w, (Instr.profileCatalog tag start).plantPacket = some ⟨3, 5, tag, w⟩ := by
  cases start with
  | none => exact ⟨_, rfl⟩
  | some _ => exact ⟨_, rfl⟩

/-! ## Each command -/

section
variable (s : State) (tag : Byte)

theorem taken_setFramer (l : Link) (f : Framer) : Taken s (s.setFramer l f) := by
  cases l with
  | plant => exact ⟨framed_setFramer s .plant f, rfl, rfl⟩
  | unit p => exact ⟨framed_setFramer s (.unit p) f, rfl, rfl⟩

theorem carries_framerIdleTimeout (l : Link) : Carries (.framerIdleTimeout l) s :=
  ⟨s.setFramer l none, _, _, rfl, taken_setFramer s l none, .nothing _, .nothing nofun nofun nofun⟩

theorem carries_unknownFrame (cls kind : Byte) : Carries (.unknownFrame cls kind tag) s := by
  have h : exec (.unknownFrame cls kind tag) s = execUnknownFrame cls kind tag s := rfl
  unfold execUnknownFrame at h
  dsimp only at h
  split at h
  · rename_i hc
    exact .of_plant h (.nothing _) nofun fun _ _ _ hk => (Instr.unknownFrame.inj hk).1 ▸ hc
  · rename_i hc
    exact ⟨_, _, _, h, taken_takePlantFrame s, .nothing _, .unknown cls kind tag rfl hc⟩

theorem carries_base (target : Half) (increment : Option Half) : Carries (.base target increment) s := by
  have h : exec (.base target increment) s = execBase target increment s := rfl
  unfold execBase at h
  dsimp only at h
  split at h
  · rename_i hd
    exact .of_plant h (.base _ _ hd.2) (dispatch_base _ _)
  · exact .of_plant h .heard (dispatch_base _ _)

theorem carries_reg (increment : Half) : Carries (.reg increment) s := by
  have h : exec (.reg increment) s = execReg increment s := rfl
  unfold execReg at h
  dsimp only at h
  split at h
  · rename_i hd
    exact .of_plant h (.reg _ hd.2)
  · exact .of_plant h .heard

theorem carries_unitHold (slot mode : Byte) (setpoint : Option Half) : Carries (.unitHold slot mode setpoint) s := by
  have h : exec (.unitHold slot mode setpoint) s = execUnitHold slot mode setpoint s := rfl
  unfold execUnitHold at h
  dsimp only at h
  split at h
  · split at h
    · exact .of_plant h (.nothing _) (dispatch_unitHold _ _ _)
    · rename_i hfree
      exact .of_plant h (.hold _ _ _ (by simpa using hfree)) (dispatch_unitHold _ _ _)
  · exact .of_plant h (.nothing _) (dispatch_unitHold _ _ _)

theorem carries_unitRelease (slot : Byte) : Carries (.unitRelease slot) s := by
  have h : exec (.unitRelease slot) s = execUnitRelease slot s := rfl
  unfold execUnitRelease at h
  dsimp only at h
  split at h
  · exact .of_plant h (.nothing _)
  · split at h
    · exact .of_plant h .heard
    · rename_i hh
      exact .of_plant h (.release _ (by rw [hh]; rfl))

theorem carries_emergencyStop (slot : Byte) : Carries (.emergencyStop slot) s := by
  have h : exec (.emergencyStop slot) s = execEmergencyStop slot s := rfl
  unfold execEmergencyStop at h
  split at h
  · exact .of_plant h .emergencyAll
  · split at h
    · exact .of_plant h (.nothing _)
    · exact .of_plant h (.emergency _)

theorem did_changeParam {a : State} {q : Param} {v : Int} {n : Nat} (hs : q.store v = some n)
    (hr : ¬ (a.held q ≠ n ∧ a.refusesChange q n = true)) : Did s a false (a.changeParam q n) := by
  unfold State.changeParam
  split
  · exact (.nothing _)
  · rename_i hne
    exact .param q v n hs hne (by simpa using fun h => hr ⟨hne, h⟩)

theorem carries_configSet (param : Byte) (value : Word) (port : Byte) : Carries (.configSet tag param value port) s := by
  have h : exec (.configSet tag param value port) s = execConfigSet tag param value port s := rfl
  unfold execConfigSet at h
  dsimp only at h
  split at h
  · exact .refused h
  · split at h
    · exact .refused h
    · rename_i hs
      split at h
      · exact .refused h
      · rename_i hr
        split at h
        · exact .managed h (did_changeParam s hs hr)
        · exact .managed h (did_changeParam s hs hr)

theorem carries_configGet (param port : Byte) : Carries (.configGet tag param port) s := by
  have h : exec (.configGet tag param port) s = execConfigGet tag param port s := rfl
  unfold execConfigGet at h
  dsimp only at h
  split at h
  · exact .refused h
  · exact .refused h

theorem carries_loadBegin (position rows : Byte) : Carries (.loadBegin tag position rows) s := by
  have h : exec (.loadBegin tag position rows) s = execLoadBegin tag position rows s := rfl
  unfold execLoadBegin at h
  dsimp only at h
  split at h
  · exact .refused h
  · split at h
    · exact .refused h
    · split at h
      · exact .refused h
      · rename_i hn
        exact .managed h (.loadBegin _ _ (by simpa using hn))

theorem carries_loadRow (index : Byte) (row : List Byte) : Carries (.loadRow tag index row) s := by
  have h : exec (.loadRow tag index row) s = execLoadRow tag index row s := rfl
  unfold execLoadRow at h
  dsimp only at h
  split at h
  · exact .refused h
  · rename_i l hl
    split at h
    · exact .refused h
    · rename_i hi
      split at h
      · exact .refused h
      · rename_i hr
        split at h
        · exact .managed h (.loadRow l _ _ _ _ hl (Nat.not_le.mp hi) hr)
        · exact .managed h (.loadRow l _ _ _ _ hl (Nat.not_le.mp hi) hr)

theorem carries_loadEnd : Carries (.loadEnd tag) s := by
  have h : exec (.loadEnd tag) s = execLoadEnd tag s := rfl
  unfold execLoadEnd at h
  dsimp only at h
  split at h
  · exact .refused h
  · rename_i l hl
    split at h
    · exact .refused h
    · rename_i hb
      split at h
      · exact .managed h .unload
      · rename_i hm
        split at h
        · exact .managed h .unload
        · rename_i hf
          split at h
          · exact .refused h
          · rename_i hfree
            refine .managed h (.commit l hl (by simpa using hb) hm hf fun hw => ?_)
            simpa [hw] using hfree

theorem carries_loadAbort : Carries (.loadAbort tag) s := by
  have h : exec (.loadAbort tag) s = execLoadAbort tag s := rfl
  unfold execLoadAbort at h
  dsimp only at h
  split at h
  · exact .refused h
  · exact .managed h .unload

theorem carries_profileDefine (name : List Byte) (count : Half) (interval rep : Byte) (fill : Option Half) :
    Carries (.profileDefine tag name count interval rep fill) s := by
  have h : exec (.profileDefine tag name count interval rep fill) s = execProfileDefine tag name count interval rep fill s := rfl
  unfold execProfileDefine at h
  dsimp only at h
  split at h
  · exact .refused h (packet_profileDefine ..)
  · rename_i hn
    split at h
    · exact .managed h (.define name _ _ _ _ _ hn) (packet_profileDefine ..)
    · exact .managed h (.define name _ _ _ _ _ hn) (packet_profileDefine ..)

theorem carries_profileWrite (name : List Byte) (first : Half) (count : Byte) (values : List Half) :
    Carries (.profileWrite tag name first count values) s := by
  have h : exec (.profileWrite tag name first count values) s = execProfileWrite tag name first count values s := rfl
  unfold execProfileWrite at h
  dsimp only at h
  split at h
  · exact .refused h
  · rename_i hc
    split at h
    · exact .refused h
    · rename_i hp
      split at h
      · exact .managed h (.write name _ _ values _ hp (by simpa using hc))
      · exact .managed h (.write name _ _ values _ hp (by simpa using hc))

theorem carries_profileRead (name : List Byte) (first : Half) (count : Byte) : Carries (.profileRead tag name first count) s := by
  have h : exec (.profileRead tag name first count) s = execProfileRead tag name first count s := rfl
  unfold execProfileRead at h
  dsimp only at h
  split at h
  · exact .refused h
  · exact .refused h

theorem carries_profileDelete (name : List Byte) : Carries (.profileDelete tag name) s := by
  have h : exec (.profileDelete tag name) s = execProfileDelete tag name s := rfl
  unfold execProfileDelete at h
  dsimp only at h
  split at h
  · exact .refused h
  · split at h
    · exact .refused h
    · split at h
      · exact .refused h
      · rename_i hfree
        exact .managed h (.delete _ (by simpa using hfree))

theorem carries_profileDeleteAll : Carries (.profileDeleteAll tag) s := by
  have h : exec (.profileDeleteAll tag) s = execProfileDeleteAll tag s := rfl
  unfold execProfileDeleteAll at h
  dsimp only at h
  split at h
  · exact .refused h
  · exact .managed h .deleteAll

theorem carries_play (name : List Byte) : Carries (.play tag name) s := by
  have h : exec (.play tag name) s = execPlay tag name s := rfl
  unfold execPlay at h
  dsimp only at h
  split at h
  · exact .refused h
  · split at h
    · exact .refused h
    · rename_i hn
      split at h
      · exact .refused h
      · exact .managed h (.play _ (by simpa [← Option.isSome_iff_ne_none] using hn))

theorem carries_stopPlay : Carries (.stopPlay tag) s := by
  have h : exec (.stopPlay tag) s = execStopPlay tag s := rfl
  unfold execStopPlay at h
  dsimp only at h
  split at h
  · exact .refused h
  · exact .managed h .stopPlay

theorem carries_sourceSet (source : Byte) : Carries (.sourceSet tag source) s := by
  have h : exec (.sourceSet tag source) s = execSourceSet tag source s := rfl
  unfold execSourceSet at h
  dsimp only at h
  split at h
  · exact .refused h
  · split at h
    · exact .refused h
    · rename_i hf
      split at h
      · exact .refused h
      · rename_i hne
        exact .managed h (.source _ (by simpa using hf) hne)

theorem carries_patternSet (low high period : Half) (shape : Byte) : Carries (.patternSet tag low high period shape) s := by
  have h : exec (.patternSet tag low high period shape) s = execPatternSet tag low high period shape s := rfl
  unfold execPatternSet at h
  dsimp only at h
  split at h
  · exact .refused h
  · split at h
    · exact .refused h
    · exact .managed h (.pattern _ _ _ _)

theorem carries_enable : Carries (.enable tag) s := by
  have h : exec (.enable tag) s = execEnable tag s := rfl
  unfold execEnable at h
  dsimp only at h
  split at h
  · exact .refused h
  · rename_i hg
    split at h
    · exact .refused h
    · exact .managed h (.enable (by simpa using hg))

theorem carries_disable : Carries (.disable tag) s := by
  have h : exec (.disable tag) s = execDisable tag s := rfl
  unfold execDisable at h
  dsimp only at h
  split at h
  · exact .managed h .disable
  · exact .refused h

theorem carries_resume : Carries (.resume tag) s := by
  have h : exec (.resume tag) s = execResume tag s := rfl
  unfold execResume at h
  dsimp only at h
  split at h
  · rename_i hp
    exact .managed h (.resume hp)
  · exact .refused h

theorem carries_mapSet (slot port : Byte) : Carries (.mapSet tag slot port) s := by
  have h : exec (.mapSet tag slot port) s = execMapSet tag slot port s := rfl
  unfold execMapSet at h
  dsimp only at h
  split at h
  · exact .refused h
  · exact .refused h
  · split at h
    · exact .refused h
    · rename_i hg
      split at h
      · exact .refused h
      · rename_i hf
        split at h
        · exact .refused h
        · rename_i hne
          exact .managed h (.map _ _ (by simpa using hg) (by simpa using hf) hne)

theorem carries_expectSet (slot number : Byte) : Carries (.expectSet tag slot number) s := by
  have h : exec (.expectSet tag slot number) s = execExpectSet tag slot number s := rfl
  unfold execExpectSet at h
  dsimp only at h
  split at h
  · exact .refused h
  · split at h
    · exact .refused h
    · rename_i hn
      exact .managed h (.expect _ _ hn)

theorem carries_rotationSet (slots : List Byte) : Carries (.rotationSet tag slots) s := by
  have h : exec (.rotationSet tag slots) s = execRotationSet tag slots s := rfl
  unfold execRotationSet at h
  dsimp only at h
  split at h
  · exact .refused h
  · rename_i hf
    exact .managed h (.rotationSet slots hf)

theorem carries_clearUnit (slot : Byte) : Carries (.clearUnit tag slot) s := by
  have h : exec (.clearUnit tag slot) s = execClearUnit tag slot s := rfl
  unfold execClearUnit at h
  dsimp only at h
  split at h
  · exact .refused h
  · split at h
    · exact .refused h
    · exact .managed h (.clear _)

theorem carries_releaseResources (slot : Byte) : Carries (.releaseResources tag slot) s := by
  have h : exec (.releaseResources tag slot) s = execReleaseResources tag slot s := rfl
  unfold execReleaseResources at h
  dsimp only at h
  split at h
  · exact .refused h
  · split at h
    · exact .managed h (.resources _)
    · exact .refused h

theorem carries_lineSet (line selection polarity : Byte) : Carries (.lineSet tag line selection polarity) s := by
  have h : exec (.lineSet tag line selection polarity) s = execLineSet tag line selection polarity s := rfl
  unfold execLineSet at h
  dsimp only at h
  split at h
  · exact .refused h
  · split at h
    · exact .refused h
    · split at h
      · exact .refused h
      · exact .managed h (.line _ _)

theorem carries_unitReq (slot : Byte) : Carries (.unitReq tag slot) s := by
  have h : exec (.unitReq tag slot) s = execUnitReq tag slot s := rfl
  unfold execUnitReq at h
  dsimp only at h
  split at h
  · exact .answered h
  · exact .answered h

theorem carries_tableRead (position row : Byte) : Carries (.tableRead tag position row) s := by
  have h : exec (.tableRead tag position row) s = execTableRead tag position row s := rfl
  unfold execTableRead at h
  dsimp only at h
  split at h
  · exact .answered h
  · exact .answered h

theorem carries_ident (p : Port) (number : Byte) : Carries (.ident p number) s := by
  have h : exec (.ident p number) s = execIdent p number s := rfl
  unfold execIdent at h
  dsimp only at h
  split at h
  · exact .of_unit p h (.nothing _)
  · rename_i hu
    split at h
    · exact .of_unit p h (.nothing _)
    · rename_i hn
      exact .of_unit p h (.ident p _ number hu fun hs => hn (.inr hs))

theorem carries_status (p : Port) (mode : Byte) (power : Half) (remote available converter cause : Byte) :
    Carries (.status p mode power remote available converter cause) s := by
  have h : exec (.status p mode power remote available converter cause) s
      = execStatus p mode power remote available converter cause s := rfl
  unfold execStatus at h
  dsimp only at h
  split at h
  · rename_i hu
    split at h
    · exact .of_unit p h (.nothing _)
    · rename_i hq
      exact .of_unit p h (.status p _ _ cause hu (by simpa using hq))
  · exact .of_unit p h (.nothing _)

theorem carries_orderAck (p : Port) (t result cause : Byte) : Carries (.orderAck p t result cause) s := by
  have h : exec (.orderAck p t result cause) s = execOrderAck p t result cause s := rfl
  unfold execOrderAck at h
  dsimp only at h
  split at h
  · rename_i hu ho
    split at h
    · exact .of_unit p h (.nothing _)
    · rename_i hq
      rw [not_or, not_not] at hq
      exact .of_unit p h (.ack p _ _ _ cause hu ho hq.1)
  · exact .of_unit p h (.nothing _)

theorem carries_markerInputEdge (rising : Bool) : Carries (.markerInputEdge rising) s := by
  have h : exec (.markerInputEdge rising) s = execMarkerInputEdge rising s := rfl
  unfold execMarkerInputEdge at h
  split at h
  · exact .of_timer h .edge
  · exact .of_timer h (.nothing _)

theorem carries_intervalTimerBoundary : Carries .intervalTimerBoundary s := by
  have h : exec .intervalTimerBoundary s = execIntervalTimerBoundary s := rfl
  unfold execIntervalTimerBoundary at h
  split at h
  · exact .of_timer h .boundary
  · exact .of_timer h (.nothing _)

theorem carries_holdoverBoundary : Carries .holdoverBoundary s := by
  have h : exec .holdoverBoundary s = execHoldoverBoundary s := rfl
  unfold execHoldoverBoundary at h
  split at h
  · rename_i hc
    exact .of_timer h (.holdover hc.2.1)
  · exact .of_timer h (.nothing _)

theorem carries_patternPeriodExpiry : Carries .patternPeriodExpiry s := by
  have h : exec .patternPeriodExpiry s = execPatternPeriodExpiry s := rfl
  unfold execPatternPeriodExpiry at h
  split at h
  · exact .of_timer h (.nothing _)
  · rename_i r hr
    split at h
    · exact .of_timer h (.period r hr)
    · exact .of_timer h (.nothing _)

theorem carries_dispatchLivenessExpiry : Carries .dispatchLivenessExpiry s := by
  have h : exec .dispatchLivenessExpiry s = execDispatchLivenessExpiry s := rfl
  unfold execDispatchLivenessExpiry at h
  split at h
  · exact .of_timer h .linkDown
  · exact .of_timer h (.nothing _)

theorem carries_levelTimerExpiry : Carries .levelTimerExpiry s := by
  have h : exec .levelTimerExpiry s = execLevelTimerExpiry s := rfl
  unfold execLevelTimerExpiry at h
  split at h
  · exact .of_timer h .levelStale
  · exact .of_timer h (.nothing _)

theorem carries_dwellTimerExpiry : Carries .dwellTimerExpiry s := by
  have h : exec .dwellTimerExpiry s = execDwellTimerExpiry s := rfl
  unfold execDwellTimerExpiry at h
  split at h
  · rename_i hg
    exact .of_timer h (.dwell (Bool.and_eq_true _ _ ▸ hg).1)
  · exact .of_timer h (.nothing _)

theorem carries_backoffExpiry (u : Slot) : Carries (.backoffExpiry u) s := by
  have h : exec (.backoffExpiry u) s = execBackoffExpiry u s := rfl
  unfold execBackoffExpiry at h
  split at h
  · exact .of_timer h (.backoff u)
  · exact .of_timer h (.nothing _)

theorem carries_leadTimerExpiry (u : Slot) : Carries (.leadTimerExpiry u) s := by
  have h : exec (.leadTimerExpiry u) s = execLeadTimerExpiry u s := rfl
  unfold execLeadTimerExpiry at h
  split at h
  · rename_i hd
    obtain ⟨r, hr, hw⟩ := (Option.any_eq_true _ _).mp hd
    exact .of_timer h (.lead u r hr (beq_iff_eq.mp (Bool.and_eq_true _ _ ▸ hw).1))
  · exact .of_timer h (.nothing _)

theorem carries_ackTimerExpiry (u : Slot) : Carries (.ackTimerExpiry u) s := by
  have h : exec (.ackTimerExpiry u) s = execAckTimerExpiry u s := rfl
  unfold execAckTimerExpiry at h
  split at h
  · rename_i hd
    obtain ⟨r, hr, ho⟩ := (Option.any_eq_true _ _).mp hd
    exact .of_timer h (.noAck u r hr (beq_iff_eq.mp (Bool.and_eq_true _ _ ▸ ho).1))
  · exact .of_timer h (.nothing _)

theorem carries_stepTimerExpiry (u : Slot) : Carries (.stepTimerExpiry u) s := by
  have h : exec (.stepTimerExpiry u) s = execStepTimerExpiry u s := rfl
  unfold execStepTimerExpiry at h
  split at h
  · rename_i hd
    obtain ⟨r, hr, ho⟩ := (Option.any_eq_true _ _).mp hd
    split at h
    · exact .of_timer h (.nothing _)
    · exact .of_timer h (.timeout u r _ hr (Bool.and_eq_true _ _ ▸ ho).1)
  · exact .of_timer h (.nothing _)

theorem carries_settleTimerExpiry (w : Waterway) : Carries (.settleTimerExpiry w) s := by
  have h : exec (.settleTimerExpiry w) s = execSettleTimerExpiry w s := rfl
  unfold execSettleTimerExpiry at h
  split at h
  · exact .of_timer h (.nothing _)
  · rename_i r hr
    split at h
    · exact .of_timer h (.settled w r hr)
    · exact .of_timer h (.nothing _)

theorem carries_warningPhaseEnd (w : Waterway) : Carries (.warningPhaseEnd w) s := by
  have h : exec (.warningPhaseEnd w) s = execWarningPhaseEnd w s := rfl
  unfold execWarningPhaseEnd at h
  split at h
  · exact .of_timer h (.nothing _)
  · rename_i r hr
    exact .of_timer h (.phase w r hr)

theorem carries_probeTimerExpiry (p : Port) : Carries (.probeTimerExpiry p) s := by
  have h : exec (.probeTimerExpiry p) s = execProbeTimerExpiry p s := rfl
  unfold execProbeTimerExpiry at h
  split at h
  · rename_i hp
    exact .of_timer h (.probe p (Bool.and_eq_true _ _ ▸ hp).1)
  · exact .of_timer h (.nothing _)

theorem carries_statusLivenessExpiry (p : Port) : Carries (.statusLivenessExpiry p) s := by
  have h : exec (.statusLivenessExpiry p) s = execStatusLivenessExpiry p s := rfl
  unfold execStatusLivenessExpiry at h
  split at h
  · rename_i hq
    exact .of_timer h (.lost p (of_decide_eq_true (Bool.and_eq_true _ _ ▸ hq).1))
  · exact .of_timer h (.nothing _)

end

/-- The command is FRAME_DISCARDED, which carries out the frames found in its bytes. -/
def isDiscarded : Instr → Bool
  | .frameDiscarded .. => true
  | _ => false

theorem carries (c : Instr) (s : State) (h : isDiscarded c = false) : Carries c s := by
  cases c with
  | frameDiscarded => cases h
  | powerOn => exact .of_timer rfl .fresh
  | resetInput => exact .of_timer rfl (.restart 1)
  | partClockAdvance => exact ⟨s, _, _, rfl, .refl s, .tick, .status rfl⟩
  | framerIdleTimeout l => exact carries_framerIdleTimeout s l
  | unknownFrame cls kind tag => exact carries_unknownFrame s tag cls kind
  | transmitComplete p => exact .of_timer rfl (.sent p)
  | base target increment => exact carries_base s target increment
  | reg increment => exact carries_reg s increment
  | levels upper lower => exact .of_plant rfl (.levels upper.toNat lower.toNat)
  | unitHold slot mode setpoint => exact carries_unitHold s slot mode setpoint
  | unitRelease slot => exact carries_unitRelease s slot
  | emergencyStop slot => exact carries_emergencyStop s slot
  | configSet tag param value port => exact carries_configSet s tag param value port
  | configGet tag param port => exact carries_configGet s tag param port
  | loadBegin tag position rows => exact carries_loadBegin s tag position rows
  | loadRow tag index row => exact carries_loadRow s tag index row
  | loadEnd tag => exact carries_loadEnd s tag
  | loadAbort tag => exact carries_loadAbort s tag
  | profileDefine tag name count interval rep fill => exact carries_profileDefine s tag name count interval rep fill
  | profileWrite tag name first count values => exact carries_profileWrite s tag name first count values
  | profileRead tag name first count => exact carries_profileRead s tag name first count
  | profileDelete tag name => exact carries_profileDelete s tag name
  | profileDeleteAll tag => exact carries_profileDeleteAll s tag
  | play tag name => exact carries_play s tag name
  | stopPlay tag => exact carries_stopPlay s tag
  | sourceSet tag source => exact carries_sourceSet s tag source
  | patternSet tag low high period shape => exact carries_patternSet s tag low high period shape
  | enable tag => exact carries_enable s tag
  | disable tag => exact carries_disable s tag
  | resume tag => exact carries_resume s tag
  | restart tag => exact .managed (m := s.takePlantFrame.restarted 0) rfl (.restart 0)
  | mapSet tag slot port => exact carries_mapSet s tag slot port
  | expectSet tag slot number => exact carries_expectSet s tag slot number
  | rotationSet tag slots => exact carries_rotationSet s tag slots
  | rotate tag => exact .managed rfl .rotate
  | clearUnit tag slot => exact carries_clearUnit s tag slot
  | releaseResources tag slot => exact carries_releaseResources s tag slot
  | lineSet tag line selection polarity => exact carries_lineSet s tag line selection polarity
  | statusReq tag => exact .answered rfl
  | unitReq tag slot => exact carries_unitReq s tag slot
  | tableRead tag position row => exact carries_tableRead s tag position row
  | eventRead tag => exact .queried rfl .eventRead
  | profileCatalog tag start => exact .answered rfl (packet_profileCatalog tag start)
  | ident p number => exact carries_ident s p number
  | status p mode power remote available converter cause => exact carries_status s p mode power remote available converter cause
  | orderAck p tag result cause => exact carries_orderAck s p tag result cause
  | markerInputEdge rising => exact carries_markerInputEdge s rising
  | dispatchLivenessExpiry => exact carries_dispatchLivenessExpiry s
  | levelTimerExpiry => exact carries_levelTimerExpiry s
  | dwellTimerExpiry => exact carries_dwellTimerExpiry s
  | backoffExpiry u => exact carries_backoffExpiry s u
  | leadTimerExpiry u => exact carries_leadTimerExpiry s u
  | ackTimerExpiry u => exact carries_ackTimerExpiry s u
  | stepTimerExpiry u => exact carries_stepTimerExpiry s u
  | settleTimerExpiry w => exact carries_settleTimerExpiry s w
  | warningPhaseEnd w => exact carries_warningPhaseEnd s w
  | probeTimerExpiry p => exact carries_probeTimerExpiry s p
  | statusLivenessExpiry p => exact carries_statusLivenessExpiry s p
  | intervalTimerBoundary => exact carries_intervalTimerBoundary s
  | planSwitchingTime => exact .of_timer rfl .meetPlan
  | rampSwitchingTime => exact .of_timer rfl .meetRamp
  | holdoverBoundary => exact carries_holdoverBoundary s
  | patternPeriodExpiry => exact carries_patternPeriodExpiry s
  | markerPulseEnd => exact .of_timer rfl .pulseEnd
  | unitLinkFrameDiscarded p => exact .of_unit p rfl (.nothing _)

/-! ## The frames found in a discarded one -/

/-- What is received is carried out as its command, or is no frame. -/
theorem receive_cases (c : Instr) (s : State) :
    (isDiscarded c = false ∧ receive c s = exec c s) ∨ receive c s = .next s := by
  cases c <;> simp [isDiscarded, receive, exec]

/-- Frames received one after another lead to a next state. -/
theorem receiveAll_next (cs : List Instr) : ∀ s : State, ∃ t, receiveAll cs s = .next t := by
  induction cs with
  | nil => exact fun s => ⟨s, rfl⟩
  | cons c cs ih =>
    intro s
    obtain ⟨m, hm⟩ : ∃ m, receive c s = .next m := by
      rcases receive_cases c s with ⟨hc, h⟩ | h
      · obtain ⟨_, _, m, hm, -⟩ := carries c s hc
        exact ⟨m, h.trans hm⟩
      · exact ⟨s, h⟩
    obtain ⟨t, ht⟩ := ih m
    exact ⟨t, by simp [receiveAll, hm, ht]⟩

/-- What every command but FRAME_DISCARDED keeps, frames received one after another keep. -/
theorem receiveAll_keeps {P : State → Prop} (h : ∀ c s t, isDiscarded c = false → exec c s = .next t → P s → P t) (cs : List Instr) :
    ∀ s t, receiveAll cs s = .next t → P s → P t := by
  induction cs with
  | nil =>
    intro s t hs hp
    cases hs
    exact hp
  | cons c cs ih =>
    intro s t hs hp
    rcases receive_cases c s with ⟨hc, hr⟩ | hr
    · obtain ⟨_, _, m, hm, -⟩ := carries c s hc
      simp only [receiveAll, hr, hm] at hs
      exact ih m t hs (h c s m hc hm hp)
    · simp only [receiveAll, hr] at hs
      exact ih s t hs hp

/-- An invariant that no frame touches, and that all that a command does keeps, every command keeps. -/
theorem exec_keeps {P : State → Prop} (framed : ∀ s t, Framed s t → P s → P t)
    (did : ∀ s a b m, Framed s a → P s → Did s a b m → P m) {c : Instr} {s t : State} (h : exec c s = .next t) (hp : P s) : P t := by
  have plain : ∀ c s t, isDiscarded c = false → exec c s = .next t → P s → P t := by
    intro c s t hc ht hp
    obtain ⟨a, m, t', h', ha, hd, hm⟩ := carries c s hc
    cases ht.symm.trans h'
    exact framed m _ hm.framed (did s a _ m ha.toFramed hp hd)
  by_cases hc : isDiscarded c = false
  · exact plain c s t hc h hp
  · cases c with
    | frameDiscarded l bytes =>
      obtain ⟨m, hm⟩ := receiveAll_next (framesIn l bytes.tail) s
      have h : execFrameDiscarded l bytes s = .next t := h
      simp only [execFrameDiscarded, hm] at h
      cases h
      exact framed m _ (framed_setFramer m l _) (receiveAll_keeps plain _ s m hm hp)
    | _ => exact absurd rfl hc

/-- As `exec_keeps`, for a step. -/
theorem step_keeps {P : State → Prop} (framed : ∀ s t, Framed s t → P s → P t)
    (did : ∀ s a b m, Framed s a → P s → Did s a b m → P m) {s t : State} (h : step s = .next t) (hp : P s) : P t := by
  unfold step at h
  split at h
  · cases h
    exact hp
  · exact exec_keeps framed did h (framed _ _ (framed_pending s _) hp)

end Sys2Proof.Machine
end

section
/-! The operations on targets and playback as runs of four writes: the targets, the profile store's record, an event, and row selection while
the part governs. -/

namespace Sys2Proof.Machine

inductive PlayMicro : State → State → Prop where
  | tgt (s : State) (b : Tgt) : PlayMicro s (s.setTgt b)
  | prf (s : State) (b : Prf) : PlayMicro s (s.setPrf b)
  | post (s : State) (k : EventKind) (u : Option Slot) (v : Option Int) : PlayMicro s (s.post k u v)
  | select (s : State) (h : s.governs = true) : PlayMicro s (State.selectRow false s)

/-- A run of those writes. -/
inductive Played (s : State) : State → Prop where
  | refl : Played s s
  | step {t r : State} (h : Played s t) (k : PlayMicro t r) : Played s r

theorem Played.trans {s t r : State} (h : Played s t) (g : Played t r) : Played s r := by
  induction g with
  | refl => exact h
  | step _ k ih => exact .step ih k

theorem PlayMicro.played {s t : State} (h : PlayMicro s t) : Played s t := .step .refl h

theorem played_ite {s t : State} (c : Prop) [Decidable c] (h : Played s t) : Played s (if c then t else s) := by
  split
  · exact h
  · exact .refl

/-! ## Targets -/

theorem played_setTgt (s : State) (b : Tgt) : Played s (s.setTgt b) := (PlayMicro.tgt s b).played

theorem played_setPlanTarget (s : State) (x : Int) : Played s (s.setPlanTarget x) := by
  unfold State.setPlanTarget
  split
  · exact .refl
  · dsimp only
    split
    · rename_i hg
      exact (played_setTgt s _).step (.select _ hg)
    · exact played_setTgt s _

theorem played_setReqBase (s : State) (v : Int) : Played s (s.setReqBase v) := by
  have tail (x : State) (w : Int) : Played x (if x.tgt.source = .profile then x else x.setPlanTarget w) := by
    split
    · exact .refl
    · exact played_setPlanTarget x w
  exact (played_setTgt s _).trans (tail _ _)

theorem played_handLevel (s : State) (v : Int) : Played s (s.handLevel v) := by
  unfold State.handLevel
  split
  · exact .refl
  · exact played_setReqBase s v

theorem played_startPattern (s : State) : Played s s.startPattern := (played_setTgt s _).trans (played_handLevel _ _)

theorem played_stepPattern (s : State) (r : PatternRun) : Played s (s.stepPattern r) := (played_setTgt s _).trans (played_handLevel _ _)

theorem played_storePattern (s : State) (p : Pattern) : Played s (s.storePattern p) := by
  unfold State.storePattern
  dsimp only
  split
  · exact (played_setTgt s _).trans (played_startPattern _)
  · exact played_setTgt s _

theorem played_changeSource (s : State) (src : Source) : Played s (s.changeSource src) := by
  refine (played_setTgt s { s.tgt with source := src, run := none }).trans ?_
  cases src with
  | direct => exact played_setPlanTarget _ _
  | profile => exact .refl
  | pattern => exact (played_setTgt _ _).trans (played_startPattern _)

theorem played_applyBase (s : State) (v : Int) (i : Option Int) : Played s (s.applyBase v i) := by
  unfold State.applyBase
  dsimp only
  split
  · exact ((played_setTgt s _).trans (played_setTgt _ _)).trans (played_setReqBase _ _)
  · exact (played_setTgt s _).trans (played_setReqBase _ _)

theorem played_applyReg (s : State) (v : Int) : Played s (s.applyReg v) := (played_setTgt s _).trans (played_setTgt _ _)

theorem played_ramp (s : State) : Played s s.ramp := by
  unfold State.ramp
  split
  · exact played_setTgt s _
  · exact .refl

theorem played_fold (s : State) : Played s s.fold := by
  unfold State.fold
  dsimp only
  split
  · exact played_setTgt s _
  · exact (played_setTgt s _).trans (played_setPlanTarget _ _)

/-! ## Playback -/

theorem played_setPrf (s : State) (b : Prf) : Played s (s.setPrf b) := (PlayMicro.prf s b).played

theorem played_setPlayback (s : State) (b : Playback) : Played s (s.setPlayback b) := played_setPrf s _

theorem played_handPlan (s : State) (v : Int) : Played s (s.handPlan v) := by
  unfold State.handPlan
  dsimp only
  split
  · exact (played_setPlayback s _).trans (played_setPlanTarget _ _)
  · exact played_setPlayback s _

theorem played_handRamp (s : State) (v : Int) : Played s (s.handRamp v) := by
  unfold State.handRamp
  dsimp only
  split
  · exact (played_setPlayback s _).trans (played_setReqBase _ _)
  · exact played_setPlayback s _

theorem played_meetPlan (s : State) : Played s s.meetPlan := by
  unfold State.meetPlan
  split
  · exact played_handPlan s _
  · exact .refl

theorem played_meetRamp (s : State) : Played s s.meetRamp := by
  unfold State.meetRamp
  split
  · exact played_handRamp s _
  · exact .refl

theorem played_meetDue (s : State) : Played s s.meetDue := (played_meetPlan s).trans (played_meetRamp _)

theorem played_completeHanding (s : State) (v : Int) : Played s (s.completeHanding v) := by
  have h : Played s (if s.prf.playback.planHanded then s else s.handPlan v) := by
    split
    · exact .refl
    · exact played_handPlan s v
  unfold State.completeHanding
  dsimp only
  split
  · exact h
  · exact h.trans (played_handRamp _ v)

theorem played_beginEntry (s : State) (p : Profile) (k : Nat) : Played s (s.beginEntry p k) := by
  have tail (c : Bool) (x : State) : Played x (if c then x.post .profileStarted none (some p.entries.length) else x) :=
    played_ite _ (PlayMicro.post _ _ _ _).played
  exact (((played_completeHanding s (p.value k)).trans (played_setPlayback _ _)).trans (played_meetDue _)).trans (tail _ _)

theorem played_endProfile (s : State) (p : Profile) : Played s (s.endProfile p) := (played_setPlayback s _).step (.post _ _ _ _)

theorem played_boundary (s : State) : Played s s.boundary := by
  unfold State.boundary
  split
  · exact .refl
  · split
    · exact played_beginEntry ..
    · split
      · exact played_endProfile ..
      · exact .refl

theorem played_pulse (s : State) : Played s s.pulse := played_setPrf s _

theorem played_clearDivider (s : State) : Played s s.clearDivider := played_setPrf s _

theorem played_align (s : State) (p : Profile) : Played s (s.align p) := (played_setPlayback s _).trans (played_meetDue _)

theorem played_realign (s : State) (p : Profile) : Played s (s.realign p) := by
  have h : Played s (if s.halfPassed p then s.boundary
      else s.setPlayback { s.prf.playback with next := some (later s.clock p.seconds) }) := by
    split
    · exact played_boundary s
    · exact played_setPlayback s _
  exact ((h.trans (played_setPlayback _ _)).step (.post _ _ _ _)).trans (played_clearDivider _)

theorem played_countedMarker (s : State) : Played s s.countedMarker := by
  have h (p : Profile) : Played s (if s.prf.playback.markerLost then s.realign p else s.boundary) := by
    split
    · exact played_realign ..
    · exact played_boundary s
  unfold State.countedMarker
  split
  · exact .refl
  · split
    · exact .refl
    · exact .refl
    · exact played_align ..
    · exact h _
    · exact h _

theorem played_activeEdge (s : State) : Played s s.activeEdge := by
  unfold State.activeEdge
  split
  · exact ((played_clearDivider s).trans (played_pulse _)).trans (played_countedMarker _)
  · exact played_setPrf s _

theorem played_holdover (s : State) : Played s s.holdover := by
  have h := (played_boundary s).trans (played_pulse _)
  unfold State.holdover
  dsimp only
  split
  · split
    · exact h.step (.post _ _ _ _)
    · exact (h.trans (played_setPlayback _ _)).step (.post _ _ _ _)
  · exact h

theorem played_play (s : State) (n : List Byte) : Played s (s.play n) := by
  unfold State.play
  split
  · exact ((played_setPlayback s _).trans (played_boundary _)).trans (played_pulse _)
  · exact (played_setPlayback s _).trans (played_clearDivider _)

/-! ## The part state -/

/-- A valid dispatch frame writes the PLI's record, and then hands the pattern's level where the part returns (R156, R163). -/
theorem acceptDispatch_run (s : State) : ∃ b : Pli, { b with part := s.pli.part, liveness := s.pli.liveness, linkSilent := s.pli.linkSilent } = s.pli
    ∧ (b.part = .standby ↔ s.pli.part = .standby) ∧ Played (s.setPli b) s.acceptDispatch := by
  unfold State.acceptDispatch
  dsimp only
  split
  · rename_i f hf
    have hp : s.pli.part = .fallback f := hf
    split
    · refine ⟨{ s.refreshLiveness.pli with part := .dispatching }, rfl, by simp [hp], ?_⟩
      unfold State.returnToDispatching
      dsimp only
      split
      · exact (PlayMicro.post _ _ _ _).played.trans (played_setReqBase _ _)
      · exact (PlayMicro.post _ _ _ _).played
    · exact ⟨{ s.refreshLiveness.pli with part := .fallback .awaitResume }, rfl, by simp [hp], .refl⟩
  · exact ⟨s.refreshLiveness.pli, rfl, Iff.rfl, .refl⟩

/-- The return to DISPATCHING (R163). -/
theorem returnToDispatching_run (s : State) :
    Played (s.setPli { s.pli with part := .dispatching }) s.returnToDispatching := by
  unfold State.returnToDispatching
  dsimp only
  split
  · exact (PlayMicro.post _ _ _ _).played.trans (played_setReqBase _ _)
  · exact (PlayMicro.post _ _ _ _).played

/-- The expiry of the dispatch-liveness timer writes the PLI's record, and then folds the increment (R161, R162). -/
theorem linkDown_run (s : State) : ∃ b : Pli, { b with part := s.pli.part, liveness := s.pli.liveness, linkSilent := s.pli.linkSilent } = s.pli
    ∧ (b.part = .standby ↔ s.pli.part = .standby) ∧ Played (s.setPli b) s.linkDown := by
  unfold State.linkDown
  dsimp only
  split
  · exact ⟨{ s.pli with liveness := none, linkSilent := true }, rfl, Iff.rfl, .refl⟩
  · rename_i hp
    have hp : s.pli.part = .dispatching := hp
    refine ⟨{ s.pli with liveness := none, linkSilent := true, part := .fallback .linkDown }, rfl, by simp [hp], ?_⟩
    exact (PlayMicro.post _ _ _ _).played.trans (played_fold _)
  · rename_i f hf
    have hp : s.pli.part = .fallback f := hf
    exact ⟨{ s.pli with liveness := none, linkSilent := true, part := .fallback .linkDown }, rfl, by simp [hp], .refl⟩

end Sys2Proof.Machine
end

section
/-! The roster, the ports, the waterway counts and the orphan records through every operation (R1, R2, R19, R79, R87, R141 to R150):
`Keeps` composes, and each operation keeps. -/

namespace Sys2Proof.Machine

/-! ## Transmit queues (R141) -/

theorem sameKind_comm (f g : UnitFrame) : f.sameKind g = g.sameKind f := by
  cases f <;> cases g <;> rfl

theorem sameKind_of_sameKind {f g : UnitFrame} (h : f.sameKind g = true) (x : UnitFrame) : f.sameKind x = g.sameKind x := by
  have : f.isProbe = g.isProbe ∧ f.isOrder = g.isOrder ∧ f.isSetpoint = g.isSetpoint := by
    revert h
    cases f <;> cases g <;> simp [UnitFrame.sameKind, UnitFrame.isProbe, UnitFrame.isOrder, UnitFrame.isSetpoint]
  obtain ⟨h1, h2, h3⟩ := this
  simp only [UnitFrame.sameKind, h1, h2, h3]

theorem of_mem_enqueue {f g : UnitFrame} {l : List UnitFrame} (h : g ∈ enqueue f l) : g = f ∨ g ∈ l := by
  induction l with
  | nil => exact .inl (by simpa [enqueue] using h)
  | cons x l ih =>
    unfold enqueue at h
    split at h
    · obtain rfl | h := List.mem_cons.mp h
      · exact .inl rfl
      · exact .inr (List.mem_cons_of_mem _ h)
    · obtain rfl | h := List.mem_cons.mp h
      · exact .inr (List.mem_cons_self ..)
      · exact (ih h).imp id (List.mem_cons_of_mem _)

theorem pairwise_enqueue (f : UnitFrame) {l : List UnitFrame} (h : l.Pairwise (fun f g => f.sameKind g = false)) :
    (enqueue f l).Pairwise (fun f g => f.sameKind g = false) := by
  induction l with
  | nil => simp [enqueue]
  | cons x l ih =>
    obtain ⟨hx, hl⟩ := List.pairwise_cons.mp h
    unfold enqueue
    split
    · rename_i hk
      exact List.pairwise_cons.mpr ⟨fun y hy => (sameKind_of_sameKind hk y).trans (hx y hy), hl⟩
    · rename_i hk
      refine List.pairwise_cons.mpr ⟨fun y hy => ?_, ih hl⟩
      obtain rfl | hy := of_mem_enqueue hy
      · rw [sameKind_comm]
        simpa using hk
      · exact hx y hy

/-! ## A port's record -/

/-- `PortWf` of a record, whether its port is mapped given apart. -/
structure PortRec.Ok (r : PortRec) (mapped : Bool) : Prop where
  unused : r.state = .unused ↔ mapped = false
  probe : r.probe.isSome = r.state.isProbing
  liveness : r.liveness.isSome = decide (r.state = .qualified)
  outstanding : r.outstanding.isSome = true → r.state = .qualified
  kinds : r.queue.Pairwise (fun f g => f.sameKind g = false)
  probes : r.state ≠ .qualified → ∀ f ∈ r.queue, f = .probe
  idle : r.sending = none → r.queue = []

theorem portWf_iff {s : State} {p : Port} : PortWf s p ↔ (s.portRec p).Ok (s.slotOf p).isSome := by
  have hnone : s.slotOf p = none ↔ (s.slotOf p).isSome = false := by simp
  constructor
  · intro h
    exact { unused := h.unused.trans hnone, probe := h.probe, liveness := h.liveness, outstanding := h.outstanding, kinds := h.kinds,
            probes := h.probes, idle := h.idle }
  · intro h
    exact { unused := h.unused.trans hnone.symm, probe := h.probe, liveness := h.liveness, outstanding := h.outstanding,
            kinds := h.kinds, probes := h.probes, idle := h.idle }

/-- A port's record after a frame is handed to it (R141). -/
def PortRec.handed (r : PortRec) (f : UnitFrame) : PortRec :=
  match r.sending with
  | none => { r with sending := some f }
  | some _ => { r with queue := enqueue f r.queue }

theorem PortRec.handed_of_none {r : PortRec} (h : r.sending = none) (f : UnitFrame) : r.handed f = { r with sending := some f } := by
  unfold PortRec.handed
  rw [h]

theorem PortRec.handed_of_some {r : PortRec} {g : UnitFrame} (h : r.sending = some g) (f : UnitFrame) :
    r.handed f = { r with queue := enqueue f r.queue } := by
  unfold PortRec.handed
  rw [h]

theorem hand_portRec (s : State) (p q : Port) (f : UnitFrame) :
    (s.hand p f).portRec q = if q = p then (s.portRec p).handed f else s.portRec q := by
  unfold State.hand
  cases hs : (s.portRec p).sending with
  | none =>
    rw [PortRec.handed_of_none hs]
    exact State.setPort_portRec s p q _
  | some g =>
    rw [PortRec.handed_of_some hs]
    exact State.setPort_portRec s p q _

theorem sendOrder_portRec (s : State) (p q : Port) (k : StepKind) (c : Option Conv) (w : Purpose) :
    (s.sendOrder p k c w).portRec q = if q = p then
      ({ s.portRec p with
          tagCounter := (s.portRec p).tagCounter + 1
          outstanding := some { tag := (s.portRec p).tagCounter, kind := k, purpose := w } } : PortRec).handed
        (.modeOrder k c (s.portRec p).tagCounter)
      else s.portRec q := by
  unfold State.sendOrder
  dsimp only
  rw [hand_portRec, State.setPort_portRec, State.setPort_portRec]
  by_cases h : q = p <;> simp [h]

namespace PortRec.Ok

variable {r : PortRec} {mapped : Bool}

theorem handed (h : r.Ok mapped) {f : UnitFrame} (hf : r.state = .qualified ∨ f = .probe) : (r.handed f).Ok mapped := by
  unfold PortRec.handed
  split
  · exact { unused := h.unused, probe := h.probe, liveness := h.liveness, outstanding := h.outstanding, kinds := h.kinds,
            probes := h.probes, idle := by simp }
  · rename_i g hs
    refine { unused := h.unused, probe := h.probe, liveness := h.liveness, outstanding := h.outstanding,
             kinds := pairwise_enqueue f h.kinds, probes := fun hq x hx => ?_, idle := by simp [hs] }
    obtain rfl | hx := of_mem_enqueue hx
    · exact hf.resolve_left hq
    · exact h.probes hq x hx

theorem ordered (h : r.Ok mapped) (hq : r.state = .qualified) (tag : Byte) (o : Option Outstanding) :
    ({ r with tagCounter := tag, outstanding := o } : PortRec).Ok mapped :=
  { unused := h.unused, probe := h.probe, liveness := h.liveness, outstanding := fun _ => hq, kinds := h.kinds, probes := h.probes,
    idle := h.idle }

theorem ceased (h : r.Ok mapped) : ({ r with outstanding := none } : PortRec).Ok mapped :=
  { unused := h.unused, probe := h.probe, liveness := h.liveness, outstanding := by simp, kinds := h.kinds, probes := h.probes,
    idle := h.idle }

/-- The framer, the ack mode and the last machine number are free. -/
theorem noted (h : r.Ok mapped) (f : Framer) (a : AckMode) (n : Option Byte) :
    ({ r with framer := f, ackMode := a, lastMachine := n } : PortRec).Ok mapped :=
  { unused := h.unused, probe := h.probe, liveness := h.liveness, outstanding := h.outstanding, kinds := h.kinds, probes := h.probes,
    idle := h.idle }

/-- A PROBE handed in a probing state (R145). -/
theorem probed (h : r.Ok mapped) (hp : r.state.isProbing = true) (now : Word) : (r.probed now).Ok mapped := by
  have hrest : (r.probed now).sending ≠ none := by simp [PortRec.probed]
  have hmem : ∀ f ∈ (r.probed now).queue, f = .probe ∨ f ∈ r.queue := by
    intro f hf
    simp only [PortRec.probed] at hf
    split at hf
    · exact .inr hf
    · exact of_mem_enqueue hf
  refine { unused := h.unused, probe := hp.symm, liveness := h.liveness, outstanding := h.outstanding, kinds := ?_,
           probes := fun hq f hf => (hmem f hf).elim id (h.probes hq f), idle := fun hs => absurd hs hrest }
  simp only [PortRec.probed]
  split
  · exact h.kinds
  · exact pairwise_enqueue _ h.kinds

end PortRec.Ok

/-! ## The relation -/

/-- The roster and the ports are well-formed. -/
def Sound (s : State) : Prop := RosterWf s ∧ PortsWf s

structure Keeps (s t : State) : Prop where
  sound : Sound s → Sound t
  waterways : WaterwaysWf s → WaterwaysWf t
  orphans : OrphansWf s → OrphansWf t

theorem Keeps.refl (s : State) : Keeps s s := ⟨id, id, id⟩

theorem Keeps.trans {s t r : State} (h : Keeps s t) (k : Keeps t r) : Keeps s r :=
  ⟨k.sound ∘ h.sound, k.waterways ∘ h.waterways, k.orphans ∘ h.orphans⟩

theorem Keeps.foldl {α : Type} {f : State → α → State} (h : ∀ s a, Keeps s (f s a)) (xs : List α) (s : State) : Keeps s (xs.foldl f s) := by
  induction xs generalizing s with
  | nil => exact .refl s
  | cons x xs ih => exact (h s x).trans (ih _)

theorem slotOf_congr {s t : State} (h : ∀ u, (t.unitRec u).port = (s.unitRec u).port) (p : Port) : t.slotOf p = s.slotOf p := by
  simp only [State.slotOf, h]

theorem portState_congr {s t : State} (h : ∀ u, (t.unitRec u).port = (s.unitRec u).port)
    (k : ∀ p, (t.portRec p).state = (s.portRec p).state) (u : Slot) : t.portState u = s.portState u := by
  simp only [State.portState, State.slotPort, h]
  cases (s.unitRec u).port <;> simp [k]

/-- A state with the same map is sound where its port records are and its granted steps stand on QUALIFIED ports. -/
theorem Sound.of {s t : State} (h : Sound s) (rotation : t.ros.rotation = s.ros.rotation)
    (map : ∀ u, (t.unitRec u).port = (s.unitRec u).port) (expected : ∀ u, (t.unitRec u).expected = (s.unitRec u).expected)
    (ports : ∀ p, (t.portRec p).Ok (s.slotOf p).isSome)
    (granted : ∀ u r, t.req u = some r → r.granted = true → t.portState u = .qualified) : Sound t := by
  obtain ⟨hr, -⟩ := h
  refine ⟨⟨rotation ▸ hr.rotation, fun u v => ?_, fun u => expected u ▸ hr.expected u⟩, ⟨fun p => portWf_iff.mpr ?_, granted⟩⟩
  · rw [map, map]
    exact hr.map u v
  · rw [slotOf_congr map]
    exact ports p

theorem Sound.ok {s : State} (h : Sound s) (p : Port) : (s.portRec p).Ok (s.slotOf p).isSome := portWf_iff.mp (h.2.ports p)

/-- Nothing of the scheduler, the ports, the map and the rotation order is written. -/
structure Elsewhere (s t : State) : Prop where
  ports : t.ports = s.ports
  trs : t.trs = s.trs
  rotation : t.ros.rotation = s.ros.rotation
  map : ∀ u, (t.unitRec u).port = (s.unitRec u).port
  expected : ∀ u, (t.unitRec u).expected = (s.unitRec u).expected

theorem Elsewhere.of_blocks {s t : State} (ports : t.ports = s.ports) (trs : t.trs = s.trs) (ros : t.ros = s.ros) : Elsewhere s t :=
  ⟨ports, trs, congrArg (·.rotation) ros, fun u => by rw [State.unitRec_congr ros], fun u => by rw [State.unitRec_congr ros]⟩

theorem waterwaysWf_congr {s t : State} (h : t.trs.waterways = s.trs.waterways) (k : WaterwaysWf s) : WaterwaysWf t := by
  intro w r hr
  exact k w r (by rwa [State.waterwayRec, ← h])

theorem orphansWf_congr {s t : State} (h : t.trs.orphans = s.trs.orphans) (k : OrphansWf s) : OrphansWf t := by
  intro u o ho
  exact k u o (by rwa [State.orphan, ← h])

theorem Elsewhere.keeps {s t : State} (h : Elsewhere s t) : Keeps s t where
  sound hs := by
    have hport (p) : t.portRec p = s.portRec p := State.portRec_congr h.ports p
    refine hs.of h.rotation h.map h.expected (fun p => hport p ▸ hs.ok p) fun u r hr hg => ?_
    rw [portState_congr h.map fun p => by rw [hport]]
    exact hs.2.granted u r (by rwa [← State.req_congr h.trs]) hg
  waterways := waterwaysWf_congr (by rw [h.trs])
  orphans := orphansWf_congr (by rw [h.trs])

theorem elsewhere_setUnit (s : State) (u : Slot) (r : UnitRec) (hp : r.port = (s.unitRec u).port) (he : r.expected = (s.unitRec u).expected) :
    Elsewhere s (s.setUnit u r) := by
  refine ⟨rfl, rfl, rfl, fun v => ?_, fun v => ?_⟩ <;>
  · rw [State.setUnit_unitRec]
    split
    · rename_i h
      rw [h]
      assumption
    · rfl

theorem keeps_setUnit (s : State) (u : Slot) (r : UnitRec) (hp : r.port = (s.unitRec u).port) (he : r.expected = (s.unitRec u).expected) :
    Keeps s (s.setUnit u r) := (elsewhere_setUnit s u r hp he).keeps

theorem keeps_setPli (s : State) (b : Pli) : Keeps s (s.setPli b) :=
  (Elsewhere.of_blocks (s := s) (t := s.setPli b) rfl rfl rfl).keeps
theorem keeps_setHead (s : State) (b : Head) : Keeps s (s.setHead b) :=
  (Elsewhere.of_blocks (s := s) (t := s.setHead b) rfl rfl rfl).keeps
theorem keeps_setTgt (s : State) (b : Tgt) : Keeps s (s.setTgt b) :=
  (Elsewhere.of_blocks (s := s) (t := s.setTgt b) rfl rfl rfl).keeps
theorem keeps_setPrf (s : State) (b : Prf) : Keeps s (s.setPrf b) :=
  (Elsewhere.of_blocks (s := s) (t := s.setPrf b) rfl rfl rfl).keeps
theorem keeps_setPln (s : State) (b : Pln) : Keeps s (s.setPln b) :=
  (Elsewhere.of_blocks (s := s) (t := s.setPln b) rfl rfl rfl).keeps
theorem keeps_setAlc (s : State) (b : Alc) : Keeps s (s.setAlc b) :=
  (Elsewhere.of_blocks (s := s) (t := s.setAlc b) rfl rfl rfl).keeps
theorem keeps_setSte (s : State) (b : Ste) : Keeps s (s.setSte b) :=
  (Elsewhere.of_blocks (s := s) (t := s.setSte b) rfl rfl rfl).keeps
theorem keeps_post (s : State) (k : EventKind) (u : Option Slot) (v : Option Int) : Keeps s (s.post k u v) := keeps_setSte s _

/-- A port record is written that is well-formed, in the port's state. -/
theorem keeps_setPort (s : State) (p : Port) (r : PortRec) (hs : r.state = (s.portRec p).state)
    (ok : ∀ mapped, (s.portRec p).Ok mapped → r.Ok mapped) : Keeps s (s.setPort p r) where
  sound h := by
    refine h.of rfl (fun _ => rfl) (fun _ => rfl) (fun q => ?_) fun u x hx hg => ?_
    · rw [State.setPort_portRec]
      split
      · rename_i hq
        rw [hq]
        exact ok _ (h.ok p)
      · exact h.ok q
    · refine (portState_congr (s := s) (t := s.setPort p r) (fun _ => rfl) (fun q => ?_) u).trans (h.2.granted u x hx hg)
      rw [State.setPort_portRec]
      split
      · rename_i hq
        rw [hq, hs]
      · rfl
  waterways h := h
  orphans h := h

theorem Framed.keeps {s t : State} (h : Framed s t) : Keeps s t where
  sound hs := by
    have hstate (p) : (t.portRec p).state = (s.portRec p).state := congrArg (·.state) (h.ports p)
    have hunit (u) : t.unitRec u = s.unitRec u := State.unitRec_congr h.ros u
    refine hs.of (by rw [h.ros]) (fun u => by rw [hunit]) (fun u => by rw [hunit]) (fun p => ?_) fun u r hr hg => ?_
    · have : t.portRec p = { s.portRec p with framer := (t.portRec p).framer } := by
        have := congrArg (fun r => ({ r with framer := (t.portRec p).framer } : PortRec)) (h.ports p)
        exact this
      rw [this]
      exact (hs.ok p).noted _ (s.portRec p).ackMode (s.portRec p).lastMachine
    · rw [portState_congr (fun u => by rw [hunit]) hstate]
      exact hs.2.granted u r (by rwa [← State.req_congr h.trs]) hg
  waterways := waterwaysWf_congr (by rw [h.trs])
  orphans := orphansWf_congr (by rw [h.trs])

/-! ## The scheduler's runs -/

theorem unwarn_waterwayRec (s : State) (u : Slot) (w : Waterway) : (s.unwarn u).waterwayRec w = (s.waterwayRec w).map (·.unwarn u) := by
  unfold State.unwarn
  split <;> rename_i h <;> simp [State.waterwayRec, h]

theorem WaterwayRec.unwarn_inProgress (r : WaterwayRec) (u : Slot) : (r.unwarn u).inProgress = r.inProgress := by
  unfold WaterwayRec.unwarn
  dsimp only
  split <;> rfl

theorem ceaseOrder_portRec (s : State) (u : Slot) (q : Purpose) (p : Port) :
    (s.ceaseOrder u q).portRec p = s.portRec p ∨ (s.ceaseOrder u q).portRec p = { s.portRec p with outstanding := none } := by
  unfold State.ceaseOrder
  split
  · exact .inl rfl
  · split
    · rw [State.setPort_portRec]
      split
      · rename_i h
        exact .inr (by rw [h])
      · exact .inl rfl
    · exact .inl rfl

theorem keeps_hand (s : State) (p : Port) (f : UnitFrame) (hf : (s.portRec p).state = .qualified ∨ f = .probe) : Keeps s (s.hand p f) where
  sound h := by
    have hstate (q) : ((s.hand p f).portRec q).state = (s.portRec q).state := (cascade_hand s p f).play.port_state q
    have hunit (u) : (s.hand p f).unitRec u = s.unitRec u := State.unitRec_congr (hand_ros s p f) u
    refine h.of (by rw [hand_ros]) (fun u => by rw [hunit]) (fun u => by rw [hunit]) (fun q => ?_) fun u r hr hg => ?_
    · rw [hand_portRec]
      split
      · rename_i hq
        rw [hq]
        exact (h.ok p).handed hf
      · exact h.ok q
    · rw [portState_congr (fun u => by rw [hunit]) hstate]
      exact h.2.granted u r (by rwa [← State.req_congr (hand_trs s p f)]) hg
  waterways := waterwaysWf_congr (by rw [hand_trs])
  orphans := orphansWf_congr (by rw [hand_trs])

theorem keeps_sendOrder (s : State) (p : Port) (k : StepKind) (c : Option Conv) (q : Purpose) (hq : (s.portRec p).state = .qualified) :
    Keeps s (s.sendOrder p k c q) := by
  refine (keeps_setPort s p
    { s.portRec p with
      tagCounter := (s.portRec p).tagCounter + 1, outstanding := some { tag := (s.portRec p).tagCounter, kind := k, purpose := q } }
    rfl fun _ h => h.ordered hq _ _).trans (keeps_hand _ p _ (.inl ?_))
  rw [State.setPort_portRec, if_pos rfl]
  exact hq

theorem keeps_ceaseOrder (s : State) (u : Slot) (q : Purpose) : Keeps s (s.ceaseOrder u q) := by
  unfold State.ceaseOrder
  split
  · exact .refl s
  · split
    · exact keeps_setPort s _ _ rfl fun _ h => h.ceased
    · exact .refl s

/-- A request is written that is granted on a QUALIFIED port alone. -/
theorem keeps_setReq (s : State) (u : Slot) (r : Option Request)
    (h : Sound s → ∀ q, r = some q → q.granted = true → s.portState u = .qualified) : Keeps s (s.setReq u r) where
  sound hs := by
    refine hs.of rfl (fun _ => rfl) (fun _ => rfl) hs.ok fun v x hx hg => ?_
    show s.portState v = .qualified
    rw [State.setReq_req] at hx
    split at hx
    · rename_i hv
      rw [hv]
      exact h hs x hx hg
    · exact hs.2.granted v x hx hg
  waterways hw := hw
  orphans ho := ho

theorem TrsMicro.keeps {s t : State} (h : TrsMicro s t) : Keeps s t := by
  cases h with
  | post k u v => exact keeps_post s k u v
  | req u r h =>
    refine keeps_setReq s u r fun hs q hq hg => ?_
    rcases h q hq hg with h | h
    · obtain ⟨x, hx, hxg⟩ := (Option.any_eq_true _ _).mp h
      exact hs.2.granted u x hx hxg
    · exact h
  | counter n => exact ⟨fun h => h.of rfl (fun _ => rfl) (fun _ => rfl) h.ok h.2.granted, id, id⟩
  | holder c h =>
    refine ⟨fun hs => hs.of (by simp) (fun _ => by simp [State.unitRec]) (fun _ => by simp [State.unitRec])
      (fun p => by simpa [State.portRec] using hs.ok p) fun u r hr hg => ?_,
      waterwaysWf_congr (by simp), fun ho u o hu => ho u o (by simpa using hu)⟩
    rw [(cascade_setHolder s c h).play.portState]
    exact hs.2.granted u r (by simpa using hr) hg
  | orphan u o h =>
    refine ⟨fun hs => hs.of rfl (fun _ => rfl) (fun _ => rfl) hs.ok hs.2.granted, id, fun ho v x hx => ?_⟩
    rw [State.setOrphan_orphan] at hx
    split at hx
    · exact h x hx
    · exact ho v x hx
  | waterway w q r h f =>
    refine ⟨fun hs => hs.of (by simp) (fun _ => by simp [State.unitRec]) (fun _ => by simp [State.unitRec])
      (fun p => by simpa [State.portRec] using hs.ok p) fun u x hx hg => ?_, fun hw v x hx => ?_, fun ho u o hu => ho u o (by simpa using hu)⟩
    · have hframe : TrsMicro s (s.setWaterway w r) := .waterway s w q r h f
      rw [hframe.frame.cascade.play.portState]
      exact hs.2.granted u x (by simpa using hx) hg
    · rw [State.setWaterway_waterwayRec] at hx
      split at hx
      · rename_i hv
        rw [hv, h] at hx
        obtain rfl : r = x := Option.some.inj hx
        have := hw w q h
        rw [f.1]
        rcases f.2 with hle | ⟨hlt, heq⟩ <;> omega
      · exact hw v x hx
  | unwarn u =>
    refine ⟨fun hs => ?_, fun hw w r hr => ?_, orphansWf_congr (unwarn_orphans s u)⟩
    · have hframe := (TrsMicro.unwarn s u).frame
      have hunit (v) : (s.unwarn u).unitRec v = s.unitRec v := State.unitRec_congr hframe.ros v
      have hport (p) : (s.unwarn u).portRec p = s.portRec p := by
        unfold State.unwarn
        split <;> rfl
      refine hs.of (by rw [hframe.ros]) (fun v => by rw [hunit]) (fun v => by rw [hunit]) (fun p => hport p ▸ hs.ok p) fun v x hx hg => ?_
      rw [hframe.cascade.play.portState]
      exact hs.2.granted v x (by rwa [← req_of_requests (unwarn_requests s u)]) hg
    · rw [unwarn_waterwayRec] at hr
      obtain ⟨q, hq, rfl⟩ := Option.map_eq_some_iff.mp hr
      rw [WaterwayRec.unwarn_inProgress, WaterwayRec.unwarn_row]
      exact hw w q hq
  | order p k c q h => exact keeps_sendOrder s p k c q h
  | cease u q => exact keeps_ceaseOrder s u q

theorem Turn.keeps {s t : State} (h : Turn s t) : Keeps s t := by
  induction h with
  | refl => exact .refl s
  | step _ k ih => exact ih.trans k.keeps

/-! ## The planner, the allocator and the cascade -/

theorem keeps_assign (s : State) : Keeps s s.assign := by
  unfold State.assign
  split
  · exact .refl s
  · rename_i row _
    have hnote (x : State) (a : Assignment) : Keeps x (x.notePlanShort a) := by
      unfold State.notePlanShort
      dsimp only
      split
      · exact (keeps_setPln x _).trans (keeps_post _ _ _ _)
      · exact keeps_setPln x _
    have hhand (x : State) (u : Slot) : Keeps x (State.handDesired s.pln.desired x u) := by
      unfold State.handDesired
      split
      · exact .refl x
      · exact (turn_takeDemand x u).keeps
    exact ((keeps_setPln s _).trans (hnote _ _)).trans (.foldl hhand _ _)

theorem keeps_adopt (s : State) (k : Nat) : Keeps s (s.adopt k) :=
  ((keeps_setPln s _).trans (keeps_post _ _ _ _)).trans (keeps_assign _)

theorem keeps_planGap (s : State) : Keeps s s.planGap := by
  unfold State.planGap
  dsimp only
  split
  · exact keeps_setPln s _
  · exact (keeps_setPln s _).trans (keeps_post _ _ _ _)

theorem keeps_selectRow (expired : Bool) (s : State) : Keeps s (State.selectRow expired s) := by
  have hpropose (k : Nat) : Keeps s (State.proposeRow expired s k) := by
    unfold State.proposeRow
    dsimp only
    split
    · split
      · exact (keeps_setPln s _).trans (keeps_adopt _ k)
      · exact keeps_setPln s _
    · split
      · exact (keeps_setPln s _).trans (keeps_adopt _ k)
      · exact (keeps_setPln s _).trans (keeps_setPln _ _)
  unfold State.selectRow
  dsimp only
  split
  · exact (keeps_setPln s _).trans (keeps_setPln _ _)
  · split
    · exact keeps_planGap s
    · split
      · exact keeps_adopt s _
      · exact hpropose _

theorem Played.keeps {s t : State} (h : Played s t) : Keeps s t := by
  induction h with
  | refl => exact .refl s
  | step _ k ih =>
    refine ih.trans ?_
    cases k with
    | tgt b => exact keeps_setTgt _ b
    | prf b => exact keeps_setPrf _ b
    | post k u v => exact keeps_post _ k u v
    | select _ => exact keeps_selectRow false _

theorem keeps_replan (before s : State) : Keeps s (State.replan before s) := by
  have hdrop (x : State) (u : Slot) : Keeps x (State.dropDesired before x u) := by
    unfold State.dropDesired
    split
    · exact (keeps_setPln x _).trans (turn_takeDemand _ u).keeps
    · exact .refl x
  unfold State.replan
  split
  · exact .refl s
  · split
    · exact keeps_assign s
    · exact .foldl hdrop _ _

theorem keeps_planStage (s before : State) (c : Causes) : Keeps s (s.planStage before c) := by
  have htail (x : State) : Keeps x (if autoChanged before x || c.replan then State.replan before x else x) := by
    split
    · exact keeps_replan before x
    · exact .refl x
  exact ((Keeps.foldl (fun x u => (turn_dropGrant before x u).keeps) Slot.all s).trans (htail _)).trans
    (.foldl (fun x u => (turn_takeDemand x u).keeps) c.hand _)

/-- R93, R103: a slot that an allocation gives a value to be sent is on a QUALIFIED port. -/
theorem qualified_of_line {s : State} {u : Slot}
    (h : (s.allocation.shares.get u).line = .regulating ∨ (s.allocation.shares.get u).line = .genHeld) : s.portState u = .qualified := by
  have hline : (s.contribution u).1 = .regulating ∨ (s.contribution u).1 = .genHeld := by
    simp only [State.allocation, SlotMap.get_ofFn, State.shareOf] at h
    split at h
    · rename_i q hq
      have hmem : q.slot ∈ s.regulating :=
        Proofs.slots_division s ▸ List.mem_map_of_mem (List.mem_of_find?_eq_some hq)
      have hslot : q.slot = u := by simpa using List.find?_some hq
      rw [hslot] at hmem
      exact .inl (by simpa [State.regulates] using (List.mem_filter.mp hmem).2)
    · exact h
  by_contra hne
  have : s.outside u = true := by simp [State.outside, hne]
  simp [State.contribution, this] at hline

theorem keeps_sendSetpoint (s : State) (u : Slot) (v : Int) (hq : s.portState u = .qualified) : Keeps s (s.sendSetpoint u v) := by
  unfold State.sendSetpoint
  split
  · exact .refl s
  · rename_i p hp
    have hset := elsewhere_setUnit s u { s.unitRec u with lastSetpoint := some { value := v, time := s.clock } } rfl rfl
    refine hset.keeps.trans (keeps_hand _ p _ (.inl ?_))
    rw [State.portRec_congr hset.ports, ← portState_of_port hp, hq]

theorem keeps_allocate (s : State) : Keeps s s.allocate := by
  have hflags (x : State) : Keeps x (State.postAllocFlags s.alc x) := by
    unfold State.postAllocFlags
    split_ifs
    · exact keeps_post ..
    · exact keeps_post ..
    · exact keeps_post ..
    · exact .refl x
  have hfold : ∀ (us : List Slot) (x : State), x.alc.last = some s.allocation → (∀ u, x.portState u = s.portState u) →
      Keeps x (us.foldl State.emitSetpoint x) := by
    intro us
    induction us with
    | nil => exact fun x _ _ => .refl x
    | cons u us ih =>
      intro x ha hq
      have hemit : Keeps x (x.emitSetpoint u) := by
        unfold State.emitSetpoint
        rw [ha]
        dsimp only [Option.map_some]
        split
        · rename_i h
          exact keeps_sendSetpoint x u _ (by rw [hq, qualified_of_line h.1])
        · exact .refl x
      refine hemit.trans (ih _ (by rw [emit_alc, ha]) fun v => ?_)
      rw [(cascade_emitSetpoint x u).play.portState, hq]
  have hcasc := cascade_postAllocFlags s.alc (s.setAlc s.allocated)
  refine ((keeps_setAlc s s.allocated).trans (hflags _)).trans (hfold _ _ ?_ fun u => hcasc.play.portState u)
  unfold State.postAllocFlags
  split_ifs <;> rfl

theorem keeps_finish (s before : State) (c : Causes) : Keeps s (s.finish before c) := by
  refine ((keeps_planStage s before c).trans (turn_grantStage _ before c).keeps).trans ?_
  unfold State.finish State.allocStage
  split
  · exact keeps_allocate _
  · exact .refl _

end Sys2Proof.Machine
end

section
/-! What each command does keeps the roster, the ports, the waterway counts and the orphan records: O9 and O12. -/

namespace Sys2Proof.Machine

/-! ## Starting -/

theorem ok_startedFrom (r : PortRec) (mapped : Bool) (now : Word) : (r.startedFrom mapped now).Ok mapped := by
  cases mapped <;> cases hs : r.sending <;>
    exact { unused := by simp [PortRec.startedFrom], probe := by simp [PortRec.startedFrom, PortState.isProbing],
            liveness := by simp [PortRec.startedFrom], outstanding := by simp [PortRec.startedFrom],
            kinds := by simp [PortRec.startedFrom, hs], probes := by simp [PortRec.startedFrom, hs],
            idle := by simp [PortRec.startedFrom, hs] }

theorem RestartedFrom.keeps {s t : State} {v : Int} (h : RestartedFrom s t v) : Keeps s t where
  sound hs := hs.of h.rotation (fun u => by rw [h.units]) (fun u => by rw [h.units])
    (fun p => by rw [h.ports]; exact ok_startedFrom _ _ _) fun u r hr => by rw [h.requests] at hr; cases hr
  waterways _ w r hr := by
    rw [h.waterways] at hr
    obtain ⟨q, -, rfl⟩ := Option.map_eq_some_iff.mp hr
    exact Nat.zero_le _
  orphans _ u o ho := by
    rw [h.orphans] at ho
    cases ho

theorem keeps_freshFrom (a s : State) : Keeps a s.freshFrom where
  sound _ := (Elsewhere.of_blocks (s := State.reset) (t := s.freshFrom) rfl rfl rfl).keeps.sound
    ⟨Proofs.rosterWf_reset, Proofs.portsWf_reset⟩
  waterways _ := (Elsewhere.of_blocks (s := State.reset) (t := s.freshFrom) rfl rfl rfl).keeps.waterways Proofs.waterwaysWf_reset
  orphans _ := (Elsewhere.of_blocks (s := State.reset) (t := s.freshFrom) rfl rfl rfl).keeps.orphans (by
    intro u o ho
    rw [Proofs.reset_orphan] at ho
    cases ho)

/-! ## Frames on the links -/

theorem keeps_beginSending (s : State) (p : Port) (f : UnitFrame) (ok : ∀ mapped, (s.portRec p).Ok mapped →
    ({ s.portRec p with sending := some f } : PortRec).Ok mapped) : Keeps s (s.beginSending p f) :=
  (keeps_setPort s p { s.portRec p with sending := some f } rfl ok).trans
    (Elsewhere.of_blocks (s := s.setPort p { s.portRec p with sending := some f }) (t := s.beginSending p f) rfl rfl rfl).keeps

theorem keeps_sendNext (s : State) (p : Port) : Keeps s (s.sendNext p) := by
  unfold State.sendNext
  split
  · exact .refl s
  · rename_i hq
    exact keeps_setPort s p _ rfl fun _ h =>
      { unused := h.unused, probe := h.probe, liveness := h.liveness, outstanding := h.outstanding, kinds := h.kinds,
        probes := h.probes, idle := fun _ => hq }
  · rename_i f rest hs hq
    refine (keeps_setPort s p { s.portRec p with queue := rest } rfl fun _ h => ?_).trans (keeps_beginSending _ p f fun _ h => ?_)
    · exact { unused := h.unused, probe := h.probe, liveness := h.liveness, outstanding := h.outstanding,
              kinds := (List.pairwise_cons.mp (hq ▸ h.kinds)).2,
              probes := fun hne x hx => h.probes hne x (hq ▸ List.mem_cons_of_mem f hx), idle := by simp [hs] }
    · exact { unused := h.unused, probe := h.probe, liveness := h.liveness, outstanding := h.outstanding, kinds := h.kinds,
              probes := h.probes, idle := by simp }

theorem keeps_acceptDispatch (s : State) : Keeps s s.acceptDispatch := by
  obtain ⟨b, -, -, h⟩ := acceptDispatch_run s
  exact (keeps_setPli s b).trans h.keeps

/-! ## Head and holds -/

theorem RosFrame.elsewhere {s t : State} (h : RosFrame s t) (map : ∀ u, (t.unitRec u).port = (s.unitRec u).port)
    (expected : ∀ u, (t.unitRec u).expected = (s.unitRec u).expected) : Elsewhere s t :=
  ⟨h.ports, h.trs, h.rotation, map, expected⟩

theorem keeps_settleHold (s : State) (u : Slot) : Keeps s (s.settleHold u) := by
  obtain ⟨h, hunit⟩ := settleHold_effect s u
  refine (h.elsewhere (fun v => ?_) fun v => ?_).keeps <;>
  · rw [hunit]
    split <;> rfl

theorem keeps_resettle (before : Option Nat) (s : State) : Keeps s (State.resettle before s) := by
  obtain ⟨h, hunit⟩ := resettle_effect before s
  refine (h.elsewhere (fun v => ?_) fun v => ?_).keeps <;>
  · rw [hunit]
    split <;> rfl

theorem keeps_formEstimate (s : State) : Keeps s s.formEstimate := by
  unfold State.formEstimate
  split
  · exact .refl s
  · exact keeps_setHead s _

theorem keeps_applyLevels (s : State) (up low : Nat) : Keeps s (s.applyLevels up low) :=
  (((keeps_setHead s _).trans (keeps_formEstimate _)).trans (keeps_setHead _ _)).trans (keeps_resettle _ _)

theorem keeps_setHold (s : State) (u : Slot) (h : Option Hold) : Keeps s (s.setHold u h) := keeps_setUnit s u _ rfl rfl

theorem turn_makeAutomatic (s : State) (u : Slot) : Turn s (s.makeAutomatic u) := by
  unfold State.makeAutomatic
  cases hr : s.req u with
  | none => exact turn_setReq_waiting s u (by simp)
  | some r => exact turn_setReq hr (by rintro _ ⟨⟩ hg; exact hg)

theorem keeps_releaseHold (s : State) (u : Slot) : Keeps s (s.releaseHold u) :=
  ((keeps_setHold s u none).trans (keeps_ceaseOrder _ u _)).trans (turn_makeAutomatic _ u).keeps

theorem keeps_sendEmergencyStop (s : State) (u : Slot) (h : Hold) (hq : s.portState u = .qualified) :
    Keeps s (s.sendEmergencyStop u h) := by
  unfold State.sendEmergencyStop
  split
  · exact .refl s
  · rename_i p hp
    exact (keeps_sendOrder s p _ _ _ (by rw [← portState_of_port hp, hq])).trans (keeps_setHold _ u _)

theorem keeps_emergencyStop (s : State) (u : Slot) : Keeps s (s.emergencyStop u) := by
  have tail (x : State) (h : Hold) :
      Keeps x (if x.portState u == .qualified && (x.reported u).any Reported.running then x.sendEmergencyStop u h else x) := by
    split
    · rename_i hq
      exact keeps_sendEmergencyStop x u h (beq_iff_eq.mp (Bool.and_eq_true _ _ ▸ hq).1)
    · exact .refl x
  exact ((keeps_setHold s u _).trans (turn_cancelRequest _ u).keeps).trans (tail _ _)

theorem keeps_emergencyEvent (before s : State) (u : Slot) : Keeps s (State.emergencyEvent before s u) :=
  (keeps_emergencyStop s u).trans (keeps_finish _ before _)

theorem keeps_emergencyAll (before s : State) : Keeps s (State.emergencyAll before s) :=
  (keeps_emergencyEvent before s .u1).trans (.foldl (fun t u => keeps_emergencyEvent t t u) _ _)

/-! ## Parameters and tables -/

theorem keeps_writeParam (s : State) (q : Param) (n : Nat) : Keeps s (s.writeParam q n) := by
  unfold State.writeParam
  cases q with
  | ackMode p => exact keeps_setPort s p _ rfl fun _ h => h.noted (s.portRec p).framer _ (s.portRec p).lastMachine
  | _ => exact keeps_setPli s _

theorem keeps_applyParam (before s : State) (q : Param) : Keeps s (State.applyParam before s q) := by
  unfold State.applyParam
  split
  · split
    · exact keeps_setTgt s _
    · exact .refl s
  · exact keeps_setTgt s _
  · exact (played_meetDue s).keeps
  · exact (played_meetDue s).keeps
  · exact (keeps_formEstimate s).trans (keeps_resettle _ _)
  · exact keeps_resettle _ s
  · exact (played_clearDivider s).keeps
  · exact (played_clearDivider s).keeps
  · exact (played_clearDivider s).keeps.trans (keeps_setPrf _ _)
  · exact .refl s

theorem keeps_supersede (s : State) : Keeps s s.supersede := by
  unfold State.supersede
  split
  · exact .refl s
  · exact keeps_post ..

theorem keeps_commitPlan (s : State) (rows : List PlanRow) : Keeps s (s.commitPlan rows) := by
  have tail (x : State) : Keeps x (if x.governs then (x.setPln { x.pln with selected := none, proposal := none }).selectRow false else x) := by
    split
    · exact (keeps_setPln x _).trans (keeps_selectRow false _)
    · exact .refl x
  exact ((keeps_setPln s _).trans (keeps_post _ _ _ _)).trans (tail _)

/-- A waterway commit finds every in-progress count at 0, and so leaves it (R86, R169). -/
theorem recs_of_waterways {l : Load} {old : Option Waterways} {t : Waterways} (h : l.waterways old = some t) (w : Waterway) :
    ∃ row, t.recs.get w = WaterwayRec.recommit (old.map (fun o => o.recs.get w)) row := by
  unfold Load.waterways at h
  dsimp only at h
  split at h
  · rename_i a b c d _ _ _ _ _ _ _ _ _ _
    cases h
    cases w
    · exact ⟨a, rfl⟩
    · exact ⟨b, rfl⟩
    · exact ⟨c, rfl⟩
    · exact ⟨d, rfl⟩
  · cases h

theorem waterwayBusy_false {s : State} (h : s.waterwayBusy = false) {w : Waterway} {r : WaterwayRec} (hr : s.waterwayRec w = some r) :
    r.inProgress = 0 := by
  have := List.any_eq_false.mp h w (Waterway.mem_all w)
  simpa [hr] using this

theorem keeps_commitWaterway (s : State) (l : Load) (free : s.waterwayBusy = false) :
    Keeps s (s.commitWaterway (l.waterways s.trs.waterways)) := by
  refine Keeps.trans (t := s.setTrs { s.trs with waterways := l.waterways s.trs.waterways }) ?_ (keeps_post _ _ _ _)
  refine ⟨fun hs => hs.of rfl (fun _ => rfl) (fun _ => rfl) hs.ok hs.2.granted, fun _ w r hr => ?_, id⟩
  obtain ⟨t, ht, rfl⟩ := Option.map_eq_some_iff.mp hr
  obtain ⟨row, hrow⟩ := recs_of_waterways ht w
  rw [hrow]
  suffices h : (WaterwayRec.recommit (s.trs.waterways.map (fun o => o.recs.get w)) row).inProgress = 0 by
    rw [h]
    exact Nat.zero_le _
  cases hw : s.trs.waterways with
  | none => rfl
  | some o =>
    show (o.recs.get w).inProgress = 0
    exact waterwayBusy_false free (show s.waterwayRec w = some (o.recs.get w) by rw [State.waterwayRec, hw]; rfl)

theorem keeps_commit (s : State) (l : Load) (free : l.pos = .waterway → s.waterwayBusy = false) : Keeps s (s.commit l) := by
  unfold State.commit
  split
  · exact ((keeps_setHead s _).trans (keeps_post _ _ _ _)).trans (keeps_settleHold _ _)
  · exact keeps_commitPlan s _
  · rename_i h
    exact keeps_commitWaterway s l (free h)

/-! ## The part state -/

theorem turn_compareHeld (s : State) (u : Slot) : Turn s (s.compareHeld u) := by
  unfold State.compareHeld
  split
  · exact turn_compareDemand s u
  · exact .refl

/-- R83: the requests put back are those of before, on the ports of before. -/
theorem keepStep_fold (a : State) (us : List Slot) : ∀ x : State, (∀ u, x.portState u = a.portState u) →
    (Sound a → Sound x → Sound (us.foldl (State.keepStep a) x)) ∧ (us.foldl (State.keepStep a) x).trs.waterways = x.trs.waterways
      ∧ (us.foldl (State.keepStep a) x).trs.orphans = x.trs.orphans := by
  induction us with
  | nil => exact fun x _ => ⟨fun _ h => h, rfl, rfl⟩
  | cons u us ih =>
    intro x hq
    have step : (Sound a → Sound x → Sound (State.keepStep a x u)) ∧ (State.keepStep a x u).trs.waterways = x.trs.waterways
        ∧ (State.keepStep a x u).trs.orphans = x.trs.orphans ∧ ∀ v, (State.keepStep a x u).portState v = a.portState v := by
      unfold State.keepStep
      split
      · refine ⟨fun ha => (keeps_setReq x u _ fun _ r hr hg => ?_).sound, rfl, rfl, hq⟩
        rw [hq]
        exact ha.2.granted u r hr hg
      · exact ⟨fun _ h => h, rfl, rfl, hq⟩
    obtain ⟨hs, hw, ho, hp⟩ := step
    obtain ⟨hs', hw', ho'⟩ := ih _ hp
    exact ⟨fun ha hx => hs' ha (hs ha hx), hw'.trans hw, ho'.trans ho⟩

theorem entered_keeps (s : State) : Keeps s s.entered :=
  ((keeps_setPli s _).trans (keeps_setTgt _ _)).trans (keeps_setPln _ _)

theorem turn_compareHeld_fold (us : List Slot) (s : State) : Turn s (us.foldl State.compareHeld s) := .foldl turn_compareHeld us s

theorem keeps_enabled (s : State) : Keeps s s.enabled := by
  have hturn := turn_compareHeld_fold s.ros.rotation s.entered
  have hk : Keeps s ((s.ros.rotation.foldl State.compareHeld s.entered).selectRow false) :=
    ((entered_keeps s).trans hturn.keeps).trans (keeps_selectRow false _)
  obtain ⟨hs, hw, ho⟩ := keepStep_fold s Slot.all ((s.ros.rotation.foldl State.compareHeld s.entered).selectRow false) fun u =>
    ((select_selectRow false _).portState u).trans (hturn.portState u)
  exact ⟨fun h => hs h (hk.sound h), fun h => waterwaysWf_congr hw (hk.waterways h), fun h => orphansWf_congr ho (hk.orphans h)⟩

theorem keeps_disabled (s : State) : Keeps s s.disabled := by
  have hpost (x : State) : Keeps x (if s.inFallback then x.post .fallbackLeft none (some 0) else x) := by
    split
    · exact keeps_post ..
    · exact .refl x
  have hreq (x : State) (u : Slot) : Turn x (x.disableRequest u) := by
    unfold State.disableRequest
    split
    · exact .refl
    · rename_i r hr
      split
      · exact turn_endRequest x u
      · exact (turn_withdraw x u).trans (turn_endRequest _ u)
      · exact turn_setReq hr (by rintro _ ⟨⟩ hg; exact hg)
  exact ((((keeps_setPli s _).trans (hpost _)).trans (.foldl (fun x u => (hreq x u).keeps) Slot.all _)).trans (keeps_setPln _ _)).trans
    (keeps_setAlc _ _)

/-! ## The map -/

theorem slotOf_isSome {s : State} {p : Port} : (s.slotOf p).isSome = true ↔ ∃ u, (s.unitRec u).port = some p := by
  simp [State.slotOf, List.find?_isSome]

theorem port_of_slotOf {s : State} {p : Port} {u : Slot} (h : s.slotOf p = some u) : (s.unitRec u).port = some p := by
  simpa using List.find?_some h

theorem of_mem_probed {r : PortRec} {now : Word} {f : UnitFrame} (h : f ∈ (r.probed now).queue) : f = .probe ∨ f ∈ r.queue := by
  simp only [PortRec.probed] at h
  split at h
  · exact .inr h
  · exact of_mem_enqueue h

theorem pairwise_probed {r : PortRec} (now : Word) (h : r.queue.Pairwise (fun f g => f.sameKind g = false)) :
    (r.probed now).queue.Pairwise (fun f g => f.sameKind g = false) := by
  simp only [PortRec.probed]
  split
  · exact h
  · exact pairwise_enqueue _ h

/-- A port that has left QUALIFIED for a probing state, with its PROBE handed (R149, R145). -/
theorem PortRec.Ok.left_probed {r : PortRec} (h : r.Ok true) {st : PortState} (hp : st.isProbing = true) (now : Word) :
    ((r.left st).probed now).Ok true := by
  have hqueue (f : UnitFrame) (hf : f ∈ ((r.left st).probed now).queue) : f = .probe := by
    obtain hf | hf := of_mem_probed hf
    · exact hf
    · exact beq_iff_eq.mp (List.mem_filter.mp hf).2
  refine { unused := ⟨fun h => ?_, by simp⟩, probe := hp.symm, liveness := ?_, outstanding := by simp [PortRec.probed, PortRec.left],
           kinds := ?_, probes := fun _ => hqueue, idle := by simp [PortRec.probed] }
  · have : st = .unused := h
    simp [this, PortState.isProbing] at hp
  · have : st ≠ .qualified := by
      rintro rfl
      simp [PortState.isProbing] at hp
    simp [PortRec.probed, PortRec.left, this]
  · exact pairwise_probed now (h.kinds.filter _)

/-- A port taken from its slot (R153). -/
theorem PortRec.Ok.left_unused {r : PortRec} (h : r.Ok true) (hq : r.state = .qualified) : (r.left .unused).Ok false :=
  { unused := by simp [PortRec.left]
    probe := by simpa [PortRec.left, PortState.isProbing, hq] using h.probe
    liveness := by simp [PortRec.left]
    outstanding := by simp [PortRec.left]
    kinds := h.kinds.filter _
    probes := fun _ f hf => beq_iff_eq.mp (List.mem_filter.mp hf).2
    idle := fun hs => by
      have : r.queue = [] := h.idle hs
      simp [PortRec.left, this] }

theorem PortRec.Ok.unmapped {r : PortRec} (h : r.Ok true) (hq : r.state ≠ .qualified) : r.unmapped.Ok false :=
  { unused := by simp [PortRec.unmapped]
    probe := by simp [PortRec.unmapped, PortState.isProbing]
    liveness := by simpa [PortRec.unmapped, hq] using h.liveness
    outstanding := fun ho => absurd (h.outstanding ho) hq
    kinds := List.Pairwise.nil
    probes := by simp [PortRec.unmapped]
    idle := fun _ => rfl }

/-- A port given to a slot (R153, R145). -/
theorem PortRec.Ok.given {r : PortRec} (h : r.Ok false) (now : Word) :
    (({ r with state := .probing, lastMachine := none, outstanding := none } : PortRec).probed now).Ok true := by
  have hu : r.state = .unused := h.unused.mpr rfl
  refine PortRec.Ok.probed (r := { r with state := .probing, lastMachine := none, outstanding := none, probe := some now })
    { unused := by simp, probe := by simp [PortState.isProbing], liveness := by simpa [hu] using h.liveness, outstanding := by simp,
      kinds := h.kinds, probes := fun _ => h.probes (by simp [hu]), idle := h.idle } rfl now

/-- The requests after a slot's port has been taken away: those of the other slots stay, and the slot's has no grant (R79). -/
theorem takePortAway_requests {s : State} (h : Sound s) (u : Slot) {old : Port} (hp : (s.unitRec u).port = some old) :
    (∀ v, v ≠ u → (s.takePortAway u old).req v = s.req v)
      ∧ ∀ r, (s.takePortAway u old).req u = some r → r.granted = false := by
  unfold State.takePortAway
  split
  · have hl := leaveQualified_effect .unused (slotOf_of_wf h.1 hp)
    refine ⟨hl.requests, fun r hr => ?_⟩
    have hr : (s.leaveQualified old .unused).req u = some r := hr
    rw [hl.request] at hr
    obtain ⟨q, -, hq⟩ := Option.bind_eq_some_iff.mp hr
    unfold Request.left at hq
    split at hq
    · rename_i hw
      cases hq
      simp [Request.granted, hw]
    · cases hq
      rfl
    · cases hq
  · rename_i hq
    refine ⟨fun v _ => rfl, fun r hr => ?_⟩
    by_contra hg
    refine hq ?_
    rw [← portState_of_port hp]
    exact h.2.granted u r hr (by simpa using hg)

/-- The state while the slot's port is taken away. -/
def State.portless (s : State) (u : Slot) : State :=
  match (s.unitRec u).port with
  | some old => s.takePortAway u old
  | none => s

theorem portless_requests {s : State} (h : Sound s) (u : Slot) :
    (∀ v, v ≠ u → (s.portless u).req v = s.req v) ∧ ∀ r, (s.portless u).req u = some r → r.granted = false := by
  unfold State.portless
  split
  · rename_i hp
    exact takePortAway_requests h u hp
  · rename_i hp
    refine ⟨fun _ _ => rfl, fun r hr => ?_⟩
    by_contra hg
    have := h.2.granted u r hr (by simpa using hg)
    simp [State.portState, State.slotPort, hp] at this

theorem portless_port {s : State} {u : Slot} (h : Gone s (s.portless u) u) : ((s.portless u).unitRec u).port = none := by
  cases hp : (s.unitRec u).port with
  | none => rw [h.unit_none hp, hp]
  | some q =>
    by_cases hq : (s.portRec q).state = .qualified
    · rw [h.unit_qual q hp hq]
    · rw [h.unit_plain q hp hq]

theorem portless_expected {s : State} {u : Slot} (h : Gone s (s.portless u) u) :
    ((s.portless u).unitRec u).expected = (s.unitRec u).expected := by
  cases hp : (s.unitRec u).port with
  | none => rw [h.unit_none hp]
  | some q =>
    by_cases hq : (s.portRec q).state = .qualified
    · rw [h.unit_qual q hp hq]
      rfl
    · rw [h.unit_plain q hp hq]

theorem sound_remap {s : State} (hs : Sound s) {u : Slot} {p : Option Port} (free : s.takenByOther u p = false)
    (ne : (s.unitRec u).port ≠ p) : Sound (s.remap u p) := by
  have hgone : Gone s (s.portless u) u := takePortAway_effect s u hs.1
  have hport := portless_port hgone
  have hreq := portless_requests hs u
  obtain ⟨bu, bv, bp, bq, btrs, -, -, brot, -⟩ := given_effect (s.portless u) s.clock (State.clock_congr hgone.rest.1) u p hport
  have he : s.remap u p = State.given (s.portless u) u p := remap_eq s u p
  rw [← he] at bu bv bp bq btrs brot
  have other (q : Port) (hq : p = some q) : ∀ v, (s.unitRec v).port ≠ some q := by
    intro v hv
    by_cases hvu : v = u
    · exact ne (by rw [← hvu, hv, hq])
    · simp only [State.takenByOther, hq, Option.any_some, List.any_eq_false] at free
      simpa [hvu, hv] using free v (Slot.mem_all v)
  have huport : ((s.remap u p).unitRec u).port = p := by rw [bu]
  have hvrec (v : Slot) (hv : v ≠ u) : (s.remap u p).unitRec v = s.unitRec v := (bv v hv).trans (hgone.units v hv)
  have mapped (q : Port) (hq : p ≠ some q) (ho : (s.unitRec u).port ≠ some q) :
      ((s.remap u p).slotOf q).isSome = (s.slotOf q).isSome := by
    rw [Bool.eq_iff_iff, slotOf_isSome, slotOf_isSome]
    refine exists_congr fun v => ?_
    by_cases hv : v = u
    · rw [hv, huport]
      exact iff_of_false hq ho
    · rw [hvrec v hv]
  refine ⟨⟨?_, fun v w => ?_, fun v => ?_⟩, ⟨fun q => portWf_iff.mpr ?_, fun v r hr hg => ?_⟩⟩
  · rw [brot, hgone.rest.2.2.1]
    exact hs.1.rotation
  · by_cases hv : v = u <;> by_cases hw : w = u
    · exact fun _ _ => hv.trans hw.symm
    · rw [hv, huport, hvrec w hw]
      intro hsome heq
      obtain ⟨q, hq⟩ := Option.isSome_iff_exists.mp hsome
      exact absurd (heq ▸ hq) (other q hq w)
    · rw [hw, huport, hvrec v hv]
      intro hsome heq
      obtain ⟨q, hq⟩ := Option.isSome_iff_exists.mp hsome
      exact absurd hq (other q (heq ▸ hq) v)
    · rw [hvrec v hv, hvrec w hw]
      exact hs.1.map v w
  · by_cases hv : v = u
    · rw [hv, bu]
      show ((s.portless u).unitRec u).expected ≠ 0
      rw [portless_expected hgone]
      exact hs.1.expected u
    · rw [hvrec v hv]
      exact hs.1.expected v
  · by_cases hq : p = some q
    · have hfree : (s.slotOf q).isSome = false := by
        rw [Bool.eq_false_iff, ne_eq, slotOf_isSome]
        exact fun ⟨v, hv⟩ => other q hq v hv
      rw [bp q hq, hgone.ports q (hq ▸ ne), slotOf_isSome.mpr ⟨u, huport.trans hq⟩]
      exact (hfree ▸ hs.ok q).given _
    · rw [bq q hq]
      by_cases ho : (s.unitRec u).port = some q
      · have hok : (s.portRec q).Ok true := slotOf_isSome.mpr ⟨u, ho⟩ ▸ hs.ok q
        have hgoneq : ((s.remap u p).slotOf q).isSome = false := by
          rw [Bool.eq_false_iff, ne_eq, slotOf_isSome]
          rintro ⟨v, hv⟩
          by_cases hvu : v = u
          · rw [hvu, huport] at hv
            exact hq hv
          · rw [hvrec v hvu] at hv
            exact hvu (hs.1.map v u (by rw [hv]; rfl) (by rw [hv, ho]))
        rw [hgoneq]
        by_cases hst : (s.portRec q).state = .qualified
        · rw [hgone.port_qual q ho hst]
          exact hok.left_unused hst
        · rw [hgone.port_plain q ho hst]
          exact hok.unmapped hst
      · rw [hgone.ports q ho, mapped q hq ho]
        exact hs.ok q
  · have hr : (s.portless u).req v = some r := by rwa [← State.req_congr btrs]
    by_cases hv : v = u
    · rw [hv] at hr
      rw [hreq.2 r hr] at hg
      cases hg
    · rw [hreq.1 v hv] at hr
      have hqual := hs.2.granted v r hr hg
      cases hpv : (s.unitRec v).port with
      | none => simp [State.portState, State.slotPort, hpv] at hqual
      | some q =>
        rw [portState_of_port (by rw [hvrec v hv, hpv])]
        rw [portState_of_port hpv] at hqual
        rw [bq q fun h => other q h v hpv, hgone.ports q fun h => hv (hs.1.map v u (by rw [hpv]; rfl) (by rw [hpv, h])), hqual]

/-- The part of `Keeps` that the scheduler's own record says. -/
def KeepsTrs (s t : State) : Prop := (WaterwaysWf s → WaterwaysWf t) ∧ (OrphansWf s → OrphansWf t)

theorem KeepsTrs.trans {s t r : State} (h : KeepsTrs s t) (k : KeepsTrs t r) : KeepsTrs s r := ⟨k.1 ∘ h.1, k.2 ∘ h.2⟩

theorem KeepsTrs.of_trs {s t : State} (h : t.trs = s.trs) : KeepsTrs s t :=
  ⟨waterwaysWf_congr (by rw [h]), orphansWf_congr (by rw [h])⟩

theorem Keeps.keepsTrs {s t : State} (h : Keeps s t) : KeepsTrs s t := ⟨h.waterways, h.orphans⟩

theorem KeepsTrs.keeps {s t : State} (h : KeepsTrs s t) (k : Sound s → Sound t) : Keeps s t := ⟨k, h.1, h.2⟩

theorem keepsTrs_probeNow (s : State) (p : Port) : KeepsTrs s (s.probeNow p) := by
  obtain ⟨ports, out, h⟩ := probeNow_eq s p
  exact .of_trs (by rw [h])

theorem keepsTrs_leaveQualified (s : State) (p : Port) (st : PortState) : KeepsTrs s (s.leaveQualified p st) := by
  unfold State.leaveQualified
  dsimp only
  split
  · exact .of_trs rfl
  · rename_i u _
    exact KeepsTrs.trans (t := (s.setPort p ((s.portRec p).leave st)).setUnit u
      ((s.setPort p ((s.portRec p).leave st)).unitRec u).portGone) (.of_trs rfl) (turn_orphanRequest _ u).keeps.keepsTrs

theorem keeps_remap (s : State) {u : Slot} {p : Option Port} (free : s.takenByOther u p = false) (ne : (s.unitRec u).port ≠ p) :
    Keeps s (s.remap u p) := by
  have haway (old : Port) : KeepsTrs s (s.takePortAway u old) := by
    unfold State.takePortAway
    dsimp only
    split
    · exact (keepsTrs_leaveQualified s old .unused).trans (.of_trs rfl)
    · exact .of_trs rfl
  have hless : KeepsTrs s (s.portless u) := by
    unfold State.portless
    split
    · exact haway _
    · exact .of_trs rfl
  have hgive (x : State) (q : Port) : KeepsTrs x (x.givePort u q) :=
    KeepsTrs.trans (t := (x.setUnit u { x.unitRec u with port := some q }).setPort q
      { (x.setUnit u { x.unitRec u with port := some q }).portRec q with state := .probing, lastMachine := none, outstanding := none })
      (.of_trs rfl) (keepsTrs_probeNow _ q)
  refine KeepsTrs.keeps ?_ fun hs => sound_remap hs free ne
  rw [show s.remap u p = State.given (s.portless u) u p from remap_eq s u p]
  cases p with
  | none => exact hless
  | some q => exact hless.trans (hgive _ q)

/-! ## Probing and qualification -/

/-- A port outside QUALIFIED, whose slot therefore has no grant, takes a well-formed record. -/
theorem keeps_portRec {s t : State} (p : Port) (trs : t.trs = s.trs) (ros : t.ros = s.ros) (others : ∀ q, q ≠ p → t.portRec q = s.portRec q)
    (ok : ∀ mapped, (s.portRec p).Ok mapped → (t.portRec p).Ok mapped)
    (stays : (s.portRec p).state = .qualified → (t.portRec p).state = .qualified) : Keeps s t where
  sound h := by
    have hunit (u) : t.unitRec u = s.unitRec u := State.unitRec_congr ros u
    refine h.of (by rw [ros]) (fun u => by rw [hunit]) (fun u => by rw [hunit]) (fun q => ?_) fun u r hr hg => ?_
    · by_cases hq : q = p
      · rw [hq]
        exact ok _ (h.ok p)
      · rw [others q hq]
        exact h.ok q
    · have hqual := h.2.granted u r (by rwa [← State.req_congr trs]) hg
      cases hp : (s.unitRec u).port with
      | none => simp [State.portState, State.slotPort, hp] at hqual
      | some q =>
        rw [portState_of_port hp] at hqual
        rw [portState_of_port (by rw [hunit, hp])]
        by_cases hq : q = p
        · rw [hq] at hqual ⊢
          exact stays hqual
        · rw [others q hq, hqual]
  waterways := waterwaysWf_congr (by rw [trs])
  orphans := orphansWf_congr (by rw [trs])

theorem keeps_probeNow (s : State) (p : Port) (hp : (s.portRec p).state.isProbing = true) : Keeps s (s.probeNow p) := by
  obtain ⟨ports, out, h⟩ := probeNow_eq s p
  have hrec : (s.probeNow p).portRec p = (s.portRec p).probed s.clock := by rw [probeNow_portRec, if_pos rfl]
  refine keeps_portRec p (by rw [h]) (by rw [h]) (fun q hq => by rw [probeNow_portRec, if_neg hq]) (fun _ hok => ?_) fun hq => ?_
  · rw [hrec]
    exact hok.probed hp _
  · rw [hrec]
    exact hq

/-- From one probing state to another. -/
theorem keeps_setPortState (s : State) (p : Port) (st : PortState) (hp : (s.portRec p).state.isProbing = true) (hst : st.isProbing = true) :
    Keeps s (s.setPortState p st) := by
  have ne {x : PortState} (hx : x.isProbing = true) : x ≠ .qualified ∧ x ≠ .unused := by
    constructor <;>
    · rintro rfl
      simp [PortState.isProbing] at hx
  refine keeps_portRec p rfl rfl (fun q hq => ?_) (fun mapped hok => ?_) fun hq => absurd hq (ne hp).1
  · rw [State.setPortState, State.setPort_portRec, if_neg hq]
  · rw [State.setPortState, State.setPort_portRec, if_pos rfl]
    have hmapped : mapped ≠ false := fun h => (ne hp).2 (hok.unused.mpr h)
    exact { unused := iff_of_false (ne hst).2 hmapped, probe := by rw [hst, ← hp]; exact hok.probe,
            liveness := by simpa [(ne hst).1, (ne hp).1] using hok.liveness,
            outstanding := fun h => absurd (hok.outstanding h) (ne hp).1, kinds := hok.kinds,
            probes := fun _ => hok.probes (ne hp).1, idle := hok.idle }

theorem keeps_qualify (s : State) (p : Port) (u : Slot) (n : Byte) (hp : (s.portRec p).state.isProbing = true) :
    Keeps s (s.qualify p u n) := by
  refine Keeps.trans (t := s.setPort p { s.portRec p with
    state := .qualified, probe := none, liveness := some (later s.clock s.params.unitTimeout) }) ?_ (keeps_post _ _ _ _)
  refine keeps_portRec p rfl rfl (fun q hq => ?_) (fun mapped hok => ?_) fun _ => ?_
  · rw [State.setPort_portRec, if_neg hq]
  · rw [State.setPort_portRec, if_pos rfl]
    have hused : (s.portRec p).state ≠ .unused := by
      intro h
      simp [h, PortState.isProbing] at hp
    have hmapped : mapped ≠ false := fun h => hused (hok.unused.mpr h)
    exact { unused := iff_of_false (by simp) hmapped, probe := by simp [PortState.isProbing], liveness := by simp,
            outstanding := fun _ => rfl, kinds := hok.kinds, probes := fun h => absurd rfl h, idle := hok.idle }
  · rw [State.setPort_portRec, if_pos rfl]

/-- A QUALIFIED port goes to a probing state, and a PROBE is handed at once (R149, R145). -/
theorem keeps_leave (s : State) (p : Port) {st : PortState} (hq : (s.portRec p).state = .qualified) (hst : st.isProbing = true) :
    Keeps s ((s.leaveQualified p st).probeNow p) := by
  refine KeepsTrs.keeps ((keepsTrs_leaveQualified s p st).trans (keepsTrs_probeNow _ p)) fun hs => ?_
  have hmapped : (s.slotOf p).isSome = true := by
    by_contra h
    have := (hs.ok p).unused.mpr (by simpa using h)
    rw [hq] at this
    cases this
  obtain ⟨u, hu⟩ := Option.isSome_iff_exists.mp hmapped
  have hl := leaveQualified_effect st hu
  obtain ⟨ports, out, hpn⟩ := probeNow_eq (s.leaveQualified p st) p
  have hrec := probeNow_portRec (s.leaveQualified p st) p
  generalize ht : (s.leaveQualified p st).probeNow p = t at hpn hrec
  have hunit (v) : t.unitRec v = (s.leaveQualified p st).unitRec v := by rw [hpn]; rfl
  have hreq (v) : t.req v = (s.leaveQualified p st).req v := by rw [hpn]; rfl
  have hport (v) : (t.unitRec v).port = (s.unitRec v).port ∧ (t.unitRec v).expected = (s.unitRec v).expected := by
    rw [hunit]
    by_cases hv : v = u
    · rw [hv, hl.unit]
      exact ⟨rfl, rfl⟩
    · rw [hl.units v hv]
      exact ⟨rfl, rfl⟩
  refine hs.of (by rw [hpn]; exact hl.rotation) (fun v => (hport v).1) (fun v => (hport v).2) (fun q => ?_) fun v r hr hg => ?_
  · rw [hrec]
    split
    · rename_i hqp
      rw [hqp, hl.port, hmapped]
      exact (hmapped ▸ hs.ok p).left_probed hst _
    · rename_i hqp
      rw [hl.ports q hqp]
      exact hs.ok q
  · rw [hreq] at hr
    by_cases hv : v = u
    · rw [hv, hl.request] at hr
      obtain ⟨x, -, hx⟩ := Option.bind_eq_some_iff.mp hr
      unfold Request.left at hx
      split at hx
      · rename_i hw
        cases hx
        simp [Request.granted, hw] at hg
      · cases hx
        cases hg
      · cases hx
    · rw [hl.requests v hv] at hr
      have hqual := hs.2.granted v r hr hg
      cases hpv : (s.unitRec v).port with
      | none => simp [State.portState, State.slotPort, hpv] at hqual
      | some q =>
        rw [portState_of_port hpv] at hqual
        rw [portState_of_port (by rw [(hport v).1, hpv]), hrec, if_neg ?_, hl.ports q ?_, hqual] <;>
        · intro hqp
          exact hv (hs.1.map v u (by rw [hpv]; rfl) (by rw [hpv, port_of_slotOf hu, hqp]))

theorem keeps_compareIdent (s : State) (p : Port) (u : Slot) (n : Byte) :
    Keeps s (s.compareIdent p u n) := by
  have hnote := keeps_setPort s p { s.portRec p with lastMachine := some n } rfl fun _ h =>
    h.noted (s.portRec p).framer (s.portRec p).ackMode (some n)
  have hstate : ((s.setPort p { s.portRec p with lastMachine := some n }).portRec p).state = (s.portRec p).state := by
    rw [State.setPort_portRec, if_pos rfl]
  unfold State.compareIdent
  dsimp only
  refine hnote.trans ?_
  generalize s.setPort p { s.portRec p with lastMachine := some n } = x at hstate
  split
  · split
    · rename_i hp
      exact keeps_qualify x p u n (hstate ▸ hp)
    · exact .refl x
  · have hmismatch (h : (x.portRec p).state.isProbing = true) :
        Keeps x ((x.setPortState p .mismatch).post .portMismatch (some u) (some n.toNat)) :=
      (keeps_setPortState x p .mismatch h rfl).trans (keeps_post _ _ _ _)
    split <;> rename_i hold
    · exact (keeps_leave x p (hstate.trans hold) rfl).trans (keeps_post _ _ _ _)
    · exact hmismatch (by rw [hstate, hold]; rfl)
    · exact hmismatch (by rw [hstate, hold]; rfl)
    · exact hmismatch (by rw [hstate, hold]; rfl)
    · exact .refl x
    · exact .refl x

theorem keeps_probeExpired (s : State) (p : Port) (hp : (s.portRec p).state.isProbing = true) : Keeps s (s.probeExpired p) := by
  have hstate : ((s.probeNow p).portRec p).state = (s.portRec p).state := by rw [probeNow_portRec, if_pos rfl]; rfl
  unfold State.probeExpired
  dsimp only
  split
  · exact (keeps_probeNow s p hp).trans (keeps_setPortState _ p .probing (hstate ▸ hp) rfl)
  · exact keeps_probeNow s p hp

theorem keeps_losePort (s : State) (p : Port) (hq : (s.portRec p).state = .qualified) : Keeps s (s.losePort p) :=
  (keeps_leave s p hq rfl).trans (keeps_post _ _ _ _)

/-! ## Reports and acknowledgements -/

theorem keeps_watchEmergency (s : State) (u : Slot) (m : Reported) (hq : s.portState u = .qualified) : Keeps s (s.watchEmergency u m) := by
  unfold State.watchEmergency
  split
  · exact .refl s
  · rename_i h _
    split
    · exact .refl s
    · split
      · split
        · exact .refl s
        · exact keeps_sendEmergencyStop s u h hq
      · exact (keeps_setHold s u _).trans (keeps_ceaseOrder _ u _)

theorem keeps_noteTrip (s : State) (u : Slot) (m : Reported) (cause : Byte) : Keeps s (s.noteTrip u m cause) := by
  unfold State.noteTrip
  split
  · exact (keeps_setUnit s u { s.unitRec u with trip := true } rfl rfl).trans (keeps_post _ _ _ _)
  · exact .refl s

theorem noteTrip_elsewhere (s : State) (u : Slot) (m : Reported) (cause : Byte) : Elsewhere s (s.noteTrip u m cause) := by
  unfold State.noteTrip
  split
  · have h := elsewhere_setUnit s u { s.unitRec u with trip := true } rfl rfl
    exact ⟨h.ports, h.trs, h.rotation, h.map, h.expected⟩
  · exact .of_blocks rfl rfl rfl

theorem Elsewhere.portState {s t : State} (h : Elsewhere s t) (u : Slot) : t.portState u = s.portState u :=
  portState_congr h.map (fun p => by rw [State.portRec_congr h.ports]) u

theorem keeps_acceptStatus (s : State) (u : Slot) (r : Report) (cause : Byte) (hq : s.portState u = .qualified) :
    Keeps s (s.acceptStatus u r cause) := by
  have hwrite : Elsewhere s (s.writeReport u r) := elsewhere_setUnit s u _ rfl rfl
  have htrip := noteTrip_elsewhere (s.writeReport u r) u r.mode cause
  have hqual : ((s.writeReport u r).noteTrip u r.mode cause).portState u = .qualified := by
    rw [htrip.portState, hwrite.portState, hq]
  have tail (b : Bool) (x : State) : Keeps x (if b then x.compareDemand u else x) := by
    split
    · exact (turn_compareDemand x u).keeps
    · exact .refl x
  exact (hwrite.keeps.trans (keeps_noteTrip _ u _ _)).trans ((((keeps_watchEmergency _ u _ hqual).trans
    (turn_supervise _ u _ _).keeps).trans (turn_watchConverters _ u _ _).keeps).trans (tail _ _))

theorem keeps_refuseStep (s : State) (u : Slot) (cause : Int) : Keeps s (s.refuseStep u cause) := by
  have hback (x : State) : Keeps x (if x.params.refusalBackoff = 0 then x
      else x.setUnit u { x.unitRec u with backoff := some (later x.clock x.params.refusalBackoff) }) := by
    split
    · exact .refl x
    · exact keeps_setUnit x u _ rfl rfl
  exact (((turn_failRequest s u false).keeps.trans (hback _)).trans (keeps_post _ _ _ _)).trans (turn_compareDemand _ u).keeps

theorem keeps_clearOutstanding (s : State) (p : Port) : Keeps s (s.clearOutstanding p) :=
  keeps_setPort s p _ rfl fun _ h => h.ceased

theorem keeps_ackOrder (s : State) (p : Port) (u : Slot) (q : Purpose) (accepted : Bool) (cause : Byte) :
    Keeps s (s.ackOrder p u q accepted cause) := by
  unfold State.ackOrder
  split
  · unfold State.ackSupervised
    split
    · exact .refl s
    · rename_i r hr
      split
      · exact .refl s
      · rename_i ho
        split
        · refine (turn_setReq hr ?_).keeps
          rintro _ ⟨⟩ -
          simp [Request.granted, not_not.mp ho]
        · exact keeps_refuseStep s u _
  · split
    · exact keeps_clearOutstanding s p
    · exact (keeps_clearOutstanding s p).trans (keeps_post _ _ _ _)
  · exact keeps_clearOutstanding s p

/-! ## Timers -/

theorem orderStep_waterways (s : State) (u : Slot) :
    (s.orderStep u).trs.waterways = s.trs.waterways ∧ (s.orderStep u).trs.orphans = s.trs.orphans := by
  unfold State.orderStep
  split
  · split
    · exact ⟨rfl, rfl⟩
    · rename_i r p _ _ _ st _
      have h : (s.sendOrder p st.kind r.conv .supervised).trs = s.trs := sendOrder_trs s p st.kind r.conv .supervised
      exact ⟨congrArg (·.waterways) h, congrArg (·.orphans) h⟩
  · exact ⟨rfl, rfl⟩

theorem keeps_lead (s : State) {u : Slot} {r : Request} (hr : s.req u = some r) (hw : r.state = .warning) : Keeps s (s.orderStep u) where
  sound h := (turn_orderStep (h.2.granted u r hr (by simp [Request.granted, hw]))).keeps.sound h
  waterways := waterwaysWf_congr (orderStep_waterways s u).1
  orphans := orphansWf_congr (orderStep_waterways s u).2

theorem keeps_timeoutStep (s : State) (u : Slot) (k : StepKind) : Keeps s (s.timeoutStep u k) := by
  have hsend (x : State) : Keeps x (x.sendTimeoutStop u k) := by
    unfold State.sendTimeoutStop
    split
    · exact .refl x
    · split
      · rename_i h
        exact keeps_sendOrder x _ _ _ _ h.2
      · exact .refl x
  have hfault := keeps_setUnit (s.failRequest u true) u { (s.failRequest u true).unitRec u with fault := true } rfl rfl
  exact ((((turn_failRequest s u true).keeps.trans hfault).trans (hsend _)).trans (keeps_post _ _ _ _)).trans
    (turn_compareDemand _ u).keeps

theorem WaterwayRec.nextPhase_inProgress (r : WaterwayRec) (now : Word) : (r.nextPhase now).inProgress = r.inProgress := by
  unfold WaterwayRec.nextPhase
  repeat' split
  all_goals rfl

/-! ## The rotation order -/

theorem keeps_setRotation (s : State) {order : List Slot} (h : order.Perm Slot.all) : Keeps s (s.setRotation order) where
  sound hs := ⟨⟨h, hs.1.map, hs.1.expected⟩, ⟨fun p => portWf_iff.mpr (hs.ok p), hs.2.granted⟩⟩
  waterways hw := hw
  orphans ho := ho

theorem rotateOnce_perm : ∀ order : List Slot, (rotateOnce order).Perm order
  | [] => .nil
  | u :: rest => List.perm_append_singleton u rest

theorem keeps_rotate (s : State) : Keeps s (s.setRotation (rotateOnce s.ros.rotation)) where
  sound hs := ⟨⟨(rotateOnce_perm _).trans hs.1.rotation, hs.1.map, hs.1.expected⟩, ⟨fun p => portWf_iff.mpr (hs.ok p), hs.2.granted⟩⟩
  waterways hw := hw
  orphans ho := ho

/-- R20: entries without fault name as many slots, none of them twice or among those seen. -/
theorem firstBadEntry_fine (codes : List Byte) : ∀ (i : Nat) (seen : List Slot), firstBadEntry i seen codes = none →
    (codes.filterMap slotOfCode).length = codes.length ∧ (codes.filterMap slotOfCode).Nodup
      ∧ ∀ u ∈ codes.filterMap slotOfCode, u ∉ seen := by
  induction codes with
  | nil => simp
  | cons c rest ih =>
    intro i seen h
    unfold firstBadEntry at h
    cases hc : slotOfCode c with
    | none => simp [hc] at h
    | some u =>
      simp only [hc] at h
      split at h
      · cases h
      · rename_i hseen
        obtain ⟨hlen, hnodup, hnew⟩ := ih _ _ h
        rw [List.filterMap_cons_some hc]
        refine ⟨by simp [hlen], List.nodup_cons.mpr ⟨fun hu => hnew u hu (List.mem_cons_self ..), hnodup⟩, fun v hv => ?_⟩
        obtain rfl | hv := List.mem_cons.mp hv
        · simpa using hseen
        · exact fun hs => hnew v hv (List.mem_cons_of_mem _ hs)

theorem perm_of_rotationFault {codes : List Byte} (h : rotationFault codes = none) : (codes.filterMap slotOfCode).Perm Slot.all := by
  unfold rotationFault at h
  split at h
  · cases h
  · rename_i hlen
    obtain ⟨hl, hn, -⟩ := firstBadEntry_fine codes 1 [] h
    have hsub : (codes.filterMap slotOfCode).Subperm Slot.all := hn.subperm fun u _ => Slot.mem_all u
    refine hsub.perm_of_length_le ?_
    rw [hl, not_not.mp hlen]
    rfl

theorem keeps_setExpected (s : State) (u : Slot) {n : Byte} (h : n ≠ 0) : Keeps s (s.setUnit u { s.unitRec u with expected := n }) where
  sound hs := by
    have hport (v) : ((s.setUnit u { s.unitRec u with expected := n }).unitRec v).port = (s.unitRec v).port := by
      rw [State.setUnit_unitRec]
      split
      · rename_i hv
        rw [hv]
      · rfl
    refine ⟨⟨hs.1.rotation, fun v w => ?_, fun v => ?_⟩, fun p => portWf_iff.mpr ?_, fun v r hr hg => ?_⟩
    · rw [hport, hport]
      exact hs.1.map v w
    · rw [State.setUnit_unitRec]
      split
      · exact h
      · exact hs.1.expected v
    · rw [slotOf_congr hport]
      exact hs.ok p
    · rw [portState_congr hport fun _ => rfl]
      exact hs.2.granted v r hr hg
  waterways hw := hw
  orphans ho := ho

/-! ## Every command -/

theorem Did.keeps {s a m : State} {b : Bool} (h : Did s a b m) (ha : Keeps s a) : Keeps s m := by
  have fin {x : State} {c : Causes} (k : Keeps a x) : Keeps s (x.finish s c) := (ha.trans k).trans (keeps_finish x s c)
  cases h with
  | nothing _ => exact ha
  | fresh => exact keeps_freshFrom s s
  | restart v => exact ha.trans (restartedFrom_restarted a v).1.keeps
  | sent p => exact ha.trans (keeps_sendNext a p)
  | heard => exact fin (keeps_acceptDispatch a)
  | base v i _ => exact fin ((keeps_acceptDispatch a).trans (played_applyBase _ v i).keeps)
  | reg v _ => exact fin ((keeps_acceptDispatch a).trans (played_applyReg _ v).keeps)
  | levels up low => exact fin ((keeps_acceptDispatch a).trans (keeps_applyLevels _ up low))
  | hold u m v _ => exact fin (((keeps_acceptDispatch a).trans (keeps_setHold _ u _)).trans (keeps_settleHold _ u))
  | release u _ => exact fin ((keeps_acceptDispatch a).trans (keeps_releaseHold _ u))
  | emergency u => exact (ha.trans (keeps_acceptDispatch a)).trans (keeps_emergencyEvent _ _ u)
  | emergencyAll => exact (ha.trans (keeps_acceptDispatch a)).trans (keeps_emergencyAll _ _)
  | param q v n _ _ _ => exact ha.trans (((keeps_writeParam a q n).trans (keeps_applyParam a _ q)).trans (keeps_finish _ a _))
  | loadBegin pos n _ => exact (ha.trans (keeps_supersede a)).trans (keeps_setPli _ _)
  | loadRow l i row r b _ _ _ => exact ha.trans (keeps_setPli a _)
  | unload => exact ha.trans (keeps_setPli a _)
  | commit l _ _ _ _ free => exact fin ((keeps_setPli a _).trans (keeps_commit _ l free))
  | define field n count interval rep v _ => exact ha.trans (keeps_setPrf a _)
  | write field first count values p _ _ => exact ha.trans (keeps_setPrf a _)
  | delete n _ =>
    split
    · exact ha.trans ((keeps_setPrf a _).trans (keeps_setPrf _ _))
    · exact ha.trans (keeps_setPrf a _)
  | deleteAll => exact ha.trans ((keeps_setPrf a _).trans (keeps_setPrf _ _))
  | play n _ => exact fin (played_play a n).keeps
  | stopPlay => exact ha.trans (keeps_setPrf a _)
  | edge => exact fin (played_activeEdge a).keeps
  | boundary => exact fin ((played_boundary a).trans (played_pulse _)).keeps
  | holdover _ => exact fin (played_holdover a).keeps
  | meetPlan => exact fin (played_meetPlan a).keeps
  | meetRamp => exact fin (played_meetRamp a).keeps
  | pulseEnd => exact ha.trans (keeps_setPrf a _)
  | source src _ _ => exact fin (played_changeSource a src).keeps
  | pattern low high period shape => exact fin (played_storePattern a _).keeps
  | period r _ => exact fin (played_stepPattern a r).keeps
  | enable _ => exact fin (keeps_enabled a)
  | disable => exact ha.trans (keeps_disabled a)
  | resume _ => exact fin ((keeps_setPli a _).trans (returnToDispatching_run a).keeps)
  | map u p _ free ne => exact fin (keeps_remap a free ne)
  | expect u n h => exact ha.trans (keeps_setExpected a u h)
  | rotationSet slots h => exact fin (keeps_setRotation a (perm_of_rotationFault h))
  | rotate => exact fin (keeps_rotate a)
  | clear u => exact fin (keeps_setUnit a u _ rfl rfl)
  | resources u => exact fin ((turn_releaseOrphan a u).trans (turn_releaseObserved _ u)).keeps
  | line first l => exact ha.trans (keeps_setSte a _)
  | eventRead => exact ha.trans (keeps_setSte a _)
  | ident p u n _ _ => exact fin (keeps_compareIdent a p u n)
  | status p u r cause hu hq =>
    have hport : (a.unitRec u).port = some p := port_of_slotOf hu
    have hset := keeps_portRec (s := a) (t := a.setPort p { a.portRec p with liveness := some (later a.clock a.params.unitTimeout) }) p rfl rfl
      (fun q hqp => by rw [State.setPort_portRec, if_neg hqp]) (fun mapped hok => by
        rw [State.setPort_portRec, if_pos rfl]
        exact { unused := hok.unused, probe := hok.probe, liveness := by simp [hq], outstanding := hok.outstanding, kinds := hok.kinds,
                probes := hok.probes, idle := hok.idle }) (fun h => by rw [State.setPort_portRec, if_pos rfl]; exact h)
    refine fin (hset.trans (keeps_acceptStatus _ u r cause ?_))
    refine (portState_of_port (s := a.setPort p { a.portRec p with liveness := some (later a.clock a.params.unitTimeout) })
      (p := p) hport).trans ?_
    rw [State.setPort_portRec, if_pos rfl]
    exact hq
  | ack p u o accepted cause _ _ _ => exact fin (keeps_ackOrder a p u _ accepted cause)
  | tick => exact fin ((keeps_setPli a _).trans (played_ramp _).keeps)
  | linkDown =>
    obtain ⟨b, -, -, hb⟩ := linkDown_run a
    exact fin ((keeps_setPli a b).trans hb.keeps)
  | levelStale => exact (ha.trans (keeps_setHead a _)).trans (keeps_post _ _ _ _)
  | dwell _ => exact fin (keeps_selectRow true a)
  | backoff u => exact fin (keeps_setUnit a u _ rfl rfl)
  | lead u r hr hw => exact fin (keeps_lead a hr hw)
  | noAck u r _ _ => exact fin (keeps_refuseStep a u _)
  | timeout u r k _ _ => exact fin (keeps_timeoutStep a u k)
  | settled w r h => exact fin (TrsMicro.waterway a w r { r with settle := none } h ⟨rfl, .inl (Nat.le_refl _)⟩).keeps
  | phase w r h =>
    exact ha.trans (TrsMicro.waterway a w r _ h ⟨r.nextPhase_row _, .inl (r.nextPhase_inProgress _).le⟩).keeps
  | probe p h => exact fin (keeps_probeExpired a p h)
  | lost p h => exact fin (keeps_losePort a p h)

end Sys2Proof.Machine

namespace Sys2Proof.Proofs
open Sys2Proof.Machine

/-- Settles O9: what a command does keeps the roster and the ports (`Did.keeps`), and its frames do not touch them. -/
theorem stepKeepsRosterAndPorts : Obligations.StepKeepsRosterAndPorts := by
  unfold Obligations.StepKeepsRosterAndPorts
  intro s t hr hp h
  exact step_keeps (P := Sound) (fun _ _ hf => hf.keeps.sound) (fun _ _ _ _ hf hs hd => (hd.keeps hf.keeps).sound hs) h ⟨hr, hp⟩

/-- Settles O12: the in-progress count rises by a grant alone, below the slot count (`TrsMicro`). -/
theorem stepKeepsWaterwayCounts : Obligations.StepKeepsWaterwayCounts := by
  unfold Obligations.StepKeepsWaterwayCounts
  intro s t hw h
  exact step_keeps (P := WaterwaysWf) (fun _ _ hf => hf.keeps.waterways) (fun _ _ _ _ hf hs hd => (hd.keeps hf.keeps).waterways hs) h hw

end Sys2Proof.Proofs
end

section
/-! Targets, parameters, the profile store and the event queue through every operation (O10). `Minds` composes as `Keeps` does; what a boundary
does to playback is said without the playback record before it, since PLAY in LEAD mode makes its boundary of a record that has no times
yet (R129, R133). -/

namespace Sys2Proof.Machine

/-! ## The event queue (R175) -/

/-- `EventsWf` of the STE's record, by what stands at each index. -/
def Ste.Ok (e : Ste) : Prop :=
  e.events.length ≤ 64 ∧ ∀ i r, e.events[i]? = some r → r.seq = e.seq - BitVec.ofNat 16 (e.events.length - i)

theorem eventsWf_iff {s : State} : EventsWf s ↔ s.ste.Ok := by
  refine and_congr_right fun _ => ⟨fun h i r hr => ?_, fun h i hi => h i _ (List.getElem?_eq_getElem hi)⟩
  obtain ⟨hi, rfl⟩ := List.getElem?_eq_some_iff.mp hr
  exact h i hi

theorem seq_succ (q : BitVec 16) (n : Nat) : q - BitVec.ofNat 16 n = q + 1 - BitVec.ofNat 16 (n + 1) := by
  rw [show BitVec.ofNat 16 (n + 1) = BitVec.ofNat 16 n + 1 from BitVec.ofNat_add ..]
  ring

theorem Posted.ok {now : Word} {a b : Ste} (h : Posted now a b) (ha : a.Ok) : b.Ok := by
  induction h with
  | refl => exact ha
  | @post b _ kind slot value ih =>
    obtain ⟨hlen, hseq⟩ := ih
    have append (l : List Event) (hl : l.length ≤ 63)
        (hs : ∀ i r, l[i]? = some r → r.seq = b.seq - BitVec.ofNat 16 (l.length - i)) (x : Event) (hx : x.seq = b.seq) :
        (l ++ [x]).length ≤ 64 ∧ ∀ i r, (l ++ [x])[i]? = some r → r.seq = b.seq + 1 - BitVec.ofNat 16 ((l ++ [x]).length - i) := by
      refine ⟨by simpa using Nat.succ_le_succ hl, fun i r hr => ?_⟩
      rw [List.length_append, List.length_singleton]
      by_cases hi : i < l.length
      · rw [List.getElem?_append_left hi] at hr
        rw [hs i r hr, seq_succ, show l.length + 1 - i = l.length - i + 1 by omega]
      · rw [List.getElem?_append_right (Nat.not_lt.mp hi)] at hr
        obtain ⟨hi', rfl⟩ := List.getElem?_eq_some_iff.mp hr
        have hi' : i - l.length < 1 := hi'
        rw [show l.length + 1 - i = 0 + 1 by omega, List.getElem_singleton, hx, ← seq_succ, BitVec.sub_zero]
    by_cases hfull : 64 ≤ b.events.length
    · simp only [Ste.Ok, if_pos hfull]
      refine append _ (by rw [List.length_tail]; omega) (fun i r hr => ?_) _ rfl
      rw [List.getElem?_tail] at hr
      rw [hseq _ r hr, List.length_tail, show b.events.length - (i + 1) = b.events.length - 1 - i by omega]
    · simp only [Ste.Ok, if_neg hfull]
      exact append _ (by omega) hseq _ rfl

/-! ## Targets (R110) -/

/-- The part of `TargetsWf` that the TGT's record says, for a limit of the increment. -/
structure Tgt.Ok (t : Tgt) (limit : Nat) : Prop where
  base : InPlant t.reqBase
  plan : InPlant t.plan
  ramped : InPlant t.ramped
  low : InPlant t.pattern.low
  high : InPlant t.pattern.high
  increment : -(limit : Int) ≤ t.increment ∧ t.increment ≤ limit
  follows : t.source ≠ .profile → t.plan = t.reqBase
  pattern : t.source = .pattern → t.increment = 0

/-- R123: profile entries lie in the plant range. -/
def EntriesOk (dir : List Profile) : Prop := ∀ p ∈ dir, ∀ v ∈ p.entries, InPlant v

theorem targetsWf_iff {s : State} : TargetsWf s ↔ s.tgt.Ok s.params.regLimit ∧ EntriesOk s.prf.dir :=
  ⟨fun h => ⟨⟨h.base, h.plan, h.ramped, h.low, h.high, h.increment, h.follows, h.pattern⟩, h.entries⟩,
    fun ⟨h, k⟩ => ⟨h.base, h.plan, h.ramped, h.low, h.high, k, h.increment, h.follows, h.pattern⟩⟩

theorem inPlant_clamp (v : Int) : InPlant (clampPlant v) := by
  unfold InPlant clampPlant clampInt plantMax
  split_ifs <;> omega

theorem Tgt.Ok.withBase {t : Tgt} {n : Nat} (h : t.Ok n) (v : Int) (jumps : Bool) : (t.withBase v jumps).Ok n where
  base := inPlant_clamp v
  plan := by
    simp only [Tgt.withBase]
    split
    · exact h.plan
    · exact inPlant_clamp v
  ramped := by
    simp only [Tgt.withBase]
    split
    · exact inPlant_clamp v
    · exact h.ramped
  low := h.low
  high := h.high
  increment := h.increment
  follows hs := if_neg hs
  pattern := h.pattern

theorem clampInt_bounds (n : Nat) (v : Int) : -(n : Int) ≤ clampInt (-(n : Int)) n v ∧ clampInt (-(n : Int)) n v ≤ n := by
  unfold clampInt
  split_ifs <;> omega

/-- R112, R113: an increment written outside PATTERN. -/
theorem Tgt.Ok.withIncrement {t : Tgt} {n : Nat} (h : t.Ok n) {v : Int} (hv : -(n : Int) ≤ v ∧ v ≤ n) (hs : t.source ≠ .pattern) :
    ({ t with increment := v } : Tgt).Ok n :=
  { base := h.base, plan := h.plan, ramped := h.ramped, low := h.low, high := h.high, increment := hv, follows := h.follows,
    pattern := fun hp => absurd hp hs }

theorem Tgt.Ok.withRamped {t : Tgt} {n : Nat} (h : t.Ok n) {v : Int} (hv : InPlant v) : ({ t with ramped := v } : Tgt).Ok n :=
  { base := h.base, plan := h.plan, ramped := hv, low := h.low, high := h.high, increment := h.increment, follows := h.follows,
    pattern := h.pattern }

/-- The clamped flag and the generator's position are free. -/
theorem Tgt.Ok.withRun {t : Tgt} {n : Nat} (h : t.Ok n) (c : Bool) (r : Option PatternRun) : ({ t with clamped := c, run := r } : Tgt).Ok n :=
  { base := h.base, plan := h.plan, ramped := h.ramped, low := h.low, high := h.high, increment := h.increment, follows := h.follows,
    pattern := h.pattern }

theorem Tgt.Ok.withPlan {t : Tgt} {n : Nat} (h : t.Ok n) {v : Int} (hv : InPlant v) (hs : t.source = .profile) :
    ({ t with plan := v } : Tgt).Ok n :=
  { base := h.base, plan := hv, ramped := h.ramped, low := h.low, high := h.high, increment := h.increment,
    follows := fun hne => absurd hs hne, pattern := h.pattern }

/-! ## Playback (R128) -/

/-- `PlaybackWf` of a playback record over a directory. -/
structure Playback.Ok (b : Playback) (dir : List Profile) : Prop where
  profile : b.profile = none ↔ b.state = .idle
  defined : b.state ≠ .idle → (b.profile.bind fun n => dir.find? (fun p => p.name == n)).isSome = true
  current : b.current.isSome = true ↔ b.state = .playing ∨ b.state = .ended
  entry : ∀ p k, (b.profile.bind fun n => dir.find? (fun p => p.name == n)) = some p → b.current = some k → k < p.entries.length
  last : b.last.isSome = b.state.clocked
  next : b.next.isSome = b.state.clocked

theorem playbackWf_iff {s : State} : PlaybackWf s ↔ s.prf.playback.Ok s.prf.dir :=
  ⟨fun h => ⟨h.profile, h.defined, h.current, h.entry, h.last, h.next⟩,
    fun h => ⟨h.profile, h.defined, h.current, h.entry, h.last, h.next⟩⟩

theorem playing_eq (s : State) : s.playing = s.prf.playback.profile.bind fun n => s.prf.dir.find? (fun p => p.name == n) := rfl

/-- The flags are free. -/
theorem Playback.Ok.flags {b : Playback} {dir : List Profile} (h : b.Ok dir) (plan ramp lost : Bool) :
    ({ b with planHanded := plan, rampHanded := ramp, markerLost := lost } : Playback).Ok dir :=
  { profile := h.profile, defined := h.defined, current := h.current, entry := h.entry, last := h.last, next := h.next }

theorem Playback.Ok.idle (dir : List Profile) : Playback.idle.Ok dir := by
  constructor <;> simp [Playback.idle, PlayState.clocked]

theorem storeWf_congr {s t : State} (h : t.prf.dir = s.prf.dir) (k : StoreWf s) : StoreWf t := by
  have hpool : t.entriesHeld = s.entriesHeld := by simp only [State.entriesHeld, h]
  exact ⟨h ▸ k.count, h ▸ k.names, hpool ▸ k.pool, h ▸ k.entries, h ▸ k.minutes⟩

/-! ## The relations -/

/-- What is kept whatever playback does. -/
structure Steady (s t : State) : Prop where
  targets : TargetsWf s → TargetsWf t
  params : ParamsWf s.params → ParamsWf t.params
  events : EventsWf s → EventsWf t
  store : StoreWf s → StoreWf t

structure Minds (s t : State) : Prop extends Steady s t where
  playback : StoreWf s → PlaybackWf s → PlaybackWf t

theorem Steady.refl (s : State) : Steady s s := ⟨id, id, id, id⟩

theorem Steady.trans {s t r : State} (h : Steady s t) (k : Steady t r) : Steady s r :=
  ⟨k.targets ∘ h.targets, k.params ∘ h.params, k.events ∘ h.events, k.store ∘ h.store⟩

theorem Minds.refl (s : State) : Minds s s := ⟨.refl s, fun _ => id⟩

theorem Minds.trans {s t r : State} (h : Minds s t) (k : Minds t r) : Minds s r :=
  ⟨h.toSteady.trans k.toSteady, fun hs hp => k.playback (h.store hs) (h.playback hs hp)⟩

/-- A change of playback flags, of targets in their range and of what other blocks hold. -/
theorem minds_of {s t : State} (params : t.params = s.params) (tgt : TargetsWf s → t.tgt.Ok s.params.regLimit)
    (dir : t.prf.dir = s.prf.dir)
    (playback : t.prf.playback = { s.prf.playback with
      planHanded := t.prf.playback.planHanded, rampHanded := t.prf.playback.rampHanded, markerLost := t.prf.playback.markerLost })
    {now : Word} (posted : Posted now s.ste t.ste) : Minds s t where
  targets h := targetsWf_iff.mpr ⟨params ▸ tgt h, dir ▸ h.entries⟩
  params h := params ▸ h
  events h := eventsWf_iff.mpr (posted.ok (eventsWf_iff.mp h))
  store := storeWf_congr dir
  playback _ h := by
    rw [playbackWf_iff, playback, dir]
    exact (playbackWf_iff.mp h).flags _ _ _

theorem minds_of_eq {s t : State} (params : t.params = s.params) (tgt : t.tgt = s.tgt) (prf : t.prf = s.prf) {now : Word}
    (posted : Posted now s.ste t.ste) : Minds s t :=
  minds_of params (fun h => tgt ▸ (targetsWf_iff.mp h).1) (by rw [prf]) (by rw [prf]) posted

theorem TargetFrame.minds {s t : State} (h : TargetFrame s t) (tgt : TargetsWf s → t.tgt.Ok s.params.regLimit) : Minds s t :=
  minds_of h.toPlayFrame.params tgt h.dir (by rw [h.playback]) h.posted

theorem SelectFrame.minds {s t : State} (h : SelectFrame s t) : Minds s t :=
  h.toTargetFrame.minds fun k => h.tgt ▸ (targetsWf_iff.mp k).1

theorem CascadeFrame.minds {s t : State} (h : CascadeFrame s t) : Minds s t := h.toSelectFrame.minds

theorem RosFrame.minds {s t : State} (h : RosFrame s t) : Minds s t :=
  minds_of_eq (State.params_congr h.pli) h.tgt h.prf h.posted

theorem Turn.minds {s t : State} (h : Turn s t) : Minds s t := h.frame.cascade.minds

theorem minds_finish {s t before : State} {c : Causes} (h : Minds s t) : Minds s (t.finish before c) :=
  h.trans (cascade_finish t before c).minds

theorem Framed.minds {s t : State} (h : Framed s t) : Minds s t := by
  have hp : ({ t.pli with framer := none } : Pli).params = ({ s.pli with framer := none } : Pli).params := by rw [h.pli]
  exact minds_of_eq (now := s.clock) hp h.tgt h.prf (h.ste ▸ .refl)

theorem minds_setPli (s : State) (b : Pli) (h : b.params = s.pli.params) : Minds s (s.setPli b) :=
  minds_of_eq (now := s.clock) h rfl rfl .refl

theorem minds_post (s : State) (k : EventKind) (u : Option Slot) (v : Option Int) : Minds s (s.post k u v) := (cascade_post s k u v).minds

theorem minds_setTgt (s : State) (b : Tgt) (h : TargetsWf s → b.Ok s.params.regLimit) : Minds s (s.setTgt b) :=
  (target_setTgt s b).minds h

theorem minds_ros (s : State) (b : Ros) : Minds s (s.setRos b) := minds_of_eq (now := s.clock) rfl rfl rfl .refl
theorem minds_setUnit (s : State) (u : Slot) (r : UnitRec) : Minds s (s.setUnit u r) := minds_ros s _
theorem minds_setPln (s : State) (b : Pln) : Minds s (s.setPln b) := minds_of_eq (now := s.clock) rfl rfl rfl .refl
theorem minds_setTrs (s : State) (b : Trs) : Minds s (s.setTrs b) := minds_of_eq (now := s.clock) rfl rfl rfl .refl
theorem minds_setAlc (s : State) (b : Alc) : Minds s (s.setAlc b) := minds_of_eq (now := s.clock) rfl rfl rfl .refl
theorem minds_setHead (s : State) (b : Head) : Minds s (s.setHead b) := minds_of_eq (now := s.clock) rfl rfl rfl .refl
theorem minds_setPort (s : State) (p : Port) (r : PortRec) : Minds s (s.setPort p r) := minds_of_eq (now := s.clock) rfl rfl rfl .refl

theorem Minds.foldl {α : Type} {f : State → α → State} (h : ∀ s a, Minds s (f s a)) (xs : List α) (s : State) : Minds s (xs.foldl f s) := by
  induction xs generalizing s with
  | nil => exact .refl s
  | cons x xs ih => exact (h s x).trans (ih _)

/-! ## Targets written -/

theorem minds_setReqBase (s : State) (v : Int) : Minds s (s.setReqBase v) := by
  obtain ⟨h, ht⟩ := target_setReqBase s v
  refine h.minds fun k => ?_
  rw [ht, baseTgt_withBase]
  exact (targetsWf_iff.mp k).1.withBase v _

theorem minds_handLevel (s : State) (v : Int) : Minds s (s.handLevel v) := by
  unfold State.handLevel
  split
  · exact .refl s
  · exact minds_setReqBase s v

theorem minds_startPattern (s : State) : Minds s s.startPattern :=
  (minds_setTgt s _ fun h => (targetsWf_iff.mp h).1.withRun _ _).trans (minds_handLevel _ _)

theorem minds_stepPattern (s : State) (r : PatternRun) : Minds s (s.stepPattern r) :=
  (minds_setTgt s _ fun h => (targetsWf_iff.mp h).1.withRun _ _).trans (minds_handLevel _ _)

theorem minds_storePattern (s : State) (low high : Int) (period : Nat) (shape : Shape) :
    Minds s (s.storePattern (.stored low high period shape)) := by
  have hset : Minds s (s.setTgt { s.tgt with pattern := .stored low high period shape }) := minds_setTgt s _ fun h =>
    { base := h.base, plan := h.plan, ramped := h.ramped, low := inPlant_clamp low, high := inPlant_clamp high, increment := h.increment,
      follows := h.follows, pattern := h.pattern }
  unfold State.storePattern
  dsimp only
  split
  · exact hset.trans (minds_startPattern _)
  · exact hset

theorem minds_applyBase (s : State) (v : Int) (i : Option Int) (hs : s.tgt.source = .direct) : Minds s (s.applyBase v i) := by
  have hflag (b : Bool) : Minds s (s.setTargetClamped b) := minds_setTgt s _ fun h => (targetsWf_iff.mp h).1.withRun _ _
  unfold State.applyBase
  dsimp only
  cases i with
  | none => exact (hflag _).trans (minds_setReqBase _ _)
  | some w =>
    refine ((hflag _).trans (minds_setTgt _ _ fun h => ?_)).trans (minds_setReqBase _ _)
    exact (targetsWf_iff.mp h).1.withIncrement (clampInt_bounds _ w) (by rw [State.setTargetClamped, State.setTgt_tgt, hs]; decide)

theorem minds_applyReg (s : State) (v : Int) (hs : s.tgt.source ≠ .pattern) : Minds s (s.applyReg v) :=
  (minds_setTgt s { s.tgt with clamped := s.clampIncrement v != v } fun h => (targetsWf_iff.mp h).1.withRun _ _).trans
    (minds_setTgt _ _ fun h => (targetsWf_iff.mp h).1.withIncrement (clampInt_bounds _ v) hs)

theorem inPlant_rampStep (rate : Nat) {a b : Int} (ha : InPlant a) (hb : InPlant b) : InPlant (rampStep rate a b) := by
  unfold InPlant rampStep at *
  split_ifs <;> omega

theorem minds_ramp (s : State) : Minds s s.ramp := by
  unfold State.ramp
  split
  · exact minds_setTgt s _ fun h => (targetsWf_iff.mp h).1.withRamped (inPlant_rampStep _ h.ramped h.base)
  · exact .refl s

/-- R119: the targets after the increment is folded. -/
theorem fold_tgt (s : State) : TargetFrame s s.fold ∧ s.fold.tgt = { s.tgt with
    reqBase := clampPlant (s.tgt.reqBase + s.tgt.increment), ramped := clampPlant (s.tgt.ramped + s.tgt.increment), increment := 0
    plan := if s.tgt.source = .profile then s.tgt.plan else clampPlant (s.tgt.reqBase + s.tgt.increment) } := by
  unfold State.fold
  dsimp only
  by_cases hs : s.tgt.source = .profile
  · simp only [State.setTgt_tgt, hs, if_true]
    exact ⟨target_setTgt s _, trivial⟩
  · simp only [State.setTgt_tgt, hs, if_false]
    obtain ⟨h, k⟩ := target_setPlanTarget (s.setTgt { s.tgt with
      reqBase := clampPlant (s.tgt.reqBase + s.tgt.increment), ramped := clampPlant (s.tgt.ramped + s.tgt.increment), increment := 0 })
      (clampPlant (s.tgt.reqBase + s.tgt.increment))
    exact ⟨(target_setTgt s _).trans h, k⟩

theorem minds_fold (s : State) : Minds s s.fold := by
  obtain ⟨h, ht⟩ := fold_tgt s
  refine h.minds fun k => ?_
  rw [ht]
  refine { base := inPlant_clamp _, plan := ?_, ramped := inPlant_clamp _, low := k.low, high := k.high, increment := by simp,
           follows := fun hs => if_neg hs, pattern := fun _ => rfl }
  dsimp only
  split
  · exact k.plan
  · exact inPlant_clamp _

theorem startPattern_tgt (s : State) (h : s.inFallback = false) : TargetFrame s s.startPattern
    ∧ s.startPattern.tgt = ({ s.tgt with run := some { pos := 0, expiry := later s.clock s.tgt.pattern.period } } : Tgt).withBase
        (s.tgt.pattern.level 0) s.jumps := by
  have e : s.startPattern = (s.setTgt { s.tgt with run := some { pos := 0, expiry := later s.clock s.tgt.pattern.period } }).setReqBase
      (s.tgt.pattern.level 0) := by
    unfold State.startPattern State.handLevel
    exact if_neg (show ¬ s.inFallback = true by simp [h])
  obtain ⟨hf, ht⟩ := target_setReqBase
    (s.setTgt { s.tgt with run := some { pos := 0, expiry := later s.clock s.tgt.pattern.period } }) (s.tgt.pattern.level 0)
  rw [e]
  exact ⟨(target_setTgt s _).trans hf, ht.trans (baseTgt_withBase _ _)⟩

theorem Tgt.Ok.toDirect {t : Tgt} {n : Nat} (h : t.Ok n) : ({ t with source := .direct, run := none, plan := t.reqBase } : Tgt).Ok n :=
  { base := h.base, plan := h.base, ramped := h.ramped, low := h.low, high := h.high, increment := h.increment, follows := fun _ => rfl,
    pattern := fun hp => by cases hp }

theorem Tgt.Ok.toProfile {t : Tgt} {n : Nat} (h : t.Ok n) : ({ t with source := .profile, run := none } : Tgt).Ok n :=
  { base := h.base, plan := h.plan, ramped := h.ramped, low := h.low, high := h.high, increment := h.increment,
    follows := fun hp => absurd rfl hp, pattern := fun hp => by cases hp }

/-- The pattern's start writes the base target, which the planning target then follows. -/
theorem Tgt.Ok.toPattern {t : Tgt} {n : Nat} (h : t.Ok n) (r : Option PatternRun) (v : Int) (jumps : Bool) :
    (({ t with source := .pattern, increment := 0, run := r } : Tgt).withBase v jumps).Ok n where
  base := inPlant_clamp v
  plan := by
    simp only [Tgt.withBase, reduceCtorEq, if_false]
    exact inPlant_clamp v
  ramped := by
    simp only [Tgt.withBase]
    split
    · exact inPlant_clamp v
    · exact h.ramped
  low := h.low
  high := h.high
  increment := ⟨by simp [Tgt.withBase], by simp [Tgt.withBase]⟩
  follows _ := by simp [Tgt.withBase]
  pattern _ := rfl

/-- R111: the change of source outside FALLBACK. -/
theorem minds_changeSource (s : State) (src : Source) (h : s.inFallback = false) : Minds s (s.changeSource src) := by
  cases src with
  | direct =>
    obtain ⟨hf, ht⟩ := target_setPlanTarget (s.setTgt { s.tgt with source := .direct, run := none }) s.tgt.reqBase
    have hf : TargetFrame s (s.changeSource .direct) := (target_setTgt s _).trans hf
    refine hf.minds fun k => ?_
    rw [show (s.changeSource .direct).tgt = _ from ht]
    exact (targetsWf_iff.mp k).1.toDirect
  | profile => exact minds_setTgt s _ fun k => (targetsWf_iff.mp k).1.toProfile
  | pattern =>
    obtain ⟨hf, ht⟩ := startPattern_tgt (s.setTgt { s.tgt with source := .pattern, run := none, increment := 0 }) h
    have hf : TargetFrame s (s.changeSource .pattern) := (target_setTgt s _).trans hf
    refine hf.minds fun k => ?_
    rw [show (s.changeSource .pattern).tgt = _ from ht]
    exact (targetsWf_iff.mp k).1.toPattern _ _ _

/-! ## Playback -/

/-- The value of an entry lies in the plant range, and so does the 0 read where there is none. -/
theorem inPlant_value {s : State} (h : TargetsWf s) {p : Profile} (hp : s.playing = some p) (k : Nat) : InPlant (p.value k) := by
  rw [playing_eq] at hp
  obtain ⟨n, -, hn⟩ := Option.bind_eq_some_iff.mp hp
  have hmem : p ∈ s.prf.dir := List.mem_of_find?_eq_some hn
  rw [Profile.value, List.getD_eq_getElem?_getD]
  cases hk : p.entries[k]? with
  | none => exact Proofs.inPlant_zero
  | some v => exact h.entries p hmem v (List.mem_of_getElem? hk)

theorem Handed.minds {s t : State} (h : Handed s t) (tgt : TargetsWf s → t.tgt.Ok s.params.regLimit) : Minds s t :=
  minds_of h.frame.params tgt h.frame.dir (by
    have := h.playback
    cases hs : s.prf.playback
    cases ht : t.prf.playback
    simp_all) h.frame.posted

theorem minds_handPlan (s : State) (v : Int) (hv : TargetsWf s → InPlant v) : Minds s (s.handPlan v) :=
  (handed_plan s v).minds fun h => by
    rw [(handPlan_effect s v).2.2]
    split
    · rename_i hs
      exact (targetsWf_iff.mp h).1.withPlan (hv h) hs
    · exact (targetsWf_iff.mp h).1

theorem minds_handRamp (s : State) (v : Int) : Minds s (s.handRamp v) :=
  (handed_ramp s v).minds fun h => by
    rw [(handRamp_effect s v).2.2]
    split
    · exact (targetsWf_iff.mp h).1.withBase v _
    · exact (targetsWf_iff.mp h).1

theorem minds_meetPlan (s : State) : Minds s s.meetPlan := by
  unfold State.meetPlan
  split
  · rename_i v hv
    refine minds_handPlan s v fun h => ?_
    unfold State.duePlan at hv
    split at hv
    · rename_i p _ hp _
      split at hv
      · cases hv
      · obtain ⟨k, -, rfl⟩ := Option.map_eq_some_iff.mp hv
        exact inPlant_value h hp k
    · cases hv
  · exact .refl s

theorem minds_meetRamp (s : State) : Minds s s.meetRamp := by
  unfold State.meetRamp
  split
  · exact minds_handRamp s _
  · exact .refl s

theorem minds_meetDue (s : State) : Minds s s.meetDue := (minds_meetPlan s).trans (minds_meetRamp _)

theorem minds_completeHanding (s : State) (v : Int) (hv : TargetsWf s → InPlant v) : Minds s (s.completeHanding v) := by
  have h : Minds s (if s.prf.playback.planHanded then s else s.handPlan v) := by
    split
    · exact .refl s
    · exact minds_handPlan s v hv
  unfold State.completeHanding
  dsimp only
  split
  · exact h
  · exact h.trans (minds_handRamp _ v)

theorem steady_setPlayback (s : State) (b : Playback) : Steady s (s.setPlayback b) where
  targets h := targetsWf_iff.mpr ((targetsWf_iff (s := s)).mp h)
  params h := h
  events h := h
  store := storeWf_congr rfl

theorem minds_setPlayback (s : State) (b : Playback) (h : StoreWf s → PlaybackWf s → b.Ok s.prf.dir) : Minds s (s.setPlayback b) :=
  ⟨steady_setPlayback s b, fun hs hp => playbackWf_iff.mpr (h hs hp)⟩

theorem minds_marker (s : State) (divider : Nat) (pulse : Option Nat) :
    Minds s (s.setPrf { s.prf with divider := divider, pulse := pulse }) :=
  minds_of (now := s.clock) rfl (fun h => (targetsWf_iff.mp h).1) rfl rfl .refl

theorem minds_pulse (s : State) : Minds s s.pulse := minds_marker s _ _
theorem minds_clearDivider (s : State) : Minds s s.clearDivider := minds_marker s _ _

theorem minds_idle (s : State) : Minds s (s.setPlayback .idle) := minds_setPlayback s _ fun _ _ => .idle _

/-- R132: an entry of the profile in play begins. -/
structure Begins (s t : State) : Prop extends Steady s t where
  playback : StoreWf s → PlaybackWf t

theorem Begins.then {s t r : State} (h : Begins s t) (k : Minds t r) : Begins s r :=
  ⟨h.toSteady.trans k.toSteady, fun hs => k.playback (h.store hs) (h.playback hs)⟩

theorem Begins.minds {s t : State} (h : Begins s t) : Minds s t := ⟨h.toSteady, fun hs _ => h.playback hs⟩

theorem begins_beginEntry {s : State} {p : Profile} {k : Nat} (hp : s.playing = some p)
    (hk : StoreWf s → k < p.entries.length) : Begins s (s.beginEntry p k) := by
  have hc := minds_completeHanding s (p.value k) fun h => inPlant_value h hp k
  have hplaying : (s.completeHanding (p.value k)).playing = some p := (handed_completeHanding s _).playing.trans hp
  have tail (b : Bool) (x : State) : Minds x (if b then x.post .profileStarted none (some p.entries.length) else x) := by
    split
    · exact minds_post ..
    · exact .refl x
  unfold State.beginEntry
  dsimp only
  refine Begins.then (Begins.then (t := (s.completeHanding (p.value k)).setPlayback _) ?_ (minds_meetDue _)) (tail _ _)
  generalize s.completeHanding (p.value k) = x at hc hplaying
  refine ⟨hc.toSteady.trans (steady_setPlayback x _), fun hs => playbackWf_iff.mpr ?_⟩
  rw [playing_eq] at hplaying
  refine { profile := ?_, defined := fun _ => by rw [Option.isSome_iff_exists]; exact ⟨p, hplaying⟩, current := by simp,
           entry := fun q j hq hj => ?_, last := rfl, next := rfl }
  · refine iff_of_false (fun hn => ?_) (by simp)
    have hn : x.prf.playback.profile = none := hn
    rw [hn] at hplaying
    cases hplaying
  · have hq : (x.prf.playback.profile.bind fun n => x.prf.dir.find? (fun p => p.name == n)) = some q := hq
    cases hplaying.symm.trans hq
    obtain rfl : k = j := Option.some.inj hj
    exact hk hs

theorem nextEntry_lt {b : Playback} {p : Profile} {k : Nat} (h : b.nextEntry p = some k) (hne : 1 ≤ p.entries.length) : k < p.entries.length := by
  unfold Playback.nextEntry at h
  split at h
  · cases h
    exact hne
  · split at h
    · cases h
      assumption
    · split at h
      · cases h
        exact hne
      · cases h
  · cases h

theorem playing_mem {s : State} {p : Profile} (h : s.playing = some p) : p ∈ s.prf.dir := by
  rw [playing_eq] at h
  obtain ⟨n, -, hn⟩ := Option.bind_eq_some_iff.mp h
  exact List.mem_of_find?_eq_some hn

theorem minds_endProfile (s : State) (p : Profile) (hs : s.prf.playback.state = .playing) : Minds s (s.endProfile p) := by
  refine Minds.trans (minds_setPlayback s _ fun _ h => ?_) (minds_post _ _ _ _)
  have h := playbackWf_iff.mp h
  refine { profile := iff_of_false (fun hn => ?_) (by simp), defined := fun _ => h.defined (by simp [hs]),
           current := iff_of_true (h.current.mpr (.inl hs)) (.inr rfl), entry := h.entry, last := rfl, next := rfl }
  have := h.profile.mp hn
  rw [hs] at this
  cases this

theorem minds_boundary (s : State) : Minds s s.boundary := by
  unfold State.boundary
  split
  · exact .refl s
  · rename_i p hp
    split
    · rename_i k hk
      exact (begins_beginEntry hp fun hs => nextEntry_lt hk (hs.entries p (playing_mem hp))).minds
    · split
      · rename_i h
        exact minds_endProfile s p h
      · exact .refl s

theorem minds_align (s : State) (p : Profile) (hs : s.prf.playback.state = .armed) : Minds s (s.align p) := by
  refine Minds.trans (minds_setPlayback s _ fun _ h => ?_) (minds_meetDue _)
  have h := playbackWf_iff.mp h
  have hcurrent : s.prf.playback.current.isSome = false := by
    rw [Bool.eq_false_iff, ne_eq, h.current, hs]
    simp
  exact { profile := iff_of_false (fun hn => by have := h.profile.mp hn; rw [hs] at this; cases this) (by simp),
          defined := fun _ => h.defined (by simp [hs]), current := by simp [hcurrent], entry := h.entry, last := rfl, next := rfl }

/-- The loss mark alone is written. -/
theorem minds_markerLost (s : State) (b : Bool) : Minds s (s.setPlayback { s.prf.playback with markerLost := b }) :=
  minds_setPlayback s _ fun _ h => (playbackWf_iff.mp h).flags _ _ _

theorem minds_realign (s : State) (p : Profile) (hs : s.prf.playback.state.clocked = true) : Minds s (s.realign p) := by
  have hnext : Minds s (s.setPlayback { s.prf.playback with next := some (later s.clock p.seconds) }) :=
    minds_setPlayback s _ fun _ h => by
      have h := playbackWf_iff.mp h
      exact { profile := h.profile, defined := h.defined, current := h.current, entry := h.entry, last := h.last, next := hs.symm }
  have h : Minds s (if s.halfPassed p then s.boundary
      else s.setPlayback { s.prf.playback with next := some (later s.clock p.seconds) }) := by
    split
    · exact minds_boundary s
    · exact hnext
  exact ((h.trans (minds_markerLost _ false)).trans (minds_post _ _ _ _)).trans (minds_clearDivider _)

theorem minds_countedMarker (s : State) : Minds s s.countedMarker := by
  have h (p : Profile) (hs : s.prf.playback.state.clocked = true) :
      Minds s (if s.prf.playback.markerLost then s.realign p else s.boundary) := by
    split
    · exact minds_realign s p hs
    · exact minds_boundary s
  unfold State.countedMarker
  split
  · exact .refl s
  · split <;> rename_i hs
    · exact .refl s
    · exact .refl s
    · exact minds_align s _ hs
    · exact h _ (by rw [hs]; rfl)
    · exact h _ (by rw [hs]; rfl)

theorem minds_activeEdge (s : State) : Minds s s.activeEdge := by
  unfold State.activeEdge
  split
  · exact ((minds_clearDivider s).trans (minds_pulse _)).trans (minds_countedMarker _)
  · exact minds_marker s _ _

theorem minds_holdover (s : State) : Minds s s.holdover := by
  have h := (minds_boundary s).trans (minds_pulse _)
  unfold State.holdover
  dsimp only
  split
  · split
    · exact h.trans (minds_post _ _ _ _)
    · exact (h.trans (minds_markerLost _ true)).trans (minds_post _ _ _ _)
  · exact h

/-- R129: PLAY of a defined name. -/
theorem minds_play (s : State) (n : List Byte) (h : (s.profileNamed n).isSome = true) : Minds s (s.play n) := by
  unfold State.play
  split
  · obtain ⟨p, hp⟩ := Option.isSome_iff_exists.mp h
    have hplaying : (s.setPlayback (.taken n .aligned)).playing = some p := hp
    have hb : (s.setPlayback (.taken n .aligned)).boundary = (s.setPlayback (.taken n .aligned)).beginEntry p 0 := by
      unfold State.boundary
      rw [hplaying]
      rfl
    rw [hb]
    have hbegin := (begins_beginEntry (k := 0) hplaying fun hs => hs.entries p (playing_mem hplaying)).then (minds_pulse _)
    exact ⟨(steady_setPlayback s _).trans hbegin.toSteady, fun hs _ => hbegin.playback (storeWf_congr (s := s) rfl hs)⟩
  · refine Minds.trans (minds_setPlayback s _ fun _ _ => ?_) (minds_clearDivider _)
    constructor <;> simp [Playback.taken, Playback.idle, PlayState.clocked]
    simpa [State.profileNamed] using h

/-! ## Parameters (R170) -/

theorem storeRange_bounds {lo hi : Nat} (h : lo ≤ hi) (v : Int) : lo ≤ storeRange lo hi v ∧ storeRange lo hi v ≤ hi := by
  unfold storeRange clampInt
  split_ifs <;> omega

theorem isLongTimer_longTimer {n : Nat} (h : 1 ≤ n) : isLongTimer (longTimer n) = true := by
  have hrep : 1 ≤ longTimer n ∧ longTimer n ≤ 15 ∨ 20 ≤ longTimer n ∧ longTimer n ≤ 150 ∧ longTimer n % 10 = 0
      ∨ 200 ≤ longTimer n ∧ longTimer n ≤ 1500 ∧ longTimer n % 100 = 0 := (Proofs.longTimerCoding n h).1
  generalize longTimer n = m at hrep
  have hfix : longTimer m = m := by
    obtain ⟨-, h2⟩ | ⟨h1, h2, h3⟩ | ⟨h1, h2, h3⟩ := hrep
    · exact Proofs.longTimer_of_le_15 h2
    · rw [Proofs.longTimer_tens (by omega) h2]
      omega
    · rw [Proofs.longTimer_hundreds (by omega) h2]
      omega
  simp only [isLongTimer, hfix, beq_self_eq_true, Bool.and_true, decide_eq_true_eq]
  omega

theorem storeLong_wf (least : Nat) (h : ZeroOrLong least) (v : Int) : ZeroOrLong (storeLong least v) := by
  unfold storeLong
  split
  · exact h
  · rename_i hv
    exact .inr (isLongTimer_longTimer (by omega))

/-- A stored value lies within its parameter's values. -/
theorem paramsWf_writeParam {s : State} (h : ParamsWf s.params) {q : Param} {v : Int} {n : Nat} (hn : q.store v = some n) :
    ParamsWf (s.writeParam q n).params := by
  cases q with
  | markerMode => exact { h with }
  | markerPolarity => exact { h with }
  | autoResume => exact { h with }
  | ackMode p => exact h
  | rampRate => cases hn; exact { h with rampRate := (storeRange_bounds (by decide) v).2 }
  | regLimit => cases hn; exact { h with regLimit := (storeRange_bounds (by decide) v).2 }
  | deadband => cases hn; exact { h with deadband := (storeRange_bounds (by decide) v).2 }
  | dwell => cases hn; exact { h with dwell := storeLong_wf 0 (.inl rfl) v }
  | planAdvance => cases hn; exact { h with planAdvance := (storeRange_bounds (by decide) v).2 }
  | rampAdvance => cases hn; exact { h with rampAdvance := (storeRange_bounds (by decide) v).2 }
  | linkTimeout => cases hn; exact { h with linkTimeout := storeRange_bounds (by decide) v }
  | levelTimeout =>
    cases hn
    refine { h with levelTimeout := ?_ }
    show isLongTimer (storeLong 1 v) = true
    unfold storeLong
    split
    · rfl
    · exact isLongTimer_longTimer (by omega)
  | unitTimeout => cases hn; exact { h with unitTimeout := storeRange_bounds (by decide) v }
  | ackTimeout => cases hn; exact { h with ackTimeout := storeRange_bounds (by decide) v }
  | refusalBackoff => cases hn; exact { h with refusalBackoff := storeLong_wf 0 (.inl rfl) v }
  | headLoss => cases hn; exact { h with headLoss := (storeRange_bounds (by decide) v).2 }
  | headOverride => cases hn; exact { h with headOverride := (storeRange_bounds (by decide) v).2 }
  | converters => cases hn; exact { h with converters := (storeRange_bounds (by decide) v).2 }
  | maxConcurrent => cases hn; exact { h with maxConcurrent := storeRange_bounds (by decide) v }
  | markerDivider => cases hn; exact { h with markerDivider := storeRange_bounds (by decide) v }
  | markerOutWidth => cases hn; exact { h with markerOutWidth := storeRange_bounds (by decide) v }

/-- A write of a parameter other than the increment's limit. -/
theorem minds_writeParam {s : State} {q : Param} {v : Int} {n : Nat} (hn : q.store v = some n) (hq : q ≠ .regLimit) :
    Minds s (s.writeParam q n) where
  targets h := by
    have hlimit : (s.writeParam q n).params.regLimit = s.params.regLimit := by
      cases q with
      | regLimit => exact absurd rfl hq
      | _ => rfl
    have htgt : (s.writeParam q n).tgt = s.tgt := by cases q <;> rfl
    have hprf : (s.writeParam q n).prf = s.prf := by cases q <;> rfl
    rw [targetsWf_iff, hlimit, htgt, hprf]
    exact targetsWf_iff.mp h
  params h := paramsWf_writeParam h hn
  events h := by
    have hste : (s.writeParam q n).ste = s.ste := by cases q <;> rfl
    exact eventsWf_iff.mpr (hste ▸ eventsWf_iff.mp h)
  store := storeWf_congr (by cases q <;> rfl)
  playback _ h := by
    have hprf : (s.writeParam q n).prf = s.prf := by cases q <;> rfl
    exact playbackWf_iff.mpr (hprf ▸ playbackWf_iff.mp h)

/-- R113: a new limit takes the increment with it. -/
theorem minds_regLimit (s : State) (n : Nat) (hn : n ≤ 5000) :
    Minds s (State.applyParam s (s.writeParam .regLimit n) .regLimit) where
  targets h := targetsWf_iff.mpr ⟨{
    base := h.base, plan := h.plan, ramped := h.ramped, low := h.low, high := h.high
    increment := clampInt_bounds n _
    follows := h.follows
    pattern := fun hp => by
      have := h.pattern hp
      show clampInt (-(n : Int)) n s.tgt.increment = 0
      rw [this]
      unfold clampInt
      split_ifs <;> omega }, h.entries⟩
  params h := { h with regLimit := hn }
  events h := h
  store := storeWf_congr rfl
  playback _ h := playbackWf_iff.mpr ((playbackWf_iff (s := s)).mp h)

theorem minds_resettle (before : Option Nat) (s : State) : Minds s (State.resettle before s) := (resettle_effect before s).1.minds

theorem minds_formEstimate (s : State) : Minds s s.formEstimate := by
  unfold State.formEstimate
  split
  · exact .refl s
  · exact minds_setHead s _

theorem minds_changed {s : State} {q : Param} {v : Int} {n : Nat} (hn : q.store v = some n) :
    Minds s (State.applyParam s (s.writeParam q n) q) := by
  by_cases hq : q = .regLimit
  · subst hq
    cases hn
    exact minds_regLimit s _ (storeRange_bounds (by decide) v).2
  · refine (minds_writeParam hn hq).trans ?_
    generalize s.writeParam q n = x
    cases q with
    | regLimit => exact absurd rfl hq
    | rampRate =>
      simp only [State.applyParam]
      split
      · exact minds_setTgt x _ fun h => (targetsWf_iff.mp h).1.withRamped h.base
      · exact .refl x
    | planAdvance => exact minds_meetDue x
    | rampAdvance => exact minds_meetDue x
    | headLoss => exact (minds_formEstimate x).trans (minds_resettle _ _)
    | headOverride => exact minds_resettle _ x
    | markerMode => exact minds_clearDivider x
    | markerDivider => exact minds_clearDivider x
    | markerPolarity => exact (minds_clearDivider x).trans (minds_marker _ _ _)
    | _ => exact .refl x

/-! ## The profile store (R123 to R127) -/

/-- A new directory. -/
theorem minds_setDir (s : State) (dir : List Profile) (entries : TargetsWf s → EntriesOk dir)
    (store : StoreWf s → StoreWf (s.setDir dir)) (playback : PlaybackWf s → s.prf.playback.Ok dir) : Minds s (s.setDir dir) where
  targets h := targetsWf_iff.mpr ⟨(targetsWf_iff.mp h).1, entries h⟩
  params h := h
  events h := h
  store := store
  playback _ h := playbackWf_iff.mpr (playback h)

theorem entriesHeld_append (s : State) (p : Profile) :
    (s.setDir (s.prf.dir ++ [p])).entriesHeld = s.entriesHeld + p.entries.length := by
  simp [State.entriesHeld, State.setDir]

/-- Profiles that the store has are found where another is appended. -/
theorem Playback.Ok.append {b : Playback} {dir : List Profile} (h : b.Ok dir) (p : Profile) : b.Ok (dir ++ [p]) := by
  have found : ∀ n, (dir.find? (fun q => q.name == n)).isSome = true →
      (dir ++ [p]).find? (fun q => q.name == n) = dir.find? (fun q => q.name == n) := by
    intro n hn
    obtain ⟨q, hq⟩ := Option.isSome_iff_exists.mp hn
    rw [List.find?_append, hq, Option.some_or]
  have same : b.state ≠ .idle → (b.profile.bind fun n => (dir ++ [p]).find? (fun q => q.name == n))
      = b.profile.bind fun n => dir.find? (fun q => q.name == n) := by
    intro hs
    have := h.defined hs
    cases hb : b.profile with
    | none => rfl
    | some n =>
      rw [hb] at this
      exact found n this
  refine { profile := h.profile, defined := fun hs => by rw [same hs]; exact h.defined hs, current := h.current,
           entry := fun q k hq hk => ?_, last := h.last, next := h.next }
  refine h.entry q k ?_ hk
  rw [← same ?_]
  · exact hq
  · intro hs
    rw [h.profile.mpr hs] at hq
    cases hq

theorem defineCheck_ok {s : State} {field n : List Byte} {count interval : Nat} (h : s.defineCheck field count interval = .ok n) :
    1 ≤ count ∧ (1 ≤ interval ∧ interval ≤ 60) ∧ s.profileNamed n = none ∧ s.prf.dir.length < 16 ∧ s.entriesHeld + count ≤ 4096 := by
  unfold State.defineCheck at h
  split at h
  · cases h
  · split at h
    · cases h
    · rename_i hcount
      split at h
      · cases h
      · rename_i hint
        split at h
        · cases h
        · rename_i hnew
          split at h
          · cases h
          · rename_i hspace
            cases h
            unfold State.freeTotal poolSize maxProfiles at *
            exact ⟨by omega, by omega, by simpa using hnew, by omega, by omega⟩

theorem minds_define {s : State} {field n : List Byte} {count interval : Nat} (h : s.defineCheck field count interval = .ok n)
    (rep : Bool) (v : Int) :
    Minds s (s.setDir (s.prf.dir ++ [{ name := n, minutes := interval, rep := rep, entries := List.replicate count (clampPlant v) }])) := by
  obtain ⟨hcount, hint, hnew, hlen, hpool⟩ := defineCheck_ok h
  refine minds_setDir s _ (fun ht p hp w hw => ?_) (fun hs => ?_) fun hp => (playbackWf_iff.mp hp).append _
  · obtain hp | hp := List.mem_append.mp hp
    · exact ht.entries p hp w hw
    · obtain rfl := List.mem_singleton.mp hp
      rw [List.eq_of_mem_replicate hw]
      exact inPlant_clamp v
  · refine ⟨?_, ?_, ?_, fun p hp => ?_, fun p hp => ?_⟩
    · show (s.prf.dir ++ _).length ≤ 16
      simpa using hlen
    · show ((s.prf.dir ++ _).map (·.name)).Nodup
      rw [List.map_append, List.nodup_append]
      refine ⟨hs.names, List.nodup_singleton _, ?_⟩
      intro a ha b hb hab
      obtain ⟨p, hp, rfl⟩ := List.mem_map.mp ha
      obtain rfl := List.mem_singleton.mp hb
      exact List.find?_eq_none.mp hnew p hp (by simp [hab])
    · rw [entriesHeld_append, List.length_replicate]
      exact hpool
    · obtain hp | hp := List.mem_append.mp hp
      · exact hs.entries p hp
      · obtain rfl := List.mem_singleton.mp hp
        simpa using hcount
    · obtain hp | hp := List.mem_append.mp hp
      · exact hs.minutes p hp
      · obtain rfl := List.mem_singleton.mp hp
        exact hint

/-- A directory in which every profile keeps its name and the number of its entries holds the same playback record. -/
theorem find_map_name (dir : List Profile) (f : Profile → Profile) (hf : ∀ p, (f p).name = p.name) (n : List Byte) :
    (dir.map f).find? (fun p => p.name == n) = (dir.find? (fun p => p.name == n)).map f := by
  rw [List.find?_map]
  congr 2
  funext p
  simp [hf]

theorem Playback.Ok.map {b : Playback} {dir : List Profile} (h : b.Ok dir) (f : Profile → Profile) (hname : ∀ p, (f p).name = p.name)
    (hlen : ∀ p ∈ dir, (f p).entries.length = p.entries.length) : b.Ok (dir.map f) := by
  have hfind : (b.profile.bind fun n => (dir.map f).find? (fun p => p.name == n))
      = (b.profile.bind fun n => dir.find? (fun p => p.name == n)).map f := by
    cases b.profile with
    | none => rfl
    | some n => exact find_map_name dir f hname n
  refine { profile := h.profile, defined := fun hs => by rw [hfind, Option.isSome_map]; exact h.defined hs, current := h.current,
           entry := fun q k hq hk => ?_, last := h.last, next := h.next }
  rw [hfind] at hq
  obtain ⟨p, hp, rfl⟩ := Option.map_eq_some_iff.mp hq
  rw [hlen p]
  · exact h.entry p k hp hk
  · obtain ⟨n, -, hn⟩ := Option.bind_eq_some_iff.mp hp
    exact List.mem_of_find?_eq_some hn

theorem storeWf_map {s : State} (h : StoreWf s) (f : Profile → Profile) (hname : ∀ p, (f p).name = p.name)
    (hminutes : ∀ p, (f p).minutes = p.minutes) (hlen : ∀ p ∈ s.prf.dir, (f p).entries.length = p.entries.length) :
    StoreWf (s.setDir (s.prf.dir.map f)) where
  count := by
    show (s.prf.dir.map f).length ≤ 16
    rw [List.length_map]
    exact h.count
  names := by
    show ((s.prf.dir.map f).map (·.name)).Nodup
    rw [List.map_map, show (·.name) ∘ f = fun p : Profile => p.name from funext hname]
    exact h.names
  pool := by
    have : (s.setDir (s.prf.dir.map f)).entriesHeld = s.entriesHeld := by
      show ((s.prf.dir.map f).map _).sum = _
      rw [List.map_map]
      exact congrArg List.sum (List.map_congr_left hlen)
    rw [this]
    exact h.pool
  entries p hp := by
    obtain ⟨q, hq, rfl⟩ := List.mem_map.mp hp
    rw [hlen q hq]
    exact h.entries q hq
  minutes p hp := by
    obtain ⟨q, hq, rfl⟩ := List.mem_map.mp hp
    rw [hminutes q]
    exact h.minutes q hq

theorem length_writeAt {α : Type} {first : Nat} {vs xs : List α} (h : first + vs.length ≤ xs.length) :
    (writeAt first vs xs).length = xs.length := by
  unfold writeAt
  rw [List.length_append, List.length_append, List.length_take, List.length_drop]
  omega

theorem of_mem_writeAt {α : Type} {first : Nat} {vs xs : List α} {v : α} (h : v ∈ writeAt first vs xs) : v ∈ vs ∨ v ∈ xs := by
  unfold writeAt at h
  simp only [List.mem_append] at h
  rcases h with (h | h) | h
  · exact .inr (List.mem_of_mem_take h)
  · exact .inl h
  · exact .inr (List.mem_of_mem_drop h)

theorem rangeCheck_ok {s : State} {field : List Byte} {first count : Nat} {p : Profile} (h : s.rangeCheck field first count = .ok p) :
    s.profileNamed p.name = some p ∧ first + count ≤ p.entries.length := by
  unfold State.rangeCheck at h
  split at h
  · cases h
  · split at h
    · cases h
    · split at h
      · cases h
      · rename_i n _ _ _ q hq
        split at h
        · cases h
        · rename_i hlen
          cases h
          have hn : p.name = n := by simpa using List.find?_some hq
          exact ⟨by rw [hn]; exact hq, Nat.not_lt.mp hlen⟩

/-- Two profiles of one name are one. -/
theorem eq_of_profileNamed {s : State} (h : StoreWf s) {p q : Profile} (hp : s.profileNamed p.name = some p) (hq : q ∈ s.prf.dir)
    (hn : q.name = p.name) : q = p :=
  List.inj_on_of_nodup_map h.names hq (List.mem_of_find?_eq_some hp) hn

/-- R125: entries written over those of a profile. -/
theorem minds_write {s : State} {field : List Byte} {first count : Nat} {values : List Half} {p : Profile}
    (h : s.rangeCheck field first count = .ok p) (hc : values.length = count) :
    Minds s (s.setEntries p.name (writeAt first (clampValues values) p.entries)) := by
  obtain ⟨hp, hfit⟩ := rangeCheck_ok h
  have hlen : (writeAt first (clampValues values) p.entries).length = p.entries.length :=
    length_writeAt (by rw [clampValues, List.length_map, hc]; exact hfit)
  let f (q : Profile) : Profile := if q.name = p.name then { q with entries := writeAt first (clampValues values) p.entries } else q
  have hname (q : Profile) : (f q).name = q.name := by
    dsimp only [f]
    split <;> rfl
  have hminutes (q : Profile) : (f q).minutes = q.minutes := by
    dsimp only [f]
    split <;> rfl
  have hflen (hs : StoreWf s) : ∀ q ∈ s.prf.dir, (f q).entries.length = q.entries.length := by
    intro q hq
    dsimp only [f]
    split
    · rename_i hn
      rw [eq_of_profileNamed hs hp hq hn]
      exact hlen
    · rfl
  refine ⟨⟨fun ht => targetsWf_iff.mpr ⟨(targetsWf_iff.mp ht).1, ?_⟩, id, id, fun hs => storeWf_map hs f hname hminutes (hflen hs)⟩,
    fun hs hb => playbackWf_iff.mpr ((playbackWf_iff.mp hb).map f hname (hflen hs))⟩
  intro q hq v hv
  obtain ⟨x, hx, rfl⟩ := List.mem_map.mp hq
  split at hv
  · obtain hv | hv := of_mem_writeAt hv
    · obtain ⟨w, -, rfl⟩ := List.mem_map.mp hv
      exact inPlant_clamp _
    · exact ht.entries p (List.mem_of_find?_eq_some hp) v hv
  · exact ht.entries x hx v hv

theorem storeWf_sublist {s : State} (h : StoreWf s) {dir : List Profile} (hd : dir.Sublist s.prf.dir) : StoreWf (s.setDir dir) where
  count := hd.length_le.trans h.count
  names := (hd.map _).nodup h.names
  pool := ((hd.map (fun p : Profile => p.entries.length)).sum_le_sum (fun _ _ => Nat.zero_le _)).trans h.pool
  entries p hp := h.entries p (hd.subset hp)
  minutes p hp := h.minutes p (hd.subset hp)

theorem steady_sublist (s : State) {dir : List Profile} (hd : dir.Sublist s.prf.dir) : Steady s (s.setDir dir) where
  targets h := targetsWf_iff.mpr ⟨(targetsWf_iff.mp h).1, fun p hp => h.entries p (hd.subset hp)⟩
  params h := h
  events h := h
  store h := storeWf_sublist h hd

/-- A deletion that ends the playback of what is deleted (R127). -/
theorem minds_deleted (s : State) {dir : List Profile} (hd : dir.Sublist s.prf.dir) : Minds s ((s.setDir dir).setPlayback .idle) :=
  ⟨(steady_sublist s hd).trans (steady_setPlayback _ _), fun _ _ => playbackWf_iff.mpr (.idle _)⟩

/-- The playback record names another profile than the one deleted. -/
theorem minds_delete (s : State) (n : List Byte) (hn : s.named n = false) :
    Minds s (s.setDir (s.prf.dir.filter (fun p => p.name != n))) := by
  refine ⟨steady_sublist s List.filter_sublist, fun _ hp => playbackWf_iff.mpr ?_⟩
  have h := playbackWf_iff.mp hp
  have hfind : (s.prf.playback.profile.bind fun m => (s.prf.dir.filter (fun p => p.name != n)).find? (fun p => p.name == m))
      = s.prf.playback.profile.bind fun m => s.prf.dir.find? (fun p => p.name == m) := by
    cases hm : s.prf.playback.profile with
    | none => rfl
    | some m =>
      have hne : m ≠ n := by simpa [State.named, hm] using hn
      simp only [Option.bind_some, List.find?_filter]
      congr 1
      funext p
      by_cases hp : p.name = m
      · simp [hp, hne]
      · simp [hp]
  exact { profile := h.profile, defined := fun hs => by
            show (s.prf.playback.profile.bind fun m => (s.prf.dir.filter (fun p => p.name != n)).find? (fun p => p.name == m)).isSome = true
            rw [hfind]
            exact h.defined hs
          current := h.current, entry := fun q k hq => h.entry q k (hfind ▸ hq), last := h.last, next := h.next }

/-! ## The other blocks -/

theorem minds_returnToDispatching (s : State) : Minds s s.returnToDispatching := by
  have h : Minds s ((s.setPli { s.pli with part := .dispatching }).post .fallbackLeft none (some 1)) :=
    (minds_setPli s _ (by rfl)).trans (minds_post _ _ _ _)
  unfold State.returnToDispatching
  dsimp only
  split
  · exact h.trans (minds_setReqBase _ _)
  · exact h

theorem minds_acceptDispatch (s : State) : Minds s s.acceptDispatch := by
  have h : Minds s s.refreshLiveness := minds_setPli s _ (by rfl)
  unfold State.acceptDispatch
  dsimp only
  split
  · split
    · exact h.trans (minds_returnToDispatching _)
    · exact h.trans (minds_setPli _ _ (by rfl))
  · exact h

theorem minds_applyLevels (s : State) (up low : Nat) : Minds s (s.applyLevels up low) :=
  (((minds_setHead s _).trans (minds_formEstimate _)).trans (minds_setHead _ _)).trans (minds_resettle _ _)

theorem minds_setHold (s : State) (u : Slot) (h : Option Hold) : Minds s (s.setHold u h) := minds_setUnit s u _

theorem minds_settleHold (s : State) (u : Slot) : Minds s (s.settleHold u) := (settleHold_effect s u).1.minds

theorem minds_releaseHold (s : State) (u : Slot) : Minds s (s.releaseHold u) :=
  ((minds_setHold s u none).trans (cascade_ceaseOrder _ u _).minds).trans (turn_makeAutomatic _ u).minds

theorem minds_sendEmergencyStop (s : State) (u : Slot) (h : Hold) : Minds s (s.sendEmergencyStop u h) := by
  unfold State.sendEmergencyStop
  split
  · exact .refl s
  · exact (cascade_sendOrder s _ _ _ _).minds.trans (minds_setHold _ u _)

theorem minds_ite {s t : State} (c : Prop) [Decidable c] (h : Minds s t) : Minds s (if c then t else s) := by
  split
  · exact h
  · exact .refl s

theorem minds_emergencyStop (s : State) (u : Slot) : Minds s (s.emergencyStop u) :=
  ((minds_setHold s u _).trans (turn_cancelRequest _ u).minds).trans (minds_ite _ (minds_sendEmergencyStop _ u _))

theorem minds_emergencyEvent (before s : State) (u : Slot) : Minds s (State.emergencyEvent before s u) :=
  minds_finish (minds_emergencyStop s u)

theorem minds_emergencyAll (before s : State) : Minds s (State.emergencyAll before s) :=
  (minds_emergencyEvent before s .u1).trans (.foldl (fun t u => minds_emergencyEvent t t u) _ _)

theorem minds_supersede (s : State) : Minds s s.supersede := by
  unfold State.supersede
  split
  · exact .refl s
  · exact minds_post ..

theorem minds_selectRow (expired : Bool) (s : State) : Minds s (State.selectRow expired s) := (select_selectRow expired s).minds

theorem minds_commit (s : State) (l : Load) : Minds s (s.commit l) := by
  unfold State.commit
  split
  · exact ((minds_setHead s _).trans (minds_post _ _ _ _)).trans (minds_settleHold _ _)
  · exact ((minds_setPln s _).trans (minds_post _ _ _ _)).trans (minds_ite _ ((minds_setPln _ _).trans (minds_selectRow false _)))
  · exact (minds_setTrs s _).trans (minds_post _ _ _ _)

/-- R118: the targets at ENABLE. -/
theorem minds_entered (s : State) : Minds s s.entered := by
  refine ((minds_setPli s _ (by rfl)).trans (minds_setTgt _ _ fun h => ?_)).trans (minds_setPln _ _)
  refine { base := inPlant_clamp _, plan := ?_, ramped := inPlant_clamp _, low := h.low, high := h.high,
           increment := by simp [Tgt.enabled], follows := fun hs => if_neg hs, pattern := fun _ => rfl }
  simp only [Tgt.enabled]
  split
  · exact h.plan
  · exact inPlant_clamp _

theorem minds_keepStep (a s : State) (u : Slot) : Minds s (State.keepStep a s u) := minds_ite _ (minds_setTrs s _)

theorem minds_enabled (s : State) : Minds s s.enabled :=
  (((minds_entered s).trans (turn_compareHeld_fold _ _).minds).trans (minds_selectRow false _)).trans (.foldl (minds_keepStep s) _ _)

theorem minds_disabled (s : State) : Minds s s.disabled :=
  ((((minds_setPli s { s.pli with part := .standby } rfl).trans (minds_ite (s.inFallback = true) (minds_post _ _ _ _))).trans
    (disable_fold Slot.all Slot.all_nodup _).1.minds).trans (minds_setPln _ _)).trans (minds_setAlc _ _)

theorem minds_probeNow (s : State) (p : Port) : Minds s (s.probeNow p) := by
  obtain ⟨ports, out, h⟩ := probeNow_eq s p
  rw [h]
  exact minds_of_eq (now := s.clock) rfl rfl rfl .refl

theorem minds_leaveQualified (s : State) (p : Port) (st : PortState) : Minds s (s.leaveQualified p st) := by
  unfold State.leaveQualified
  dsimp only
  split
  · exact minds_setPort s p _
  · rename_i u _
    exact ((minds_setPort s p _).trans (minds_setUnit _ u _)).trans (turn_orphanRequest _ u).minds

theorem minds_remap (s : State) (u : Slot) (p : Option Port) : Minds s (s.remap u p) := by
  have haway (old : Port) : Minds s (s.takePortAway u old) := by
    unfold State.takePortAway
    dsimp only
    split
    · exact (minds_leaveQualified s old _).trans (minds_setUnit _ u _)
    · exact (minds_setPort s old _).trans (minds_setUnit _ u _)
  have hless : Minds s (s.portless u) := by
    unfold State.portless
    split
    · exact haway _
    · exact .refl s
  rw [show s.remap u p = State.given (s.portless u) u p from remap_eq s u p]
  cases p with
  | none => exact hless
  | some q => exact hless.trans (((minds_setUnit _ u _).trans (minds_setPort _ q _)).trans (minds_probeNow _ q))

theorem minds_compareIdent (s : State) (p : Port) (u : Slot) (n : Byte) : Minds s (s.compareIdent p u n) := by
  have hmismatch (x : State) : Minds x ((x.setPortState p .mismatch).post .portMismatch (some u) (some n.toNat)) :=
    (minds_setPort x p _).trans (minds_post _ _ _ _)
  unfold State.compareIdent
  dsimp only
  refine Minds.trans (t := s.setPort p { s.portRec p with lastMachine := some n }) (minds_setPort s p _) ?_
  generalize s.setPort p { s.portRec p with lastMachine := some n } = x
  split
  · exact minds_ite _ ((minds_setPort x p _).trans (minds_post _ _ _ _))
  · split
    · exact ((minds_leaveQualified x p _).trans (minds_probeNow _ p)).trans (minds_post _ _ _ _)
    · exact hmismatch x
    · exact hmismatch x
    · exact hmismatch x
    · exact .refl x
    · exact .refl x

theorem minds_watchEmergency (s : State) (u : Slot) (m : Reported) : Minds s (s.watchEmergency u m) := by
  unfold State.watchEmergency
  split
  · exact .refl s
  · split
    · exact .refl s
    · split
      · split
        · exact .refl s
        · exact minds_sendEmergencyStop s u _
      · exact (minds_setHold s u _).trans (cascade_ceaseOrder _ u _).minds

theorem minds_acceptStatus (s : State) (u : Slot) (r : Report) (cause : Byte) : Minds s (s.acceptStatus u r cause) :=
  ((minds_setUnit s u _).trans (minds_ite _ ((minds_setUnit _ u _).trans (minds_post _ _ _ _)))).trans
    ((((minds_watchEmergency _ u _).trans (turn_supervise _ u _ _).minds).trans (turn_watchConverters _ u _ _).minds).trans
      (minds_ite _ (turn_compareDemand _ u).minds))

theorem minds_refuseStep (s : State) (u : Slot) (cause : Int) : Minds s (s.refuseStep u cause) := by
  have hback (x : State) : Minds x (if x.params.refusalBackoff = 0 then x
      else x.setUnit u { x.unitRec u with backoff := some (later x.clock x.params.refusalBackoff) }) := by
    split
    · exact .refl x
    · exact minds_setUnit x u _
  exact (((turn_failRequest s u false).minds.trans (hback _)).trans (minds_post _ _ _ _)).trans (turn_compareDemand _ u).minds

theorem minds_ackOrder (s : State) (p : Port) (u : Slot) (q : Purpose) (accepted : Bool) (cause : Byte) :
    Minds s (s.ackOrder p u q accepted cause) := by
  have hclear : Minds s (s.clearOutstanding p) := minds_setPort s p _
  unfold State.ackOrder
  split
  · unfold State.ackSupervised
    split
    · exact .refl s
    · split
      · exact .refl s
      · split
        · exact minds_setTrs s _
        · exact minds_refuseStep s u _
  · split
    · exact hclear
    · exact hclear.trans (minds_post _ _ _ _)
  · exact hclear

theorem minds_timeoutStep (s : State) (u : Slot) (k : StepKind) : Minds s (s.timeoutStep u k) := by
  have hsend (x : State) : Minds x (x.sendTimeoutStop u k) := by
    unfold State.sendTimeoutStop
    split
    · exact .refl x
    · exact minds_ite _ (cascade_sendOrder x _ _ _ _).minds
  exact ((((turn_failRequest s u true).minds.trans (minds_setUnit _ u _)).trans (hsend _)).trans (minds_post _ _ _ _)).trans
    (turn_compareDemand _ u).minds

theorem minds_linkDown (s : State) : Minds s s.linkDown := by
  have h : Minds s (s.setPli { s.pli with liveness := none, linkSilent := true }) := minds_setPli s _ (by rfl)
  unfold State.linkDown
  dsimp only
  split
  · exact h
  · exact ((h.trans (minds_setPli _ _ (by rfl))).trans (minds_post _ _ _ _)).trans (minds_fold _)
  · exact h.trans (minds_setPli _ _ (by rfl))

theorem minds_setWaterway (s : State) (w : Waterway) (r : WaterwayRec) : Minds s (s.setWaterway w r) :=
  minds_of_eq (now := s.clock) (State.params_congr (State.setWaterway_pli s w r)) (State.setWaterway_tgt s w r)
    (State.setWaterway_prf s w r) ((State.setWaterway_ste s w r).symm ▸ .refl)

theorem minds_dropRead (s : State) : Minds s s.dropRead where
  targets h := targetsWf_iff.mpr ((targetsWf_iff (s := s)).mp h)
  params h := h
  events h := by
    obtain ⟨hlen, hseq⟩ := eventsWf_iff.mp h
    refine eventsWf_iff.mpr ⟨by show (s.ste.events.drop readLimit).length ≤ 64; rw [List.length_drop]; omega, fun i r hr => ?_⟩
    have hr : (s.ste.events.drop readLimit)[i]? = some r := hr
    rw [List.getElem?_drop] at hr
    show r.seq = s.ste.seq - BitVec.ofNat 16 ((s.ste.events.drop readLimit).length - i)
    rw [hseq _ r hr, List.length_drop, Nat.sub_sub]
  store := storeWf_congr rfl
  playback _ h := playbackWf_iff.mpr ((playbackWf_iff (s := s)).mp h)

theorem minds_lineSet (s : State) (first : Bool) (l : MonitorLine) : Minds s (s.setLine first l) where
  targets h := targetsWf_iff.mpr ((targetsWf_iff (s := s)).mp h)
  params h := h
  events h := by
    have := eventsWf_iff.mp h
    refine eventsWf_iff.mpr ?_
    cases first <;> exact this
  store := storeWf_congr rfl
  playback _ h := playbackWf_iff.mpr ((playbackWf_iff (s := s)).mp h)

/-! ## Starting -/

theorem minds_freshFrom (s : State) : Minds s s.freshFrom where
  targets _ := targetsWf_iff.mpr ((targetsWf_iff (s := State.reset)).mp Proofs.targetsWf_reset)
  params _ := Proofs.paramsWf_default
  events _ := Proofs.eventsWf_reset
  store _ := storeWf_congr (s := State.reset) rfl Proofs.storeWf_reset
  playback _ _ := playbackWf_iff.mpr ((playbackWf_iff (s := State.reset)).mp Proofs.playbackWf_reset)

theorem RestartedFrom.minds {s t : State} {v : Int} (h : RestartedFrom s t v) : Minds s t where
  targets k := by
    have hbase : InPlant t.tgt.reqBase := by
      rw [h.base]
      split
      · exact inPlant_clamp _
      · exact Proofs.inPlant_zero
    have htgt : t.tgt.Ok t.params.regLimit :=
      { base := hbase, plan := by rw [h.plan]; exact hbase, ramped := by rw [h.ramped]; exact Proofs.inPlant_zero
        low := by rw [h.pattern]; exact k.low
        high := by rw [h.pattern]; exact k.high
        increment := by rw [h.increment]; omega
        follows := fun _ => h.plan, pattern := fun _ => h.increment }
    refine targetsWf_iff.mpr ⟨htgt, ?_⟩
    rw [h.prf]
    exact k.entries
  params k := h.params ▸ k
  events _ := by
    refine eventsWf_iff.mpr ?_
    rw [h.ste]
    refine ⟨by simp, fun i r hr => ?_⟩
    cases i with
    | zero =>
      cases hr
      show (0 : Half) = 1 - BitVec.ofNat 16 1
      decide
    | succ i => simp at hr
  store := storeWf_congr (by rw [h.prf])
  playback _ _ := playbackWf_iff.mpr (by rw [h.prf]; exact .idle _)

/-! ## Every command -/

theorem Did.minds {s a m : State} {b : Bool} (h : Did s a b m) (ha : Minds s a) : Minds s m := by
  have fin {x : State} {c : Causes} (k : Minds a x) : Minds s (x.finish s c) := minds_finish (ha.trans k)
  cases h with
  | nothing _ => exact ha
  | fresh => exact minds_freshFrom s
  | restart v => exact ha.trans (restartedFrom_restarted a v).1.minds
  | sent p =>
    refine ha.trans ?_
    unfold State.sendNext
    split
    · exact .refl a
    · exact minds_setPort a p _
    · exact minds_of_eq (now := a.clock) rfl rfl rfl .refl
  | heard => exact fin (minds_acceptDispatch a)
  | base v i hs => exact fin ((minds_acceptDispatch a).trans (minds_applyBase _ v i hs))
  | reg v hs => exact fin ((minds_acceptDispatch a).trans (minds_applyReg _ v hs))
  | levels up low => exact fin ((minds_acceptDispatch a).trans (minds_applyLevels _ up low))
  | hold u m v _ => exact fin (((minds_acceptDispatch a).trans (minds_setHold _ u _)).trans (minds_settleHold _ u))
  | release u _ => exact fin ((minds_acceptDispatch a).trans (minds_releaseHold _ u))
  | emergency u => exact (ha.trans (minds_acceptDispatch a)).trans (minds_emergencyEvent _ _ u)
  | emergencyAll => exact (ha.trans (minds_acceptDispatch a)).trans (minds_emergencyAll _ _)
  | param q v n store _ _ => exact ha.trans (minds_finish (minds_changed store))
  | loadBegin pos n _ => exact (ha.trans (minds_supersede a)).trans (minds_setPli _ _ (by rfl))
  | loadRow l i row r b _ _ _ => exact ha.trans (minds_setPli a _ (by rfl))
  | unload => exact ha.trans (minds_setPli a _ (by rfl))
  | commit l _ _ _ _ _ => exact fin ((minds_setPli a _ (by rfl)).trans (minds_commit _ l))
  | define field n count interval rep v hd => exact ha.trans (minds_define hd rep v)
  | write field first count values p hr hc => exact ha.trans (minds_write hr hc)
  | delete n _ =>
    split
    · exact ha.trans (minds_deleted a List.filter_sublist)
    · rename_i hn
      exact ha.trans (minds_delete a n (by simpa using hn))
  | deleteAll => exact ha.trans (minds_deleted a (List.nil_sublist _))
  | play n hn => exact fin (minds_play a n hn)
  | stopPlay => exact ha.trans (minds_idle a)
  | edge => exact fin (minds_activeEdge a)
  | boundary => exact fin ((minds_boundary a).trans (minds_pulse _))
  | holdover _ => exact fin (minds_holdover a)
  | meetPlan => exact fin (minds_meetPlan a)
  | meetRamp => exact fin (minds_meetRamp a)
  | pulseEnd => exact ha.trans (minds_marker a _ _)
  | source src hf _ => exact fin (minds_changeSource a src hf)
  | pattern low high period shape => exact fin (minds_storePattern a low high period shape)
  | period r _ => exact fin (minds_stepPattern a r)
  | enable _ => exact fin (minds_enabled a)
  | disable => exact ha.trans (minds_disabled a)
  | resume _ => exact fin (minds_returnToDispatching a)
  | map u p _ _ _ => exact fin (minds_remap a u p)
  | expect u n _ => exact ha.trans (minds_setUnit a u _)
  | rotationSet slots _ => exact fin (minds_ros a _)
  | rotate => exact fin (minds_ros a _)
  | clear u => exact fin (minds_setUnit a u _)
  | resources u => exact fin ((turn_releaseOrphan a u).trans (turn_releaseObserved _ u)).minds
  | line first l => exact ha.trans (minds_lineSet a first l)
  | eventRead => exact ha.trans (minds_dropRead a)
  | ident p u n _ _ => exact fin (minds_compareIdent a p u n)
  | status p u r cause _ _ => exact fin ((minds_setPort a p _).trans (minds_acceptStatus _ u r cause))
  | ack p u o accepted cause _ _ _ => exact fin (minds_ackOrder a p u _ accepted cause)
  | tick => exact fin ((minds_setPli a { a.pli with clock := a.clock + 1 } rfl).trans (minds_ramp _))
  | linkDown => exact fin (minds_linkDown a)
  | levelStale => exact (ha.trans (minds_setHead a _)).trans (minds_post _ _ _ _)
  | dwell _ => exact fin (minds_selectRow true a)
  | backoff u => exact fin (minds_setUnit a u _)
  | lead u r _ _ => exact fin (cascade_orderStep a u).minds
  | noAck u r _ _ => exact fin (minds_refuseStep a u _)
  | timeout u r k _ _ => exact fin (minds_timeoutStep a u k)
  | settled w r _ => exact fin (minds_setWaterway a w _)
  | phase w r _ => exact ha.trans (minds_setWaterway a w _)
  | probe p _ => exact fin ((minds_probeNow a p).trans (minds_ite _ (minds_setPort _ p _)))
  | lost p _ => exact fin (((minds_leaveQualified a p _).trans (minds_probeNow _ p)).trans (minds_post _ _ _ _))

end Sys2Proof.Machine

namespace Sys2Proof.Proofs
open Sys2Proof.Machine

/-- Settles O10: the four invariants one by one, each kept by `Did.minds`. -/
theorem stepKeepsTargetsProfilesEvents : Obligations.StepKeepsTargetsProfilesEvents := by
  unfold Obligations.StepKeepsTargetsProfilesEvents
  intro s t h
  refine ⟨?_, ?_, ?_, fun hs hp => ?_⟩
  · exact step_keeps (P := TargetsWf) (fun _ _ hf => hf.minds.targets) (fun _ _ _ _ hf hp hd => (hd.minds hf.minds).targets hp) h
  · exact step_keeps (P := fun s => ParamsWf s.params) (fun _ _ hf => hf.minds.params) (fun _ _ _ _ hf hp hd => (hd.minds hf.minds).params hp) h
  · exact step_keeps (P := EventsWf) (fun _ _ hf => hf.minds.events) (fun _ _ _ _ hf hp hd => (hd.minds hf.minds).events hp) h
  · have keeps {x y : State} (k : Minds x y) (hx : StoreWf x ∧ PlaybackWf x) : StoreWf y ∧ PlaybackWf y :=
      ⟨k.store hx.1, k.playback hx.1 hx.2⟩
    exact step_keeps (P := fun s => StoreWf s ∧ PlaybackWf s) (fun _ _ hf => keeps hf.minds)
      (fun _ _ _ _ hf hp hd => keeps (hd.minds hf.minds) hp) h ⟨hs, hp⟩

end Sys2Proof.Proofs
end

section
/-! Tables in force and settled holds through every operation (O11). -/

namespace Sys2Proof.Machine

/-! ## The relation -/

structure Bears (s t : State) : Prop where
  tables : TablesWf s → TablesWf t
  settled : SettledWf s → SettledWf t

theorem Bears.refl (s : State) : Bears s s := ⟨id, id⟩

theorem Bears.trans {s t r : State} (h : Bears s t) (k : Bears t r) : Bears s r := ⟨k.tables ∘ h.tables, k.settled ∘ h.settled⟩

theorem Bears.foldl {α : Type} {f : State → α → State} (h : ∀ s a, Bears s (f s a)) (xs : List α) (s : State) : Bears s (xs.foldl f s) := by
  induction xs generalizing s with
  | nil => exact .refl s
  | cons x xs ih => exact (h s x).trans (ih _)

theorem bears_ite {s t : State} (c : Prop) [Decidable c] (h : Bears s t) : Bears s (if c then t else s) := by
  split
  · exact h
  · exact .refl s

/-- The tables are the same. -/
theorem tablesWf_of {s t : State} (caps : t.head.caps = s.head.caps) (plan : t.pln.table = s.pln.table)
    (rows : ∀ w, (t.waterwayRec w).map (·.row) = (s.waterwayRec w).map (·.row)) (load : t.pli.load = s.pli.load)
    (h : TablesWf s) : TablesWf t where
  caps := caps ▸ h.caps
  plan := plan ▸ h.plan
  waterways w r hr := by
    have := rows w
    rw [hr, Option.map_some] at this
    obtain ⟨q, hq, hrow⟩ := Option.map_eq_some_iff.mp this.symm
    exact hrow ▸ h.waterways w q hq
  load := load ▸ h.load

/-- The holds and the records are the same. -/
theorem settledWf_of {s t : State} (hold : ∀ u, (t.unitRec u).hold = (s.unitRec u).hold) (record : ∀ u, t.record u = s.record u)
    (h : SettledWf s) : SettledWf t := by
  intro u x hx
  rw [record]
  exact h u x (hold u ▸ hx)

theorem PlayFrame.bears {s t : State} (h : PlayFrame s t) : Bears s t :=
  ⟨tablesWf_of (by rw [h.head]) h.table h.waterways.1 (by rw [h.pli]), settledWf_of h.unit_hold h.record⟩

theorem bears_of_eq {s t : State} (head : t.head = s.head) (params : t.params = s.params) (load : t.pli.load = s.pli.load)
    (pln : t.pln.table = s.pln.table) (rows : ∀ w, (t.waterwayRec w).map (·.row) = (s.waterwayRec w).map (·.row))
    (hold : ∀ u, (t.unitRec u).hold = (s.unitRec u).hold) : Bears s t :=
  ⟨tablesWf_of (by rw [head]) pln rows load, settledWf_of hold (State.record_congr head params)⟩

theorem Turn.bears {s t : State} (h : Turn s t) : Bears s t := h.frame.cascade.play.bears

theorem bears_finish {s t before : State} {c : Causes} (h : Bears s t) : Bears s (t.finish before c) :=
  h.trans (cascade_finish t before c).play.bears

theorem bears_setPli (s : State) (b : Pli) (params : b.params = s.pli.params) (load : b.load = s.pli.load) : Bears s (s.setPli b) :=
  bears_of_eq rfl params load rfl (fun _ => rfl) fun _ => rfl
theorem bears_setTgt (s : State) (b : Tgt) : Bears s (s.setTgt b) := (target_setTgt s b).toPlayFrame.bears
theorem bears_setPrf (s : State) (b : Prf) : Bears s (s.setPrf b) := bears_of_eq rfl rfl rfl rfl (fun _ => rfl) fun _ => rfl
theorem bears_setAlc (s : State) (b : Alc) : Bears s (s.setAlc b) := (cascade_setAlc s b).play.bears
theorem bears_setSte (s : State) (b : Ste) : Bears s (s.setSte b) := bears_of_eq rfl rfl rfl rfl (fun _ => rfl) fun _ => rfl
theorem bears_setPort (s : State) (p : Port) (r : PortRec) : Bears s (s.setPort p r) := bears_of_eq rfl rfl rfl rfl (fun _ => rfl) fun _ => rfl
theorem bears_setPln (s : State) (b : Pln) (h : b.table = s.pln.table) : Bears s (s.setPln b) := bears_of_eq rfl rfl rfl h (fun _ => rfl) fun _ => rfl
theorem bears_post (s : State) (k : EventKind) (u : Option Slot) (v : Option Int) : Bears s (s.post k u v) := bears_setSte s _
theorem bears_setReq (s : State) (u : Slot) (r : Option Request) : Bears s (s.setReq u r) := (cascade_setReq s u r).play.bears

theorem bears_setUnit (s : State) (u : Slot) (r : UnitRec) (h : r.hold = (s.unitRec u).hold) : Bears s (s.setUnit u r) := by
  refine bears_of_eq rfl rfl rfl rfl (fun _ => rfl) fun v => ?_
  rw [State.setUnit_unitRec]
  split
  · rename_i hv
    rw [h, hv]
  · rfl

theorem bears_selectRow (expired : Bool) (s : State) : Bears s (State.selectRow expired s) := (select_selectRow expired s).toPlayFrame.bears

theorem Framed.bears {s t : State} (h : Framed s t) : Bears s t := by
  have hp : ({ t.pli with framer := none } : Pli).params = ({ s.pli with framer := none } : Pli).params := by rw [h.pli]
  have hl : ({ t.pli with framer := none } : Pli).load = ({ s.pli with framer := none } : Pli).load := by rw [h.pli]
  exact bears_of_eq h.head hp hl (by rw [h.pln]) (fun w => by rw [State.waterwayRec_congr h.trs])
    fun u => by rw [State.unitRec_congr h.ros]

theorem Played.bears {s t : State} (h : Played s t) : Bears s t := by
  induction h with
  | refl => exact .refl s
  | step _ k ih =>
    refine ih.trans ?_
    cases k with
    | tgt b => exact bears_setTgt _ b
    | prf b => exact bears_setPrf _ b
    | post k u v => exact bears_post _ k u v
    | select _ => exact bears_selectRow false _

/-! ## Holds (R14) -/

/-- A hold written whose settled setpoint is its settlement. -/
theorem bears_setHold (s : State) (u : Slot) (h : Option Hold)
    (settled : SettledWf s → ∀ x, h = some x → x.settled = x.settledAgainst (s.record u)) : Bears s (s.setHold u h) where
  tables := tablesWf_of rfl rfl (fun _ => rfl) rfl
  settled k := by
    intro v x hx
    show x.settled = x.settledAgainst (s.record v)
    rw [State.setHold, State.setUnit_unitRec] at hx
    split at hx
    · rename_i hv
      rw [hv]
      exact settled k x hx
    · exact k v x hx

theorem settledAgainst_congr {h k : Hold} (mode : h.mode = k.mode) (requested : h.requested = k.requested) (c : Option CapRecord) :
    h.settledAgainst c = k.settledAgainst c := by
  unfold Hold.settledAgainst
  rw [mode, requested]

/-- Only the outstanding mark of the slot's hold is written. -/
theorem bears_markStop (s : State) (u : Slot) {h : Hold} (hh : (s.unitRec u).hold = some h) (b : Bool) :
    Bears s (s.setHold u (some { h with stopOutstanding := b })) := by
  refine bears_setHold s u _ fun k x hx => ?_
  obtain rfl := Option.some.inj hx
  exact k u h hh

theorem RosFrame.tables {s t : State} (h : RosFrame s t) (k : TablesWf s) : TablesWf t :=
  tablesWf_of (by rw [h.head]) (by rw [h.pln]) (fun w => by rw [State.waterwayRec_congr h.trs]) (by rw [h.pli]) k

theorem settle_settled {r : UnitRec} {c : Option CapRecord} {x : Hold} (h : (r.settle c).hold = some x) : x.settled = x.settledAgainst c := by
  obtain ⟨y, -, rfl⟩ := Option.map_eq_some_iff.mp h
  exact settledAgainst_congr rfl rfl c

/-- All other holds are settled, and the slot's is settled now. -/
theorem settledWf_settleHold {s : State} {u : Slot}
    (h : ∀ v x, v ≠ u → (s.unitRec v).hold = some x → x.settled = x.settledAgainst (s.record v)) : SettledWf (s.settleHold u) := by
  obtain ⟨hf, hr⟩ := settleHold_effect s u
  intro v x hx
  rw [hf.record]
  rw [hr] at hx
  split at hx
  · exact settle_settled hx
  · rename_i hv
    exact h v x hv hx

/-- The holds are settled again after a change of the head (R37). -/
theorem bears_resettled {s x : State} (caps : x.head.caps = s.head.caps) (table : x.pln.table = s.pln.table)
    (rows : ∀ w, (x.waterwayRec w).map (·.row) = (s.waterwayRec w).map (·.row)) (load : x.pli.load = s.pli.load)
    (hold : ∀ u, (x.unitRec u).hold = (s.unitRec u).hold) : Bears s (State.resettle s.headInUse x) where
  tables h := (resettle_effect _ x).1.tables (tablesWf_of caps table rows load h)
  settled h := by
    obtain ⟨hf, hr⟩ := resettle_effect s.headInUse x
    intro u y hy
    rw [hf.record]
    rw [hr] at hy
    split at hy
    · rename_i he
      have hrec : x.record u = s.record u := by rw [State.record, State.record, he, caps]
      rw [hrec]
      exact h u y (hold u ▸ hy)
    · exact settle_settled hy

theorem formEstimate_frame (s : State) : s.formEstimate.head.caps = s.head.caps ∧ s.formEstimate.pln = s.pln ∧ s.formEstimate.trs = s.trs
    ∧ s.formEstimate.pli = s.pli ∧ s.formEstimate.ros = s.ros := by
  unfold State.formEstimate
  split <;> exact ⟨rfl, rfl, rfl, rfl, rfl⟩

theorem bears_applyLevels (s : State) (up low : Nat) : Bears s (s.applyLevels up low) := by
  obtain ⟨hcaps, hpln, htrs, hpli, hros⟩ := formEstimate_frame (s.setHead { s.head with levels := some (clampLevel up, clampLevel low) })
  exact bears_resettled hcaps (congrArg (·.table) hpln) (fun w => congrArg (Option.map (·.row)) (State.waterwayRec_congr htrs w))
    (congrArg (·.load) hpli) fun u => congrArg (·.hold) (State.unitRec_congr hros u)

theorem bears_setHolds_settled (s : State) (u : Slot) (h : Hold) : Bears s ((s.setHold u (some h)).settleHold u) where
  tables k := (settleHold_effect _ u).1.tables (tablesWf_of (s := s) (t := s.setHold u (some h)) rfl rfl (fun _ => rfl) rfl k)
  settled k := settledWf_settleHold fun v x hv hx => by
    rw [State.setHold, State.setUnit_unitRec, if_neg hv] at hx
    exact k v x hx

theorem bears_releaseHold (s : State) (u : Slot) : Bears s (s.releaseHold u) :=
  ((bears_setHold s u none fun _ x hx => by cases hx).trans (cascade_ceaseOrder _ u _).play.bears).trans (turn_makeAutomatic _ u).bears

theorem sendOrder_hold (s : State) (p : Port) (k : StepKind) (c : Option Conv) (q : Purpose) (u : Slot) :
    ((s.sendOrder p k c q).unitRec u).hold = (s.unitRec u).hold := by
  rw [State.unitRec_congr (sendOrder_ros s p k c q)]

theorem bears_sendEmergencyStop (s : State) {u : Slot} {h : Hold} (hh : (s.unitRec u).hold = some h) :
    Bears s (s.sendEmergencyStop u h) := by
  unfold State.sendEmergencyStop
  split
  · exact .refl s
  · rename_i p _
    exact (cascade_sendOrder s p .stop none .emergency).play.bears.trans (bears_markStop _ u ((sendOrder_hold s p _ _ _ u).trans hh) true)

/-- An emergency stop that leaves the hold `h` (R16, R82). -/
def State.stopWith (s : State) (u : Slot) (h : Hold) : State :=
  let t := (s.setHold u (some h)).cancelRequest u
  if t.portState u == .qualified && (t.reported u).any Reported.running then t.sendEmergencyStop u h else t

theorem emergencyStop_eq (s : State) (u : Slot) :
    s.emergencyStop u = s.stopWith u (((s.unitRec u).hold.filter (·.emergency)).getD Hold.emergencyStop) := rfl

theorem bears_stopWith (s : State) (u : Slot) (h : Hold) (settled : SettledWf s → h.settled = h.settledAgainst (s.record u)) :
    Bears s (s.stopWith u h) := by
  have hset : Bears s (s.setHold u (some h)) := bears_setHold s u _ fun k x hx => by
    obtain rfl := Option.some.inj hx
    exact settled k
  have hturn := turn_cancelRequest (s.setHold u (some h)) u
  have hhold : (((s.setHold u (some h)).cancelRequest u).unitRec u).hold = some h := by
    rw [hturn.frame.cascade.play.unit_hold, State.setHold, State.setUnit_unitRec, if_pos rfl]
  exact (hset.trans hturn.bears).trans (bears_ite _ (bears_sendEmergencyStop _ hhold))

theorem bears_emergencyStop (s : State) (u : Slot) : Bears s (s.emergencyStop u) := by
  rw [emergencyStop_eq]
  refine bears_stopWith s u _ fun k => ?_
  cases hf : (s.unitRec u).hold.filter (·.emergency) with
  | none => rfl
  | some h => exact k u h (Option.filter_eq_some_iff.mp hf).1

theorem bears_emergencyEvent (before s : State) (u : Slot) : Bears s (State.emergencyEvent before s u) :=
  bears_finish (bears_emergencyStop s u)

theorem bears_emergencyAll (before s : State) : Bears s (State.emergencyAll before s) :=
  (bears_emergencyEvent before s .u1).trans (.foldl (fun t u => bears_emergencyEvent t t u) _ _)

theorem bears_watchEmergency (s : State) (u : Slot) (m : Reported) : Bears s (s.watchEmergency u m) := by
  unfold State.watchEmergency
  split
  · exact .refl s
  · rename_i h hh
    split
    · exact .refl s
    · split
      · split
        · exact .refl s
        · exact bears_sendEmergencyStop s hh
      · exact (bears_markStop s u hh false).trans (cascade_ceaseOrder _ u _).play.bears

theorem bears_acceptStatus (s : State) (u : Slot) (r : Report) (cause : Byte) : Bears s (s.acceptStatus u r cause) :=
  ((bears_setUnit s u _ (by rfl)).trans (bears_ite _ ((bears_setUnit _ u _ (by rfl)).trans (bears_post _ _ _ _)))).trans
    ((((bears_watchEmergency _ u _).trans (turn_supervise _ u _ _).bears).trans (turn_watchConverters _ u _ _).bears).trans
      (bears_ite _ (turn_compareDemand _ u).bears))

/-- The slot of a port that has left QUALIFIED keeps its hold but for the outstanding mark (R4). -/
theorem bears_portGone (s : State) (u : Slot) : Bears s (s.setUnit u (s.unitRec u).portGone) where
  tables := tablesWf_of rfl rfl (fun _ => rfl) rfl
  settled k := by
    intro v x hx
    show x.settled = x.settledAgainst (s.record v)
    rw [State.setUnit_unitRec] at hx
    split at hx
    · rename_i hv
      rw [hv]
      obtain ⟨y, hy, rfl⟩ := Option.map_eq_some_iff.mp hx
      exact k u y hy
    · exact k v x hx

theorem bears_leaveQualified (s : State) (p : Port) (st : PortState) : Bears s (s.leaveQualified p st) := by
  unfold State.leaveQualified
  dsimp only
  split
  · exact bears_setPort s p _
  · rename_i u _
    exact ((bears_setPort s p _).trans (bears_portGone _ u)).trans (turn_orphanRequest _ u).bears

theorem bears_probeNow (s : State) (p : Port) : Bears s (s.probeNow p) := by
  obtain ⟨ports, out, h⟩ := probeNow_eq s p
  rw [h]
  exact bears_of_eq rfl rfl rfl rfl (fun _ => rfl) fun _ => rfl

theorem bears_remap (s : State) (u : Slot) (p : Option Port) : Bears s (s.remap u p) := by
  have haway (old : Port) : Bears s (s.takePortAway u old) := by
    unfold State.takePortAway
    dsimp only
    split
    · exact (bears_leaveQualified s old _).trans (bears_setUnit _ u _ (by rfl))
    · exact (bears_setPort s old _).trans (bears_setUnit _ u _ (by rfl))
  have hless : Bears s (s.portless u) := by
    unfold State.portless
    split
    · exact haway _
    · exact .refl s
  rw [show s.remap u p = State.given (s.portless u) u p from remap_eq s u p]
  cases p with
  | none => exact hless
  | some q => exact hless.trans (((bears_setUnit _ u _ (by rfl)).trans (bears_setPort _ q _)).trans (bears_probeNow _ q))

theorem bears_compareIdent (s : State) (p : Port) (u : Slot) (n : Byte) : Bears s (s.compareIdent p u n) := by
  have hmismatch (x : State) : Bears x ((x.setPortState p .mismatch).post .portMismatch (some u) (some n.toNat)) :=
    (bears_setPort x p _).trans (bears_post _ _ _ _)
  unfold State.compareIdent
  dsimp only
  refine Bears.trans (t := s.setPort p { s.portRec p with lastMachine := some n }) (bears_setPort s p _) ?_
  generalize s.setPort p { s.portRec p with lastMachine := some n } = x
  split
  · exact bears_ite _ ((bears_setPort x p _).trans (bears_post _ _ _ _))
  · split
    · exact ((bears_leaveQualified x p _).trans (bears_probeNow _ p)).trans (bears_post _ _ _ _)
    · exact hmismatch x
    · exact hmismatch x
    · exact hmismatch x
    · exact .refl x
    · exact .refl x

/-! ## Parameters -/

theorem bears_applyParam (s : State) (q : Param) (n : Nat) : Bears s (State.applyParam s (s.writeParam q n) q) := by
  have plain (h : ∀ x : State, (x.writeParam q n).head = x.head ∧ (x.writeParam q n).params.headOverride = x.params.headOverride
      ∧ (x.writeParam q n).pli.load = x.pli.load ∧ (x.writeParam q n).pln = x.pln ∧ (x.writeParam q n).trs = x.trs
      ∧ (x.writeParam q n).ros = x.ros) : Bears s (s.writeParam q n) := by
    obtain ⟨hhead, hover, hload, hpln, htrs, hros⟩ := h s
    have huse : (s.writeParam q n).headInUse = s.headInUse := by
      simp only [State.headInUse, State.headSource, hhead, hover]
    exact ⟨tablesWf_of (by rw [hhead]) (by rw [hpln]) (fun w => by rw [State.waterwayRec_congr htrs]) hload,
      settledWf_of (fun u => by rw [State.unitRec_congr hros]) fun u => by simp only [State.record, huse, hhead]⟩
  cases q with
  | headLoss =>
    obtain ⟨hcaps, hpln, htrs, hpli, hros⟩ := formEstimate_frame (s.writeParam .headLoss n)
    exact bears_resettled hcaps (congrArg (·.table) hpln) (fun w => congrArg (Option.map (·.row)) (State.waterwayRec_congr htrs w))
      (congrArg (·.load) hpli) fun u => congrArg (·.hold) (State.unitRec_congr hros u)
  | headOverride => exact bears_resettled (x := s.writeParam .headOverride n) rfl rfl (fun _ => rfl) rfl fun _ => rfl
  | rampRate => exact (plain fun _ => ⟨rfl, rfl, rfl, rfl, rfl, rfl⟩).trans (bears_ite _ (bears_setTgt _ _))
  | regLimit => exact (plain fun _ => ⟨rfl, rfl, rfl, rfl, rfl, rfl⟩).trans (bears_setTgt _ _)
  | planAdvance => exact (plain fun _ => ⟨rfl, rfl, rfl, rfl, rfl, rfl⟩).trans (played_meetDue _).bears
  | rampAdvance => exact (plain fun _ => ⟨rfl, rfl, rfl, rfl, rfl, rfl⟩).trans (played_meetDue _).bears
  | markerMode => exact (plain fun _ => ⟨rfl, rfl, rfl, rfl, rfl, rfl⟩).trans (bears_setPrf _ _)
  | markerDivider => exact (plain fun _ => ⟨rfl, rfl, rfl, rfl, rfl, rfl⟩).trans (bears_setPrf _ _)
  | markerPolarity => exact (plain fun _ => ⟨rfl, rfl, rfl, rfl, rfl, rfl⟩).trans ((bears_setPrf _ _).trans (bears_setPrf _ _))
  | _ => exact plain fun _ => ⟨rfl, rfl, rfl, rfl, rfl, rfl⟩

/-! ## The shadow buffer (R167, R168) -/

theorem bears_setLoad (s : State) (l : Option Load) (h : TablesWf s → ∀ x, l = some x → x.Wf) : Bears s (s.setLoad l) where
  tables k := ⟨k.caps, k.plan, k.waterways, h k⟩
  settled := settledWf_of (fun _ => rfl) fun _ => rfl

theorem readRow_fits {p : TablePos} {i : Nat} {row : List Byte} {r : Row} {b : Bool} (h : p.readRow i row = some (r, b)) :
    p.fits i r = true := by
  cases p with
  | cap u =>
    simp only [TablePos.readRow] at h
    split at h
    · unfold headerRow at h
      split at h
      · cases h
        simpa [TablePos.fits]
      · cases h
    · unfold breakpointRow at h
      split at h
      · cases h
        simpa [TablePos.fits]
      · cases h
  | plan =>
    simp only [TablePos.readRow, planRow] at h
    split at h
    · cases h
      rfl
    · cases h
  | waterway =>
    simp only [TablePos.readRow] at h
    split at h
    · rename_i hi
      unfold placesRow at h
      split at h
      · rename_i hl
        cases h
        simp [TablePos.fits, hi, hl]
      · cases h
    · unfold waterwayRow at h
      split at h
      · cases h
        simpa [TablePos.fits]
      · cases h

theorem Load.Wf.stored {l : Load} (h : l.Wf) {i : Nat} {row : List Byte} {r : Row} {b : Bool} (hi : i < l.count)
    (hr : l.pos.readRow i row = some (r, b)) : ({ l with rows := storeRow i r l.rows } : Load).Wf := by
  obtain ⟨hrising, hmem⟩ := storeRow_mem i r l.rows h.rising
  refine ⟨h.count, hrising, fun x hx => ?_, fun x hx => ?_⟩
  · obtain ⟨rfl, -⟩ | ⟨-, hx⟩ := (hmem x.1 x.2).mp hx
    · exact hi
    · exact h.below x hx
  · obtain ⟨hxi, hxr⟩ | ⟨-, hx⟩ := (hmem x.1 x.2).mp hx
    · rw [hxi, hxr]
      exact readRow_fits hr
    · exact h.form x hx

/-! ## A load that has passed its checks (R169) -/

/-- A load without a missing row holds its rows under their indices from 0 on. -/
theorem Load.Wf.complete {l : Load} (h : l.Wf) (whole : l.missing = none) :
    ∃ rs : List Row, l.rows = rs.mapIdx Prod.mk ∧ rs.length = l.count := by
  have hfst : l.rows.map (·.1) = List.range l.count := by
    have hsorted : (l.rows.map (·.1)).Pairwise (· < ·) := List.pairwise_map.mpr h.rising
    refine List.Perm.eq_of_pairwise (le := (· < ·)) (fun a b _ _ h1 h2 => absurd (h1.trans h2) (lt_irrefl a)) hsorted
      List.pairwise_lt_range ((List.perm_ext_iff_of_nodup (hsorted.imp (fun h => h.ne)) List.nodup_range).mpr fun i => ?_)
    rw [List.mem_range, List.mem_map]
    constructor
    · rintro ⟨x, hx, rfl⟩
      exact h.below x hx
    · intro hi
      have := List.find?_eq_none.mp whole i (List.mem_range.mpr hi)
      cases hf : l.rows.find? (fun x => x.1 == i) with
      | none => simp [Load.row, hf] at this
      | some x => exact ⟨x, List.mem_of_find?_eq_some hf, by simpa using List.find?_some hf⟩
  have hlen : l.rows.length = l.count := by simpa using congrArg List.length hfst
  refine ⟨l.rows.map (·.2), List.ext_getElem? fun i => ?_, by simpa using hlen⟩
  rw [List.getElem?_mapIdx, List.getElem?_map]
  cases hi : l.rows[i]? with
  | none => rfl
  | some x =>
    have : (l.rows.map (·.1))[i]? = some x.1 := by simp [hi]
    rw [hfst] at this
    obtain ⟨hlt, hx⟩ := List.getElem?_eq_some_iff.mp this
    rw [List.getElem_range] at hx
    rw [Option.map_some, Option.map_some, hx]

theorem Load.passes_of {l : Load} (h : l.failing = none) {i : Nat} (hi : i < l.count) : l.passes i = true := by
  simpa using List.find?_eq_none.mp h i (List.mem_range.mpr hi)

section
variable {l : Load} {rs : List Row} (hwf : l.Wf) (hrows : l.rows = rs.mapIdx Prod.mk)
include hwf hrows

theorem Load.Wf.fits_row {i : Nat} {r : Row} (hi : rs[i]? = some r) : l.pos.fits i r = true := by
  refine hwf.form (i, r) ?_
  rw [hrows, List.mem_mapIdx]
  obtain ⟨hlt, hr⟩ := List.getElem?_eq_some_iff.mp hi
  exact ⟨i, hlt, by rw [hr]⟩

/-- The rows of a plan are plan rows. -/
theorem Load.Wf.plan_rows (hp : l.pos = .plan) : rs = (rs.filterMap Row.asPlan).map .plan := by
  have hall : ∀ r ∈ rs, ∃ q, r = .plan q := by
    intro r hr
    obtain ⟨i, hi⟩ := List.mem_iff_getElem?.mp hr
    have := hwf.fits_row hrows hi
    rw [hp] at this
    cases r <;> simp [TablePos.fits] at this
    exact ⟨_, rfl⟩
  clear hwf hrows
  induction rs with
  | nil => rfl
  | cons r rs ih =>
    obtain ⟨q, rfl⟩ := hall r (List.mem_cons_self ..)
    rw [List.filterMap_cons_some (f := Row.asPlan) (b := q) rfl, List.map_cons, ← ih fun x hx => hall x (List.mem_cons_of_mem _ hx)]

/-- The rows of a capability table are a header and breakpoints. -/
theorem Load.Wf.cap_rows {u : Slot} (hp : l.pos = .cap u) (hne : rs ≠ []) :
    ∃ (c : CapHeader) (bs : List Breakpoint), rs = .capHeader c :: bs.map .breakpoint := by
  obtain ⟨r, rest, rfl⟩ := List.exists_cons_of_ne_nil hne
  have hhead : ∃ c, r = .capHeader c := by
    have := hwf.fits_row hrows (i := 0) (r := r) rfl
    rw [hp] at this
    cases r <;> simp [TablePos.fits] at this
    exact ⟨_, rfl⟩
  obtain ⟨c, rfl⟩ := hhead
  have hall : ∀ r ∈ rest, ∃ b, r = .breakpoint b := by
    intro r hr
    obtain ⟨i, hi⟩ := List.mem_iff_getElem?.mp hr
    have := hwf.fits_row hrows (i := i + 1) (r := r) (by simpa using hi)
    rw [hp] at this
    cases r <;> simp [TablePos.fits] at this
    exact ⟨_, rfl⟩
  suffices h : ∃ bs : List Breakpoint, rest = bs.map .breakpoint by
    obtain ⟨bs, rfl⟩ := h
    exact ⟨c, bs, rfl⟩
  clear hwf hrows hne
  induction rest with
  | nil => exact ⟨[], rfl⟩
  | cons r rest ih =>
    obtain ⟨b, rfl⟩ := hall r (List.mem_cons_self ..)
    obtain ⟨bs, rfl⟩ := ih fun x hx => hall x (List.mem_cons_of_mem _ hx)
    exact ⟨b :: bs, rfl⟩

end

theorem filterMap_asBreakpoint (bs : List Breakpoint) : (bs.map Row.breakpoint).filterMap Row.asBreakpoint = bs := by
  induction bs with
  | nil => rfl
  | cons b bs ih =>
    rw [List.map_cons, List.filterMap_cons_some (f := Row.asBreakpoint) (b := b) rfl, ih]

/-- R25, R26: what LOAD_END commits of a capability load. -/
theorem capTable_wf {l : Load} (hwf : l.Wf) {u : Slot} (hp : l.pos = .cap u) (whole : l.missing = none) (passes : l.failing = none)
    {t : CapTable} (ht : l.capTable = some t) : t.Wf := by
  obtain ⟨rs, hrows, hlen⟩ := hwf.complete whole
  have hcount : 3 ≤ l.count ∧ l.count ≤ 7 := by
    have := hwf.count
    rw [hp] at this
    simpa [TablePos.takesRows] using this
  obtain ⟨c, bs, rfl⟩ := hwf.cap_rows hrows hp (by rintro rfl; simp at hlen; omega)
  have hinOrder := load_inOrder_of hrows
  have htable : l.capTable = some { header := c, points := bs } := by
    unfold Load.capTable
    rw [hinOrder, List.findSome?_cons, List.filterMap_cons_none (by rfl), filterMap_asBreakpoint]
    rfl
  rw [htable] at ht
  obtain rfl := Option.some.inj ht
  have hbs : bs.length + 1 = l.count := by simpa using hlen
  have hhead := l.passes_of passes (i := 0) (by omega)
  rw [Load.passes, load_row_of hrows] at hhead
  have hhead : (2 ≤ c.count ∧ c.count ≤ 6) ∧ c.count + 1 = l.count := by simpa using hhead
  have hpoint (i : Nat) (b : Breakpoint) (hb : bs[i]? = some b) :
      b.sound = true ∧ ∀ a, 0 < i → bs[i - 1]? = some a → a.head < b.head := by
    have hi : i < bs.length := (List.getElem?_eq_some_iff.mp hb).1
    have hpass := l.passes_of passes (i := i + 1) (by omega)
    rw [Load.passes, load_row_of hrows, List.getElem?_cons_succ, List.getElem?_map, hb] at hpass
    obtain ⟨hsound, hrise⟩ := Bool.and_eq_true _ _ ▸ hpass
    refine ⟨hsound, fun a hi0 ha => ?_⟩
    obtain ⟨j, rfl⟩ : ∃ j, i = j + 1 := ⟨i - 1, by omega⟩
    rw [Nat.add_sub_cancel] at ha
    rw [load_row_of hrows, Nat.add_sub_cancel, List.getElem?_cons_succ, List.getElem?_map, ha] at hrise
    simpa [Row.head?] using hrise
  have hcounts : c.count = bs.length ∧ 2 ≤ bs.length ∧ bs.length ≤ 6 := by omega
  refine ⟨hcounts.1, hcounts.2.1, hcounts.2.2, fun b hb => ?_, ?_⟩
  · obtain ⟨i, hi⟩ := List.mem_iff_getElem?.mp hb
    exact (hpoint i b hi).1
  · have : IsTrans Breakpoint fun a b => a.head < b.head := ⟨fun _ _ _ h1 h2 => h1.trans h2⟩
    refine List.isChain_iff_pairwise.mp ?_
    refine List.isChain_iff_getElem.mpr fun i hi => ?_
    exact (hpoint (i + 1) bs[i + 1] (List.getElem?_eq_getElem _)).2 bs[i] (Nat.succ_pos _) (List.getElem?_eq_getElem _)

/-- R40, R41: what LOAD_END commits of a plan load. -/
theorem planRows_wf {l : Load} (hwf : l.Wf) (hp : l.pos = .plan) (whole : l.missing = none) (passes : l.failing = none) :
    1 ≤ (l.inOrder.filterMap Row.asPlan).length ∧ (l.inOrder.filterMap Row.asPlan).length ≤ 24
      ∧ ∀ r ∈ l.inOrder.filterMap Row.asPlan, r.sound = true := by
  obtain ⟨rs, hrows, hlen⟩ := hwf.complete whole
  have hcount : 1 ≤ l.count ∧ l.count ≤ 24 := by
    have := hwf.count
    rw [hp] at this
    simpa [TablePos.takesRows] using this
  have hrs := hwf.plan_rows hrows hp
  rw [load_inOrder_of hrows]
  generalize rs.filterMap Row.asPlan = qs at hrs
  subst hrs
  rw [List.length_map] at hlen
  refine ⟨by omega, by omega, fun r hr => ?_⟩
  obtain ⟨i, hi⟩ := List.mem_iff_getElem?.mp hr
  have hlt : i < qs.length := (List.getElem?_eq_some_iff.mp hi).1
  have := l.passes_of passes (i := i) (by omega)
  rw [Load.passes, load_row_of hrows, List.getElem?_map, hi] at this
  exact this

/-- The waterway rows of a load that passed are sound (R86). -/
theorem waterwayRow_sound {l : Load} (hwf : l.Wf) (whole : l.missing = none) (passes : l.failing = none) {r : WaterwayRow}
    (hr : r ∈ l.inOrder.filterMap Row.asWaterway) : r.sound = true := by
  obtain ⟨rs, hrows, hlen⟩ := hwf.complete whole
  rw [load_inOrder_of hrows, List.mem_filterMap] at hr
  obtain ⟨x, hx, hxr⟩ := hr
  obtain ⟨i, hi⟩ := List.mem_iff_getElem?.mp hx
  have hlt : i < rs.length := (List.getElem?_eq_some_iff.mp hi).1
  have := l.passes_of passes (i := i) (by omega)
  rw [Load.passes, load_row_of hrows, hi] at this
  cases x with
  | waterway q =>
    obtain rfl : q = r := Option.some.inj hxr
    exact this
  | _ => cases hxr

/-- The row of each waterway record committed is one of the load's. -/
theorem waterways_rows {l : Load} {old : Option Waterways} {t : Waterways} (h : l.waterways old = some t) (w : Waterway) :
    (t.recs.get w).row ∈ l.inOrder.filterMap Row.asWaterway := by
  unfold Load.waterways at h
  dsimp only at h
  split at h
  · rename_i hset _
    cases h
    rw [hset]
    cases w <;> simp [WaterwayMap.get, WaterwayRec.recommit]
  · cases h

theorem tables_commit (s : State) (l : Load) (hwf : l.Wf) (whole : l.missing = none) (passes : l.failing = none)
    (k : TablesWf s) : TablesWf (s.commit l) := by
  unfold State.commit
  split
  · rename_i u hp
    refine (settleHold_effect ((s.setHead { s.head with caps := s.head.caps.set u l.capTable }).post .tableCommitted none
      (some (tablePosCode (.cap u)))) u).1.tables ⟨fun v t ht => ?_, k.plan, k.waterways, k.load⟩
    have ht : (s.head.caps.set u l.capTable).get v = some t := ht
    rw [SlotMap.get_set] at ht
    split at ht
    · exact capTable_wf hwf hp whole passes ht
    · exact k.caps v t ht
  · rename_i hp
    have hset : TablesWf (s.setPln { s.pln with table := some (l.inOrder.filterMap Row.asPlan) }) :=
      ⟨k.caps, fun rows hr => by
        obtain rfl := Option.some.inj hr
        exact planRows_wf hwf hp whole passes, k.waterways, k.load⟩
    exact ((bears_post _ _ _ _).trans (bears_ite _ ((bears_setPln _ _ (by rfl)).trans (bears_selectRow false _)))).tables hset
  · refine (bears_post (s.setTrs { s.trs with waterways := l.waterways s.trs.waterways }) _ _ _).tables
      ⟨k.caps, k.plan, fun w r hr => ?_, k.load⟩
    obtain ⟨t, ht, rfl⟩ := Option.map_eq_some_iff.mp hr
    exact waterwayRow_sound hwf whole passes (waterways_rows ht w)

/-- A record depends on its slot's table and the head in use. -/
theorem record_of {s t : State} {u : Slot} (caps : t.head.caps.get u = s.head.caps.get u) (head : t.headInUse = s.headInUse) :
    t.record u = s.record u := by
  rw [State.record, State.record, caps, head]

theorem settled_commit (s : State) (l : Load) (k : SettledWf s) : SettledWf (s.commit l) := by
  unfold State.commit
  split
  · rename_i u _
    refine settledWf_settleHold fun v x hv hx => ?_
    have hcaps : (s.head.caps.set u l.capTable).get v = s.head.caps.get v := by rw [SlotMap.get_set, if_neg hv]
    have hrec := record_of (s := s) (u := v)
      (t := (s.setHead { s.head with caps := s.head.caps.set u l.capTable }).post .tableCommitted none
        (some (tablePosCode (.cap u)))) hcaps rfl
    exact (k v x hx).trans (congrArg x.settledAgainst hrec.symm)
  · have hset : SettledWf (s.setPln { s.pln with table := some (l.inOrder.filterMap Row.asPlan) }) :=
      settledWf_of (s := s) (fun _ => rfl) (fun _ => rfl) k
    exact ((bears_post _ _ _ _).trans (bears_ite _ ((bears_setPln _ _ (by rfl)).trans (bears_selectRow false _)))).settled hset
  · exact settledWf_of (s := s) (fun _ => rfl) (fun _ => rfl) k

/-! ## The part state, starting, timers -/

theorem bears_acceptDispatch (s : State) : Bears s s.acceptDispatch := by
  obtain ⟨b, hb, -, h⟩ := acceptDispatch_run s
  have hp : ({ b with part := s.pli.part, liveness := s.pli.liveness, linkSilent := s.pli.linkSilent } : Pli).params = s.pli.params := by rw [hb]
  have hl : ({ b with part := s.pli.part, liveness := s.pli.liveness, linkSilent := s.pli.linkSilent } : Pli).load = s.pli.load := by rw [hb]
  exact (bears_setPli s b hp hl).trans h.bears

theorem bears_linkDown (s : State) : Bears s s.linkDown := by
  obtain ⟨b, hb, -, h⟩ := linkDown_run s
  have hp : ({ b with part := s.pli.part, liveness := s.pli.liveness, linkSilent := s.pli.linkSilent } : Pli).params = s.pli.params := by rw [hb]
  have hl : ({ b with part := s.pli.part, liveness := s.pli.liveness, linkSilent := s.pli.linkSilent } : Pli).load = s.pli.load := by rw [hb]
  exact (bears_setPli s b hp hl).trans h.bears

theorem bears_enabled (s : State) : Bears s s.enabled := by
  have hentered : Bears s s.entered :=
    ((bears_setPli s _ (by rfl) (by rfl)).trans (bears_setTgt _ _)).trans (bears_setPln _ (.cleared s.pln.table) (by rfl))
  exact ((hentered.trans (turn_compareHeld_fold _ _).bears).trans (bears_selectRow false _)).trans
    (.foldl (fun x u => bears_ite _ (bears_setReq x u _)) _ _)

theorem bears_disabled (s : State) : Bears s s.disabled :=
  ((((bears_setPli s { s.pli with part := .standby } rfl rfl).trans (bears_ite (s.inFallback = true) (bears_post _ _ _ _))).trans
    (disable_fold Slot.all Slot.all_nodup _).1.play.bears).trans (bears_setPln _ _ (by rfl))).trans (bears_setAlc _ _)

theorem bears_refuseStep (s : State) (u : Slot) (cause : Int) : Bears s (s.refuseStep u cause) := by
  have hback (x : State) : Bears x (if x.params.refusalBackoff = 0 then x
      else x.setUnit u { x.unitRec u with backoff := some (later x.clock x.params.refusalBackoff) }) := by
    split
    · exact .refl x
    · exact bears_setUnit x u _ rfl
  exact (((turn_failRequest s u false).bears.trans (hback _)).trans (bears_post _ _ _ _)).trans (turn_compareDemand _ u).bears

theorem bears_ackOrder (s : State) (p : Port) (u : Slot) (q : Purpose) (accepted : Bool) (cause : Byte) :
    Bears s (s.ackOrder p u q accepted cause) := by
  have hclear : Bears s (s.clearOutstanding p) := bears_setPort s p _
  unfold State.ackOrder
  split
  · unfold State.ackSupervised
    split
    · exact .refl s
    · split
      · exact .refl s
      · split
        · exact bears_setReq s u _
        · exact bears_refuseStep s u _
  · split
    · exact hclear
    · exact hclear.trans (bears_post _ _ _ _)
  · exact hclear

theorem bears_timeoutStep (s : State) (u : Slot) (k : StepKind) : Bears s (s.timeoutStep u k) := by
  have hsend (x : State) : Bears x (x.sendTimeoutStop u k) := by
    unfold State.sendTimeoutStop
    split
    · exact .refl x
    · exact bears_ite _ (cascade_sendOrder x _ _ _ _).play.bears
  exact ((((turn_failRequest s u true).bears.trans (bears_setUnit _ u _ (by rfl))).trans (hsend _)).trans (bears_post _ _ _ _)).trans
    (turn_compareDemand _ u).bears

theorem bears_freshFrom (s : State) : Bears s s.freshFrom where
  tables _ := tablesWf_of (s := State.reset) rfl rfl (fun _ => rfl) rfl Proofs.tablesWf_reset
  settled _ := settledWf_of (s := State.reset) (fun _ => rfl) (fun _ => rfl) Proofs.settledWf_reset

theorem RestartedFrom.bears {s t : State} {v : Int} (h : RestartedFrom s t v) : Bears s t where
  tables k := by
    refine ⟨by rw [h.head]; exact k.caps, by rw [h.pln]; exact k.plan, fun w r hr => ?_, fun l hl => ?_⟩
    · rw [h.waterways] at hr
      obtain ⟨q, hq, rfl⟩ := Option.map_eq_some_iff.mp hr
      exact k.waterways w q hq
    · rw [h.load] at hl
      cases hl
  settled _ := by
    intro u x hx
    rw [h.units] at hx
    cases hx

/-! ## Every command -/

theorem Did.bears {s a m : State} {b : Bool} (h : Did s a b m) (ha : Bears s a) : Bears s m := by
  have fin {x : State} {c : Causes} (k : Bears a x) : Bears s (x.finish s c) := bears_finish (ha.trans k)
  cases h with
  | nothing _ => exact ha
  | fresh => exact bears_freshFrom s
  | restart v => exact ha.trans (restartedFrom_restarted a v).1.bears
  | sent p =>
    refine ha.trans ?_
    unfold State.sendNext
    split
    · exact .refl a
    · exact bears_setPort a p _
    · exact bears_of_eq rfl rfl rfl rfl (fun _ => rfl) fun _ => rfl
  | heard => exact fin (bears_acceptDispatch a)
  | base v i _ => exact fin ((bears_acceptDispatch a).trans (played_applyBase _ v i).bears)
  | reg v _ => exact fin ((bears_acceptDispatch a).trans (played_applyReg _ v).bears)
  | levels up low => exact fin ((bears_acceptDispatch a).trans (bears_applyLevels _ up low))
  | hold u m v _ => exact fin ((bears_acceptDispatch a).trans (bears_setHolds_settled _ u _))
  | release u _ => exact fin ((bears_acceptDispatch a).trans (bears_releaseHold _ u))
  | emergency u => exact (ha.trans (bears_acceptDispatch a)).trans (bears_emergencyEvent _ _ u)
  | emergencyAll => exact (ha.trans (bears_acceptDispatch a)).trans (bears_emergencyAll _ _)
  | param q v n _ _ _ => exact ha.trans (bears_finish (bears_applyParam a q n))
  | loadBegin pos n hn =>
    have hsup : Bears a a.supersede := by
      unfold State.supersede
      split
      · exact .refl a
      · exact bears_post ..
    refine (ha.trans hsup).trans (bears_setLoad _ _ fun _ x hx => ?_)
    obtain rfl := Option.some.inj hx
    exact ⟨hn, List.Pairwise.nil, by simp, by simp⟩
  | loadRow l i row r b hl hi hr =>
    refine ha.trans (bears_setLoad a _ fun k x hx => ?_)
    obtain rfl := Option.some.inj hx
    exact (k.load l hl).stored hi hr
  | unload => exact ha.trans (bears_setLoad a _ fun _ x hx => by cases hx)
  | commit l hl _ whole passes _ =>
    have hunload : Bears a (a.setLoad none) := bears_setLoad a _ fun _ x hx => by cases hx
    exact fin ⟨fun k => tables_commit _ l (k.load l hl) whole passes (hunload.tables k), fun k => settled_commit _ l (hunload.settled k)⟩
  | define field n count interval rep v _ => exact ha.trans (bears_setPrf a _)
  | write field first count values p _ _ => exact ha.trans (bears_setPrf a _)
  | delete n _ =>
    split
    · exact ha.trans ((bears_setPrf a _).trans (bears_setPrf _ _))
    · exact ha.trans (bears_setPrf a _)
  | deleteAll => exact ha.trans ((bears_setPrf a _).trans (bears_setPrf _ _))
  | play n _ => exact fin (played_play a n).bears
  | stopPlay => exact ha.trans (bears_setPrf a _)
  | edge => exact fin (played_activeEdge a).bears
  | boundary => exact fin ((played_boundary a).trans (played_pulse _)).bears
  | holdover _ => exact fin (played_holdover a).bears
  | meetPlan => exact fin (played_meetPlan a).bears
  | meetRamp => exact fin (played_meetRamp a).bears
  | pulseEnd => exact ha.trans (bears_setPrf a _)
  | source src _ _ => exact fin (played_changeSource a src).bears
  | pattern low high period shape => exact fin (played_storePattern a _).bears
  | period r _ => exact fin (played_stepPattern a r).bears
  | enable _ => exact fin (bears_enabled a)
  | disable => exact ha.trans (bears_disabled a)
  | resume _ => exact fin ((bears_setPli a { a.pli with part := .dispatching } rfl rfl).trans (returnToDispatching_run a).bears)
  | map u p _ _ _ => exact fin (bears_remap a u p)
  | expect u n _ => exact ha.trans (bears_setUnit a u _ rfl)
  | rotationSet slots _ => exact fin (bears_of_eq (t := a.setRotation _) rfl rfl rfl rfl (fun _ => rfl) fun _ => rfl)
  | rotate => exact fin (bears_of_eq (t := a.setRotation _) rfl rfl rfl rfl (fun _ => rfl) fun _ => rfl)
  | clear u => exact fin (bears_setUnit a u _ (by rfl))
  | resources u => exact fin ((turn_releaseOrphan a u).trans (turn_releaseObserved _ u)).bears
  | line first l => exact ha.trans (bears_setSte a _)
  | eventRead => exact ha.trans (bears_setSte a _)
  | ident p u n _ _ => exact fin (bears_compareIdent a p u n)
  | status p u r cause _ _ => exact fin ((bears_setPort a p _).trans (bears_acceptStatus _ u r cause))
  | ack p u o accepted cause _ _ _ => exact fin (bears_ackOrder a p u _ accepted cause)
  | tick => exact fin ((bears_setPli a { a.pli with clock := a.clock + 1 } rfl rfl).trans (played_ramp _).bears)
  | linkDown => exact fin (bears_linkDown a)
  | levelStale =>
    have hset : Bears a (a.setHead { a.head with levelTimer := none, stale := true }) :=
      ⟨tablesWf_of rfl rfl (fun _ => rfl) rfl, settledWf_of (fun _ => rfl) fun _ => rfl⟩
    exact (ha.trans hset).trans (bears_post _ _ _ _)
  | dwell _ => exact fin (bears_selectRow true a)
  | backoff u => exact fin (bears_setUnit a u _ (by rfl))
  | lead u r _ _ => exact fin (cascade_orderStep a u).play.bears
  | noAck u r _ _ => exact fin (bears_refuseStep a u _)
  | timeout u r k _ _ => exact fin (bears_timeoutStep a u k)
  | settled w r h => exact fin (TrsMicro.waterway a w r { r with settle := none } h ⟨rfl, .inl (Nat.le_refl _)⟩).turn.bears
  | phase w r h => exact ha.trans (TrsMicro.waterway a w r _ h ⟨r.nextPhase_row _, .inl (r.nextPhase_inProgress _).le⟩).turn.bears
  | probe p _ => exact fin ((bears_probeNow a p).trans (bears_ite _ (bears_setPort _ p _)))
  | lost p _ => exact fin (((bears_leaveQualified a p _).trans (bears_probeNow _ p)).trans (bears_post _ _ _ _))

end Sys2Proof.Machine

namespace Sys2Proof.Proofs
open Sys2Proof.Machine

/-- Settles O11: the tables change by LOAD_END alone, whose checks they have passed, and what changes a record settles the holds again
(`Did.bears`). -/
theorem stepKeepsTablesAndHolds : Obligations.StepKeepsTablesAndHolds := by
  unfold Obligations.StepKeepsTablesAndHolds
  intro s t h
  exact ⟨step_keeps (P := TablesWf) (fun _ _ hf => hf.bears.tables) (fun _ _ _ _ hf hp hd => (hd.bears hf.bears).tables hp) h,
    step_keeps (P := SettledWf) (fun _ _ hf => hf.bears.settled) (fun _ _ _ _ hf hp hd => (hd.bears hf.bears).settled hp) h⟩

end Sys2Proof.Proofs
end

section
/-! What an operation leaves alone besides its own block: the queue of commands, the frames up the plant link, the part state, the liveness timer
and the clock, and in STANDBY the planner and the allocator (O2, O5 to O7). -/

namespace Sys2Proof.Machine

/-! ## Nothing planned, nothing sent up -/

/-- Neither the planner nor the allocator, nor the part state, the liveness timer, the clock, the queue of commands, the frames sent up or the
rotation order. -/
structure Still (s t : State) : Prop where
  pending : t.pending = s.pending
  plantOut : t.plantOut = s.plantOut
  part : t.pli.part = s.pli.part
  liveness : t.pli.liveness = s.pli.liveness
  silent : t.pli.linkSilent = s.pli.linkSilent
  clock : t.clock = s.clock
  pln : t.pln = s.pln
  alc : t.alc = s.alc
  rotation : t.ros.rotation = s.ros.rotation

theorem Still.refl (s : State) : Still s s := ⟨rfl, rfl, rfl, rfl, rfl, rfl, rfl, rfl, rfl⟩

theorem Still.trans {s t r : State} (h : Still s t) (k : Still t r) : Still s r :=
  ⟨k.pending.trans h.pending, k.plantOut.trans h.plantOut, k.part.trans h.part, k.liveness.trans h.liveness, k.silent.trans h.silent,
    k.clock.trans h.clock, k.pln.trans h.pln, k.alc.trans h.alc, k.rotation.trans h.rotation⟩

theorem Still.foldl {α : Type} {f : State → α → State} (h : ∀ s a, Still s (f s a)) (xs : List α) (s : State) : Still s (xs.foldl f s) := by
  induction xs generalizing s with
  | nil => exact .refl s
  | cons x xs ih => exact (h s x).trans (ih _)

theorem still_ite {s t : State} (c : Prop) [Decidable c] (h : Still s t) : Still s (if c then t else s) := by
  split
  · exact h
  · exact .refl s

/-- The same queue, PLI record, planner and allocator, and nothing sent up. -/
theorem still_of_eq {s t : State} (pending : t.pending = s.pending) (plantOut : t.plantOut = s.plantOut) (pli : t.pli = s.pli)
    (pln : t.pln = s.pln) (alc : t.alc = s.alc) (rotation : t.ros.rotation = s.ros.rotation) : Still s t :=
  ⟨pending, plantOut, by rw [pli], by rw [pli], by rw [pli], State.clock_congr pli, pln, alc, rotation⟩

theorem Turn.still {s t : State} (h : Turn s t) : Still s t :=
  have f := h.frame
  still_of_eq f.cascade.pending f.cascade.plantOut f.cascade.pli f.pln f.alc (by rw [f.ros])

theorem RosFrame.still {s t : State} (h : RosFrame s t) : Still s t := still_of_eq h.pending h.plantOut h.pli h.pln h.alc h.rotation

theorem still_setPort (s : State) (p : Port) (r : PortRec) : Still s (s.setPort p r) := still_of_eq rfl rfl rfl rfl rfl rfl
theorem still_setUnit (s : State) (u : Slot) (r : UnitRec) : Still s (s.setUnit u r) := still_of_eq rfl rfl rfl rfl rfl rfl
theorem still_setHead (s : State) (b : Head) : Still s (s.setHead b) := still_of_eq rfl rfl rfl rfl rfl rfl
theorem still_setTgt (s : State) (b : Tgt) : Still s (s.setTgt b) := still_of_eq rfl rfl rfl rfl rfl rfl
theorem still_setPrf (s : State) (b : Prf) : Still s (s.setPrf b) := still_of_eq rfl rfl rfl rfl rfl rfl
theorem still_setSte (s : State) (b : Ste) : Still s (s.setSte b) := still_of_eq rfl rfl rfl rfl rfl rfl
theorem still_setTrs (s : State) (b : Trs) : Still s (s.setTrs b) := still_of_eq rfl rfl rfl rfl rfl rfl
theorem still_post (s : State) (k : EventKind) (u : Option Slot) (v : Option Int) : Still s (s.post k u v) := still_of_eq rfl rfl rfl rfl rfl rfl
theorem still_setReq (s : State) (u : Slot) (r : Option Request) : Still s (s.setReq u r) := still_of_eq rfl rfl rfl rfl rfl rfl

theorem still_setLoad (s : State) (l : Option Load) : Still s (s.setLoad l) := ⟨rfl, rfl, rfl, rfl, rfl, rfl, rfl, rfl, rfl⟩
theorem still_setWaterway (s : State) (w : Waterway) (r : WaterwayRec) : Still s (s.setWaterway w r) :=
  still_of_eq (by simp) (by simp) (by simp) (by simp) (by simp) (by simp)

theorem still_ceaseOrder (s : State) (u : Slot) (q : Purpose) : Still s (s.ceaseOrder u q) := by
  unfold State.ceaseOrder
  split
  · exact .refl s
  · exact still_ite _ (still_setPort ..)

theorem still_beginSending (s : State) (p : Port) (f : UnitFrame) : Still s (s.beginSending p f) := still_of_eq rfl rfl rfl rfl rfl rfl

theorem still_hand (s : State) (p : Port) (f : UnitFrame) : Still s (s.hand p f) := still_of_eq (by simp) (by simp) (by simp) (by simp) (by simp) (by simp)

theorem still_sendOrder (s : State) (p : Port) (k : StepKind) (c : Option Conv) (q : Purpose) : Still s (s.sendOrder p k c q) :=
  (still_setPort s p _).trans (still_hand _ p _)

theorem still_probeNow (s : State) (p : Port) : Still s (s.probeNow p) := by
  obtain ⟨ports, out, h⟩ := probeNow_eq s p
  rw [h]
  exact still_of_eq rfl rfl rfl rfl rfl rfl

/-! ## Holds, reports, ports -/

theorem still_releaseHold (s : State) (u : Slot) : Still s (s.releaseHold u) :=
  ((still_setUnit s u _).trans (still_ceaseOrder _ u _)).trans (turn_makeAutomatic _ u).still

theorem still_sendEmergencyStop (s : State) (u : Slot) (h : Hold) : Still s (s.sendEmergencyStop u h) := by
  unfold State.sendEmergencyStop
  split
  · exact .refl s
  · exact (still_sendOrder s _ _ _ _).trans (still_setUnit _ u _)

theorem still_emergencyStop (s : State) (u : Slot) : Still s (s.emergencyStop u) := by
  rw [emergencyStop_eq]
  exact ((still_setUnit s u _).trans (turn_cancelRequest _ u).still).trans (still_ite _ (still_sendEmergencyStop _ u _))

theorem still_formEstimate (s : State) : Still s s.formEstimate := by
  unfold State.formEstimate
  split
  · exact .refl s
  · exact still_setHead s _

theorem still_applyLevels (s : State) (up low : Nat) : Still s (s.applyLevels up low) :=
  (((still_setHead s _).trans (still_formEstimate _)).trans (still_setHead _ _)).trans (resettle_effect _ _).1.still

theorem still_watchEmergency (s : State) (u : Slot) (m : Reported) : Still s (s.watchEmergency u m) := by
  unfold State.watchEmergency
  split
  · exact .refl s
  · split
    · exact .refl s
    · split
      · split
        · exact .refl s
        · exact still_sendEmergencyStop ..
      · exact (still_setUnit s u _).trans (still_ceaseOrder _ u _)

theorem still_acceptStatus (s : State) (u : Slot) (r : Report) (cause : Byte) : Still s (s.acceptStatus u r cause) :=
  ((still_setUnit s u _).trans (still_ite _ ((still_setUnit _ u _).trans (still_post ..)))).trans
    ((((still_watchEmergency _ u _).trans (turn_supervise _ u _ _).still).trans (turn_watchConverters _ u _ _).still).trans
      (still_ite _ (turn_compareDemand _ u).still))

theorem still_leaveQualified (s : State) (p : Port) (st : PortState) : Still s (s.leaveQualified p st) := by
  unfold State.leaveQualified
  dsimp only
  split
  · exact still_setPort s p _
  · exact ((still_setPort s p _).trans (still_setUnit _ _ _)).trans (turn_orphanRequest _ _).still

theorem still_remap (s : State) (u : Slot) (p : Option Port) : Still s (s.remap u p) := by
  have haway (old : Port) : Still s (s.takePortAway u old) := by
    unfold State.takePortAway
    dsimp only
    split
    · exact (still_leaveQualified s old _).trans (still_setUnit _ u _)
    · exact (still_setPort s old _).trans (still_setUnit _ u _)
  have hless : Still s (s.portless u) := by
    unfold State.portless
    split
    · exact haway _
    · exact .refl s
  rw [show s.remap u p = State.given (s.portless u) u p from remap_eq s u p]
  cases p with
  | none => exact hless
  | some q => exact hless.trans (((still_setUnit _ u _).trans (still_setPort _ q _)).trans (still_probeNow _ q))

theorem still_compareIdent (s : State) (p : Port) (u : Slot) (n : Byte) : Still s (s.compareIdent p u n) := by
  have hmismatch (x : State) : Still x ((x.setPortState p .mismatch).post .portMismatch (some u) (some n.toNat)) := still_of_eq rfl rfl rfl rfl rfl rfl
  unfold State.compareIdent
  dsimp only
  refine Still.trans (t := s.setPort p { s.portRec p with lastMachine := some n }) (still_setPort s p _) ?_
  generalize s.setPort p { s.portRec p with lastMachine := some n } = x
  split
  · exact still_ite _ ((still_setPort x p _).trans (still_post ..))
  · split
    · exact ((still_leaveQualified x p _).trans (still_probeNow _ p)).trans (still_post ..)
    · exact hmismatch x
    · exact hmismatch x
    · exact hmismatch x
    · exact .refl x
    · exact .refl x

/-! ## Steps -/

theorem still_refuseStep (s : State) (u : Slot) (cause : Int) : Still s (s.refuseStep u cause) := by
  have hback (x : State) : Still x (if x.params.refusalBackoff = 0 then x
      else x.setUnit u { x.unitRec u with backoff := some (later x.clock x.params.refusalBackoff) }) := by
    split
    · exact .refl x
    · exact still_setUnit x u _
  exact (((turn_failRequest s u false).still.trans (hback _)).trans (still_post ..)).trans (turn_compareDemand _ u).still

theorem still_ackOrder (s : State) (p : Port) (u : Slot) (q : Purpose) (accepted : Bool) (cause : Byte) :
    Still s (s.ackOrder p u q accepted cause) := by
  have hclear : Still s (s.clearOutstanding p) := still_setPort s p _
  unfold State.ackOrder
  split
  · unfold State.ackSupervised
    split
    · exact .refl s
    · split
      · exact .refl s
      · split
        · exact still_setReq s u _
        · exact still_refuseStep s u _
  · split
    · exact hclear
    · exact hclear.trans (still_post ..)
  · exact hclear

theorem still_orderStep (s : State) (u : Slot) : Still s (s.orderStep u) := by
  unfold State.orderStep
  split
  · split
    · exact .refl s
    · exact ((still_sendOrder s _ _ _ _).trans (still_setReq _ u _)).trans (still_post ..)
  · exact .refl s

theorem still_timeoutStep (s : State) (u : Slot) (k : StepKind) : Still s (s.timeoutStep u k) := by
  have hsend (x : State) : Still x (x.sendTimeoutStop u k) := by
    unfold State.sendTimeoutStop
    split
    · exact .refl x
    · exact still_ite _ (still_sendOrder ..)
  exact ((((turn_failRequest s u true).still.trans (still_setUnit _ u _)).trans (hsend _)).trans (still_post ..)).trans
    (turn_compareDemand _ u).still

/-! ## Parameters -/

theorem still_writeParam (s : State) (q : Param) (n : Nat) : Still s (s.writeParam q n) := by
  cases q <;> exact ⟨rfl, rfl, rfl, rfl, rfl, rfl, rfl, rfl, rfl⟩

/-! ## With what a command causes -/

/-- As `Still`, with the planner and the allocator left alone in STANDBY. -/
structure Calm (s t : State) : Prop where
  pending : t.pending = s.pending
  plantOut : t.plantOut = s.plantOut
  part : t.pli.part = s.pli.part
  liveness : t.pli.liveness = s.pli.liveness
  silent : t.pli.linkSilent = s.pli.linkSilent
  clock : t.clock = s.clock
  idle : s.pli.part = .standby → t.alc = s.alc ∧ t.pln.selected = s.pln.selected ∧ t.pln.proposal = s.pln.proposal
    ∧ t.pln.desired = s.pln.desired

theorem Still.calm {s t : State} (h : Still s t) : Calm s t :=
  ⟨h.pending, h.plantOut, h.part, h.liveness, h.silent, h.clock, fun _ => by rw [h.alc, h.pln]; exact ⟨rfl, rfl, rfl, rfl⟩⟩

theorem Calm.refl (s : State) : Calm s s := (Still.refl s).calm

theorem Calm.trans {s t r : State} (h : Calm s t) (k : Calm t r) : Calm s r where
  pending := k.pending.trans h.pending
  plantOut := k.plantOut.trans h.plantOut
  part := k.part.trans h.part
  liveness := k.liveness.trans h.liveness
  silent := k.silent.trans h.silent
  clock := k.clock.trans h.clock
  idle hp := by
    obtain ⟨ha, hs, hq, hd⟩ := h.idle hp
    obtain ⟨ka, ks, kq, kd⟩ := k.idle (h.part.trans hp)
    exact ⟨ka.trans ha, ks.trans hs, kq.trans hq, kd.trans hd⟩

theorem Calm.foldl {α : Type} {f : State → α → State} (h : ∀ s a, Calm s (f s a)) (xs : List α) (s : State) : Calm s (xs.foldl f s) := by
  induction xs generalizing s with
  | nil => exact .refl s
  | cons x xs ih => exact (h s x).trans (ih _)

/-- A frame, with the planner's and the allocator's fields in STANDBY. -/
theorem PlayFrame.calm {s t : State} (h : PlayFrame s t)
    (idle : s.governs = false → t.alc = s.alc ∧ t.pln.selected = s.pln.selected ∧ t.pln.proposal = s.pln.proposal
      ∧ t.pln.desired = s.pln.desired) : Calm s t :=
  ⟨h.pending, h.plantOut, by rw [h.pli], by rw [h.pli], by rw [h.pli], h.clock, fun hp => idle (by rw [State.governs, hp]; rfl)⟩

theorem calm_selectRow {s : State} (expired : Bool) (hg : s.governs = true) : Calm s (State.selectRow expired s) :=
  (select_selectRow expired s).toPlayFrame.calm fun h => by rw [hg] at h; cases h

theorem Played.calm {s t : State} (h : Played s t) : Calm s t := by
  induction h with
  | refl => exact .refl s
  | step _ k ih =>
    refine ih.trans ?_
    cases k with
    | tgt b => exact (still_setTgt _ b).calm
    | prf b => exact (still_setPrf _ b).calm
    | post k u v => exact (still_post _ k u v).calm
    | select hg => exact calm_selectRow false hg

/-- In STANDBY no assignment follows a command (R43). -/
theorem turn_planStage_standby {s : State} (hg : s.governs = false) (before : State) (c : Causes) : Turn s (s.planStage before c) := by
  have hdrop : Turn s (Slot.all.foldl (State.dropGrant before) s) := .foldl (turn_dropGrant before) _ _
  have hg' : (Slot.all.foldl (State.dropGrant before) s).governs = false := by rw [hdrop.frame.cascade.play.governs, hg]
  unfold State.planStage
  refine hdrop.trans ?_
  generalize Slot.all.foldl (State.dropGrant before) s = x at hg'
  have hplan : State.replan before x = x := by
    unfold State.replan
    rw [hg']
    rfl
  dsimp only
  rw [hplan, ite_self]
  exact .foldl turn_takeDemand _ _

/-- In STANDBY what follows a command touches the scheduler alone (R43, R67, R91). -/
theorem turn_finish_standby {s : State} (hg : s.governs = false) (before : State) (c : Causes) : Turn s (s.finish before c) := by
  have hplan := turn_planStage_standby hg before c
  have hgrant := hplan.trans (turn_grantStage (s.planStage before c) before c)
  have hg' : ((s.planStage before c).grantStage before c).governs = false := by rw [hgrant.frame.cascade.play.governs, hg]
  unfold State.finish State.allocStage
  rw [hg', Bool.false_and]
  exact hgrant

theorem calm_finish (s before : State) (c : Causes) : Calm s (s.finish before c) :=
  (cascade_finish s before c).play.calm fun hg => by
    have h := (turn_finish_standby hg before c).still
    rw [h.alc, h.pln]
    exact ⟨rfl, rfl, rfl, rfl⟩

/-- A mode plan committed in STANDBY selects nothing (R41). -/
theorem calm_commitPlan (s : State) (rows : List PlanRow) : Calm s (s.commitPlan rows) := by
  have hset : Calm s ((s.setPln { s.pln with table := some rows }).post .tableCommitted none (some (tablePosCode .plan))) :=
    ⟨rfl, rfl, rfl, rfl, rfl, rfl, fun _ => ⟨rfl, rfl, rfl, rfl⟩⟩
  unfold State.commitPlan
  dsimp only
  refine hset.trans ?_
  generalize (s.setPln { s.pln with table := some rows }).post .tableCommitted none (some (tablePosCode .plan)) = x
  have hrow : SelectFrame x ((x.setPln { x.pln with selected := none, proposal := none }).selectRow false) :=
    (select_setPln x { x.pln with selected := none, proposal := none } rfl).trans (select_selectRow false _)
  split
  · rename_i hg
    exact hrow.play.calm fun h => by rw [hg] at h; cases h
  · exact .refl x

theorem calm_commit (s : State) (l : Load) : Calm s (s.commit l) := by
  unfold State.commit
  split
  · exact (((still_setHead s _).trans (still_post ..)).trans (settleHold_effect _ _).1.still).calm
  · exact calm_commitPlan s _
  · exact ((still_setTrs s _).trans (still_post ..)).calm

theorem calm_applyParam (s : State) (q : Param) (n : Nat) : Calm s (State.applyParam s (s.writeParam q n) q) := by
  refine (still_writeParam s q n).calm.trans ?_
  generalize s.writeParam q n = x
  cases q with
  | headLoss => exact ((still_formEstimate x).trans (resettle_effect _ _).1.still).calm
  | headOverride => exact (resettle_effect _ x).1.still.calm
  | rampRate => exact (still_ite _ (still_setTgt x _)).calm
  | regLimit => exact (still_setTgt x _).calm
  | planAdvance => exact (played_meetDue x).calm
  | rampAdvance => exact (played_meetDue x).calm
  | markerMode => exact (still_setPrf x _).calm
  | markerDivider => exact (still_setPrf x _).calm
  | markerPolarity => exact ((still_setPrf x _).trans (still_setPrf _ _)).calm
  | _ => exact .refl x

theorem calm_setRotation (s : State) (o : List Slot) : Calm s (s.setRotation o) :=
  ⟨rfl, rfl, rfl, rfl, rfl, rfl, fun _ => ⟨rfl, rfl, rfl, rfl⟩⟩

/-! ## Every command that moves no part state -/

theorem Did.calm {s a m : State} (h : Did s a false m) : Calm a m := by
  have fin {x : State} {c : Causes} (k : Calm a x) : Calm a (x.finish s c) := k.trans (calm_finish x s c)
  cases h with
  | nothing => exact .refl a
  | sent p =>
    unfold State.sendNext
    split
    · exact .refl a
    · exact (still_setPort a p _).calm
    · rename_i f rest _ _
      exact ((still_setPort a p _).trans (still_beginSending _ p f)).calm
  | param q v n _ _ _ => exact (calm_applyParam a q n).trans (calm_finish _ _ _)
  | loadBegin pos n hn =>
    have hsup : Still a a.supersede := by
      unfold State.supersede
      split
      · exact .refl a
      · exact still_post ..
    exact (hsup.trans (still_setLoad _ _)).calm
  | loadRow l i row r b _ _ _ => exact (still_setLoad a _).calm
  | unload => exact (still_setLoad a _).calm
  | commit l _ _ _ _ _ => exact fin ((still_setLoad a none).calm.trans (calm_commit _ l))
  | define field n count interval rep v _ => exact (still_setPrf a _).calm
  | write field first count values p _ _ => exact (still_setPrf a _).calm
  | delete n _ =>
    split
    · exact ((still_setPrf a _).trans (still_setPrf _ _)).calm
    · exact (still_setPrf a _).calm
  | deleteAll => exact ((still_setPrf a _).trans (still_setPrf _ _)).calm
  | play n _ => exact fin (played_play a n).calm
  | stopPlay => exact (still_setPrf a _).calm
  | edge => exact fin (played_activeEdge a).calm
  | boundary => exact fin ((played_boundary a).trans (played_pulse _)).calm
  | holdover _ => exact fin (played_holdover a).calm
  | meetPlan => exact fin (played_meetPlan a).calm
  | meetRamp => exact fin (played_meetRamp a).calm
  | pulseEnd => exact (still_setPrf a _).calm
  | source src _ _ => exact fin (played_changeSource a src).calm
  | pattern low high period shape => exact fin (played_storePattern a _).calm
  | period r _ => exact fin (played_stepPattern a r).calm
  | map u p _ _ _ => exact fin (still_remap a u p).calm
  | expect u n _ => exact (still_setUnit a u _).calm
  | rotationSet slots _ => exact fin (calm_setRotation a _)
  | rotate => exact fin (calm_setRotation a _)
  | clear u => exact fin (still_setUnit a u _).calm
  | resources u => exact fin ((turn_releaseOrphan a u).trans (turn_releaseObserved _ u)).still.calm
  | line first l => exact (still_setSte a _).calm
  | eventRead => exact (still_setSte a _).calm
  | ident p u n _ _ => exact fin (still_compareIdent a p u n).calm
  | status p u r cause _ _ => exact fin ((still_setPort a p _).trans (still_acceptStatus _ u r cause)).calm
  | ack p u o accepted cause _ _ _ => exact fin (still_ackOrder a p u _ accepted cause).calm
  | levelStale => exact ((still_setHead a _).trans (still_post ..)).calm
  | dwell hg => exact fin (calm_selectRow true hg)
  | backoff u => exact fin (still_setUnit a u _).calm
  | lead u r _ _ => exact fin (still_orderStep a u).calm
  | noAck u r _ _ => exact fin (still_refuseStep a u _).calm
  | timeout u r k _ _ => exact fin (still_timeoutStep a u k).calm
  | settled w r _ => exact fin (still_setWaterway a w _).calm
  | phase w r _ => exact (still_setWaterway a w _).calm
  | probe p _ => exact fin ((still_probeNow a p).trans (still_ite _ (still_setPort _ p _))).calm
  | lost p _ => exact fin (((still_leaveQualified a p _).trans (still_probeNow _ p)).trans (still_post ..)).calm

end Sys2Proof.Machine
end

section
/-! The rules of the whole part: every command completes (O2), what it sends up the plant link (O5), the part state, the liveness timer and the
clock that it leaves (O6), and STANDBY (O7). -/

namespace Sys2Proof.Machine

/-! ## The frames found in a discarded one -/

/-- The command is one that a frame makes. -/
def isFrame : Instr → Bool
  | .powerOn | .resetInput | .partClockAdvance | .frameDiscarded .. | .framerIdleTimeout .. | .transmitComplete ..
  | .markerInputEdge .. | .dispatchLivenessExpiry | .levelTimerExpiry | .dwellTimerExpiry | .backoffExpiry ..
  | .leadTimerExpiry .. | .ackTimerExpiry .. | .stepTimerExpiry .. | .settleTimerExpiry .. | .warningPhaseEnd ..
  | .probeTimerExpiry .. | .statusLivenessExpiry .. | .intervalTimerBoundary | .planSwitchingTime | .rampSwitchingTime
  | .holdoverBoundary | .patternPeriodExpiry | .markerPulseEnd => false
  | _ => true

theorem receive_frame {c : Instr} (h : isFrame c = true) (s : State) : receive c s = exec c s := by
  cases c with
  | powerOn | resetInput | partClockAdvance | frameDiscarded | framerIdleTimeout | transmitComplete | markerInputEdge
  | dispatchLivenessExpiry | levelTimerExpiry | dwellTimerExpiry | backoffExpiry | leadTimerExpiry | ackTimerExpiry
  | stepTimerExpiry | settleTimerExpiry | warningPhaseEnd | probeTimerExpiry | statusLivenessExpiry | intervalTimerBoundary
  | planSwitchingTime | rampSwitchingTime | holdoverBoundary | patternPeriodExpiry | markerPulseEnd => cases h
  | _ => rfl

theorem isFrame_undiscarded {c : Instr} (h : isFrame c = true) : isDiscarded c = false := by
  cases c with
  | frameDiscarded => cases h
  | _ => rfl

/-- A list of at most seven elements, or a longer one. -/
theorem by_length {α : Type} {P : List α → Prop} (h0 : P []) (h1 : ∀ a, P [a]) (h2 : ∀ a b, P [a, b]) (h3 : ∀ a b c, P [a, b, c])
    (h4 : ∀ a b c d, P [a, b, c, d]) (h5 : ∀ a b c d e, P [a, b, c, d, e]) (h6 : ∀ a b c d e f, P [a, b, c, d, e, f])
    (h7 : ∀ a b c d e f g, P [a, b, c, d, e, f, g]) (h8 : ∀ a b c d e f g h l, P (a :: b :: c :: d :: e :: f :: g :: h :: l)) : ∀ p, P p
  | [] => h0
  | [a] => h1 a
  | [a, b] => h2 a b
  | [a, b, c] => h3 a b c
  | [a, b, c, d] => h4 a b c d
  | [a, b, c, d, e] => h5 a b c d e
  | [a, b, c, d, e, f] => h6 a b c d e f
  | [a, b, c, d, e, f, g] => h7 a b c d e f g
  | a :: b :: c :: d :: e :: f :: g :: h :: l => h8 a b c d e f g h l

theorem isFrame_decodeDispatch (kind : Byte) (p : List Byte) : (decodeDispatch kind p).all isFrame = true := by
  unfold decodeDispatch
  generalize kind.toNat = k
  by_cases hk : k < 7
  · revert p
    interval_cases k <;> exact by_length rfl (fun _ => rfl) (fun _ _ => rfl) (fun _ _ _ => rfl) (fun _ _ _ _ => rfl)
      (fun _ _ _ _ _ => rfl) (fun _ _ _ _ _ _ => rfl) (fun _ _ _ _ _ _ _ => rfl) (fun _ _ _ _ _ _ _ _ _ => rfl)
  · obtain ⟨n, rfl⟩ := Nat.exists_eq_add_of_le' (not_lt.mp hk)
    rfl

theorem isFrame_decodePlain (kind tag : Byte) (p : List Byte) : (decodePlain kind tag p).all isFrame = true := by
  unfold decodePlain
  generalize kind.toNat = k
  by_cases hk : k < 27
  · revert p
    interval_cases k <;> exact by_length rfl (fun _ => rfl) (fun _ _ => rfl) (fun _ _ _ => rfl) (fun _ _ _ _ => rfl)
      (fun _ _ _ _ _ => rfl) (fun _ _ _ _ _ _ => rfl) (fun _ _ _ _ _ _ _ => rfl) (fun _ _ _ _ _ _ _ _ _ => rfl)
  · obtain ⟨n, rfl⟩ := Nat.exists_eq_add_of_le' (not_lt.mp hk)
    rfl

theorem isFrame_decodeQuery (kind tag : Byte) (p : List Byte) : (decodeQuery kind tag p).all isFrame = true := by
  unfold decodeQuery
  generalize kind.toNat = k
  by_cases hk : k < 6
  · revert p
    interval_cases k <;> exact by_length rfl (fun _ => rfl) (fun _ _ => rfl) (fun _ _ _ => rfl) (fun _ _ _ _ => rfl)
      (fun _ _ _ _ _ => rfl) (fun _ _ _ _ _ _ => rfl) (fun _ _ _ _ _ _ _ => rfl) (fun _ _ _ _ _ _ _ _ _ => rfl)
  · obtain ⟨n, rfl⟩ := Nat.exists_eq_add_of_le' (not_lt.mp hk)
    rfl

theorem isFrame_decodeDefine (tag : Byte) (name p : List Byte) : (decodeDefine tag name p).all isFrame = true := by
  revert p
  exact by_length rfl (fun _ => rfl) (fun _ _ => rfl) (fun _ _ _ => rfl) (fun _ _ _ _ => rfl)
    (fun _ _ _ _ _ => rfl) (fun _ _ _ _ _ _ => rfl) (fun _ _ _ _ _ _ _ => rfl) (fun _ _ _ _ _ _ _ _ _ => rfl)

theorem isFrame_decodeWrite (tag : Byte) (name p : List Byte) : (decodeWrite tag name p).all isFrame = true := by
  unfold decodeWrite
  split
  · split
    · cases halvesOf _ <;> rfl
    · rfl
  · rfl

theorem isFrame_decodeNamed (kind tag : Byte) (name p : List Byte) : (decodeNamed kind tag name p).all isFrame = true := by
  unfold decodeNamed
  generalize kind.toNat = k
  by_cases h7 : k = 7
  · subst h7
    exact isFrame_decodeDefine tag name p
  · by_cases h8 : k = 8
    · subst h8
      exact isFrame_decodeWrite tag name p
    · by_cases hk : k < 13
      · have hk : k < 7 ∨ 8 < k ∧ k < 13 := by omega
        revert p
        rcases hk with hk | ⟨hlo, hhi⟩
        · interval_cases k <;>
            exact by_length rfl (fun _ => rfl) (fun _ _ => rfl) (fun _ _ _ => rfl) (fun _ _ _ _ => rfl) (fun _ _ _ _ _ => rfl)
              (fun _ _ _ _ _ _ => rfl) (fun _ _ _ _ _ _ _ => rfl) (fun _ _ _ _ _ _ _ _ _ => rfl)
        · interval_cases k <;>
            exact by_length rfl (fun _ => rfl) (fun _ _ => rfl) (fun _ _ _ => rfl) (fun _ _ _ _ => rfl) (fun _ _ _ _ _ => rfl)
              (fun _ _ _ _ _ _ => rfl) (fun _ _ _ _ _ _ _ => rfl) (fun _ _ _ _ _ _ _ _ _ => rfl)
      · obtain ⟨n, rfl⟩ := Nat.exists_eq_add_of_le' (not_lt.mp hk)
        rfl

theorem isFrame_decodeManage (kind tag : Byte) (p : List Byte) : (decodeManage kind tag p).all isFrame = true := by
  unfold decodeManage
  split
  · split
    · rfl
    · exact isFrame_decodeNamed ..
  · exact isFrame_decodePlain ..

theorem isFrame_decodePlant (cls kind tag : Byte) (p : List Byte) : isFrame (decodePlant cls kind tag p) = true := by
  have known {o : Option Instr} (h : o.all isFrame = true) : isFrame (o.getD (.unknownFrame cls kind tag)) = true := by
    cases o with
    | none => rfl
    | some c => exact h
  unfold decodePlant
  refine known ?_
  split
  · exact isFrame_decodeDispatch ..
  · exact isFrame_decodeManage ..
  · exact isFrame_decodeQuery ..
  · rfl

theorem isFrame_decodeUnit (p : Port) (kind : Byte) (body : List Byte) : isFrame (decodeUnit p kind body) = true := by
  unfold decodeUnit
  split <;> rfl

theorem isFrame_of_framesIn {l : Link} {bytes : List Byte} {c : Instr} (h : c ∈ framesIn l bytes) : isFrame c = true := by
  obtain ⟨body, -, hc⟩ := List.mem_filterMap.mp h
  unfold decodeBody at hc
  split at hc
  · exact Option.some.inj hc ▸ isFrame_decodePlant ..
  · exact Option.some.inj hc ▸ isFrame_decodeUnit ..
  · cases hc

/-- Frames received are carried out one after another (R155). -/
theorem receiveAll_carried (cs : List Instr) (hf : ∀ c ∈ cs, isFrame c = true) :
    ∀ s, ∃ t, receiveAll cs s = .next t ∧ Carried cs s t := by
  induction cs with
  | nil => exact fun s => ⟨s, rfl, .nil s⟩
  | cons c cs ih =>
    intro s
    have hc := hf c List.mem_cons_self
    obtain ⟨_, _, m, hm, -⟩ := carries c s (isFrame_undiscarded hc)
    obtain ⟨t, ht, hct⟩ := ih (fun d hd => hf d (List.mem_cons_of_mem c hd)) m
    exact ⟨t, by simp [receiveAll, receive_frame hc, hm, ht], .cons hm hct⟩

/-- A discarded frame gets what the frames found in it get, and the framer holds what is still incomplete (R181). -/
theorem frameDiscarded_carried (l : Link) (bytes : List Byte) (s : State) : ∃ m, Carried (framesIn l bytes.tail) s m
    ∧ exec (.frameDiscarded l bytes) s = .next (m.setFramer l (hunt l bytes.tail).held) := by
  obtain ⟨m, hm, hc⟩ := receiveAll_carried (framesIn l bytes.tail) (fun _ => isFrame_of_framesIn) s
  refine ⟨m, hc, ?_⟩
  show execFrameDiscarded l bytes s = _
  simp only [execFrameDiscarded, hm]

/-! ## What every command leaves alone -/

/-- The planner and the allocator as after RESTART. -/
def State.unplanned (s : State) : Prop :=
  s.alc = .cleared ∧ s.pln.selected = none ∧ s.pln.proposal = none ∧ ∀ u, s.pln.desired.get u = none

/-- The same planning. -/
def State.plannedAs (s t : State) : Prop :=
  t.alc = s.alc ∧ t.pln.selected = s.pln.selected ∧ t.pln.proposal = s.pln.proposal ∧ t.pln.desired = s.pln.desired

/-- The queue of commands is left alone; and in STANDBY nothing is planned. -/
structure Aside (s t : State) : Prop where
  pending : t.pending = s.pending
  idle : t.pli.part = .standby → (s.pli.part = .standby ∧ s.plannedAs t) ∨ t.unplanned

theorem Aside.refl (s : State) : Aside s s := ⟨rfl, fun h => .inl ⟨h, rfl, rfl, rfl, rfl⟩⟩

theorem Aside.trans {s t r : State} (h : Aside s t) (k : Aside t r) : Aside s r where
  pending := k.pending.trans h.pending
  idle hr := by
    rcases k.idle hr with ⟨ht, ka, ks, kp, kd⟩ | kc
    · rcases h.idle ht with ⟨hs, ha, hsel, hp, hd⟩ | ⟨ha, hsel, hp, hd⟩
      · exact .inl ⟨hs, ka.trans ha, ks.trans hsel, kp.trans hp, kd.trans hd⟩
      · exact .inr ⟨ka.trans ha, ks.trans hsel, kp.trans hp, fun u => by rw [kd, hd]⟩
    · exact .inr kc

theorem Calm.aside {s t : State} (h : Calm s t) : Aside s t :=
  ⟨h.pending, fun ht => have hs := h.part ▸ ht; .inl ⟨hs, h.idle hs⟩⟩

/-- The part state is written, and STANDBY is neither left nor entered. -/
theorem aside_setPli (s : State) (b : Pli) (h : b.part = .standby ↔ s.pli.part = .standby) : Aside s (s.setPli b) :=
  ⟨rfl, fun ht => .inl ⟨h.mp ht, rfl, rfl, rfl, rfl⟩⟩

theorem aside_acceptDispatch (s : State) : Aside s s.acceptDispatch := by
  obtain ⟨b, -, hp, h⟩ := acceptDispatch_run s
  exact (aside_setPli s b hp).trans h.calm.aside

theorem aside_linkDown (s : State) : Aside s s.linkDown := by
  obtain ⟨b, -, hp, h⟩ := linkDown_run s
  exact (aside_setPli s b hp).trans h.calm.aside

theorem calm_emergencyEvent (before s : State) (u : Slot) : Calm s (State.emergencyEvent before s u) :=
  (still_emergencyStop s u).calm.trans (calm_finish _ _ _)

theorem calm_emergencyAll (before s : State) : Calm s (State.emergencyAll before s) :=
  (calm_emergencyEvent before s .u1).trans (.foldl (fun t u => calm_emergencyEvent t t u) _ _)

theorem RestartedFrom.aside {s t : State} {v : Int} (h : RestartedFrom s t v) : Aside s t where
  pending := h.pending
  idle _ := .inr ⟨h.alc, by rw [h.pln]; rfl, by rw [h.pln]; rfl, fun u => by rw [h.pln]; exact SlotMap.get_const ..⟩

/-- ENABLE leaves the PLI's record as its entry writes it. -/
theorem enabled_pli (s : State) : s.enabled.pli = s.entered.pli ∧ s.enabled.pending = s.pending ∧ s.enabled.plantOut = s.plantOut := by
  have hheld := (turn_compareHeld_fold s.ros.rotation s.entered).frame.cascade.play
  have hrow := (select_selectRow false (s.ros.rotation.foldl State.compareHeld s.entered)).play
  have hkeep : Still ((s.ros.rotation.foldl State.compareHeld s.entered).selectRow false) s.enabled :=
    .foldl (fun x u => still_ite _ (still_setReq x u _)) _ _
  have hpli : ∀ (us : List Slot) (x : State), (us.foldl (State.keepStep s) x).pli = x.pli := by
    intro us
    induction us with
    | nil => exact fun _ => rfl
    | cons u us ih =>
      intro x
      rw [List.foldl_cons, ih, State.keepStep]
      split <;> rfl
  exact ⟨((hpli _ _).trans hrow.pli).trans hheld.pli, (hkeep.pending.trans hrow.pending).trans hheld.pending,
    (hkeep.plantOut.trans hrow.plantOut).trans hheld.plantOut⟩

/-! ## Every command -/

theorem disabled_fields (s : State) : s.disabled.pending = s.pending ∧ s.disabled.plantOut = s.plantOut ∧ s.disabled.unplanned
    ∧ s.disabled.pli = { s.pli with part := .standby } := by
  have hpost : PlayFrame (s.setPli { s.pli with part := .standby })
      (if s.inFallback = true then (s.setPli { s.pli with part := .standby }).post .fallbackLeft none (some 0)
        else s.setPli { s.pli with part := .standby }) := by
    split
    · exact (cascade_post ..).play
    · exact .refl _
  have hfold := hpost.trans (disable_fold Slot.all Slot.all_nodup _).1.play
  exact ⟨hfold.pending, hfold.plantOut, ⟨rfl, rfl, rfl, fun u => SlotMap.get_const none u⟩, hfold.pli⟩

theorem Did.aside {s a m : State} {b : Bool} (h : Did s a b m) (ha : Taken s a) : Aside a m := by
  have fin {x : State} {c : Causes} (k : Aside a x) : Aside a (x.finish s c) := k.trans (calm_finish x s c).aside
  cases b with
  | false => exact h.calm.aside
  | true =>
    cases h with
    | nothing => exact .refl a
    | fresh => exact ⟨ha.pending.symm, fun _ => .inr ⟨rfl, rfl, rfl, fun u => SlotMap.get_const none u⟩⟩
    | restart v => exact (restartedFrom_restarted a v).1.aside
    | heard => exact fin (aside_acceptDispatch a)
    | base v i _ => exact fin ((aside_acceptDispatch a).trans (played_applyBase _ v i).calm.aside)
    | reg v _ => exact fin ((aside_acceptDispatch a).trans (played_applyReg _ v).calm.aside)
    | levels up low => exact fin ((aside_acceptDispatch a).trans (still_applyLevels _ up low).calm.aside)
    | hold u m v _ =>
      exact fin ((aside_acceptDispatch a).trans ((still_setUnit _ u _).trans (settleHold_effect _ u).1.still).calm.aside)
    | release u _ => exact fin ((aside_acceptDispatch a).trans (still_releaseHold _ u).calm.aside)
    | emergency u => exact (aside_acceptDispatch a).trans (calm_emergencyEvent _ _ u).aside
    | emergencyAll => exact (aside_acceptDispatch a).trans (calm_emergencyAll _ _).aside
    | enable hg =>
      obtain ⟨hpli, hpending, -⟩ := enabled_pli a
      refine fin ⟨hpending, fun hs => ?_⟩
      rw [hpli] at hs
      cases hs
    | disable =>
      obtain ⟨hpending, -, hclear, -⟩ := disabled_fields a
      exact ⟨hpending, fun _ => .inr hclear⟩
    | resume hp =>
      exact fin ((aside_setPli a { a.pli with part := .dispatching } (by simp [hp])).trans (returnToDispatching_run a).calm.aside)
    | tick => exact fin ((aside_setPli a { a.pli with clock := a.clock + 1 } Iff.rfl).trans (played_ramp _).calm.aside)
    | linkDown => exact fin (aside_linkDown a)

theorem acceptDispatch_plantOut (s : State) : s.acceptDispatch.plantOut = s.plantOut := by
  obtain ⟨b, -, -, h⟩ := acceptDispatch_run s
  exact h.calm.plantOut

/-- What a command does sends nothing up the plant link; only its reply is sent. -/
theorem Did.plantOut {s a m : State} {b : Bool} (h : Did s a b m) (ha : Taken s a) : m.plantOut = a.plantOut := by
  have heard {x : State} (k : Calm a.acceptDispatch x) : x.plantOut = a.plantOut := k.plantOut.trans (acceptDispatch_plantOut a)
  cases b with
  | false => exact h.calm.plantOut
  | true =>
    cases h with
    | nothing => rfl
    | fresh => exact ha.plantOut.symm
    | restart v => exact (restartedFrom_restarted a v).2.2
    | heard => exact heard (calm_finish _ _ _)
    | base v i _ => exact heard ((played_applyBase _ v i).calm.trans (calm_finish _ _ _))
    | reg v _ => exact heard ((played_applyReg _ v).calm.trans (calm_finish _ _ _))
    | levels up low => exact heard ((still_applyLevels _ up low).calm.trans (calm_finish _ _ _))
    | hold u m v _ => exact heard (((still_setUnit _ u _).trans (settleHold_effect _ u).1.still).calm.trans (calm_finish _ _ _))
    | release u _ => exact heard ((still_releaseHold _ u).calm.trans (calm_finish _ _ _))
    | emergency u => exact heard (calm_emergencyEvent _ _ u)
    | emergencyAll => exact heard (calm_emergencyAll _ _)
    | enable hg => exact (calm_finish _ _ _).plantOut.trans (enabled_pli a).2.2
    | disable => exact (disabled_fields a).2.1
    | resume hp => exact (calm_finish _ _ _).plantOut.trans (returnToDispatching_run a).calm.plantOut
    | tick => exact (calm_finish _ _ _).plantOut.trans (played_ramp (a.setPli { a.pli with clock := a.clock + 1 })).calm.plantOut
    | linkDown =>
      obtain ⟨b, -, -, h⟩ := linkDown_run a
      exact (calm_finish _ _ _).plantOut.trans h.calm.plantOut

theorem Sends.aside {c : Instr} {s t : State} (h : Sends c s t) : Aside s t := by
  cases h with
  | nothing => exact .refl s
  | reply => exact ⟨rfl, fun h => .inl ⟨h, rfl, rfl, rfl, rfl⟩⟩
  | unknown => exact ⟨rfl, fun h => .inl ⟨h, rfl, rfl, rfl, rfl⟩⟩
  | status => exact ⟨rfl, fun h => .inl ⟨h, rfl, rfl, rfl, rfl⟩⟩

theorem Taken.aside {s a : State} (h : Taken s a) : Aside s a := by
  have hpart : ({ a.pli with framer := none } : Pli).part = ({ s.pli with framer := none } : Pli).part := by rw [h.pli]
  refine ⟨h.pending, fun ha => .inl ⟨hpart ▸ ha, h.alc, ?_, ?_, ?_⟩⟩
  all_goals rw [h.pln]

theorem exec_aside_plain (c : Instr) (s : State) (hc : isDiscarded c = false) : ∃ t, exec c s = .next t ∧ Aside s t := by
  obtain ⟨a, m, t, h, ha, hd, ht⟩ := carries c s hc
  exact ⟨t, h, (ha.aside.trans (hd.aside ha)).trans ht.aside⟩

theorem Carried.aside {cs : List Instr} {s t : State} (h : Carried cs s t) (hf : ∀ c ∈ cs, isFrame c = true) : Aside s t := by
  induction h with
  | nil => exact .refl _
  | @cons c rest s m t hc _ ih =>
    obtain ⟨m', hm', ha⟩ := exec_aside_plain c s (isFrame_undiscarded (hf c List.mem_cons_self))
    cases hm'.symm.trans hc
    exact ha.trans (ih fun d hd => hf d (List.mem_cons_of_mem c hd))

theorem setFramer_aside (s : State) (l : Link) (f : Framer) : Aside s (s.setFramer l f) := (taken_setFramer s l f).aside

/-- Every command is answered with a next state, leaves the queue of commands alone, and in STANDBY plans nothing. -/
theorem exec_aside (c : Instr) (s : State) : ∃ t, exec c s = .next t ∧ Aside s t := by
  by_cases hc : isDiscarded c = false
  · exact exec_aside_plain c s hc
  · cases c with
    | frameDiscarded l bytes =>
      obtain ⟨m, hm, h⟩ := frameDiscarded_carried l bytes s
      exact ⟨_, h, (hm.aside fun _ => isFrame_of_framesIn).trans (setFramer_aside m l _)⟩
    | _ => exact absurd rfl hc

end Sys2Proof.Machine

namespace Sys2Proof.Proofs
open Sys2Proof.Machine

/-- Settles O2: every command is carried out (`exec_aside`). -/
theorem everyCommandCompletes : Obligations.EveryCommandCompletes := by
  unfold Obligations.EveryCommandCompletes
  intro c s
  obtain ⟨t, h, ha⟩ := exec_aside c s
  exact ⟨t, h, ha.pending⟩

/-- Settles O7: a command that leaves STANDBY standing plans nothing, or clears the planner and the allocator. -/
theorem standbyPlansNothing : Obligations.StandbyPlansNothing := by
  unfold Obligations.StandbyPlansNothing
  intro c s _
  obtain ⟨t, h, ha⟩ := exec_aside c s
  refine ⟨t, h, fun ht => ?_⟩
  rcases ha.idle ht with ⟨-, halc, hsel, hprop, hdes⟩ | ⟨halc, hsel, hprop, hdes⟩
  · exact ⟨.inl halc, .inl hsel, .inl hprop, fun u => .inl (by rw [hdes])⟩
  · exact ⟨.inr halc, .inr hsel, .inr hprop, fun u => .inr (hdes u)⟩

/-- A command that is no plant-link frame sends nothing; one that is sends a reply unless it is of class DISPATCH. -/
theorem plantLink_of_sends {c : Instr} {s t : State} (hs : Sends c s t) (tick : c ≠ .partClockAdvance)
    (known : ∀ cls kind tag, c ≠ .unknownFrame cls kind tag) : match c.plantPacket with
      | none => t.plantOut = s.plantOut
      | some k => if k.cls = 1 then t.plantOut = s.plantOut
        else ∃ code detail body, t.plantOut = s.plantOut ++ [.reply k.tag k.cls k.kind code detail body] := by
  cases hs with
  | nothing h _ _ =>
    split
    · rfl
    · rename_i k hk
      rw [if_pos (h k hk)]
  | reply k hk hc code detail body =>
    rw [hk]
    dsimp only
    rw [if_neg hc]
    exact ⟨code, detail, body, rfl⟩
  | unknown cls kind tag h _ => exact absurd h (known cls kind tag)
  | status h => exact absurd h tick

/-- Settles O5: each command's own effect sends nothing (`Did.plantOut`), and its reply is what `Sends` says. -/
theorem plantLinkReplies : Obligations.PlantLinkReplies := by
  unfold Obligations.PlantLinkReplies
  intro c s
  by_cases hc : isDiscarded c = false
  · obtain ⟨a, m, t, h, ha, hd, ht⟩ := carries c s hc
    have hm : m.plantOut = s.plantOut := (hd.plantOut ha).trans ha.plantOut
    refine ⟨t, h, ?_⟩
    cases c with
    | frameDiscarded => cases hc
    | partClockAdvance =>
      cases ht with
      | nothing _ _ tick => exact absurd rfl tick
      | reply k hk => cases hk
      | unknown _ _ _ hk => cases hk
      | status _ => exact congrArg (· ++ [PlantFrame.plantStatus m.statusBody]) hm
    | unknownFrame cls kind tag =>
      cases ht with
      | nothing _ known _ =>
        show m.plantOut = s.plantOut ++ (if cls = 1 then [] else _)
        rw [if_pos (known cls kind tag rfl), List.append_nil, hm]
      | reply k hk => cases hk
      | unknown cls' kind' tag' hk hne =>
        obtain ⟨rfl, rfl, rfl⟩ := Instr.unknownFrame.inj hk
        show m.plantOut ++ _ = s.plantOut ++ (if cls = 1 then [] else _)
        rw [if_neg hne, hm]
      | status hk => cases hk
    | _ =>
      rw [← hm]
      exact plantLink_of_sends ht nofun nofun
  · cases c with
    | frameDiscarded l bytes =>
      obtain ⟨m, hm, h⟩ := frameDiscarded_carried l bytes s
      exact ⟨_, h, m, hm, (taken_setFramer m l _).plantOut⟩
    | _ => exact absurd rfl hc

end Sys2Proof.Proofs
end

section
/-! The part state, the dispatch-liveness timer with LINK_SILENT, and the part clock that each command leaves (O6). -/

namespace Sys2Proof.Machine

/-- The part state, the dispatch-liveness timer with LINK_SILENT, and the part clock have these values. -/
structure Timed (t : State) (part : PartState) (link : Option Word × Bool) (clock : Word) : Prop where
  part : t.pli.part = part
  link : (t.pli.liveness, t.pli.linkSilent) = link
  clock : t.clock = clock

section
variable {s t : State} {part : PartState} {link : Option Word × Bool} {clock : Word}

theorem timed_self (s : State) : Timed s s.pli.part (s.pli.liveness, s.pli.linkSilent) s.clock := ⟨rfl, rfl, rfl⟩

theorem Timed.calm (h : Timed s part link clock) (k : Calm s t) : Timed t part link clock :=
  ⟨k.part.trans h.part, by rw [k.liveness, k.silent, h.link], k.clock.trans h.clock⟩

theorem Timed.framed (h : Timed s part link clock) (k : Framed s t) : Timed t part link clock := by
  have hpart : ({ t.pli with framer := none } : Pli).part = ({ s.pli with framer := none } : Pli).part := by rw [k.pli]
  have hlive : ({ t.pli with framer := none } : Pli).liveness = ({ s.pli with framer := none } : Pli).liveness := by rw [k.pli]
  have hsilent : ({ t.pli with framer := none } : Pli).linkSilent = ({ s.pli with framer := none } : Pli).linkSilent := by rw [k.pli]
  have hclock : ({ t.pli with framer := none } : Pli).clock = ({ s.pli with framer := none } : Pli).clock := by rw [k.pli]
  exact ⟨hpart.trans h.part, (congrArg₂ Prod.mk hlive hsilent).trans h.link, hclock.trans h.clock⟩

theorem Timed.manage (h : Timed s part link clock) (tag kind : Byte) (code : Code) (d : Nat) (b : List Byte) :
    Timed (s.manage tag kind code d b) part link clock :=
  h.framed (framed_manage ..)

end

/-- A command that moves none of them. -/
theorem timed_quiet (c : Instr) (s : State) (hm : c.moves = false) (hc : isDiscarded c = false) :
    ∃ t, exec c s = .next t ∧ Timed t s.pli.part (s.pli.liveness, s.pli.linkSilent) s.clock := by
  obtain ⟨a, m, t, h, ha, hd, ht⟩ := carries c s hc
  rw [hm] at hd
  exact ⟨t, h, (((timed_self s).framed ha.toFramed).calm hd.calm).framed ht.framed⟩

/-! ## Dispatch frames (R156, R161, R163) -/

/-- What follows a valid dispatch frame leaves the part state and the link timer that the frame has set. -/
theorem timed_heard {s t : State} (h : Calm s.takePlantFrame.acceptDispatch t) :
    Timed t s.partHeard (some (later s.clock s.params.linkTimeout), false) s.clock := by
  have hpli := (heard_accept s).frame.pli
  have hheard : Timed s.heard s.partHeard (some (later s.clock s.params.linkTimeout), false) s.clock := by
    unfold State.heard
    dsimp only
    split <;> exact ⟨rfl, rfl, rfl⟩
  exact Timed.calm ⟨by rw [hpli, hheard.part], by rw [hpli, hheard.link], (State.clock_congr hpli).trans hheard.clock⟩ h

theorem timed_discarded (s : State) : Timed s.takePlantFrame s.pli.part (s.pli.liveness, s.pli.linkSilent) s.clock := ⟨rfl, rfl, rfl⟩

/-- A command leaves the part state and the link timer as its rules say, and the clock with `clock`. -/
def Sets (c : Instr) (s : State) (clock : Word) : Prop :=
  ∃ t, exec c s = .next t ∧ Timed t (s.partAfter c) (s.livenessAfter c) clock

section
variable (s : State)

theorem sets_base (target : Half) (increment : Option Half) : Sets (.base target increment) s s.clock := by
  have h : exec (.base target increment) s = execBase target increment s := rfl
  unfold execBase at h
  dsimp only at h
  split at h
  · exact ⟨_, h, timed_heard ((played_applyBase ..).calm.trans (calm_finish ..))⟩
  · exact ⟨_, h, timed_heard (calm_finish ..)⟩

theorem sets_reg (increment : Half) : Sets (.reg increment) s s.clock := by
  have h : exec (.reg increment) s = execReg increment s := rfl
  unfold execReg at h
  dsimp only at h
  split at h
  · exact ⟨_, h, timed_heard ((played_applyReg ..).calm.trans (calm_finish ..))⟩
  · exact ⟨_, h, timed_heard (calm_finish ..)⟩

theorem sets_levels (upper lower : Half) : Sets (.levels upper lower) s s.clock :=
  ⟨_, rfl, timed_heard ((still_applyLevels ..).calm.trans (calm_finish ..))⟩

/-- What a command that is a valid dispatch frame leaves. -/
theorem sets_valid {c : Instr} {t : State} (h : exec c s = .next t) (hv : validDispatch c s = true)
    (hpart : s.partAfter c = if validDispatch c s then s.partHeard else s.pli.part)
    (hlink : s.livenessAfter c = if validDispatch c s then (some (later s.clock s.params.linkTimeout), false)
      else (s.pli.liveness, s.pli.linkSilent)) (k : Calm s.takePlantFrame.acceptDispatch t) : Sets c s s.clock := by
  refine ⟨t, h, ?_⟩
  rw [hpart, hlink, if_pos hv, if_pos hv]
  exact timed_heard k

theorem sets_invalid {c : Instr} (h : exec c s = .next s.takePlantFrame) (hv : validDispatch c s = false)
    (hpart : s.partAfter c = if validDispatch c s then s.partHeard else s.pli.part)
    (hlink : s.livenessAfter c = if validDispatch c s then (some (later s.clock s.params.linkTimeout), false)
      else (s.pli.liveness, s.pli.linkSilent)) : Sets c s s.clock := by
  refine ⟨_, h, ?_⟩
  rw [hpart, hlink, hv]
  exact timed_discarded s

theorem sets_unitHold (slot mode : Byte) (setpoint : Option Half) : Sets (.unitHold slot mode setpoint) s s.clock := by
  have h : exec (.unitHold slot mode setpoint) s = execUnitHold slot mode setpoint s := rfl
  unfold execUnitHold at h
  dsimp only at h
  split at h
  · rename_i u m hu hm
    split at h
    · rename_i he
      exact sets_invalid s h (by simp [validDispatch, hu, hm, he]) rfl rfl
    · rename_i he
      exact sets_valid s h (by simp [validDispatch, hu, hm, he]) rfl rfl
        (((still_setUnit ..).trans (settleHold_effect _ _).1.still).calm.trans (calm_finish ..))
  · rename_i hn
    refine sets_invalid s h ?_ rfl rfl
    cases hu : slotOfCode slot with
    | none => simp [validDispatch, hu]
    | some u =>
      cases hm : stableOfCode mode with
      | none => simp [validDispatch, hm]
      | some m => exact absurd hm (hn u m hu)

theorem sets_unitRelease (slot : Byte) : Sets (.unitRelease slot) s s.clock := by
  have h : exec (.unitRelease slot) s = execUnitRelease slot s := rfl
  unfold execUnitRelease at h
  dsimp only at h
  split at h
  · rename_i hu
    exact sets_invalid s h (by simp [validDispatch, hu]) rfl rfl
  · rename_i u hu
    have hv : validDispatch (.unitRelease slot) s = true := by simp [validDispatch, hu]
    split at h
    · exact sets_valid s h hv rfl rfl (calm_finish ..)
    · exact sets_valid s h hv rfl rfl ((still_releaseHold ..).calm.trans (calm_finish ..))

theorem sets_emergencyStop (slot : Byte) : Sets (.emergencyStop slot) s s.clock := by
  have h : exec (.emergencyStop slot) s = execEmergencyStop slot s := rfl
  unfold execEmergencyStop at h
  split at h
  · rename_i h0
    exact sets_valid s h (by simp [validDispatch, h0]) rfl rfl (calm_emergencyAll ..)
  · rename_i h0
    split at h
    · rename_i hu
      exact sets_invalid s h (by simpa [validDispatch, hu] using h0) rfl rfl
    · rename_i u hu
      exact sets_valid s h (by simp [validDispatch, hu]) rfl rfl (calm_emergencyEvent ..)

/-! ## The part state, starting, timers -/

theorem ready_iff : s.ready = true ↔ s.enableFault = none := by
  have hall : Slot.all.find? s.lacksTable = none ↔ Slot.all.all (fun u => (s.unitRec u).port.isNone || (s.head.caps.get u).isSome) = true := by
    rw [List.find?_eq_none, List.all_eq_true]
    refine forall₂_congr fun u _ => ?_
    unfold State.lacksTable
    cases (s.unitRec u).port <;> cases s.head.caps.get u <;> simp
  unfold State.enableFault State.ready
  cases s.headInUse <;> cases s.pln.table <;> cases s.trs.waterways <;> simp [← hall]

theorem sets_enable (tag : Byte) : Sets (.enable tag) s s.clock := by
  have h : exec (.enable tag) s = execEnable tag s := rfl
  unfold execEnable at h
  dsimp only at h
  have refused (hn : ¬ (s.pli.part = .standby ∧ s.ready = true)) (d : Nat) :
      Timed (s.takePlantFrame.manage tag kindEnable .state d) (s.partAfter (.enable tag)) (s.livenessAfter (.enable tag)) s.clock := by
    unfold State.partAfter State.livenessAfter
    dsimp only
    rw [if_neg hn, if_neg hn]
    exact (timed_discarded s).manage ..
  split at h
  · rename_i hg
    exact ⟨_, h, refused (fun hp => by simp [State.governs, State.takePlantFrame, hp.1] at hg) _⟩
  · rename_i hg
    have hp : s.pli.part = .standby := by simpa [State.governs, State.takePlantFrame] using hg
    split at h
    · rename_i d hd
      refine ⟨_, h, refused (fun hr => ?_) d⟩
      have := (ready_iff s).mp hr.2
      have hd : s.enableFault = some d := hd
      rw [this] at hd
      cases hd
    · rename_i hd
      refine ⟨_, h, ?_⟩
      unfold State.partAfter State.livenessAfter
      dsimp only
      rw [if_pos ⟨hp, (ready_iff s).mpr hd⟩, if_pos ⟨hp, (ready_iff s).mpr hd⟩]
      obtain ⟨hpli, -⟩ := enabled_pli s.takePlantFrame
      have henabled : Timed s.takePlantFrame.enabled .dispatching (some (later s.clock s.params.linkTimeout), false) s.clock :=
        ⟨by rw [hpli]; rfl, by rw [hpli]; rfl, State.clock_congr (s := s.takePlantFrame.entered) hpli⟩
      exact (henabled.calm (calm_finish ..)).manage ..

theorem sets_disable (tag : Byte) : Sets (.disable tag) s s.clock := by
  have h : exec (.disable tag) s = execDisable tag s := rfl
  unfold execDisable at h
  dsimp only at h
  split at h
  · obtain ⟨-, -, -, hpli⟩ := disabled_fields s.takePlantFrame
    have hd : Timed s.takePlantFrame.disabled .standby (s.pli.liveness, s.pli.linkSilent) s.clock :=
      ⟨by rw [hpli], by rw [hpli]; rfl, State.clock_congr (s := s.takePlantFrame.setPli { s.takePlantFrame.pli with part := .standby }) hpli⟩
    exact ⟨_, h, hd.manage ..⟩
  · rename_i hg
    have hp : s.pli.part = .standby := by simpa [State.governs, State.takePlantFrame] using hg
    have hrefused : Timed s.takePlantFrame .standby (s.pli.liveness, s.pli.linkSilent) s.clock := ⟨hp, rfl, rfl⟩
    exact ⟨_, h, hrefused.manage ..⟩

theorem sets_resume (tag : Byte) : Sets (.resume tag) s s.clock := by
  have h : exec (.resume tag) s = execResume tag s := rfl
  unfold execResume at h
  dsimp only at h
  split at h
  · rename_i hp
    have hp : s.pli.part = .fallback .awaitResume := hp
    have hset : Timed (s.takePlantFrame.setPli { s.takePlantFrame.pli with part := .dispatching }) .dispatching
      (s.pli.liveness, s.pli.linkSilent) s.clock := ⟨rfl, rfl, rfl⟩
    refine ⟨_, h, ?_⟩
    have hpart : s.partAfter (.resume tag) = .dispatching := if_pos hp
    rw [hpart]
    exact ((hset.calm (returnToDispatching_run _).calm).calm (calm_finish ..)).manage ..
  · rename_i hp
    have hp : s.pli.part ≠ .fallback .awaitResume := hp
    refine ⟨_, h, ?_⟩
    have hpart : s.partAfter (.resume tag) = s.pli.part := if_neg hp
    rw [hpart]
    exact (timed_discarded s).manage ..

theorem sets_powerOn : Sets .powerOn s 0 := ⟨_, rfl, rfl, rfl, rfl⟩

theorem RestartedFrom.timed {s t : State} {v : Int} (h : RestartedFrom s t v) : Timed t .standby (none, false) s.clock :=
  ⟨h.part, by rw [h.liveness, h.linkSilent], h.clock⟩

theorem sets_tick : Sets .partClockAdvance s (s.clock + 1) := by
  have hset : Timed (s.setPli { s.pli with clock := s.clock + 1 }) s.pli.part (s.pli.liveness, s.pli.linkSilent) (s.clock + 1) :=
    ⟨rfl, rfl, rfl⟩
  exact ⟨_, rfl, ((hset.calm (played_ramp _).calm).calm (calm_finish ..)).framed (framed_sendUp ..)⟩

theorem sets_linkDown : Sets .dispatchLivenessExpiry s s.clock := by
  have h : exec .dispatchLivenessExpiry s = execDispatchLivenessExpiry s := rfl
  unfold execDispatchLivenessExpiry at h
  unfold Sets State.partAfter State.livenessAfter
  dsimp only
  split at h
  · rename_i hd
    have hdown : Timed s.linkDown (if timerDue s.clock s.pli.liveness = true ∧ s.pli.part ≠ .standby then .fallback .linkDown else s.pli.part)
        (none, true) s.clock := by
      unfold State.linkDown
      dsimp only
      split
      · rename_i hp
        have hp : s.pli.part = .standby := hp
        rw [if_neg fun hn => hn.2 hp]
        exact ⟨rfl, rfl, rfl⟩
      · rename_i hp
        have hp : s.pli.part = .dispatching := hp
        rw [if_pos ⟨hd, by simp [hp]⟩]
        exact Timed.calm (s := (s.setPli { s.pli with liveness := none, linkSilent := true, part := .fallback .linkDown }))
          ⟨rfl, rfl, rfl⟩ ((PlayMicro.post _ _ _ _).played.trans (played_fold _)).calm
      · rename_i f hp
        have hp : s.pli.part = .fallback f := hp
        rw [if_pos ⟨hd, by simp [hp]⟩]
        exact ⟨rfl, rfl, rfl⟩
    rw [if_pos hd]
    exact ⟨_, h, hdown.calm (calm_finish ..)⟩
  · rename_i hd
    rw [if_neg fun hn => hd hn.1, if_neg hd]
    exact ⟨_, h, timed_self s⟩

end

/-- The part clock that a command leaves (R166): an advance counts it up by one, and POWER_ON sets it to 0. -/
def State.clockAfter (s : State) : Instr → Word
  | .powerOn => 0
  | .partClockAdvance => s.clock + 1
  | _ => s.clock

theorem sets_plain (c : Instr) (s : State) (hc : isDiscarded c = false) : Sets c s (s.clockAfter c) := by
  have quiet {d : Instr} (hm : d.moves = false) (hd : isDiscarded d = false) (hpart : s.partAfter d = s.pli.part)
      (hlink : s.livenessAfter d = (s.pli.liveness, s.pli.linkSilent)) : Sets d s s.clock := by
    obtain ⟨t, h, ht⟩ := timed_quiet d s hm hd
    exact ⟨t, h, by rw [hpart, hlink]; exact ht⟩
  cases c with
  | frameDiscarded => cases hc
  | powerOn => exact sets_powerOn s
  | restart tag => exact ⟨_, rfl, ((restartedFrom_restarted s.takePlantFrame 0).1.timed).manage ..⟩
  | resetInput => exact ⟨_, rfl, (restartedFrom_restarted s 1).1.timed⟩
  | partClockAdvance => exact sets_tick s
  | base target increment => exact sets_base s target increment
  | reg increment => exact sets_reg s increment
  | levels upper lower => exact sets_levels s upper lower
  | unitHold slot mode setpoint => exact sets_unitHold s slot mode setpoint
  | unitRelease slot => exact sets_unitRelease s slot
  | emergencyStop slot => exact sets_emergencyStop s slot
  | enable tag => exact sets_enable s tag
  | disable tag => exact sets_disable s tag
  | resume tag => exact sets_resume s tag
  | dispatchLivenessExpiry => exact sets_linkDown s
  | _ => exact quiet rfl rfl rfl rfl

/-- The frames found in a discarded one do not move the part clock. -/
theorem Carried.clock {cs : List Instr} {s t : State} (h : Carried cs s t) (hf : ∀ c ∈ cs, isFrame c = true) : t.clock = s.clock := by
  induction h with
  | nil => rfl
  | @cons c rest s m t hc _ ih =>
    have hframe := hf c List.mem_cons_self
    obtain ⟨m', hm', ht⟩ := sets_plain c s (isFrame_undiscarded hframe)
    cases hm'.symm.trans hc
    have hclock : s.clockAfter c = s.clock := by
      cases c with
      | powerOn => cases hframe
      | partClockAdvance => cases hframe
      | _ => rfl
    exact (ih fun d hd => hf d (List.mem_cons_of_mem c hd)).trans (ht.clock.trans hclock)

end Sys2Proof.Machine

namespace Sys2Proof.Proofs
open Sys2Proof.Machine

/-- Settles O6: each command by its rule (`sets_plain`), a discarded frame by the frames found in it. -/
theorem partStateLivenessAndClock : Obligations.PartStateLivenessAndClock := by
  unfold Obligations.PartStateLivenessAndClock
  intro c s
  by_cases hc : isDiscarded c = false
  · obtain ⟨t, h, ht⟩ := sets_plain c s hc
    refine ⟨t, h, ?_⟩
    cases c with
    | frameDiscarded => cases hc
    | _ => exact ⟨ht.part, ht.link, ht.clock⟩
  · cases c with
    | frameDiscarded l bytes =>
      obtain ⟨m, hm, h⟩ := frameDiscarded_carried l bytes s
      have ht := (timed_self m).framed (taken_setFramer m l (hunt l bytes.tail).held).toFramed
      exact ⟨_, h, m, hm, ht.part, ht.link, ht.clock.trans (hm.clock fun _ => isFrame_of_framesIn)⟩
    | _ => exact absurd rfl hc

end Sys2Proof.Proofs
end

section
/-! The framers (R181): the hunt through a run of bytes, and the bytes of a whole frame as its command (O4, O29). -/

namespace Sys2Proof.Machine

/-! ## The hunt, by what stands at the front -/

/-- A body of a frame of the link: the length byte, at most 240, then as many bytes as it announces beyond the header (R155, R181). -/
structure Framing (l : Link) (n : Byte) (more : List Byte) : Prop where
  short : n.toNat ≤ maxLength
  length : more.length = headerBytes l + n.toNat

theorem hunt_eq (l : Link) (bs : List Byte) {m : Nat} (h : bs.length ≤ m) : huntFrom (headerBytes l) m bs = hunt l bs :=
  huntFrom_fuel _ bs.length bs le_rfl m h

theorem hunt_drop (l : Link) {b : Byte} (rest : List Byte) (h : b ≠ startByte) : hunt l (b :: rest) = hunt l rest := by
  exact if_pos h

theorem hunt_overlong (l : Link) {n : Byte} (rest : List Byte) (h : maxLength < n.toNat) :
    hunt l (startByte :: n :: rest) = hunt l (n :: rest) := by
  unfold hunt
  rw [List.length_cons, huntFrom, if_neg (not_not.mpr rfl)]
  rw [if_pos h]

/-- The bytes of a frame after its start byte: the body, the two bytes of the CRC, and what follows. -/
theorem splitFrame_eq (l : Link) (n : Byte) (rest : List Byte) : splitFrame (headerBytes l) (n :: rest) =
    if rest.length < headerBytes l + n.toNat + 2 then none
    else some (n :: rest.take (headerBytes l + n.toNat), (rest.drop (headerBytes l + n.toNat)).take 2,
      rest.drop (headerBytes l + n.toNat + 2)) := by
  have hk : 1 + headerBytes l + n.toNat = headerBytes l + n.toNat + 1 := by omega
  unfold splitFrame
  dsimp only
  rw [hk, List.length_cons]
  simp only [List.take_succ_cons, List.drop_succ_cons, Nat.add_lt_add_iff_right,
    show headerBytes l + n.toNat + 1 + 2 = headerBytes l + n.toNat + 2 + 1 by omega]

theorem crcMatches_iff (body crc : List Byte) :
    crcMatches body crc = true ↔ crc = [(crc16 body).extractLsb' 8 8, (crc16 body).extractLsb' 0 8] := by
  unfold crcMatches
  exact beq_iff_eq

/-- The two bytes after a body are its CRC exactly where the bytes from the start byte on are its frame. -/
theorem crcMatches_frame (n : Byte) (rest : List Byte) (k : Nat) : crcMatches (n :: rest.take k) ((rest.drop k).take 2) = true ↔
    frameOf (n :: rest.take k) = startByte :: n :: rest.take (k + 2) := by
  rw [crcMatches_iff]
  unfold frameOf
  rw [List.take_add, List.cons_append, List.cons_append, List.cons_inj_right, List.cons_inj_right, List.append_cancel_left_eq]
  exact eq_comm

/-- The hunt at a start byte with a length that is not over-long: bytes are missing, a whole frame is handed on, or the start byte alone
is dropped. -/
theorem hunt_start (l : Link) {n : Byte} (rest : List Byte) (h : n.toNat ≤ maxLength) :
    hunt l (startByte :: n :: rest) =
      if rest.length < headerBytes l + n.toNat + 2 then { bodies := [], held := some (n :: rest) }
      else if frameOf (n :: rest.take (headerBytes l + n.toNat)) = startByte :: n :: rest.take (headerBytes l + n.toNat + 2)
      then (hunt l (rest.drop (headerBytes l + n.toNat + 2))).handOn (n :: rest.take (headerBytes l + n.toNat))
      else hunt l (n :: rest) := by
  have hrest : hunt l (startByte :: n :: rest) = match splitFrame (headerBytes l) (n :: rest) with
      | none => { bodies := [], held := some (n :: rest) }
      | some (body, crc, after) =>
        if crcMatches body crc then (huntFrom (headerBytes l) (n :: rest).length after).handOn body else hunt l (n :: rest) := by
    unfold hunt
    rw [List.length_cons, huntFrom]
    exact (if_neg (not_not.mpr rfl)).trans (if_neg (not_lt.mpr h))
  rw [hrest, splitFrame_eq]
  by_cases hm : rest.length < headerBytes l + n.toNat + 2
  · rw [if_pos hm, if_pos hm]
  · rw [if_neg hm, if_neg hm]
    dsimp only
    rw [hunt_eq l _ (by rw [List.length_drop, List.length_cons]; omega)]
    by_cases hc : crcMatches (n :: rest.take (headerBytes l + n.toNat)) ((rest.drop (headerBytes l + n.toNat)).take 2) = true
    · rw [if_pos hc, if_pos ((crcMatches_frame n rest _).mp hc)]
    · rw [if_neg hc, if_neg fun hf => hc ((crcMatches_frame n rest _).mpr hf)]

/-- What the hunt hands on are bodies of frames. -/
theorem framing_of_hunt (l : Link) (m : Nat) : ∀ bytes : List Byte, bytes.length ≤ m → ∀ body ∈ (hunt l bytes).bodies,
    ∃ n more, body = n :: more ∧ Framing l n more := by
  induction m with
  | zero =>
    intro bytes hm body hb
    rw [List.eq_nil_of_length_eq_zero (Nat.le_zero.mp hm)] at hb
    cases hb
  | succ m ih =>
    intro bytes hm body hb
    match bytes with
    | [] => cases hb
    | b :: rest =>
      have hrest : rest.length ≤ m := Nat.le_of_succ_le_succ hm
      by_cases hs : b = startByte
      · subst hs
        match rest with
        | [] => cases hb
        | n :: tail =>
          by_cases hn : maxLength < n.toNat
          · rw [hunt_overlong l tail hn] at hb
            exact ih _ hrest body hb
          · rw [hunt_start l tail (not_lt.mp hn)] at hb
            split at hb
            · cases hb
            · rename_i hlen
              split at hb
              · rcases List.mem_cons.mp hb with rfl | hb
                · refine ⟨n, _, rfl, not_lt.mp hn, ?_⟩
                  rw [List.length_take, Nat.min_eq_left (by omega)]
                · refine ih _ ?_ body hb
                  rw [List.length_drop]
                  rw [List.length_cons] at hrest
                  omega
              · exact ih _ hrest body hb
      · rw [hunt_drop l rest hs] at hb
        exact ih _ hrest body hb

/-- A whole frame decodes to the command of its body. -/
theorem decodeFrame_frameOf (l : Link) {n : Byte} {more : List Byte} (h : Framing l n more) :
    decodeFrame l (frameOf (n :: more)) = decodeBody l (n :: more) := by
  have hcrc : [(crc16 (n :: more)).extractLsb' 8 8, (crc16 (n :: more)).extractLsb' 0 8].length = 2 := rfl
  have hsplit : splitFrame (headerBytes l) (n :: (more ++ [(crc16 (n :: more)).extractLsb' 8 8, (crc16 (n :: more)).extractLsb' 0 8])) =
      some (n :: more, [(crc16 (n :: more)).extractLsb' 8 8, (crc16 (n :: more)).extractLsb' 0 8], []) := by
    rw [splitFrame_eq, if_neg (by rw [List.length_append, h.length, hcrc]; omega), ← h.length, List.take_left, List.drop_left,
      List.drop_of_length_le (by rw [List.length_append, hcrc])]
    rfl
  show (if startByte ≠ startByte then none else if maxLength < n.toNat then _ else
    match splitFrame (headerBytes l) (n :: (more ++ _)) with
    | none => none
    | some (body, crc, _) => if crcMatches body crc then decodeBody l body else _) = _
  rw [if_neg (not_not.mpr rfl), if_neg (not_lt.mpr h.short), hsplit]
  exact if_pos ((crcMatches_iff _ _).mpr rfl)

/-- The commands that the hunt hands on are those that the frames found decode to. -/
theorem framesIn_eq (l : Link) (bytes : List Byte) :
    framesIn l bytes = (hunt l bytes).bodies.filterMap (fun b => decodeFrame l (frameOf b)) := by
  refine List.filterMap_congr fun b hb => ?_
  obtain ⟨n, more, rfl, h⟩ := framing_of_hunt l _ bytes le_rfl b hb
  exact (decodeFrame_frameOf l h).symm

end Sys2Proof.Machine

namespace Sys2Proof.Proofs
open Sys2Proof.Machine

/-- The hunt at a start byte with a length byte, by its cases. -/
theorem hunt_cases (l : Link) (n : Byte) (rest : List Byte) :
    let needed := headerBytes l + n.toNat + 2
    let body := n :: rest.take (needed - 2)
    let after := hunt l (rest.drop needed)
    let found := hunt l (0xA5 :: n :: rest)
    (240 < n.toNat → found = hunt l (n :: rest))
      ∧ (n.toNat ≤ 240 →
        (rest.length < needed → found = { bodies := [], held := some (n :: rest) })
        ∧ (needed ≤ rest.length → frameOf body = 0xA5 :: n :: rest.take needed →
            found = { bodies := body :: after.bodies, held := after.held })
        ∧ (needed ≤ rest.length → frameOf body ≠ 0xA5 :: n :: rest.take needed → found = hunt l (n :: rest))) := by
  intro needed body after found
  refine ⟨hunt_overlong l rest, fun hn => ?_⟩
  have hbody : body = n :: rest.take (headerBytes l + n.toNat) := by
    show n :: rest.take (headerBytes l + n.toNat + 2 - 2) = _
    rw [Nat.add_sub_cancel]
  have hfound : found = if rest.length < needed then { bodies := [], held := some (n :: rest) }
      else if frameOf body = 0xA5 :: n :: rest.take needed then after.handOn body else hunt l (n :: rest) :=
    hbody ▸ hunt_start l rest hn
  refine ⟨fun h => hfound.trans (if_pos h), fun h hf => ?_, fun h hf => ?_⟩
  · rw [hfound, if_neg (not_lt.mpr h), if_pos hf]
    rfl
  · rw [hfound, if_neg (not_lt.mpr h), if_neg hf]

/-- Settles O29: the frames found in a discarded one are carried out (`frameDiscarded_carried`), and the hunt by its cases. -/
theorem linkEvents : Obligations.LinkEvents := by
  unfold Obligations.LinkEvents
  refine ⟨fun l bytes s => ?_, framesIn_eq, fun l => ⟨rfl, rfl⟩, fun l b rest h => hunt_drop l rest h, fun l n rest => ?_, fun s => rfl,
    fun p s => rfl, fun cls kind tag s => ?_, fun p s => rfl, fun p s => ⟨fun h => ?_, fun f h hq => ?_, fun f g rest h hq => ?_⟩⟩
  · obtain ⟨m, hm, h⟩ := frameDiscarded_carried l bytes s
    refine ⟨m, hm, h.trans ?_⟩
    cases l <;> rfl
  · cases l with
    | plant => exact hunt_cases .plant n rest
    | unit p => exact hunt_cases (.unit p) n rest
  · show execUnknownFrame cls kind tag s = _
    unfold execUnknownFrame
    dsimp only
    by_cases hc : cls = 1
    · rw [if_pos (show cls = classDispatch from hc), if_pos hc]
      rfl
    · rw [if_neg (show cls ≠ classDispatch from hc), if_neg hc]
      rfl
  · show Host.Outcome.next (s.sendNext p) = _
    simp only [State.sendNext, h]
  · show Host.Outcome.next (s.sendNext p) = _
    simp only [State.sendNext, h, hq]
    rfl
  · show Host.Outcome.next (s.sendNext p) = _
    simp only [State.sendNext, h, hq]
    rw [State.beginSending, State.setPort_portRec, if_pos rfl]
    simp only [State.setPort, PortMap.set_set]

end Sys2Proof.Proofs
end

section
/-! Encoding and decoding a frame (sections 11.1 to 11.4): the fields' bytes, then each frame (O4). -/

namespace Sys2Proof.Machine

/-! ## Fields -/

theorem halfOf_halfBytes (h : Half) : halfOf (hiByte h) (loByte h) = h := by
  unfold halfOf hiByte loByte
  rw [BitVec.extractLsb'_append_extractLsb'_eq_extractLsb' (show 8 = 0 + 8 from rfl)]
  exact BitVec.extractLsb'_eq_self

theorem wordOf_wordBytes (w : Word) :
    wordOf (w.extractLsb' 24 8) (w.extractLsb' 16 8) (w.extractLsb' 8 8) (w.extractLsb' 0 8) = w := by
  unfold wordOf
  rw [BitVec.extractLsb'_append_extractLsb'_eq_extractLsb' (show 24 = 16 + 8 from rfl),
    BitVec.extractLsb'_append_extractLsb'_eq_extractLsb' (show 8 = 0 + 8 from rfl)]
  exact (BitVec.extractLsb'_append_extractLsb'_eq_extractLsb' (show 16 = 0 + 16 from rfl)).trans BitVec.extractLsb'_eq_self

theorem halvesOf_flatMap (vs : List Half) : halvesOf (vs.flatMap halfBytes) = some vs := by
  induction vs with
  | nil => rfl
  | cons v vs ih =>
    show (halvesOf (vs.flatMap halfBytes)).map (fun hs => halfOf (hiByte v) (loByte v) :: hs) = _
    rw [ih, halfOf_halfBytes]
    rfl

theorem length_flatMap_halfBytes (vs : List Half) : (vs.flatMap halfBytes).length = 2 * vs.length := by
  induction vs with
  | nil => rfl
  | cons v vs ih =>
    rw [List.flatMap_cons, List.length_append, ih, List.length_cons]
    show 2 + 2 * vs.length = _
    omega

/-! ## Frames -/

theorem toNat_byte {n : Nat} (h : n ≤ 240) : (byte n).toNat = n := by
  unfold byte
  rw [BitVec.toNat_ofNat]
  omega

/-- A packet whose payload is short enough and whose body decodes to the command. -/
structure Spells (k : PlantPacket) (c : Instr) : Prop where
  short : k.payload.length ≤ 240
  decode : decodePlant k.cls k.kind k.tag k.payload = c

theorem Spells.frame {k : PlantPacket} {c : Instr} (h : Spells k c) : decodeFrame .plant k.frame = some c := by
  have hf : Framing .plant (byte k.payload.length) (k.cls :: k.kind :: k.tag :: k.payload) := by
    refine ⟨?_, ?_⟩
    · rw [toNat_byte h.short]
      exact h.short
    · rw [toNat_byte h.short]
      show k.payload.length + 1 + 1 + 1 = 3 + k.payload.length
      omega
  exact (decodeFrame_frameOf .plant hf).trans (congrArg some h.decode)

theorem decodeFrame_unitFrame {p : Port} {kind : Byte} {payload : List Byte} {c : Instr} (hs : payload.length ≤ 240)
    (h : decodeUnit p kind payload = c) : decodeFrame (.unit p) (unitFrame kind payload) = some c := by
  have hf : Framing (.unit p) (byte payload.length) (kind :: payload) := by
    refine ⟨?_, ?_⟩
    · rw [toNat_byte hs]
      exact hs
    · rw [toNat_byte hs]
      show payload.length + 1 = 1 + payload.length
      omega
  exact (decodeFrame_frameOf (.unit p) hf).trans (congrArg some h)

/-- The payload of a kind with a name field is read as the name and the rest. -/
theorem decodeManage_named {kind : Byte} (hk : isNamedKind kind = true) (tag : Byte) {name : List Byte} (hn : name.length = 12)
    (rest : List Byte) : decodeManage kind tag (name ++ rest) = decodeNamed kind tag name rest := by
  unfold decodeManage
  rw [if_pos hk, if_neg (by rw [List.length_append, hn]; exact Nat.not_lt.mpr (Nat.le_add_right 12 _)),
    List.take_left' (show name.length = nameFieldLength from hn),
    List.drop_left' (show name.length = nameFieldLength from hn)]

/-- A management packet with a name field. -/
theorem spells_named {kind tag : Byte} (hk : isNamedKind kind = true) {name rest : List Byte} {c : Instr} (hn : name.length = 12)
    (hr : rest.length ≤ 228) (h : decodeNamed kind tag name rest = some c) : Spells ⟨2, kind, tag, name ++ rest⟩ c where
  short := by
    show (name ++ rest).length ≤ 240
    rw [List.length_append, hn]
    omega
  decode := by
    show (decodeManage kind tag (name ++ rest)).getD _ = c
    rw [decodeManage_named hk tag hn, h]
    rfl

theorem spells_profileDefine (tag : Byte) {name : List Byte} (hn : name.length = 12) (count : Half) (i r : Byte) (fill : Option Half)
    {k : PlantPacket} (h : (Instr.profileDefine tag name count i r fill).plantPacket = some k) :
    Spells k (.profileDefine tag name count i r fill) := by
  cases fill with
  | none =>
    obtain rfl := Option.some.inj h
    exact spells_named rfl hn (Nat.le_of_ble_eq_true rfl)
      (congrArg (fun c => some (Instr.profileDefine tag name c i r none)) (halfOf_halfBytes count))
  | some f =>
    obtain rfl := Option.some.inj h
    exact spells_named rfl hn (Nat.le_of_ble_eq_true rfl)
      (congrArg₂ (fun c f => some (Instr.profileDefine tag name c i r (some f))) (halfOf_halfBytes count) (halfOf_halfBytes f))

theorem spells_profileWrite (tag : Byte) {name : List Byte} (hn : name.length = 12) (first : Half) (count : Byte) (values : List Half)
    (hc : values.length = count.toNat) (hv : 15 + 2 * values.length ≤ 240) :
    Spells ⟨2, 8, tag, name ++ (halfBytes first ++ count :: values.flatMap halfBytes)⟩ (.profileWrite tag name first count values) := by
  refine spells_named rfl hn ?_ ?_
  · show (values.flatMap halfBytes).length + 1 + 1 + 1 ≤ 228
    rw [length_flatMap_halfBytes]
    omega
  · show (if (values.flatMap halfBytes).length = 2 * count.toNat then
      (halvesOf (values.flatMap halfBytes)).map
        (fun hs => Instr.profileWrite tag name (halfOf (hiByte first) (loByte first)) count hs) else none) = _
    rw [length_flatMap_halfBytes, hc, if_pos rfl, halvesOf_flatMap, halfOf_halfBytes]
    rfl

/-- The packet of a well-formed command spells it. -/
theorem spells_plantPacket {c : Instr} {k : PlantPacket} (hw : c.wellFormed = true) (h : c.plantPacket = some k) : Spells k c := by
  cases c with
  | base t i =>
    cases i with
    | none =>
      obtain rfl := Option.some.inj h
      exact ⟨Nat.le_of_ble_eq_true rfl, congrArg (Instr.base · none) (halfOf_halfBytes t)⟩
    | some i =>
      obtain rfl := Option.some.inj h
      exact ⟨Nat.le_of_ble_eq_true rfl, congrArg₂ (fun t i => Instr.base t (some i)) (halfOf_halfBytes t) (halfOf_halfBytes i)⟩
  | reg i =>
    obtain rfl := Option.some.inj h
    exact ⟨Nat.le_of_ble_eq_true rfl, congrArg Instr.reg (halfOf_halfBytes i)⟩
  | levels a b =>
    obtain rfl := Option.some.inj h
    exact ⟨Nat.le_of_ble_eq_true rfl, congrArg₂ Instr.levels (halfOf_halfBytes a) (halfOf_halfBytes b)⟩
  | unitHold u m v =>
    cases v with
    | none =>
      obtain rfl := Option.some.inj h
      exact ⟨Nat.le_of_ble_eq_true rfl, rfl⟩
    | some v =>
      obtain rfl := Option.some.inj h
      exact ⟨Nat.le_of_ble_eq_true rfl, congrArg (fun v => Instr.unitHold u m (some v)) (halfOf_halfBytes v)⟩
  | configSet tag q v port =>
    obtain rfl := Option.some.inj h
    exact ⟨Nat.le_of_ble_eq_true rfl, congrArg (Instr.configSet tag q · port) (wordOf_wordBytes v)⟩
  | loadRow tag i row =>
    obtain rfl := Option.some.inj h
    obtain ⟨h1, h240⟩ := Bool.and_eq_true _ _ ▸ hw
    refine ⟨of_decide_eq_true h240, ?_⟩
    cases row with
    | nil => exact absurd (of_decide_eq_true h1) (by decide)
    | cons x row => rfl
  | profileDefine tag name count i r fill => exact spells_profileDefine tag (beq_iff_eq.mp hw) count i r fill h
  | profileWrite tag name first count values =>
    obtain rfl := Option.some.inj h
    obtain ⟨hw, hv⟩ := Bool.and_eq_true _ _ ▸ hw
    obtain ⟨hn, hc⟩ := Bool.and_eq_true _ _ ▸ hw
    exact spells_profileWrite tag (beq_iff_eq.mp hn) first count values (beq_iff_eq.mp hc) (of_decide_eq_true hv)
  | profileRead tag name first count =>
    obtain rfl := Option.some.inj h
    exact spells_named rfl (beq_iff_eq.mp hw) (Nat.le_of_ble_eq_true rfl)
      (congrArg (fun f => some (Instr.profileRead tag name f count)) (halfOf_halfBytes first))
  | profileDelete tag name =>
    obtain rfl := Option.some.inj h
    have hs := spells_named (kind := 10) (tag := tag) (name := name) (rest := []) (c := .profileDelete tag name) rfl (beq_iff_eq.mp hw) (Nat.zero_le _) rfl
    rwa [List.append_nil] at hs
  | play tag name =>
    obtain rfl := Option.some.inj h
    have hs := spells_named (kind := 12) (tag := tag) (name := name) (rest := []) (c := .play tag name) rfl (beq_iff_eq.mp hw) (Nat.zero_le _) rfl
    rwa [List.append_nil] at hs
  | patternSet tag low high period shape =>
    obtain rfl := Option.some.inj h
    refine ⟨Nat.le_of_ble_eq_true rfl, ?_⟩
    show Instr.patternSet tag (halfOf (hiByte low) (loByte low)) (halfOf (hiByte high) (loByte high))
      (halfOf (hiByte period) (loByte period)) shape = _
    rw [halfOf_halfBytes, halfOf_halfBytes, halfOf_halfBytes]
  | rotationSet tag slots =>
    obtain rfl := Option.some.inj h
    exact ⟨of_decide_eq_true hw, rfl⟩
  | profileCatalog tag start =>
    cases start with
    | none =>
      obtain rfl := Option.some.inj h
      exact ⟨Nat.le_of_ble_eq_true rfl, rfl⟩
    | some x =>
      obtain rfl := Option.some.inj h
      exact ⟨Nat.le_of_ble_eq_true rfl, rfl⟩
  | configGet | loadBegin | loadEnd | loadAbort | profileDeleteAll | stopPlay | sourceSet | enable | disable | resume | restart | mapSet
  | expectSet | rotate | clearUnit | releaseResources | lineSet | statusReq | unitReq | tableRead | eventRead | unitRelease
  | emergencyStop =>
    obtain rfl := Option.some.inj h
    exact ⟨Nat.le_of_ble_eq_true rfl, rfl⟩
  | _ => cases h

end Sys2Proof.Machine

namespace Sys2Proof.Proofs
open Sys2Proof.Machine

/-- Settles O4: a packet of the plant link spells its command (`spells_plantPacket`), and so do the three frames of a unit link. -/
theorem decodeOfEncode : Obligations.DecodeOfEncode := by
  unfold Obligations.DecodeOfEncode
  intro c l bytes hw h
  unfold encode at h
  split at h
  · rename_i k hk
    cases h
    exact (spells_plantPacket hw hk).frame
  · rename_i p kind payload _ hu
    cases h
    cases c with
    | ident p n =>
      cases hu
      exact decodeFrame_unitFrame (Nat.le_of_ble_eq_true rfl) rfl
    | status p m w r a c t =>
      cases hu
      exact decodeFrame_unitFrame (Nat.le_of_ble_eq_true rfl) (congrArg (Instr.status p m · r a c t) (halfOf_halfBytes w))
    | orderAck p t x c =>
      cases hu
      exact decodeFrame_unitFrame (Nat.le_of_ble_eq_true rfl) rfl
    | _ => cases hu
  · cases h

end Sys2Proof.Proofs
end

section
/-! Assignment (R51 to R59): a demand's walks as one list of turns, what a turn that takes a slot has checked, and what the assignment
writes (O13, O59). -/

namespace Sys2Proof.Machine

/-! ## The turns of a demand -/

/-- A turn: a current mode and the slot that is asked for it. -/
abbrev Turning := Stable × Slot

/-- The turns of a demand's walks: each current mode in turn, the rotation order within it (R54). -/
def turns (curs : List Stable) (order : List Slot) : List Turning := curs.flatMap (fun c => order.map (fun u => (c, u)))

def State.takeTurn (s : State) (mode : Stable) (a : Filling) (x : Turning) : Filling := s.takeSlot mode x.1 a x.2

theorem fill_eq_turns (s : State) (mode : Stable) (curs : List Stable) (a : Filling) :
    curs.foldl (s.fillStage mode) a = (turns curs s.ros.rotation).foldl (s.takeTurn mode) a := by
  rw [turns, List.foldl_flatMap]
  congr 1
  funext a c
  rw [List.foldl_map]
  rfl

theorem mem_turns {curs : List Stable} {order : List Slot} {c : Stable} {u : Slot} :
    (c, u) ∈ turns curs order ↔ c ∈ curs ∧ u ∈ order := by
  simp [turns, List.mem_flatMap]

theorem grew_turns (s : State) (mode : Stable) (xs : List Turning) (a : Filling) : Grew s mode a (xs.foldl (s.takeTurn mode) a) :=
  grew_fold s mode (s.takeTurn mode) (fun a x => grew_takeSlot s mode x.1 a x.2) xs a

/-- A slot that gets its mode in the walks got it at a turn of its current mode, which has made every check. -/
theorem taken_at {s : State} {mode : Stable} {u : Slot} (xs : List Turning) :
    ∀ a : Filling, a.got.get u = none → (xs.foldl (s.takeTurn mode) a).got.get u = some mode →
      ∃ (pre post : List Turning) (c : Stable), xs = pre ++ (c, u) :: post
        ∧ s.takes mode c (pre.foldl (s.takeTurn mode) a) u = true := by
  induction xs with
  | nil =>
    intro a hn hg
    rw [List.foldl_nil, hn] at hg
    cases hg
  | cons x xs ih =>
    intro a hn hg
    by_cases h : (s.takeTurn mode a x).got.get u = none
    · obtain ⟨pre, post, c, rfl, ht⟩ := ih _ h hg
      exact ⟨x :: pre, post, c, rfl, ht⟩
    · unfold State.takeTurn State.takeSlot at h
      split at h
      · rename_i ht
        have hu : u = x.2 := by
          by_contra hne
          rw [SlotMap.get_set, if_neg hne] at h
          exact h hn
        subst hu
        exact ⟨[], xs, x.1, rfl, ht⟩
      · exact absurd hn h

/-- What a turn has checked. -/
theorem takes_iff {s : State} {mode c : Stable} {a : Filling} {u : Slot} : s.takes mode c a u = true ↔
    a.left ≠ 0 ∧ s.automatic u = true ∧ a.got.get u = none ∧ s.currentMode u = some c ∧ s.converterOk c mode = true
      ∧ s.mixingOk a.got mode u = true := by
  simp only [State.takes, Bool.and_eq_true, decide_eq_true_eq, Option.isNone_iff_eq_none, beq_iff_eq, and_assoc]

theorem takeTurn_takes {s : State} {mode c : Stable} {a : Filling} {u : Slot} (h : s.takes mode c a u = true) :
    (s.takeTurn mode a (c, u)).got.get u = some mode := by
  unfold State.takeTurn State.takeSlot
  rw [if_pos h, SlotMap.get_set, if_pos rfl]

/-- A slot that fits and is free in the end, at a turn of its own before the turn that took another, would have been taken. -/
theorem not_before {s : State} {mode cu cv : Stable} {u v : Slot} {pre post : List Turning} {a : Filling}
    (hpre : (cv, v) ∉ pre) (hcv : s.currentMode v = some cv) (hv : a.got.get v = none)
    (hgot : ((pre ++ (cu, u) :: post).foldl (s.takeTurn mode) a).got.get v = some mode) (ha : s.automatic u = true)
    (hfree : ((pre ++ (cu, u) :: post).foldl (s.takeTurn mode) a).got.get u = none) (hcu : s.currentMode u = some cu)
    (hconv : s.converterOk cu mode = true)
    (hmix : s.mixingOk ((pre ++ (cu, u) :: post).foldl (s.takeTurn mode) a).got mode u = true) : False := by
  rw [List.foldl_append, List.foldl_cons] at hgot hfree hmix
  have hrest := grew_turns s mode post (s.takeTurn mode (pre.foldl (s.takeTurn mode) a) (cu, u))
  have hturn := grew_takeSlot s mode cu (pre.foldl (s.takeTurn mode) a) u
  have hthen := hturn.trans hrest
  -- `v` is free up to the turn of `u`, so the count is not met there
  have hvpre : (pre.foldl (s.takeTurn mode) a).got.get v = none := by
    cases hg : (pre.foldl (s.takeTurn mode) a).got.get v with
    | none => rfl
    | some m =>
      rcases (grew_turns s mode pre a).new v m hg with h | ⟨-, rfl, -⟩
      · rw [hv] at h
        cases h
      · obtain ⟨p, q, c, rfl, ht⟩ := taken_at pre a hv hg
        obtain ⟨-, -, -, hc, -⟩ := takes_iff.mp ht
        obtain rfl : c = cv := Option.some.inj (hc.symm.trans hcv)
        exact absurd (List.mem_append_right p List.mem_cons_self) hpre
  have hleft : (pre.foldl (s.takeTurn mode) a).left ≠ 0 := by
    obtain ⟨p, q, c, hl, ht⟩ := taken_at ((cu, u) :: post) _ hvpre hgot
    have hg := (grew_turns s mode p (pre.foldl (s.takeTurn mode) a)).left
    have := (takes_iff.mp ht).1
    omega
  have hupre : (pre.foldl (s.takeTurn mode) a).got.get u = none := by
    cases hg : (pre.foldl (s.takeTurn mode) a).got.get u with
    | none => rfl
    | some m => exact absurd (hthen.keep u m hg) (by rw [show _ = none from hfree]; exact Option.some_ne_none m |>.symm)
  have htakes : s.takes mode cu (pre.foldl (s.takeTurn mode) a) u = true :=
    takes_iff.mpr ⟨hleft, ha, hupre, hcu, hconv, mixing_mono hthen.keep mode u hmix⟩
  have htaken : (s.takeTurn mode (pre.foldl (s.takeTurn mode) a) (cu, u)).got.get u = some mode := takeTurn_takes htakes
  rw [hrest.keep u mode htaken] at hfree
  cases hfree

/-! ## One demand -/

/-- All the current modes that a demand is filled from, nearest first (R54). -/
def nearest (m : Stable) : List Stable := m :: closeness m

theorem mem_nearest {m : Stable} (h : m ≠ .ss) (c : Stable) : c ∈ nearest m := by
  cases m with
  | ss => exact absurd rfl h
  | pmp | gen | cnd => cases c <;> decide

/-- The list up to the first place of a member of it. -/
theorem split_at {α : Type} [DecidableEq α] {xs : List α} {x : α} (h : x ∈ xs) :
    ∃ pre post, xs = pre ++ x :: post ∧ ∀ y ∈ pre, xs.idxOf y < xs.idxOf x := by
  obtain ⟨pre, post, rfl, hx⟩ := List.eq_append_cons_of_mem h
  refine ⟨pre, post, rfl, fun y hy => ?_⟩
  have hlt : pre.idxOf y < pre.length := List.idxOf_lt_length_of_mem hy
  rw [List.idxOf_append_of_mem hy, List.idxOf_append_of_notMem hx, List.idxOf_cons_self]
  omega

/-- Of two slots that a demand could take, the one taken ranks first: by the nearness of its current mode, and then by the rotation
order (R54). -/
theorem ranked {s : State} {mode cu cv : Stable} {u v : Slot} {a : Filling} (hmode : mode ≠ .ss) (hr : ∀ w, w ∈ s.ros.rotation)
    (hv : a.got.get v = none) (hgot : ((nearest mode).foldl (s.fillStage mode) a).got.get v = some mode)
    (hcv : s.currentMode v = some cv) (ha : s.automatic u = true)
    (hfree : ((nearest mode).foldl (s.fillStage mode) a).got.get u = none) (hcu : s.currentMode u = some cu)
    (hconv : s.converterOk cu mode = true) (hmix : s.mixingOk ((nearest mode).foldl (s.fillStage mode) a).got mode u = true) :
    (nearest mode).idxOf cv < (nearest mode).idxOf cu ∨ cv = cu ∧ s.ros.rotation.idxOf v < s.ros.rotation.idxOf u := by
  by_contra hnot
  rw [not_or, not_and] at hnot
  obtain ⟨hmodes, hslots⟩ := hnot
  obtain ⟨cpre, cpost, hc, hcidx⟩ := split_at (mem_nearest hmode cu)
  obtain ⟨upre, upost, hu, huidx⟩ := split_at (hr u)
  have hcvpre : cv ∉ cpre := fun h => hmodes (hcidx cv h)
  rw [fill_eq_turns] at hgot hfree hmix
  have hsplit : turns (nearest mode) s.ros.rotation
      = (turns cpre s.ros.rotation ++ upre.map (fun w => (cu, w))) ++ (cu, u) :: (upost.map (fun w => (cu, w)) ++ turns cpost s.ros.rotation) := by
    have hmap : s.ros.rotation.map (fun w => (cu, w)) = upre.map (fun w => (cu, w)) ++ (cu, u) :: upost.map (fun w => (cu, w)) := by
      conv_lhs => rw [hu]
      rw [List.map_append, List.map_cons]
    unfold turns
    rw [hc, List.flatMap_append, List.flatMap_cons, hmap, List.append_assoc, List.append_assoc, List.cons_append]
  rw [hsplit] at hgot hfree hmix
  refine not_before ?_ hcv hv hgot ha hfree hcu hconv hmix
  intro hmem
  rcases List.mem_append.mp hmem with h | h
  · exact hcvpre (mem_turns.mp h).1
  · obtain ⟨w, hw, he⟩ := List.mem_map.mp h
    obtain ⟨rfl, rfl⟩ := Prod.mk.inj he
    exact hslots rfl (huidx _ hw)

/-! ## The three demands (R53) -/

section
variable (s : State) (row : PlanRow)

/-- What the demand for PMP leaves. -/
def State.pmpFilling : Filling := s.fillDemand .pmp row.nPmp (.const none)
/-- What the demand for GEN leaves after it. -/
def State.genFilling : Filling := s.fillDemand .gen row.nGen (s.pmpFilling row).got
/-- What the demand for CND leaves after both. -/
def State.cndFilling : Filling := s.fillDemand .cnd row.nCnd (s.genFilling row).got

theorem assignRow_eq : s.assignRow row =
    ⟨(s.cndFilling row).got, (s.pmpFilling row).left, (s.genFilling row).left, (s.cndFilling row).left⟩ := rfl

theorem grew_demand (mode : Stable) (n : Nat) (got : SlotMap (Option Stable)) :
    Grew s mode ⟨got, n⟩ (s.fillDemand mode n got) := grew_fill s mode _ _

theorem grew_pmp : Grew s .pmp ⟨.const none, row.nPmp⟩ (s.pmpFilling row) := grew_demand s .pmp _ _
theorem grew_gen : Grew s .gen ⟨(s.pmpFilling row).got, row.nGen⟩ (s.genFilling row) := grew_demand s .gen _ _
theorem grew_cnd : Grew s .cnd ⟨(s.genFilling row).got, row.nCnd⟩ (s.cndFilling row) := grew_demand s .cnd _ _

end

/-- The number of slots given a mode. -/
def givenCount (got : SlotMap (Option Stable)) (m : Stable) : Nat := (Slot.all.filter (fun u => got.get u == some m)).length

/-- A demand for another mode gives none of this one, and takes none away. -/
theorem Grew.same {s : State} {mode : Stable} {a b : Filling} (h : Grew s mode a b) {m : Stable} (hm : m ≠ mode) (u : Slot) :
    b.got.get u = some m ↔ a.got.get u = some m := by
  refine ⟨fun hb => ?_, h.keep u m⟩
  rcases h.new u m hb with ha | ⟨-, hm', -⟩
  · exact ha
  · exact absurd hm' hm

theorem Grew.givenCount_same {s : State} {mode : Stable} {a b : Filling} (h : Grew s mode a b) {m : Stable} (hm : m ≠ mode) :
    givenCount b.got m = givenCount a.got m := by
  unfold givenCount
  congr 1
  refine List.filter_congr fun u _ => ?_
  rw [Bool.eq_iff_iff, beq_iff_eq, beq_iff_eq]
  exact h.same hm u

/-- A demand gives its mode to as many slots as it counts, less its shortfall. -/
theorem Grew.givenCount_add {s : State} {mode : Stable} {n : Nat} {got : SlotMap (Option Stable)} {b : Filling}
    (h : Grew s mode ⟨got, n⟩ b) (none_yet : ∀ u, got.get u ≠ some mode) : givenCount b.got mode + b.left = n := by
  have hzero : (Slot.all.filter (fun u => got.get u == some mode)).length = 0 := by
    rw [List.length_eq_zero_iff, List.filter_eq_nil_iff]
    intro u _ hu
    exact none_yet u (beq_iff_eq.mp hu)
  have := h.count
  unfold givenCount
  dsimp only at this
  omega

section
variable (s : State) (row : PlanRow)

theorem pmp_none (u : Slot) (m : Stable) (hm : m ≠ .pmp) : (s.pmpFilling row).got.get u ≠ some m := by
  rw [ne_eq, (grew_pmp s row).same hm, SlotMap.get_const]
  exact (Option.some_ne_none m).symm

theorem gen_none (u : Slot) (m : Stable) (hp : m ≠ .pmp) (hg : m ≠ .gen) : (s.genFilling row).got.get u ≠ some m := by
  rw [ne_eq, (grew_gen s row).same hg]
  exact pmp_none s row u m hp

/-- Each demand gets its count less its shortfall (R53). -/
theorem assignRow_counts : givenCount (s.assignRow row).got .pmp + (s.assignRow row).shortPmp = row.nPmp
    ∧ givenCount (s.assignRow row).got .gen + (s.assignRow row).shortGen = row.nGen
    ∧ givenCount (s.assignRow row).got .cnd + (s.assignRow row).shortCnd = row.nCnd := by
  rw [assignRow_eq]
  refine ⟨?_, ?_, ?_⟩
  · rw [(grew_cnd s row).givenCount_same (by decide), (grew_gen s row).givenCount_same (by decide)]
    exact (grew_pmp s row).givenCount_add fun u => by rw [SlotMap.get_const]; exact (Option.some_ne_none _).symm
  · rw [(grew_cnd s row).givenCount_same (by decide)]
    exact (grew_gen s row).givenCount_add fun u => pmp_none s row u .gen (by decide)
  · exact (grew_cnd s row).givenCount_add fun u => gen_none s row u .cnd (by decide) (by decide)

/-- A slot given a mode has it from the demand for that mode, which found it free. -/
theorem assignRow_got {u : Slot} {m : Stable} (h : (s.assignRow row).got.get u = some m) : m ≠ .ss ∧ s.automatic u = true
    ∧ (s.currentMode u).isSome = true := by
  rcases (grew_cnd s row).new u m h with h | ⟨-, rfl, ha, hc⟩
  · rcases (grew_gen s row).new u m h with h | ⟨-, rfl, ha, hc⟩
    · rcases (grew_pmp s row).new u m h with h | ⟨-, rfl, ha, hc⟩
      · rw [SlotMap.get_const] at h
        cases h
      · exact ⟨by decide, ha, hc⟩
    · exact ⟨by decide, ha, hc⟩
  · exact ⟨by decide, ha, hc⟩

end

/-- A demand within an assignment: what it was filled from, and that the demands after it leave it as it is. -/
structure Demand (s : State) (mode : Stable) (n : Nat) (got final : SlotMap (Option Stable)) : Prop where
  fresh : ∀ u, got.get u ≠ some mode
  keep : ∀ u m, (s.fillDemand mode n got).got.get u = some m → final.get u = some m
  back : ∀ u, final.get u = some mode → (s.fillDemand mode n got).got.get u = some mode

section
variable (s : State) (row : PlanRow)

theorem demand_pmp : Demand s .pmp row.nPmp (.const none) (s.assignRow row).got where
  fresh u := by rw [SlotMap.get_const]; exact (Option.some_ne_none _).symm
  keep u m h := (grew_cnd s row).keep u m ((grew_gen s row).keep u m h)
  back u h := ((grew_gen s row).same (by decide) u).mp (((grew_cnd s row).same (by decide) u).mp h)

theorem demand_gen : Demand s .gen row.nGen (s.pmpFilling row).got (s.assignRow row).got where
  fresh u := pmp_none s row u .gen (by decide)
  keep u m h := (grew_cnd s row).keep u m h
  back u h := ((grew_cnd s row).same (by decide) u).mp h

theorem demand_cnd : Demand s .cnd row.nCnd (s.genFilling row).got (s.assignRow row).got where
  fresh u := gen_none s row u .cnd (by decide) (by decide)
  keep _ _ h := h
  back _ h := h

end

/-- A slot that a check lets through for a mode: automatic, given none, and passing both checks (R54 to R56). -/
structure Fits (s : State) (got : SlotMap (Option Stable)) (u : Slot) (m cur : Stable) : Prop where
  automatic : s.automatic u = true
  free : got.get u = none
  mixing : s.mixingOk got m u = true
  current : s.currentMode u = some cur
  converter : s.converterOk cur m = true

namespace Demand

variable {s : State} {mode : Stable} {n : Nat} {got final : SlotMap (Option Stable)}

/-- A slot free in the end was free when the demand was filled, and passed its mixing check. -/
theorem fits (d : Demand s mode n got final) {u : Slot} {cur : Stable} (h : Fits s final u mode cur) :
    Fits s (s.fillDemand mode n got).got u mode cur where
  automatic := h.automatic
  free := by
    cases hf : (s.fillDemand mode n got).got.get u with
    | none => rfl
    | some m =>
      have := d.keep u m hf
      rw [h.free] at this
      cases this
  mixing := mixing_mono d.keep mode u h.mixing
  current := h.current
  converter := h.converter

/-- A slot given the mode was free before the demand. -/
theorem free_before (d : Demand s mode n got final) {u : Slot} (h : final.get u = some mode) : got.get u = none := by
  cases hg : got.get u with
  | none => rfl
  | some m =>
    have hk := (grew_demand s mode n got).keep u m hg
    rw [d.back u h] at hk
    obtain rfl := Option.some.inj hk
    exact absurd hg (d.fresh u)

/-- While a demand is short, no fitting slot is left over (R53). -/
theorem full (d : Demand s mode n got final) (hmode : mode ≠ .ss) (hr : ∀ w, w ∈ s.ros.rotation)
    (hl : (s.fillDemand mode n got).left ≠ 0) {u : Slot} {cur : Stable} (h : Fits s final u mode cur) : False := by
  have hf := d.fits h
  have := fill_complete s mode hr (nearest mode) _ u cur (mem_nearest hmode cur) hl hf.automatic hf.free hf.current hf.converter
  exact absurd (hf.mixing.symm.trans this) (by decide)

/-- No fitting slot ranks before one taken (R54). -/
theorem first (d : Demand s mode n got final) (hmode : mode ≠ .ss) (hr : ∀ w, w ∈ s.ros.rotation) {u v : Slot} {cu cv : Stable}
    (hv : final.get v = some mode) (hcv : s.currentMode v = some cv) (h : Fits s final u mode cu) :
    (nearest mode).idxOf cv < (nearest mode).idxOf cu ∨ cv = cu ∧ s.ros.rotation.idxOf v < s.ros.rotation.idxOf u := by
  have hf := d.fits h
  exact ranked hmode hr (d.free_before hv) (d.back v hv) hcv hf.automatic hf.free hf.current hf.converter hf.mixing

/-- A slot given the mode was taken at a turn, with what the demands before and the turns before had given. -/
theorem took (d : Demand s mode n got final) {u : Slot} (h : final.get u = some mode) : ∃ (cur : Stable) (a : Filling),
    s.takes mode cur a u = true ∧ ∀ v m, got.get v = some m → a.got.get v = some m := by
  have hf := d.back u h
  unfold State.fillDemand at hf
  rw [fill_eq_turns] at hf
  obtain ⟨pre, post, cur, -, ht⟩ := taken_at _ _ (d.free_before h) hf
  exact ⟨cur, _, ht, (grew_turns s mode pre ⟨got, n⟩).keep⟩

end Demand

theorem forbidsMixing_iff {s : State} {u : Slot} : s.forbidsMixing u = true ↔
    ∃ w q, s.waterwayOf u = some w ∧ s.waterwayRec w = some q ∧ q.row.mixing ≠ 1 := by
  unfold State.forbidsMixing
  rw [Option.any_eq_true]
  simp only [Option.bind_eq_some_iff, WaterwayRow.mixingAllowed, Bool.not_eq_true', beq_eq_false_iff_ne]
  constructor
  · rintro ⟨q, ⟨w, hw, hq⟩, hm⟩
    exact ⟨w, q, hw, hq, hm⟩
  · rintro ⟨w, q, hw, hq, hm⟩
    exact ⟨q, ⟨w, hw, hq⟩, hm⟩

/-- Where mixing is forbidden, a slot that has passed the check stands against no other (R56). -/
theorem unopposed {s : State} {got : SlotMap (Option Stable)} {mode opp : Stable} {u v : Slot} (ho : oppositeMode mode = some opp)
    (hf : s.forbidsMixing u = true) (hm : s.mixingOk got mode u = true) (hne : v ≠ u) (hw : s.waterwayOf v = s.waterwayOf u) :
    got.get v ≠ some opp ∧ ∀ h, (s.unitRec v).hold = some h → h.mode ≠ opp := by
  unfold State.mixingOk at hm
  rw [ho] at hm
  dsimp only at hm
  rw [hf, Bool.true_and, Bool.not_eq_true'] at hm
  unfold State.opposed at hm
  have hv := List.any_eq_false.mp hm v (Slot.mem_all v)
  simp only [Bool.and_eq_true, bne_iff_ne, ne_eq, beq_iff_eq, hne, not_false_eq_true, hw, true_and, Bool.or_eq_true, not_or] at hv
  refine ⟨hv.1, fun h hh he => hv.2 ?_⟩
  rw [hh]
  exact beq_iff_eq.mpr he

/-! ## What an assignment writes (R57, R58) -/

theorem turn_handDesired (old : SlotMap (Option Stable)) (s : State) (u : Slot) : Turn s (State.handDesired old s u) := by
  unfold State.handDesired
  split
  · exact .refl
  · exact turn_takeDemand s u

theorem notePlanShort_pln (s : State) (a : Assignment) : (s.notePlanShort a).pln = { s.pln with
    short := decide (a.shortPmp + a.shortGen + a.shortCnd ≠ 0), shortPmp := a.shortPmp, shortGen := a.shortGen, shortCnd := a.shortCnd } := by
  unfold State.notePlanShort
  dsimp only
  split <;> rfl

theorem assign_pln {s : State} {row : PlanRow} (h : s.selectedRow = some row) : s.assign.pln = { s.pln with
    desired := s.desiredOf (s.assignRow row)
    short := decide ((s.assignRow row).shortPmp + (s.assignRow row).shortGen + (s.assignRow row).shortCnd ≠ 0)
    shortPmp := (s.assignRow row).shortPmp, shortGen := (s.assignRow row).shortGen, shortCnd := (s.assignRow row).shortCnd } := by
  unfold State.assign
  rw [h]
  dsimp only
  have hturn := Turn.foldl (f := State.handDesired s.pln.desired) (turn_handDesired s.pln.desired)
    ((s.setPln { s.pln with desired := s.desiredOf (s.assignRow row) }).notePlanShort (s.assignRow row)).ros.rotation
    ((s.setPln { s.pln with desired := s.desiredOf (s.assignRow row) }).notePlanShort (s.assignRow row))
  rw [hturn.frame.pln, notePlanShort_pln]
  rfl

end Sys2Proof.Machine

namespace Sys2Proof.Proofs
open Sys2Proof.Machine

/-- With no converters, no slot is taken by a path that needs one (R55). -/
theorem noStart_of_converterOk {s : State} {c m : Stable} (h : s.converterOk c m = true) (h0 : s.params.converters = 0) :
    ∀ st ∈ pathOf c m, st.kind ≠ .pStart := by
  intro st hst hk
  have hneeds : needsConverter c m = true := List.any_eq_true.mpr ⟨st, hst, beq_iff_eq.mpr hk⟩
  unfold State.converterOk at h
  rw [h0, hneeds] at h
  cases h

/-- Settles O59: each demand within the assignment (`Demand`) takes by the turns of its walks, and what it leaves over fits nowhere. -/
theorem assignmentFills : Obligations.AssignmentFills := by
  unfold Obligations.AssignmentFills
  intro s row hperm a count fits near forbidden against
  have hr : ∀ u, u ∈ s.ros.rotation := fun u => hperm.mem_iff.mpr (Slot.mem_all u)
  have dp := demand_pmp s row
  have dg := demand_gen s row
  have dc := demand_cnd s row
  -- what each mode's demand says of a slot that is given it
  have took {u : Slot} {m : Stable} (h : a.got.get u = some m) : ∃ cur b, s.takes m cur b u = true := by
    have hss := (assignRow_got s row h).1
    cases m with
    | ss => exact absurd rfl hss
    | pmp => obtain ⟨c, b, ht, -⟩ := dp.took h; exact ⟨c, b, ht⟩
    | gen => obtain ⟨c, b, ht, -⟩ := dg.took h; exact ⟨c, b, ht⟩
    | cnd => obtain ⟨c, b, ht, -⟩ := dc.took h; exact ⟨c, b, ht⟩
  have hfits {u : Slot} {m : Stable} (h : fits u m) : ∃ cur, Fits s a.got u m cur := by
    obtain ⟨ha, hf, hm, c, hc, ho⟩ := h
    exact ⟨c, ha, hf, hm, hc, ho⟩
  refine ⟨fun u m h => ?_, assignRow_counts s row, ⟨fun hl u h => ?_, fun hl u h => ?_, fun hl u h => ?_⟩, ?_, ?_, ?_, ?_⟩
  · obtain ⟨hss, ha, hc⟩ := assignRow_got s row h
    exact ⟨ha, hss, hc⟩
  · obtain ⟨c, hf⟩ := hfits h
    exact dp.full (by decide) hr hl hf
  · obtain ⟨c, hf⟩ := hfits h
    exact dg.full (by decide) hr hl hf
  · obtain ⟨c, hf⟩ := hfits h
    exact dc.full (by decide) hr hl hf
  · intro u v m cu cv hv hu hcu hcv
    obtain ⟨c, hf⟩ := hfits hu
    obtain rfl : c = cu := Option.some.inj (hf.current.symm.trans hcu)
    have hss := (assignRow_got s row hv).1
    cases m with
    | ss => exact absurd rfl hss
    | pmp => exact dp.first (by decide) hr hv hcv hf
    | gen => exact dg.first (by decide) hr hv hcv hf
    | cnd => exact dc.first (by decide) hr hv hcv hf
  · intro u m c st h hc h0 hst
    obtain ⟨cur, b, ht⟩ := took h
    obtain ⟨-, -, -, hcur, hconv, -⟩ := takes_iff.mp ht
    obtain rfl : cur = c := Option.some.inj (hcur.symm.trans hc)
    exact noStart_of_converterOk hconv h0 st hst
  · intro u v hne hw hforb
    have hfu := forbidsMixing_iff.mpr hforb
    have hfv : s.forbidsMixing v = true := by rw [State.forbidsMixing, hw]; exact hfu
    refine ⟨fun hp hag => ?_, fun hg hag => ?_⟩
    · rcases hag with hvg | ⟨h, hh, hm⟩
      · obtain ⟨cur, b, ht, hkeep⟩ := dg.took hvg
        have hpu : b.got.get u = some .pmp := hkeep u .pmp (dp.back u hp)
        exact (unopposed rfl hfv (takes_iff.mp ht).2.2.2.2.2 hne.symm hw.symm).1 hpu
      · obtain ⟨cur, b, ht⟩ := took hp
        exact (unopposed rfl hfu (takes_iff.mp ht).2.2.2.2.2 hne hw).2 h hh hm
    · obtain ⟨cur, b, ht, hkeep⟩ := dg.took hg
      have hun := unopposed rfl hfu (takes_iff.mp ht).2.2.2.2.2 hne hw
      rcases hag with hvp | ⟨h, hh, hm⟩
      · exact hun.1 (hkeep v .pmp (dp.back v hvp))
      · exact hun.2 h hh hm
  · intro hrow
    have hpln := assign_pln hrow
    refine ⟨cascade_assign s, fun u => ?_, ?_, ?_, ?_, ?_⟩
    · rw [hpln]
      exact SlotMap.get_ofFn _ u
    · rw [hpln]
      exact decide_eq_true_iff
    all_goals rw [hpln]

end Sys2Proof.Proofs
end

section
/-! The desired modes stay those of an assignment (O13): no operation but row selection, the commit of a mode plan and the passage to or from
STANDBY touches the planner before the cascade, and the cascade assigns anew wherever an automatic condition has changed. -/

namespace Sys2Proof.Machine

/-! ## The planner, with the automatic slots of a given moment -/

/-- As `PlanWf`, where the automatic slots are those of `auto`. -/
structure PlanOn (auto : Slot → Bool) (s : State) : Prop where
  standby : s.pli.part = .standby → s.pln = .cleared s.pln.table
  selected : s.pln.selected.isSome = true → s.selectedRow.isSome = true
  proposed : ∀ p rows, s.pln.proposal = some p → s.pln.table = some rows → s.pln.selected.isSome = true ∧ p.row < rows.length
  automatic : ∀ u d, s.pln.desired.get u = some d → auto u = true
  given : s.pln.selected.isSome = true → ∀ u, auto u = true → (s.pln.desired.get u).isSome = true
  counts : ∀ row, s.selectedRow = some row →
    s.desiring .pmp + s.pln.shortPmp = row.nPmp ∧ s.desiring .gen + s.pln.shortGen = row.nGen ∧ s.desiring .cnd + s.pln.shortCnd = row.nCnd
  short : s.pln.short = true ↔ s.pln.shortPmp + s.pln.shortGen + s.pln.shortCnd ≠ 0

theorem planWf_iff {s : State} : PlanWf s ↔ PlanOn s.automatic s :=
  ⟨fun h => ⟨h.standby, h.selected, h.proposed, h.automatic, h.given, h.counts, h.short⟩,
    fun h => ⟨h.standby, h.selected, h.proposed, h.automatic, h.given, h.counts, h.short⟩⟩

theorem selectedRow_congr {s t : State} (h : t.pln = s.pln) : t.selectedRow = s.selectedRow := by rw [State.selectedRow, State.selectedRow, h]

theorem PlanOn.congr {auto : Slot → Bool} {s t : State} (h : PlanOn auto s) (pln : t.pln = s.pln)
    (part : t.pli.part = .standby → s.pli.part = .standby) : PlanOn auto t where
  standby ht := by rw [pln]; exact h.standby (part ht)
  selected := by rw [pln, selectedRow_congr pln]; exact h.selected
  proposed := by rw [pln]; exact h.proposed
  automatic := by rw [pln]; exact h.automatic
  given := by rw [pln]; exact h.given
  counts row := by rw [State.desiring, State.desiring, State.desiring, pln, selectedRow_congr pln]; exact h.counts row
  short := by rw [pln]; exact h.short

/-- A planner as after RESTART meets every clause, whatever slots are automatic. -/
theorem planOn_cleared (auto : Slot → Bool) {s : State} (h : s.pln = .cleared s.pln.table) : PlanOn auto s where
  standby _ := h
  selected hs := by rw [h] at hs; cases hs
  proposed p rows hp := by rw [h] at hp; cases hp
  automatic u d hd := by
    rw [h] at hd
    have hd : (SlotMap.const none : SlotMap (Option Stable)).get u = some d := hd
    rw [SlotMap.get_const] at hd
    cases hd
  given hs := by rw [h] at hs; cases hs
  counts row hr := by
    have hnone : s.selectedRow = none := by
      unfold State.selectedRow
      rw [h]
      cases s.pln.table <;> rfl
    rw [hnone] at hr
    cases hr
  short := by
    rw [h]
    exact ⟨fun hs => absurd hs Bool.false_ne_true, fun hs => absurd rfl hs⟩

/-- What an assignment of the selected row leaves. -/
theorem planOn_assign {s : State} (hg : s.governs = true) (hrow : s.selectedRow.isSome = true)
    (proposed : ∀ p rows, s.pln.proposal = some p → s.pln.table = some rows → s.pln.selected.isSome = true ∧ p.row < rows.length) :
    PlanOn s.automatic s.assign := by
  obtain ⟨row, hrow⟩ := Option.isSome_iff_exists.mp hrow
  have hpln := assign_pln hrow
  have hframe := (cascade_assign s).play
  have hdesired (u : Slot) : s.assign.pln.desired.get u = if s.automatic u then some (((s.assignRow row).got.get u).getD .ss) else none := by
    rw [hpln]
    exact SlotMap.get_ofFn _ u
  have hsel : s.assign.selectedRow = some row := by
    rw [State.selectedRow, hpln]
    exact hrow
  have hcount (m : Stable) (hm : m ≠ .ss) : s.assign.desiring m = givenCount (s.assignRow row).got m := by
    unfold State.desiring givenCount
    congr 1
    refine List.filter_congr fun u _ => ?_
    rw [hdesired, Bool.eq_iff_iff, beq_iff_eq, beq_iff_eq]
    constructor
    · intro h
      split at h
      · cases hgot : (s.assignRow row).got.get u with
        | none =>
          rw [hgot] at h
          exact absurd (Option.some.inj h).symm hm
        | some x =>
          rw [hgot] at h
          exact h
      · cases h
    · intro h
      rw [if_pos (assignRow_got s row h).2.1, h]
      rfl
  obtain ⟨hp, hgen, hc⟩ := assignRow_counts s row
  exact {
    standby := fun hs => by
      rw [hframe.pli] at hs
      rw [State.governs, hs] at hg
      cases hg
    selected := fun _ => by rw [hsel]; rfl
    proposed := by rw [hpln]; exact proposed
    automatic := fun u d hd => by
      rw [hdesired] at hd
      split at hd
      · assumption
      · cases hd
    given := fun _ u ha => by rw [hdesired, if_pos ha]; rfl
    counts := fun r hr => by
      obtain rfl := Option.some.inj (hsel.symm.trans hr)
      rw [hcount _ (by decide), hcount _ (by decide), hcount _ (by decide), hpln]
      exact ⟨hp, hgen, hc⟩
    short := by rw [hpln]; exact decide_eq_true_iff }

/-! ## Row selection (R44 to R50) -/

/-- The proposal or PLAN_GAP is written, and nothing else of the planner. -/
theorem PlanOn.reproposed {auto : Slot → Bool} {s t : State} (h : PlanOn auto s) (proposal : Option Proposal) (gap : Bool)
    (hg : s.governs = true) (pli : t.pli = s.pli) (pln : t.pln = { s.pln with proposal := proposal, gap := gap })
    (ok : ∀ p rows, proposal = some p → s.pln.table = some rows → s.pln.selected.isSome = true ∧ p.row < rows.length) : PlanOn auto t where
  standby ht := by rw [State.governs, ← pli, ht] at hg; cases hg
  selected := by
    rw [State.selectedRow, pln]
    exact h.selected
  proposed := by rw [pln]; exact ok
  automatic := by rw [pln]; exact h.automatic
  given := by rw [pln]; exact h.given
  counts row := by
    rw [State.desiring, State.desiring, State.desiring, State.selectedRow, pln]
    exact h.counts row
  short := by rw [pln]; exact h.short

/-- Adoption of a row of the table (R50). -/
theorem planOn_adopt {s : State} {rows : List PlanRow} {k : Nat} (hg : s.governs = true) (ht : s.pln.table = some rows) (hk : k < rows.length) :
    PlanOn s.automatic (s.adopt k) := by
  have hauto : ∀ u, ((s.setPln { s.pln with selected := some k, proposal := none, gap := false }).post .rowAdopted none (some k)).automatic u
      = s.automatic u := fun u => ((select_setPln s { s.pln with selected := some k, proposal := none, gap := false } rfl).trans
        (cascade_post _ .rowAdopted none (some (k : Int))).toSelectFrame).play.automatic u
  have hrow : ((s.setPln { s.pln with selected := some k, proposal := none, gap := false }).post .rowAdopted none (some k)).selectedRow.isSome
      = true := by
    unfold State.selectedRow
    show (match s.pln.table, some k with | some rows, some k => rows[k]? | _, _ => none).isSome = true
    rw [ht]
    show (rows[k]?).isSome = true
    rw [List.getElem?_eq_getElem hk]
    rfl
  have h := planOn_assign (s := (s.setPln { s.pln with selected := some k, proposal := none, gap := false }).post .rowAdopted none (some k))
    hg hrow (fun p rows hp => by cases hp)
  rw [funext hauto] at h
  exact h

theorem planOn_proposeRow {expired : Bool} {s : State} {rows : List PlanRow} {k : Nat} (hg : s.governs = true) (ht : s.pln.table = some rows)
    (hk : k < rows.length) (hs : s.pln.selected.isSome = true) (h : PlanOn s.automatic s) : PlanOn s.automatic (s.proposeRow expired k) := by
  have hauto : s.clearGap.automatic = s.automatic := funext (select_setPln s { s.pln with gap := false } rfl).play.automatic
  have hadopt : PlanOn s.automatic (s.clearGap.adopt k) := hauto ▸ planOn_adopt (s := s.clearGap) hg ht hk
  unfold State.proposeRow
  dsimp only
  split
  · split
    · exact hadopt
    · exact h.reproposed (t := s.clearGap) s.pln.proposal false hg rfl rfl h.proposed
  · split
    · exact hadopt
    · exact h.reproposed (t := s.clearGap.setPln { s.clearGap.pln with proposal := some { row := k, expiry := later s.clock s.params.dwell } })
        (some { row := k, expiry := later s.clock s.params.dwell }) false hg rfl rfl fun p rows' hp ht' => by
          obtain rfl := Option.some.inj hp
          obtain rfl : rows = rows' := Option.some.inj (ht.symm.trans ht')
          exact ⟨hs, hk⟩

theorem candidateRow_lt {rows : List PlanRow} {x : Int} {k : Nat} (h : candidateRow rows x = some k) : k < rows.length :=
  (List.findIdx?_eq_some_iff_getElem.mp h).1

/-- Row selection while the part governs. -/
theorem planOn_selectRow {expired : Bool} {s : State} (hg : s.governs = true) (h : PlanOn s.automatic s) :
    PlanOn s.automatic (State.selectRow expired s) := by
  unfold State.selectRow
  dsimp only
  split
  · exact h.reproposed (t := s.dropProposal.clearGap) none false hg rfl rfl nofun
  · split
    · refine h.reproposed (t := s.planGap) none true hg ?_ ?_ nofun
      · exact (select_planGap s).play.pli
      · unfold State.planGap
        dsimp only
        split <;> rfl
    · rename_i k hk
      have hlt := candidateRow_lt hk
      obtain ⟨rows, ht⟩ : ∃ rows, s.pln.table = some rows := by
        cases ht : s.pln.table with
        | none =>
          rw [ht] at hlt
          exact absurd hlt (Nat.not_lt_zero k)
        | some rows => exact ⟨rows, rfl⟩
      rw [ht, Option.getD_some] at hlt
      split
      · exact planOn_adopt hg ht hlt
      · rename_i hn
        exact planOn_proposeRow hg ht hlt (Option.isSome_iff_ne_none.mpr (by simpa using hn)) h

/-- The writes of targets and playback, with the row selection they start. -/
theorem Played.planOn {s t : State} (h : Played s t) : PlanOn s.automatic s → t.automatic = s.automatic ∧ PlanOn s.automatic t := by
  intro hs
  induction h with
  | refl => exact ⟨rfl, hs⟩
  | step _ k ih =>
    obtain ⟨ha, hp⟩ := ih
    cases k with
    | tgt b => exact ⟨ha, hp.congr rfl id⟩
    | prf b => exact ⟨ha, hp.congr rfl id⟩
    | post k u v => exact ⟨ha, hp.congr rfl id⟩
    | select hg =>
      refine ⟨(funext (select_selectRow false _).play.automatic).trans ha, ?_⟩
      rw [← ha] at hp ⊢
      exact planOn_selectRow hg hp

/-! ## The cascade (R51, R59) -/

/-- `t` is `s` after some slots that stopped being automatic have lost their desired modes. -/
structure Dropped (before s t : State) (us : List Slot) : Prop where
  pli : t.pli = s.pli
  automatic : t.automatic = s.automatic
  rotation : t.ros.rotation = s.ros.rotation
  pln : t.pln = { s.pln with desired := t.pln.desired }
  less : ∀ u d, t.pln.desired.get u = some d → s.pln.desired.get u = some d
  lost : ∀ u ∈ us, before.automatic u = true → s.automatic u = false → t.pln.desired.get u = none

theorem dropped_fold (before : State) (us : List Slot) : ∀ s : State, Dropped before s (us.foldl (State.dropDesired before) s) us := by
  induction us with
  | nil => exact fun s => ⟨rfl, rfl, rfl, rfl, fun _ _ h => h, nofun⟩
  | cons v us ih =>
    intro s
    have hone : Dropped before s (State.dropDesired before s v) [v] := by
      unfold State.dropDesired
      split
      · have hturn := (turn_takeDemand (s.setPln { s.pln with desired := s.pln.desired.set v none }) v).frame
        have hset := (cascade_setPln s { s.pln with desired := s.pln.desired.set v none } rfl rfl rfl rfl).play
        refine ⟨hturn.cascade.pli, (funext hturn.cascade.play.automatic).trans (funext hset.automatic), by rw [hturn.ros]; rfl,
          by rw [hturn.pln]; rfl, fun u d hd => ?_, fun u hu _ _ => ?_⟩
        · rw [hturn.pln] at hd
          have hd : (s.pln.desired.set v none).get u = some d := hd
          rw [SlotMap.get_set] at hd
          split at hd
          · cases hd
          · exact hd
        · obtain rfl := List.mem_singleton.mp hu
          rw [hturn.pln]
          show (s.pln.desired.set u none).get u = none
          rw [SlotMap.get_set, if_pos rfl]
      · rename_i hn
        refine ⟨rfl, rfl, rfl, rfl, fun _ _ h => h, fun u hu hb ha => ?_⟩
        obtain rfl := List.mem_singleton.mp hu
        exact absurd (by rw [hb, ha]; rfl) hn
    obtain ⟨hpli, hauto, hrot, hpln, hless, hlost⟩ := hone
    obtain ⟨kpli, kauto, krot, kpln, kless, klost⟩ := ih (State.dropDesired before s v)
    refine ⟨kpli.trans hpli, kauto.trans hauto, krot.trans hrot, ?_, fun u d hd => hless u d (kless u d hd), fun u hu hb ha => ?_⟩
    · rw [List.foldl_cons, kpln, hpln]
    · rcases List.mem_cons.mp hu with rfl | hu
      · cases hd : ((u :: us).foldl (State.dropDesired before) s).pln.desired.get u with
        | none => rfl
        | some d =>
          have hv := kless u d hd
          rw [hlost u List.mem_cons_self hb ha] at hv
          cases hv
      · exact klost u hu hb (by rw [hauto]; exact ha)

/-- With no row selected, the slots that have stopped being automatic lose their desired modes (R59). -/
theorem planOn_dropped {before s : State} (hr : ∀ u, u ∈ s.ros.rotation) (hg : s.governs = true) (hsel : s.pln.selected = none)
    (h : PlanOn before.automatic s) : PlanOn s.automatic (s.ros.rotation.foldl (State.dropDesired before) s) := by
  obtain ⟨hpli, -, -, hpln, hless, hlost⟩ := dropped_fold before s.ros.rotation s
  have hnone : (s.ros.rotation.foldl (State.dropDesired before) s).pln.selected = none := by rw [hpln, hsel]
  exact {
    standby := fun ht => by
      rw [hpli] at ht
      rw [State.governs, ht] at hg
      cases hg
    selected := fun hs => by rw [hnone] at hs; cases hs
    proposed := by rw [hpln]; exact h.proposed
    automatic := fun u d hd => by
      by_contra ha
      have hb := h.automatic u d (hless u d hd)
      rw [hlost u (hr u) hb (Bool.eq_false_iff.mpr ha)] at hd
      cases hd
    given := fun hs => by rw [hnone] at hs; cases hs
    counts := fun row hrow => by
      have hrow' : (s.ros.rotation.foldl (State.dropDesired before) s).selectedRow = none := by
        unfold State.selectedRow
        rw [hnone]
        cases (s.ros.rotation.foldl (State.dropDesired before) s).pln.table <;> rfl
      rw [hrow'] at hrow
      cases hrow
    short := by rw [hpln]; exact h.short }

/-- The events of R51 are followed by an assignment, or by R59. -/
theorem planOn_replan {before s : State} (hr : ∀ u, u ∈ s.ros.rotation) (h : PlanOn before.automatic s) :
    PlanOn s.automatic (State.replan before s) := by
  unfold State.replan
  split
  · rename_i hg
    have hp : s.pli.part = .standby := by simpa [State.governs] using hg
    exact planOn_cleared _ (h.standby hp)
  · rename_i hg
    have hg : s.governs = true := by simpa using hg
    split
    · rename_i hsel
      exact planOn_assign hg (h.selected hsel) h.proposed
    · rename_i hsel
      exact planOn_dropped hr hg (by simpa using hsel) h

theorem autoChanged_false {before s : State} (h : autoChanged before s = false) : before.automatic = s.automatic := by
  funext u
  have := List.any_eq_false.mp h u (Slot.mem_all u)
  simpa using this

theorem Turn.planOn {auto : Slot → Bool} {s t : State} (h : Turn s t) (k : PlanOn auto s) : PlanOn auto t :=
  k.congr h.frame.pln fun ht => h.still.part ▸ ht

theorem Turn.automatic {s t : State} (h : Turn s t) : t.automatic = s.automatic := funext h.frame.cascade.play.automatic

/-- What the cascade leaves is an assignment's for the slots that are automatic now. -/
theorem planWf_finish {before s : State} {c : Causes} (hr : ∀ u, u ∈ s.ros.rotation) (h : PlanOn before.automatic s) :
    PlanWf (s.finish before c) := by
  have hdrop : Turn s (Slot.all.foldl (State.dropGrant before) s) := .foldl (turn_dropGrant before) _ _
  have hx := hdrop.planOn h
  have hrx : ∀ u, u ∈ (Slot.all.foldl (State.dropGrant before) s).ros.rotation := by rw [hdrop.frame.ros]; exact hr
  have hplan : PlanOn (s.planStage before c).automatic (s.planStage before c) := by
    unfold State.planStage
    generalize Slot.all.foldl (State.dropGrant before) s = x at hx hrx
    have hreplanned : PlanOn (if autoChanged before x || c.replan then State.replan before x else x).automatic
        (if autoChanged before x || c.replan then State.replan before x else x) := by
      split
      · have hauto : (State.replan before x).automatic = x.automatic := funext (cascade_replan before x).play.automatic
        rw [hauto]
        exact planOn_replan hrx hx
      · rename_i hsame
        rw [Bool.or_eq_true, not_or] at hsame
        rw [← autoChanged_false (Bool.eq_false_iff.mpr hsame.1)]
        exact hx
    have hhand : Turn (if autoChanged before x || c.replan then State.replan before x else x)
        (c.hand.foldl State.takeDemand (if autoChanged before x || c.replan then State.replan before x else x)) :=
      .foldl turn_takeDemand _ _
    dsimp only
    rw [hhand.automatic]
    exact hhand.planOn hreplanned
  have hgrant := turn_grantStage (s.planStage before c) before c
  rw [← hgrant.automatic] at hplan
  have hgranted := hgrant.planOn hplan
  rw [planWf_iff]
  unfold State.finish State.allocStage
  split
  · rw [funext (cascade_allocate ((s.planStage before c).grantStage before c)).play.automatic]
    exact hgranted.congr (Proofs.allocate_pln _) fun ht => (cascade_allocate _).play.pli ▸ ht
  · exact hgranted

/-! ## Every command -/

/-- The rotation order holds each slot once, and the planner is as an assignment has left it. -/
structure Plans (s : State) : Prop where
  rotation : s.ros.rotation.Perm Slot.all
  plan : PlanWf s

/-- Before the cascade: the planner is as an assignment for the slots `auto` has left it. -/
structure Due (auto : Slot → Bool) (s : State) : Prop where
  rotation : s.ros.rotation.Perm Slot.all
  plan : PlanOn auto s

theorem Due.still {auto : Slot → Bool} {s t : State} (h : Due auto s) (k : Still s t) : Due auto t :=
  ⟨k.rotation ▸ h.rotation, h.plan.congr k.pln fun ht => k.part ▸ ht⟩

theorem Played.rotation {s t : State} (h : Played s t) : t.ros.rotation = s.ros.rotation := by
  induction h with
  | refl => rfl
  | step _ k ih =>
    refine Eq.trans ?_ ih
    cases k with
    | tgt b => rfl
    | prf b => rfl
    | post k u v => rfl
    | select _ => exact (select_selectRow false _).play.rotation

theorem Due.played {auto : Slot → Bool} {s t : State} (h : Due auto s) (ha : s.automatic = auto) (k : Played s t) : Due auto t := by
  subst ha
  exact ⟨k.rotation ▸ h.rotation, (k.planOn h.plan).2⟩

theorem setPli_automatic (s : State) (b : Pli) : (s.setPli b).automatic = s.automatic := rfl

theorem Due.finish {before s : State} {c : Causes} (h : Due before.automatic s) : Plans (s.finish before c) := by
  refine ⟨?_, planWf_finish (fun u => h.rotation.mem_iff.mpr (Slot.mem_all u)) h.plan⟩
  rw [(cascade_finish s before c).play.rotation]
  exact h.rotation

theorem Plans.due {s : State} (h : Plans s) : Due s.automatic s := ⟨h.rotation, planWf_iff.mp h.plan⟩

/-- Nothing of the planner, nor what makes a slot automatic, is written. -/
theorem Plans.still {s t : State} (h : Plans s) (k : Still s t) (auto : t.automatic = s.automatic) : Plans t := by
  have hd := h.due.still k
  rw [← auto] at hd
  exact ⟨hd.rotation, planWf_iff.mpr hd.plan⟩

theorem PlayFrame.automatic_eq {s t : State} (h : PlayFrame s t) : t.automatic = s.automatic := funext h.automatic

/-- What makes a slot automatic is the same (R7, R8). -/
theorem automatic_congr {s t : State} (state : ∀ p, (t.portRec p).state = (s.portRec p).state) (caps : t.head.caps = s.head.caps)
    (unit : ∀ u, { t.unitRec u with expected := 0 } = { s.unitRec u with expected := 0 }) : t.automatic = s.automatic := by
  funext u
  obtain ⟨hport, -, hreport, hhold, htrip, hfault, hback, -⟩ := UnitRec.mk.inj (unit u)
  have hst : t.portState u = s.portState u := by
    unfold State.portState State.slotPort
    rw [hport]
    cases (s.unitRec u).port with
    | none => rfl
    | some p => exact state p
  unfold State.automatic State.dispatchable
  dsimp only
  rw [hst, hreport, htrip, hfault, hback, hhold, caps]

theorem Framed.automatic {s t : State} (h : Framed s t) : t.automatic = s.automatic := by
  refine automatic_congr (fun p => ?_) (by rw [h.head]) fun u => by rw [State.unitRec_congr h.ros]
  have := h.ports p
  exact (PortRec.mk.inj this).1

theorem Framed.plans {s t : State} (h : Framed s t) (k : Plans s) : Plans t := by
  have hpart : ({ t.pli with framer := none } : Pli).part = ({ s.pli with framer := none } : Pli).part := by rw [h.pli]
  have hp := (planWf_iff.mp k.plan).congr h.pln fun ht => (show t.pli.part = s.pli.part from hpart) ▸ ht
  rw [← h.automatic] at hp
  exact ⟨by rw [h.ros]; exact k.rotation, planWf_iff.mpr hp⟩

theorem Plans.same {s t : State} (h : Plans s) (k : Still s t) (state : ∀ p, (t.portRec p).state = (s.portRec p).state)
    (caps : t.head.caps = s.head.caps) (ros : t.ros = s.ros) : Plans t :=
  h.still k (automatic_congr state caps fun u => by rw [State.unitRec_congr ros])

/-- Nothing but a block that neither the planner nor the roster reads. -/
theorem Plans.block {s t : State} (h : Plans s) (k : Still s t) (ports : t.ports = s.ports) (caps : t.head.caps = s.head.caps) (ros : t.ros = s.ros) :
    Plans t :=
  h.same k (fun p => by rw [State.portRec_congr ports]) caps ros

theorem plans_cleared {s : State} (rotation : s.ros.rotation.Perm Slot.all) (h : s.pln = .cleared s.pln.table) : Plans s :=
  ⟨rotation, planWf_iff.mpr (planOn_cleared _ h)⟩

theorem plans_sendNext {s : State} (p : Port) (h : Plans s) : Plans (s.sendNext p) := by
  have hset (x : State) (r : PortRec) (hr : r.state = (x.portRec p).state) (q : Port) :
      ((x.setPort p r).portRec q).state = (x.portRec q).state := by
    rw [State.setPort_portRec]
    split
    · rename_i hq
      rw [hr, hq]
    · rfl
  unfold State.sendNext
  split
  · exact h
  · exact h.same (still_setPort s p _) (hset s _ rfl) rfl rfl
  · rename_i f rest _ _
    exact (h.same (still_setPort s p { s.portRec p with queue := rest }) (hset s _ rfl) rfl rfl).same (still_beginSending _ p f)
      (hset _ _ rfl) rfl rfl

/-- The mode plan committed while the part governs is selected from afresh, and in STANDBY it only stands in the table (R41). -/
theorem due_commitPlan {auto : Slot → Bool} {s : State} (rows : List PlanRow) (h : Due auto s) (ha : s.automatic = auto) :
    Due auto (s.commitPlan rows) := by
  have hauto : ((s.setPln { s.pln with table := some rows }).post .tableCommitted none (some (tablePosCode .plan))).automatic = auto :=
    (automatic_congr (fun _ => rfl) rfl fun _ => rfl).trans ha
  have hrot : (s.commitPlan rows).ros.rotation = s.ros.rotation := by
    unfold State.commitPlan
    dsimp only
    split
    · exact ((select_setPln ((s.setPln { s.pln with table := some rows }).post .tableCommitted none (some (tablePosCode .plan)))
        { ((s.setPln { s.pln with table := some rows }).post .tableCommitted none (some (tablePosCode .plan))).pln with
          selected := none, proposal := none } rfl).trans (select_selectRow false _)).play.rotation
    · rfl
  refine ⟨hrot ▸ h.rotation, ?_⟩
  unfold State.commitPlan
  dsimp only
  split
  · rename_i hg
    have hnone : PlanOn auto (((s.setPln { s.pln with table := some rows }).post .tableCommitted none (some (tablePosCode .plan))).setPln
        { s.pln with table := some rows, selected := none, proposal := none }) := {
      standby := fun hs => by
        have hs : s.pli.part = .standby := hs
        have hg : s.governs = true := hg
        rw [State.governs, hs] at hg
        cases hg
      selected := nofun
      proposed := nofun
      automatic := h.plan.automatic
      given := nofun
      counts := nofun
      short := h.plan.short }
    have hauto' : (((s.setPln { s.pln with table := some rows }).post .tableCommitted none (some (tablePosCode .plan))).setPln
        { s.pln with table := some rows, selected := none, proposal := none }).automatic = auto :=
      (automatic_congr (fun _ => rfl) rfl fun _ => rfl).trans ha
    rw [← hauto'] at hnone ⊢
    exact planOn_selectRow hg hnone
  · rename_i hg
    have hp : s.pli.part = .standby := by
      have hg : ¬ s.governs = true := hg
      simpa [State.governs] using hg
    refine planOn_cleared _ ?_
    show ({ s.pln with table := some rows } : Pln) = .cleared (some rows)
    rw [h.plan.standby hp]
    rfl

theorem due_commit {auto : Slot → Bool} {s : State} (l : Load) (h : Due auto s) (ha : s.automatic = auto) : Due auto (s.commit l) := by
  unfold State.commit
  split
  · exact h.still (((still_setHead s _).trans (still_post ..)).trans (settleHold_effect _ _).1.still)
  · exact due_commitPlan _ h ha
  · exact h.still ((still_setTrs s _).trans (still_post ..))

theorem due_acceptDispatch {s : State} (h : Due s.automatic s) : Due s.automatic s.acceptDispatch := by
  obtain ⟨b, -, hp, k⟩ := acceptDispatch_run s
  have hset : Due s.automatic (s.setPli b) := ⟨h.rotation, h.plan.congr rfl hp.mp⟩
  exact hset.played (setPli_automatic s b) k

theorem due_linkDown {s : State} (h : Due s.automatic s) : Due s.automatic s.linkDown := by
  obtain ⟨b, -, hp, k⟩ := linkDown_run s
  have hset : Due s.automatic (s.setPli b) := ⟨h.rotation, h.plan.congr rfl hp.mp⟩
  exact hset.played (setPli_automatic s b) k

/-- At ENABLE row selection starts from a cleared planner (R160). -/
theorem due_enabled {s : State} (h : s.ros.rotation.Perm Slot.all) : Due s.automatic s.enabled := by
  have hturn := turn_compareHeld_fold s.ros.rotation s.entered
  have hauto : s.entered.automatic = s.automatic := automatic_congr (fun _ => rfl) rfl fun _ => rfl
  have hheld : PlanOn s.automatic (s.ros.rotation.foldl State.compareHeld s.entered) :=
    hturn.planOn (planOn_cleared s.automatic (s := s.entered) rfl)
  have hg : (s.ros.rotation.foldl State.compareHeld s.entered).governs = true :=
    hturn.frame.cascade.play.governs
  rw [← hauto, ← hturn.automatic] at hheld
  have hrow := planOn_selectRow (expired := false) hg hheld
  rw [hturn.automatic, hauto] at hrow
  have hkeep : Still ((s.ros.rotation.foldl State.compareHeld s.entered).selectRow false) s.enabled :=
    .foldl (fun x u => still_ite _ (still_setReq x u _)) _ _
  refine Due.still ⟨?_, hrow⟩ hkeep
  rw [(select_selectRow false _).play.rotation, hturn.frame.ros]
  exact h

theorem due_applyParam {s : State} (q : Param) (n : Nat) (h : Due s.automatic s) : Due s.automatic (State.applyParam s (s.writeParam q n) q) := by
  have hauto : (s.writeParam q n).automatic = s.automatic := by
    cases q with
    | ackMode p =>
      refine automatic_congr (fun r => ?_) rfl fun _ => rfl
      show ((s.setPort p { s.portRec p with ackMode := _ }).portRec r).state = _
      rw [State.setPort_portRec]
      split
      · rename_i hr
        rw [hr]
      · rfl
    | _ => exact automatic_congr (fun _ => rfl) rfl fun _ => rfl
  have hw : Due (s.writeParam q n).automatic (s.writeParam q n) := hauto ▸ h.still (still_writeParam s q n)
  rw [← hauto]
  generalize s.writeParam q n = x at hw
  cases q with
  | headLoss => exact hw.still ((still_formEstimate x).trans (resettle_effect _ _).1.still)
  | headOverride => exact hw.still (resettle_effect _ x).1.still
  | rampRate => exact hw.still (still_ite _ (still_setTgt x _))
  | regLimit => exact hw.still (still_setTgt x _)
  | planAdvance => exact hw.played rfl (played_meetDue x)
  | rampAdvance => exact hw.played rfl (played_meetDue x)
  | markerMode => exact hw.still (still_setPrf x _)
  | markerDivider => exact hw.still (still_setPrf x _)
  | markerPolarity => exact hw.still ((still_setPrf x _).trans (still_setPrf _ _))
  | _ => exact hw

theorem disabled_rotation (s : State) : s.disabled.ros.rotation = s.ros.rotation := by
  have hpost (x : State) : (if s.inFallback = true then x.post .fallbackLeft none (some 0) else x).ros = x.ros := by
    split <;> rfl
  exact ((disable_fold Slot.all Slot.all_nodup _).1.play.rotation).trans (congrArg (·.rotation) (hpost _))

theorem plans_emergencyEvent {before s : State} (u : Slot) (h : Due before.automatic s) : Plans (State.emergencyEvent before s u) :=
  (h.still (still_emergencyStop s u)).finish

theorem plans_emergencyAll {before s : State} (h : Due before.automatic s) : Plans (State.emergencyAll before s) := by
  have fold (us : List Slot) : ∀ x, Plans x → Plans (us.foldl (fun t u => State.emergencyEvent t t u) x) := by
    induction us with
    | nil => exact fun _ k => k
    | cons u us ih => exact fun x k => ih _ (plans_emergencyEvent u k.due)
  exact fold _ _ (plans_emergencyEvent .u1 h)

theorem Did.plans {s a m : State} {b : Bool} (h : Did s a b m) (hf : Framed s a) (hs : Plans s) : Plans m := by
  have ha : Plans a := hf.plans hs
  have hd : Due a.automatic a := ha.due
  have fin {x : State} {c : Causes} (k : Due a.automatic x) : Plans (x.finish s c) := Due.finish (hf.automatic ▸ k)
  have heard := due_acceptDispatch hd
  have hheard : a.acceptDispatch.automatic = a.automatic := by
    obtain ⟨c, -, hp, k⟩ := acceptDispatch_run a
    exact (k.planOn (hd.plan.congr (t := a.setPli c) rfl hp.mp)).1
  have played {x : State} (k : Played a.acceptDispatch x) : Due a.automatic x :=
    heard.played hheard k
  cases h with
  | nothing _ => exact ha
  | fresh => exact plans_cleared (.refl _) rfl
  | restart v =>
    have hr := (restartedFrom_restarted a v).1
    exact plans_cleared (hr.rotation ▸ ha.rotation) (by rw [hr.pln]; rfl)
  | sent p => exact plans_sendNext p ha
  | heard => exact fin heard
  | base v i _ => exact fin (played (played_applyBase _ v i))
  | reg v _ => exact fin (played (played_applyReg _ v))
  | levels up low => exact fin (heard.still (still_applyLevels _ up low))
  | hold u m v _ => exact fin (heard.still ((still_setUnit _ u _).trans (settleHold_effect _ u).1.still))
  | release u _ => exact fin (heard.still (still_releaseHold _ u))
  | emergency u => exact plans_emergencyEvent u (hf.automatic ▸ heard)
  | emergencyAll => exact plans_emergencyAll (hf.automatic ▸ heard)
  | param q v n _ _ _ => exact (due_applyParam q n hd).finish
  | loadBegin pos n _ =>
    have hsup : Plans a.supersede := by
      unfold State.supersede
      split
      · exact ha
      · exact ha.block (still_post ..) rfl rfl rfl
    exact hsup.block (still_setLoad _ _) rfl rfl rfl
  | loadRow l i row r b _ _ _ => exact ha.block (still_setLoad a _) rfl rfl rfl
  | unload => exact ha.block (still_setLoad a _) rfl rfl rfl
  | commit l _ _ _ _ _ =>
    exact fin (due_commit l (hd.still (still_setLoad a none)) (automatic_congr (fun _ => rfl) rfl fun _ => rfl))
  | define field n count interval rep v _ => exact ha.block (still_setPrf a _) rfl rfl rfl
  | write field first count values p _ _ => exact ha.block (still_setPrf a _) rfl rfl rfl
  | delete n _ =>
    split
    · exact ha.block ((still_setPrf a _).trans (still_setPrf _ _)) rfl rfl rfl
    · exact ha.block (still_setPrf a _) rfl rfl rfl
  | deleteAll => exact ha.block ((still_setPrf a _).trans (still_setPrf _ _)) rfl rfl rfl
  | play n _ => exact fin (hd.played rfl (played_play a n))
  | stopPlay => exact ha.block (still_setPrf a _) rfl rfl rfl
  | edge => exact fin (hd.played rfl (played_activeEdge a))
  | boundary => exact fin (hd.played rfl ((played_boundary a).trans (played_pulse _)))
  | holdover _ => exact fin (hd.played rfl (played_holdover a))
  | meetPlan => exact fin (hd.played rfl (played_meetPlan a))
  | meetRamp => exact fin (hd.played rfl (played_meetRamp a))
  | pulseEnd => exact ha.block (still_setPrf a _) rfl rfl rfl
  | source src _ _ => exact fin (hd.played rfl (played_changeSource a src))
  | pattern low high period shape => exact fin (hd.played rfl (played_storePattern a _))
  | period r _ => exact fin (hd.played rfl (played_stepPattern a r))
  | enable _ => exact fin (due_enabled hd.rotation)
  | disable => exact plans_cleared (by rw [disabled_rotation]; exact ha.rotation) rfl
  | resume hp =>
    have hset : Due a.automatic (a.setPli { a.pli with part := .dispatching }) := ⟨hd.rotation, hd.plan.congr rfl nofun⟩
    exact fin (hset.played (setPli_automatic a _) (returnToDispatching_run a))
  | map u p _ _ _ => exact fin (hd.still (still_remap a u p))
  | expect u n _ =>
    refine ha.still (still_setUnit a u _) (automatic_congr (fun _ => rfl) rfl fun v => ?_)
    rw [State.setUnit_unitRec]
    split
    · rename_i hv
      rw [hv]
    · rfl
  | rotationSet slots hr => exact fin ⟨perm_of_rotationFault hr, hd.plan.congr rfl id⟩
  | rotate => exact fin ⟨(rotateOnce_perm _).trans hd.rotation, hd.plan.congr rfl id⟩
  | clear u => exact fin (hd.still (still_setUnit a u _))
  | resources u => exact fin (hd.still ((turn_releaseOrphan a u).trans (turn_releaseObserved _ u)).still)
  | line first l => exact ha.block (still_setSte a _) rfl rfl rfl
  | eventRead => exact ha.block (still_setSte a _) rfl rfl rfl
  | ident p u n _ _ => exact fin (hd.still (still_compareIdent a p u n))
  | status p u r cause _ _ => exact fin (hd.still ((still_setPort a p _).trans (still_acceptStatus _ u r cause)))
  | ack p u o accepted cause _ _ _ => exact fin (hd.still (still_ackOrder a p u _ accepted cause))
  | tick =>
    have hset : Due a.automatic (a.setPli { a.pli with clock := a.clock + 1 }) := ⟨hd.rotation, hd.plan.congr rfl id⟩
    exact fin (hset.played (setPli_automatic a _) (played_ramp _))
  | linkDown => exact fin (due_linkDown hd)
  | levelStale => exact ha.block ((still_setHead a _).trans (still_post ..)) rfl rfl rfl
  | dwell hg => exact fin ⟨by rw [(select_selectRow true a).play.rotation]; exact hd.rotation, planOn_selectRow hg hd.plan⟩
  | backoff u => exact fin (hd.still (still_setUnit a u _))
  | lead u r _ _ => exact fin (hd.still (still_orderStep a u))
  | noAck u r _ _ => exact fin (hd.still (still_refuseStep a u _))
  | timeout u r k _ _ => exact fin (hd.still (still_timeoutStep a u k))
  | settled w r _ => exact fin (hd.still (still_setWaterway a w _))
  | phase w r _ => exact ha.block (still_setWaterway a w _) (by simp) (by simp) (by simp)
  | probe p _ => exact fin (hd.still ((still_probeNow a p).trans (still_ite _ (still_setPort _ p _))))
  | lost p _ => exact fin (hd.still (((still_leaveQualified a p _).trans (still_probeNow _ p)).trans (still_post ..)))

end Sys2Proof.Machine

namespace Sys2Proof.Proofs
open Sys2Proof.Machine

/-- Settles O13: row selection and the cascade assign anew, and everything else leaves the planner as it is (`Did.plans`). -/
theorem stepKeepsPlan : Obligations.StepKeepsPlan := by
  unfold Obligations.StepKeepsPlan
  intro s t hr hp h
  exact (step_keeps (P := Plans) (fun _ _ hf => hf.plans) (fun _ _ _ _ hf hp hd => hd.plans hf hp) h ⟨hr.rotation, hp⟩).plan

end Sys2Proof.Proofs
end

section
/-! BASE, REG and LEVELS (O30, O31): what the frame has done to the part state, then its own writes, then the cascade. -/

namespace Sys2Proof.Proofs
open Sys2Proof.Machine

theorem clampPlant_idem (v : Int) : clampPlant (clampPlant v) = clampPlant v := by
  unfold clampPlant clampInt plantMax
  grind

theorem clampIncrement_eq (s : State) (v : Int) :
    s.clampIncrement v = max (-(s.params.regLimit : Int)) (min s.params.regLimit v) := clampInt_eq _ v

/-- An applied BASE while DIRECT (R110, R112, R116). -/
theorem applyBase_effect {s : State} (hs : s.tgt.source = .direct) (v : Int) (x : Option Int) :
    TargetFrame s (s.applyBase v x)
      ∧ (s.applyBase v x).tgt = { s.tgt with
          reqBase := clampPlant v
          plan := clampPlant v
          ramped := if clampPlant v ≠ s.tgt.reqBase ∧ s.params.rampRate = 0 ∧ s.governs = true then clampPlant v
            else s.tgt.ramped
          increment := (x.map s.clampIncrement).getD s.tgt.increment
          clamped := clampPlant v != v || x.map s.clampIncrement != x } := by
  unfold State.applyBase
  cases x with
  | none =>
    obtain ⟨hf, ht⟩ := target_setReqBase (s.setTargetClamped (clampPlant v != v || none != (none : Option Int))) (clampPlant v)
    refine ⟨(target_setTgt s _).trans hf, ht.trans ?_⟩
    simp [State.baseTgt, State.setTargetClamped, clampPlant_idem, hs, State.params, State.governs]
  | some x =>
    obtain ⟨hf, ht⟩ := target_setReqBase ((s.setTargetClamped (clampPlant v != v
      || some (s.clampIncrement x) != some x)).setIncrement (s.clampIncrement x)) (clampPlant v)
    refine ⟨((target_setTgt s _).trans (target_setTgt _ _)).trans hf, ht.trans ?_⟩
    simp [State.baseTgt, State.setTargetClamped, State.setIncrement, clampPlant_idem, hs, State.params, State.governs]

end Sys2Proof.Proofs

namespace Sys2Proof.Machine

theorem governs_iff (s : State) : s.governs = true ↔ s.pli.part ≠ .standby := by
  simp [State.governs]

/-- A frame is applied by the part state that it has itself brought about (R156). -/
theorem Heard.applied {s m : State} (hh : Heard s m) :
    m.inFallback = false ↔ s.inFallback = false ∨ s.params.autoResume = true := by
  rw [hh.frame.inFallback, heard_inFallback]
  cases s.inFallback <;> simp

theorem Heard.tgt_of_direct {s m : State} (hh : Heard s m) (h : s.tgt.source = .direct) : m.tgt = s.tgt := by
  rw [hh.stays (.inr (.inl (by simp [h]))), (heard_reads s).1]

end Sys2Proof.Machine

namespace Sys2Proof.Proofs
open Sys2Proof.Machine

/-- Settles O30. -/
theorem baseAndRegFrames : Obligations.BaseAndRegFrames := by
  unfold Obligations.BaseAndRegFrames
  constructor
  · intro v x s
    have hh := heard_accept s
    refine ⟨_, _, hh, rfl, ?_⟩
    have ha := hh.applied
    by_cases hc : s.tgt.source = .direct ∧ (s.inFallback = false ∨ s.params.autoResume = true)
    · have hd := hh.tgt_of_direct hc.1
      obtain ⟨hf, ht⟩ := applyBase_effect (hh.source.trans hc.1) v.toInt (x.map BitVec.toInt)
      rw [if_pos hc, if_pos ⟨ha.mpr hc.2, hh.source.trans hc.1⟩]
      have hk := cascade_finish (s.takePlantFrame.acceptDispatch.applyBase v.toInt (x.map BitVec.toInt)) s {}
      refine ⟨hf.trans hk.toTargetFrame, (hk.tgt.trans ht).trans ?_⟩
      have hinc : (x.map BitVec.toInt).map s.takePlantFrame.acceptDispatch.clampIncrement
          = x.map (fun v => max (-(s.params.regLimit : Int)) (min s.params.regLimit v.toInt)) := by
        rw [Option.map_map]
        exact congrArg (x.map ·) (funext fun v => (clampIncrement_eq _ _).trans (by rw [hh.params]))
      have hjump : (clampPlant v.toInt ≠ s.tgt.reqBase ∧ s.params.rampRate = 0 ∧ s.governs = true)
          ↔ (s.params.rampRate = 0 ∧ s.pli.part ≠ .standby ∧ clampPlant v.toInt ≠ s.tgt.reqBase) := by
        rw [governs_iff]
        tauto
      rw [hinc, hd, hh.params, hh.governs]
      simp only [hjump, Bool.decide_or, decide_not, bne, beq_eq_decide]
    · rw [if_neg hc, if_neg (fun h => hc ⟨hh.source ▸ h.2, ha.mp h.1⟩)]
      exact cascade_finish _ _ _
  · intro v s
    have hh := heard_accept s
    refine ⟨_, _, hh, rfl, ?_⟩
    have ha := hh.applied
    by_cases hc : s.tgt.source ≠ .pattern ∧ (s.inFallback = false ∨ s.params.autoResume = true)
    · rw [if_pos hc, if_pos ⟨ha.mpr hc.2, hh.source ▸ hc.1⟩]
      have hinc : s.takePlantFrame.acceptDispatch.clampIncrement v.toInt
          = max (-(s.params.regLimit : Int)) (min s.params.regLimit v.toInt) := by rw [clampIncrement_eq, hh.params]
      have hk := cascade_finish (s.takePlantFrame.acceptDispatch.applyReg v.toInt) s {}
      simpa only [State.applyReg, State.setIncrement, State.setTargetClamped, State.setTgt, hinc, bne, beq_eq_decide,
        decide_not] using hk
    · rw [if_neg hc, if_neg (fun h => hc ⟨hh.source ▸ h.2, ha.mp h.1⟩)]
      exact cascade_finish _ _ _

/-! ## LEVELS -/

/-- The head block with two levels written, the estimate formed and the level timer restarted (R33). -/
def levelsHead (s : State) (upper lower : Nat) : Head :=
  let raw := rawEstimate (clampLevel upper, clampLevel lower) s.params.headLoss
  { s.head with
    levels := some (clampLevel upper, clampLevel lower)
    estimate := some (clampInt 0 headMax raw).toNat
    levelTimer := some (later s.clock s.params.levelTimeout)
    stale := false
    clamped := decide (raw < 0 ∨ headMax < raw) }

theorem applyLevels_eq (s : State) (upper lower : Nat) :
    s.applyLevels upper lower = State.resettle s.headInUse (s.setHead (levelsHead s upper lower)) := rfl

/-- What changes nothing but the head block is seen alike by `HeadFrame`. -/
theorem headFrame_of_setHead {s t : State} {b : Head} (h : HeadFrame (s.setHead b) t) : HeadFrame s t where
  pending := h.pending
  pli := h.pli
  tgt := h.tgt
  prf := h.prf
  plantOut := h.plantOut
  table := h.table
  selected := h.selected
  proposal := h.proposal
  gap := h.gap
  rotation := h.rotation
  ports := h.ports
  waterways := h.waterways
  posted := h.posted

/-- Settles O31. -/
theorem levelsFrame : Obligations.LevelsFrame := by
  unfold Obligations.LevelsFrame
  intro upper lower s
  have hh := heard_accept s
  refine ⟨_, _, hh, rfl, ?_⟩
  obtain ⟨hf, hhead, hunits⟩ := headChange (before := s) (c := {}) (applyLevels_eq s.takePlantFrame.acceptDispatch upper.toNat lower.toNat)
    (State.headInUse_congr hh.head hh.params) hh.core
  refine ⟨headFrame_of_setHead hf, hhead.trans ?_, hunits⟩
  have hclamp : ∀ v : Half, clampLevel v.toNat = min 30000 v.toNat := by
    intro v
    unfold clampLevel clampNat
    grind
  have hest : ∀ v : Int, clampInt 0 headMax v = max 0 (min 10000 v) := fun v => clampInt_max_min _ _ _ (by decide)
  have hclock : s.takePlantFrame.acceptDispatch.clock = s.clock := hh.frame.clock.trans (heard_play s).2.2.2.1
  simp only [State.setHead, levelsHead, hh.head, hh.params, hclamp, hest, rawEstimate, hclock]
  rfl

end Sys2Proof.Proofs
end

section
/-! UNIT_RELEASE and EMERGENCY_STOP (O33, O34): the hold that is left, the request, and the outstanding order of purpose EMERGENCY. -/

namespace Sys2Proof.Machine

/-! ## A release -/

/-- The slot's port has no outstanding order of that purpose. -/
theorem ceaseOrder_purpose {s : State} {u : Slot} {p : Port} {w : Purpose} {o : Outstanding} (hp : (s.unitRec u).port = some p)
    (h : ((s.ceaseOrder u w).portRec p).outstanding = some o) : o.purpose ≠ w := by
  intro hw
  unfold State.ceaseOrder at h
  simp only [hp] at h
  split at h
  · simp at h
  · rename_i hn
    exact hn (by simp [h, hw])

theorem releaseHold_effect (s : State) (u : Slot) :
    CascadeFrame (s.setUnit u { s.unitRec u with hold := none }) (s.releaseHold u) ∧ Auto u (s.releaseHold u)
      ∧ ∀ p o, (s.unitRec u).port = some p → ((s.releaseHold u).portRec p).outstanding = some o → o.purpose ≠ .emergency := by
  have hf : CascadeFrame (s.setHold u none) (s.releaseHold u) := (cascade_ceaseOrder _ u _).trans (cascade_setReq _ u _)
  refine ⟨hf, ⟨?_, fun r hr => ?_⟩, fun p o hp ho => ?_⟩
  · rw [hf.play.unit_hold]
    simp [State.setHold]
  · simp only [State.releaseHold, State.makeAutomatic, State.setReq_req, if_true] at hr
    obtain ⟨q, -, rfl⟩ := Option.map_eq_some_iff.mp hr
    rfl
  · exact ceaseOrder_purpose (s := s.setHold u none) (p := p) (by simpa [State.setHold] using hp) ho

/-- A slot without a hold has AUTOMATIC requests alone after the cascade, too. -/
theorem Auto.finish {u : Slot} {x b : State} {c : Causes} (h : Auto u x) : Auto u (x.finish b c) := by
  have hp := h.planStage (b := b) (c := c)
  have hr := reach_afterPlan x b c
  refine ⟨hr.frame.play.unit_hold u ▸ hp.1, fun r hr' => ?_⟩
  have hk := hr.key u
  rw [hr'] at hk
  obtain ⟨q, hq, he⟩ := Option.map_eq_some_iff.mp hk.symm
  exact (congrArg Prod.fst he).symm.trans (hp.2 q hq)

end Sys2Proof.Machine

namespace Sys2Proof.Proofs
open Sys2Proof.Machine

/-- Settles O33. -/
theorem unitReleaseFrame : Obligations.UnitReleaseFrame := by
  unfold Obligations.UnitReleaseFrame
  intro slot s
  refine ⟨fun h => ?_, fun u hu => ⟨fun hn => ?_, fun hs => ?_⟩⟩
  · simp only [exec, execUnitRelease, h]
    rfl
  · refine ⟨_, _, heard_accept s, ?_, cascade_finish s.takePlantFrame.acceptDispatch s {}⟩
    simp only [exec, execUnitRelease, hu, hn]
  · obtain ⟨h, hh⟩ := Option.isSome_iff_exists.mp hs
    obtain ⟨hf, ha, ho⟩ := releaseHold_effect s.takePlantFrame.acceptDispatch u
    have hr := reach_finish (s.takePlantFrame.acceptDispatch.releaseHold u) s { allocate := true, hand := [u] }
    refine ⟨_, _, heard_accept s, ?_, hf.trans hr.frame, ha.finish.2, fun p o hp hop he => ?_⟩
    · simp only [exec, execUnitRelease, hu, hh]
    · rcases hr.outstanding p o hop with h1 | h1
      · rw [he] at h1
        cases h1
      · exact ho p o ((heard_accept s).unit_port u ▸ hp) h1 he

end Sys2Proof.Proofs

namespace Sys2Proof.Machine

/-! ## An emergency stop -/

/-- The slot's STOP is sent (R16). -/
def State.sendsStop (s : State) (u : Slot) : Bool := s.portState u == .qualified && (s.reported u).any Reported.running

/-- The hold that an emergency stop finds or writes (R16). -/
def Hold.stopFrom (h : Option Hold) : Hold := (h.filter (·.emergency)).getD Hold.emergencyStop

/-- No two slots share a port (R1). -/
def OneToOne (s : State) : Prop := ∀ u v p, (s.unitRec u).port = some p → (s.unitRec v).port = some p → u = v

theorem RosterWf.oneToOne {s : State} (h : RosterWf s) : OneToOne s := fun u v p hu hv => h.map u v (by simp [hu]) (hu.trans hv.symm)

/-- The slot is stopped in `t` by an emergency stop that met it as it stands in `s`, with the hold `h`. -/
structure Halted (s t : State) (u : Slot) (h : Hold) : Prop where
  hold : (t.unitRec u).hold = some h
  was : h = { Hold.stopFrom (s.unitRec u).hold with stopOutstanding := h.stopOutstanding }
  sent : s.sendsStop u = true → h.stopOutstanding = true
  unsent : s.sendsStop u = false → h = Hold.stopFrom (s.unitRec u).hold
  req : t.req u = none
  order : s.sendsStop u = true → OneToOne s → ∀ p, (s.unitRec u).port = some p →
    ∃ tag, (t.portRec p).outstanding = some { tag := tag, kind := .stop, purpose := .emergency }

theorem Hold.stopFrom_emergency (h : Option Hold) : (Hold.stopFrom h).emergency = true := by
  unfold Hold.stopFrom
  cases hf : h.filter (·.emergency) with
  | none => rfl
  | some x => exact (Option.filter_eq_some_iff.mp hf).2

theorem Halted.stopped {s t : State} {u : Slot} {h : Hold} (k : Halted s t u h) : t.stopped u := by
  refine ⟨?_, k.req⟩
  rw [k.hold, k.was]
  exact Hold.stopFrom_emergency _

theorem sendsStop_iff (s : State) (u : Slot) :
    s.sendsStop u = true ↔ s.portState u = .qualified ∧ ∃ q, s.reported u = some q ∧ q ≠ .stable .ss ∧ q ≠ .trip := by
  have hrun : ∀ q : Reported, q.running = true ↔ q ≠ .stable .ss ∧ q ≠ .trip := by
    intro q
    cases q with
    | stable m => cases m <;> simp [Reported.running]
    | step k => simp [Reported.running]
    | trip => simp [Reported.running]
  cases h : s.reported u <;> simp [State.sendsStop, h, hrun]

theorem HoldsFrame.unit {s t : State} (h : HoldsFrame s t) (u : Slot) :
    (t.unitRec u).port = (s.unitRec u).port ∧ (t.unitRec u).report = (s.unitRec u).report := by
  have hport := congrArg UnitRec.port (h.core u)
  have hreport := congrArg UnitRec.report (h.core u)
  exact ⟨hport, hreport⟩

theorem HoldsFrame.sendsStop {s t : State} (h : HoldsFrame s t) (u : Slot) : t.sendsStop u = s.sendsStop u := by
  have hstate : t.portState u = s.portState u := by
    refine portState_congr (fun v => (h.unit v).1) (fun p => ?_) u
    have := congrArg PortRec.state (h.hf.ports p)
    exact this
  have hrep : t.reported u = s.reported u := congrArg (Option.map Report.mode) (h.unit u).2
  rw [State.sendsStop, hstate, hrep, State.sendsStop]

theorem HoldsFrame.oneToOne {s t : State} (h : HoldsFrame s t) (k : OneToOne s) : OneToOne t := fun u v p hu hv =>
  k u v p ((h.unit u).1.symm.trans hu) ((h.unit v).1.symm.trans hv)

/-- What a stop meets is what stood before the other slots' stops. -/
theorem Halted.from {r s t : State} {u : Slot} {h : Hold} (k : Halted s t u h) (f : HoldsFrame r s)
    (same : (s.unitRec u).hold = (r.unitRec u).hold) : Halted r t u h where
  hold := k.hold
  was := same ▸ k.was
  sent hs := k.sent ((f.sendsStop u).trans hs)
  unsent hs := same ▸ k.unsent ((f.sendsStop u).trans hs)
  req := k.req
  order hs ho p hp := k.order ((f.sendsStop u).trans hs) (f.oneToOne ho) p ((f.unit u).1.trans hp)

theorem cancelRequest_portRec {s : State} {u : Slot} {p : Port} (hp : (s.unitRec u).port ≠ some p) :
    (s.cancelRequest u).portRec p = s.portRec p := by
  unfold State.cancelRequest
  split
  · rfl
  · rename_i r _
    have hends : ∀ x : State, (x.unitRec u).port ≠ some p → (x.endRequest u).portRec p = x.portRec p := by
      intro x hx
      unfold State.endRequest State.ceaseOrder
      split
      · rfl
      · rename_i q hq
        have hne : p ≠ q := fun e => hx (e ▸ hq)
        split
        · rw [State.setPort_portRec, if_neg hne]
          rfl
        · rfl
    have hrel := only_releaseHeld s u r.ordered
    rw [State.failRequest, hends _ (by rw [hrel]; exact hp), hrel]
    rfl

/-- An emergency stop of another slot moves no order of this port. -/
theorem emergencyStop_portRec {s : State} {u : Slot} {p : Port} (hp : (s.unitRec u).port ≠ some p) :
    (s.emergencyStop u).portRec p = s.portRec p := by
  rw [emergencyStop_eq, State.stopWith]
  generalize ((s.unitRec u).hold.filter (·.emergency)).getD Hold.emergencyStop = h
  have hset : ((s.setHold u (some h)).unitRec u).port ≠ some p := by simpa [State.setHold] using hp
  have hcancel : ((s.setHold u (some h)).cancelRequest u).portRec p = s.portRec p := cancelRequest_portRec hset
  have hport : (((s.setHold u (some h)).cancelRequest u).unitRec u).port ≠ some p := by
    rw [(cascade_cancelRequest _ u).play.unit_port]
    exact hset
  split
  · unfold State.sendEmergencyStop
    split
    · exact hcancel
    · rename_i q hq
      have hne : p ≠ q := fun e => hport (e ▸ hq)
      exact ((sendOrder_portRec ..).trans (if_neg hne)).trans hcancel
  · exact hcancel

/-- One emergency stop with all that follows (R16, R82). -/
theorem emergencyEvent_halts (before s : State) (u : Slot) :
    ∃ h, CascadeFrame (s.setUnit u { s.unitRec u with hold := some h }) (State.emergencyEvent before s u)
      ∧ Halted s (State.emergencyEvent before s u) u h := by
  obtain ⟨h, hwas, hsent, hunsent, hf, hreq, -, horder⟩ := emergencyStop_effect s u
  obtain ⟨c, hc⟩ : ∃ c, State.emergencyEvent before s u = (s.emergencyStop u).finish before c := ⟨_, rfl⟩
  have hr := reach_finish (s.emergencyStop u) before c
  have hhold : ((s.emergencyStop u).unitRec u).hold = some h := by rw [hf.play.unit_hold]; simp
  have hstop : (s.emergencyStop u).stopped u := by
    refine ⟨?_, hreq⟩
    rw [hhold, hwas]
    exact Hold.stopFrom_emergency _
  rw [hc]
  refine ⟨h, hf.trans hr.frame, ?_⟩
  refine { hold := (hr.frame.play.unit_hold u).trans hhold, was := hwas, sent := hsent, unsent := hunsent,
           req := (hr.stopped hstop).2, order := fun hs ho p hp => ?_ }
  obtain ⟨tag, ht⟩ := horder hs p hp
  refine ⟨tag, hr.order ht (by simp) fun v hv => ?_⟩
  have hport : (s.unitRec v).port = some p := by
    rw [hf.play.unit_port] at hv
    by_cases e : v = u
    · rwa [e]
    · simpa [e] using hv
  exact .inr (ho v u p hport hp ▸ hstop)

/-- The stop of another slot leaves a stopped slot stopped, with its order. -/
theorem Halted.event {r s b : State} {u v : Slot} {h : Hold} (k : Halted r s u h) (f : HoldsFrame r s) (hne : u ≠ v) :
    Halted r (State.emergencyEvent b s v) u h := by
  obtain ⟨-, -, hstop, hhold, -⟩ := emergencyEvent_effect b s v
  refine { k with hold := (hhold u hne).trans k.hold, req := (hstop u k.stopped).2, order := fun hs ho p hp => ?_ }
  obtain ⟨tag, ht⟩ := k.order hs ho p hp
  have hp' : (s.unitRec u).port = some p := (f.unit u).1.trans hp
  have hone := f.oneToOne ho
  obtain ⟨h', -, -, -, hf, -, hother, -⟩ := emergencyStop_effect s v
  obtain ⟨c, hc⟩ : ∃ c, State.emergencyEvent b s v = (s.emergencyStop v).finish b c := ⟨_, rfl⟩
  have hfar : ((s.emergencyStop v).portRec p).outstanding = _ :=
    (congrArg _ (emergencyStop_portRec fun e => hne (hone u v p hp' e))).trans ht
  refine ⟨tag, hc ▸ (reach_finish _ b c).order hfar (by simp) fun w hw => ?_⟩
  have hport : ∀ x, ((s.emergencyStop v).unitRec x).port = (s.unitRec x).port := by
    intro x
    rw [hf.play.unit_port]
    by_cases e : x = v <;> simp [e]
  obtain rfl := hone u w p hp' ((hport w).symm.trans hw)
  refine .inr ⟨?_, (hother u hne).trans k.req⟩
  rw [hf.play.unit_hold]
  simpa [hne] using k.stopped.1

/-- One stop after another, each slot once: every one of them is stopped as it stood at the beginning. -/
theorem emergencyFold_halts (us : List Slot) (hn : us.Nodup) (r s : State) (f : State → Slot → State)
    (hf : ∀ x v, ∃ b, f x v = State.emergencyEvent b x v) (hframe : HoldsFrame r s)
    (hsame : ∀ v ∈ us, (s.unitRec v).hold = (r.unitRec v).hold) :
    HoldsFrame r (us.foldl f s) ∧ ∀ v, (v ∈ us ∨ ∃ h, Halted r s v h) → ∃ h, Halted r (us.foldl f s) v h := by
  induction us generalizing s with
  | nil => exact ⟨hframe, fun v hv => hv.resolve_left (by simp)⟩
  | cons u us ih =>
    obtain ⟨hu, hus⟩ := List.nodup_cons.mp hn
    obtain ⟨b, hb⟩ := hf s u
    obtain ⟨hstep, -, -, hhold, -⟩ := emergencyEvent_effect b s u
    rw [← hb] at hstep hhold
    obtain ⟨hfr, hall⟩ := ih hus (f s u) (hframe.trans hstep) fun v hv =>
      (hhold v fun e => hu (e ▸ hv)).trans (hsame v (List.mem_cons_of_mem _ hv))
    refine ⟨hfr, fun v hv => hall v ?_⟩
    by_cases e : v = u
    · subst e
      obtain ⟨h, -, hh⟩ := emergencyEvent_halts b s v
      exact .inr ⟨h, hb ▸ hh.from hframe (hsame v List.mem_cons_self)⟩
    · rcases hv with hv | ⟨h, hh⟩
      · exact .inl ((List.mem_cons.mp hv).resolve_left e)
      · exact .inr ⟨h, hb ▸ hh.event hframe e⟩

/-- What a halted slot's hold is, by what stood (R16). -/
theorem Halted.cases {s t : State} {u : Slot} {h : Hold} (k : Halted s t u h) :
    (∀ x, (s.unitRec u).hold = some x → x.emergency = true →
        h = { x with stopOutstanding := h.stopOutstanding } ∧ (s.sendsStop u = false → h = x))
      ∧ ((∀ x, (s.unitRec u).hold = some x → x.emergency = false) →
        h = { mode := .ss, requested := none, settled := none, emergency := true, stopOutstanding := h.stopOutstanding }
          ∧ (s.sendsStop u = false → h.stopOutstanding = false)) := by
  have hwas := k.was
  have hun := k.unsent
  constructor
  · intro x hx hem
    have hstop : Hold.stopFrom (s.unitRec u).hold = x := by simp [Hold.stopFrom, hx, Option.filter, hem]
    rw [hstop] at hwas hun
    exact ⟨hwas, hun⟩
  · intro hno
    have hstop : Hold.stopFrom (s.unitRec u).hold = Hold.emergencyStop := by
      cases hx : (s.unitRec u).hold with
      | none => rfl
      | some x => simp [Hold.stopFrom, Option.filter, hno x hx]
    rw [hstop] at hwas hun
    exact ⟨hwas, fun hs => by rw [hun hs]; rfl⟩

end Sys2Proof.Machine

namespace Sys2Proof.Proofs
open Sys2Proof.Machine

/-- A dispatch frame that has been heard moves nothing that an emergency stop looks at. -/
theorem sendsStop_heard {s m : State} (h : Heard s m) (u : Slot) : m.sendsStop u = s.sendsStop u := by
  rw [State.sendsStop, h.portState, h.reported, State.sendsStop]

theorem oneToOne_heard {s m : State} (h : Heard s m) (k : OneToOne s) : OneToOne m := fun u v p hu hv =>
  k u v p ((h.unit_port u).symm.trans hu) ((h.unit_port v).symm.trans hv)

theorem halted_heard {s m t : State} {u : Slot} {h : Hold} (hm : Heard s m) (k : Halted m t u h) : Halted s t u h where
  hold := k.hold
  was := hm.hold u ▸ k.was
  sent hs := k.sent ((sendsStop_heard hm u).trans hs)
  unsent hs := hm.hold u ▸ k.unsent ((sendsStop_heard hm u).trans hs)
  req := k.req
  order hs ho p hp := k.order ((sendsStop_heard hm u).trans hs) (oneToOne_heard hm ho) p ((hm.unit_port u).trans hp)

/-- Settles O34. -/
theorem emergencyStopFrame : Obligations.EmergencyStopFrame := by
  unfold Obligations.EmergencyStopFrame
  simp only [← sendsStop_iff, Bool.not_eq_true]
  refine ⟨fun slot s h0 hn => ?_, fun slot s u hu => ?_, fun s => ?_⟩
  · simp only [exec, execEmergencyStop, h0, hn, if_false]
    rfl
  · have h0 : slot ≠ 0 := by
      rintro rfl
      cases hu
    obtain ⟨h, hf, hh⟩ := emergencyEvent_halts s s.takePlantFrame.acceptDispatch u
    have hh := halted_heard (heard_accept s) hh
    refine ⟨_, _, h, heard_accept s, ?_, hf, hh.cases.1, hh.cases.2, hh.req, fun hs => ⟨hh.sent hs, fun hr => hh.order hs hr.oneToOne⟩⟩
    simp only [exec, execEmergencyStop, h0, hu, if_false]
  · have hm := heard_accept s
    have hfold : State.emergencyAll s s.takePlantFrame.acceptDispatch
        = [Slot.u2, .u3, .u4, .u5, .u6, .u7, .u8].foldl (fun t u => State.emergencyEvent t t u)
          (State.emergencyEvent s s.takePlantFrame.acceptDispatch .u1) := rfl
    obtain ⟨h1, -, -, hhold, -⟩ := emergencyEvent_effect s s.takePlantFrame.acceptDispatch .u1
    obtain ⟨x, -, hx⟩ := emergencyEvent_halts s s.takePlantFrame.acceptDispatch .u1
    obtain ⟨hframe, hall⟩ := emergencyFold_halts [.u2, .u3, .u4, .u5, .u6, .u7, .u8] (by decide) s.takePlantFrame.acceptDispatch
      (State.emergencyEvent s s.takePlantFrame.acceptDispatch .u1) (fun t u => State.emergencyEvent t t u) (fun y v => ⟨y, rfl⟩) h1
      fun v hv => hhold v (by rintro rfl; simp at hv)
    rw [← hfold] at hframe hall
    refine ⟨_, _, hm, rfl, hframe.hf, hframe.head.trans hm.head, fun u => ?_⟩
    obtain ⟨h, hh⟩ := hall u (by
      by_cases e : u = .u1
      · exact .inr ⟨x, e ▸ hx⟩
      · exact .inl (by cases u <;> simp at e ⊢))
    have hh := halted_heard hm hh
    refine ⟨?_, hh.req, h, hh.hold, hh.cases.1, hh.cases.2, fun hs => ⟨hh.sent hs, fun hr => hh.order hs hr.oneToOne⟩⟩
    rw [hframe.core u, hm.core u]

end Sys2Proof.Proofs
end

section
/-! UNIT_HOLD (O32): the hold that is written and settled, and what the taking of its demand makes of the slot's request. The planning
stage can take a slot's demand more than once; the taking is followed as an invariant of the stage (`planStage_induct`). -/

namespace Sys2Proof.Machine

/-! ## What a grant evaluation leaves of a request -/

/-- What grants do not touch: class, destination, path, index and entry number. -/
def Request.course (r : Request) : ReqClass × Stable × List PathStep × Nat × Word := (r.cls, r.dest, r.path, r.index, r.entry)

theorem orderStep_course (s : State) (u : Slot) : ((s.orderStep u).req u).map Request.course = (s.req u).map Request.course := by
  unfold State.orderStep
  split
  · rename_i r p hr hp
    split
    · rfl
    · have hset : ∀ (x : State) (q : Request), ((x.setReq u (some q)).req u).map Request.course = some q.course := fun x q => by
        rw [State.setReq_req, if_pos rfl]
        rfl
      rw [hr]
      exact hset _ _
  · rfl

theorem grantStep_course {s : State} {u : Slot} {r : Request} (st : PathStep) :
    ((s.grantStep u r st).req u).map Request.course = some r.course := by
  unfold State.grantStep
  dsimp only
  generalize (if st.flowChanging then _ else _ : State) = m
  have horder : ∀ x : State, ((((x.setReq u (some { r with
      conv := if st.kind = .pStart then s.freeConverter else none, slotHeld := st.flowChanging, blocked := none })).orderStep u).req u).map
        Request.course) = some r.course := fun x => by
    rw [orderStep_course, State.setReq_req, if_pos rfl]
    rfl
  split
  · exact horder m
  · split
    · exact horder _
    · rw [State.setReq_req, if_pos rfl]
      rfl

theorem tryGrant_course (s : State) (u v : Slot) : ((s.tryGrant u).req v).map Request.course = (s.req v).map Request.course := by
  by_cases h : v = u
  · subst h
    unfold State.tryGrant
    split
    · rfl
    · rename_i r hr
      split
      · rfl
      · split
        · rfl
        · split
          · rw [grantStep_course, hr]
            rfl
          · rw [State.setReq_req, if_pos rfl, hr]
            rfl
  · rw [Proofs.tryGrant_other h]

theorem tryGrant_granted {s : State} {u v : Slot} {r : Request} (hr : s.req v = some r) (hg : r.state ≠ .waiting) :
    (s.tryGrant u).req v = some r := by
  by_cases h : v = u
  · subst h
    unfold State.tryGrant
    rw [hr]
    simp only [hg, ne_eq, not_false_eq_true, if_true]
    exact hr
  · rw [Proofs.tryGrant_other h, hr]

theorem evalGrants_course (s : State) (v : Slot) : (s.evalGrants.req v).map Request.course = (s.req v).map Request.course := by
  have hfold : ∀ (us : List Slot) (x : State), ((us.foldl State.tryGrant x).req v).map Request.course = (x.req v).map Request.course := by
    intro us
    induction us with
    | nil => exact fun _ => rfl
    | cons u us ih => exact fun x => (ih _).trans (tryGrant_course x u v)
  exact hfold _ s

/-- A step that has been granted is left alone by a grant evaluation (R66). -/
theorem evalGrants_granted {s : State} {v : Slot} {r : Request} (hr : s.req v = some r) (hg : r.state ≠ .waiting) :
    s.evalGrants.req v = some r := by
  have hfold : ∀ (us : List Slot) (x : State), x.req v = some r → (us.foldl State.tryGrant x).req v = some r := by
    intro us
    induction us with
    | nil => exact fun _ h => h
    | cons u us ih => exact fun x h => ih _ (tryGrant_granted h hg)
  exact hfold _ s hr

theorem evalGrants_none {s : State} {v : Slot} (hr : s.req v = none) : s.evalGrants.req v = none := by
  have := evalGrants_course s v
  rw [hr] at this
  simpa using this

section
variable (s before : State) (c : Causes) (v : Slot)

/-- Behind the planning stage a request changes by grants alone. -/
theorem finish_course : ((s.finish before c).req v).map Request.course = ((s.planStage before c).req v).map Request.course := by
  have halloc : ∀ x : State, (x.allocStage before c).req v = x.req v := fun x => by
    unfold State.allocStage
    split
    · exact State.req_congr (allocate_trs_eq x) v
    · rfl
  rw [State.finish, halloc, State.grantStage]
  split
  · exact evalGrants_course _ v
  · rfl

variable {s before c v}

theorem finish_granted {r : Request} (hr : (s.planStage before c).req v = some r) (hg : r.state ≠ .waiting) :
    (s.finish before c).req v = some r := by
  have halloc : ∀ x : State, (x.allocStage before c).req v = x.req v := fun x => by
    unfold State.allocStage
    split
    · exact State.req_congr (allocate_trs_eq x) v
    · rfl
  rw [State.finish, halloc, State.grantStage]
  split
  · exact evalGrants_granted hr hg
  · exact hr

theorem finish_none (hr : (s.planStage before c).req v = none) : (s.finish before c).req v = none := by
  have := finish_course s before c v
  rw [hr] at this
  simpa using this

end

/-! ## The planning stage and one slot -/

section
variable {before : State} {u : Slot} {P : State → Prop} (take : ∀ x, P x → P (x.takeDemand u))
  (other : ∀ x y, CascadeFrame x y → y.req u = x.req u → P x → P y)
include take other

theorem takeDemand_induct {v : Slot} {x : State} (h : P x) : P (x.takeDemand v) := by
  by_cases e : u = v
  · subst e
    exact take x h
  · exact other _ _ (cascade_takeDemand x v) (takeDemand_other e) h

theorem assign_induct {x : State} (h : P x) : P x.assign := by
  have hhand : ∀ (old : SlotMap (Option Stable)) (vs : List Slot) (y : State), P y → P (vs.foldl (State.handDesired old) y) := by
    intro old vs
    induction vs with
    | nil => exact fun _ h => h
    | cons v vs ih =>
      refine fun y h => ih _ ?_
      unfold State.handDesired
      split
      · exact h
      · exact takeDemand_induct take other h
  unfold State.assign
  split
  · exact h
  · rename_i row _
    refine hhand _ _ _ (other x _ ((cascade_setPln x { x.pln with desired := x.desiredOf (x.assignRow row) } rfl rfl rfl rfl).trans
      (cascade_notePlanShort _ _)) ?_ h)
    unfold State.notePlanShort
    dsimp only
    split <;> rfl

/-- What the taking of the slot's demand keeps, what the withdrawal of its grant keeps, and what all else keeps that leaves its
request alone, the planning stage keeps. -/
theorem planStage_keeps {s : State} {c : Causes} (drop : ∀ x, P x → P (State.dropGrant before x u)) (h : P s) :
    P (s.planStage before c) := by
  have htakes : ∀ (vs : List Slot) (y : State), P y → P (vs.foldl State.takeDemand y) := by
    intro vs
    induction vs with
    | nil => exact fun _ h => h
    | cons v vs ih => exact fun y h => ih _ (takeDemand_induct take other h)
  have hdrops : ∀ (vs : List Slot) (y : State), P y → P (vs.foldl (State.dropGrant before) y) := by
    intro vs
    induction vs with
    | nil => exact fun _ h => h
    | cons v vs ih =>
      refine fun y h => ih _ ?_
      by_cases e : u = v
      · subst e
        exact drop y h
      · exact other _ _ (cascade_dropGrant before y v) (dropGrant_other e) h
  have hkept : ∀ (vs : List Slot) (y : State), P y → P (vs.foldl (State.dropDesired before) y) := by
    intro vs
    induction vs with
    | nil => exact fun _ h => h
    | cons v vs ih =>
      refine fun y h => ih _ ?_
      unfold State.dropDesired
      split
      · exact takeDemand_induct take other (other y _ (cascade_setPln y _ rfl rfl rfl rfl) rfl h)
      · exact h
  unfold State.planStage
  refine htakes _ _ ?_
  have hd := hdrops Slot.all s h
  split
  · unfold State.replan
    split
    · exact hd
    · split
      · exact assign_induct take other hd
      · exact hkept _ _ hd
  · exact hd

omit take other in
/-- As `planStage_keeps`, where the slot has not stopped being dispatchable: its grant is not withdrawn. -/
theorem planStage_induct (take : ∀ x, P x → P (x.takeDemand u)) (other : ∀ x y, CascadeFrame x y → y.req u = x.req u → P x → P y)
    {s : State} {c : Causes} (drop : before.dispatchable u = true → s.dispatchable u = true) (h : P s) :
    P (s.planStage before c) := by
  let Q : State → Prop := fun x => (before.dispatchable u = true → x.dispatchable u = true) ∧ P x
  have hkeep : ∀ x y, CascadeFrame x y → (before.dispatchable u = true → x.dispatchable u = true) →
      (before.dispatchable u = true → y.dispatchable u = true) := fun x y f hx k => f.play.dispatchable u ▸ hx k
  refine (planStage_keeps (P := Q) (fun x hx => ⟨hkeep _ _ (cascade_takeDemand x u) hx.1, take x hx.2⟩)
    (fun x y f hreq hx => ⟨hkeep x y f hx.1, other x y f hreq hx.2⟩) (fun x hx => ?_) ⟨drop, h⟩).2
  unfold State.dropGrant
  rw [if_neg]
  · exact hx
  · cases hb : before.dispatchable u <;> simp [hb, hx.1]

end

/-! ## A grant in WARNING and a demand taken -/

/-- What the taking of the demand `d` makes of a request in WARNING of a slot in the mode `k` (R64). -/
def Request.retaken (r : Request) (k d : Stable) (c : ReqClass) : Option Request :=
  if d = r.dest then some { r with cls := c }
  else if (pathOf k d).head?.isSome && (pathOf k d).head? == r.current then
    some { r with cls := c, dest := d, path := pathOf k d, index := 1 }
  else if (pathOf k d).isEmpty then none
  else some { ({ r with conv := none, slotHeld := false } : Request).toWaiting d (pathOf k d) 1 with cls := c }

section
variable {s : State} {u : Slot} {r : Request} {d k : Stable} {c : ReqClass} (hk : s.known u = some k) (hd : s.demand u = some (d, c))
include hk hd

theorem takeDemand_warning (hr : s.req u = some r) (hw : r.state = .warning) : (s.takeDemand u).req u = r.retaken k d c := by
  have hpath : s.pathTo u d = pathOf k d := by simp [State.pathTo, hk]
  unfold State.takeDemand Request.retaken
  simp only [hr, hw, hd]
  split
  · rw [State.setReq_req, if_pos rfl]
  · unfold State.rewarn
    simp only [hpath]
    split
    · rw [State.setReq_req, if_pos rfl, ← hw]
    · simp only [withdraw_req, hr, Option.map_some, State.waitOn]
      split
      · exact endRequest_req _ u
      · rw [State.setReq_req, if_pos rfl]
        rfl

/-- What has once been taken stays as it is when it is taken again. -/
theorem takeDemand_retaken (hw : r.state = .warning) (hr : s.req u = r.retaken k d c) : (s.takeDemand u).req u = r.retaken k d c := by
  have hsame : ∀ q : Request, s.req u = some q → q.state = .warning ∨ q.state = .waiting → q.dest = d → q.cls = c →
      (s.takeDemand u).req u = some q := by
    intro q hq hs he hc
    unfold State.takeDemand
    rcases hs with hs | hs <;>
    · simp only [hq, hs, hd, he, if_true, State.setReq_req, ← hc]
      rw [← hs, ← he]
  by_cases h1 : d = r.dest
  · have hx : r.retaken k d c = some { r with cls := c } := if_pos h1
    rw [hx]
    exact hsame _ (hr.trans hx) (.inl hw) h1.symm rfl
  · by_cases h2 : ((pathOf k d).head?.isSome && (pathOf k d).head? == r.current) = true
    · have hx : r.retaken k d c = some { r with cls := c, dest := d, path := pathOf k d, index := 1 } := (if_neg h1).trans (if_pos h2)
      rw [hx]
      exact hsame _ (hr.trans hx) (.inl hw) rfl rfl
    · by_cases h3 : (pathOf k d).isEmpty = true
      · have hx : r.retaken k d c = none := (if_neg h1).trans ((if_neg h2).trans (if_pos h3))
        have hkd : k = d := by
          by_contra hn
          rw [pathOf_ne hn] at h3
          cases h3
        have hstays : s.takeDemand u = s := by
          unfold State.takeDemand State.compareDemand
          simp [hr.trans hx, hd, hk, hkd]
        rw [hstays, hr]
      · have hx : r.retaken k d c
            = some { ({ r with conv := none, slotHeld := false } : Request).toWaiting d (pathOf k d) 1 with cls := c } :=
          (if_neg h1).trans ((if_neg h2).trans (if_neg h3))
        rw [hx]
        exact hsame _ (hr.trans hx) (.inr rfl) rfl rfl

end

/-- The slot is held in the mode, and not by an emergency stop. -/
def HeldIn (s : State) (u : Slot) (d : Stable) : Prop := ∃ h, (s.unitRec u).hold = some h ∧ h.mode = d ∧ h.emergency = false

theorem HeldIn.demand {s : State} {u : Slot} {d : Stable} (h : HeldIn s u d) : s.demand u = some (d, .manual) := by
  obtain ⟨x, hx, hm, he⟩ := h
  simp [State.demand, hx, hm, he]

theorem HeldIn.play {s t : State} {u : Slot} {d : Stable} (h : HeldIn s u d) (f : PlayFrame s t) : HeldIn t u d := by
  obtain ⟨x, hx, hm, he⟩ := h
  exact ⟨x, (f.unit_hold u).trans hx, hm, he⟩

/-- The cascade of a hold ends its planning stage with the taking of the held slot's demand. -/
theorem planStage_hand (s before : State) (c : Causes) (u : Slot) :
    s.planStage before { c with hand := [u] } = (s.planStage before { c with hand := [] }).takeDemand u := rfl

/-- A grant in WARNING after the cascade of a new hold: retaken once for all (R64). -/
theorem planStage_retaken {s before : State} {c : Causes} {u : Slot} {r : Request} {k d : Stable} (held : HeldIn s u d)
    (hk : s.known u = some k) (hr : s.req u = some r) (hw : r.state = .warning)
    (drop : before.dispatchable u = true → s.dispatchable u = true) :
    (s.planStage before { c with hand := [u] }).req u = r.retaken k d .manual := by
  let P : State → Prop := fun x => (HeldIn x u d ∧ x.known u = some k) ∧ (x.req u = some r ∨ x.req u = r.retaken k d .manual)
  have htake : ∀ x, P x → (x.takeDemand u).req u = r.retaken k d .manual := by
    rintro x ⟨⟨hx, hxk⟩, hreq | hreq⟩
    · exact takeDemand_warning hxk hx.demand hreq hw
    · exact takeDemand_retaken hxk hx.demand hw hreq
  have hframe : ∀ x y, CascadeFrame x y → HeldIn x u d ∧ x.known u = some k → HeldIn y u d ∧ y.known u = some k :=
    fun x y f h => ⟨h.1.play f.play, (f.play.known u).trans h.2⟩
  refine (congrArg (State.req · u) (planStage_hand s before c u)).trans (htake _ ?_)
  exact planStage_induct (P := P) (fun x hx => ⟨hframe _ _ (cascade_takeDemand x u) hx.1, .inr (htake x hx)⟩)
    (fun x y f hreq hx => ⟨hframe x y f hx.1, hreq ▸ hx.2⟩) drop ⟨⟨held, hk⟩, .inl hr⟩

/-! ## The frame -/

/-- The settled setpoint that UNIT_HOLD writes (R14). -/
theorem settledAgainst_ordered (md : Stable) (v : Option Int) (c : Option CapRecord) :
    (Hold.ordered md v).settledAgainst c = match (if md = .gen then v.map clampUnit else none), c with
      | some v, some c => some (outOfZone c.zone (clampInt c.genMin c.genMax v))
      | _, _ => none := by
  cases md <;> cases v <;> cases c <;> rfl

/-- The hold is written and settled, and HOLD_ADJUSTED posted where its settled setpoint is not the requested one (R13, R14). -/
theorem settleHold_ordered (s : State) (u : Slot) (md : Stable) (v settled : Option Int)
    (hs : settled = (Hold.ordered md v).settledAgainst (s.record u)) :
    (s.setHold u (some (Hold.ordered md v))).settleHold u =
      let b := s.setUnit u { s.unitRec u with hold := some { Hold.ordered md v with settled := settled } }
      if settled.isSome ∧ settled ≠ (Hold.ordered md v).requested then b.post .holdAdjusted (some u) settled else b := by
  have hhold : ((s.setHold u (some (Hold.ordered md v))).unitRec u).hold = some (Hold.ordered md v) := by simp [State.setHold]
  have hwrite : ∀ x : Hold, (s.setHold u (some (Hold.ordered md v))).setUnit u
      { (s.setHold u (some (Hold.ordered md v))).unitRec u with hold := some x } = s.setUnit u { s.unitRec u with hold := some x } := by
    intro x
    simp [State.setHold, State.setUnit, State.setRos, SlotMap.set_set, State.unitRec]
  have hrec : (s.setHold u (some (Hold.ordered md v))).record u = s.record u := rfl
  unfold State.settleHold
  rw [hhold]
  simp only [hrec, ← hs, hwrite]
  refine if_congr ?_ rfl rfl
  have hnone : (Hold.ordered md v).settled = none := rfl
  rw [hnone]
  cases settled <;> simp

/-- What the written hold leaves of all that the cascade reads. -/
theorem settleHold_ordered_reads (s : State) (u : Slot) (md : Stable) (v : Option Int) :
    let b := (s.setHold u (some (Hold.ordered md v))).settleHold u
    HeldIn b u md ∧ b.trs = s.trs ∧ b.governs = s.governs ∧ (∀ w, b.known w = s.known w) ∧ ∀ w, b.dispatchable w = s.dispatchable w := by
  intro b
  have hb : b = _ := settleHold_ordered s u md v _ rfl
  let x : Hold := { Hold.ordered md v with settled := (Hold.ordered md v).settledAgainst (s.record u) }
  have hunit : ∀ w, b.unitRec w = if w = u then { s.unitRec w with hold := some x } else s.unitRec w := by
    intro w
    have hset : (s.setUnit u { s.unitRec u with hold := some x }).unitRec w
        = if w = u then { s.unitRec w with hold := some x } else s.unitRec w := by
      rw [State.setUnit_unitRec]
      split
      · rename_i h
        rw [h]
      · rfl
    rw [hb]
    dsimp only
    split
    · exact hset
    · exact hset
  have hrest : b.trs = s.trs ∧ b.pli = s.pli ∧ b.ports = s.ports ∧ b.head = s.head := by
    rw [hb]
    dsimp only
    split
    · exact ⟨rfl, rfl, rfl, rfl⟩
    · exact ⟨rfl, rfl, rfl, rfl⟩
  obtain ⟨htrs, hpli, hports, hhead⟩ := hrest
  have hfield : ∀ {α : Type} (f : UnitRec → α), (∀ r h, f { r with hold := h } = f r) → ∀ w, f (b.unitRec w) = f (s.unitRec w) := by
    intro α f hf w
    rw [hunit]
    split
    · exact hf _ _
    · rfl
  have hstate : ∀ w, b.portState w = s.portState w :=
    portState_congr (hfield UnitRec.port fun _ _ => rfl) (fun p => by rw [State.portRec_congr hports])
  refine ⟨⟨x, ?_, rfl, rfl⟩, htrs, State.governs_congr hpli, fun w => ?_, fun w => ?_⟩
  · rw [hunit, if_pos rfl]
  · unfold State.known State.reported
    rw [hfield UnitRec.report fun _ _ => rfl]
  · unfold State.dispatchable
    rw [hstate, hhead]
    simp only [hfield UnitRec.report fun _ _ => rfl, hfield UnitRec.trip fun _ _ => rfl, hfield UnitRec.fault fun _ _ => rfl,
      hfield UnitRec.backoff fun _ _ => rfl]

theorem Heard.dispatchable {s m : State} (h : Heard s m) (u : Slot) : m.dispatchable u = s.dispatchable u := by
  rw [h.frame.dispatchable]
  obtain ⟨hports, hros, hhead, -⟩ := heard_play s
  unfold State.dispatchable State.portState State.slotPort
  rw [State.unitRec_congr hros, hhead, funext (State.portRec_congr hports)]

end Sys2Proof.Machine

namespace Sys2Proof.Proofs
open Sys2Proof.Machine

/-- Settles O32. -/
theorem unitHoldFrame : Obligations.UnitHoldFrame := by
  unfold Obligations.UnitHoldFrame
  intro slot mode setpoint s
  refine ⟨fun h => ?_, fun u md hu hmd hno => ?_⟩
  · rcases h with h | h | ⟨u, x, hu, hx, he⟩
    · simp only [exec, execUnitHold, h]
      rfl
    · cases hu : slotOfCode slot <;> simp only [exec, execUnitHold, h, hu] <;> rfl
    · cases hm : stableOfCode mode with
      | none =>
        simp only [exec, execUnitHold, hu, hm]
        rfl
      | some m =>
        simp only [exec, execUnitHold, hu, hm, hx, Option.any_some, he, if_true]
        rfl
  · intro requested settled
    have hm := heard_accept s
    generalize ha : s.takePlantFrame.acceptDispatch = a at hm
    obtain ⟨b, hb⟩ : ∃ b, (a.setHold u (some (Hold.ordered md (setpoint.map BitVec.toInt)))).settleHold u = b := ⟨_, rfl⟩
    have hnot : ((s.unitRec u).hold.any (·.emergency)) = false := by
      cases hx : (s.unitRec u).hold with
      | none => rfl
      | some x => exact hno x hx
    have hexec : exec (.unitHold slot mode setpoint) s = .next (b.finish s (holdCauses (s.unitRec u).hold md u)) := by
      simp only [exec, execUnitHold, hu, hmd, hnot, ha, hb, Bool.false_eq_true, if_false]
    have hreq : (Hold.ordered md (setpoint.map BitVec.toInt)).requested = requested := by
      simp only [Hold.ordered, Option.map_map]
      rfl
    have hset : settled = (Hold.ordered md (setpoint.map BitVec.toInt)).settledAgainst (a.record u) := by
      rw [settledAgainst_ordered, hm.record, Option.map_map]
      rfl
    have heff := settleHold_ordered a u md (setpoint.map BitVec.toInt) settled hset
    obtain ⟨hheld, htrs, hgov, hknown, hdisp⟩ := settleHold_ordered_reads a u md (setpoint.map BitVec.toInt)
    rw [hb] at heff hheld htrs hgov hknown hdisp
    have hplan : ∀ q, (b.planStage s (holdCauses (s.unitRec u).hold md u)).req u = some q → q.cls = .manual ∧ q.dest = md := by
      intro q hq
      refine takeDemand_key ?_ ((congrArg (State.req · u) (planStage_hand b s (holdCauses (s.unitRec u).hold md u) u)).symm.trans hq)
      exact (hheld.play (cascade_planStage b s _).play).demand
    have hcourse := finish_course b s (holdCauses (s.unitRec u).hold md u) u
    refine ⟨_, _, hm, hexec, ?_, fun r hr => ?_, fun hstate k hk hne => ?_, fun r k hret hr hw hk => ?_⟩
    · have hf := cascade_finish b s (holdCauses (s.unitRec u).hold md u)
      have hwritten : ({ Hold.ordered md (setpoint.map BitVec.toInt) with settled := settled } : Hold)
          = { mode := md, requested := requested, settled := settled, emergency := false, stopOutstanding := false } := by
        rw [← hreq]
        rfl
      rw [hreq, hwritten] at heff
      rw [heff] at hf ⊢
      exact hf
    · rw [hr] at hcourse
      obtain ⟨q, hq, he⟩ := Option.map_eq_some_iff.mp hcourse.symm
      obtain ⟨hc, hd⟩ := hplan q hq
      exact ⟨(congrArg Prod.fst he).symm.trans hc, (congrArg (·.2.1) he).symm.trans hd⟩
    · have hx := cascade_planStage b s { holdCauses (s.unitRec u).hold md u with hand := [] }
      have hsome := takeDemand_isSome (hheld.play hx.play).demand (by rw [hx.play.governs, hgov, hm.governs, governs_iff]; exact hstate)
        (by rw [hx.play.known, hknown, hm.known, hk]) hne
      rw [← Option.isSome_map (f := Request.course), hcourse, Option.isSome_map]
      exact hsome
    · have htake := planStage_retaken (before := s) (c := holdCauses (s.unitRec u).hold md u) hheld (by rw [hknown, hm.known, hk])
        (r := r) (by rw [State.req_congr htrs, hm.stays (.inl hret), State.req_congr (heard_play s).2.2.2.2.1, hr]) hw
        (fun h => by rw [hdisp, hm.dispatchable, h])
      change (b.planStage s (holdCauses (s.unitRec u).hold md u)).req u = _ at htake
      rw [htake] at hcourse
      unfold Request.retaken at htake hcourse
      refine ⟨fun h1 => ?_, fun h1 h2 h3 => ?_, fun h1 h2 h3 => ?_, fun h1 h2 => ?_⟩
      · rw [if_pos h1.symm] at htake
        exact finish_granted htake (by simp [hw])
      · rw [if_neg (Ne.symm h1), if_pos (by rw [h2, Bool.true_and, beq_iff_eq]; exact h3)] at htake
        exact finish_granted htake (by simp [hw])
      · rw [if_neg (Ne.symm h1), if_neg (by simp [h2]), if_neg (by simp [pathOf_ne h3])] at hcourse
        obtain ⟨q, hq, he⟩ := Option.map_eq_some_iff.mp hcourse
        exact ⟨q, hq, congrArg (·.2.2.1) he, congrArg (·.2.2.2.1) he, congrArg (·.2.2.2.2) he⟩
      · have hempty : pathOf k md = [] := by
          rw [h2]
          cases md <;> rfl
        rw [if_neg (Ne.symm h1), hempty] at htake
        exact finish_none htake

end Sys2Proof.Proofs
end

section
/-! The bodies of PLANT_STATUS, of the unit answer, of table rows, event records and catalogue items (O36): each is a chain of segments in
the order of chapter 11, and a segment lies at the sum of the lengths before it. -/

namespace Sys2Proof.Machine

/-! ## Segments -/

/-- Segments one after another from an offset on. -/
def placed (k : Nat) : List (List Byte) → List (Nat × List Byte)
  | [] => []
  | x :: rest => (k, x) :: placed (k + x.length) rest

theorem laidOut_placed (segs : List (List Byte)) (pre : List Byte) : LaidOut (pre ++ segs.flatten) (placed pre.length segs) := by
  induction segs generalizing pre with
  | nil => exact fun f hf => absurd hf (by simp [placed])
  | cons x rest ih =>
    intro f hf
    rcases List.mem_cons.mp hf with rfl | hf
    · simp
    · have := ih (pre ++ x) f (by simpa using hf)
      simpa using this

theorem LaidOut.of_segments {body : List Byte} {segs : List (List Byte)} {fields : List (Nat × List Byte)} (hb : body = segs.flatten)
    (hf : fields.Sublist (placed 0 segs)) : LaidOut body fields := fun f h => by
  have := laidOut_placed segs [] f (hf.subset h)
  rwa [hb]

theorem int16_length (i : Int) : (int16 i).length = 2 := rfl
theorem nat16_length (n : Nat) : (nat16 n).length = 2 := rfl
theorem halfBytes_length (h : Half) : (halfBytes h).length = 2 := rfl
theorem wordBytes_length (w : Word) : (wordBytes w).length = 4 := rfl
theorem int32_length (i : Int) : (int32 i).length = 4 := rfl

/-- A number in one byte, or what stands for its absence. -/
def oneByte (v : Option Nat) (absent : Byte) : Byte :=
  match v with
  | none => absent
  | some n => byte n

/-! ## The plant status -/

/-- The head in use in two bytes. -/
def headBytes (h : Option Nat) : List Byte :=
  match h with
  | none => [0xFF, 0xFF]
  | some h => nat16 h

theorem headBytes_length (h : Option Nat) : (headBytes h).length = 2 := by
  cases h <;> rfl

/-- The segments of the plant status (section 11.5). -/
def State.statusSegments (s : State) : List (List Byte) :=
  [wordBytes s.clock, [partStateByte s.pli.part], [substateByte s.pli.part], [sourceCode s.tgt.source], int16 s.tgt.reqBase,
    int16 s.tgt.plan, int16 s.tgt.ramped, int16 s.tgt.increment, int16 s.allocationTarget,
    int16 ((s.alc.last.map (·.target)).getD (-32768)), int32 s.alc.shortfall, int32 s.plantActual, headBytes s.headInUse,
    [if s.params.headOverride ≠ 0 then 2 else if s.head.estimate.isSome then 1 else 0],
    [oneByte s.pln.selected 0xFF], [oneByte (s.pln.proposal.map (·.row)) 0xFF],
    wordBytes ((s.pln.proposal.map (·.expiry)).getD 0xFFFFFFFF), [byte s.pln.shortPmp, byte s.pln.shortGen, byte s.pln.shortCnd],
    nat16 s.flagSet,
    [byte ([s.trs.c1, s.trs.c2].filter Option.isSome).length, byte s.queue.length, byte s.plantCount, byte s.ste.events.length],
    halfBytes s.ste.seq, [oneByte (s.pli.load.map (fun l => tablePosCode l.pos)) 0],
    [byte ((selectionCode s.ste.m1.selection).toNat + (if s.ste.m1.activeLow then 16 else 0) + (if s.lineHigh s.ste.m1 then 128 else 0))],
    [byte ((selectionCode s.ste.m2.selection).toNat + (if s.ste.m2.activeLow then 16 else 0) + (if s.lineHigh s.ste.m2 then 128 else 0))]]

theorem headSourceByte_eq (s : State) :
    headSourceByte s.headSource = if s.params.headOverride ≠ 0 then 2 else if s.head.estimate.isSome then 1 else 0 := by
  unfold State.headSource
  split
  · rfl
  · split <;> rfl

theorem lineByte_eq (s : State) (m : MonitorLine) : s.lineByte m
    = byte ((selectionCode m.selection).toNat + (if m.activeLow then 16 else 0) + (if s.lineHigh m then 128 else 0)) := by
  have hadd : ∀ a b : Nat, BitVec.ofNat 8 (a + b) = BitVec.ofNat 8 a + BitVec.ofNat 8 b := fun a b => BitVec.ofNat_add a b
  unfold State.lineByte byte
  rw [hadd, hadd, BitVec.ofNat_toNat, BitVec.setWidth_eq]
  congr 1
  · congr 1
    cases m.activeLow <;> rfl
  · cases s.lineHigh m <;> rfl

theorem convertersHeld_eq (s : State) : s.convertersHeld = ([s.trs.c1, s.trs.c2].filter Option.isSome).length := by
  unfold State.convertersHeld
  cases s.trs.c1 <;> cases s.trs.c2 <;> rfl

theorem statusBody_segments (s : State) : s.statusBody = s.statusSegments.flatten := by
  have hhead : (s.headInUse.map nat16).getD [0xFF, 0xFF] = headBytes s.headInUse := by cases s.headInUse <;> rfl
  have hrow : (s.pln.proposal.map (fun p => byte p.row)).getD 0xFF = oneByte (s.pln.proposal.map (·.row)) 0xFF := by
    cases s.pln.proposal <;> rfl
  have hload : byte ((s.pli.load.map (fun l => tablePosCode l.pos)).getD 0) = oneByte (s.pli.load.map (fun l => tablePosCode l.pos)) 0 := by
    cases s.pli.load <;> rfl
  have hsel : (s.pln.selected.map byte).getD 0xFF = oneByte s.pln.selected 0xFF := by cases s.pln.selected <;> rfl
  unfold State.statusBody State.statusSegments
  rw [hhead, hrow, hload, hsel, headSourceByte_eq, lineByte_eq, lineByte_eq, convertersHeld_eq]
  simp only [optInt16, optWord, List.flatten_cons, List.flatten_nil, List.append_assoc, List.cons_append, List.nil_append, List.append_nil]

theorem bitsValue_testBit (bs : List Bool) (i : Nat) : (bitsValue bs).testBit i = bs.getD i false := by
  induction bs generalizing i with
  | nil => simp [bitsValue]
  | cons b rest ih =>
    cases i with
    | zero => cases b <;> simp [bitsValue, Nat.testBit_zero, Nat.add_mod]
    | succ i =>
      have hhalf : bitsValue (b :: rest) / 2 = bitsValue rest := by
        simp only [bitsValue]
        split <;> omega
      rw [Nat.testBit_succ, hhalf, ih]
      rfl

theorem bitsValue_lt (bs : List Bool) : bitsValue bs < 2 ^ bs.length := by
  induction bs with
  | nil => simp [bitsValue]
  | cons b rest ih =>
    simp only [bitsValue, List.length_cons, pow_succ]
    split <;> omega

/-! ## The unit answer -/

/-- The capability record in its 13 bytes (R183). -/
def capBytes (c : Option CapRecord) : List Byte :=
  match c with
  | none => List.replicate 13 0
  | some c => int16 c.genMin ++ int16 c.genMax ++ int16 ((c.zone.map (·.1)).getD (-1)) ++ int16 ((c.zone.map (·.2)).getD (-1))
      ++ int16 c.pump ++ int16 c.condense ++ [if c.extrapolated then 1 else 0]

/-- The request in its 33 bytes (R183). -/
def askBytes (q : Option Request) : List Byte :=
  match q with
  | none => List.replicate 33 0
  | some r => [match r.cls with | .manual => 0 | .automatic => 1, byte (stableCode r.dest)]
      ++ [oneByte (r.path[0]?.map (fun t => stepCode t.kind)) 0xFF] ++ [oneByte (r.path[1]?.map (fun t => stepCode t.kind)) 0xFF]
      ++ [oneByte (r.path[2]?.map (fun t => stepCode t.kind)) 0xFF]
      ++ [byte r.index, match r.state with | .waiting => 0 | .warning => 1 | .ordered => 2 | .inStep => 3]
      ++ wordBytes r.entry ++ [oneByte (r.conv.map convNumber) 0] ++ [if r.slotHeld then 1 else 0] ++ [if r.seen then 1 else 0]
      ++ [if r.tag.isSome then 1 else 0] ++ [r.tag.getD 0]
      ++ wordBytes (r.startedAt.getD 0xFFFFFFFF) ++ wordBytes (r.leadExpiry.getD 0xFFFFFFFF)
      ++ wordBytes (r.ackExpiry.getD 0xFFFFFFFF) ++ wordBytes (r.stepExpiry.getD 0xFFFFFFFF) ++ [blockedCode r.blocked]

/-- The orphan record in its four bytes (R183). -/
def leftBytes (o : Option Orphan) : List Byte :=
  match o with
  | none => List.replicate 4 0
  | some o => [1] ++ [oneByte (o.conv.map convNumber) 0] ++ [if o.slotHeld then 1 else 0] ++ [if o.place then 1 else 0]

theorem capBytes_length (c : Option CapRecord) : (capBytes c).length = 13 := by
  cases c <;> rfl

theorem askBytes_length (q : Option Request) : (askBytes q).length = 33 := by
  cases q <;> rfl

theorem leftBytes_length (o : Option Orphan) : (leftBytes o).length = 4 := by
  cases o <;> rfl

theorem convCode_eq (c : Option Conv) : convCode c = oneByte (c.map convNumber) 0 := by
  cases c <;> rfl

theorem recordBytes_eq (c : Option CapRecord) : recordBytes c = [if c.isSome then 1 else 0] ++ capBytes c := by
  cases c <;> rfl

theorem orphanBytes_eq (o : Option Orphan) : orphanBytes o = leftBytes o := by
  cases o with
  | none => rfl
  | some o => simp [orphanBytes, leftBytes, convCode_eq, flagByte]

theorem pathBytes_eq (p : List PathStep) :
    pathBytes p = [oneByte (p[0]?.map (fun t => stepCode t.kind)) 0xFF, oneByte (p[1]?.map (fun t => stepCode t.kind)) 0xFF,
      oneByte (p[2]?.map (fun t => stepCode t.kind)) 0xFF] := by
  match p with
  | [] => rfl
  | [_] => rfl
  | [_, _] => rfl
  | _ :: _ :: _ :: _ => rfl

theorem requestBytes_eq (q : Option Request) : requestBytes q = [if q.isSome then 1 else 0] ++ askBytes q := by
  cases q with
  | none => rfl
  | some r =>
    cases hc : r.cls <;> cases hs : r.state <;>
      simp [requestBytes, askBytes, pathBytes_eq, convCode_eq, flagByte, optWord, reqStateCode, hc, hs]

/-- The segments of the unit answer (R183). -/
def State.unitSegments (s : State) (u : Slot) : List (List Byte) :=
  let r := s.unitRec u
  let p := s.slotPort u
  let o := p.bind (·.outstanding)
  let x := s.alc.last.map (fun a => a.shares.get u)
  [[slotCode u], [oneByte (r.port.map (fun p => (portCode p).toNat)) 0], [portStateCode (s.portState u)],
    [r.expected], [(p.bind (·.lastMachine)).getD 0], [if p.any (fun p => p.ackMode == .unconfirmed) then 1 else 0],
    [oneByte (o.map (fun o => match o.purpose with | .supervised => 1 | .emergency => 2 | .timeoutStop => 3)) 0],
    [oneByte (o.map (fun o => stepCode o.kind)) 0], [oneByte (o.map (fun o => o.tag.toNat)) 0],
    [oneByte ((s.reported u).map reportedCode) 0xFF], int16 (s.power u),
    [if r.report.any (·.remote) then 1 else 0], [if r.report.any (·.available) then 1 else 0],
    [oneByte ((r.report.bind (·.conv)).map convNumber) 0], [if r.trip then 1 else 0], [if r.fault then 1 else 0],
    wordBytes (r.backoff.getD 0xFFFFFFFF),
    [if s.dispatchable u then 1 else 0], [if s.automatic u then 1 else 0],
    [oneByte ((s.waterwayOf u).map (fun w => (waterwayCode w).toNat)) 0],
    [oneByte (r.hold.map (fun h => stableCode h.mode)) 0xFF], int16 ((r.hold.bind (·.requested)).getD (-32768)),
    int16 ((r.hold.bind (·.settled)).getD (-32768)), [if r.hold.any (·.emergency) then 1 else 0],
    [if r.hold.any (·.stopOutstanding) then 1 else 0],
    int16 ((r.lastSetpoint.map (·.value)).getD (-32768)), wordBytes ((r.lastSetpoint.map (·.time)).getD 0xFFFFFFFF),
    s.ros.rotation.map slotCode, [byte (s.ros.rotation.findIdx (· == u) + 1)],
    [if (s.record u).isSome then 1 else 0], capBytes (s.record u),
    [oneByte ((s.pln.desired.get u).map stableCode) 0xFF], [if (s.req u).isSome then 1 else 0], askBytes (s.req u),
    leftBytes (s.orphan u),
    [oneByte (x.map (fun x => (lineCode x.line).toNat)) 0], int16 ((x.map (·.value)).getD (-32768)),
    int16 ((x.bind (·.beforeZones)).getD (-32768)), [if x.any (·.moved) then 1 else 0]]

theorem byte_toNat (b : Byte) : byte b.toNat = b := by
  simp [byte]

theorem outstandingBytes_eq (o : Option Outstanding) : outstandingBytes o =
    [oneByte (o.map (fun o => match o.purpose with | .supervised => 1 | .emergency => 2 | .timeoutStop => 3)) 0,
      oneByte (o.map (fun o => stepCode o.kind)) 0, oneByte (o.map (fun o => o.tag.toNat)) 0] := by
  cases o with
  | none => rfl
  | some o =>
    have hpurpose : purposeCode o.purpose = byte (match o.purpose with | .supervised => 1 | .emergency => 2 | .timeoutStop => 3) := by
      cases o.purpose <;> rfl
    simp [outstandingBytes, oneByte, hpurpose, byte_toNat]

theorem holdBytes_eq (h : Option Hold) : holdBytes h =
    [oneByte (h.map (fun h => stableCode h.mode)) 0xFF] ++ int16 ((h.bind (·.requested)).getD (-32768))
      ++ int16 ((h.bind (·.settled)).getD (-32768)) ++ [if h.any (·.emergency) then 1 else 0]
      ++ [if h.any (·.stopOutstanding) then 1 else 0] := by
  cases h with
  | none => rfl
  | some h => simp [holdBytes, oneByte, optInt16, flagByte]

theorem shareBytes_eq (x : Option SlotShare) : shareBytes x =
    [oneByte (x.map (fun x => (lineCode x.line).toNat)) 0] ++ int16 ((x.map (·.value)).getD (-32768))
      ++ int16 ((x.bind (·.beforeZones)).getD (-32768)) ++ [if x.any (·.moved) then 1 else 0] := by
  cases x with
  | none => rfl
  | some x => simp [shareBytes, oneByte, optInt16, flagByte, byte_toNat]

theorem unitBody_segments (s : State) (u : Slot) : s.unitBody u = (s.unitSegments u).flatten := by
  have hport : ((s.unitRec u).port.map portCode).getD 0 = oneByte ((s.unitRec u).port.map (fun p => (portCode p).toNat)) 0 := by
    cases (s.unitRec u).port with
    | none => rfl
    | some p => exact (byte_toNat _).symm
  have hmode : ((s.reported u).map (fun m => byte (reportedCode m))).getD 0xFF = oneByte ((s.reported u).map reportedCode) 0xFF := by
    cases s.reported u <;> rfl
  have hway : ((s.waterwayOf u).map waterwayCode).getD 0 = oneByte ((s.waterwayOf u).map (fun w => (waterwayCode w).toNat)) 0 := by
    cases s.waterwayOf u with
    | none => rfl
    | some w => exact (byte_toNat _).symm
  have hdesired : ((s.pln.desired.get u).map (fun m => byte (stableCode m))).getD 0xFF
      = oneByte ((s.pln.desired.get u).map stableCode) 0xFF := by
    cases s.pln.desired.get u <;> rfl
  unfold State.unitBody State.unitSegments
  simp only [hport, hmode, hway, hdesired, outstandingBytes_eq, holdBytes_eq, recordBytes_eq, requestBytes_eq, orphanBytes_eq,
    shareBytes_eq, convCode_eq, State.rotationPosition, flagByte]
  simp only [optInt16, optWord, List.flatten_cons, List.flatten_nil, List.append_assoc, List.cons_append, List.nil_append, List.append_nil]

theorem headUnknown_eq (s : State) : s.headUnknown = s.headInUse.isNone := by
  unfold State.headUnknown State.headInUse State.headSource
  split
  · rfl
  · split
    · rename_i h
      cases he : s.head.estimate with
      | none => simp [he] at h
      | some e => rfl
    · rfl

end Sys2Proof.Machine

namespace Sys2Proof.Proofs
open Sys2Proof.Machine

theorem statusBody_laidOut (s : State) :
    LaidOut s.statusBody
        [(0, wordBytes s.clock),
         (4, [match s.pli.part with | .standby => 0 | .dispatching => 1 | .fallback _ => 2]),
         (5, [match s.pli.part with | .fallback .linkDown => 1 | .fallback .awaitResume => 2 | _ => 0]),
         (6, [match s.tgt.source with | .direct => 0 | .profile => 1 | .pattern => 2]),
         (7, int16 s.tgt.reqBase), (9, int16 s.tgt.plan), (11, int16 s.tgt.ramped), (13, int16 s.tgt.increment),
         (15, int16 s.allocationTarget), (17, int16 ((s.alc.last.map (·.target)).getD (-32768))), (19, int32 s.alc.shortfall),
         (23, int32 s.plantActual), (27, headBytes s.headInUse),
         (29, [if s.params.headOverride ≠ 0 then 2 else if s.head.estimate.isSome then 1 else 0]),
         (30, [oneByte s.pln.selected 0xFF]), (31, [oneByte (s.pln.proposal.map (·.row)) 0xFF]),
         (32, wordBytes ((s.pln.proposal.map (·.expiry)).getD 0xFFFFFFFF)),
         (36, [byte s.pln.shortPmp, byte s.pln.shortGen, byte s.pln.shortCnd]),
         (41, [byte ([s.trs.c1, s.trs.c2].filter Option.isSome).length, byte s.queue.length, byte s.plantCount,
               byte s.ste.events.length]),
         (45, halfBytes s.ste.seq), (47, [oneByte (s.pli.load.map (fun l => tablePosCode l.pos)) 0]),
         (48, [byte ((selectionCode s.ste.m1.selection).toNat + (if s.ste.m1.activeLow then 16 else 0)
           + (if s.lineHigh s.ste.m1 then 128 else 0))]),
         (49, [byte ((selectionCode s.ste.m2.selection).toNat + (if s.ste.m2.activeLow then 16 else 0)
           + (if s.lineHigh s.ste.m2 then 128 else 0))])]
      ∧ LaidOut s.statusBody [(39, nat16 s.flagSet)] := by
  have h4 : (match s.pli.part with | .standby => 0 | .dispatching => 1 | .fallback _ => 2) = partStateByte s.pli.part := by
    cases s.pli.part <;> rfl
  have h5 : (match s.pli.part with | .fallback .linkDown => 1 | .fallback .awaitResume => 2 | _ => 0) = substateByte s.pli.part := by
    cases s.pli.part with
    | fallback sub => cases sub <;> rfl
    | standby => rfl
    | dispatching => rfl
  have h6 : (match s.tgt.source with | .direct => 0 | .profile => 1 | .pattern => 2) = sourceCode s.tgt.source := by
    cases s.tgt.source <;> rfl
  rw [h4, h5, h6]
  constructor <;> refine .of_segments (statusBody_segments s) ?_ <;>
    simp only [State.statusSegments, placed, wordBytes_length, int16_length, int32_length, nat16_length, halfBytes_length,
      headBytes_length, List.length_cons, List.length_nil, Nat.reduceAdd, Nat.zero_add]
  · iterate 18 apply List.Sublist.cons_cons
    apply List.Sublist.cons
    iterate 5 apply List.Sublist.cons_cons
    exact .slnil
  · exact List.singleton_sublist.mpr (by simp)

theorem unitBody_laidOut (s : State) (u : Slot) (hrot : s.ros.rotation.length = 8) :
    let r := s.unitRec u
    let p := s.slotPort u
    let o := p.bind (·.outstanding)
    let x := s.alc.last.map (fun a => a.shares.get u)
    (s.unitBody u).length = 105
    ∧ LaidOut (s.unitBody u)
      [(0, [slotCode u]), (1, [oneByte (r.port.map (fun p => (portCode p).toNat)) 0]), (2, [portStateCode (s.portState u)]),
       (3, [r.expected]), (4, [(p.bind (·.lastMachine)).getD 0]), (5, [if p.any (fun p => p.ackMode == .unconfirmed) then 1 else 0]),
       (6, [oneByte (o.map (fun o => match o.purpose with | .supervised => 1 | .emergency => 2 | .timeoutStop => 3)) 0]),
       (7, [oneByte (o.map (fun o => stepCode o.kind)) 0]), (8, [oneByte (o.map (fun o => o.tag.toNat)) 0]),
       (9, [oneByte ((s.reported u).map reportedCode) 0xFF]), (10, int16 (s.power u)),
       (12, [if r.report.any (·.remote) then 1 else 0]), (13, [if r.report.any (·.available) then 1 else 0]),
       (14, [oneByte ((r.report.bind (·.conv)).map convNumber) 0]), (15, [if r.trip then 1 else 0]), (16, [if r.fault then 1 else 0]),
       (17, wordBytes (r.backoff.getD 0xFFFFFFFF)),
       (21, [if s.dispatchable u then 1 else 0]), (22, [if s.automatic u then 1 else 0]),
       (23, [oneByte ((s.waterwayOf u).map (fun w => (waterwayCode w).toNat)) 0]),
       (24, [oneByte (r.hold.map (fun h => stableCode h.mode)) 0xFF]), (25, int16 ((r.hold.bind (·.requested)).getD (-32768))),
       (27, int16 ((r.hold.bind (·.settled)).getD (-32768))), (29, [if r.hold.any (·.emergency) then 1 else 0]),
       (30, [if r.hold.any (·.stopOutstanding) then 1 else 0]),
       (31, int16 ((r.lastSetpoint.map (·.value)).getD (-32768))), (33, wordBytes ((r.lastSetpoint.map (·.time)).getD 0xFFFFFFFF)),
       (37, s.ros.rotation.map slotCode), (45, [byte (s.ros.rotation.findIdx (· == u) + 1)])]
    ∧ LaidOut (s.unitBody u)
      [(46, [if (s.record u).isSome then 1 else 0]), (47, capBytes (s.record u)), (60, [oneByte ((s.pln.desired.get u).map stableCode) 0xFF]),
       (61, [if (s.req u).isSome then 1 else 0]), (62, askBytes (s.req u)), (95, leftBytes (s.orphan u)),
       (99, [oneByte (x.map (fun x => (lineCode x.line).toNat)) 0]), (100, int16 ((x.map (·.value)).getD (-32768))),
       (102, int16 ((x.bind (·.beforeZones)).getD (-32768))), (104, [if x.any (·.moved) then 1 else 0])] := by
  intro r p o x
  have hplaced : placed 0 (s.unitSegments u) = placed 0 (s.unitSegments u |>.take 29) ++ placed 46 (s.unitSegments u |>.drop 29) := by
    simp only [State.unitSegments, placed, List.take, List.drop, List.cons_append, List.nil_append, wordBytes_length, int16_length,
      List.length_map, hrot, List.length_cons, List.length_nil, Nat.reduceAdd, Nat.zero_add]
  refine ⟨?_, .of_segments (unitBody_segments s u) ?_, .of_segments (unitBody_segments s u) ?_⟩
  · rw [unitBody_segments]
    simp only [State.unitSegments, List.flatten_cons, List.flatten_nil, List.length_append, List.length_cons, List.length_nil,
      wordBytes_length, int16_length, capBytes_length, askBytes_length, leftBytes_length, List.length_map, hrot, Nat.reduceAdd]
  · rw [hplaced]
    refine List.Sublist.trans ?_ (List.sublist_append_left _ _)
    simp only [State.unitSegments, placed, List.take, wordBytes_length, int16_length, List.length_map, hrot, List.length_cons,
      List.length_nil, Nat.reduceAdd, Nat.zero_add]
    exact List.Sublist.refl _
  · rw [hplaced]
    refine List.Sublist.trans ?_ (List.sublist_append_right _ _)
    simp only [State.unitSegments, placed, List.drop, int16_length, capBytes_length, askBytes_length, leftBytes_length,
      List.length_cons, List.length_nil, Nat.reduceAdd]
    exact List.Sublist.refl _

/-! ## Rows, event records, items of the catalogue -/

theorem tablePosOfCode_slot (u : Slot) : tablePosOfCode (slotCode u) = some (.cap u) ∧ slotCode u ≠ 11 := by
  cases u <;> decide

theorem tablePosOfCode_none (c : Byte) (h : c = 0 ∨ 11 < c.toNat) : tablePosOfCode c = none := by
  rcases h with rfl | h
  · rfl
  · obtain ⟨m, hm⟩ := Nat.exists_eq_add_of_lt h
    unfold tablePosOfCode slotOfCode
    rw [hm, show 11 + m + 1 = m + 12 by omega]
    rfl

theorem eventBytes_laidOut (e : Event) :
    (eventBytes e).length = 13
      ∧ LaidOut (eventBytes e) [(0, halfBytes e.seq), (2, wordBytes e.time), (6, [eventKindCode e.kind]),
          (7, [match e.slot with | none => 0 | some u => slotCode u]),
          (8, match e.value with | none => [0x80, 0, 0, 0] | some v => int32 v), (12, [0])] := by
  have hslot : (match e.slot with | none => 0 | some u => slotCode u) = (e.slot.map slotCode).getD 0 := by cases e.slot <;> rfl
  have hvalue : (match e.value with | none => [0x80, 0, 0, 0] | some v => int32 v) = int32 (e.value.getD (-2147483648)) := by
    cases e.value <;> rfl
  rw [hslot, hvalue]
  refine ⟨rfl, .of_segments (segs := [halfBytes e.seq, wordBytes e.time, [eventKindCode e.kind], [(e.slot.map slotCode).getD 0],
    int32 (e.value.getD (-2147483648)), [0]]) rfl ?_⟩
  exact List.Sublist.refl _

theorem nameField_eq {n : List Byte} (h : n.length ≤ 12) : nameField n = n ++ List.replicate (12 - n.length) 0 := by
  unfold nameField
  rw [List.take_append, List.take_of_length_le h, List.take_replicate, Nat.min_eq_left (by omega)]

theorem listing_laidOut (p : Profile) (h : p.name.length ≤ 12) :
    p.listing.length = 16
      ∧ LaidOut p.listing [(0, p.name), (p.name.length, List.replicate (12 - p.name.length) 0), (12, nat16 p.entries.length),
          (14, [byte p.minutes]), (15, [if p.rep then 1 else 0])] := by
  have hsegs : p.listing = [p.name, List.replicate (12 - p.name.length) 0, nat16 p.entries.length, [byte p.minutes],
      [if p.rep then 1 else 0]].flatten := by
    simp [Profile.listing, nameField_eq h, flagByte]
  have hlen : p.name.length + (12 - p.name.length) = 12 := by omega
  refine ⟨?_, .of_segments hsegs ?_⟩
  · rw [hsegs]
    simp only [List.flatten_cons, List.flatten_nil, List.length_append, List.length_replicate, nat16_length, List.length_cons,
      List.length_nil]
    omega
  · simp only [placed, List.length_replicate, nat16_length, List.length_cons, List.length_nil, Nat.zero_add, hlen, Nat.reduceAdd]
    exact List.Sublist.refl _

theorem playbackBytes_laidOut (b : Playback) (h : ∀ n, b.profile = some n → n.length ≤ 12) :
    b.bytes.length = 26
      ∧ LaidOut b.bytes [(0, b.profile.getD []), ((b.profile.getD []).length, List.replicate (12 - (b.profile.getD []).length) 0),
          (12, [match b.state with | .idle => 0 | .armed => 1 | .aligned => 2 | .playing => 3 | .ended => 4]),
          (13, headBytes b.current), (15, wordBytes (b.last.getD 0xFFFFFFFF)), (19, wordBytes (b.next.getD 0xFFFFFFFF)),
          (23, [if b.planHanded then 1 else 0]), (24, [if b.rampHanded then 1 else 0]), (25, [if b.markerLost then 1 else 0])] := by
  have hname : (b.profile.getD []).length ≤ 12 := by
    cases hp : b.profile with
    | none => simp
    | some n => exact h n hp
  have hstate : (match b.state with | .idle => 0 | .armed => 1 | .aligned => 2 | .playing => 3 | .ended => 4) = playStateCode b.state := by
    cases b.state <;> rfl
  have hcur : (b.current.map nat16).getD [0xFF, 0xFF] = headBytes b.current := by cases b.current <;> rfl
  have hsegs : b.bytes = [b.profile.getD [], List.replicate (12 - (b.profile.getD []).length) 0, [playStateCode b.state],
      headBytes b.current, wordBytes (b.last.getD 0xFFFFFFFF), wordBytes (b.next.getD 0xFFFFFFFF), [if b.planHanded then 1 else 0],
      [if b.rampHanded then 1 else 0], [if b.markerLost then 1 else 0]].flatten := by
    rw [Playback.bytes, hcur]
    simp [nameField_eq hname, flagByte, optWord]
  have hlen : (b.profile.getD []).length + (12 - (b.profile.getD []).length) = 12 := by omega
  rw [hstate]
  refine ⟨?_, .of_segments hsegs ?_⟩
  · rw [hsegs]
    simp only [List.flatten_cons, List.flatten_nil, List.length_append, List.length_replicate, headBytes_length, wordBytes_length,
      List.length_cons, List.length_nil]
    omega
  · simp only [placed, List.length_replicate, headBytes_length, wordBytes_length, List.length_cons, List.length_nil, Nat.zero_add, hlen,
      Nat.reduceAdd]
    exact List.Sublist.refl _

theorem flagSet_lt (s : State) : s.flagSet < 8192 := by
  have hlt := bitsValue_lt s.flagList
  have hlen : s.flagList.length = 13 := rfl
  rw [hlen] at hlt
  exact hlt

/-- Settles O36. -/
theorem bodyLayouts : Obligations.BodyLayouts := by
  unfold Obligations.BodyLayouts
  intro s
  refine ⟨⟨statusBody_length s, (statusBody_laidOut s).1, s.flagSet, flagSet_lt s, (statusBody_laidOut s).2, fun i => ?_⟩,
    fun hrot u => unitBody_laidOut s u hrot, fun row => ⟨rfl, ?_, ?_, fun u => ?_, fun position h => ?_⟩, eventBytes_laidOut,
    fun k => ?_, listing_laidOut, playbackBytes_laidOut⟩
  · rw [State.flagSet, bitsValue_testBit, State.flagList, headUnknown_eq]
    rfl
  · cases hw : s.trs.waterways <;> simp [State.tableRow, tablePosOfCode, hw, rowBytes, optWord]
  · cases ht : s.pln.table <;> simp [State.tableRow, tablePosOfCode, ht, rowBytes]
  · obtain ⟨hpos, hne⟩ := tablePosOfCode_slot u
    rw [State.tableRow, if_neg hne, hpos]
    cases hc : s.head.caps.get u with
    | none => simp [hc]
    | some t => cases row <;> simp [hc, rowBytes]
  · have hne : position ≠ 11 := by
      rintro rfl
      simp at h
    rw [State.tableRow, if_neg hne, tablePosOfCode_none position h]
  · cases k <;> decide

end Sys2Proof.Proofs
end

section
/-! LOAD_BEGIN, LOAD_ROW and LOAD_ABORT (O38): the forms of the rows, and what the shadow buffer holds. -/

namespace Sys2Proof.Proofs
open Sys2Proof.Machine

/-! ## The forms of the rows -/

theorem headerRow_none (row : List Byte) : headerRow row = none ↔ row.length ≠ 13 := by
  constructor
  · intro h hl
    match row, hl with
    | [_, _, _, _, _, _, _, _, _, _, _, _, _], _ => cases h
  · intro h
    unfold headerRow
    split
    · exact absurd rfl h
    · rfl

theorem breakpointRow_none (row : List Byte) : breakpointRow row = none ↔ row.length ≠ 12 := by
  constructor
  · intro h hl
    match row, hl with
    | [_, _, _, _, _, _, _, _, _, _, _, _], _ => cases h
  · intro h
    unfold breakpointRow
    split
    · exact absurd rfl h
    · rfl

theorem planRow_none (row : List Byte) : planRow row = none ↔ row.length ≠ 7 := by
  constructor
  · intro h hl
    match row, hl with
    | [_, _, _, _, _, _, _], _ => cases h
  · intro h
    unfold planRow
    split
    · exact absurd rfl h
    · rfl

theorem waterwayRow_none (row : List Byte) : waterwayRow row = none ↔ row.length ≠ 11 := by
  constructor
  · intro h hl
    match row, hl with
    | [_, _, _, _, _, _, _, _, _, _, _], _ => cases h
  · intro h
    unfold waterwayRow
    split
    · exact absurd rfl h
    · rfl

theorem placesRow_none (row : List Byte) : placesRow row = none ↔ row.length ≠ 8 := by
  simp [placesRow]

/-- The number of bytes of a row of the position at an index (section 11.4). -/
def rowLength (p : TablePos) (i : Nat) : Nat :=
  match p with
  | .cap _ => if i = 0 then 13 else 12
  | .plan => 7
  | .waterway => if i = 4 then 8 else 11

theorem readRow_none (p : TablePos) (i : Nat) (row : List Byte) : p.readRow i row = none ↔ row.length ≠ rowLength p i := by
  cases p with
  | cap u =>
    by_cases h : i = 0
    · simp [TablePos.readRow, rowLength, h, headerRow_none]
    · simp [TablePos.readRow, rowLength, h, breakpointRow_none]
  | plan => exact planRow_none row
  | waterway =>
    by_cases h : i = 4
    · simp [TablePos.readRow, rowLength, h, placesRow_none]
    · simp [TablePos.readRow, rowLength, h, waterwayRow_none]

theorem adjusted_iff (n : Nat) : adjusted n = true ↔ n ≠ 0 ∧ longTimer n ≠ n := by
  simp [adjusted]

theorem storeCondense_eq (v : Int) : storeCondense v = max 0 (min 500 v) := clampInt_max_min 0 500 v (by decide)

theorem storeCondense_ne (v : Int) : (storeCondense v != v) = true ↔ v < 0 ∨ 500 < v := by
  rw [storeCondense_eq, bne_iff_ne]
  omega

/-! ## The requests -/

/-- The position takes so many rows (R23, R39, R86). -/
theorem takesRows_iff (p : TablePos) (n : Nat) : p.takesRows n = true ↔ match p with
    | .cap _ => 3 ≤ n ∧ n ≤ 7
    | .plan => 1 ≤ n ∧ n ≤ 24
    | .waterway => n = 5 := by
  cases p <;> simp [TablePos.takesRows]

theorem waterwayBarred_iff (s : State) (p : TablePos) : s.waterwayBarred p = true ↔ p = .waterway ∧ s.pli.part ≠ .standby := by
  simp [State.waterwayBarred, State.governs]

theorem loadBegin_opened {s : State} {pos : TablePos} {position rows : Byte} (tag : Byte) (hp : tablePosOfCode position = some pos)
    (hb : s.waterwayBarred pos = false) (hr : pos.takesRows rows.toNat = true) :
    exec (.loadBegin tag position rows) s = .next ((s.takePlantFrame.supersede.setLoad
      (some { pos := pos, count := rows.toNat, rows := [] })).manage tag kindLoadBegin .ok ((s.pli.load.map supersededDetail).getD 0)) := by
  have hb' : s.takePlantFrame.waterwayBarred pos = false := hb
  simp only [exec, execLoadBegin, hp, hb', hr, Bool.false_eq_true, if_false, Bool.true_eq_false]
  rfl

/-- Settles O38. -/
theorem loadsFillTheBuffer : Obligations.LoadsFillTheBuffer := by
  unfold Obligations.LoadsFillTheBuffer
  refine ⟨⟨fun p i row => ?_, fun u n c1 c0 g1 g0 p1 p0 r1 r0 d1 d0 t1 t0 => ?_, fun u i h1 h0 a1 a0 b1 b0 l1 l0 z1 z0 p1 p0 hi => ?_,
    fun i l1 l0 z1 z0 p c g => rfl, fun i n s1 s0 m k l1 l0 f h w c hi => ?_, fun row h => ?_⟩,
    fun tag s => ⟨fun position rows => ⟨fun hp => ?_, fun pos hp => ⟨fun hw hs => ?_, fun hw => ?_⟩⟩, fun hl index row => ?_,
      fun l index row hl => ⟨fun h => ?_, fun r changed hi hr hord => ?_⟩, fun hl => ?_, fun l hl => ?_⟩⟩
  · exact readRow_none p i row
  · refine ⟨_, congrArg some (Prod.ext ?_ rfl), ?_⟩
    · simp only [storeCondense_eq]
      rfl
    · simp only [Bool.or_eq_true, adjusted_iff, storeCondense_ne, or_assoc]
      rfl
  · simp only [TablePos.readRow, hi, if_false]
    rfl
  · refine ⟨_, by simp only [TablePos.readRow, hi, if_false]; rfl, adjusted_iff _⟩
  · simp only [TablePos.readRow, if_true, placesRow, h]
  · simp only [exec, execLoadBegin, hp]
    rfl
  · have hb : s.takePlantFrame.waterwayBarred pos = true := (waterwayBarred_iff s pos).mpr ⟨hw, hs⟩
    simp only [exec, execLoadBegin, hp, hb, if_true]
    rfl
  · have hb : s.waterwayBarred pos = false := by
      rw [← Bool.not_eq_true, waterwayBarred_iff]
      exact fun h => h.2 (hw h.1)
    refine ⟨fun hf => ?_, fun hf hl => ?_, fun hf l hl => ?_⟩
    · have hr : pos.takesRows rows.toNat = false := by
        rw [← Bool.not_eq_true, takesRows_iff]
        exact hf
      have hb' : s.takePlantFrame.waterwayBarred pos = false := hb
      simp only [exec, execLoadBegin, hp, hb', hr, Bool.false_eq_true, if_false, if_true]
      rfl
    · have hsup : s.takePlantFrame.supersede = s.takePlantFrame := by
        have hl' : s.takePlantFrame.pli.load = none := hl
        simp only [State.supersede, hl']
      rw [loadBegin_opened tag hp hb ((takesRows_iff pos _).mpr hf), hsup, hl]
      rfl
    · have hsup : s.takePlantFrame.supersede = s.takePlantFrame.post .loadSuperseded none (some (tablePosCode l.pos)) := by
        have hl' : s.takePlantFrame.pli.load = some l := hl
        simp only [State.supersede, hl']
      rw [loadBegin_opened tag hp hb ((takesRows_iff pos _).mpr hf), hsup, hl, Nat.mul_comm 256]
      rfl
  · have hl' : s.takePlantFrame.pli.load = none := hl
    simp only [exec, execLoadRow, hl']
    rfl
  · have hl' : s.takePlantFrame.pli.load = some l := hl
    by_cases hc : l.count ≤ index.toNat
    · simp only [exec, execLoadRow, hl', hc, if_true]
      rfl
    · simp only [exec, execLoadRow, hl', hc, if_false, h.resolve_left hc]
      rfl
  · have hl' : s.takePlantFrame.pli.load = some l := hl
    obtain ⟨hkept, hmem⟩ := storeRow_mem index.toNat r l.rows hord
    refine ⟨_, ?_, hkept, hmem⟩
    cases changed <;> simp only [exec, execLoadRow, hl', Nat.not_le.mpr hi, hr, Bool.false_eq_true, if_false, if_true] <;> rfl
  · have hl' : s.takePlantFrame.pli.load = none := hl
    simp only [exec, execLoadAbort, hl']
    rfl
  · have hl' : s.takePlantFrame.pli.load = some l := hl
    simp only [exec, execLoadAbort, hl']
    rfl

end Sys2Proof.Proofs
end

section
/-! LOAD_END (O39): its refusals, the passing of well-formed tables, and the three commits. -/

namespace Sys2Proof.Machine

/-! ## Row selection with no row selected -/

theorem planGap_pln (s : State) : s.planGap.pln = { s.pln with proposal := none, gap := true } := by
  unfold State.planGap
  split <;> rfl

/-- The lowest row that contains the planning target is adopted at once where none is selected; otherwise there is a gap (R46, R48). -/
theorem selectRow_afresh {s : State} {rows : List PlanRow} (ht : s.pln.table = some rows) (hs : s.pln.selected = none) :
    (State.selectRow false s).pln.selected = candidateRow rows s.tgt.plan ∧ (State.selectRow false s).pln.proposal = none
      ∧ (State.selectRow false s).pln.gap = (candidateRow rows s.tgt.plan).isNone := by
  obtain ⟨hnone, hsome⟩ := Proofs.selectRow_leaves ht false (fun k row hk => by rw [hs] at hk; cases hk)
  cases hc : candidateRow rows s.tgt.plan with
  | none =>
    rw [hnone hc, planGap_pln]
    exact ⟨hs, rfl, rfl⟩
  | some k =>
    obtain ⟨-, hsel, hprop, hgap, -⟩ := Proofs.adopt_effect s k
    rw [hsome k hc, hs]
    exact ⟨hsel, hprop, hgap⟩

/-- The state in which a table is committed: the request taken, the load closed. -/
def State.unloaded (s : State) : State := { s with pli := { s.pli with load := none, framer := none } }

/-! ## A settlement and the cascade -/

/-- A settlement of holds with all that follows, as `HeadFrame` sees it. -/
theorem headFrame_of_ros {a b t : State} (f : RosFrame a b) (g : CascadeFrame b t) : HeadFrame a t ∧ t.head = a.head := by
  refine ⟨?_, g.head.trans f.head⟩
  have hg := (HoldsFrame.of_cascade g).hf
  exact {
    pending := hg.pending.trans f.pending
    pli := hg.pli.trans f.pli
    tgt := hg.tgt.trans f.tgt
    prf := hg.prf.trans f.prf
    plantOut := hg.plantOut.trans f.plantOut
    table := hg.table.trans (by rw [f.pln])
    selected := hg.selected.trans (by rw [f.pln])
    proposal := hg.proposal.trans (by rw [f.pln])
    gap := hg.gap.trans (by rw [f.pln])
    rotation := hg.rotation.trans f.rotation
    ports := (SamePorts.of_eq f.ports).trans hg.ports
    waterways := (SameWaterways.of_eq (by rw [f.trs])).trans hg.waterways
    posted := f.posted.trans (State.clock_congr f.pli ▸ hg.posted) }

end Sys2Proof.Machine

namespace Sys2Proof.Proofs
open Sys2Proof.Machine

/-! ## The checks -/

/-- The rows of a load that holds all of them. -/
theorem load_whole {l : Load} {rs : List Row} (h : l.rows = rs.mapIdx Prod.mk) (hc : l.count = rs.length) :
    ∀ j, j < l.count → (l.row j).isSome = true := by
  intro j hj
  rw [load_row_of h, List.getElem?_eq_getElem (hc ▸ hj)]
  rfl

theorem passes_cap {l : Load} {h : CapHeader} {bs : List Breakpoint} (hr : l.rows = (Row.capHeader h :: bs.map .breakpoint).mapIdx Prod.mk)
    (hc : l.count = bs.length + 1) (hw : CapTable.Wf { header := h, points := bs }) : ∀ j, j < l.count → l.passes j = true := by
  intro j hj
  have hrow := load_row_of hr
  have hcount : h.count = bs.length := hw.count
  have hleast : 2 ≤ bs.length := hw.least
  have hmost : bs.length ≤ 6 := hw.most
  unfold Load.passes
  rcases j with - | - | k
  · simp only [hrow, List.getElem?_cons_zero, hcount, hc, hleast, hmost, and_self, decide_true, BEq.rfl, Bool.and_self]
  · have h0 : 0 < bs.length := by omega
    simp only [hrow, List.getElem?_cons_succ, List.getElem?_map, List.getElem?_eq_getElem h0, Option.map_some, BEq.rfl, Bool.true_or,
      Bool.and_true, Nat.zero_add]
    exact hw.sound _ (List.getElem_mem h0)
  · have h0 : k + 1 < bs.length := by omega
    have h1 : k < bs.length := by omega
    have hrise : bs[k].head < bs[k + 1].head := List.pairwise_iff_getElem.mp hw.rising k (k + 1) h1 h0 (by omega)
    have hsound : bs[k + 1].sound = true := hw.sound _ (List.getElem_mem h0)
    simp [hrow, List.getElem?_eq_getElem h0, List.getElem?_eq_getElem h1, Row.head?, hsound, hrise]

theorem passes_plan {l : Load} {rs : List PlanRow} (hr : l.rows = (rs.map Row.plan).mapIdx Prod.mk) (hc : l.count = rs.length)
    (hs : ∀ r ∈ rs, r.sound = true) : ∀ j, j < l.count → l.passes j = true := by
  intro j hj
  unfold Load.passes
  have hj' : j < rs.length := hc ▸ hj
  simp only [load_row_of hr, List.getElem?_map, List.getElem?_eq_getElem hj', Option.map_some]
  exact hs _ (List.getElem_mem hj')

theorem waterwayOfCode_isSome (n : Byte) (h : 1 ≤ n.toNat ∧ n.toNat ≤ 4) : (waterwayOfCode n).isSome = true := by
  obtain ⟨h1, h2⟩ := h
  unfold waterwayOfCode
  generalize n.toNat = k at h1 h2
  interval_cases k <;> rfl

theorem passes_waterway {l : Load} {a b c d : WaterwayRow} {ns : List Byte} (hc : l.count = 5)
    (hr : l.rows = [Row.waterway a, .waterway b, .waterway c, .waterway d, .places ns].mapIdx Prod.mk)
    (hs : ∀ r ∈ [a, b, c, d], r.sound = true) (hn : ∀ n ∈ ns, 1 ≤ n.toNat ∧ n.toNat ≤ 4) : ∀ j, j < l.count → l.passes j = true := by
  intro j hj
  rw [hc] at hj
  have hrow := load_row_of hr j
  unfold Load.passes
  interval_cases j <;> simp only [hrow, List.getElem?_cons_zero, List.getElem?_cons_succ]
  · exact hs a (by simp)
  · exact hs b (by simp)
  · exact hs c (by simp)
  · exact hs d (by simp)
  · exact List.all_eq_true.mpr fun n h => waterwayOfCode_isSome n (hn n h)

/-! ## The tables -/

theorem capTable_of {l : Load} {h : CapHeader} {bs : List Breakpoint} (hr : l.rows = (Row.capHeader h :: bs.map .breakpoint).mapIdx Prod.mk) :
    l.capTable = some { header := h, points := bs } := by
  have hpoints : (bs.map Row.breakpoint).filterMap Row.asBreakpoint = bs := by
    rw [List.filterMap_map]
    exact List.filterMap_some
  have hall : (Row.capHeader h :: bs.map .breakpoint).filterMap Row.asBreakpoint = bs := hpoints
  have hhead : (Row.capHeader h :: bs.map .breakpoint).findSome? Row.asHeader = some h := rfl
  rw [Load.capTable, load_inOrder_of hr, hhead, Option.map_some, hall]

theorem planRows_of {l : Load} {rs : List PlanRow} (hr : l.rows = (rs.map Row.plan).mapIdx Prod.mk) :
    l.inOrder.filterMap Row.asPlan = rs := by
  rw [load_inOrder_of hr, List.filterMap_map]
  exact List.filterMap_some

/-! ## The commits -/

/-- R26, R14. -/
theorem commitCap_effect (s : State) (u : Slot) (t : CapTable) :
    let b := ((s.unloaded.commitCap u (some t))).finish s.takePlantFrame { allocate := true }
    b.head = { s.head with caps := s.head.caps.set u (some t) }
      ∧ HeadFrame (s.unloaded.post .tableCommitted none (some (slotCode u).toNat)) b
      ∧ (∀ v, v ≠ u → (b.unitRec v).core = (s.unitRec v).core)
      ∧ (b.unitRec u).core = { (s.unitRec u).core with
          hold := (s.unitRec u).hold.map (fun x => { x with settled := x.settledAgainst (b.record u) }) } := by
  intro b
  obtain ⟨a, ha⟩ : ∃ a, a = (s.unloaded.setHead { s.head with caps := s.head.caps.set u (some t) }).post .tableCommitted none
    (some (slotCode u).toNat) := ⟨_, rfl⟩
  have hcommit : s.unloaded.commitCap u (some t) = a.settleHold u := by rw [ha]; rfl
  obtain ⟨hros, hunits⟩ := settleHold_effect a u
  have hcas := cascade_finish (a.settleHold u) s.takePlantFrame { allocate := true }
  rw [← hcommit] at hros hunits hcas
  obtain ⟨hframe, hhead⟩ := headFrame_of_ros hros hcas
  have hsame : ∀ v, a.unitRec v = s.unitRec v := fun v => by rw [ha]; rfl
  have hrecord : b.record u = a.record u := (hcas.play.record u).trans (hros.record u)
  refine ⟨hhead.trans (by rw [ha]; rfl), ?_, fun v hv => ?_, ?_⟩
  · rw [ha] at hframe
    exact headFrame_of_setHead (b := { s.head with caps := s.head.caps.set u (some t) }) hframe
  · rw [hcas.units.2 v, hunits v, if_neg hv, hsame]
  · rw [hcas.units.2 u, hunits u, if_pos rfl, hrecord, hsame]
    rfl

/-- R41. -/
theorem commitPlan_effect (s : State) (rs : List PlanRow) :
    let b := (s.unloaded.commitPlan rs).finish s.takePlantFrame {}
    SelectFrame (({ s.unloaded with pln := { s.pln with table := some rs } }).post .tableCommitted none (some 9)) b
      ∧ (s.pli.part = .standby → b.pln = { s.pln with table := some rs })
      ∧ (s.pli.part ≠ .standby → b.pln.selected = candidateRow rs s.tgt.plan ∧ b.pln.proposal = none) := by
  intro b
  obtain ⟨a, ha⟩ : ∃ a, a = ({ s.unloaded with pln := { s.pln with table := some rs } } : State).post .tableCommitted none (some 9) := ⟨_, rfl⟩
  have hgov : a.governs = s.governs := by rw [ha]; rfl
  have hcommit : s.unloaded.commitPlan rs
      = if s.governs then State.selectRow false (a.setPln { a.pln with selected := none, proposal := none }) else a := by
    rw [← hgov, ha]
    rfl
  have hcas := cascade_finish (s.unloaded.commitPlan rs) s.takePlantFrame {}
  change CascadeFrame _ b at hcas
  rw [← ha]
  cases hg : s.governs with
  | false =>
    rw [hg] at hcommit hgov
    have hc : s.unloaded.commitPlan rs = a := hcommit
    rw [hc] at hcas
    have hstand : s.pli.part = .standby := by simpa [State.governs] using hg
    have hfin : ∃ q, b = a.setTrs { a.trs with requests := q } := by
      have hdisp : ∀ v, s.takePlantFrame.dispatchable v = true → a.dispatchable v = true := fun v h => by
        rw [ha]
        exact h
      obtain ⟨q, hq⟩ := finish_standby (before := s.takePlantFrame) (c := {}) hgov rfl hdisp
      exact ⟨q, (congrArg (State.finish · s.takePlantFrame {}) hc).trans hq⟩
    obtain ⟨q, hq⟩ := hfin
    refine ⟨hcas.toSelectFrame, fun _ => ?_, fun h => absurd hstand h⟩
    rw [hq, ha]
    rfl
  | true =>
    rw [hg] at hcommit
    have hc : s.unloaded.commitPlan rs = State.selectRow false (a.setPln { a.pln with selected := none, proposal := none }) := hcommit
    rw [hc] at hcas
    have ht : (a.setPln { a.pln with selected := none, proposal := none }).pln.table = some rs := by rw [ha]; rfl
    obtain ⟨hsel, hprop, -⟩ := selectRow_afresh ht rfl
    have htgt : (a.setPln { a.pln with selected := none, proposal := none }).tgt.plan = s.tgt.plan := by rw [ha]; rfl
    refine ⟨((select_setPln a { a.pln with selected := none, proposal := none } rfl).trans (select_selectRow false _)).trans hcas.toSelectFrame,
      fun h => absurd h ((governs_iff s).mp hg), fun _ => ⟨?_, hcas.proposal.trans hprop⟩⟩
    rw [hcas.selected, hsel, htgt]

theorem recommit_free (old : Option WaterwayRec) (row : WaterwayRow) (h : ∀ r, old = some r → r.inProgress = 0) :
    (WaterwayRec.recommit old row).row = row ∧ (WaterwayRec.recommit old row).inProgress = 0
      ∧ (WaterwayRec.recommit old row).settle = none ∧ (WaterwayRec.recommit old row).generator = none := by
  refine ⟨rfl, ?_, rfl, rfl⟩
  cases old with
  | none => rfl
  | some r => exact h r rfl

/-- The table of a load of four waterway rows and a row of places (R86). -/
theorem waterways_of {l : Load} {a b c d : WaterwayRow} {ns : List Byte} (old : Option Waterways)
    (hr : l.rows = [Row.waterway a, .waterway b, .waterway c, .waterway d, .places ns].mapIdx Prod.mk) (hlen : ns.length = 8)
    (hn : ∀ n ∈ ns, 1 ≤ n.toNat ∧ n.toNat ≤ 4) :
    ∃ t, l.waterways old = some t
      ∧ (∀ (i : Nat) (w : Waterway) (row : WaterwayRow), Waterway.all[i]? = some w → [a, b, c, d][i]? = some row →
          t.recs.get w = .recommit (old.map (fun t => t.recs.get w)) row)
      ∧ ∀ (i : Nat) (u : Slot), Slot.all[i]? = some u → (ns[i]?).bind waterwayOfCode = some (t.place.get u) := by
  match ns, hlen with
  | [n1, n2, n3, n4, n5, n6, n7, n8], _ =>
    refine ⟨_, by rw [Load.waterways, load_inOrder_of hr]; rfl, fun i w row hw hrow => ?_, fun i u hu => ?_⟩
    · have hi : i < 4 := (List.getElem?_eq_some_iff.mp hrow).1
      interval_cases i <;>
      · obtain rfl := Option.some.inj hw
        obtain rfl := Option.some.inj hrow
        rfl
    · have hplace : ∀ n ∈ [n1, n2, n3, n4, n5, n6, n7, n8], waterwayOfCode n = some ((waterwayOfCode n).getD .w1) := fun n h => by
        obtain ⟨w, hw⟩ := Option.isSome_iff_exists.mp (waterwayOfCode_isSome n (hn n h))
        rw [hw]
        rfl
      have hi : i < 8 := (List.getElem?_eq_some_iff.mp hu).1
      interval_cases i <;>
      · obtain rfl := Option.some.inj hu
        exact hplace _ (by simp)

/-- R86: a waterway table in STANDBY. -/
theorem commitWaterway_effect {s : State} (hs : s.pli.part = .standby) (t : Waterways) :
    let b := (s.unloaded.commitWaterway (some t)).finish s.takePlantFrame {}
    CascadeFrame (({ s.unloaded with trs := b.trs }).post .tableCommitted none (some 10)) b
      ∧ (∀ w, b.waterwayRec w = some (t.recs.get w)) ∧ ∀ u, b.waterwayOf u = some (t.place.get u) := by
  intro b
  have hgov : (s.unloaded.commitWaterway (some t)).governs = false := by
    show s.governs = false
    simp [State.governs, hs]
  obtain ⟨q, hq⟩ := finish_standby (before := s.takePlantFrame) (c := {}) hgov rfl fun v h => h
  have hb : b = _ := hq
  rw [hb]
  exact ⟨.refl _, fun _ => rfl, fun _ => rfl⟩

/-- Settles O39. -/
theorem loadEndCommits : Obligations.LoadEndCommits := by
  unfold Obligations.LoadEndCommits
  intro tag s
  refine ⟨fun hl => ?_, fun l hl => ?_⟩
  · have hl' : s.takePlantFrame.pli.load = none := hl
    simp only [exec, execLoadEnd, hl']
    rfl
  intro dropped taken done
  have hl' : s.takePlantFrame.pli.load = some l := hl
  refine ⟨fun hp hs => ?_, fun hp => ⟨fun i hi hn hj => ?_, fun i hall hi hf hj => ?_, fun u h bs hpos hr hc hw => ?_,
    fun rs hpos hr hc hsound => ?_, fun a b c d ns hpos hc hr hsound hlen hn => ?_⟩⟩
  · have hb : s.takePlantFrame.waterwayBarred l.pos = true := (waterwayBarred_iff s l.pos).mpr ⟨hp, hs⟩
    simp only [exec, execLoadEnd, hl', hb, if_true]
    rfl
  all_goals
    have hbar : s.takePlantFrame.waterwayBarred l.pos = false := by
      rw [← Bool.not_eq_true]
      exact fun h => ((waterwayBarred_iff s l.pos).mp h).2 (hp ((waterwayBarred_iff s l.pos).mp h).1)
  · have hmiss : l.missing = some i := find_range _ _ i hi (by rw [hn]; rfl) fun j h => by simp [← Option.not_isSome, hj j h]
    simp only [exec, execLoadEnd, hl', hbar, hmiss, Bool.false_eq_true, if_false]
    rfl
  · have hmiss : l.missing = none := find_range_none _ _ fun j h => by simp [← Option.not_isSome, hall j h]
    have hfail : l.failing = some i := find_range _ _ i hi (by rw [hf]; rfl) fun j h => by simp [hj j h]
    simp only [exec, execLoadEnd, hl', hbar, hmiss, hfail, Bool.false_eq_true, if_false]
    rfl
  · have hexec := loadEnd_ok (tag := tag) hl hp (load_whole hr (by simp [hc])) (passes_cap hr hc hw) (by simp [hpos])
    rw [State.commit, hpos] at hexec
    simp only [capTable_of hr] at hexec
    exact ⟨_, hexec, commitCap_effect s u _⟩
  · have hexec := loadEnd_ok (tag := tag) hl hp (load_whole hr (by simp [hc])) (passes_plan hr hc hsound) (by simp [hpos])
    rw [State.commit, hpos] at hexec
    simp only [planRows_of hr] at hexec
    exact ⟨_, hexec, commitPlan_effect s rs⟩
  · have hwhole := load_whole hr (by simp [hc])
    have hpass := passes_waterway hc hr hsound hn
    refine ⟨fun hbusy => ?_, fun hfree => ?_⟩
    · obtain ⟨w, r, hwr, hne⟩ := hbusy
      have hb : s.takePlantFrame.waterwayBusy = true :=
        List.any_eq_true.mpr ⟨w, Waterway.mem_all w, by rw [show s.takePlantFrame.waterwayRec w = some r from hwr]; simpa using hne⟩
      have hmiss : l.missing = none := find_range_none _ _ fun j h => by simp [← Option.not_isSome, hwhole j h]
      have hfail : l.failing = none := find_range_none _ _ fun j h => by simp [hpass j h]
      have hcond : (l.pos == .waterway && s.takePlantFrame.waterwayBusy) = true := by simp [hpos, hb]
      simp only [exec, execLoadEnd, hl', hbar, hmiss, hfail, hcond, Bool.false_eq_true, if_false, if_true]
      rfl
    · have hb : s.waterwayBusy = false := by
        rw [State.waterwayBusy, List.any_eq_false]
        intro w _
        rw [Option.any_eq_true]
        rintro ⟨r, hwr, hne⟩
        exact absurd (hfree w r hwr) (by simpa using hne)
      obtain ⟨t, ht, hrecs, hplaces⟩ := waterways_of s.trs.waterways hr hlen hn
      obtain ⟨hframe, hways, hof⟩ := commitWaterway_effect (hp hpos) t
      have hexec := loadEnd_ok (tag := tag) hl hp hwhole hpass (by simp [hb])
      rw [State.commit, hpos] at hexec
      have ht' : l.waterways s.trs.waterways = some t := ht
      simp only [ht'] at hexec
      refine ⟨_, hexec, hframe, fun i w row hw hrow => ?_, fun i u hu => ?_⟩
      · refine ⟨_, hways w, ?_⟩
        rw [hrecs i w row hw hrow]
        exact recommit_free _ row fun r hr => hfree w r hr
      · exact (hof u).trans (hplaces i u hu).symm

end Sys2Proof.Proofs
end

section
/-! PROFILE_DEFINE and PROFILE_WRITE (O40). -/

namespace Sys2Proof.Proofs
open Sys2Proof.Machine

/-! ## The checks of PROFILE_DEFINE -/

section
variable {s : State} {field n : List Byte} {count interval : Nat}

theorem defineCheck_of_malformed (h : nameOfField field = none) : s.defineCheck field count interval = .error (.invalid, 1) := by
  simp only [State.defineCheck, h]

variable (h : nameOfField field = some n)
include h

theorem defineCheck_of_count (hc : ¬ (1 ≤ count ∧ count ≤ 4096)) : s.defineCheck field count interval = .error (.invalid, 2) := by
  have hbad : count < 1 ∨ poolSize < count := by unfold poolSize; omega
  simp only [State.defineCheck, h, if_pos hbad]

variable (hc : 1 ≤ count ∧ count ≤ 4096)
include hc

theorem defineCheck_of_interval (hi : ¬ (1 ≤ interval ∧ interval ≤ 60)) : s.defineCheck field count interval = .error (.invalid, 3) := by
  have hgood : ¬ (count < 1 ∨ poolSize < count) := by unfold poolSize; omega
  have hbad : interval < 1 ∨ 60 < interval := by omega
  simp only [State.defineCheck, h, if_neg hgood, if_pos hbad]

variable (hi : 1 ≤ interval ∧ interval ≤ 60)
include hi

theorem defineCheck_of_defined (hp : (s.profileNamed n).isSome = true) : s.defineCheck field count interval = .error (.exists_, 0) := by
  have hgood : ¬ (count < 1 ∨ poolSize < count) := by unfold poolSize; omega
  have htimed : ¬ (interval < 1 ∨ 60 < interval) := by omega
  simp only [State.defineCheck, h, if_neg hgood, if_neg htimed, if_pos hp]

variable (hp : s.profileNamed n = none)
include hp

/-- What the check says of a sound request for a new name: the room alone decides. -/
theorem defineCheck_of_new : s.defineCheck field count interval
    = if 16 ≤ s.prf.dir.length ∨ 4096 < s.entriesHeld + count then .error (.noSpace, 0) else .ok n := by
  have hgood : ¬ (count < 1 ∨ poolSize < count) := by unfold poolSize; omega
  have htimed : ¬ (interval < 1 ∨ 60 < interval) := by omega
  have hnew : ¬ (s.profileNamed n).isSome = true := by simp [hp]
  simp only [State.defineCheck, h, if_neg hgood, if_neg htimed, if_neg hnew]
  refine if_congr (or_congr Iff.rfl ?_) rfl rfl
  unfold State.freeTotal poolSize
  omega

end

/-! ## The requests -/

theorem profileDefine_refused {s : State} {name : List Byte} {count : Half} {interval : Byte} {c : Code} {d : Nat}
    (h : s.defineCheck name count.toNat interval.toNat = .error (c, d)) (tag rep : Byte) (fill : Option Half) :
    exec (.profileDefine tag name count interval rep fill) s = .next (s.replied tag 2 7 c d) := by
  have h' : s.takePlantFrame.defineCheck name count.toNat interval.toNat = .error (c, d) := h
  simp only [exec, execProfileDefine, h']
  rfl

theorem profileWrite_refused {s : State} {name : List Byte} {first : Half} {count : Byte} {values : List Half} {c : Code} {d : Nat}
    (hl : values.length = count.toNat) (h : s.rangeCheck name first.toNat count.toNat = .error (c, d)) (tag : Byte) :
    exec (.profileWrite tag name first count values) s = .next (s.replied tag 2 8 c d) := by
  have h' : s.takePlantFrame.rangeCheck name first.toNat count.toNat = .error (c, d) := h
  simp only [exec, execProfileWrite, hl, h', ne_eq, not_true_eq_false, if_false]
  rfl

/-- The free total with a profile more. -/
theorem freeTotal_append (s : State) (p : Profile) :
    (s.setDir (s.prf.dir ++ [p])).freeTotal = 4096 - s.entriesHeld - p.entries.length := by
  simp only [State.freeTotal, poolSize, State.entriesHeld, State.setDir, State.setPrf, List.map_append, List.map_cons, List.map_nil,
    List.sum_append, List.sum_cons, List.sum_nil, Nat.add_zero]
  omega

/-- The only profile of its name. -/
theorem profileNamed_unique {s : State} {n : List Byte} {p a : Profile} (hp : s.profileNamed n = some p)
    (hn : (s.prf.dir.map (·.name)).Nodup) (ha : a ∈ s.prf.dir) (h : a.name = n) : a = p := by
  have hmem := List.mem_of_find?_eq_some hp
  have hname : p.name = n := by simpa using List.find?_some hp
  exact List.inj_on_of_nodup_map hn ha hmem (h.trans hname.symm)

/-- Settles O40. -/
theorem profilesDefinedAndWritten : Obligations.ProfilesDefinedAndWritten := by
  unfold Obligations.ProfilesDefinedAndWritten
  refine ⟨fun tag name count interval rep fill s => ⟨fun h => profileDefine_refused (defineCheck_of_malformed h) .., fun n h => ?_⟩,
    fun tag name first count values s => ⟨fun hl => ?_, fun hl =>
      ⟨fun h => profileWrite_refused hl (rangeCheck_of_malformed h _ _) tag, fun n h => ⟨fun hc => ?_, fun h1 h16 => ⟨fun hp => ?_,
        fun p hp => ⟨fun hb => ?_, fun hw hn => ?_⟩⟩⟩⟩⟩⟩
  · refine ⟨fun hc => profileDefine_refused (defineCheck_of_count h hc) .., fun hc hi =>
      profileDefine_refused (defineCheck_of_interval h hc hi) .., fun hc hi hp => profileDefine_refused (defineCheck_of_defined h hc hi hp) ..,
      fun hc hi hp hfull => profileDefine_refused ((defineCheck_of_new h hc hi hp).trans (if_pos hfull)) .., fun hc hi hp hdir hroom => ?_⟩
    intro given p free shown
    have hcheck : s.takePlantFrame.defineCheck name count.toNat interval.toNat = .ok n :=
      (defineCheck_of_new h hc hi hp).trans (if_neg (by omega))
    have hfree : (s.takePlantFrame.setDir (s.takePlantFrame.prf.dir ++ [p])).freeTotal = 4096 - s.entriesHeld - count.toNat := by
      rw [freeTotal_append, List.length_replicate]
      rfl
    have hrep : flagByte (decide (rep ≠ 0)) = if rep = 0 then 0 else 1 := by
      by_cases hz : rep = 0 <;> simp [flagByte, hz]
    have hbody : defineBody p (clampPlant given) (4096 - s.entriesHeld - count.toNat) = shown ++ free := by
      simp only [defineBody, p, List.length_replicate, hrep, shown, free]
    simp only [exec, execProfileDefine, hcheck]
    by_cases hv : clampPlant given = given
    · rw [if_pos hv, if_pos hv, if_pos hv]
      exact congrArg Host.Outcome.next ((congrArg (fun f => (s.takePlantFrame.setDir (s.prf.dir ++ [p])).manage tag 7 .ok 0 (nat16 f)) hfree).trans rfl)
    · rw [if_neg hv, if_neg hv, if_neg hv, ← hbody]
      exact congrArg Host.Outcome.next
        ((congrArg (fun f => (s.takePlantFrame.setDir (s.prf.dir ++ [p])).manage tag 7 .clamped 0 (defineBody p (clampPlant given) f)) hfree).trans rfl)
  · simp only [exec, execProfileWrite, ne_eq, hl, not_false_eq_true, if_true]
    rfl
  · exact profileWrite_refused hl (rangeCheck_of_count h hc _) tag
  · exact profileWrite_refused hl (rangeCheck_of_undefined h h1 h16 hp _) tag
  · exact profileWrite_refused hl (rangeCheck_of_beyond h h1 h16 hp hb) tag
  · intro stored exact
    have hname : p.name = n := by simpa using List.find?_some hp
    have hcheck : s.takePlantFrame.rangeCheck name first.toNat count.toNat = .ok p := rangeCheck_of_within h h1 h16 hp hw
    refine ⟨s.prf.dir.map (fun q => if q.name = n then { q with entries := writeAt first.toNat stored p.entries } else q), ?_,
      List.length_map _, fun i a b ha hb => ?_⟩
    · have hstored : clampValues values = stored := rfl
      simp only [exec, execProfileWrite, hl, hcheck, ne_eq, not_true_eq_false, if_false, hname, hstored]
      by_cases hx : stored = values.map BitVec.toInt
      · have hex : exact = true := decide_eq_true hx
        rw [if_pos hx, hex]
        rfl
      · have hex : exact = false := decide_eq_false hx
        rw [if_neg hx, hex]
        rfl
    · rw [List.getElem?_map, ha] at hb
      obtain rfl := Option.some.inj hb
      have hlen : stored.length = count.toNat := by simp [stored, hl]
      refine ⟨?_, fun hne => if_neg hne, fun he j => ?_⟩
      · dsimp only
        split <;> rfl
      · obtain rfl := profileNamed_unique hp hn (List.mem_of_getElem? ha) he
        dsimp only
        rw [if_pos he, writeAt_get _ _ _ (by omega), hlen]

end Sys2Proof.Proofs
end

section
/-! PLAY, STOP_PLAY, the edges of the marker input and the boundaries made by the clock (O42, O43, O44). -/

namespace Sys2Proof.Machine

/-! ## PLAY -/

theorem frozen_iff (s : State) (v : Source) : s.frozen v = true ↔ s.inFallback = true ∧ s.tgt.source = v := by
  simp [State.frozen]

/-- A record that has just been taken names its profile. -/
theorem playing_taken {s : State} {n : List Byte} {p : Profile} (hp : s.profileNamed n = some p) (st : PlayState) :
    (s.setPlayback (.taken n st)).playing = some p := hp

/-- PLAY in FOLLOW mode waits: nothing follows. -/
theorem play_follow {s : State} (n : List Byte) (h : s.params.markerMode = .follow) :
    s.takePlantFrame.play n = { s.takePlantFrame with prf := { s.prf with playback := .taken n .armed, divider := 0 } }
      ∧ s.takePlantFrame.playMoves n = false := by
  have h' : s.takePlantFrame.params.markerMode = .follow := h
  unfold State.play State.playMoves
  rw [h']
  exact ⟨rfl, rfl⟩

/-- PLAY in LEAD mode begins the first entry (R129, R132, R133). -/
theorem play_lead {s : State} {n : List Byte} {p : Profile} (hp : s.profileNamed n = some p) (hm : p.minutes ≤ 60)
    (h : s.params.markerMode = .lead) :
    ∃ m, EntryBegins (s.setPlayback (.taken n .aligned)) m p 0
      ∧ s.play n = ({ m with prf := { m.prf with pulse := some s.params.markerOutWidth } }).post .profileStarted none
          (some p.entries.length) := by
  obtain ⟨m, hbegins, hm⟩ := (boundary_effect (playing_taken hp .aligned) hm).begins 0 rfl
  have hparams : m.params = s.params := hbegins.frame.params
  refine ⟨m, hbegins, ?_⟩
  have hplay : s.play n = (s.setPlayback (.taken n .aligned)).boundary.pulse := by
    unfold State.play
    rw [h]
  rw [hplay, hm, ← hparams]
  exact congrArg State.pulse (if_pos rfl)

end Sys2Proof.Machine

namespace Sys2Proof.Proofs
open Sys2Proof.Machine

theorem exec_play {s : State} {name n : List Byte} {p : Profile} (h : nameOfField name = some n) (hp : s.profileNamed n = some p)
    (hf : s.frozen .profile = false) (tag : Byte) :
    exec (.play tag name) s = .next (((s.takePlantFrame.play n).finish s { allocate := s.takePlantFrame.playMoves n }).manage tag 12 .ok) := by
  have hp' : s.takePlantFrame.profileNamed n = some p := hp
  have hf' : s.takePlantFrame.frozen .profile = false := hf
  simp only [exec, execPlay, h, hp', hf', Option.isNone_some, Bool.false_eq_true, if_false]
  rfl

theorem frozen_eq_false {s : State} {v : Source} (h : ¬ (s.inFallback = true ∧ s.tgt.source = v)) : s.frozen v = false := by
  rw [← Bool.not_eq_true, frozen_iff]
  exact h

/-- Settles O42. -/
theorem playAndStop : Obligations.PlayAndStop := by
  unfold Obligations.PlayAndStop
  refine ⟨fun tag name s => ⟨fun h => ?_, fun n h => ⟨fun hp => ?_, fun p hp => ⟨fun hf => ?_, fun hf => ⟨fun hmode => ?_,
    fun hmode hmin => ?_⟩⟩⟩⟩, fun tag s => ⟨fun hf => ?_, fun hf => ?_⟩⟩
  · simp only [exec, execPlay, h]
    rfl
  · have hp' : s.takePlantFrame.profileNamed n = none := hp
    simp only [exec, execPlay, h, hp', Option.isNone_none, if_true]
    rfl
  · have hp' : s.takePlantFrame.profileNamed n = some p := hp
    have hfrozen : s.takePlantFrame.frozen .profile = true := (frozen_iff s .profile).mpr hf
    simp only [exec, execPlay, h, hp', hfrozen, Option.isNone_some, Bool.false_eq_true, if_false, if_true]
    rfl
  · obtain ⟨hplay, hmoves⟩ := play_follow n hmode
    have hfin : (s.takePlantFrame.play n).finish s {} = s.takePlantFrame.play n := by
      rw [hplay]
      exact Unmoved.finish ⟨rfl, fun _ => rfl, fun _ => rfl, rfl, rfl, rfl, rfl, rfl⟩
    rw [exec_play h hp (frozen_eq_false hf), hmoves, hfin, hplay]
    rfl
  · obtain ⟨m, hbegins, hplay⟩ := play_lead (s := s.takePlantFrame) hp hmin hmode
    have hfin := cascade_finish (s.takePlantFrame.play n) s { allocate := s.takePlantFrame.playMoves n }
    have hpli : ((s.takePlantFrame.play n).finish s { allocate := s.takePlantFrame.playMoves n }).pli = s.takePlantFrame.pli := by
      rw [hfin.pli, hplay]
      exact hbegins.frame.pli
    have hexec := exec_play h hp (frozen_eq_false hf) tag
    rw [replied_of_manage hpli, hplay] at hexec
    rw [hplay] at hfin
    exact ⟨m, _, hexec, hbegins, hfin⟩
  · have hfrozen : s.takePlantFrame.frozen .profile = true := (frozen_iff s .profile).mpr hf
    simp only [exec, execStopPlay, hfrozen, if_true]
    rfl
  · have hfrozen : s.takePlantFrame.frozen .profile = false := frozen_eq_false hf
    simp only [exec, execStopPlay, hfrozen, Bool.false_eq_true, if_false]
    rfl

end Sys2Proof.Proofs

namespace Sys2Proof.Machine

/-! ## The marker input -/

/-- What touches playback and the event queue alone is not seen by the cascade. -/
theorem finish_playback {before s : State} {a : Bool} (ha : a = false) (hs : ∃ b e, s = (before.setPrf b).setSte e) : s.finish before { allocate := a } = s := by
  obtain ⟨b, e, rfl⟩ := hs
  rw [ha]
  exact Unmoved.finish ⟨rfl, fun _ => rfl, fun _ => rfl, rfl, rfl, rfl, rfl, rfl⟩

theorem edgeActive_iff (s : State) (rising : Bool) : s.edgeActive rising = true ↔ (rising = true ↔ s.params.markerPolarity = .pos) := by
  unfold State.edgeActive
  cases s.params.markerPolarity <;> simp

theorem clearDivider_of_zero {s : State} (h : s.prf.divider = 0) : s.clearDivider = s := by
  unfold State.clearDivider
  rw [← h]
  rfl

/-- The state of a counted marker: the divider rests and the output is pulsed (R134, R138). -/
def State.marked (s : State) : State := { s with prf := { s.prf with divider := 0, pulse := some s.params.markerOutWidth } }

/-- A boundary where no entry follows, or no profile plays, moves no ramped target. -/
theorem boundaryMoves_false {s : State} (h : ∀ p, s.playing = some p → s.prf.playback.nextEntry p = none) : s.boundaryMoves = false := by
  unfold State.boundaryMoves
  cases hp : s.playing with
  | none => rfl
  | some p => rw [Option.any_some, h p hp]; rfl

/-- A boundary of a profile that plays is framed as playback is. -/
theorem play_boundary {s : State} {p : Profile} (hp : s.playing = some p) (hm : p.minutes ≤ 60) : PlayFrame s s.boundary := by
  cases hk : s.prf.playback.nextEntry p with
  | some k =>
    obtain ⟨e, he, heq⟩ := (boundary_effect hp hm).begins k hk
    rw [heq]
    split
    · exact he.frame.trans (play_post ..)
    · exact he.frame
  | none =>
    unfold State.boundary
    simp only [hp, hk]
    split
    · exact (play_setPlayback s _).trans (play_post ..)
    · exact .refl s

/-- A counted marker at the end of holdover, where half the interval has passed: a boundary (R137). -/
theorem realign_boundary {s : State} {p : Profile} (hp : s.playing = some p) (hm : p.minutes ≤ 60) (hd : s.prf.divider = 0)
    (h : s.halfPassed p = true) :
    Bounded s s.boundary p ∧ s.realign p = ({ s.boundary with prf := { s.boundary.prf with
      playback := { s.boundary.prf.playback with markerLost := false } } } : State).post .markerRestored none (some 1) := by
  refine ⟨boundary_effect hp hm, ?_⟩
  have hdiv : s.boundary.prf.divider = 0 := (play_boundary hp hm).divider.trans hd
  unfold State.realign
  simp only [h, if_true]
  exact clearDivider_of_zero hdiv

/-- A counted marker at the end of holdover, before half the interval has passed: the expectation moves (R137). -/
theorem realign_moved {s : State} {p : Profile} (hd : s.prf.divider = 0) (h : s.halfPassed p = false) :
    s.realign p = ({ s with prf := { s.prf with
      playback := { s.prf.playback with next := some (later s.clock (60 * p.minutes)), markerLost := false } } } : State).post
      .markerRestored none (some 0) := by
  unfold State.realign
  simp only [h, Bool.false_eq_true, if_false]
  exact clearDivider_of_zero hd

end Sys2Proof.Machine

namespace Sys2Proof.Proofs
open Sys2Proof.Machine

/-- Settles O43. -/
theorem markerEdges : Obligations.MarkerEdges := by
  unfold Obligations.MarkerEdges
  refine ⟨fun b p k => ⟨fun h => ?_, fun h hk => ?_⟩, fun rising s => ?_⟩
  · simp only [Playback.nextEntry, h]
  · simp only [Playback.nextEntry, h, hk]
  intro active
  have hact : active ↔ s.params.markerMode = .follow ∧ s.edgeActive rising = true := and_congr Iff.rfl (edgeActive_iff s rising).symm
  refine ⟨fun h => ?_, fun h hd => ?_, fun h hd => ?_⟩
  · simp only [exec, execMarkerInputEdge]
    exact if_neg (fun k => h (hact.mpr k))
  all_goals
    have hexec : exec (.markerInputEdge rising) s = .next (s.activeEdge.finish s { allocate := s.edgeMoves }) := if_pos (hact.mp h)
  · have hedge : s.activeEdge = s.setPrf { s.prf with divider := s.prf.divider + 1 } := if_neg (Nat.not_le.mpr hd)
    have hmoves : s.edgeMoves = false := by simp [State.edgeMoves, Nat.not_le.mpr hd]
    rw [hexec, hedge]
    exact congrArg Host.Outcome.next (finish_playback hmoves ⟨{ s.prf with divider := s.prf.divider + 1 }, s.ste, rfl⟩)
  · intro b record
    have hedge : s.activeEdge = b.countedMarker := if_pos hd
    have hmoves : s.boundaryMoves = false ∨ (s.prf.playback.markerLost = true ∧ s.playing.any s.halfPassed = false) → s.edgeMoves = false := by
      rintro (h | ⟨h1, h2⟩)
      · simp [State.edgeMoves, h]
      · simp [State.edgeMoves, h1, h2]
    rw [hedge] at hexec
    refine ⟨fun hidle => ?_, fun p hp hmin => ?_⟩
    · have hrest : b.countedMarker = b := by
        have hplaying : b.playing = s.playing := rfl
        unfold State.countedMarker
        rw [hplaying]
        rcases hidle with h | h | h
        · rw [h]
        all_goals
          have hstate : b.prf.playback.state = _ := h
          cases s.playing with
          | none => rfl
          | some p => simp only [hstate]
      have hstill : s.boundaryMoves = false := boundaryMoves_false fun p hp => by
        rcases hidle with h | h | h
        · rw [h] at hp
          cases hp
        · simp only [Playback.nextEntry, show s.prf.playback.state = .idle from h]
        · simp only [Playback.nextEntry, show s.prf.playback.state = .ended from h]
      rw [hexec, hrest]
      exact congrArg Host.Outcome.next (finish_playback (hmoves (.inl hstill)) ⟨b.prf, s.ste, rfl⟩)
    · intro next
      have hp' : b.playing = some p := hp
      have hcas := cascade_finish b.countedMarker s { allocate := s.edgeMoves }
      refine ⟨fun harm => ?_, fun hclocked => ⟨fun hlost => ?_, fun hlost => ?_⟩⟩
      · have hmark : b.countedMarker = b.align p := by
          have hstate : b.prf.playback.state = .armed := harm
          simp only [State.countedMarker, hp', hstate]
        obtain ⟨hf, hplay, hother, htgt⟩ := align_effect hp' hmin
        rw [hmark] at hexec hcas
        exact ⟨_, hexec, hf.trans hcas.play, hcas.playback.trans hplay, fun h => hcas.tgt.trans (hother h), fun h => hcas.tgt.trans (htgt h)⟩
      all_goals
        have hcount : b.countedMarker = if b.prf.playback.markerLost then b.realign p else b.boundary := by
          unfold State.countedMarker
          rw [hp']
          rcases hclocked with h | h
          · simp only [show b.prf.playback.state = .aligned from h]
          · simp only [show b.prf.playback.state = .playing from h]
      · have hmark : b.countedMarker = b.boundary := hcount.trans (if_neg (by rw [show b.prf.playback.markerLost = false from hlost]; simp))
        rw [hmark] at hexec hcas
        exact ⟨_, _, hexec, boundary_effect hp' hmin, hcas⟩
      · have hmark : b.countedMarker = b.realign p := hcount.trans (if_pos hlost)
        intro passed
        refine ⟨fun hhalf => ?_, fun hhalf => ?_⟩
        · obtain ⟨hb, hr⟩ := realign_boundary hp' hmin rfl (decide_eq_true hhalf)
          rw [hmark, hr] at hexec hcas
          exact ⟨_, _, hexec, hb, hcas⟩
        · have hnot : s.halfPassed p = false := decide_eq_false (Nat.not_le.mpr hhalf)
          have hr := realign_moved (s := b) (p := p) rfl hnot
          rw [hexec, hmark, hr]
          exact congrArg Host.Outcome.next
            (finish_playback (hmoves (.inr ⟨hlost, by rw [hp, Option.any_some, hnot]⟩)) ⟨_, _, rfl⟩)

end Sys2Proof.Proofs

namespace Sys2Proof.Machine

/-! ## The clock's own boundaries -/

theorem pulse_boundary {s : State} {p : Profile} (hp : s.playing = some p) (hm : p.minutes ≤ 60) :
    s.boundary.pulse = { s.boundary with prf := { s.boundary.prf with pulse := some s.params.markerOutWidth } } := by
  rw [← (play_boundary hp hm).params]
  rfl

/-- Holdover by what stood (R136). -/
theorem holdover_eq {s : State} {p : Profile} (hp : s.playing = some p) (hm : p.minutes ≤ 60) :
    let m := s.boundary
    let b : State := { m with prf := { m.prf with pulse := some s.params.markerOutWidth } }
    s.holdover = if s.prf.playback.markerLost then b
      else if m.prf.playback.state = .ended then b.post .markerLost none (some 0)
      else ({ b with prf := { b.prf with playback := { m.prf.playback with markerLost := true } } } : State).post .markerLost none
        (some ((m.prf.playback.current.map Int.ofNat).getD 0)) := by
  intro m b
  unfold State.holdover
  rw [pulse_boundary hp hm]
  cases s.prf.playback.markerLost with
  | true => rfl
  | false =>
    simp only [Bool.not_false, if_true, Bool.false_eq_true, if_false]
    split
    · rename_i h
      exact (if_pos h).symm
    · rename_i h
      exact (if_neg h).symm

theorem clocked_iff (st : PlayState) : st.clocked = true ↔ st = .aligned ∨ st = .playing := by
  cases st <;> simp [PlayState.clocked]

theorem holdoverTime_due (s : State) (p : Profile) : timerDue s.clock (s.holdoverTime p) = true
    ↔ ∃ e, s.prf.playback.next = some e ∧ reached s.clock (if s.prf.playback.markerLost then e else later e (6 * p.minutes)) = true := by
  unfold State.holdoverTime
  cases s.prf.playback.next <;> simp [timerDue]

end Sys2Proof.Machine

namespace Sys2Proof.Proofs
open Sys2Proof.Machine

/-- Settles O44. -/
theorem clockedBoundaries : Obligations.ClockedBoundaries := by
  unfold Obligations.ClockedBoundaries
  refine ⟨fun s => ⟨fun h => if_neg h, fun h p hp hm => ?_⟩, fun s p hp => ?_,
    fun s p e k hp he hk => ⟨fun ⟨hh, hr⟩ => ?_, fun ⟨hh, hr⟩ => ?_⟩, fun s h => ?_, fun s h => ?_, fun s => rfl⟩
  · have hexec : exec .intervalTimerBoundary s = .next (s.boundary.pulse.finish s { allocate := s.boundaryMoves }) := if_pos h
    have hcas := cascade_finish s.boundary.pulse s { allocate := s.boundaryMoves }
    rw [pulse_boundary hp hm] at hexec hcas
    exact ⟨_, _, hexec, boundary_effect hp hm, hcas⟩
  · intro record due
    have hdue : due ↔ s.params.markerMode = .follow ∧ s.prf.playback.state.clocked = true
        ∧ timerDue s.clock (s.playing.bind s.holdoverTime) = true := by
      rw [hp, Option.bind_some, clocked_iff, holdoverTime_due]
    refine ⟨fun h => if_neg (fun k => h (hdue.mpr k)), fun h hm => ?_⟩
    have hexec : exec .holdoverBoundary s = .next (s.holdover.finish s { allocate := s.boundaryMoves }) := if_pos (hdue.mp h)
    have hcas := cascade_finish s.holdover s { allocate := s.boundaryMoves }
    rw [holdover_eq hp hm] at hexec hcas
    exact ⟨_, _, hexec, boundary_effect hp hm, hcas⟩
  · have hdue : s.duePlan = some (p.value k) := by
      have hr' : reached s.clock (switchingTime e s.params.planAdvance p.seconds) = true := hr
      simp [State.duePlan, hp, he, hh, hr', hk]
    have hmeet : s.meetPlan = s.handPlan (p.value k) := by simp only [State.meetPlan, hdue]
    obtain ⟨hf, hplay, htgt⟩ := handPlan_effect s (p.value k)
    have hcas := cascade_finish (s.handPlan (p.value k)) s {}
    have hexec : exec .planSwitchingTime s = .next (s.meetPlan.finish s) := rfl
    rw [hmeet] at hexec
    exact ⟨_, hexec, hf.trans hcas.play, hcas.playback.trans hplay, hcas.tgt.trans htgt⟩
  · have hdue : s.dueRamp = some (p.value k) := by
      have hr' : reached s.clock (switchingTime e s.params.rampAdvance p.seconds) = true := hr
      simp [State.dueRamp, hp, he, hh, hr', hk]
    have hmeet : s.meetRamp = s.handRamp (p.value k) := by simp only [State.meetRamp, hdue]
    obtain ⟨hf, hplay, htgt⟩ := handRamp_effect s (p.value k)
    have hcas := cascade_finish (s.handRamp (p.value k)) s {}
    have hexec : exec .rampSwitchingTime s = .next (s.meetRamp.finish s) := rfl
    rw [hmeet] at hexec
    refine ⟨_, hexec, hf.trans hcas.play, hcas.playback.trans hplay, (hcas.tgt.trans htgt).trans ?_⟩
    by_cases hs : s.tgt.source = .profile
    · simp only [hs, if_true, Tgt.withBase]
      rfl
    · rw [if_neg hs, if_neg hs]
  · have hmeet : s.meetPlan = s := by simp only [State.meetPlan, h]
    exact congrArg Host.Outcome.next ((congrArg (State.finish · s {}) hmeet).trans (Unmoved.refl s).finish)
  · have hmeet : s.meetRamp = s := by simp only [State.meetRamp, h]
    exact congrArg Host.Outcome.next ((congrArg (State.finish · s {}) hmeet).trans (Unmoved.refl s).finish)

end Sys2Proof.Proofs
end

section
/-! SOURCE_SET, PATTERN_SET and the steps of the pattern generator (O45, O46). -/

namespace Sys2Proof.Machine

/-- A request answered after the cascade of what it did. -/
theorem finish_managed {s a : State} {c : Causes} (h : a.pli = s.takePlantFrame.pli) (tag k : Byte) (code : Code) (d : Nat) (b : List Byte) :
    (a.finish s c).manage tag k code d b = (a.finish s c).replied tag 2 k code d b :=
  replied_of_manage (s := s) ((cascade_finish a s c).pli.trans h) tag k code d b

/-- R111: the targets after a change of source outside FALLBACK. -/
theorem changeSource_direct (s : State) : TargetFrame s (s.changeSource .direct)
    ∧ (s.changeSource .direct).tgt = { s.tgt with source := .direct, run := none, plan := s.tgt.reqBase } := by
  obtain ⟨hf, ht⟩ := target_setPlanTarget (s.setTgt { s.tgt with source := .direct, run := none }) s.tgt.reqBase
  exact ⟨(target_setTgt s _).trans hf, ht⟩

theorem changeSource_pattern {s : State} (h : s.inFallback = false) : TargetFrame s (s.changeSource .pattern)
    ∧ (s.changeSource .pattern).tgt = ({ s.tgt with
        source := .pattern
        increment := 0
        run := some { pos := 0, expiry := later s.clock s.tgt.pattern.period } } : Tgt).withBase s.tgt.pattern.low s.jumps := by
  obtain ⟨hf, ht⟩ := startPattern_tgt (s.setTgt { s.tgt with source := .pattern, run := none, increment := 0 }) h
  rw [pattern_level_zero] at ht
  exact ⟨(target_setTgt s _).trans hf, ht⟩

theorem storePattern_running {s : State} (p : Pattern) (h : s.inFallback = false) (hs : s.tgt.source = .pattern) :
    TargetFrame s (s.storePattern p)
      ∧ (s.storePattern p).tgt = ({ s.tgt with pattern := p, run := some { pos := 0, expiry := later s.clock p.period } } : Tgt).withBase
          p.low s.jumps := by
  have hstore : s.storePattern p = (s.setTgt { s.tgt with pattern := p }).startPattern := if_pos hs
  obtain ⟨hf, ht⟩ := startPattern_tgt (s.setTgt { s.tgt with pattern := p }) h
  rw [pattern_level_zero] at ht
  rw [hstore]
  exact ⟨(target_setTgt s _).trans hf, ht⟩

/-- The level of a position (R122). -/
theorem level_eq (p : Pattern) (pos : Nat) : p.level pos = if p.shape = .square then (if pos = 0 then p.low else p.high)
    else p.low + (([0, 1, 2, 3, 4, 3, 2, 1] : List Int).getD pos 0 * (p.high - p.low)).tdiv 4 := by
  rw [← stair_eq]
  unfold Pattern.level
  cases p.shape <;> rfl

theorem positions_eq (sh : Shape) : sh.positions = if sh = .square then 2 else 8 := by
  cases sh <;> rfl

/-- A step of the generator, by the part state (R122). -/
theorem stepPattern_effect (s : State) (r : PatternRun) :
    let pos := (r.pos + 1) % (if s.tgt.pattern.shape = .square then 2 else 8)
    let stepped : Tgt := { s.tgt with run := some { pos := pos, expiry := later s.clock s.tgt.pattern.period } }
    (s.inFallback = true → s.stepPattern r = s.setTgt stepped)
      ∧ (s.inFallback = false → TargetFrame s (s.stepPattern r)
          ∧ (s.stepPattern r).tgt = stepped.withBase (s.tgt.pattern.level pos) s.jumps) := by
  intro pos stepped
  have hstep : s.stepPattern r = (s.setTgt stepped).handLevel (s.tgt.pattern.level pos) := by
    simp only [State.stepPattern, positions_eq]
    rfl
  have hpart : (s.setTgt stepped).inFallback = s.inFallback := rfl
  refine ⟨fun h => ?_, fun h => ?_⟩
  · rw [hstep, State.handLevel, hpart, if_pos h]
  · have hhand : s.stepPattern r = (s.setTgt stepped).setReqBase (s.tgt.pattern.level pos) := by
      rw [hstep, State.handLevel, hpart, if_neg (by simp [h])]
    obtain ⟨hf, ht⟩ := target_setReqBase (s.setTgt stepped) (s.tgt.pattern.level pos)
    rw [hhand]
    exact ⟨(target_setTgt s _).trans hf, ht.trans (baseTgt_withBase _ _)⟩

theorem shapeCode_of {code : Byte} {sh : Shape} (h : shapeOfCode code = some sh) : shapeCode sh = code := by
  have hcode : ∀ n : Nat, code.toNat = n → n < 256 → code = BitVec.ofNat 8 n := fun n hn hlt => by
    rw [← hn, BitVec.ofNat_toNat, BitVec.setWidth_eq]
  unfold shapeOfCode at h
  split at h
  · rename_i hn
    cases h
    exact (hcode 0 hn (by decide)).symm
  · rename_i hn
    cases h
    exact (hcode 1 hn (by decide)).symm
  · cases h

end Sys2Proof.Machine

namespace Sys2Proof.Proofs
open Sys2Proof.Machine

/-- Settles O45. -/
theorem sourceChanges : Obligations.SourceChanges := by
  unfold Obligations.SourceChanges
  intro tag code s
  refine ⟨fun h => ?_, fun v h => ⟨fun hf => ?_, fun hf hv => ?_, fun hf hv => ?_⟩⟩
  · simp only [exec, execSourceSet, h]
    rfl
  · have hf' : s.takePlantFrame.inFallback = true := hf
    simp only [exec, execSourceSet, h, hf', if_true]
    rfl
  · have hf' : s.takePlantFrame.inFallback = false := hf
    have hv' : v = s.takePlantFrame.tgt.source := hv
    simp only [exec, execSourceSet, h, hf', ← hv', Bool.false_eq_true, if_false, if_true]
    rfl
  · have hexec : exec (.sourceSet tag code) s = .next (((s.takePlantFrame.changeSource v).finish s).manage tag 14 .ok) := by
      have hf' : s.takePlantFrame.inFallback = false := hf
      have hv' : ¬ v = s.takePlantFrame.tgt.source := hv
      simp only [exec, execSourceSet, h, hf', hv', Bool.false_eq_true, if_false]
      rfl
    refine ⟨fun hp => ?_, fun hd => ?_, fun hp => ?_⟩ <;> subst v
    · rw [hexec, (show Unmoved s (s.takePlantFrame.changeSource .profile) from ⟨rfl, fun _ => rfl, fun _ => rfl, rfl, rfl, rfl, rfl, rfl⟩).finish]
      rfl
    · obtain ⟨hframe, htgt⟩ := changeSource_direct s.takePlantFrame
      have hcas := cascade_finish (s.takePlantFrame.changeSource .direct) s {}
      exact ⟨_, hexec.trans (congrArg Host.Outcome.next (finish_managed hframe.pli ..)), hframe.trans hcas.toTargetFrame, hcas.tgt.trans htgt⟩
    · obtain ⟨hframe, htgt⟩ := changeSource_pattern (s := s.takePlantFrame) hf
      have hcas := cascade_finish (s.takePlantFrame.changeSource .pattern) s {}
      exact ⟨_, hexec.trans (congrArg Host.Outcome.next (finish_managed hframe.pli ..)), hframe.trans hcas.toTargetFrame, hcas.tgt.trans htgt⟩

/-- Settles O46. -/
theorem patternRuns : Obligations.PatternRuns := by
  unfold Obligations.PatternRuns
  refine ⟨fun tag low high period code s => ⟨fun h => ?_, fun shape h => ⟨fun hf => ?_, fun hf => ?_⟩⟩,
    fun s => ⟨fun h => ?_, fun r h => ⟨fun hr => ?_, fun hr => ?_⟩⟩⟩
  · simp only [exec, execPatternSet, h]
    rfl
  · have hf' : s.takePlantFrame.frozen .pattern = true := (frozen_iff s .pattern).mpr hf
    simp only [exec, execPatternSet, h, hf', if_true]
    rfl
  · intro p code' body
    have hf' : s.takePlantFrame.frozen .pattern = false := frozen_eq_false hf
    have hcode : (if decide (p.low = low.toInt ∧ p.high = high.toInt ∧ p.period = period.toNat) then Code.ok else .clamped) = code' := by
      simp only [decide_eq_true_eq]
      rfl
    have hbody : p.bytes = body := by
      show int16 p.low ++ int16 p.high ++ nat16 p.period ++ [shapeCode shape] = body
      rw [shapeCode_of h]
    have hexec : exec (.patternSet tag low high period code) s
        = .next (((s.takePlantFrame.storePattern p).finish s).manage tag 15 code' 0 body) := by
      rw [← hcode, ← hbody]
      simp only [exec, execPatternSet, h, hf', Bool.false_eq_true, if_false]
      rfl
    refine ⟨fun hs => ?_, fun hs => ?_⟩
    · have hstore : s.takePlantFrame.storePattern p = s.takePlantFrame.setTgt { s.tgt with pattern := p } := if_neg hs
      rw [hexec, hstore, (show Unmoved s (s.takePlantFrame.setTgt { s.tgt with pattern := p }) from
        ⟨rfl, fun _ => rfl, fun _ => rfl, rfl, rfl, rfl, rfl, rfl⟩).finish]
      rfl
    · have hpart : s.takePlantFrame.inFallback = false := by
        rw [← Bool.not_eq_true]
        exact fun k => hf ⟨k, hs⟩
      obtain ⟨hframe, htgt⟩ := storePattern_running p hpart hs
      have hcas := cascade_finish (s.takePlantFrame.storePattern p) s {}
      exact ⟨_, hexec.trans (congrArg Host.Outcome.next (finish_managed hframe.pli ..)), hframe.trans hcas.toTargetFrame, hcas.tgt.trans htgt⟩
  · simp only [exec, execPatternPeriodExpiry, h]
  · simp only [exec, execPatternPeriodExpiry, h, hr, Bool.false_eq_true, if_false]
  · intro p pos level stepped
    have hexec : exec .patternPeriodExpiry s = .next ((s.stepPattern r).finish s) := by
      simp only [exec, execPatternPeriodExpiry, h, hr, if_true]
    obtain ⟨hfall, hgoes⟩ := stepPattern_effect s r
    refine ⟨fun hf => ?_, fun hf => ?_⟩
    · rw [hexec, hfall hf]
      exact congrArg Host.Outcome.next (Unmoved.finish ⟨rfl, fun _ => rfl, fun _ => rfl, rfl, rfl, rfl, rfl, rfl⟩)
    · obtain ⟨hframe, htgt⟩ := hgoes hf
      have hcas := cascade_finish (s.stepPattern r) s {}
      rw [level_eq] at htgt
      exact ⟨_, hexec, hframe.trans hcas.toTargetFrame, hcas.tgt.trans htgt⟩

end Sys2Proof.Proofs
end

section
/-! The starts and the advance of the part clock (O27, O28). -/

namespace Sys2Proof.Proofs
open Sys2Proof.Machine

/-- What is sent up the plant link is no part of what a start leaves. -/
theorem restartedFrom_sent {s t : State} {v : Int} (h : RestartedFrom s t v) (m : PlantFrame) :
    RestartedFrom s (t.sendUp m) v := by
  cases h
  constructor <;> assumption

/-- Settles O27. -/
theorem startsAfresh : Obligations.StartsAfresh := by
  unfold Obligations.StartsAfresh
  refine ⟨fun s => rfl, fun tag s => ?_, fun s => ?_⟩
  · obtain ⟨hfrom, hframer, hout⟩ := restartedFrom_restarted s.takePlantFrame 0
    refine ⟨_, rfl, restartedFrom_sent (RestartedFrom.of_framer hfrom) _, hframer, ?_⟩
    exact congrArg (· ++ [_]) hout
  · obtain ⟨hfrom, hframer, hout⟩ := restartedFrom_restarted s 1
    exact ⟨_, rfl, hfrom, hframer, hout⟩

/-- A ramp step is the requested base target, brought within `rate` of where the ramp stands. -/
theorem rampStep_eq (rate : Nat) (ramped input : Int) :
    rampStep rate ramped input = max (ramped - rate) (min (ramped + rate) input) := by
  unfold rampStep
  split
  · omega
  · split <;> omega

/-- The ramp of an advance (R115): with ramp_rate 0 the target has jumped already, and stays. -/
theorem ramp_eq (s : State) : s.ramp = { s with tgt := { s.tgt with
    ramped := if s.pli.part = .standby then s.tgt.ramped
      else max (s.tgt.ramped - s.params.rampRate) (min (s.tgt.ramped + s.params.rampRate) s.tgt.reqBase) } } := by
  unfold State.ramp
  by_cases hs : s.pli.part = .standby
  · rw [if_neg (by simp [State.governs, hs]), if_pos hs]
  · by_cases hr : s.params.rampRate = 0
    · rw [if_neg (by simp [hr]), if_neg hs, hr]
      have hkeep : max (s.tgt.ramped - (0 : Nat)) (min (s.tgt.ramped + (0 : Nat)) s.tgt.reqBase) = s.tgt.ramped := by omega
      rw [hkeep]
    · rw [if_pos (by simp [State.governs, hs, hr]), if_neg hs, rampStep_eq]
      rfl

/-- Settles O28. -/
theorem clockAdvances : Obligations.ClockAdvances := by
  unfold Obligations.ClockAdvances
  intro s
  have hcas := cascade_finish (s.setPli { s.pli with clock := s.clock + 1 }).ramp s {}
  rw [ramp_eq] at hcas
  refine ⟨_, ?_, statusBody_length _, hcas⟩
  rw [← ramp_eq]
  rfl

end Sys2Proof.Proofs
end

section
/-! The waterway records, the converters and the orphan records under the scheduler's operations (R78 to R80, R88, R89). -/

namespace Sys2Proof.Machine

/-! ## The change of one slot's waterway, and its leaving the warned steps -/

section
variable (s : State) (u : Slot) (f : WaterwayRec → WaterwayRec)

theorem State.updateWaterwayOf_waterwayRec (w : Waterway) : (s.updateWaterwayOf u f).waterwayRec w
    = if s.waterwayOf u = some w then (s.waterwayRec w).map f else s.waterwayRec w := by
  unfold State.updateWaterwayOf
  cases hof : s.waterwayOf u with
  | none => simp
  | some v =>
    dsimp only
    cases hrec : s.waterwayRec v with
    | none =>
      by_cases hv : v = w
      · subst hv
        simp [hrec]
      · simp [hv]
    | some r =>
      by_cases hv : v = w
      · subst hv
        simp [hrec]
      · simp [hv, Ne.symm hv]

@[simp] theorem State.updateWaterwayOf_waterwayOf (v : Slot) : (s.updateWaterwayOf u f).waterwayOf v = s.waterwayOf v := by
  unfold State.updateWaterwayOf
  split
  · rfl
  · split
    · rfl
    · simp

@[simp] theorem State.updateWaterwayOf_holder (c : Conv) : (s.updateWaterwayOf u f).holder c = s.holder c := by
  unfold State.updateWaterwayOf
  split
  · rfl
  · split
    · rfl
    · simp

@[simp] theorem State.updateWaterwayOf_orphan (v : Slot) : (s.updateWaterwayOf u f).orphan v = s.orphan v := by
  unfold State.updateWaterwayOf
  split
  · rfl
  · split
    · rfl
    · simp

theorem State.unwarn_waterwayRec (w : Waterway) : (s.unwarn u).waterwayRec w = (s.waterwayRec w).map (·.unwarn u) := by
  unfold State.unwarn
  cases h : s.trs.waterways with
  | none => simp [State.waterwayRec, h]
  | some t => simp [State.waterwayRec, h]

@[simp] theorem State.unwarn_waterwayOf (v : Slot) : (s.unwarn u).waterwayOf v = s.waterwayOf v := by
  unfold State.unwarn
  cases h : s.trs.waterways with
  | none => rfl
  | some t => simp [State.waterwayOf, h]

@[simp] theorem State.unwarn_holder (c : Conv) : (s.unwarn u).holder c = s.holder c := by
  obtain ⟨-, -, h1, h2⟩ := unwarn_trs s u
  cases c
  · exact h1
  · exact h2

@[simp] theorem State.unwarn_orphan (v : Slot) : (s.unwarn u).orphan v = s.orphan v := by
  show (s.unwarn u).trs.orphans.get v = _
  rw [(unwarn_trs s u).2.1]
  rfl

end

/-! ## The release of what a request holds -/

/-- A converter named is no longer held (R78, R80). -/
def State.dropConverter (s : State) : Option Conv → State
  | some c => s.setHolder c none
  | none => s

theorem State.dropConverter_only (s : State) (c : Option Conv) :
    s.dropConverter c = s.setTrs { s.trs with c1 := (s.dropConverter c).trs.c1, c2 := (s.dropConverter c).trs.c2 } := by
  rcases c with _ | _ | _ <;> rfl

theorem State.dropConverter_holder (s : State) (c : Option Conv) (d : Conv) :
    (s.dropConverter c).holder d = if c = some d then none else s.holder d := by
  rcases c with _ | _ | _ <;> cases d <;> rfl

/-- A waterway slot held is given up (R78, R80). -/
def State.dropPlace (s : State) (u : Slot) (held settle : Bool) : State :=
  if held then s.updateWaterwayOf u (·.release s.clock settle) else s

theorem State.dropPlace_holder (s : State) (u : Slot) (held settle : Bool) (c : Conv) :
    (s.dropPlace u held settle).holder c = s.holder c := by
  unfold State.dropPlace
  split
  · exact State.updateWaterwayOf_holder ..
  · rfl

theorem State.dropPlace_orphan (s : State) (u v : Slot) (held settle : Bool) :
    (s.dropPlace u held settle).orphan v = s.orphan v := by
  unfold State.dropPlace
  split
  · exact State.updateWaterwayOf_orphan ..
  · rfl

theorem State.dropPlace_waterwayRec (s : State) (u : Slot) (held settle : Bool) (w : Waterway) :
    (s.dropPlace u held settle).waterwayRec w
      = if held = true ∧ s.waterwayOf u = some w then (s.waterwayRec w).map (·.release s.clock settle) else s.waterwayRec w := by
  unfold State.dropPlace
  cases held with
  | true => simp [State.updateWaterwayOf_waterwayRec]
  | false => simp

section
variable {s : State} {u : Slot} {r : Request} (hr : s.req u = some r) (settle : Bool)
include hr

theorem releaseHeld_eq : s.releaseHeld u settle
    = (((s.dropConverter r.conv).dropPlace u r.slotHeld settle).unwarn u).setReq u (some { r with conv := none, slotHeld := false }) := by
  unfold State.releaseHeld
  rw [hr]
  rfl

theorem releaseHeld_holder (c : Conv) : (s.releaseHeld u settle).holder c = if r.conv = some c then none else s.holder c := by
  rw [releaseHeld_eq hr, State.setReq_holder, State.unwarn_holder, State.dropPlace_holder, State.dropConverter_holder]

theorem releaseHeld_waterwayRec (w : Waterway) : (s.releaseHeld u settle).waterwayRec w
    = (s.waterwayRec w).map (fun q =>
        (if r.slotHeld = true ∧ s.waterwayOf u = some w then q.release s.clock settle else q).unwarn u) := by
  rw [releaseHeld_eq hr]
  show ((((s.dropConverter r.conv).dropPlace u r.slotHeld settle).unwarn u)).waterwayRec w = _
  rw [State.unwarn_waterwayRec, State.dropPlace_waterwayRec, State.dropConverter_only]
  show Option.map _ (if r.slotHeld = true ∧ s.waterwayOf u = some w then (s.waterwayRec w).map (·.release s.clock settle)
    else s.waterwayRec w) = _
  split <;> simp [Function.comp_def]

end

/-! ## The operations that touch requests and orders alone -/

/-- The two hold the same orphan records, converters and waterway records. -/
structure SameResources (s t : State) : Prop where
  orphans : t.trs.orphans = s.trs.orphans
  c1 : t.trs.c1 = s.trs.c1
  c2 : t.trs.c2 = s.trs.c2
  waterways : t.trs.waterways = s.trs.waterways

section
variable {s t r : State}

theorem SameResources.of_trs (h : t.trs = s.trs) : SameResources s t := by
  constructor <;> rw [h]

theorem SameResources.refl : SameResources s s := .of_trs rfl

theorem SameResources.trans (h : SameResources s t) (k : SameResources t r) : SameResources s r :=
  ⟨k.orphans.trans h.orphans, k.c1.trans h.c1, k.c2.trans h.c2, k.waterways.trans h.waterways⟩

theorem SameResources.orphan (h : SameResources s t) (u : Slot) : t.orphan u = s.orphan u :=
  congrArg (·.get u) h.orphans

theorem SameResources.holder (h : SameResources s t) (c : Conv) : t.holder c = s.holder c := by
  cases c
  · exact h.c1
  · exact h.c2

theorem SameResources.waterwayRec (h : SameResources s t) (w : Waterway) : t.waterwayRec w = s.waterwayRec w :=
  congrArg (fun ws => ws.map (fun x => x.recs.get w)) h.waterways

end

section
variable (s : State) (u : Slot)

theorem resources_setReq (r : Option Request) : SameResources s (s.setReq u r) := ⟨rfl, rfl, rfl, rfl⟩

theorem resources_post (k : EventKind) (v : Option Slot) (n : Option Int) : SameResources s (s.post k v n) := .of_trs rfl

theorem resources_ceaseOrder (q : Purpose) : SameResources s (s.ceaseOrder u q) := .of_trs (ceaseOrder_trs s u q)

theorem resources_sendOrder (p : Port) (k : StepKind) (c : Option Conv) (q : Purpose) : SameResources s (s.sendOrder p k c q) :=
  .of_trs (sendOrder_trs s p k c q)

theorem resources_endRequest : SameResources s (s.endRequest u) :=
  (resources_setReq s u none).trans (resources_ceaseOrder _ u .supervised)

theorem resources_withdraw : SameResources (s.releaseHeld u false) (s.withdraw u) := by
  unfold State.withdraw
  dsimp only
  split
  · exact .refl
  · exact resources_setReq ..

theorem resources_waitOn (r : Request) (c : ReqClass) (d : Stable) (path : List PathStep) :
    SameResources s (s.waitOn u r c d path) := by
  unfold State.waitOn
  split
  · exact resources_endRequest s u
  · exact resources_setReq ..

theorem resources_failRequest (settle : Bool) : SameResources (s.releaseHeld u settle) (s.failRequest u settle) :=
  resources_endRequest _ u

theorem resources_compareDemand : SameResources s (s.compareDemand u) := by
  unfold State.compareDemand
  split
  · split
    · exact ⟨rfl, rfl, rfl, rfl⟩
    · exact .refl
  · exact .refl

end

/-! ## Stray resources -/

section
variable (s : State) (u : Slot)

theorem releaseOrphan_none (h : s.orphan u = none) : s.releaseOrphan u = s := by
  unfold State.releaseOrphan
  rw [h]

theorem releaseOrphan_eq {o : Orphan} (h : s.orphan u = some o) :
    s.releaseOrphan u = ((s.dropConverter o.conv).dropPlace u o.slotHeld true).setOrphan u none := by
  unfold State.releaseOrphan
  rw [h]
  rfl

theorem releaseOrphan_orphan (v : Slot) : (s.releaseOrphan u).orphan v = if v = u then none else s.orphan v := by
  cases h : s.orphan u with
  | none =>
    rw [releaseOrphan_none s u h]
    split
    · rename_i hv
      rw [hv, h]
    · rfl
  | some o =>
    rw [releaseOrphan_eq s u h, State.setOrphan_orphan, State.dropPlace_orphan, State.dropConverter_only]
    rfl

theorem releaseOrphan_holder (c : Conv) :
    (s.releaseOrphan u).holder c = if (s.orphan u).bind (·.conv) = some c then none else s.holder c := by
  cases h : s.orphan u with
  | none => simp [releaseOrphan_none s u h]
  | some o =>
    rw [releaseOrphan_eq s u h, State.setOrphan_holder, State.dropPlace_holder, State.dropConverter_holder]
    rfl

theorem releaseOrphan_waterwayRec (w : Waterway) : (s.releaseOrphan u).waterwayRec w
    = if (s.orphan u).any (·.slotHeld) = true ∧ s.waterwayOf u = some w then (s.waterwayRec w).map (·.release s.clock true)
      else s.waterwayRec w := by
  cases h : s.orphan u with
  | none => simp [releaseOrphan_none s u h]
  | some o =>
    rw [releaseOrphan_eq s u h]
    show ((s.dropConverter o.conv).dropPlace u o.slotHeld true).waterwayRec w = _
    rw [State.dropPlace_waterwayRec, State.dropConverter_only]
    rfl

theorem releaseObserved_eq : s.releaseObserved u
    = s.setTrs { s.trs with
        c1 := if s.observes u .c1 then none else s.trs.c1
        c2 := if s.observes u .c2 then none else s.trs.c2 } := by
  unfold State.releaseObserved
  cases h1 : s.observes u .c1 with
  | true =>
    have h2 : (s.setHolder .c1 none).observes u .c2 = s.observes u .c2 := rfl
    simp only [if_true, h2]
    split <;> rfl
  | false =>
    simp only [Bool.false_eq_true, if_false]
    split <;> rfl

theorem releaseObserved_holder (c : Conv) : (s.releaseObserved u).holder c = if s.observes u c then none else s.holder c := by
  rw [releaseObserved_eq]
  cases c <;> rfl

end

end Sys2Proof.Machine
end

section
/-! DISABLE and RESUME, the rotation order, marks and stray resources (O48, O50, O51). -/

namespace Sys2Proof.Proofs
open Sys2Proof.Machine

/-- A reply from a state whose framer already hunts again. -/
theorem manage_eq_replied {t : State} (h : t.pli.framer = none) (tag k : Byte) (c : Code) (d : Nat) (b : List Byte) :
    t.manage tag k c d b = t.replied tag 2 k c d b := by
  refine replied_of_manage (s := t) ?_ tag k c d b
  rw [← h]

/-- A planner and an allocator written alike on both sides keep what a cascade keeps. -/
theorem cascadeFrame_setPln_setAlc {x y : State} (h : CascadeFrame x y) (b : Pln) (a : Alc) :
    CascadeFrame ((x.setPln b).setAlc a) ((y.setPln b).setAlc a) :=
  { pending := h.pending, pli := h.pli, head := h.head, dir := h.dir, divider := h.divider, pulse := h.pulse, plantOut := h.plantOut,
    table := rfl, units := h.units, ports := h.ports, waterways := h.waterways, posted := h.posted, playback := h.playback,
    tgt := h.tgt, selected := rfl, proposal := rfl, gap := rfl }

/-- The passage to STANDBY: each request as R83 leaves it, with the planner and the allocator cleared. -/
theorem disabled_effect (s : State) :
    let b := { s with pli := { s.pli with part := .standby } }
    let x := if s.inFallback then b.post .fallbackLeft none (some 0) else b
    CascadeFrame ((x.setPln (.cleared s.pln.table)).setAlc .cleared) s.disabled
      ∧ s.disabled.pln = .cleared s.pln.table ∧ s.disabled.alc = .cleared
      ∧ ∀ u, s.disabled.req u = (Slot.all.foldl State.disableRequest x).req u := by
  intro b x
  have hx : x.pln.table = s.pln.table := by
    show (if s.inFallback then b.post .fallbackLeft none (some 0) else b).pln.table = _
    split <;> rfl
  obtain ⟨hfold, -⟩ := disable_fold Slot.all Slot.all_nodup x
  have hpln : (Slot.all.foldl State.disableRequest x).pln.table = s.pln.table := hfold.table.trans hx
  have heq : s.disabled = ((Slot.all.foldl State.disableRequest x).setPln (.cleared s.pln.table)).setAlc .cleared := by
    rw [← hpln]
    rfl
  rw [heq]
  exact ⟨cascadeFrame_setPln_setAlc hfold _ _, rfl, rfl, fun u => rfl⟩

/-- R163: the targets after the return from FALLBACK. -/
theorem returnToDispatching_effect (s : State) :
    TargetFrame (({ s with pli := { s.pli with part := .dispatching } }).post .fallbackLeft none (some 1)) s.returnToDispatching
      ∧ s.returnToDispatching.tgt = match s.tgt.source, s.tgt.run with
          | .pattern, some r => s.tgt.withBase (s.tgt.pattern.level r.pos) (s.params.rampRate == 0)
          | _, _ => s.tgt := by
  let b := ({ s with pli := { s.pli with part := .dispatching } }).post .fallbackLeft none (some 1)
  have hb : b.tgt = s.tgt := rfl
  have hret : s.returnToDispatching = match s.tgt.source, s.tgt.run with
      | .pattern, some r => b.setReqBase (s.tgt.pattern.level r.pos)
      | _, _ => b := rfl
  rw [hret]
  split
  · rename_i r hs hr
    obtain ⟨hframe, htgt⟩ := target_setReqBase b (s.tgt.pattern.level r.pos)
    refine ⟨hframe, htgt.trans ?_⟩
    have hjumps : b.jumps = (s.params.rampRate == 0) := Bool.and_true _
    rw [baseTgt_withBase, hb, hjumps]
  · exact ⟨.refl _, rfl⟩

/-- Settles O48. -/
theorem disableAndResume : Obligations.DisableAndResume := by
  unfold Obligations.DisableAndResume
  refine ⟨fun tag s => ⟨fun h => ?_, fun h => ?_⟩, fun tag s => ⟨fun h => ?_, fun h => ?_⟩⟩
  · have hg : s.takePlantFrame.governs = false := by simp [State.governs, State.takePlantFrame, h]
    simp only [exec, execDisable, hg]
    rfl
  · intro b
    have hg : s.takePlantFrame.governs = true := by simp [State.governs, State.takePlantFrame, h]
    obtain ⟨hframe, hpln, halc, hreq⟩ := disabled_effect s.takePlantFrame
    have hexec : exec (.disable tag) s = .next (s.takePlantFrame.disabled.manage tag kindDisable .ok) := by
      simp only [exec, execDisable, hg, if_true]
    refine ⟨s.takePlantFrame.disabled, ?_, hframe, hpln, halc, fun u => (hreq u).trans ?_⟩
    · have hframer : s.takePlantFrame.disabled.pli.framer = none := by
        rw [hframe.pli]
        show (if s.takePlantFrame.inFallback then _ else _ : State).pli.framer = none
        split <;> rfl
      exact hexec.trans (congrArg Host.Outcome.next (manage_eq_replied hframer tag kindDisable .ok 0 []))
    · obtain ⟨-, hfold⟩ := disable_fold Slot.all Slot.all_nodup
        (if s.takePlantFrame.inFallback then b.post .fallbackLeft none (some 0) else b)
      refine (hfold u).trans ((if_pos (Slot.mem_all u)).trans ?_)
      have hreq : (if s.takePlantFrame.inFallback then b.post .fallbackLeft none (some 0) else b).req u = s.req u := by
        split <;> rfl
      rw [hreq]
  · exact (if_neg h : execResume tag s = _)
  · obtain ⟨hframe, htgt⟩ := returnToDispatching_effect s.takePlantFrame
    have hcas := cascade_finish s.takePlantFrame.returnToDispatching s {}
    have hexec : exec (.resume tag) s
        = .next ((s.takePlantFrame.returnToDispatching.finish s).manage tag kindResume .ok) := if_pos h
    have hframer : (s.takePlantFrame.returnToDispatching.finish s).pli.framer = none :=
      congrArg Pli.framer (hcas.pli.trans hframe.pli)
    exact ⟨_, hexec.trans (congrArg Host.Outcome.next (manage_eq_replied hframer tag kindResume .ok 0 [])),
      hframe.trans hcas.toTargetFrame, hcas.tgt.trans htgt⟩

/-! ## The rotation order -/

/-- A list of eight distinct slots is no faulty rotation order, and is the order it spells. -/
theorem rotationFault_map {order : List Slot} (hn : order.Nodup) (hl : order.length = 8) :
    rotationFault (order.map slotCode) = none ∧ (order.map slotCode).filterMap slotOfCode = order := by
  have hcode (u : Slot) : slotOfCode (slotCode u) = some u := by cases u <;> rfl
  constructor
  · unfold rotationFault
    rw [if_neg (by simp [hl])]
    exact firstBad_none 1 [] _ order rfl hn (by simp)
  · simp [List.filterMap_map, hcode]

/-- R20: the first entry that is no slot, or names a slot that stands before it, is the one refused. -/
theorem rotationFault_at {codes : List Byte} {i : Nat} (hl : codes.length = 8) (hi : i < 8)
    (hgood : ∀ j < i, ∃ c, codes[j]? = some c ∧ (slotOfCode c).isSome = true ∧ ∀ k < j, codes[k]? ≠ some c)
    (hbad : ¬ ∃ c, codes[i]? = some c ∧ (slotOfCode c).isSome = true ∧ ∀ k < i, codes[k]? ≠ some c) :
    rotationFault codes = some (i + 1) := by
  unfold rotationFault
  rw [if_neg (by simp [hl]), Nat.add_comm i 1]
  refine firstBad_at i 1 [] codes (fun j hj => ?_) (by omega) ?_
  · obtain ⟨c, hc, hs, hk⟩ := hgood j hj
    obtain ⟨u, hu⟩ := Option.isSome_iff_exists.mp hs
    exact ⟨c, u, hc, hu, by simp, hk⟩
  · rintro ⟨c, u, hc, hu, -, hk⟩
    exact hbad ⟨c, hc, by simp [hu], hk⟩

/-- A new rotation order, answered after the cascade it causes. -/
theorem setRotation_answered (s : State) (order : List Slot) (tag k : Byte) :
    ∃ t, ((s.takePlantFrame.setRotation order).finish s { replan := true }).manage tag k .ok = t.replied tag 2 k .ok
      ∧ CascadeFrame { s with pli := { s.pli with framer := none }, ros := { s.ros with rotation := order } } t := by
  have hcas := cascade_finish (s.takePlantFrame.setRotation order) s { replan := true }
  exact ⟨_, finish_managed (a := s.takePlantFrame.setRotation order) rfl tag k .ok 0 [], hcas⟩

/-- Settles O50. -/
theorem rotationChanges : Obligations.RotationChanges := by
  unfold Obligations.RotationChanges
  refine ⟨fun tag slots s => ?_, fun tag s u rest h => ?_⟩
  · intro answer good
    have hbad (i : Nat) (h : rotationFault slots = some i) : answer i := by
      show execRotationSet tag slots s = _
      simp only [execRotationSet, h]
      rfl
    refine ⟨fun h => hbad 0 (if_pos h), fun i hi hl hg hb => hbad (i + 1) (rotationFault_at hl hi hg hb), fun order hn hl h => ?_⟩
    obtain ⟨hfault, horder⟩ := rotationFault_map hn hl
    obtain ⟨t, ht, hframe⟩ := setRotation_answered s order tag kindRotationSet
    refine ⟨t, ?_, hframe⟩
    subst h
    show execRotationSet tag _ s = _
    simp only [execRotationSet, hfault, horder]
    exact congrArg Host.Outcome.next ht
  · obtain ⟨t, ht, hframe⟩ := setRotation_answered s (rest ++ [u]) tag kindRotate
    have hrot : rotateOnce s.takePlantFrame.ros.rotation = rest ++ [u] := by
      show rotateOnce s.ros.rotation = _
      rw [h]
      rfl
    refine ⟨t, ?_, hframe⟩
    show execRotate tag s = _
    simp only [execRotate, hrot]
    exact congrArg Host.Outcome.next ht

/-! ## Marks and stray resources -/

/-- An answer to a request whose effect the cascade follows. -/
theorem answered {i : Instr} {s a : State} {c : Causes} {tag k : Byte} (ha : a.pli = s.takePlantFrame.pli)
    (hexec : exec i s = .next ((a.finish s c).manage tag k .ok)) : exec i s = .next ((a.finish s c).replied tag 2 k .ok) :=
  hexec.trans (congrArg Host.Outcome.next (finish_managed ha tag k .ok 0 []))

/-- R80: a slot holds something stray. -/
theorem holdsStray_iff (s : State) (u : Slot) : s.takePlantFrame.holdsStray u = true
    ↔ (s.orphan u).isSome = true ∨ ∃ c, s.holder c = some { slot := u, kind := .observed } := by
  have hobs (c : Conv) : s.takePlantFrame.observes u c = true ↔ s.holder c = some { slot := u, kind := .observed } := by
    simp [State.observes, State.takePlantFrame]
    cases c <;> rfl
  have hor : s.takePlantFrame.orphan u = s.orphan u := rfl
  simp only [State.holdsStray, Bool.or_eq_true, hobs, hor]
  constructor
  · rintro ((h | h) | h)
    · exact .inl h
    · exact .inr ⟨_, h⟩
    · exact .inr ⟨_, h⟩
  · rintro (h | ⟨_ | _, h⟩)
    · exact .inl (.inl h)
    · exact .inl (.inr h)
    · exact .inr h

/-- Settles O51. -/
theorem marksAndResources : Obligations.MarksAndResources := by
  unfold Obligations.MarksAndResources
  refine ⟨fun tag slot s => ⟨fun h => ?_, fun u h => ⟨fun hs => ?_, fun hs => ?_⟩⟩, fun u s => ⟨fun h => ?_, fun h => ?_⟩,
    fun tag slot s => ⟨fun h => ?_, fun u h => ⟨fun hs => ?_, fun hs => ?_⟩⟩⟩
  · simp only [exec, execClearUnit, h]
    rfl
  · simp only [exec, execClearUnit, h]
    exact if_pos hs
  · have hexec : exec (.clearUnit tag slot) s = .next (((s.takePlantFrame.clearMarks u).finish s).manage tag kindClearUnit .ok) := by
      simp only [exec, execClearUnit, h]
      exact if_neg hs
    have hcas := cascade_finish (s.takePlantFrame.clearMarks u) s {}
    exact ⟨_, answered (a := s.takePlantFrame.clearMarks u) rfl hexec, hcas⟩
  · simp only [exec, execBackoffExpiry, h, Bool.false_eq_true, if_false]
  · have hexec : exec (.backoffExpiry u) s = .next ((s.setUnit u { s.unitRec u with backoff := none }).finish s) := if_pos h
    have hcas := cascade_finish (s.setUnit u { s.unitRec u with backoff := none }) s {}
    exact ⟨_, hexec, hcas⟩
  · simp only [exec, execReleaseResources, h]
    rfl
  · have hno : s.takePlantFrame.holdsStray u = false := Bool.eq_false_iff.mpr fun hyes => hs ((holdsStray_iff s u).mp hyes)
    simp only [exec, execReleaseResources, h, hno]
    rfl
  · have hyes : s.takePlantFrame.holdsStray u = true := (holdsStray_iff s u).mpr hs
    let a := (s.takePlantFrame.releaseOrphan u).releaseObserved u
    have hcas : CascadeFrame s.takePlantFrame a := (cascade_releaseOrphan _ u).trans (cascade_releaseObserved _ u)
    have hexec : exec (.releaseResources tag slot) s = .next ((a.finish s { grants := true }).manage tag kindReleaseResources .ok) := by
      simp only [exec, execReleaseResources, h, hyes, if_true]
      rfl
    have hrun := reach_finish a s { grants := true }
    have horphan (v : Slot) : (a.finish s { grants := true }).orphan v = if v = u then none else s.orphan v := by
      rw [hrun.orphan, ← show s.takePlantFrame.orphan v = s.orphan v from rfl, ← releaseOrphan_orphan]
      show State.orphan (State.releaseObserved _ u) v = _
      rw [releaseObserved_eq]
      rfl
    refine ⟨_, answered hcas.pli hexec, hcas.trans hrun.frame, (horphan u).trans (if_pos rfl), fun v hv => (horphan v).trans (if_neg hv),
      fun c => ?_, fun o c ho hc => ?_, fun o w r ho hheld hof hrec => ?_⟩
    · have hnot : a.holder c ≠ some { slot := u, kind := .observed } := by
        rw [releaseObserved_holder]
        split
        · simp
        · rename_i hobs
          exact fun heq => hobs (by simp [State.observes, heq])
      rcases hrun.holder c with heq | heq | ⟨v, heq⟩
      · rw [heq]
        exact hnot
      · simp [heq]
      · simp [heq]
    · have hnone : a.holder c = none := by
        rw [releaseObserved_holder, releaseOrphan_holder]
        have hor : s.takePlantFrame.orphan u = some o := ho
        simp [hor, hc]
      rcases hrun.holder c with heq | heq | heq
      · exact .inl (heq.trans hnone)
      · exact .inl heq
      · exact .inr heq
    · have hway : a.waterwayRec w = (s.takePlantFrame.releaseOrphan u).waterwayRec w := by
        show State.waterwayRec (State.releaseObserved _ u) w = _
        rw [releaseObserved_eq]
        rfl
      have hor : (s.takePlantFrame.orphan u).any (·.slotHeld) = true := by
        show (s.orphan u).any _ = true
        simp [ho, hheld]
      have hrel : (s.takePlantFrame.releaseOrphan u).waterwayRec w = some (r.release s.clock true) := by
        rw [releaseOrphan_waterwayRec, if_pos ⟨hor, hof⟩]
        exact congrArg (Option.map _) hrec
      rw [hrun.settle, hway, hrel]
      rfl

end Sys2Proof.Proofs
end

section
/-! The granting of a step (R67 to R70): the resources it takes, and what becomes of its request (O60). -/

namespace Sys2Proof.Machine

/-- The converter that a step takes at its grant (R69). -/
def State.chosen (s : State) (st : PathStep) : Option Conv := if st.kind = .pStart then s.freeConverter else none

/-- The lead with which a waterway warns of a step, where it does. -/
def WaterwayRec.leadOf (q : WaterwayRec) (k : StepKind) : Option Nat := if q.row.warns k then some q.row.lead else none

/-- The record of a waterway in which a step has been granted. -/
def WaterwayRec.grants (q : WaterwayRec) (u : Slot) (st : PathStep) (now : Word) : WaterwayRec :=
  let q' := if st.flowChanging then { q with inProgress := q.inProgress + 1 } else q
  if q.row.warns st.kind then q'.warn u now else q'

theorem WaterwayRec.grants_row (q : WaterwayRec) (u : Slot) (st : PathStep) (now : Word) : (q.grants u st now).row = q.row := by
  unfold WaterwayRec.grants WaterwayRec.warn
  cases q.row.warns st.kind <;> cases st.flowChanging <;> rfl

theorem WaterwayRec.grants_inProgress (q : WaterwayRec) (u : Slot) (st : PathStep) (now : Word) :
    (q.grants u st now).inProgress = if st.flowChanging then q.inProgress + 1 else q.inProgress := by
  unfold WaterwayRec.grants WaterwayRec.warn
  cases q.row.warns st.kind <;> cases st.flowChanging <;> rfl

theorem WaterwayRec.grants_warned (q : WaterwayRec) (u : Slot) (st : PathStep) (now : Word) :
    ((q.grants u st now).warned, (q.grants u st now).generator) = if q.row.warns st.kind then
      (q.warned ++ [u], some { pulse := 1, high := true, began := now, tenths := q.row.firstHigh }) else (q.warned, q.generator) := by
  unfold WaterwayRec.grants WaterwayRec.warn
  cases q.row.warns st.kind <;> cases st.flowChanging <;> rfl

/-- The state in which a granted step has its resources, before its request is written. -/
def State.granting (s : State) (u : Slot) (st : PathStep) : State :=
  (s.takeConverter u (s.chosen st)).updateWaterwayOf u (·.grants u st s.clock)

/-- A request whose step is granted, before it is warned or ordered. -/
def Request.given (r : Request) (c : Option Conv) (st : PathStep) : Request :=
  { r with conv := c, slotHeld := st.flowChanging, blocked := none }

theorem WaterwayMap.set_set {α : Type} (m : WaterwayMap α) (w : Waterway) (x y : α) : (m.set w x).set w y = m.set w y := by
  cases w <;> rfl

theorem WaterwayMap.set_self {α : Type} (m : WaterwayMap α) (w : Waterway) : m.set w (m.get w) = m := by
  cases w <;> rfl

/-- The waterways with a change of the record of the slot's waterway. -/
def Waterways.update (t : Waterways) (u : Slot) (f : WaterwayRec → WaterwayRec) : Waterways :=
  { t with recs := t.recs.set (t.place.get u) (f (t.recs.get (t.place.get u))) }

theorem Waterways.update_update (t : Waterways) (u : Slot) (f g : WaterwayRec → WaterwayRec) :
    (t.update u f).update u g = t.update u (fun q => g (f q)) := by
  simp [Waterways.update, WaterwayMap.set_set]

theorem Waterways.update_id (t : Waterways) (u : Slot) : t.update u (fun q => q) = t := by
  simp [Waterways.update, WaterwayMap.set_self]

theorem State.updateWaterwayOf_eq (s : State) (u : Slot) (f : WaterwayRec → WaterwayRec) :
    s.updateWaterwayOf u f = s.setTrs { s.trs with waterways := s.trs.waterways.map (·.update u f) } := by
  unfold State.updateWaterwayOf State.waterwayOf State.waterwayRec State.setWaterway
  cases h : s.trs.waterways with
  | none =>
    show s = s.setTrs { s.trs with waterways := none }
    rw [← h]
    rfl
  | some t => rfl

theorem State.updateWaterwayOf_twice (s : State) (u : Slot) (f g : WaterwayRec → WaterwayRec) :
    (s.updateWaterwayOf u f).updateWaterwayOf u g = s.updateWaterwayOf u (fun q => g (f q)) := by
  simp only [State.updateWaterwayOf_eq, State.setTrs_trs, Option.map_map, Function.comp_def, Waterways.update_update]
  rfl

theorem State.updateWaterwayOf_id (s : State) (u : Slot) : s.updateWaterwayOf u (fun q => q) = s := by
  simp only [State.updateWaterwayOf_eq, Waterways.update_id, Option.map_id']
  rfl

theorem warningLead_eq (s : State) (u : Slot) (k : StepKind) :
    s.warningLead u k = ((s.waterwayOf u).bind s.waterwayRec).bind (·.leadOf k) := rfl

theorem State.updateWaterwayOf_congr {s : State} {u : Slot} {f g : WaterwayRec → WaterwayRec}
    (h : ∀ w q, s.waterwayOf u = some w → s.waterwayRec w = some q → f q = g q) : s.updateWaterwayOf u f = s.updateWaterwayOf u g := by
  unfold State.updateWaterwayOf
  split
  · rfl
  · rename_i w hw
    split
    · rfl
    · rename_i q hq
      rw [h w q hw hq]

theorem takeConverter_waterways (s : State) (u : Slot) (c : Option Conv) :
    (∀ v, (s.takeConverter u c).waterwayOf v = s.waterwayOf v) ∧ (∀ w, (s.takeConverter u c).waterwayRec w = s.waterwayRec w)
      ∧ (s.takeConverter u c).clock = s.clock := by
  rcases c with _ | _ | _ <;> exact ⟨fun _ => rfl, fun _ => rfl, rfl⟩

/-- A waterway slot is taken for a flow-changing step (R69). -/
def WaterwayRec.entered (q : WaterwayRec) (flow : Bool) : WaterwayRec := if flow then { q with inProgress := q.inProgress + 1 } else q

theorem WaterwayRec.entered_row (q : WaterwayRec) (flow : Bool) : (q.entered flow).row = q.row := by cases flow <;> rfl

theorem takeSlot_eq (s : State) (u : Slot) (flow : Bool) :
    (if flow then s.updateWaterwayOf u (fun w => { w with inProgress := w.inProgress + 1 }) else s)
      = s.updateWaterwayOf u (·.entered flow) := by
  cases flow
  · exact (s.updateWaterwayOf_id u).symm
  · rfl

theorem warningLead_entered (s : State) (u : Slot) (c : Option Conv) (flow : Bool) (k : StepKind) :
    ((s.takeConverter u c).updateWaterwayOf u (·.entered flow)).warningLead u k = s.warningLead u k := by
  obtain ⟨hof, hrec, -⟩ := takeConverter_waterways s u c
  rw [warningLead_eq, warningLead_eq, State.updateWaterwayOf_waterwayOf, hof]
  cases hu : s.waterwayOf u with
  | none => rfl
  | some w =>
    simp only [Option.bind_some, State.updateWaterwayOf_waterwayRec, hof, hu, if_true, hrec]
    cases s.waterwayRec w with
    | none => rfl
    | some q => simp [WaterwayRec.leadOf, WaterwayRec.entered_row]

/-- A step's two writes of its waterway's record are one. -/
theorem granting_eq (s : State) (u : Slot) (st : PathStep) :
    let y := (s.takeConverter u (s.chosen st)).updateWaterwayOf u (·.entered st.flowChanging)
    s.granting u st = if (s.warningLead u st.kind).isSome then y.updateWaterwayOf u (·.warn u y.clock) else y := by
  intro y
  obtain ⟨hof, hrec, hclock⟩ := takeConverter_waterways s u (s.chosen st)
  have hyclock : y.clock = s.clock := (congrArg Pli.clock (cascade_updateWaterwayOf _ u _ fun q => q.entered_row _).pli).trans hclock
  have hwarns (w : Waterway) (q : WaterwayRec) (hw : s.waterwayOf u = some w) (hq : s.waterwayRec w = some q) :
      (s.warningLead u st.kind).isSome = q.row.warns st.kind := by
    rw [warningLead_eq, hw, Option.bind_some, hq, Option.bind_some, WaterwayRec.leadOf]
    split <;> simp [*]
  unfold State.granting
  rw [hyclock]
  split
  · rename_i hsome
    rw [State.updateWaterwayOf_twice]
    refine State.updateWaterwayOf_congr fun w q hw hq => ?_
    rw [hof] at hw
    rw [hrec] at hq
    rw [hwarns w q hw hq] at hsome
    simp [WaterwayRec.grants, hsome, WaterwayRec.entered]
  · rename_i hnone
    refine State.updateWaterwayOf_congr fun w q hw hq => ?_
    rw [hof] at hw
    rw [hrec] at hq
    rw [hwarns w q hw hq] at hnone
    simp [WaterwayRec.grants, hnone, WaterwayRec.entered]

theorem cascade_granting (s : State) (u : Slot) (st : PathStep) : CascadeFrame s (s.granting u st) :=
  (cascade_takeConverter s u _).trans (cascade_updateWaterwayOf _ u _ fun q => q.grants_row u st s.clock)

theorem grantStep_eq (s : State) (u : Slot) (r : Request) (st : PathStep) : s.grantStep u r st =
    match s.warningLead u st.kind with
    | none => ((s.granting u st).setReq u (some (r.given (s.chosen st) st))).orderStep u
    | some lead => if lead = 0 then ((s.granting u st).setReq u (some (r.given (s.chosen st) st))).orderStep u
      else (s.granting u st).setReq u (some { r.given (s.chosen st) st with
        state := .warning, leadExpiry := some (later s.clock lead) }) := by
  have hgr := granting_eq s u st
  have hlead := warningLead_entered s u (s.chosen st) st.flowChanging st.kind
  have hclock : (s.granting u st).clock = s.clock := (cascade_granting s u st).play.clock
  unfold State.grantStep
  simp only [takeSlot_eq]
  rw [← State.chosen, hlead]
  dsimp only at hgr
  cases hl : s.warningLead u st.kind with
  | none =>
    rw [hl] at hgr
    rw [hgr]
    rfl
  | some lead =>
    rw [hl] at hgr
    simp only [Option.isSome_some, if_true] at hgr
    dsimp only
    rw [← hgr, hclock]
    rfl

/-! ## What a grant takes -/

section
variable (s : State) (u : Slot) (st : PathStep)

theorem only_granting : OnlyTrs s (s.granting u st) :=
  (takeConverter_only s u _).1.trans (only_updateWaterwayOf _ u _)

theorem granting_holder (c : Conv) : (s.granting u st).holder c
    = if s.chosen st = some c then some { slot := u, kind := .granted } else s.holder c := by
  unfold State.granting State.takeConverter
  rw [State.updateWaterwayOf_holder]
  rcases s.chosen st with _ | _ | _ <;> cases c <;> rfl

theorem granting_waterwayRec (w : Waterway) : (s.granting u st).waterwayRec w
    = if s.waterwayOf u = some w then (s.waterwayRec w).map (·.grants u st s.clock) else s.waterwayRec w := by
  obtain ⟨hof, hrec, -⟩ := takeConverter_waterways s u (s.chosen st)
  unfold State.granting
  rw [State.updateWaterwayOf_waterwayRec, hof, hrec]

theorem granting_orphan (v : Slot) : (s.granting u st).orphan v = s.orphan v := by
  unfold State.granting State.takeConverter
  rw [State.updateWaterwayOf_orphan]
  split
  · exact State.setHolder_orphan ..
  · rfl

theorem granting_requests : (s.granting u st).trs.requests = s.trs.requests := by
  unfold State.granting
  rw [updateWaterwayOf_requests]
  exact (takeConverter_only s u _).2.2

theorem resources_orderStep : SameResources s (s.orderStep u) := by
  unfold State.orderStep
  split
  · split
    · exact .refl
    · exact (resources_sendOrder s _ _ _ _).trans ((resources_setReq _ u _).trans (resources_post _ _ _ _))
  · exact .refl

theorem resources_grantStep (r : Request) : SameResources (s.granting u st) (s.grantStep u r st) := by
  rw [grantStep_eq]
  split
  · exact (resources_setReq _ u _).trans (resources_orderStep _ u)
  · split
    · exact (resources_setReq _ u _).trans (resources_orderStep _ u)
    · exact resources_setReq _ u _

end

/-- What an order makes of the request whose step it is (R70). -/
def Request.underOrder (r : Request) (s : State) (tag : Byte) (k : StepKind) (u : Slot) : Request :=
  { r with
    state := .ordered, tag := some tag, startedAt := some s.clock, seen := false, leadExpiry := none
    ackExpiry := some (later s.clock s.params.ackTimeout)
    stepExpiry := some (later s.clock (s.stepTimeout u k)), redirected := false }

theorem orderStep_of_trs {s x : State} {u : Slot} {r : Request} {st : PathStep} {p : Port} (hx : x = s.setTrs x.trs)
    (hr : x.req u = some r) (hc : r.current = some st) (hp : (s.unitRec u).port = some p) :
    (x.orderStep u).req u = some (r.underOrder s (s.portRec p).tagCounter st.kind u)
      ∧ (x.orderStep u).ste = (s.post .stepOrdered (some u) (some (stepCode st.kind))).ste := by
  have hxp : (x.unitRec u).port = some p := by rw [hx]; exact hp
  obtain ⟨htrs, hev⟩ := orderStep_effect hr hc hxp
  constructor
  · have hreq : (x.orderStep u).req u = (x.orderStep u).trs.requests.get u := rfl
    rw [hreq, htrs]
    simp only [slotMap_get_self]
    rw [hx]
    rfl
  · rw [hev, hx]
    rfl

/-- What becomes of a request whose step is granted: warned for the waterway's lead, or ordered at once (R69, R70). -/
theorem grantStep_request {s : State} {u : Slot} {r : Request} {st : PathStep} {p : Port} (hc : r.current = some st)
    (hp : (s.unitRec u).port = some p) :
    (∀ lead, s.warningLead u st.kind = some lead → lead ≠ 0 →
      (s.grantStep u r st).req u = some { r.given (s.chosen st) st with state := .warning, leadExpiry := some (later s.clock lead) }
        ∧ (s.grantStep u r st).ste = s.ste)
    ∧ ((∀ lead, s.warningLead u st.kind = some lead → lead = 0) →
      (s.grantStep u r st).req u = some ((r.given (s.chosen st) st).underOrder s (s.portRec p).tagCounter st.kind u)
        ∧ (s.grantStep u r st).ste = (s.post .stepOrdered (some u) (some (stepCode st.kind))).ste) := by
  have hste : (s.granting u st).ste = s.ste := by rw [only_granting s u st]; rfl
  have horder : let x := (s.granting u st).setReq u (some (r.given (s.chosen st) st))
      (x.orderStep u).req u = some ((r.given (s.chosen st) st).underOrder s (s.portRec p).tagCounter st.kind u)
        ∧ (x.orderStep u).ste = (s.post .stepOrdered (some u) (some (stepCode st.kind))).ste := by
    intro x
    have hx : x = s.setTrs x.trs := (only_granting s u st).trans (only_setReq _ u _)
    have hreq : x.req u = some (r.given (s.chosen st) st) := by simp [x]
    exact orderStep_of_trs hx hreq hc hp
  rw [grantStep_eq]
  constructor
  · intro lead hl hne
    simp only [hl, hne, if_false]
    exact ⟨by simp, hste⟩
  · intro h
    split
    · exact horder
    · rename_i lead hl
      rw [if_pos (h lead hl)]
      exact horder

/-! ## The grant test (R67) -/

/-- The first condition of R67's table. -/
def State.able (s : State) (u : Slot) (st : PathStep) : Prop :=
  s.pli.part ≠ .standby ∧ s.dispatchable u = true ∧ s.orphan u = none ∧ s.reported u = some (.stable st.origin)

/-- A converter is configured and held by none (R69). -/
def State.free (s : State) (c : Conv) : Prop := convNumber c ≤ s.params.converters ∧ s.holder c = none

theorem freeConverter_none {s : State} : s.freeConverter = none ↔ ∀ c, ¬ s.free c := by
  have hc : (∀ c, ¬ s.free c) ↔ ¬ s.free .c1 ∧ ¬ s.free .c2 := ⟨fun h => ⟨h _, h _⟩, fun h c => by cases c; exacts [h.1, h.2]⟩
  rw [hc]
  simp [State.freeConverter, State.free, State.configured]

theorem freeConverter_some {s : State} {c : Conv} (h : s.freeConverter = some c) : s.free c ∧ (c = .c2 → ¬ s.free .c1) := by
  have hfree (d : Conv) : (s.configured d && (s.holder d).isNone) = true ↔ s.free d := by simp [State.free, State.configured]
  unfold State.freeConverter at h
  cases h1 : s.configured .c1 && (s.holder .c1).isNone with
  | true =>
    simp only [List.find?_cons, h1, Option.some.injEq] at h
    subst h
    exact ⟨(hfree _).mp h1, nofun⟩
  | false =>
    have hno : ¬ s.free .c1 := fun k => by rw [(hfree _).mpr k] at h1; cases h1
    cases h2 : s.configured .c2 && (s.holder .c2).isNone with
    | true =>
      simp only [List.find?_cons, h1, h2, Option.some.injEq] at h
      subst h
      exact ⟨(hfree _).mp h2, fun _ => hno⟩
    | false => simp [h1, h2] at h

section
variable {s : State} {u : Slot} {st : PathStep}

theorem able_iff : (s.governs && s.dispatchable u && (s.orphan u).isNone && s.reported u == some (.stable st.origin)) = true
    ↔ s.able u st := by
  simp [State.able, State.governs, and_assoc]

theorem testGrant_unable (h : ¬ s.able u st) : s.testGrant u st = .fails none := by
  unfold State.testGrant
  rw [Bool.eq_false_iff.mpr fun k => h (able_iff.mp k)]
  rfl

variable (able : s.able u st)
include able

theorem testGrant_converter (hk : st.kind = .pStart) (hc : ∀ c, ¬ s.free c) : s.testGrant u st = .fails (some .converter) := by
  unfold State.testGrant
  rw [able_iff.mpr able]
  simp [hk, freeConverter_none.mpr hc]

variable (hc : st.kind = .pStart → ∃ c, s.free c) {w : Waterway} {q : WaterwayRec} (hw : s.waterwayOf u = some w)
  (hq : s.waterwayRec w = some q)
include hc hw hq

theorem testGrant_eq : s.testGrant u st = match (if st.flowChanging then flowTest (some q) else none) with
    | some why => .fails (some why)
    | none => if s.params.maxConcurrent ≤ s.plantCount then .fails (some .concurrency)
      else if s.mixes u st.kind w q then .fails (some .mixing) else .granted := by
  have hfree : (st.kind == .pStart && s.freeConverter.isNone) = false := by
    cases hk : (st.kind == .pStart) with
    | false => rfl
    | true =>
      obtain ⟨c, hfree⟩ := hc (by simpa using hk)
      cases hn : s.freeConverter with
      | none => exact absurd hfree (freeConverter_none.mp hn c)
      | some _ => rfl
  unfold State.testGrant
  rw [able_iff.mpr able, hfree, hw]
  simp only [Option.bind_some, hq]
  rfl

end

theorem tryGrant_eq {s : State} {u : Slot} {r : Request} {st : PathStep} (hr : s.req u = some r) (hw : r.state = .waiting)
    (hc : r.current = some st) : s.tryGrant u = match s.testGrant u st with
      | .granted => s.grantStep u r st
      | .fails why => s.setReq u (some { r with blocked := why }) := by
  unfold State.tryGrant
  rw [hr]
  dsimp only
  rw [if_neg (not_not.mpr hw)]
  simp only [hc] <;> rfl

theorem mixes_iff {s : State} {u : Slot} {k : StepKind} {w : Waterway} {q : WaterwayRec} : s.mixes u k w q = true ↔
    let against (d : Direction) := ∃ v, v ≠ u ∧ s.waterwayOf v = some w ∧ s.flow v = d
    q.row.mixing ≠ 1 ∧ (k = .gStart ∧ against .pumping ∨ k = .prime ∧ against .generating) := by
  have hagainst (d : Direction) : Slot.all.any (fun v => v != u && s.waterwayOf v == some w && s.flow v == d) = true
      ↔ ∃ v, v ≠ u ∧ s.waterwayOf v = some w ∧ s.flow v = d := by
    simp [and_assoc]
  unfold State.mixes
  cases k <;> simp [hagainst, WaterwayRow.mixingAllowed]

end Sys2Proof.Machine

namespace Sys2Proof.Proofs
open Sys2Proof.Machine

/-- Settles O60. -/
theorem grantRule : Obligations.GrantRule := by
  unfold Obligations.GrantRule
  intro s u r st hr hwait hcur t fails able free
  have ht : t = _ := tryGrant_eq hr hwait hcur
  have hfails (why : Option Blocked) (h : s.testGrant u st = .fails why) : fails why := by
    show t = _
    rw [ht, h]
  refine ⟨fun h => hfails _ (testGrant_unable h), fun h hk hc => hfails _ (testGrant_converter h hk hc),
    fun w q hable hc hw hq => ?_⟩
  intro flow against mixes passes
  have htest := testGrant_eq hable hc hw hq
  have hflow (hp : passes) : (if st.flowChanging then flowTest (some q) else none) = none := by
    split
    · obtain ⟨h1, h2⟩ := hp ‹_›
      simp [flowTest, h1, h2]
    · rfl
  refine ⟨fun hf hfull => hfails _ ?_, fun hf hroom hset => hfails _ ?_, fun hp hmany => hfails _ ?_, fun hp hfew hmix => hfails _ ?_,
    fun hp hfew hmix => ?_⟩
  · rw [htest, if_pos hf]
    simp [flowTest, hfull]
  · rw [htest, if_pos hf]
    simp [flowTest, hset, Nat.not_le.mpr hroom]
  · rw [htest, hflow hp]
    simp [hmany]
  · rw [htest, hflow hp]
    have hm : s.mixes u st.kind w q = true := mixes_iff.mpr hmix
    simp [hfew, hm]
  · have hgranted : s.testGrant u st = .granted := by
      rw [htest, hflow hp]
      have hm : s.mixes u st.kind w q = false := Bool.eq_false_iff.mpr fun k => hmix (mixes_iff.mp k)
      simp [hfew, hm]
    have htg : t = s.grantStep u r st := by rw [ht, hgranted]
    rw [htg]
    have hway : (s.grantStep u r st).waterwayRec w = some (q.grants u st s.clock) := by
      rw [(resources_grantStep s u st r).waterwayRec, granting_waterwayRec, if_pos hw, hq]
      rfl
    have hlead : s.warningLead u st.kind = q.leadOf st.kind := by
      rw [warningLead_eq, hw, Option.bind_some, hq, Option.bind_some]
    refine ⟨cascade_grantStep s u r st, fun v hv => grantStep_other r st hv, ?_, ?_⟩
    · rw [hway, Option.map_some, WaterwayRec.grants_inProgress]
    · have hport : ∃ p, (s.unitRec u).port = some p := by
        have hstate := dispatchable_qualified hable.2.1
        cases hp : (s.unitRec u).port with
        | none => simp [State.portState, State.slotPort, hp] at hstate
        | some p => exact ⟨p, rfl⟩
      obtain ⟨p, hp⟩ := hport
      obtain ⟨hwarned, hordered⟩ := grantStep_request (r := r) hcur hp
      have hmap : ((s.grantStep u r st).waterwayRec w).map (fun x => (x.warned, x.generator)) = some (
          if q.row.warns st.kind then (q.warned ++ [u], some { pulse := 1, high := true, began := s.clock, tenths := q.row.firstHigh })
          else (q.warned, q.generator)) := by
        rw [hway, Option.map_some, WaterwayRec.grants_warned]
      have hconv (r' : Request) (hr' : r'.conv = s.chosen st) : (st.kind ≠ .pStart → r'.conv = none)
          ∧ (st.kind = .pStart → ∃ c, free c ∧ (c = .c2 → ¬ free .c1) ∧ r'.conv = some c
              ∧ (s.grantStep u r st).holder c = some { slot := u, kind := .granted }) := by
        refine ⟨fun hk => hr'.trans (if_neg hk), fun hk => ?_⟩
        obtain ⟨c, hfree⟩ := hc hk
        cases hch : s.freeConverter with
        | none => exact absurd hfree (freeConverter_none.mp hch c)
        | some d =>
          have hchosen : s.chosen st = some d := (if_pos hk).trans hch
          obtain ⟨h1, h2⟩ := freeConverter_some hch
          refine ⟨d, h1, h2, hr'.trans hchosen, ?_⟩
          rw [(resources_grantStep s u st r).holder, granting_holder, if_pos hchosen]
      by_cases hwl : q.row.warns st.kind = true ∧ q.row.lead ≠ 0
      · obtain ⟨hreq, hste⟩ := hwarned q.row.lead (by rw [hlead, WaterwayRec.leadOf, if_pos hwl.1]) hwl.2
        obtain ⟨hc1, hc2⟩ := hconv _ (rfl : (r.given (s.chosen st) st).conv = _)
        refine ⟨_, hreq, rfl, rfl, rfl, rfl, hc1, hc2, hmap, ?_⟩
        rw [if_pos hwl]
        exact ⟨rfl, rfl, hste⟩
      · obtain ⟨hreq, hste⟩ := hordered fun lead hl => by
          rw [hlead, WaterwayRec.leadOf] at hl
          split at hl
          · cases hl
            by_contra hne
            exact hwl ⟨‹_›, hne⟩
          · cases hl
        obtain ⟨hc1, hc2⟩ := hconv _ (rfl : (r.given (s.chosen st) st).conv = _)
        refine ⟨_, hreq, rfl, rfl, rfl, rfl, hc1, hc2, hmap, ?_⟩
        rw [if_neg hwl]
        exact ⟨rfl, rfl, hste⟩

end Sys2Proof.Proofs
end

section
/-! How a report is judged against a request, and a new demand against a grant (O58). -/

namespace Sys2Proof.Machine

/-! ## The waterway record that a step leaves (R78, R89) -/

theorem WaterwayRec.unwarn_warned (q : WaterwayRec) (u : Slot) : (q.unwarn u).warned = q.warned.filter (fun v => v != u) := by
  unfold WaterwayRec.unwarn
  split
  · rfl
  · rename_i h
    refine (List.filter_eq_self.mpr fun v hv => ?_).symm
    simp only [bne_iff_ne, ne_eq]
    rintro rfl
    exact h (by simpa using hv)

theorem WaterwayRec.unwarn_generator (q : WaterwayRec) (u : Slot) : (q.unwarn u).generator
    = if q.warned.contains u && (q.unwarn u).warned.isEmpty then none else q.generator := by
  rw [WaterwayRec.unwarn_warned]
  unfold WaterwayRec.unwarn
  split
  · rename_i h
    simp only [h, Bool.true_and]
  · rename_i h
    rw [Bool.eq_false_iff.mpr h, Bool.false_and]
    rfl

theorem WaterwayRec.unwarn_settle (q : WaterwayRec) (u : Slot) : (q.unwarn u).settle = q.settle := by
  unfold WaterwayRec.unwarn
  split <;> rfl

/-- What a step that ends leaves of the records that its slot holds (R78, R89): the settle timer runs where `settle` says. -/
structure Given (s t : State) (u : Slot) (r : Request) (settle : Bool) : Prop where
  converter : ∀ c, r.conv = some c → t.holder c = none
  place : ∀ w q, r.slotHeld = true → s.waterwayOf u = some w → s.waterwayRec w = some q →
    (t.waterwayRec w).map (fun x => (x.inProgress, x.settle)) = some (q.inProgress - 1,
      if settle then (if q.row.settle = 0 then none else some (later s.clock q.row.settle)) else q.settle)
  warned : ∀ w q, s.waterwayRec w = some q → ∃ x, t.waterwayRec w = some x ∧ x.warned = q.warned.filter (fun v => v != u)
    ∧ x.generator = if q.warned.contains u && x.warned.isEmpty then none else q.generator

/-- All that follows a release of resources without touching them. -/
theorem given_of_released {s t : State} {u : Slot} {r : Request} {settle : Bool} (hr : s.req u = some r)
    (h : SameResources (s.releaseHeld u settle) t) : Given s t u r settle := by
  have hrel (w : Waterway) (q : WaterwayRec) (hq : s.waterwayRec w = some q) : t.waterwayRec w
      = some ((if r.slotHeld = true ∧ s.waterwayOf u = some w then q.release s.clock settle else q).unwarn u) := by
    rw [h.waterwayRec, releaseHeld_waterwayRec hr settle w, hq]
    rfl
  refine ⟨fun c hc => ?_, fun w q hheld hof hq => ?_, fun w q hq => ⟨_, hrel w q hq, ?_, ?_⟩⟩
  · rw [h.holder, releaseHeld_holder hr settle c, if_pos hc]
  · rw [hrel w q hq, if_pos ⟨hheld, hof⟩, Option.map_some, WaterwayRec.unwarn_inProgress, WaterwayRec.unwarn_settle]
    cases settle <;> rfl
  · have hwarned : (if r.slotHeld = true ∧ s.waterwayOf u = some w then q.release s.clock settle else q).warned = q.warned := by
      split
      · cases settle <;> rfl
      · rfl
    rw [WaterwayRec.unwarn_warned, hwarned]
  · have hsame : (if r.slotHeld = true ∧ s.waterwayOf u = some w then q.release s.clock settle else q).warned = q.warned
        ∧ (if r.slotHeld = true ∧ s.waterwayOf u = some w then q.release s.clock settle else q).generator = q.generator := by
      split
      · cases settle <;> exact ⟨rfl, rfl⟩
      · exact ⟨rfl, rfl⟩
    rw [WaterwayRec.unwarn_generator, hsame.1, hsame.2]

/-! ## The request that is judged -/

section
variable {s : State} {u : Slot} {r : Request} (hr : s.req u = some r)
include hr

theorem supervise_waiting (hw : r.state = .waiting) (m : Reported) (changed : Bool) : s.supervise u m changed
    = if m = .trip then s.endRequest u else if changed then s.waitOn u r r.cls r.dest (s.pathTo u r.dest) else s := by
  simp only [State.supervise, hr, hw]

theorem supervise_warning (hw : r.state = .warning) (m : Reported) (changed : Bool) : s.supervise u m changed
    = if m = .trip then (s.withdraw u).endRequest u else if changed then s.rewarn u r r.cls r.dest else s := by
  simp only [State.supervise, hr, hw]

theorem supervise_ordered (ho : r.state = .ordered ∨ r.state = .inStep) {st : PathStep} (hc : r.current = some st) (m : Reported)
    (changed : Bool) : s.supervise u m changed = s.judgeStep u r st m := by
  rcases ho with ho | ho <;> simp only [State.supervise, hr, ho, hc]

theorem takeDemand_none_of_warning (hw : r.state = .warning) (hd : s.demand u = none) : s.takeDemand u = (s.withdraw u).endRequest u := by
  simp only [State.takeDemand, hr, hw, hd]

theorem takeDemand_of_warning (hw : r.state = .warning) {d : Stable} {c : ReqClass} (hd : s.demand u = some (d, c)) :
    s.takeDemand u = if d = r.dest then s.setReq u (some { r with cls := c }) else s.rewarn u r c d := by
  simp only [State.takeDemand, hr, hw, hd]

/-- The request that waits after its grant has been withdrawn. -/
theorem withdraw_request : (s.withdraw u).req u = some (({ r with conv := none, slotHeld := false } : Request).toWaiting r.dest r.path r.index) := by
  rw [withdraw_req, hr]
  rfl

end

theorem waitOn_request (s : State) (u : Slot) (r : Request) (c : ReqClass) (d : Stable) (path : List PathStep) :
    (s.waitOn u r c d path).req u = if path = [] then none else some { r.toWaiting d path 1 with cls := c } := by
  unfold State.waitOn
  cases path with
  | nil => exact endRequest_req s u
  | cons st path => simp

/-- The state in which a step has been completed, before its request goes on (R73). -/
def State.stepDone (s : State) (u : Slot) (k : StepKind) : State :=
  ((s.releaseHeld u true).post .stepDone (some u) (some (stepCode k))).ceaseOrder u .supervised

/-- The path of a request whose step has been completed, and the index of its next step. -/
def Request.onward (r : Request) (k : StepKind) : List PathStep × Nat :=
  (if r.redirected then pathOf k.dest r.dest else r.path, if r.redirected then 1 else r.index + 1)

theorem completeStep_eq (s : State) (u : Slot) (r : Request) (k : StepKind) : s.completeStep u r k
    = if (r.onward k).1.length < (r.onward k).2 then (s.stepDone u k).endRequest u
      else (s.stepDone u k).setReq u
        (some (({ r with conv := none, slotHeld := false } : Request).toWaiting r.dest (r.onward k).1 (r.onward k).2)) := rfl

theorem stepDone_req (s : State) (u v : Slot) (k : StepKind) (h : v ≠ u) : (s.stepDone u k).req v = s.req v :=
  (State.req_congr (ceaseOrder_trs _ u _) v).trans (releaseHeld_other true h)

theorem judgeStep_other {s : State} {u v : Slot} (h : v ≠ u) (r : Request) (st : PathStep) (m : Reported) :
    (s.judgeStep u r st m).req v = s.req v := by
  have hfail (settle : Bool) : (s.failRequest u settle).req v = s.req v := (endRequest_other h).trans (releaseHeld_other settle h)
  unfold State.judgeStep
  split
  · rw [completeStep_eq]
    split
    · exact (endRequest_other h).trans (stepDone_req s u v _ h)
    · rw [State.setReq_req, if_neg h, stepDone_req s u v _ h]
  · split
    · exact hfail true
    · split
      · rw [State.setReq_req, if_neg h]
      · split
        · rfl
        · exact hfail true

/-- A grant in WARNING meets a destination (R64): it stands, or it is withdrawn and its request waits or ends. -/
theorem rewarn_cases {s : State} {u : Slot} {r : Request} (hr : s.req u = some r) (c : ReqClass) (d : Stable) :
    let path := s.pathTo u d
    (path ≠ [] → path.head? = r.current → s.rewarn u r c d = s.setReq u (some { r with cls := c, dest := d, path := path, index := 1 }))
    ∧ (path = [] ∨ path.head? ≠ r.current → Given s (s.rewarn u r c d) u r false
      ∧ (s.rewarn u r c d).req u = if path = [] then none else
          some { ({ r with conv := none, slotHeld := false } : Request).toWaiting d path 1 with cls := c }) := by
  intro path
  have hcond : (path.head?.isSome && path.head? == r.current) = true ↔ path ≠ [] ∧ path.head? = r.current := by
    cases path <;> simp
  have hwith : (s.withdraw u).req u = _ := withdraw_request hr
  constructor
  · exact fun h1 h2 => if_pos (hcond.mpr ⟨h1, h2⟩)
  · intro h
    have hne : ¬ (path.head?.isSome && path.head? == r.current) = true := fun k => by
      obtain ⟨h1, h2⟩ := hcond.mp k
      exact h.elim h1 (fun h => h h2)
    have hre : s.rewarn u r c d = (s.withdraw u).waitOn u
        (({ r with conv := none, slotHeld := false } : Request).toWaiting r.dest r.path r.index) c d path := by
      unfold State.rewarn
      dsimp only
      rw [if_neg hne, hwith]
    rw [hre]
    refine ⟨given_of_released hr ((resources_withdraw s u).trans (resources_waitOn _ u _ c d path)), ?_⟩
    rw [waitOn_request]
    rfl

end Sys2Proof.Machine

namespace Sys2Proof.Proofs
open Sys2Proof.Machine

/-- Settles O58. -/
theorem stepSupervision : Obligations.StepSupervision := by
  unfold Obligations.StepSupervision
  have hpathTo (s : State) (u : Slot) (d : Stable) : s.pathTo u d = (match s.known u with
      | some k => pathOf k d
      | none => []) := by
    unfold State.pathTo
    cases s.known u <;> rfl
  refine ⟨fun s u r m changed hr hw => ?_, fun s u r hr hw => ?_, fun s u r st p m changed hr ho hc hp => ?_⟩
  · have ht := supervise_waiting hr hw m changed
    refine ⟨fun hm => ?_, fun hm hch => ?_, fun hm hch => ?_⟩
    · rw [ht, if_pos hm]
      exact ⟨cascade_endRequest s u, endRequest_req s u⟩
    · exact ht.trans ((if_neg hm).trans (if_neg (by simp [hch])))
    · rw [ht, if_neg hm, if_pos hch, hpathTo]
      refine ⟨cascade_waitOn .., fun v hv => waitOn_other hv, (waitOn_request ..).trans ?_⟩
      rw [hw]
      rfl
  · intro withdrawn rerouted
    have hgiven (t : State) (hothers : ∀ v, v ≠ u → t.req v = s.req v) (hg : Given s t u r false) : withdrawn t :=
      ⟨hothers, hg.converter, hg.place, hg.warned⟩
    have hend : CascadeFrame s ((s.withdraw u).endRequest u) ∧ withdrawn ((s.withdraw u).endRequest u)
        ∧ ((s.withdraw u).endRequest u).req u = none :=
      ⟨(cascade_withdraw s u).trans (cascade_endRequest _ u),
        hgiven _ (fun v hv => (endRequest_other hv).trans (withdraw_other hv))
          (given_of_released hr ((resources_withdraw s u).trans (resources_endRequest _ u))), endRequest_req _ u⟩
    have hre (c : ReqClass) (d : Stable) : rerouted (s.rewarn u r c d) c d := by
      obtain ⟨hstands, hgoes⟩ := rewarn_cases hr c d
      rw [hpathTo] at hstands hgoes
      refine ⟨hstands, fun h => ?_⟩
      obtain ⟨hg, hreq⟩ := hgoes h
      exact ⟨cascade_rewarn .., hgiven _ (fun v hv => rewarn_other hv) hg, hreq⟩
    refine ⟨fun m changed => ?_, ?_⟩
    · have ht := supervise_warning hr hw m changed
      refine ⟨fun hm => ?_, fun hm hch => ?_, fun hm hch => ?_⟩
      · rw [ht, if_pos hm]
        exact hend
      · exact ht.trans ((if_neg hm).trans (if_neg (by simp [hch])))
      · rw [ht, if_neg hm, if_pos hch]
        exact hre ..
    · intro demand t
      have hdemand : s.demand u = demand := rfl
      refine ⟨fun hd => ?_, fun d cls hd => ⟨fun he => ?_, fun he => ?_⟩⟩
      · have ht : t = _ := takeDemand_none_of_warning hr hw (hdemand.trans hd)
        rw [ht]
        exact hend
      · exact (takeDemand_of_warning hr hw (hdemand.trans hd)).trans (if_pos he)
      · have ht : t = _ := (takeDemand_of_warning hr hw (hdemand.trans hd)).trans (if_neg he)
        rw [ht]
        exact hre ..
  · intro t ends leaves
    have ht : t = s.judgeStep u r st m := supervise_ordered hr ho hc m changed
    have hends (x : State) (hx : SameResources (s.releaseHeld u true) x) (htx : t = x) : ends ∧ leaves := by
      obtain ⟨hconv, hplace, hwarned⟩ := given_of_released hr hx
      rw [← htx] at hconv hplace hwarned
      exact ⟨⟨hconv, hplace⟩, hwarned⟩
    refine ⟨fun v hv => (congrArg (State.req · v) ht).trans (judgeStep_other hv r st m), ?_⟩
    split
    · rename_i hm
      have ht' : t = s.completeStep u r st.kind := ht.trans (if_pos hm)
      have hdone : SameResources (s.releaseHeld u true) (s.stepDone u st.kind) :=
        (resources_post _ _ _ _).trans (resources_ceaseOrder _ u .supervised)
      have hframe : CascadeFrame (s.post .stepDone (some u) (some (stepCode st.kind))) (s.stepDone u st.kind) :=
        ((cascade_releaseHeld s u true).post_both (releaseHeld_ste s u true) _ _ _).trans (cascade_ceaseOrder _ u .supervised)
      intro path index
      rw [completeStep_eq] at ht'
      by_cases hlen : path.length < index
      · have hlast : t = (s.stepDone u st.kind).endRequest u := ht'.trans (if_pos hlen)
        obtain ⟨he, hl⟩ := hends _ (hdone.trans (resources_endRequest _ u)) hlast
        rw [hlast]
        exact ⟨he, hl, hframe.trans (cascade_endRequest _ u), (endRequest_req _ u).trans (if_pos hlen).symm⟩
      · have hnext := ht'.trans (if_neg hlen)
        obtain ⟨he, hl⟩ := hends _ (hdone.trans (resources_setReq _ u _)) hnext
        refine ⟨he, hl, hnext ▸ hframe.trans (cascade_setReq _ u _), ?_⟩
        rw [hnext, State.setReq_req, if_pos rfl, if_neg hlen]
        rfl
    · rename_i hm
      split
      · rename_i htrip
        have ht' : t = s.failRequest u true := ht.trans ((if_neg hm).trans (if_pos htrip))
        obtain ⟨he, hl⟩ := hends _ (resources_failRequest s u true) ht'
        rw [ht']
        exact ⟨he, hl, cascade_failRequest s u true, failRequest_ste s u true, endRequest_req _ u⟩
      · rename_i htrip
        split
        · rename_i hown
          have ht' : t = _ := ht.trans ((if_neg hm).trans ((if_neg htrip).trans (if_pos hown)))
          have hack : ((s.slotPort u).map (·.ackMode)).getD .confirmed = (s.portRec p).ackMode := by
            simp [State.slotPort, hp]
          rw [hack] at ht'
          exact ht'
        · rename_i hown
          have hrest := ht.trans ((if_neg hm).trans ((if_neg htrip).trans (if_neg hown)))
          split
          · rename_i hstill
            exact hrest.trans (if_pos hstill)
          · rename_i hstill
            have ht' := hrest.trans (if_neg hstill)
            obtain ⟨he, hl⟩ := hends _ ((resources_failRequest s u true).trans (resources_post _ _ _ _)) ht'
            rw [ht']
            exact ⟨he, hl, (cascade_failRequest s u true).post_both (failRequest_ste s u true) _ _ _, endRequest_req _ u⟩

end Sys2Proof.Proofs
end

section
/-! The scheduler's part of a cascade as a run of three kinds of act (R61 to R69): quiet ones that touch requests, orders and events
alone, the release of what a request in WARNING holds, and the granting of a step that passes its test. -/

namespace Sys2Proof.Machine

/-- What a request holds: its state, its converter and its waterway slot. -/
def Request.holding (r : Request) : ReqState × Option Conv × Bool := (r.state, r.conv, r.slotHeld)

/-- Resources and roster stay; a request holds what it held before, or is one that waits and holds nothing; and a port with no order
outstanding stays. -/
structure Quiet (x y : State) : Prop where
  frame : CascadeFrame x y
  ros : y.ros = x.ros
  alc : y.alc = x.alc
  resources : SameResources x y
  ports : ∀ p, (x.portRec p).outstanding = none → y.portRec p = x.portRec p
  requests : ∀ v q, y.req v = some q →
    q.holding = (.waiting, none, false) ∨ ∃ r, x.req v = some r ∧ q.holding = r.holding

theorem Quiet.refl (x : State) : Quiet x x := ⟨.refl x, rfl, rfl, .refl, fun _ _ => rfl, fun _ q h => .inr ⟨q, h, rfl⟩⟩

theorem Quiet.trans {x y z : State} (h : Quiet x y) (k : Quiet y z) : Quiet x z where
  frame := h.frame.trans k.frame
  ros := k.ros.trans h.ros
  alc := k.alc.trans h.alc
  resources := h.resources.trans k.resources
  ports p hp := (k.ports p (by rw [h.ports p hp]; exact hp)).trans (h.ports p hp)
  requests v q hq := by
    rcases k.requests v q hq with hw | ⟨r, hr, hh⟩
    · exact .inl hw
    · rcases h.requests v r hr with hw | ⟨r', hr', hh'⟩
      · exact .inl (hh.trans hw)
      · exact .inr ⟨r', hr', hh.trans hh'⟩

/-- A request is written that holds what the slot's request held, or waits and holds nothing. -/
theorem quiet_setReq (s : State) (u : Slot) (r : Option Request)
    (h : ∀ q, r = some q → q.holding = (.waiting, none, false) ∨ ∃ x, s.req u = some x ∧ q.holding = x.holding) :
    Quiet s (s.setReq u r) where
  frame := cascade_setReq s u r
  ros := rfl
  alc := rfl
  resources := resources_setReq s u r
  ports _ _ := rfl
  requests v q hq := by
    rw [State.setReq_req] at hq
    split at hq
    · rename_i hv
      rw [hv]
      exact h q hq
    · exact .inr ⟨q, hq, rfl⟩

theorem quiet_of_trs {s t : State} (frame : CascadeFrame s t) (ros : t.ros = s.ros) (alc : t.alc = s.alc) (trs : t.trs = s.trs)
    (ports : ∀ p, (s.portRec p).outstanding = none → t.portRec p = s.portRec p) : Quiet s t :=
  ⟨frame, ros, alc, .of_trs trs, ports, fun v q h => .inr ⟨q, (State.req_congr trs v).symm.trans h, rfl⟩⟩

theorem quiet_post (s : State) (k : EventKind) (u : Option Slot) (v : Option Int) : Quiet s (s.post k u v) :=
  quiet_of_trs (cascade_post s k u v) rfl rfl rfl fun _ _ => rfl

theorem quiet_ceaseOrder (s : State) (u : Slot) (q : Purpose) : Quiet s (s.ceaseOrder u q) :=
  quiet_of_trs (cascade_ceaseOrder s u q) (ceaseOrder_ros s u q) (ceaseOrder_planning s u q).2 (ceaseOrder_trs s u q) fun p hp => by
    rcases ceaseOrder_portRec s u q p with h | h
    · exact h
    · rw [h, ← hp]

theorem quiet_endRequest (s : State) (u : Slot) : Quiet s (s.endRequest u) :=
  (quiet_setReq s u none (by simp)).trans (quiet_ceaseOrder (s.setReq u none) u .supervised)

theorem quiet_waitOn {s : State} {u : Slot} {r : Request} (hr : s.req u = some r) (hw : r.state = .waiting)
    (c : ReqClass) (d : Stable) (path : List PathStep) : Quiet s (s.waitOn u r c d path) := by
  unfold State.waitOn
  split
  · exact quiet_endRequest s u
  · refine quiet_setReq s u _ fun q hq => .inr ⟨r, hr, ?_⟩
    cases hq
    show (ReqState.waiting, r.conv, r.slotHeld) = (r.state, r.conv, r.slotHeld)
    rw [hw]

theorem quiet_counter (s : State) (n : Word) : Quiet s (s.setTrs { s.trs with entryCounter := n }) :=
  ⟨(Micro.counter (keep := false) s n).frame, rfl, rfl, ⟨rfl, rfl, rfl, rfl⟩, fun _ _ => rfl, fun _ q h => .inr ⟨q, h, rfl⟩⟩

theorem quiet_compareDemand (s : State) (u : Slot) : Quiet s (s.compareDemand u) := by
  have hnew (c : ReqClass) (d : Stable) (path : List PathStep) (n : Word) : Quiet s (s.setReq u (some (.new c d path n))) :=
    quiet_setReq s u _ fun q hq => .inl (by cases hq; rfl)
  unfold State.compareDemand
  split
  · split
    · exact (hnew ..).trans (quiet_counter _ _)
    · exact .refl s
  · exact .refl s

theorem quiet_setPln (s : State) (b : Pln) (table : b.table = s.pln.table) (selected : b.selected = s.pln.selected)
    (proposal : b.proposal = s.pln.proposal) (gap : b.gap = s.pln.gap) : Quiet s (s.setPln b) :=
  quiet_of_trs (cascade_setPln s b table selected proposal gap) rfl rfl rfl fun _ _ => rfl

theorem quiet_notePlanShort (s : State) (a : Assignment) : Quiet s (s.notePlanShort a) := by
  unfold State.notePlanShort
  dsimp only
  split
  · exact (quiet_setPln s _ (by rfl) (by rfl) (by rfl) (by rfl)).trans (quiet_post _ _ _ _)
  · exact quiet_setPln s _ rfl rfl rfl rfl

/-- A run of the scheduler's acts. -/
inductive Follows (s : State) : State → Prop where
  | refl : Follows s s
  | quiet {x y : State} (h : Follows s x) (k : Quiet x y) : Follows s y
  | release {x : State} (h : Follows s x) {v : Slot} {r : Request} (hr : x.req v = some r) (hw : r.state = .warning) :
      Follows s (x.releaseHeld v false)
  | grant {x : State} (h : Follows s x) {v : Slot} {r : Request} {st : PathStep} (hr : x.req v = some r) (hw : r.state = .waiting)
      (hc : r.current = some st) (ht : x.testGrant v st = .granted) : Follows s (x.grantStep v r st)

theorem Follows.trans {s t r : State} (h : Follows s t) (k : Follows t r) : Follows s r := by
  induction k with
  | refl => exact h
  | quiet _ k ih => exact ih.quiet k
  | release _ hr hw ih => exact ih.release hr hw
  | grant _ hr hw hc ht ih => exact ih.grant hr hw hc ht

theorem Quiet.follows {s t : State} (h : Quiet s t) : Follows s t := .quiet .refl h

theorem Follows.foldl {α : Type} {f : State → α → State} (h : ∀ s a, Follows s (f s a)) (xs : List α) (s : State) :
    Follows s (xs.foldl f s) := by
  induction xs generalizing s with
  | nil => exact .refl
  | cons x xs ih => exact (h s x).trans (ih _)

/-! ## The operations as runs -/

theorem follows_withdraw {s : State} {u : Slot} {r : Request} (hr : s.req u = some r) (hw : r.state = .warning) : Follows s (s.withdraw u) := by
  refine (Follows.release .refl hr hw).quiet ?_
  have hreq : (s.releaseHeld u false).req u = some { r with conv := none, slotHeld := false } := by rw [releaseHeld_req, hr]; rfl
  unfold State.withdraw
  dsimp only
  rw [hreq]
  refine quiet_setReq _ u _ fun q hq => .inl ?_
  cases hq
  rfl

theorem follows_rewarn {s : State} {u : Slot} {r : Request} (hr : s.req u = some r) (hw : r.state = .warning) (c : ReqClass) (d : Stable) :
    Follows s (s.rewarn u r c d) := by
  unfold State.rewarn
  dsimp only
  split
  · refine (quiet_setReq s u _ fun q hq => .inr ⟨r, hr, ?_⟩).follows
    cases hq
    rfl
  · rw [withdraw_request hr]
    exact (follows_withdraw hr hw).quiet (quiet_waitOn (withdraw_request hr) rfl c d _)

theorem follows_takeDemand (s : State) (u : Slot) : Follows s (s.takeDemand u) := by
  unfold State.takeDemand
  split
  · exact (quiet_compareDemand s u).follows
  · rename_i r hr
    have hsame {q : Request} (h : q.holding = r.holding) : Follows s (s.setReq u (some q)) :=
      (quiet_setReq s u (some q) fun x hx => .inr ⟨r, hr, by cases hx; exact h⟩).follows
    split
    · exact (quiet_endRequest s u).follows
    · rename_i hw _
      split
      · exact hsame rfl
      · exact (quiet_waitOn hr hw _ _ _).follows
    · rename_i hw _
      exact (follows_withdraw hr hw).quiet (quiet_endRequest _ u)
    · rename_i hw _
      split
      · exact hsame rfl
      · exact follows_rewarn hr hw ..
    · exact hsame rfl
    · exact hsame rfl

theorem follows_dropGrant (before s : State) (u : Slot) : Follows s (State.dropGrant before s u) := by
  unfold State.dropGrant
  split
  · rename_i h
    obtain ⟨r, hr, hw⟩ : ∃ r, s.req u = some r ∧ r.state = .warning := by
      simp only [Bool.and_eq_true, Option.any_eq_true, beq_iff_eq] at h
      exact h.2
    exact follows_withdraw hr hw
  · exact .refl

theorem follows_assign (s : State) : Follows s s.assign := by
  unfold State.assign
  split
  · exact .refl
  · have hhand (x : State) (u : Slot) : Follows x (State.handDesired s.pln.desired x u) := by
      unfold State.handDesired
      split
      · exact .refl
      · exact follows_takeDemand x u
    exact ((quiet_setPln s _ (by rfl) (by rfl) (by rfl) (by rfl)).trans (quiet_notePlanShort _ _)).follows.trans (.foldl hhand _ _)

theorem follows_replan (before s : State) : Follows s (State.replan before s) := by
  have hdrop (x : State) (u : Slot) : Follows x (State.dropDesired before x u) := by
    unfold State.dropDesired
    split
    · exact (quiet_setPln x _ (by rfl) (by rfl) (by rfl) (by rfl)).follows.trans (follows_takeDemand _ u)
    · exact .refl
  unfold State.replan
  split
  · exact .refl
  · split
    · exact follows_assign s
    · exact .foldl hdrop _ _

theorem follows_planStage (s before : State) (c : Causes) : Follows s (s.planStage before c) := by
  have htail (x : State) : Follows x (if autoChanged before x || c.replan then State.replan before x else x) := by
    split
    · exact follows_replan before x
    · exact .refl
  exact ((Follows.foldl (follows_dropGrant before) Slot.all s).trans (htail _)).trans (.foldl follows_takeDemand c.hand _)

theorem follows_tryGrant (s : State) (u : Slot) : Follows s (s.tryGrant u) := by
  unfold State.tryGrant
  split
  · exact .refl
  · rename_i r hr
    split
    · exact .refl
    · rename_i hw
      split
      · exact .refl
      · rename_i st hc
        split
        · rename_i ht
          exact .grant .refl hr (not_not.mp hw) hc ht
        · exact (quiet_setReq s u _ fun q hq => .inr ⟨r, hr, by cases hq; rfl⟩).follows

theorem follows_grantStage (s before : State) (c : Causes) : Follows s (s.grantStage before c) := by
  unfold State.grantStage
  split
  · exact .foldl follows_tryGrant _ s
  · exact .refl

/-- A cascade is a run of the scheduler's acts, and an allocation at the end or none. -/
theorem follows_finish (s before : State) (c : Causes) : ∃ m, Follows s m ∧ (s.finish before c = m ∨ s.finish before c = m.allocate) := by
  refine ⟨_, (follows_planStage s before c).trans (follows_grantStage _ before c), ?_⟩
  unfold State.finish State.allocStage
  split
  · exact .inr rfl
  · exact .inl rfl

end Sys2Proof.Machine
end

section
/-! What a cascade leaves of a slot whose port is not QUALIFIED: its records, its orphan record and converter (R77, R79, R103). -/

namespace Sys2Proof.Machine

/-! ## An allocation -/

/-- Nothing is sent to a port that is not QUALIFIED, nor noted of its slot. -/
structure Aloof (s t : State) : Prop where
  frame : CascadeFrame s t
  port : ∀ p, (s.portRec p).state ≠ .qualified → t.portRec p = s.portRec p
  unit : ∀ u, s.portState u ≠ .qualified → t.unitRec u = s.unitRec u

theorem Aloof.refl (s : State) : Aloof s s := ⟨.refl s, fun _ _ => rfl, fun _ _ => rfl⟩

theorem Aloof.trans {s t r : State} (h : Aloof s t) (k : Aloof t r) : Aloof s r where
  frame := h.frame.trans k.frame
  port p hp := (k.port p (by rw [h.frame.play.port_state]; exact hp)).trans (h.port p hp)
  unit u hu := (k.unit u (by rw [h.frame.play.portState]; exact hu)).trans (h.unit u hu)

theorem Aloof.of_blocks {s t : State} (frame : CascadeFrame s t) (ports : t.ports = s.ports) (ros : t.ros = s.ros) : Aloof s t :=
  ⟨frame, fun p _ => State.portRec_congr ports p, fun u _ => State.unitRec_congr ros u⟩

theorem aloof_sendSetpoint (s : State) (u : Slot) (v : Int) (hq : s.portState u = .qualified) : Aloof s (s.sendSetpoint u v) := by
  have hframe := cascade_sendSetpoint s u v
  refine ⟨hframe, fun p hp => ?_, fun w hw => ?_⟩
  · unfold State.sendSetpoint
    split
    · rfl
    · rename_i q hport
      rw [portState_of_port hport] at hq
      have hne : p ≠ q := by
        rintro rfl
        exact hp hq
      exact hand_other _ q p _ hne
  · unfold State.sendSetpoint
    split
    · rfl
    · have hne : w ≠ u := fun h => hw (h ▸ hq)
      dsimp only
      rw [State.unitRec_congr (hand_ros _ _ _), State.setUnit_unitRec, if_neg hne]

theorem aloof_allocate (s : State) : Aloof s s.allocate := by
  have hfold : ∀ (us : List Slot) (x : State), x.alc.last = some s.allocation → (∀ u, x.portState u = s.portState u) →
      Aloof x (us.foldl State.emitSetpoint x) := by
    intro us
    induction us with
    | nil => exact fun x _ _ => .refl x
    | cons u us ih =>
      intro x ha hq
      have hemit : Aloof x (x.emitSetpoint u) := by
        unfold State.emitSetpoint
        rw [ha]
        dsimp only [Option.map_some]
        split
        · rename_i h
          exact aloof_sendSetpoint x u _ (by rw [hq, qualified_of_line h.1])
        · exact .refl x
      exact hemit.trans (ih _ (by rw [emit_alc, ha]) fun v => by rw [(cascade_emitSetpoint x u).play.portState, hq])
  have hcasc := (cascade_setAlc s s.allocated).trans (cascade_postAllocFlags s.alc (s.setAlc s.allocated))
  have hblocks : ((s.setAlc s.allocated).postAllocFlags s.alc).ports = s.ports ∧ ((s.setAlc s.allocated).postAllocFlags s.alc).ros = s.ros
      ∧ ((s.setAlc s.allocated).postAllocFlags s.alc).alc.last = some s.allocation := by
    unfold State.postAllocFlags
    split_ifs <;> exact ⟨rfl, rfl, rfl⟩
  exact (Aloof.of_blocks hcasc hblocks.1 hblocks.2.1).trans (hfold _ _ hblocks.2.2 fun u => hcasc.play.portState u)

/-! ## A grant -/

section
variable {s : State} {u : Slot} {r : Request} {st : PathStep}

theorem port_of_dispatchable (h : s.dispatchable u = true) : ∃ p, (s.unitRec u).port = some p ∧ (s.portRec p).state = .qualified := by
  have hstate := dispatchable_qualified h
  cases hp : (s.unitRec u).port with
  | none => simp [State.portState, State.slotPort, hp] at hstate
  | some p => exact ⟨p, rfl, (portState_of_port hp).symm.trans hstate⟩

theorem orderStep_portRec {p : Port} (h : (s.unitRec u).port ≠ some p) : (s.orderStep u).portRec p = s.portRec p := by
  unfold State.orderStep
  split
  · rename_i q _ hq
    split
    · rfl
    · have hne : p ≠ q := by
        rintro rfl
        exact h hq
      exact (sendOrder_portRec s q p _ _ .supervised).trans (if_neg hne)
  · rfl

theorem orderStep_ros : (s.orderStep u).ros = s.ros := by
  unfold State.orderStep
  split
  · split
    · rfl
    · exact sendOrder_ros ..
  · rfl

theorem grantStep_portRec {p : Port} (h : (s.unitRec u).port ≠ some p) : (s.grantStep u r st).portRec p = s.portRec p := by
  have hx (q : Option Request) : ((s.granting u st).setReq u q).portRec p = s.portRec p
      ∧ (((s.granting u st).setReq u q).unitRec u).port ≠ some p := by
    rw [only_granting s u st]
    exact ⟨rfl, h⟩
  rw [grantStep_eq]
  split
  · exact (orderStep_portRec (hx _).2).trans (hx _).1
  · split
    · exact (orderStep_portRec (hx _).2).trans (hx _).1
    · exact (hx _).1

theorem grantStep_ros : (s.grantStep u r st).ros = s.ros := by
  have hx : (s.granting u st).ros = s.ros := by
    rw [only_granting s u st]
    rfl
  rw [grantStep_eq]
  split
  · exact orderStep_ros.trans hx
  · split
    · exact orderStep_ros.trans hx
    · exact hx

/-- What a request holds once its step has been granted. -/
theorem grantStep_holding (hc : r.current = some st) (ht : s.testGrant u st = .granted) :
    ∃ q, (s.grantStep u r st).req u = some q ∧ q.granted = true ∧ q.conv = s.chosen st ∧ q.slotHeld = st.flowChanging := by
  obtain ⟨p, hp, -⟩ := port_of_dispatchable (testGrant_dispatchable ht)
  obtain ⟨hwarned, hordered⟩ := grantStep_request (r := r) hc hp
  by_cases hl : ∃ lead, s.warningLead u st.kind = some lead ∧ lead ≠ 0
  · obtain ⟨lead, hlead, hne⟩ := hl
    exact ⟨_, (hwarned lead hlead hne).1, rfl, rfl, rfl⟩
  · refine ⟨_, (hordered fun lead hlead => ?_).1, rfl, rfl, rfl⟩
    by_contra hne
    exact hl ⟨lead, hlead, hne⟩

/-- A converter that a granted step takes was free. -/
theorem chosen_free {c : Conv} (h : s.chosen st = some c) : s.free c := by
  unfold State.chosen at h
  split at h
  · exact (freeConverter_some h).1
  · cases h

end

/-! ## A run of the scheduler's acts -/

section
variable {s t : State}

theorem Follows.frame (h : Follows s t) : CascadeFrame s t := by
  induction h with
  | refl => exact .refl s
  | quiet _ k ih => exact ih.trans k.frame
  | release _ hr hw ih => exact ih.trans (cascade_releaseHeld _ _ false)
  | grant _ hr hw hc ht ih => exact ih.trans (cascade_grantStep _ _ _ _)

theorem releaseHeld_only (x : State) (u : Slot) (settle : Bool) : x.releaseHeld u settle = x.setTrs (x.releaseHeld u settle).trs :=
  only_releaseHeld x u settle

theorem Follows.ros (h : Follows s t) : t.ros = s.ros := by
  induction h with
  | refl => rfl
  | quiet _ k ih => exact k.ros.trans ih
  | @release x _ v _ _ _ ih =>
    rw [releaseHeld_only x v false]
    exact ih
  | grant _ hr hw hc ht ih => exact grantStep_ros.trans ih

/-- A port that is not QUALIFIED and has no order outstanding stays as it is. -/
theorem Follows.portRec (h : Follows s t) {p : Port} (hq : (s.portRec p).state ≠ .qualified) (ho : (s.portRec p).outstanding = none) :
    t.portRec p = s.portRec p := by
  induction h with
  | refl => rfl
  | quiet _ k ih => exact (k.ports p (by rw [ih]; exact ho)).trans ih
  | @release x _ v _ _ _ ih =>
    rw [releaseHeld_only x v false]
    exact ih
  | @grant x _ v r st _ _ _ ht ih =>
    refine (grantStep_portRec fun hp => hq ?_).trans ih
    obtain ⟨q, hq', hstate⟩ := port_of_dispatchable (testGrant_dispatchable ht)
    rw [hp] at hq'
    cases hq'
    rw [← ih, hstate]

theorem Follows.orphan (h : Follows s t) (u : Slot) : t.orphan u = s.orphan u := by
  induction h with
  | refl => rfl
  | quiet _ k ih => exact (k.resources.orphan u).trans ih
  | @release x _ v r hr _ ih =>
    rw [releaseHeld_eq hr, State.setReq_orphan, State.unwarn_orphan, State.dropPlace_orphan, State.dropConverter_only]
    exact ih
  | @grant x _ v r st _ _ _ _ ih => rw [(resources_grantStep x v st r).orphan, granting_orphan, ih]

/-- A slot that is not dispatchable does not join the warned steps. -/
theorem Follows.unwarned (h : Follows s t) {u : Slot} (hd : s.dispatchable u = false)
    (hw : ∀ w q, s.waterwayRec w = some q → u ∉ q.warned) : ∀ w q, t.waterwayRec w = some q → u ∉ q.warned := by
  induction h with
  | refl => exact hw
  | quiet _ k ih =>
    intro w q hq
    rw [k.resources.waterwayRec] at hq
    exact ih w q hq
  | @release x _ v r hr _ ih =>
    intro w q hq
    rw [releaseHeld_waterwayRec hr] at hq
    obtain ⟨q', hq', rfl⟩ := Option.map_eq_some_iff.mp hq
    have hwarned : (if r.slotHeld = true ∧ x.waterwayOf v = some w then q'.release x.clock false else q').warned = q'.warned := by
      split <;> rfl
    rw [WaterwayRec.unwarn_warned, hwarned]
    exact fun hmem => ih w q' hq' (List.mem_filter.mp hmem).1
  | @grant x hx v r st _ _ _ ht ih =>
    intro w q hq
    have hne : u ≠ v := by
      rintro rfl
      have := testGrant_dispatchable ht
      rw [hx.frame.play.dispatchable, hd] at this
      cases this
    rw [(resources_grantStep x v st r).waterwayRec, granting_waterwayRec] at hq
    split at hq
    · obtain ⟨q', hq', rfl⟩ := Option.map_eq_some_iff.mp hq
      have hwarned := congrArg Prod.fst (q'.grants_warned v st x.clock)
      dsimp only at hwarned
      rw [hwarned]
      split
      · simpa [hne] using ih w q' hq'
      · exact ih w q' hq'
    · exact ih w q hq

/-- A converter held that no request has is held on. -/
theorem Follows.held (h : Follows s t) {c : Conv} {x : Holder} (hc : s.holder c = some x)
    (hn : ∀ v q, s.req v = some q → q.conv ≠ some c) : t.holder c = some x ∧ ∀ v q, t.req v = some q → q.conv ≠ some c := by
  induction h with
  | refl => exact ⟨hc, hn⟩
  | @quiet y z _ k ih =>
    obtain ⟨hh, hr⟩ := ih
    refine ⟨(k.resources.holder c).trans hh, fun v q hq => ?_⟩
    rcases k.requests v q hq with hw | ⟨q', hq', hw⟩
    · have : q.conv = none := congrArg (·.2.1) hw
      rw [this]
      nofun
    · have : q.conv = q'.conv := congrArg (·.2.1) hw
      rw [this]
      exact hr v q' hq'
  | @release y _ v r hr _ ih =>
    obtain ⟨hh, hreq⟩ := ih
    refine ⟨?_, fun w q hq => ?_⟩
    · rw [releaseHeld_holder hr, if_neg (hreq v r hr)]
      exact hh
    · by_cases hv : w = v
      · subst hv
        rw [releaseHeld_req, hr] at hq
        cases hq
        nofun
      · rw [releaseHeld_other false hv] at hq
        exact hreq w q hq
  | @grant y _ v r st hr _ hcur ht ih =>
    obtain ⟨hh, hreq⟩ := ih
    have hfree : y.chosen st ≠ some c := fun hch => by
      have := (chosen_free hch).2
      rw [hh] at this
      cases this
    refine ⟨?_, fun w q hq => ?_⟩
    · rw [(resources_grantStep y v st r).holder, granting_holder, if_neg hfree]
      exact hh
    · by_cases hv : w = v
      · subst hv
        obtain ⟨q', hq', -, hconv, -⟩ := grantStep_holding hcur ht
        rw [hq'] at hq
        cases hq
        rw [hconv]
        exact hfree
      · rw [Proofs.grantStep_other r st hv] at hq
        exact hreq w q hq

end

end Sys2Proof.Machine
end

section
/-! The request that a slot gets by its demand, followed through a cascade (R61, R62). -/

namespace Sys2Proof.Machine

theorem compareDemand_of_demand {s : State} {u : Slot} {d k : Stable} {c : ReqClass} (hr : s.req u = none)
    (hd : s.demand u = some (d, c)) (hk : s.known u = some k) : (s.compareDemand u).req u
      = if s.pli.part ≠ .standby ∧ k ≠ d then some (.new c d (pathOf k d) s.trs.entryCounter) else none := by
  have hcond : (s.governs && k != d) = true ↔ s.pli.part ≠ .standby ∧ k ≠ d := by simp [State.governs]
  unfold State.compareDemand
  simp only [hr, hd, hk]
  by_cases h : s.pli.part ≠ .standby ∧ k ≠ d
  · rw [if_pos (hcond.mpr h), if_pos h]
    exact (State.setReq_req s u u _).trans (if_pos rfl)
  · rw [if_neg (fun x => h (hcond.mp x)), if_neg h, hr]

theorem compareDemand_of_none {s : State} {u : Slot} (hr : s.req u = none) (h : s.demand u = none ∨ s.known u = none) :
    (s.compareDemand u).req u = none := by
  unfold State.compareDemand
  rcases h with h | h
  · simp only [hr, h]
  · cases hd : s.demand u <;> simp only [hr, h]

/-- The request that the comparison of demand and known mode makes (R62). -/
theorem compareDemand_renewed {s : State} {u : Slot} (hr : s.req u = none) :
    (s.compareDemand u).req u = s.renewed u s.trs.entryCounter (if s.automatic u then s.pln.desired.get u else none) := by
  unfold State.renewed
  cases hk : s.known u with
  | none => exact compareDemand_of_none hr (.inr hk)
  | some k =>
    cases hh : (s.unitRec u).hold with
    | some h =>
      dsimp only
      cases he : h.emergency with
      | true => exact (compareDemand_of_none hr (.inl (by simp [State.demand, hh, he]))).trans (by simp)
      | false =>
        rw [compareDemand_of_demand hr (by simp [State.demand, hh, he]; exact ⟨rfl, rfl⟩) hk]
        simp
    | none =>
      cases hd : (if s.automatic u then s.pln.desired.get u else none) with
      | none => exact compareDemand_of_none hr (.inl (by simpa [State.demand, hh] using hd))
      | some d =>
        refine compareDemand_of_demand hr ?_ hk
        split at hd
        · rename_i ha
          simp [State.demand, hh, ha, hd]
        · cases hd

theorem renewed_congr {s t : State} {u : Slot} (hk : t.known u = s.known u)
    (hh : (t.unitRec u).hold.map (fun h => (h.mode, h.emergency)) = (s.unitRec u).hold.map (fun h => (h.mode, h.emergency)))
    (hp : t.pli.part = s.pli.part) (e : Word) (d : Option Stable) : t.renewed u e d = s.renewed u e d := by
  unfold State.renewed
  rw [hk, hp]
  generalize (t.unitRec u).hold = a at hh ⊢
  generalize (s.unitRec u).hold = b at hh ⊢
  match a, b, hh with
  | none, none, _ => rfl
  | some x, some y, hh =>
    obtain ⟨hm, he⟩ : x.mode = y.mode ∧ x.emergency = y.emergency := by simpa using hh
    cases s.known u with
    | none => rfl
    | some k =>
      dsimp only
      rw [hm, he]

theorem PlayFrame.renewed {s t : State} (h : PlayFrame s t) (u : Slot) (e : Word) (d : Option Stable) :
    t.renewed u e d = s.renewed u e d :=
  renewed_congr (h.known u) (by rw [h.unit_hold]) (congrArg Pli.part h.pli) e d

/-- A request renewed without a desired mode is a held slot's, in WAITING, with nothing blocked. -/
theorem of_renewed {s : State} {u : Slot} {e : Word} {r : Request} (h : s.renewed u e = some r) :
    s.demand u = some (r.dest, .manual) ∧ r.cls = .manual ∧ r.state = .waiting ∧ r.blocked = none := by
  unfold State.renewed at h
  split at h
  · rename_i k x _ hk hh
    split at h
    · rename_i hc
      cases h
      exact ⟨by simp [State.demand, hh, hc.1, Request.new], rfl, rfl, rfl⟩
    · cases h
  · simp at *
  · cases h

theorem renewed_none_of {s : State} {u : Slot} {e : Word} {d : Option Stable} (h : s.renewed u e d = none) (e' : Word) :
    s.renewed u e' d = none := by
  unfold State.renewed at h ⊢
  split
  · split at h <;> simp_all
  · split at h <;> simp_all
  · rfl

theorem takeDemand_waiting {s : State} {u : Slot} {r : Request} (hr : s.req u = some r) (hw : r.state = .waiting) : s.takeDemand u
    = match s.demand u with
      | none => s.endRequest u
      | some (d, c) => if d = r.dest then s.setReq u (some { r with cls := c }) else s.waitOn u r c d (s.pathTo u d) := by
  unfold State.takeDemand
  simp only [hr, hw]
  cases s.demand u <;> rfl

theorem dropGrant_waiting {before x : State} {u : Slot} (hw : ∀ r, x.req u = some r → r.state = .waiting) :
    State.dropGrant before x u = x := by
  unfold State.dropGrant
  rw [if_neg]
  cases hr : x.req u with
  | none => simp
  | some r => simp [hw r hr]

/-- Grants do nothing to a slot that is not dispatchable but clear its blocked reason. -/
theorem tryGrant_undispatchable {s : State} {u v : Slot} (hd : s.dispatchable u = false) : (s.tryGrant v).req u = s.req u
    ∨ (s.tryGrant v).req u = (s.req u).map (fun r => { r with blocked := none }) := by
  by_cases hv : u = v
  · subst hv
    unfold State.tryGrant
    cases hr : s.req u with
    | none => exact .inl hr
    | some r =>
      dsimp only
      split
      · exact .inl hr
      · split
        · exact .inl hr
        · rename_i st _
          have ht : s.testGrant u st = .fails none := testGrant_unable fun h => by
            have := h.2.1
            rw [hd] at this
            cases this
          rw [ht]
          exact .inr ((State.setReq_req s u u _).trans (if_pos rfl))
  · exact .inl (Proofs.tryGrant_other hv)

theorem evalGrants_undispatchable {s : State} {u : Slot} (hd : s.dispatchable u = false) : s.evalGrants.req u = s.req u
    ∨ s.evalGrants.req u = (s.req u).map (fun r => { r with blocked := none }) := by
  have hfold : ∀ (vs : List Slot) (x : State), x.dispatchable u = false → (vs.foldl State.tryGrant x).req u = x.req u
      ∨ (vs.foldl State.tryGrant x).req u = (x.req u).map (fun r => { r with blocked := none }) := by
    intro vs
    induction vs with
    | nil => exact fun x _ => .inl rfl
    | cons v vs ih =>
      intro x hx
      have hnext : (x.tryGrant v).dispatchable u = false := by rw [(cascade_tryGrant x v).play.dispatchable, hx]
      rcases ih _ hnext with h | h <;> rcases tryGrant_undispatchable (v := v) hx with k | k
      · exact .inl (h.trans k)
      · exact .inr (h.trans k)
      · exact .inr (h.trans (by rw [k]))
      · refine .inr (h.trans ?_)
        rw [k, Option.map_map]
        rfl
  exact hfold _ s hd

/-! ## A slot that is not dispatchable -/

section
variable {m before : State} {c : Causes} {u : Slot} (hd : m.dispatchable u = false)
include hd

theorem not_automatic {x : State} (f : CascadeFrame m x) : x.automatic u = false := by
  unfold State.automatic
  rw [f.play.dispatchable, hd]
  rfl

theorem demand_undispatchable {x : State} (f : CascadeFrame m x) : x.demand u = m.demand u := by
  have h1 := not_automatic hd f
  have h2 := not_automatic hd (.refl m)
  unfold State.demand
  rw [f.play.unit_hold, h1, h2]
  rfl

theorem takeDemand_renewed {x : State} {e : Word} (f : CascadeFrame m x) (h : x.req u = m.renewed u e) :
    (x.takeDemand u).req u = m.renewed u e := by
  cases hn : m.renewed u e with
  | none =>
    rw [hn] at h
    unfold State.takeDemand
    simp only [h]
    rw [compareDemand_renewed h, not_automatic hd f, f.play.renewed]
    exact renewed_none_of hn _
  | some r =>
    rw [hn] at h
    obtain ⟨hdem, hcls, hw, -⟩ := of_renewed hn
    rw [takeDemand_waiting h hw, demand_undispatchable hd f, hdem]
    simp only [if_true, State.setReq_req, ← hcls]

theorem finish_undispatchable : (m.finish before c).req u = (m.planStage before c).req u
    ∨ (m.finish before c).req u = ((m.planStage before c).req u).map (fun r => { r with blocked := none }) := by
  have halloc : ∀ x : State, (x.allocStage before c).req u = x.req u := fun x => by
    unfold State.allocStage
    split
    · exact State.req_congr (allocate_trs_eq x) u
    · rfl
  rw [State.finish, halloc, State.grantStage]
  split
  · exact evalGrants_undispatchable (by rw [(cascade_planStage m before c).play.dispatchable, hd])
  · exact .inl rfl

/-- A request renewed in the planning stage is the request at the end of the cascade. -/
theorem finish_of_renewed {e : Word} (h : (m.planStage before c).req u = m.renewed u e) : (m.finish before c).req u = m.renewed u e := by
  rcases finish_undispatchable (before := before) (c := c) hd with hfin | hfin
  · rw [hfin, h]
  · rw [hfin, h]
    cases hn : m.renewed u e with
    | none => rfl
    | some r =>
      obtain ⟨-, -, -, hb⟩ := of_renewed hn
      rw [Option.map_some, ← hb]

/-- A request renewed stays as it is. -/
theorem finish_renewed {e : Word} (h : m.req u = m.renewed u e) : (m.finish before c).req u = m.renewed u e := by
  refine finish_of_renewed hd (planStage_keeps (P := fun x => CascadeFrame m x ∧ x.req u = m.renewed u e)
    (fun x hx => ⟨hx.1.trans (cascade_takeDemand x u), takeDemand_renewed hd hx.1 hx.2⟩)
    (fun x y f hreq hx => ⟨hx.1.trans f, hreq.trans hx.2⟩) (fun x hx => ?_) ⟨.refl m, h⟩).2
  rw [dropGrant_waiting fun r hr => (of_renewed (hx.2.symm.trans hr)).2.2.1]
  exact hx

omit hd in
/-- What the taking of the demand of a slot without a grant keeps of its request holds where the cascade takes it at last. -/
theorem planStage_taken {P : Option Request → Prop} (start : P (m.req u)) (waits : ∀ q, P (some q) → q.state = .waiting)
    (take : ∀ x, CascadeFrame m x → P (x.req u) → P ((x.takeDemand u).req u)) : ∃ x, CascadeFrame m x ∧ P (x.req u)
      ∧ m.planStage before { c with hand := [u] } = x.takeDemand u := by
  have h := planStage_keeps (P := fun y => CascadeFrame m y ∧ P (y.req u)) (before := before) (c := { c with hand := [] })
    (fun y hy => ⟨hy.1.trans (cascade_takeDemand y u), take y hy.1 hy.2⟩)
    (fun y z f hreq hy => ⟨hy.1.trans f, hreq ▸ hy.2⟩)
    (fun y hy => by
      rw [dropGrant_waiting fun r hr => waits r (hr ▸ hy.2)]
      exact hy) ⟨.refl m, start⟩
  exact ⟨_, h.1, h.2, planStage_hand m before c u⟩

theorem finish_hand_none (h : m.req u = none) : ∃ e, (m.finish before { c with hand := [u] }).req u = m.renewed u e := by
  let P : Option Request → Prop := fun o => o = none ∨ ∃ e, o = m.renewed u e
  have htake (y : State) (f : CascadeFrame m y) (hy : P (y.req u)) : ∃ e, (y.takeDemand u).req u = m.renewed u e := by
    rcases hy with hnone | ⟨e, he⟩
    · have hty : y.takeDemand u = y.compareDemand u := by
        unfold State.takeDemand
        simp only [hnone]
      refine ⟨y.trs.entryCounter, ?_⟩
      rw [hty, compareDemand_renewed hnone, not_automatic hd f, f.play.renewed]
      rfl
    · exact ⟨e, takeDemand_renewed hd f he⟩
  obtain ⟨x, hf, hx, hplan⟩ := planStage_taken (before := before) (c := c) (P := P) (.inl h)
    (fun q hq => hq.elim nofun fun ⟨e, he⟩ => (of_renewed he.symm).2.2.1) (fun y f hy => .inr (htake y f hy))
  obtain ⟨e, he⟩ := htake x hf hx
  exact ⟨e, finish_of_renewed hd (hplan ▸ he)⟩

variable {q : Request} (hq : m.req u = some q) (hw : q.state = .waiting)
include hq hw

theorem finish_hand_dropped (hdem : m.demand u = none) : (m.finish before { c with hand := [u] }).req u = none := by
  have htake (y : State) (f : CascadeFrame m y) (hy : y.req u = some q ∨ y.req u = none) : (y.takeDemand u).req u = none := by
    rcases hy with hy | hy
    · rw [takeDemand_waiting hy hw, demand_undispatchable hd f, hdem]
      exact endRequest_req y u
    · have hty : y.takeDemand u = y.compareDemand u := by
        unfold State.takeDemand
        simp only [hy]
      rw [hty]
      exact compareDemand_of_none hy (.inl ((demand_undispatchable hd f).trans hdem))
  obtain ⟨x, hf, hx, hplan⟩ := planStage_taken (before := before) (c := c) (P := fun o => o = some q ∨ o = none) (.inl hq)
    (fun r hr => hr.elim (fun h => by cases h; exact hw) nofun) (fun y f hy => .inr (htake y f hy))
  have hlast : (m.planStage before { c with hand := [u] }).req u = none := hplan ▸ htake x hf hx
  rcases finish_undispatchable (before := before) (c := { c with hand := [u] }) hd with hfin | hfin
  · exact hfin.trans hlast
  · exact hfin.trans (by rw [hlast]; rfl)

theorem finish_hand_kept (hdem : m.demand u = some (q.dest, .manual)) :
    ∃ why, (m.finish before { c with hand := [u] }).req u = some { q with cls := .manual, blocked := why } := by
  have hset (y : State) (f : CascadeFrame m y) (r : Request) (hr : y.req u = some r) (hrw : r.state = .waiting) (hdest : r.dest = q.dest) :
      (y.takeDemand u).req u = some { r with cls := .manual } := by
    rw [takeDemand_waiting hr hrw, demand_undispatchable hd f, hdem]
    simp only [hdest, if_true]
    exact (State.setReq_req y u u _).trans (if_pos rfl)
  have htake (y : State) (f : CascadeFrame m y) (hy : y.req u = some q ∨ y.req u = some { q with cls := .manual }) :
      (y.takeDemand u).req u = some { q with cls := .manual } := by
    rcases hy with hy | hy
    · exact hset y f q hy hw rfl
    · exact hset y f { q with cls := .manual } hy hw rfl
  obtain ⟨x, hf, hx, hplan⟩ := planStage_taken (before := before) (c := c)
    (P := fun o => o = some q ∨ o = some { q with cls := .manual }) (.inl hq)
    (fun r hr => hr.elim (fun h => by cases h; exact hw) (fun h => by cases h; exact hw)) (fun y f hy => .inr (htake y f hy))
  have hlast : (m.planStage before { c with hand := [u] }).req u = some { q with cls := .manual } := hplan ▸ htake x hf hx
  rcases finish_undispatchable (before := before) (c := { c with hand := [u] }) hd with hfin | hfin
  · exact ⟨q.blocked, hfin.trans hlast⟩
  · exact ⟨none, hfin.trans (by rw [hlast]; rfl)⟩

end

end Sys2Proof.Machine
end

section
/-! The departure of a port from QUALIFIED with all that follows (R4, R63, R79, R149): IDENT and the timers of a port (O52, O57). -/

namespace Sys2Proof.Machine

/-! ## Frames sent are sent -/

theorem hand_unitOut (s : State) (p : Port) (f : UnitFrame) : s.unitOut <+: (s.hand p f).unitOut := by
  unfold State.hand
  split
  · exact ⟨[(p, f)], rfl⟩
  · exact ⟨[], by simp⟩

theorem hand_unitOut_of {s x : State} (h : x.unitOut = s.unitOut) (p : Port) (f : UnitFrame) : s.unitOut <+: (x.hand p f).unitOut :=
  h ▸ hand_unitOut x p f

theorem sendOrder_unitOut (s : State) (p : Port) (k : StepKind) (c : Option Conv) (q : Purpose) :
    s.unitOut <+: (s.sendOrder p k c q).unitOut := by
  unfold State.sendOrder
  dsimp only
  exact hand_unitOut_of (by rfl) _ _

theorem Micro.unitOut {k : Bool} {s t : State} (h : Micro k s t) : s.unitOut <+: t.unitOut := by
  have hsame {x : State} (h : x.unitOut = s.unitOut) : s.unitOut <+: x.unitOut := ⟨[], by simp [h]⟩
  cases h with
  | order u p k c hp hr hd => exact sendOrder_unitOut ..
  | setpoint u v =>
    unfold State.sendSetpoint
    split
    · exact hsame rfl
    · dsimp only
      exact hand_unitOut_of (by rfl) _ _
  | cease u =>
    refine hsame ?_
    unfold State.ceaseOrder
    repeat' split
    all_goals rfl
  | unwarn u =>
    refine hsame ?_
    unfold State.unwarn
    split <;> rfl
  | free c => exact hsame (by simp)
  | take c u => exact hsame (by simp)
  | waterway w q r h row settle => exact hsame (by simp)
  | _ => exact hsame rfl

theorem Reach.unitOut {k : Bool} {s t : State} (h : Reach k s t) : s.unitOut <+: t.unitOut := by
  induction h with
  | refl => exact ⟨[], by simp⟩
  | step _ m ih => exact ih.trans m.unitOut

theorem finish_unitOut (s before : State) (c : Causes) : s.unitOut <+: (s.finish before c).unitOut := (reach_finish s before c).unitOut

/-! ## A cascade in which no slot's automatic condition changes -/

theorem dispatchable_of_ports {s x : State} (hros : x.ros = s.ros) (hhead : x.head = s.head)
    (hp : ∀ q, (x.portRec q).state = .qualified ↔ (s.portRec q).state = .qualified) (u : Slot) : x.dispatchable u = s.dispatchable u := by
  have hq : (x.portState u == .qualified) = (s.portState u == .qualified) := by
    unfold State.portState State.slotPort
    rw [State.unitRec_congr hros]
    cases (s.unitRec u).port with
    | none => rfl
    | some q =>
      rw [Bool.eq_iff_iff]
      simpa using hp q
  unfold State.dispatchable
  simp only [hq, State.unitRec_congr hros, hhead]

section
variable {s before : State} (hros : s.ros = before.ros) (hhead : s.head = before.head)
  (hports : ∀ q, (s.portRec q).state = .qualified ↔ (before.portRec q).state = .qualified)
include hros hhead hports

theorem planStage_same : s.planStage before {} = s := by
  have hd := dispatchable_of_ports hros hhead hports
  have ha (u : Slot) : s.automatic u = before.automatic u := by
    unfold State.automatic
    rw [hd, State.unitRec_congr hros]
  have hdrop (v : Slot) : State.dropGrant before s v = s := by simp [State.dropGrant, hd v]
  have hdrops : Slot.all.foldl (State.dropGrant before) s = s := by simp [Slot.all, hdrop]
  have hauto : autoChanged before s = false := by simp [autoChanged, ha]
  simp [State.planStage, hdrops, hauto]

/-- A port that is not QUALIFIED stays as it is. -/
theorem finish_portRec {p : Port} (hp : (s.portRec p).state ≠ .qualified) : (s.finish before).portRec p = s.portRec p := by
  have hgrants : ∀ (us : List Slot) (x : State), (x.portRec p).state ≠ .qualified → (us.foldl State.tryGrant x).portRec p = x.portRec p := by
    intro us
    induction us with
    | nil => exact fun _ _ => rfl
    | cons u us ih =>
      intro x hx
      have htry : (x.tryGrant u).portRec p = x.portRec p := by
        unfold State.tryGrant
        split
        · rfl
        · split
          · rfl
          · split
            · rfl
            · split
              · rename_i ht
                refine grantStep_portRec fun hport => hx ?_
                obtain ⟨q, hq, hstate⟩ := port_of_dispatchable (testGrant_dispatchable ht)
                rw [hport] at hq
                cases hq
                exact hstate
              · rfl
      exact (ih _ (by rw [htry]; exact hx)).trans htry
  have hstage : (s.grantStage before {}).portRec p = s.portRec p := by
    unfold State.grantStage
    split
    · exact hgrants _ s hp
    · rfl
  unfold State.finish
  rw [planStage_same hros hhead hports]
  unfold State.allocStage
  split
  · rw [(aloof_allocate _).port p (by rw [hstage]; exact hp), hstage]
  · exact hstage

end

/-! ## The departure of a port -/

/-- A port has left QUALIFIED, a PROBE has been handed to it, and the event posted. -/
def State.departed (s : State) (p : Port) (st : PortState) (k : EventKind) (u : Option Slot) (v : Option Int) : State :=
  ((s.leaveQualified p st).probeNow p).post k u v

section
variable {s : State} {p : Port} {u : Slot} {st : PortState} (hs : s.slotOf p = some u) (k : EventKind) (eu : Option Slot) (v : Option Int)
include hs

theorem departed_reads : (s.departed p st k eu v).trs = (s.leaveQualified p st).trs ∧ (s.departed p st k eu v).ros = (s.leaveQualified p st).ros
    ∧ (s.departed p st k eu v).portRec p = ((s.portRec p).left st).probed s.clock
    ∧ ∀ q, q ≠ p → (s.departed p st k eu v).portRec q = s.portRec q := by
  have hl := leaveQualified_effect st hs
  have hrec := probeNow_portRec (s.leaveQualified p st) p
  obtain ⟨ports, out, hpn⟩ := probeNow_eq (s.leaveQualified p st) p
  have hclock : (s.leaveQualified p st).clock = s.clock := State.clock_congr hl.pli
  refine ⟨?_, ?_, ?_, fun q hq => ?_⟩
  · show ((s.leaveQualified p st).probeNow p).trs = _
    rw [hpn]
  · show ((s.leaveQualified p st).probeNow p).ros = _
    rw [hpn]
  · show ((s.leaveQualified p st).probeNow p).portRec p = _
    rw [hrec, if_pos rfl, hl.port, hclock]
  · show ((s.leaveQualified p st).probeNow p).portRec q = _
    rw [hrec, if_neg hq, hl.ports q hq]

theorem departed_frame : CascadeFrame (((s.setPort p (((s.portRec p).left st).probed s.clock)).setUnit u (s.unitRec u).left).post k eu v)
    (s.departed p st k eu v) := by
  have hl := leaveQualified_effect st hs
  obtain ⟨htrs, hros, hport, hports⟩ := departed_reads (st := st) hs k eu v
  obtain ⟨ports, out, hpn⟩ := probeNow_eq (s.leaveQualified p st) p
  have hclock : (s.leaveQualified p st).clock = s.clock := State.clock_congr hl.pli
  have hpost : ∀ x y : State, x.ste = y.ste → x.clock = y.clock → (x.post k eu v).ste = (y.post k eu v).ste := fun x y h1 h2 => by
    unfold State.post
    simp only [State.setSte_ste, h1, h2]
  have hste : (s.departed p st k eu v).ste
      = (((s.setPort p (((s.portRec p).left st).probed s.clock)).setUnit u (s.unitRec u).left).post k eu v).ste :=
    hpost _ _ (by rw [hpn]; exact hl.ste) (by rw [hpn]; exact hclock)
  have hother {α : Type} (g : State → α) (hg : ∀ x ports out, g { x with ports := ports, unitOut := out } = g x)
      (hp : ∀ x, g (x.post k eu v) = g x) : g (s.departed p st k eu v) = g (s.leaveQualified p st) := by
    show g (State.post _ k eu v) = _
    rw [hp, hpn, hg]
  refine .of_parts ?_ ?_ ?_ ?_ ?_ ?_ ?_ ⟨?_, fun w => ?_⟩ (fun q => ?_) ?_ ?_
  · exact (hother State.pending (fun _ _ _ => rfl) fun _ => rfl).trans hl.pending
  · exact (hother State.pli (fun _ _ _ => rfl) fun _ => rfl).trans hl.pli
  · exact (hother State.head (fun _ _ _ => rfl) fun _ => rfl).trans hl.head
  · exact (hother State.tgt (fun _ _ _ => rfl) fun _ => rfl).trans hl.tgt
  · exact (hother State.prf (fun _ _ _ => rfl) fun _ => rfl).trans hl.prf
  · exact (hother State.plantOut (fun _ _ _ => rfl) fun _ => rfl).trans hl.plantOut
  · exact (hother State.pln (fun _ _ _ => rfl) fun _ => rfl).trans hl.pln
  · exact (congrArg Ros.rotation hros).trans hl.rotation
  · rw [State.unitRec_congr hros]
    show _ = (((s.setPort p _).setUnit u (s.unitRec u).left).unitRec w).core
    rw [State.setUnit_unitRec]
    split
    · rename_i hw
      rw [hw, hl.unit]
    · rename_i hw
      rw [hl.units w hw]
      rfl
  · show _ = ((s.setPort p (((s.portRec p).left st).probed s.clock)).portRec q).core
    rw [State.setPort_portRec]
    split
    · rename_i hq
      rw [hq, hport]
    · rename_i hq
      rw [hports q hq]
  · have hways : SameWaterways (s.leaveQualified p st) (s.departed p st k eu v) := .of_eq (congrArg Trs.waterways htrs)
    exact hl.waterways.trans hways
  · rw [hste]
    exact .refl

/-- A slot whose request had a granted step is among the warned steps of no waterway once its port has left QUALIFIED. -/
theorem leaveQualified_unwarned {r : Request} (hr : s.req u = some r) (hg : r.granted = true) :
    ∀ w q, (s.leaveQualified p st).waterwayRec w = some q → u ∉ q.warned := by
  have hunwarn (x : State) (y : State) (hy : SameResources (x.unwarn u) y) : ∀ w q, y.waterwayRec w = some q → u ∉ q.warned := by
    intro w q hq
    rw [hy.waterwayRec, State.unwarn_waterwayRec] at hq
    obtain ⟨q', -, rfl⟩ := Option.map_eq_some_iff.mp hq
    rw [WaterwayRec.unwarn_warned]
    simp
  let x := (s.setPort p ((s.portRec p).leave st)).setUnit u (s.unitRec u).portGone
  have hx : x.req u = some r := hr
  have hleave : s.leaveQualified p st = x.orphanRequest u := by
    unfold State.leaveQualified
    rw [hs]
    rfl
  rw [hleave]
  unfold State.orphanRequest
  rw [hx]
  dsimp only
  cases hw : r.state with
  | waiting => simp [Request.granted, hw] at hg
  | warning =>
    have hsame := resources_withdraw x u
    rw [releaseHeld_eq hx] at hsame
    exact hunwarn _ _ ((resources_setReq _ u _).trans hsame)
  | ordered => exact hunwarn _ _ (resources_endRequest _ u)
  | inStep => exact hunwarn _ _ (resources_endRequest _ u)

/-- The slot of a port that has left QUALIFIED is not dispatchable. -/
theorem departed_undispatchable (hst : st ≠ .qualified) : (s.departed p st k eu v).dispatchable u = false := by
  have hf := (departed_frame (st := st) hs k eu v).play
  have hport : ((s.departed p st k eu v).unitRec u).port = some p := by
    rw [hf.unit_port]
    show (((s.setPort p _).setUnit u (s.unitRec u).left).unitRec u).port = _
    rw [State.setUnit_unitRec, if_pos rfl]
    exact port_of_slotOf hs
  have hstate : (s.departed p st k eu v).portState u = st := by
    rw [portState_of_port hport, (departed_reads (st := st) hs k eu v).2.2.1]
    rfl
  unfold State.dispatchable
  rw [hstate]
  cases st <;> simp at hst ⊢

omit hs in
theorem left_waiting {q : Request} (h : (s.req u).bind Request.left = some q) : q.state = .waiting := by
  obtain ⟨r, -, hr⟩ := Option.bind_eq_some_iff.mp h
  unfold Request.left at hr
  split at hr
  · rename_i hw
    cases hr
    exact hw
  · cases hr
    rfl
  · cases hr

/-- R4, R62, R63, R79: what is left of the slot and its port at the end of the cascade that follows. -/
theorem departed_finish (hst : st ≠ .qualified) (before : State) (c : Causes) :
    PortGone s ((s.departed p st k eu v).finish before { c with hand := [u] }) p u ((s.portRec p).left st) := by
  have hl := leaveQualified_effect st hs
  obtain ⟨htrs, hros, hport, -⟩ := departed_reads (st := st) hs k eu v
  have hd := departed_undispatchable (st := st) hs k eu v hst
  have hframe := departed_frame (st := st) hs k eu v
  generalize hm : s.departed p st k eu v = m at *
  have hreq : m.req u = (s.req u).bind Request.left := (State.req_congr htrs u).trans hl.request
  obtain ⟨x, hx, hfin⟩ := follows_finish m before { c with hand := [u] }
  have halloc : Aloof x (m.finish before { c with hand := [u] }) ∧ (m.finish before { c with hand := [u] }).trs = x.trs := by
    rcases hfin with h | h <;> rw [h]
    · exact ⟨.refl x, rfl⟩
    · exact ⟨aloof_allocate x, allocate_trs_eq x⟩
  have hmstate : (m.portRec p).state ≠ .qualified := by rw [hport]; exact hst
  have hxport : x.portRec p = m.portRec p := hx.portRec hmstate (by rw [hport]; rfl)
  have hmport : (m.unitRec u).port = some p := by
    rw [State.unitRec_congr hros, hl.unit]
    exact port_of_slotOf hs
  have hunit : m.unitRec u = (s.unitRec u).left := (State.unitRec_congr hros u).trans hl.unit
  have hpli : m.pli = s.pli := hframe.pli
  have hdemand : m.demand u = match (s.unitRec u).hold with
      | some h => if h.emergency then none else some (h.mode, .manual)
      | none => none := by
    have ha := not_automatic hd (.refl m)
    unfold State.demand
    rw [hunit, ha]
    cases hh : (s.unitRec u).hold <;> simp [UnitRec.left, hh]
  refine ⟨?_, ?_, fun h => ?_, fun q hq hh => ?_, fun q h hq hh he hdest => ?_, ?_, fun r cv hr ho hc hno => ?_, fun r w q hr hg hq => ?_⟩
  · rw [halloc.1.port p (by rw [hxport]; exact hmstate), hxport, hport]
  · have hu : x.portState u ≠ .qualified := by
      rw [hx.frame.play.portState, portState_of_port hmport]
      exact hmstate
    rw [halloc.1.unit u hu, State.unitRec_congr hx.ros, State.unitRec_congr hros, hl.unit]
  · have hold : (m.unitRec u).hold.map (fun h => (h.mode, h.emergency)) = (s.unitRec u).hold.map (fun h => (h.mode, h.emergency)) := by
      rw [hunit]
      cases hh : (s.unitRec u).hold <;> simp [UnitRec.left, hh]
    obtain ⟨e, he⟩ := finish_hand_none (before := before) (c := c) hd (hreq.trans h)
    refine ⟨e, he.trans (renewed_congr ?_ hold (congrArg Pli.part hpli) e none)⟩
    unfold State.known State.reported
    rw [hunit]
    rfl
  · refine finish_hand_dropped hd (hreq.trans hq) (left_waiting hq) ?_
    rw [hdemand]
    cases hold : (s.unitRec u).hold with
    | none => rfl
    | some h => simp [hh h hold]
  · refine finish_hand_kept hd (hreq.trans hq) (left_waiting hq) ?_
    rw [hdemand, hh]
    simp [he, hdest]
  · rw [State.orphan_congr halloc.2, hx.orphan, State.orphan_congr htrs, hl.orphan]
  · rw [State.holder_congr halloc.2]
    refine (hx.held ((State.holder_congr htrs cv).trans (hl.converter r cv hr ho hc)) fun w q hq => ?_).1
    rw [State.req_congr htrs] at hq
    by_cases hw : w = u
    · subst hw
      rw [hl.request, hr] at hq
      have : r.left = none := by
        unfold Request.left
        cases hs : r.state <;> simp [Request.ordered, hs] at ho ⊢
      simp [this] at hq
    · rw [hl.requests w hw] at hq
      exact hno w q hw hq
  · rw [State.waterwayRec_congr halloc.2] at hq
    refine hx.unwarned hd (fun w q hq => ?_) w q hq
    rw [State.waterwayRec_congr htrs] at hq
    exact leaveQualified_unwarned hs hr hg w q hq

end

end Sys2Proof.Machine
end

section
namespace Sys2Proof.Proofs
open Sys2Proof.Machine

/-- The later of two writes of a port record stands. -/
theorem setPort_setPort (s : State) (p : Port) (a b : PortRec) : (s.setPort p a).setPort p b = s.setPort p b := by
  simp only [State.setPort, PortMap.set_set]

/-- A PROBE handed, in full (R145). -/
theorem probeNow_exactly (s : State) (p : Port) : s.probeNow p = { s with
    ports := s.ports.set p ((s.portRec p).probed s.clock)
    unitOut := s.unitOut ++ (if (s.portRec p).sending.isNone then [(p, .probe)] else []) } := by
  unfold State.probeNow State.hand State.beginSending
  dsimp only
  rw [State.setPort_portRec, if_pos rfl]
  dsimp only
  cases hs : (s.portRec p).sending with
  | none =>
    dsimp only
    rw [setPort_setPort]
    simp [State.setPort, PortRec.probed, hs, probePeriod]
  | some f =>
    dsimp only
    rw [setPort_setPort]
    simp [State.setPort, PortRec.probed, hs, probePeriod]

/-- IDENT after its frame has been taken and its number noted, by the port's state (R146). -/
theorem execIdent_eq {p : Port} {number : Byte} {s : State} {u : Slot} (hs : s.slotOf p = some u) (hn : number ≠ 0)
    (hp : (s.portRec p).state ≠ .unused) {b : State} (hbs : b = s.setPort p { s.portRec p with framer := none, lastMachine := some number }) :
    exec (.ident p number) s = .next (
      (if number = (s.unitRec u).expected then
        if (s.portRec p).state.isProbing then b.qualify p u number else b
      else match (s.portRec p).state with
        | .qualified => b.departed p .mismatch .portMismatch (some u) (some number.toNat)
        | .down | .probing | .lost => (b.setPortState p .mismatch).post .portMismatch (some u) (some number.toNat)
        | .mismatch | .unused => b).finish s
          { hand := if (s.portRec p).state = .qualified ∧ number ≠ (s.unitRec u).expected then [u] else [] }) := by
  have hrec : (s.takeUnitFrame p).portRec p = { s.portRec p with framer := none } := (State.setPort_portRec s p p _).trans (if_pos rfl)
  have hb : (s.takeUnitFrame p).setPort p { (s.takeUnitFrame p).portRec p with lastMachine := some number } = b := by
    rw [hrec, hbs]
    exact setPort_setPort ..
  show execIdent p number s = _
  unfold execIdent
  have hslot : (s.takeUnitFrame p).slotOf p = some u := hs
  simp only [hslot]
  rw [if_neg (by rw [hrec]; exact not_or.mpr ⟨hn, hp⟩)]
  unfold State.compareIdent State.identHand
  rw [hb, hrec]
  subst hbs
  rfl

/-- Settles O52. -/
theorem identFrames : Obligations.IdentFrames := by
  unfold Obligations.IdentFrames
  intro p number s taken
  refine ⟨fun h => ?_, fun u hs hn hp => ?_⟩
  · show execIdent p number s = _
    unfold execIdent
    cases hs : s.slotOf p with
    | none =>
      have hslot : (s.takeUnitFrame p).slotOf p = none := hs
      simp only [hslot]
      rfl
    | some u =>
      have hslot : (s.takeUnitFrame p).slotOf p = some u := hs
      simp only [hslot]
      refine if_pos (h.resolve_left ?_ |>.imp id fun h => ?_)
      · rw [hs]; nofun
      · exact (congrArg PortRec.state ((State.setPort_portRec s p p _).trans (if_pos rfl))).trans h
  · intro noted b same
    have hexec := execIdent_eq hs hn hp (b := b) rfl
    have hb (r : PortRec) : b.setPort p r = s.setPort p r := setPort_setPort ..
    have hbrec : b.portRec p = noted := (State.setPort_portRec s p p noted).trans (if_pos rfl)
    have hquiet : b.finish s = b := Unmoved.finish ⟨rfl, fun _ => rfl, fun q => by
      rw [State.setPort_portRec]
      split
      · rename_i h
        rw [h]
      · rfl, rfl, rfl, rfl, rfl, rfl⟩
    refine ⟨fun he hq => ?_, fun he hq => ?_, fun he hq => ?_, fun he hm hq => ?_, fun he hq => ?_⟩
    · rw [if_pos he, hq, if_neg (by simp [PortState.isProbing]), if_neg (fun h => h.2 he), hquiet] at hexec
      exact hexec
    · have hprobing : (s.portRec p).state.isProbing = true := by
        cases hst : (s.portRec p).state with
        | unused => exact absurd hst hp
        | qualified => exact absurd hst hq
        | _ => rfl
      rw [if_pos he, if_pos hprobing, if_neg fun h => h.2 he] at hexec
      have hcas := cascade_finish (b.qualify p u number) s { hand := [] }
      refine ⟨_, hexec, ?_⟩
      have hstart : b.qualify p u number = (s.setPort p { noted with
          state := .qualified, probe := none, liveness := some (later s.clock s.params.unitTimeout) }).post
            .portQualified (some u) (some number.toNat) := by
        unfold State.qualify
        rw [hbrec, hb]
        rfl
      rw [hstart] at hcas ⊢
      exact hcas
    · rw [if_neg he, hq, if_neg (by simp), hquiet] at hexec
      exact hexec
    · let x := (s.setPort p { noted with state := .mismatch }).post .portMismatch (some u) (some number.toNat)
      have hset : (b.setPortState p .mismatch).post .portMismatch (some u) (some number.toNat) = x := by
        unfold State.setPortState
        rw [hbrec, hb]
      have hx : exec (.ident p number) s = .next (x.finish s) := by
        rw [hexec, if_neg he, if_neg (fun h => hq h.1)]
        cases hst : (s.portRec p).state with
        | unused => exact absurd hst hp
        | mismatch => exact absurd hst hm
        | qualified => exact absurd hst hq
        | _ => exact congrArg (fun y => Host.Outcome.next (y.finish s)) hset
      have hxrec : x.portRec p = { noted with state := .mismatch } := (State.setPort_portRec s p p _).trans (if_pos rfl)
      have hports (q : Port) : (x.portRec q).state = .qualified ↔ (s.portRec q).state = .qualified := by
        by_cases h : q = p
        · rw [h, hxrec]
          exact iff_of_false nofun hq
        · have : x.portRec q = s.portRec q := (State.setPort_portRec s p q _).trans (if_neg h)
          rw [this]
      refine ⟨_, hx, ?_, cascade_finish x s {}⟩
      exact (finish_portRec (s := x) (before := s) rfl rfl hports (by rw [hxrec]; nofun)).trans hxrec
    · rw [if_neg he, hq, if_pos ⟨rfl, he⟩] at hexec
      dsimp only at hexec
      have hbs : b.slotOf p = some u := hs
      have hcas := cascade_finish (b.departed p .mismatch .portMismatch (some u) (some number.toNat)) s { hand := [u] }
      have hframe := departed_frame (st := .mismatch) hbs .portMismatch (some u) (some number.toNat)
      have hgone := departed_finish hbs .portMismatch (some u) (some number.toNat) (st := .mismatch) nofun s {}
      rw [hbrec] at hframe hgone
      rw [hb] at hframe
      exact ⟨_, hexec, hgone, hframe.trans hcas⟩

/-- Settles O57. -/
theorem portTimers : Obligations.PortTimers := by
  unfold Obligations.PortTimers
  refine ⟨fun p s => ?_, fun p s => ?_⟩
  · intro r due
    have hdue : (r.state.isProbing && timerDue s.clock r.probe) = true ↔ due := by
      rw [Bool.and_eq_true]
      refine and_congr ?_ Iff.rfl
      cases r.state <;> simp [PortState.isProbing]
    have hexec (h : due) : exec (.probeTimerExpiry p) s = .next ((s.probeExpired p).finish s) := if_pos (hdue.mpr h)
    have hprobe := probeNow_exactly s p
    have hrec : (s.probeNow p).portRec p = r.probed s.clock := (probeNow_portRec s p p).trans (if_pos rfl)
    refine ⟨fun h => if_neg fun k => h (hdue.mp k), fun h hne => ?_, fun h hdown => ?_⟩
    · have hsame : s.probeExpired p = s.probeNow p := if_neg (by rw [hrec]; exact hne)
      have hquiet : (s.probeNow p).finish s = s.probeNow p := by
        refine Unmoved.finish ⟨?_, fun v => ?_, fun q => ?_, ?_, ?_, ?_, ?_, ?_⟩
        · rw [hprobe]
        · rw [hprobe]
          rfl
        · rw [probeNow_portRec]
          split
          · rename_i hq
            rw [hq]
            rfl
          · rfl
        · rw [hprobe]
        · rw [hprobe]
          rfl
        · rw [hprobe]
        · rw [hprobe]
        · rw [hprobe]
      rw [hexec h, hsame, hquiet, hprobe]
    · let x := (s.probeNow p).setPort p { r.probed s.clock with state := .probing }
      have hx : s.probeExpired p = x := by
        have hstep : s.probeExpired p = (s.probeNow p).setPortState p .probing := if_pos (by rw [hrec]; exact hdown)
        rw [hstep, State.setPortState, hrec]
      have hxrec : x.portRec p = { r.probed s.clock with state := .probing } := (State.setPort_portRec _ p p _).trans (if_pos rfl)
      have hxother (q : Port) (hq : q ≠ p) : x.portRec q = s.portRec q :=
        (State.setPort_portRec _ p q _).trans ((if_neg hq).trans ((probeNow_portRec s p q).trans (if_neg hq)))
      have hports (q : Port) : (x.portRec q).state = .qualified ↔ (s.portRec q).state = .qualified := by
        by_cases hq : q = p
        · rw [hq, hxrec]
          exact iff_of_false nofun (by rw [show s.portRec p = r from rfl, hdown]; nofun)
        · rw [hxother q hq]
      have hros : x.ros = s.ros := by
        show (s.probeNow p).ros = _
        rw [hprobe]
      have hhead : x.head = s.head := by
        show (s.probeNow p).head = _
        rw [hprobe]
      have hframe : CascadeFrame (s.setPort p { r.probed s.clock with state := .probing }) x := by
        have hsame : x = { s.setPort p { r.probed s.clock with state := .probing } with
            unitOut := s.unitOut ++ (if (s.portRec p).sending.isNone then [(p, .probe)] else []) } := by
          show (s.probeNow p).setPort p _ = _
          rw [hprobe]
          simp only [State.setPort, PortMap.set_set]
        rw [hsame]
        exact .of_parts rfl rfl rfl rfl rfl rfl rfl ⟨rfl, fun _ => rfl⟩ (fun _ => rfl) (.of_eq rfl) .refl
      refine ⟨_, (hexec h).trans (by rw [hx]), (finish_portRec hros hhead hports (by rw [hxrec]; nofun)).trans hxrec, fun hn => ?_,
        hframe.trans (cascade_finish x s {})⟩
      refine (finish_unitOut x s {}).subset ?_
      show _ ∈ (s.probeNow p).unitOut
      rw [probeNow_unitOut]
      simp [show (s.portRec p).sending = none from hn]
  · intro due
    have hdue : (decide ((s.portRec p).state = .qualified) && timerDue s.clock (s.portRec p).liveness) = true ↔ due := by
      simp [due]
    refine ⟨fun h => if_neg fun k => h (hdue.mp k), fun h u hs => ?_⟩
    have hexec : exec (.statusLivenessExpiry p) s
        = .next ((s.departed p .lost .portLost (some u) none).finish s { hand := [u] }) := by
      refine (if_pos (hdue.mpr h)).trans ?_
      unfold State.losePort
      rw [hs]
      rfl
    have hframe := departed_frame (st := .lost) hs .portLost (some u) none
    have hcas := cascade_finish (s.departed p .lost .portLost (some u) none) s { hand := [u] }
    refine ⟨_, hexec, departed_finish (st := .lost) hs .portLost (some u) none nofun s {}, fun hn => ?_, hframe.trans hcas⟩
    refine (finish_unitOut (s.departed p .lost .portLost (some u) none) s { hand := [u] }).subset ?_
    show _ ∈ ((s.leaveQualified p .lost).probeNow p).unitOut
    rw [probeNow_unitOut, (leaveQualified_effect .lost hs).port]
    have hsending : ((s.portRec p).left .lost).sending = none := hn
    simp [hsending]

end Sys2Proof.Proofs
end

section
/-! Acknowledgements and the refusal of a step (O54). -/

namespace Sys2Proof.Machine

theorem releaseHeld_counter (s : State) (u : Slot) (settle : Bool) : (s.releaseHeld u settle).trs.entryCounter = s.trs.entryCounter := by
  cases hr : s.req u with
  | none =>
    unfold State.releaseHeld
    rw [hr]
  | some r =>
    have hun (x : State) : (x.unwarn u).trs.entryCounter = x.trs.entryCounter := by
      unfold State.unwarn
      split <;> rfl
    have hplace (x : State) (b : Bool) : (x.dropPlace u b settle).trs.entryCounter = x.trs.entryCounter := by
      unfold State.dropPlace
      split
      · rw [State.updateWaterwayOf_eq]
        rfl
      · rfl
    rw [releaseHeld_eq hr]
    show (State.unwarn _ u).trs.entryCounter = _
    rw [hun, hplace, State.dropConverter_only]
    rfl

theorem failRequest_counter (s : State) (u : Slot) (settle : Bool) : (s.failRequest u settle).trs.entryCounter = s.trs.entryCounter := by
  unfold State.failRequest
  show (State.ceaseOrder _ u .supervised).trs.entryCounter = _
  rw [ceaseOrder_trs]
  exact releaseHeld_counter s u settle

/-- A request fails by scheduler's writes alone (R74 to R76). -/
theorem failRequest_ros (s : State) (u : Slot) (settle : Bool) : (s.failRequest u settle).ros = s.ros ∧ (s.failRequest u settle).pln = s.pln :=
  ⟨(turn_failRequest s u settle).frame.ros, (turn_failRequest s u settle).frame.pln⟩

/-! ## The refusal of a step (R75) -/

/-- A step has been refused, before the demand of its slot is compared. -/
def State.refused (s : State) (u : Slot) (cause : Int) : State :=
  let x := s.failRequest u false
  (if x.params.refusalBackoff = 0 then x
    else x.setUnit u { x.unitRec u with backoff := some (later x.clock x.params.refusalBackoff) }).post .stepRefused (some u) (some cause)

theorem refuseStep_eq (s : State) (u : Slot) (cause : Int) : s.refuseStep u cause = (s.refused u cause).compareDemand u := rfl

section
variable (s : State) (u : Slot) (cause : Int)

theorem refused_trs : (s.refused u cause).trs = (s.failRequest u false).trs := by
  unfold State.refused
  dsimp only
  split <;> rfl

theorem refused_pln : (s.refused u cause).pln = s.pln := by
  unfold State.refused
  dsimp only
  split <;> exact (failRequest_ros s u false).2

theorem refused_req : (s.refused u cause).req u = none :=
  (State.req_congr (refused_trs s u cause) u).trans (endRequest_req _ u)

theorem refused_counter : (s.refused u cause).trs.entryCounter = s.trs.entryCounter := by
  rw [refused_trs, failRequest_counter]

theorem refused_ros (h : s.params.refusalBackoff = 0) : (s.refused u cause).ros = s.ros := by
  have hp : (s.failRequest u false).params.refusalBackoff = 0 := by rw [(cascade_failRequest s u false).play.params, h]
  unfold State.refused
  dsimp only
  rw [if_pos hp]
  exact (failRequest_ros s u false).1

theorem refused_unit (v : Slot) : ∃ b, (s.refused u cause).unitRec v = { s.unitRec v with backoff := b } := by
  have hx := State.unitRec_congr (failRequest_ros s u false).1
  unfold State.refused
  dsimp only
  split
  · exact ⟨(s.unitRec v).backoff, hx v⟩
  · show ∃ b, (State.setUnit _ u _).unitRec v = _
    rw [State.setUnit_unitRec]
    split
    · rename_i hv
      rw [hv, hx]
      exact ⟨_, rfl⟩
    · exact ⟨(s.unitRec v).backoff, hx v⟩

theorem refused_backoff (h : s.params.refusalBackoff ≠ 0) : ((s.refused u cause).unitRec u).backoff.isSome = true := by
  have hp : (s.failRequest u false).params.refusalBackoff ≠ 0 := by rw [(cascade_failRequest s u false).play.params]; exact h
  unfold State.refused
  dsimp only
  rw [if_neg hp]
  show ((State.setUnit _ u _).unitRec u).backoff.isSome = true
  rw [State.setUnit_unitRec, if_pos rfl]
  rfl

theorem refused_rest : (s.refused u cause).pli = s.pli ∧ (s.refused u cause).head = s.head
    ∧ ∀ p, ((s.refused u cause).portRec p).state = (s.portRec p).state := by
  have hf := cascade_failRequest s u false
  unfold State.refused
  dsimp only
  split <;> exact ⟨hf.pli, hf.head, hf.play.port_state⟩

theorem refused_renewed (e : Word) (d : Option Stable) : (s.refused u cause).renewed u e d = s.renewed u e d := by
  obtain ⟨b, hb⟩ := refused_unit s u cause u
  refine renewed_congr ?_ (by rw [hb]) (congrArg Pli.part (refused_rest s u cause).1) e d
  unfold State.known State.reported
  rw [hb]

end

theorem aim_of_course {a b : Option Request} (h : a.map Request.course = b.map Request.course) :
    a.map Request.aim = b.map Request.aim := by
  have hfac : Request.aim = (fun c : ReqClass × Stable × List PathStep × Nat × Word =>
      ({ Request.new c.1 c.2.1 c.2.2.1 c.2.2.2.2 with index := c.2.2.2.1 } : Request)) ∘ Request.course := rfl
  rw [hfac, ← Option.map_map, h, Option.map_map]

theorem renewed_aim (s : State) (u : Slot) (e : Word) (d : Option Stable) : (s.renewed u e d).map Request.aim = s.renewed u e d := by
  unfold State.renewed
  split
  · split <;> rfl
  · split <;> rfl
  · rfl

/-- The slot's request once its step has been refused and the cascade has run (R62, R75). -/
theorem refuse_request {s before : State} (u : Slot) (cause : Int) (hros : s.ros = before.ros) (hhead : s.head = before.head)
    (hports : ∀ p, (s.portRec p).state = (before.portRec p).state) :
    let t := (s.refuseStep u cause).finish before
    (s.params.refusalBackoff ≠ 0 → t.req u = s.renewed u s.trs.entryCounter)
      ∧ (s.params.refusalBackoff = 0 → (t.req u).map Request.aim
          = s.renewed u s.trs.entryCounter (if s.automatic u then s.pln.desired.get u else none)) := by
  intro t
  have hreq : (s.refuseStep u cause).req u = s.renewed u s.trs.entryCounter
      (if (s.refused u cause).automatic u then s.pln.desired.get u else none) := by
    rw [refuseStep_eq, compareDemand_renewed (refused_req s u cause), refused_renewed, refused_counter, refused_pln]
  have hf := cascade_compareDemand (s.refused u cause) u
  refine ⟨fun h => ?_, fun h => ?_⟩
  · have hd : (s.refused u cause).dispatchable u = false := by
      have hb := refused_backoff s u cause h
      unfold State.dispatchable
      cases hx : ((s.refused u cause).unitRec u).backoff with
      | none => rw [hx] at hb; cases hb
      | some _ => simp [hx]
    have hauto : (s.refused u cause).automatic u = false := by
      unfold State.automatic
      rw [hd]
      rfl
    rw [hauto] at hreq
    have hren (e : Word) : (s.refuseStep u cause).renewed u e = s.renewed u e := by
      rw [refuseStep_eq, hf.play.renewed, refused_renewed]
    rw [← hren]
    refine finish_renewed (by rw [refuseStep_eq, hf.play.dispatchable, hd]) ?_
    rw [hren]
    exact hreq
  · have hrest := refused_rest s u cause
    have hros' : (s.refuseStep u cause).ros = before.ros := by
      rw [refuseStep_eq, (turn_compareDemand _ u).frame.ros, refused_ros s u cause h, hros]
    have hhead' : (s.refuseStep u cause).head = before.head := by
      rw [refuseStep_eq, hf.head, hrest.2.1, hhead]
    have hports' (p : Port) : ((s.refuseStep u cause).portRec p).state = .qualified ↔ (before.portRec p).state = .qualified := by
      rw [refuseStep_eq, hf.play.port_state, hrest.2.2, hports]
    have hauto : (s.refused u cause).automatic u = s.automatic u := by
      unfold State.automatic
      rw [dispatchable_of_ports (refused_ros s u cause h) hrest.2.1 (fun q => by rw [hrest.2.2 q]),
        State.unitRec_congr (refused_ros s u cause h)]
    have hcourse := finish_course (s.refuseStep u cause) before {} u
    rw [planStage_same hros' hhead' hports', hreq, hauto] at hcourse
    exact (aim_of_course hcourse).trans (renewed_aim ..)

/-- A refusal starts no settle timer (R75, R78). -/
theorem refuse_settle {s : State} {u : Slot} {r : Request} (hr : s.req u = some r) (cause : Int) (before : State) (c : Causes) (w : Waterway) :
    (((s.refuseStep u cause).finish before c).waterwayRec w).map (·.settle) = (s.waterwayRec w).map (·.settle) := by
  have hsame : SameResources (s.releaseHeld u false) (s.refuseStep u cause) :=
    ((resources_failRequest s u false).trans (.of_trs (refused_trs s u cause))).trans (resources_compareDemand _ u)
  rw [(reach_finish _ before c).settle, hsame.waterwayRec, releaseHeld_waterwayRec hr, Option.map_map]
  cases s.waterwayRec w with
  | none => rfl
  | some q =>
    simp only [Option.map_some, Function.comp_apply, WaterwayRec.unwarn_settle]
    split <;> rfl

end Sys2Proof.Machine

namespace Sys2Proof.Proofs
open Sys2Proof.Machine

/-- A frame taken from a unit port leaves all that the cascade compares. -/
theorem unmoved_taken (s : State) (p : Port) (r : PortRec) (h : r.state = (s.portRec p).state) : Unmoved s (s.setPort p r) :=
  ⟨rfl, fun _ => rfl, fun q => by
    rw [State.setPort_portRec]
    split
    · rename_i hq
      rw [hq, h]
    · rfl, rfl, rfl, rfl, rfl, rfl⟩

/-- An acknowledgement that matches the outstanding order of a QUALIFIED port. -/
theorem execOrderAck_match {p : Port} {tag result cause : Byte} {s : State} {u : Slot} {o : Outstanding} {accepted : Bool}
    (hacc : acceptedOfCode result = some accepted) (hs : s.slotOf p = some u) (hq : (s.portRec p).state = .qualified)
    (ho : (s.portRec p).outstanding = some o) (htag : o.tag = tag) : exec (.orderAck p tag result cause) s
      = .next (((s.setPort p { s.portRec p with framer := none }).ackOrder p u o.purpose accepted cause).finish s) := by
  have hrec : (s.takeUnitFrame p).portRec p = { s.portRec p with framer := none } := (State.setPort_portRec s p p _).trans (if_pos rfl)
  have hslot : (s.takeUnitFrame p).slotOf p = some u := hs
  have hout : ((s.takeUnitFrame p).portRec p).outstanding = some o := by rw [hrec]; exact ho
  have hmatch : ¬ (((s.takeUnitFrame p).portRec p).state ≠ .qualified ∨ o.tag ≠ tag) := by
    rw [hrec]
    exact not_or.mpr ⟨not_not.mpr hq, not_not.mpr htag⟩
  show execOrderAck p tag result cause s = _
  unfold execOrderAck
  simp only [hacc, hslot, hout]
  rw [if_neg hmatch]
  rfl

theorem acceptedOfCode_some {c : Byte} {a : Bool} (h : acceptedOfCode c = some a) : c = 1 ∨ c = 2 := by
  unfold acceptedOfCode at h
  split at h
  · rename_i hc
    exact .inl (BitVec.eq_of_toNat_eq hc)
  · rename_i hc
    exact .inr (BitVec.eq_of_toNat_eq hc)
  · cases h

/-- Settles O54. -/
theorem acknowledgements : Obligations.Acknowledgements := by
  unfold Obligations.Acknowledgements
  intro backedOff refused
  have hrefused (s a : State) (u : Slot) (r : Request) (cause : Int) (hr : a.req u = some r) (hros : a.ros = s.ros) (hpli : a.pli = s.pli)
      (htrs : a.trs = s.trs) (hhead : a.head = s.head) (hpln : a.pln = s.pln) (hports : ∀ p, (a.portRec p).state = (s.portRec p).state) :
      CascadeFrame ((a.setUnit u (backedOff s u)).post .stepRefused (some u) (some cause)) ((a.refuseStep u cause).finish s)
        ∧ refused s ((a.refuseStep u cause).finish s) u r := by
    obtain ⟨h1, h2⟩ := refuse_request u cause hros hhead hports
    have hunit := State.unitRec_congr hros u
    have hparams := State.params_congr hpli
    have hrec (e : Word) (d : Option Stable) : a.renewed u e d = s.renewed u e d := by
      refine renewed_congr ?_ (by rw [hunit]) (congrArg Pli.part hpli) e d
      unfold State.known State.reported
      rw [hunit]
    have hauto : a.automatic u = s.automatic u := by
      unfold State.automatic
      rw [dispatchable_of_ports hros hhead (fun q => by rw [hports q]), hunit]
    rw [hparams, htrs, hrec] at h1
    rw [hparams, htrs, hrec, hauto, hpln] at h2
    obtain ⟨hframe, hholder⟩ := refuse_effect a u cause r hr (backedOff s u) (by
      rw [hunit, hparams, State.clock_congr hpli]) s {}
    refine ⟨hframe, h1, h2, hholder, fun w => ?_⟩
    rw [refuse_settle hr, State.waterwayRec_congr htrs]
  refine ⟨fun p tag result cause s => ?_, fun u s => ?_⟩
  · intro taken matches_
    have htaken (r : PortRec) : taken.setPort p r = s.setPort p r := setPort_setPort ..
    have hrec : taken.portRec p = { s.portRec p with framer := none } := (State.setPort_portRec s p p _).trans (if_pos rfl)
    have hstates (q : Port) : (taken.portRec q).state = (s.portRec q).state := (unmoved_taken s p { s.portRec p with framer := none } rfl).ports q
    refine ⟨fun h => ?_, fun u o hs hres hm => ?_⟩
    · show execOrderAck p tag result cause s = _
      unfold execOrderAck
      have hslot : (s.takeUnitFrame p).slotOf p = s.slotOf p := rfl
      have hout : ((s.takeUnitFrame p).portRec p).outstanding = (s.portRec p).outstanding := (congrArg PortRec.outstanding hrec :)
      have hstate : ((s.takeUnitFrame p).portRec p).state = (s.portRec p).state := hstates p
      simp only [hslot, hout, hstate]
      cases hacc : acceptedOfCode result with
      | none => rfl
      | some accepted =>
        cases hs : s.slotOf p with
        | none => rfl
        | some u =>
          cases ho : (s.portRec p).outstanding with
          | none => rfl
          | some o =>
            refine if_pos ?_
            rcases h with ⟨h1, h2⟩ | h | h
            · exact ((acceptedOfCode_some hacc).elim h1 h2).elim
            · rw [hs] at h
              cases h
            · exact not_and_or.mp fun k => h o ⟨k.1, ho, k.2⟩
    · obtain ⟨hq, ho, htag⟩ := hm
      intro cleared
      have hcleared : taken.clearOutstanding p = cleared := by
        unfold State.clearOutstanding
        rw [hrec, htaken]
      have hquiet : cleared.finish s = cleared := (unmoved_taken s p { s.portRec p with framer := none, outstanding := none } rfl).finish
      have hyes (h : result = 1) := execOrderAck_match (cause := cause) (accepted := true) (by subst h; rfl : acceptedOfCode result = _) hs hq ho htag
      have hno (h : result = 2) := execOrderAck_match (cause := cause) (accepted := false) (by subst h; rfl : acceptedOfCode result = _) hs hq ho htag
      have hstop (accepted : Bool) (h : o.purpose = .timeoutStop) : (taken.ackOrder p u o.purpose accepted cause).finish s = cleared := by
        rw [h]
        show (taken.clearOutstanding p).finish s = _
        rw [hcleared, hquiet]
      refine ⟨fun h => ?_, fun h => ?_, fun h => ⟨fun hr => ?_, fun r hr hst => ⟨fun h1 => ?_, fun h2 => ?_⟩⟩⟩
      · rcases hres with h1 | h2
        · exact (hyes h1).trans (congrArg _ (hstop true h))
        · exact (hno h2).trans (congrArg _ (hstop false h))
      · rcases hres with h1 | h2
        · rw [hyes h1, h, if_pos h1]
          show Host.Outcome.next ((taken.clearOutstanding p).finish s) = _
          rw [hcleared, hquiet]
        · rw [hno h2, h, if_neg (by rw [h2]; decide)]
          show Host.Outcome.next (((taken.clearOutstanding p).post .stepRefused (some u) (some cause.toNat)).finish s) = _
          have hpost : Unmoved s (cleared.post .stepRefused (some u) (some cause.toNat)) := by
            have hu := unmoved_taken s p { s.portRec p with framer := none, outstanding := none } rfl
            exact ⟨hu.part, hu.units, hu.ports, hu.head, hu.override, hu.ramped, hu.increment, hu.trs⟩
          rw [hcleared, hpost.finish]
      · have hsup (accepted : Bool) : (taken.ackOrder p u o.purpose accepted cause).finish s = taken := by
          have hsame : taken.ackOrder p u o.purpose accepted cause = taken := by
            rw [h]
            show taken.ackSupervised u accepted cause = taken
            unfold State.ackSupervised
            have htr : taken.req u = s.req u := rfl
            rw [htr]
            cases hx : s.req u with
            | none => rfl
            | some r => exact if_pos (hr r hx)
          rw [hsame]
          exact (unmoved_taken s p { s.portRec p with framer := none } rfl).finish
        rcases hres with h1 | h2
        · exact (hyes h1).trans (congrArg _ (hsup true))
        · exact (hno h2).trans (congrArg _ (hsup false))
      · have htr : taken.req u = some r := hr
        have hack : taken.ackOrder p u o.purpose true cause = taken.setReq u (some { r with state := .inStep, ackExpiry := none }) := by
          rw [h]
          show taken.ackSupervised u true cause = _
          unfold State.ackSupervised
          simp only [htr, hst, ne_eq, not_true_eq_false, if_false, if_true]
        refine (hyes h1).trans (congrArg _ ((congrArg (State.finish · s) hack).trans ?_))
        exact setReq_quiet (unmoved_taken s p { s.portRec p with framer := none } rfl) htr hst rfl rfl rfl rfl
      · have htr : taken.req u = some r := hr
        have hack : taken.ackOrder p u o.purpose false cause = taken.refuseStep u cause.toNat := by
          rw [h]
          show taken.ackSupervised u false cause = _
          unfold State.ackSupervised
          simp only [htr, hst, ne_eq, not_true_eq_false, if_false, Bool.false_eq_true]
        obtain ⟨hframe, href⟩ := hrefused s taken u r cause.toNat htr rfl rfl rfl rfl rfl hstates
        exact ⟨_, (hno h2).trans (congrArg _ (congrArg (State.finish · s) hack)), hframe, href⟩
  · refine ⟨fun h => ?_, fun r hr ho hd => ?_⟩
    · refine if_neg fun k => ?_
      simp only [State.ackDue, Option.any_eq_true, Bool.and_eq_true, beq_iff_eq] at k
      obtain ⟨r, hr, hk⟩ := k
      exact h r hr hk
    · have hdue : s.ackDue u = true := by simp [State.ackDue, hr, ho, hd]
      obtain ⟨hframe, href⟩ := hrefused s s u r (-1) hr rfl rfl rfl rfl rfl fun _ => rfl
      exact ⟨_, if_pos hdue, hframe, href⟩

end Sys2Proof.Proofs
end

section
/-! The timers of the plant side and of the waterways (O55). -/

namespace Sys2Proof.Machine

/-- A part that passes to LINK_DOWN asks the other blocks for nothing (R161). -/
theorem finish_linkDown {s : State} (b : Pli) (hp : b.part = .fallback .linkDown) (hq : b.params = s.pli.params) :
    (s.setPli b).finish s = s.setPli b := by
  have hd : ∀ u, (s.setPli b).dispatchable u = s.dispatchable u := fun _ => rfl
  have hgrants : grantsDue s (s.setPli b) = false := by
    have hsame : grantsDue (s.setPli b) (s.setPli b) = false := (Unmoved.refl _).grantsDue
    unfold grantsDue at hsame ⊢
    simp only [State.setPli_pli, hp, Bool.or_eq_false_iff] at hsame ⊢
    exact ⟨hsame.1, by simp⟩
  have halloc : allocationDue s (s.setPli b) = false := by
    have hhead : (s.setPli b).headInUse = s.headInUse := State.headInUse_congr rfl hq
    have hsame : allocationDue s s = false := (Unmoved.refl _).allocationDue
    unfold allocationDue at hsame ⊢
    rw [hhead]
    exact hsame
  exact finish_quiet hd (fun _ => rfl) hgrants halloc

end Sys2Proof.Machine

namespace Sys2Proof.Proofs
open Sys2Proof.Machine

/-- Settles O55. -/
theorem plantTimers : Obligations.PlantTimers := by
  unfold Obligations.PlantTimers
  refine ⟨fun s => ?_, fun s => ⟨fun h => ?_, fun h => ?_⟩, fun s => ?_, fun w s => ⟨fun hw => ?_, fun r hw => ?_⟩⟩
  · intro silent down
    refine ⟨fun h => if_neg (by simp [h]), fun h => ?_⟩
    have hexec : exec .dispatchLivenessExpiry s = .next (s.linkDown.finish s) := if_pos h
    refine ⟨fun hp => ?_, fun hp => ?_, fun hp => ?_⟩
    · have hdown : s.linkDown = silent := by
        show (match s.pli.part with | .standby => _ | .dispatching => _ | .fallback _ => _ : State) = _
        rw [hp]
        rfl
      have hquiet : Unmoved s silent := ⟨rfl, fun _ => rfl, fun _ => rfl, rfl, rfl, rfl, rfl, rfl⟩
      rw [hexec, hdown, hquiet.finish]
    · obtain ⟨f, hf⟩ : ∃ f, s.pli.part = .fallback f := by
        unfold State.inFallback at hp
        cases hpart : s.pli.part with
        | fallback f => exact ⟨f, rfl⟩
        | _ => simp [hpart] at hp
      have hdown : s.linkDown = down := by
        show (match s.pli.part with | .standby => _ | .dispatching => _ | .fallback _ => _ : State) = _
        rw [hf]
        rfl
      rw [hexec, hdown]
      exact congrArg _ (finish_linkDown _ rfl rfl)
    · intro base
      let x := down.post .fallbackEntered none none
      have hdown : s.linkDown = x.fold := by
        show (match s.pli.part with | .standby => _ | .dispatching => _ | .fallback _ => _ : State) = _
        rw [hp]
        rfl
      rw [hdown] at hexec
      obtain ⟨hframe, htgt⟩ := fold_tgt x
      have hcas := cascade_finish x.fold s {}
      exact ⟨_, hexec, hframe.trans hcas.toTargetFrame, hcas.tgt.trans htgt⟩
  · exact if_neg (by simp [h])
  · exact if_pos h
  · intro due
    have hdue : (s.governs && timerDue s.clock (s.pln.proposal.map (·.expiry))) = true ↔ due := by
      rw [Bool.and_eq_true, governs_iff]
    refine ⟨fun h => if_neg fun k => h (hdue.mp k), fun h => ?_⟩
    have hcas := cascade_finish (State.selectRow true s) s {}
    refine ⟨_, if_pos (hdue.mpr h), hcas, fun rows q row k ht hq hk hleast hout hrow h1 h2 => ?_⟩
    have hleaves := (selectRow_leaves ht true fun j r hj hr => by
      rw [hk] at hj
      cases hj
      exact hout r hr).2 q.row (candidateRow_some hrow h1 h2 fun j r hj hr => hleast j r hj hr)
    rw [hk] at hleaves
    have hpropose := ((proposeRow_cases s q.row).1 (by rw [hq]; rfl)).2
    have hselect : State.selectRow true s = s.clearGap.adopt q.row := hleaves.trans hpropose
    obtain ⟨-, hsel, hprop, hgap, -⟩ := adopt_effect s.clearGap q.row
    rw [← hselect] at hsel hprop hgap
    exact ⟨hcas.selected.trans hsel, hcas.proposal.trans hprop, hcas.gap.trans hgap⟩
  · simp only [exec, execSettleTimerExpiry, execWarningPhaseEnd, hw, and_self]
  · have hphase : exec (.warningPhaseEnd w) s = .next (s.setWaterway w (r.nextPhase s.clock)) := by
      simp only [exec, execWarningPhaseEnd, hw]
    refine ⟨fun h => ?_, fun h => ?_, fun h => ?_, fun g h => ?_⟩
    · simp only [exec, execSettleTimerExpiry, hw, h, Bool.false_eq_true, if_false]
    · have hexec : exec (.settleTimerExpiry w) s = .next ((s.setWaterway w { r with settle := none }).finish s { grants := true }) := by
        simp only [exec, execSettleTimerExpiry, hw, h, if_true]
      have hcas := cascade_finish (s.setWaterway w { r with settle := none }) s { grants := true }
      refine ⟨_, hexec, hcas, ?_⟩
      rw [(reach_finish _ s { grants := true }).settle, State.setWaterway_waterwayRec, if_pos rfl, hw]
      rfl
    · have hsame : r.nextPhase s.clock = r := by
        unfold WaterwayRec.nextPhase
        rw [h]
      rw [hphase, hsame, setWaterway_self s w r hw]
    · have hnext : r.nextPhase s.clock = { r with
          generator :=
            if g.high = false then some { pulse := g.pulse + 1, high := true, began := s.clock, tenths := r.row.high }
            else if r.row.count ≠ 0 ∧ g.pulse = r.row.count then none
            else some { g with high := false, began := s.clock, tenths := r.row.low } } := by
        unfold WaterwayRec.nextPhase
        rw [h]
        cases hg : g.high with
        | false => simp [hg]
        | true =>
          simp only [hg, if_true, Bool.true_eq_false, if_false]
          split <;> rfl
      rw [hphase, hnext]

end Sys2Proof.Proofs
end

section
/-! The timers of a step: the lead of a warned one, and the step timer (O56). -/

namespace Sys2Proof.Machine

theorem WaterwayRec.grants_settle (q : WaterwayRec) (u : Slot) (st : PathStep) (now : Word) : (q.grants u st now).settle = q.settle := by
  unfold WaterwayRec.grants WaterwayRec.warn
  cases q.row.warns st.kind <;> cases st.flowChanging <;> rfl

/-- No flow-changing step is granted in a waterway that settles (R67). -/
theorem testGrant_settled {s : State} {u : Slot} {st : PathStep} (h : s.testGrant u st = .granted) (hf : st.flowChanging = true)
    {w : Waterway} {q : WaterwayRec} (hw : s.waterwayOf u = some w) (hq : s.waterwayRec w = some q) : q.settle = none := by
  by_contra hs
  have hroom := testGrant_room h hf hw hq
  have htest : flowTest (s.waterwayRec w) = some .settle := by
    rw [hq]
    show (if q.row.slots ≤ q.inProgress then _ else _) = _
    rw [if_neg (Nat.not_le.mpr hroom), if_pos (Option.isSome_iff_ne_none.mpr hs)]
  unfold State.testGrant at h
  simp only [hf, hw, Option.bind_some, htest, if_true] at h
  repeat' split at h
  all_goals simp at h

/-- A waterway settles with at most `n` steps in progress; and where `alone`, with just so many, none of which is a warned step. -/
def State.settling (x : State) (w : Waterway) (n : Nat) (alone : Prop) : Prop :=
  ∃ y, x.waterwayRec w = some y ∧ y.settle.isSome = true ∧ y.inProgress ≤ n
    ∧ (alone → y.inProgress = n ∧ ∀ v z, x.req v = some z → z.state = .warning → z.slotHeld = true → x.waterwayOf v ≠ some w)

section
variable {s t : State}

/-- While a waterway settles no step in it is added to those in progress, and only a warned one is taken from them (R67, R89). -/
theorem Follows.settling (h : Follows s t) {w : Waterway} {n : Nat} {alone : Prop} (start : s.settling w n alone) : t.settling w n alone := by
  induction h with
  | refl => exact start
  | @quiet x y _ k ih =>
    obtain ⟨q, hq, hs, hn, ha⟩ := ih
    refine ⟨q, (k.resources.waterwayRec w).trans hq, hs, hn, fun a => ⟨(ha a).1, fun v z hz hw hheld => ?_⟩⟩
    rw [k.frame.play.waterwayOf]
    rcases k.requests v z hz with hwait | ⟨r, hr, hsame⟩
    · cases hw.symm.trans (congrArg Prod.fst hwait :)
    · exact (ha a).2 v r hr ((congrArg Prod.fst hsame).symm.trans hw) ((congrArg (·.2.2) hsame).symm.trans hheld)
  | @release x _ v r hr hw ih =>
    obtain ⟨q, hq, hs, hn, ha⟩ := ih
    have hrec := releaseHeld_waterwayRec hr false w
    rw [hq, Option.map_some] at hrec
    refine ⟨_, hrec, ?_, ?_, fun a => ⟨?_, fun u z hz hzw hheld => ?_⟩⟩
    · rw [WaterwayRec.unwarn_settle]
      split <;> exact hs
    · rw [WaterwayRec.unwarn_inProgress]
      split
      · exact (Nat.sub_le _ 1).trans hn
      · exact hn
    · rw [WaterwayRec.unwarn_inProgress, if_neg fun k => (ha a).2 v r hr hw k.1 k.2]
      exact (ha a).1
    · rw [(cascade_releaseHeld x v false).play.waterwayOf]
      by_cases hu : u = v
      · subst hu
        rw [releaseHeld_req, hr] at hz
        cases hz
        cases hheld
      · rw [releaseHeld_other false hu] at hz
        exact (ha a).2 u z hz hzw hheld
  | @grant x _ v r st hr hw hc ht ih =>
    obtain ⟨q, hq, hs, hn, ha⟩ := ih
    have hrec : (x.grantStep v r st).waterwayRec w = if x.waterwayOf v = some w then some (q.grants v st x.clock) else some q := by
      rw [(resources_grantStep x v st r).waterwayRec, granting_waterwayRec, hq]
      rfl
    have hstill (hof : x.waterwayOf v = some w) : st.flowChanging = false := by
      refine Bool.eq_false_iff.mpr fun hf => ?_
      rw [testGrant_settled ht hf hof hq] at hs
      cases hs
    have hother (a : alone) (u : Slot) (z : Request) (hz : (x.grantStep v r st).req u = some z) (hzw : z.state = .warning)
        (hheld : z.slotHeld = true) : (x.grantStep v r st).waterwayOf u ≠ some w := by
      rw [(cascade_grantStep x v r st).play.waterwayOf]
      by_cases hu : u = v
      · subst hu
        obtain ⟨z', hz', -, -, hflow⟩ := grantStep_holding (r := r) hc ht
        rw [hz] at hz'
        cases hz'
        intro hof
        rw [hheld, hstill hof] at hflow
        cases hflow
      · rw [Proofs.grantStep_other r st hu] at hz
        exact (ha a).2 u z hz hzw hheld
    split at hrec
    · rename_i hof
      have hsame : (q.grants v st x.clock).inProgress = q.inProgress := by
        rw [WaterwayRec.grants_inProgress, hstill hof]
        rfl
      refine ⟨_, hrec, by rw [WaterwayRec.grants_settle]; exact hs, by rw [hsame]; exact hn, fun a => ⟨by rw [hsame]; exact (ha a).1, hother a⟩⟩
    · exact ⟨q, hrec, hs, hn, fun a => ⟨(ha a).1, hother a⟩⟩

/-- A converter is free, or another slot's step has been granted it. -/
def State.passed (x : State) (u : Slot) (c : Conv) : Prop := x.holder c = none ∨ ∃ v, v ≠ u ∧ x.holder c = some { slot := v, kind := .granted }

theorem Follows.passed (h : Follows s t) {u : Slot} {c : Conv} (hd : s.dispatchable u = false) (start : s.passed u c) : t.passed u c := by
  induction h with
  | refl => exact start
  | quiet _ k ih =>
    unfold State.passed
    rw [k.resources.holder]
    exact ih
  | release _ hr _ ih =>
    unfold State.passed
    rw [releaseHeld_holder hr]
    split
    · exact .inl rfl
    · exact ih
  | @grant x f v r st _ _ _ ht ih =>
    unfold State.passed
    rw [(resources_grantStep x v st r).holder, granting_holder]
    split
    · refine .inr ⟨v, fun hv => ?_, rfl⟩
      subst hv
      have hable := (testGrant_dispatchable ht)
      rw [f.frame.play.dispatchable, hd] at hable
      cases hable
    · exact ih

end

/-! ## The end of a step by its timer -/

/-- A step has been ended by its timer, before its slot's demand is compared (R74). -/
def State.timedOut (s : State) (u : Slot) (k : StepKind) : State :=
  let x := s.failRequest u true
  ((x.setUnit u { x.unitRec u with fault := true }).sendTimeoutStop u k).post .stepTimeout (some u) (some (stepCode k))

theorem timeoutStep_eq (s : State) (u : Slot) (k : StepKind) : s.timeoutStep u k = (s.timedOut u k).compareDemand u := rfl

theorem cascade_sendTimeoutStop (s : State) (u : Slot) (k : StepKind) : CascadeFrame s (s.sendTimeoutStop u k) := by
  unfold State.sendTimeoutStop
  split
  · exact .refl s
  · split
    · exact cascade_sendOrder s _ .stop none .timeoutStop
    · exact .refl s

theorem sendOrder_ste (s : State) (p : Port) (k : StepKind) (c : Option Conv) (q : Purpose) : (s.sendOrder p k c q).ste = s.ste := by
  unfold State.sendOrder State.hand State.beginSending
  dsimp only
  split <;> rfl

theorem compareDemand_ports (s : State) (u : Slot) : (s.compareDemand u).ports = s.ports := by
  unfold State.compareDemand
  split
  · split <;> rfl
  · rfl

theorem sendTimeoutStop_keeps (s : State) (u : Slot) (k : StepKind) :
    (s.sendTimeoutStop u k).trs = s.trs ∧ (s.sendTimeoutStop u k).ros = s.ros ∧ (s.sendTimeoutStop u k).ste = s.ste := by
  unfold State.sendTimeoutStop
  split
  · exact ⟨rfl, rfl, rfl⟩
  · split
    · exact ⟨sendOrder_trs .., sendOrder_ros .., sendOrder_ste ..⟩
    · exact ⟨rfl, rfl, rfl⟩

section
variable (s : State) (u : Slot) (k : StepKind)

theorem timedOut_trs : (s.timedOut u k).trs = (s.failRequest u true).trs := (sendTimeoutStop_keeps _ u k).1

theorem timedOut_ros : (s.timedOut u k).ros = (s.setUnit u { s.unitRec u with fault := true }).ros := by
  have hros := (failRequest_ros s u true).1
  refine (sendTimeoutStop_keeps _ u k).2.1.trans ?_
  show ((s.failRequest u true).setUnit u { (s.failRequest u true).unitRec u with fault := true }).ros = _
  rw [State.unitRec_congr hros]
  exact congrArg (fun b : Ros => { b with units := b.units.set u { s.unitRec u with fault := true } }) hros

theorem timedOut_frame : CascadeFrame ((s.setUnit u { s.unitRec u with fault := true }).post .stepTimeout (some u) (some (stepCode k)))
    (s.timedOut u k) := by
  have hunit := State.unitRec_congr (failRequest_ros s u true).1 u
  refine (((cascade_failRequest s u true).setUnit u ?_).trans (cascade_sendTimeoutStop _ u k)).post_both ?_ _ _ _
  · rw [hunit]
  · exact (sendTimeoutStop_keeps _ u k).2.2.trans (failRequest_ste s u true)

theorem timedOut_undispatchable : (s.timedOut u k).dispatchable u = false := by
  have hfault : ((s.timedOut u k).unitRec u).fault = true := by
    rw [State.unitRec_congr (timedOut_ros s u k), State.setUnit_unitRec, if_pos rfl]
  unfold State.dispatchable
  simp [hfault]

theorem timedOut_renewed (e : Word) : (s.timedOut u k).renewed u e = s.renewed u e := by
  have hunit : (s.timedOut u k).unitRec u = { s.unitRec u with fault := true } := by
    rw [State.unitRec_congr (timedOut_ros s u k), State.setUnit_unitRec, if_pos rfl]
  have hpli : (s.timedOut u k).pli = s.pli := (timedOut_frame s u k).pli
  refine renewed_congr ?_ (by rw [hunit]) (congrArg Pli.part hpli) e none
  unfold State.known State.reported
  rw [hunit]

theorem timedOut_req : (s.timedOut u k).req u = none := (State.req_congr (timedOut_trs s u k) u).trans (endRequest_req _ u)

theorem timeoutStep_request : (s.timeoutStep u k).req u = s.renewed u s.trs.entryCounter := by
  have hd := timedOut_undispatchable s u k
  have hauto : (s.timedOut u k).automatic u = false := by
    unfold State.automatic
    rw [hd]
    rfl
  rw [timeoutStep_eq, compareDemand_renewed (timedOut_req s u k), hauto, timedOut_trs, failRequest_counter]
  exact timedOut_renewed s u k s.trs.entryCounter

theorem timeoutStep_undispatchable : (s.timeoutStep u k).dispatchable u = false :=
  ((cascade_compareDemand (s.timedOut u k) u).play.dispatchable u).trans (timedOut_undispatchable s u k)

theorem timeoutStep_resources : SameResources (s.releaseHeld u true) (s.timeoutStep u k) :=
  ((resources_failRequest s u true).trans (.of_trs (timedOut_trs s u k))).trans (resources_compareDemand _ u)

theorem timeoutStep_outstanding {p : Port} (hp : (s.unitRec u).port = some p) (hq : (s.portRec p).state = .qualified) (hk : k ≠ .stop) :
    ∃ tag, ((s.timeoutStep u k).portRec p).outstanding = some { tag := tag, kind := .stop, purpose := .timeoutStop } := by
  let x := s.failRequest u true
  let y := x.setUnit u { x.unitRec u with fault := true }
  have hport : (y.unitRec u).port = some p := by
    show ((x.setUnit u _).unitRec u).port = _
    rw [State.setUnit_unitRec, if_pos rfl, State.unitRec_congr (failRequest_ros s u true).1]
    exact hp
  have hstate : (y.portRec p).state = .qualified := ((cascade_failRequest s u true).play.port_state p).trans hq
  have hsend : y.sendTimeoutStop u k = y.sendOrder p .stop none .timeoutStop := by
    unfold State.sendTimeoutStop
    rw [hport]
    exact if_pos ⟨hk, hstate⟩
  have hports : (s.timeoutStep u k).ports = (y.sendOrder p .stop none .timeoutStop).ports := by
    rw [timeoutStep_eq, compareDemand_ports, ← hsend]
    rfl
  exact ⟨_, by rw [State.portRec_congr hports, sendOrder_outstanding, if_pos rfl]⟩

end

/-- The waterway of a slot whose step has timed out settles (R78). -/
theorem timeoutStep_settling {s : State} {u : Slot} {k : StepKind} {r : Request} {w : Waterway} {q : WaterwayRec} (hr : s.req u = some r)
    (hheld : r.slotHeld = true) (hof : s.waterwayOf u = some w) (hw : s.waterwayRec w = some q) (hs : q.row.settle ≠ 0) :
    (s.timeoutStep u k).settling w (q.inProgress - 1) (∀ v y, v ≠ u → s.req v = some y → y.state ≠ .warning) := by
  have hplace := (given_of_released hr (timeoutStep_resources s u k)).place w q hheld hof hw
  obtain ⟨x, hx, hpair⟩ := Option.map_eq_some_iff.mp hplace
  obtain ⟨hn, hsettle⟩ := Prod.mk.inj hpair
  rw [if_pos rfl, if_neg hs] at hsettle
  refine ⟨x, hx, by rw [hsettle]; rfl, hn.le, fun a => ⟨hn, fun v z hz hzw hzh => ?_⟩⟩
  by_cases hv : v = u
  · subst hv
    rw [timeoutStep_request] at hz
    rw [(of_renewed hz).2.2.1] at hzw
    cases hzw
  · have hsame : (s.timeoutStep u k).req v = s.req v := by
      rw [timeoutStep_eq, compareDemand_other hv, State.req_congr (timedOut_trs s u k)]
      exact (endRequest_other hv).trans (releaseHeld_other true hv)
    rw [hsame] at hz
    exact absurd hzw (a v z hv hz)

end Sys2Proof.Machine

namespace Sys2Proof.Proofs
open Sys2Proof.Machine

theorem orderStep_outstanding {s : State} {u : Slot} {r : Request} {st : PathStep} {p : Port} (hr : s.req u = some r)
    (hc : r.current = some st) (hp : (s.unitRec u).port = some p) :
    ((s.orderStep u).portRec p).outstanding = some { tag := (s.portRec p).tagCounter, kind := st.kind, purpose := .supervised } := by
  have hports : (s.orderStep u).ports = (s.sendOrder p st.kind r.conv .supervised).ports := by
    unfold State.orderStep
    simp only [hr, hp, hc]
    rfl
  rw [State.portRec_congr hports, sendOrder_outstanding, if_pos rfl]

/-- Settles O56. -/
theorem stepTimers : Obligations.StepTimers := by
  unfold Obligations.StepTimers
  refine ⟨fun u s => ⟨fun h => ?_, fun r st p hr hw hdue hc hp => ?_⟩, fun u s => ⟨fun h => ?_, fun r st hr ho hdue hc => ?_⟩⟩
  · refine if_neg fun k => ?_
    simp only [State.leadDue, Option.any_eq_true, Bool.and_eq_true, beq_iff_eq] at k
    obtain ⟨r, hr, hk⟩ := k
    exact h r hr hk
  · intro tag
    have hlead : s.leadDue u = true := by simp [State.leadDue, hr, hw, hdue]
    have hexec : exec (.leadTimerExpiry u) s = .next ((s.orderStep u).finish s) := if_pos hlead
    have hframe := cascade_orderStep s u
    obtain ⟨htrs, hste⟩ := orderStep_effect hr hc hp
    have hreq : (s.orderStep u).req u = some (r.underOrder s tag st.kind u) := (orderStep_of_trs (s := s) rfl hr hc hp).1
    have hother (v : Slot) (hv : v ≠ u) : (s.orderStep u).req v = s.req v := orderStep_other hv
    have hres := resources_orderStep s u
    have hposted : CascadeFrame (s.post .stepOrdered (some u) (some (stepCode st.kind))) (s.orderStep u) :=
      { hframe with posted := by rw [hste]; exact .refl }
    have hout := orderStep_outstanding hr hc hp
    have htime (table : CapTable) (ht : s.head.caps.get u = some table) : s.stepTimeout u st.kind = match st.kind with
        | .gStart => table.header.gStart | .pStart => table.header.pStart | .prime => table.header.prime
        | .deprime => table.header.deprime | .stop => table.header.stop := by
      unfold State.stepTimeout
      rw [ht]
      cases st.kind <;> rfl
    refine ⟨_, hexec, ?_⟩
    rcases ordered_finish hframe hr (by unfold Request.granted; rw [hw]; rfl) hreq rfl hother
      ⟨hres.orphans, hres.c1, hres.c2, hres.waterways⟩ with hfin | hfin
    · rw [hfin]
      exact ⟨hposted, hreq, hother, hout, htime⟩
    · rw [hfin]
      have hsame := State.req_congr (allocate_trs_eq (s.orderStep u))
      exact ⟨hposted.trans (cascade_allocate _), (hsame u).trans hreq, fun v hv => (hsame v).trans (hother v hv),
        (allocate_outstanding _ p).trans hout, htime⟩
  · refine if_neg fun k => ?_
    simp only [State.stepDue, Option.any_eq_true, Bool.and_eq_true] at k
    obtain ⟨r, hr, hord, hk⟩ := k
    exact h r hr ⟨by simpa [Request.ordered] using hord, hk⟩
  · have hstep : s.stepDue u = true := by
      rcases ho with ho | ho <;> simp [State.stepDue, hr, Request.ordered, ho, hdue]
    have hcur : (s.req u).bind Request.current = some st := by rw [hr]; exact hc
    have hexec : exec (.stepTimerExpiry u) s = .next ((s.timeoutStep u st.kind).finish s) := by
      refine (if_pos hstep).trans ?_
      rw [hcur]
    have hframe := (timedOut_frame s u st.kind).trans (cascade_compareDemand _ u)
    have hcas := cascade_finish (s.timeoutStep u st.kind) s {}
    have hd := timeoutStep_undispatchable s u st.kind
    have hgiven := given_of_released hr (timeoutStep_resources s u st.kind)
    obtain ⟨m, hm, hfin⟩ := follows_finish (s.timeoutStep u st.kind) s {}
    have htrs : ((s.timeoutStep u st.kind).finish s).trs = m.trs := by
      rcases hfin with h | h
      · rw [h]
      · rw [h, allocate_trs_eq]
    refine ⟨_, hexec, hframe.trans hcas, ?_, fun c hconv => ?_, fun w q x hheld hof hq hsettle hx => ?_, fun w q hheld hof hq => ?_,
      fun p hwf hp hqual hk => ?_⟩
    · have hren : (s.timeoutStep u st.kind).renewed u s.trs.entryCounter = s.renewed u s.trs.entryCounter := by
        rw [timeoutStep_eq, (cascade_compareDemand _ u).play.renewed, timedOut_renewed]
      rw [← hren]
      refine finish_renewed hd ?_
      rw [hren]
      exact timeoutStep_request s u st.kind
    · rw [State.holder_congr htrs]
      exact hm.passed hd (.inl (hgiven.converter c hconv))
    · obtain ⟨y, hy, -, hle, halone⟩ := hm.settling (timeoutStep_settling hr hheld hof hq hsettle)
      rw [State.waterwayRec_congr htrs, hy] at hx
      cases hx
      exact ⟨hle, fun a => (halone a).1⟩
    · rw [(reach_finish _ s {}).settle]
      have hplace := congrArg (Option.map Prod.snd) (hgiven.place w q hheld hof hq)
      rwa [Option.map_map] at hplace
    · obtain ⟨tag, htag⟩ := timeoutStep_outstanding s u st.kind hp hqual hk
      refine ⟨tag, (reach_finish _ s {}).order htag nofun fun v hv => .inl ?_⟩
      have hvp : (s.unitRec v).port = some p := by
        have hv := (hframe.play.unit_port v).symm.trans hv
        have hset : ((s.setUnit u { s.unitRec u with fault := true }).unitRec v).port = (s.unitRec v).port := by
          rw [State.setUnit_unitRec]
          split
          · rename_i h
            rw [h]
          · rfl
        exact hset.symm.trans hv
      have hvu : v = u := Option.some.inj ((slotOf_of_wf hwf hvp).symm.trans (slotOf_of_wf hwf hp))
      rw [hvu]
      exact hd

end Sys2Proof.Proofs
end

section
/-! A STATUS frame: what is written of it, the stop under an emergency hold, and what becomes of the slot's converters and orphan
record (O53). -/

namespace Sys2Proof.Machine

theorem State.setUnit_setUnit (s : State) (u : Slot) (a b : UnitRec) : (s.setUnit u a).setUnit u b = s.setUnit u b := by
  simp only [State.setUnit, State.setRos, SlotMap.set_set]

theorem sendOrder_setUnit (s : State) (u : Slot) (r : UnitRec) (p : Port) (k : StepKind) (c : Option Conv) (q : Purpose) :
    (s.sendOrder p k c q).setUnit u r = (s.setUnit u r).sendOrder p k c q := by
  unfold State.sendOrder State.hand
  dsimp only
  have hsame (x : PortRec) : ((s.setUnit u r).setPort p x).portRec p = (s.setPort p x).portRec p := rfl
  have hrec : (s.setUnit u r).portRec p = s.portRec p := rfl
  rw [hrec, hsame]
  split <;> rfl

/-- The slot's record as a report leaves it (R3, R6, R9, R17). -/
def State.reporting (s : State) (u : Slot) (r : Report) : UnitRec :=
  { s.unitRec u with
    report := some r
    trip := (s.unitRec u).trip || decide (r.mode = .trip)
    lastSetpoint := if r.mode = .stable .gen ∧ s.reported u ≠ some (.stable .gen) then none else (s.unitRec u).lastSetpoint
    hold := (s.unitRec u).hold.map (fun h => if h.emergency then { h with stopOutstanding := r.mode.running } else h) }

/-- The trip event of a report, where the mark was clear (R9). -/
def State.tripEvent (s x : State) (u : Slot) (m : Reported) (cause : Byte) : State :=
  if m = .trip ∧ (s.unitRec u).trip = false
  then x.post .unitTrip (some u) (if cause = 0 then none else some (cause.toNat : Int)) else x

theorem tripEvent_setUnit (s x : State) (u v : Slot) (m : Reported) (cause : Byte) (r : UnitRec) :
    (s.tripEvent x u m cause).setUnit v r = s.tripEvent (x.setUnit v r) u m cause := by
  unfold State.tripEvent
  split <;> rfl

theorem tripEvent_unitRec (s x : State) (u v : Slot) (m : Reported) (cause : Byte) :
    (s.tripEvent x u m cause).unitRec v = x.unitRec v := by
  unfold State.tripEvent
  split <;> rfl

/-- The report written, before the slot's emergency hold is looked at. -/
def State.written (s : State) (u : Slot) (r : Report) (cause : Byte) : State :=
  s.tripEvent (s.setUnit u { s.reporting u r with hold := (s.unitRec u).hold }) u r.mode cause

theorem noteTrip_eq (s : State) (u : Slot) (r : Report) (cause : Byte) :
    (s.writeReport u r).noteTrip u r.mode cause = s.written u r cause := by
  let r1 : UnitRec := { s.unitRec u with
    report := some r
    lastSetpoint := if r.mode = .stable .gen ∧ s.reported u ≠ some (.stable .gen) then none else (s.unitRec u).lastSetpoint }
  have hwrite : s.writeReport u r = s.setUnit u r1 := by
    unfold State.writeReport
    simp only [decide_eq_true_eq]
    rfl
  have hrec : (s.setUnit u r1).unitRec u = r1 := (State.setUnit_unitRec s u u r1).trans (if_pos rfl)
  unfold State.noteTrip State.written State.tripEvent
  rw [hwrite, hrec, State.setUnit_setUnit]
  by_cases h : r.mode = .trip ∧ (s.unitRec u).trip = false
  · have hmark : ({ r1 with trip := true } : UnitRec) = { s.reporting u r with hold := (s.unitRec u).hold } := by
      simp [State.reporting, r1, h.1]
    rw [if_pos h, if_pos h, hmark]
  · have hmark : ((s.unitRec u).trip || decide (r.mode = .trip)) = (s.unitRec u).trip := by
      cases ht : (s.unitRec u).trip with
      | true => rfl
      | false => simpa [ht] using h
    have hsame : r1 = { s.reporting u r with hold := (s.unitRec u).hold } := by
      simp [State.reporting, r1, hmark]
    rw [if_neg h, if_neg h, hsame]

/-- The report written, with the trip event and the slot's emergency hold (R9, R17). -/
def State.noted (s : State) (u : Slot) (r : Report) (cause : Byte) : State :=
  s.tripEvent (s.setUnit u (s.reporting u r)) u r.mode cause

/-- The stop order that a report asks for, and the end of the one outstanding (R17). -/
def State.restops (s x : State) (u : Slot) (p : Port) (m : Reported) : State :=
  if ((s.unitRec u).hold.any (fun h => h.emergency && !h.stopOutstanding) && m.running) = true then x.sendOrder p .stop none .emergency
  else if ((s.unitRec u).hold.any (·.emergency) && !m.running) = true then x.ceaseOrder u .emergency else x

theorem watchEmergency_eq (s : State) (u : Slot) (p : Port) (hp : (s.unitRec u).port = some p) (r : Report) (cause : Byte) :
    (s.written u r cause).watchEmergency u r.mode = s.restops (s.noted u r cause) u p r.mode := by
  have hrec : (s.written u r cause).unitRec u = { s.reporting u r with hold := (s.unitRec u).hold } :=
    (tripEvent_unitRec ..).trans ((State.setUnit_unitRec ..).trans (if_pos rfl))
  have hset (x : Option Hold) : (s.written u r cause).setHold u x
      = s.tripEvent (s.setUnit u { s.reporting u r with hold := x }) u r.mode cause := by
    unfold State.setHold
    rw [hrec]
    unfold State.written
    rw [tripEvent_setUnit, State.setUnit_setUnit]
  have hsame (h : (s.unitRec u).hold.map (fun h => if h.emergency then { h with stopOutstanding := r.mode.running } else h) = (s.unitRec u).hold) :
      s.noted u r cause = s.written u r cause := by
    unfold State.noted State.written
    rw [show s.reporting u r = { s.reporting u r with hold := (s.unitRec u).hold } from by
      conv => lhs; unfold State.reporting
      rw [h]
      rfl]
  unfold State.watchEmergency State.restops
  rw [hrec]
  dsimp only
  cases hh : (s.unitRec u).hold with
  | none =>
    rw [hsame (by rw [hh]; rfl)]
    rfl
  | some h =>
    simp only [Option.any_some]
    by_cases he : h.emergency = true
    · have hnoted (x : Hold) (hx : x = { h with stopOutstanding := r.mode.running }) :
          s.noted u r cause = (s.written u r cause).setHold u (some x) := by
        rw [hset]
        unfold State.noted
        rw [show s.reporting u r = { s.reporting u r with hold := some x } from by
          conv => lhs; unfold State.reporting
          rw [hh, Option.map_some, if_pos he, ← hx]
          rfl]
      rw [if_neg (by simp [he])]
      by_cases hrun : r.mode.running = true
      · rw [if_pos hrun]
        by_cases hout : h.stopOutstanding = true
        · have hkept : ({ h with stopOutstanding := r.mode.running } : Hold) = h := by rw [hrun, ← hout]
          rw [hsame (by rw [hh, Option.map_some, if_pos he, hkept]), if_pos hout, if_neg (by simp [hout]), if_neg (by simp [hrun])]
        · have hport : ((s.written u r cause).unitRec u).port = some p := by rw [hrec]; exact hp
          have hsend : ((s.written u r cause).sendOrder p .stop none .emergency).unitRec u = (s.written u r cause).unitRec u :=
            State.unitRec_congr (sendOrder_ros ..) u
          rw [hnoted { h with stopOutstanding := true } (by rw [hrun]), if_neg hout, if_pos (by simp [he, hout, hrun])]
          unfold State.sendEmergencyStop
          rw [hport]
          show State.setHold _ u _ = _
          unfold State.setHold
          rw [hsend, sendOrder_setUnit]
      · have hstill : r.mode.running = false := Bool.eq_false_iff.mpr hrun
        rw [hnoted { h with stopOutstanding := false } (by rw [hstill]), if_neg hrun, if_neg (by simp [hstill]), if_pos (by simp [he, hstill])]
    · rw [hsame (by rw [hh, Option.map_some, if_neg he]), if_pos (by simpa using he), if_neg (by simp [he]), if_neg (by simp [he])]

/-! ## What a judged report leaves of the resources -/

/-- Orphan records stay, and a converter that no request has stays with its holder and is given to none. -/
structure Spares (x y : State) : Prop where
  orphan : ∀ v, y.orphan v = x.orphan v
  holder : ∀ c, (∀ v q, x.req v = some q → q.conv ≠ some c) → y.holder c = x.holder c ∧ ∀ v q, y.req v = some q → q.conv ≠ some c

theorem Spares.refl (x : State) : Spares x x := ⟨fun _ => rfl, fun _ h => ⟨rfl, h⟩⟩

theorem Spares.trans {x y z : State} (h : Spares x y) (k : Spares y z) : Spares x z where
  orphan v := (k.orphan v).trans (h.orphan v)
  holder c hn := by
    obtain ⟨hy, hyn⟩ := h.holder c hn
    obtain ⟨hz, hzn⟩ := k.holder c hyn
    exact ⟨hz.trans hy, hzn⟩

theorem Spares.of_trs {x y : State} (h : y.trs = x.trs) : Spares x y where
  orphan := State.orphan_congr h
  holder c hn := ⟨State.holder_congr h c, fun v q hq => hn v q ((State.req_congr h v).symm.trans hq)⟩

theorem spares_setReq (s : State) (u : Slot) (r : Option Request)
    (h : ∀ q, r = some q → q.conv = none ∨ ∃ x, s.req u = some x ∧ q.conv = x.conv) : Spares s (s.setReq u r) where
  orphan _ := rfl
  holder c hn := by
    refine ⟨by cases c <;> rfl, fun v q hq => ?_⟩
    rw [State.setReq_req] at hq
    split at hq
    · rcases h q hq with hnone | ⟨x, hx, hsame⟩
      · rw [hnone]
        nofun
      · rw [hsame]
        exact hn u x hx
    · exact hn v q hq

theorem spares_endRequest (s : State) (u : Slot) : Spares s (s.endRequest u) := by
  have hset : Spares s (s.setReq u none) := spares_setReq s u none fun _ h => (Option.some_ne_none _ h.symm).elim
  exact hset.trans (.of_trs (ceaseOrder_trs (s.setReq u none) u .supervised))

theorem spares_releaseHeld (s : State) (u : Slot) (settle : Bool) : Spares s (s.releaseHeld u settle) := by
  cases hr : s.req u with
  | none =>
    have hsame : s.releaseHeld u settle = s := by
      unfold State.releaseHeld
      rw [hr]
    rw [hsame]
    exact .refl s
  | some r =>
    refine ⟨fun v => ?_, fun c hn => ⟨?_, fun v q hq => ?_⟩⟩
    · have hset (y : State) (q : Option Request) : (y.setReq u q).orphan v = y.orphan v := rfl
      rw [releaseHeld_eq hr, hset, State.unwarn_orphan, State.dropPlace_orphan, State.dropConverter_only]
      rfl
    · rw [releaseHeld_holder hr, if_neg (hn u r hr)]
    · by_cases hv : v = u
      · subst hv
        rw [releaseHeld_req, hr] at hq
        cases hq
        nofun
      · rw [releaseHeld_other settle hv] at hq
        exact hn v q hq

theorem spares_withdraw (s : State) (u : Slot) : Spares s (s.withdraw u) := by
  refine (spares_releaseHeld s u false).trans ?_
  show Spares _ (match (s.releaseHeld u false).req u with | none => _ | some r => _)
  split
  · exact .refl _
  · rename_i r hr
    exact spares_setReq _ u _ fun q hq => .inr ⟨r, hr, by cases hq; rfl⟩

theorem spares_waitOn {s : State} {u : Slot} {r : Request} (hr : s.req u = some r) (c : ReqClass) (d : Stable) (path : List PathStep) :
    Spares s (s.waitOn u r c d path) := by
  unfold State.waitOn
  split
  · exact spares_endRequest s u
  · exact spares_setReq s u _ fun q hq => .inr ⟨r, hr, by cases hq; rfl⟩

theorem spares_rewarn {s : State} {u : Slot} {r : Request} (hr : s.req u = some r) (c : ReqClass) (d : Stable) :
    Spares s (s.rewarn u r c d) := by
  unfold State.rewarn
  dsimp only
  split
  · exact spares_setReq s u _ fun q hq => .inr ⟨r, hr, by cases hq; rfl⟩
  · refine (spares_withdraw s u).trans ?_
    split
    · exact .refl _
    · rename_i hx
      exact spares_waitOn hx c d _

theorem spares_failRequest (s : State) (u : Slot) (settle : Bool) : Spares s (s.failRequest u settle) :=
  (spares_releaseHeld s u settle).trans (spares_endRequest _ u)

theorem spares_completeStep (s : State) (u : Slot) (r : Request) (k : StepKind) : Spares s (s.completeStep u r k) := by
  have hdone : Spares s (s.stepDone u k) :=
    ((spares_releaseHeld s u true).trans (.of_trs rfl)).trans (.of_trs (ceaseOrder_trs _ u .supervised))
  rw [completeStep_eq]
  split
  · exact hdone.trans (spares_endRequest _ u)
  · exact hdone.trans (spares_setReq _ u _ fun q hq => .inl (by cases hq; rfl))

theorem spares_judgeStep {s : State} {u : Slot} {r : Request} (hr : s.req u = some r) (st : PathStep) (m : Reported) :
    Spares s (s.judgeStep u r st m) := by
  unfold State.judgeStep
  split
  · exact spares_completeStep s u r _
  split
  · exact spares_failRequest s u true
  split
  · refine spares_setReq s u _ fun q hq => .inr ⟨r, hr, ?_⟩
    cases hq
    unfold Request.seenInStep
    split <;> rfl
  split
  · exact .refl s
  · exact (spares_failRequest s u true).trans (.of_trs rfl)

theorem spares_supervise (s : State) (u : Slot) (m : Reported) (changed : Bool) : Spares s (s.supervise u m changed) := by
  unfold State.supervise
  cases hr : s.req u with
  | none => exact .refl s
  | some r =>
    dsimp only
    split
    · split
      · exact spares_endRequest s u
      · split
        · exact spares_waitOn hr _ _ _
        · exact .refl s
    · split
      · exact (spares_withdraw s u).trans (spares_endRequest _ u)
      · split
        · exact spares_rewarn hr _ _
        · exact .refl s
    · split
      · exact .refl s
      · exact spares_judgeStep hr _ m

/-! ## The watching of converters -/

/-- The unit ports, what has been sent on them, and the requests are the same. -/
structure Looks (x y : State) : Prop where
  ports : y.ports = x.ports
  unitOut : y.unitOut = x.unitOut
  requests : y.trs.requests = x.trs.requests

theorem Looks.refl (x : State) : Looks x x := ⟨rfl, rfl, rfl⟩

theorem Looks.trans {x y z : State} (h : Looks x y) (k : Looks y z) : Looks x z :=
  ⟨k.ports.trans h.ports, k.unitOut.trans h.unitOut, k.requests.trans h.requests⟩

theorem Looks.of_only {x y : State} (h : OnlyTrs x y) (hr : y.trs.requests = x.trs.requests) : Looks x y :=
  ⟨(congrArg State.ports h :), (congrArg State.unitOut h :), hr⟩

theorem Looks.req {x y : State} (h : Looks x y) (u : Slot) : y.req u = x.req u := congrArg (·.get u) h.requests

theorem looks_releaseOrphan (s : State) (u : Slot) : Looks s (s.releaseOrphan u) := by
  cases ho : s.orphan u with
  | none =>
    rw [releaseOrphan_none s u ho]
    exact .refl s
  | some o =>
    have hplace (x : State) : Looks x (x.dropPlace u o.slotHeld true) := by
      unfold State.dropPlace
      split
      · exact .of_only (only_updateWaterwayOf x u _) (updateWaterwayOf_requests ..)
      · exact .refl x
    have hconv : Looks s (s.dropConverter o.conv) := by
      rw [State.dropConverter_only]
      exact ⟨rfl, rfl, rfl⟩
    rw [releaseOrphan_eq s u ho]
    exact (hconv.trans (hplace _)).trans ⟨rfl, rfl, rfl⟩

theorem looks_watchConverters (s : State) (u : Slot) (m : Reported) (c : Option Conv) : Looks s (s.watchConverters u m c) := by
  have hobserved (x : State) : Looks x (x.releaseObserved u) := by
    rw [releaseObserved_eq]
    exact ⟨rfl, rfl, rfl⟩
  have hclaim (x : State) (d : Conv) : Looks x (x.claimObserved u d) := by
    unfold State.claimObserved
    split
    · exact .refl x
    · split
      · exact .of_only (only_setHolder x d _) (setHolder_requests ..)
      · exact ⟨rfl, rfl, rfl⟩
  cases m with
  | step k =>
    show Looks s (if _ then _ else _)
    split
    · split
      · exact hclaim s _
      · exact .refl s
    · exact hobserved s
  | _ => exact (looks_releaseOrphan s u).trans (hobserved _)

section
variable {s : State} {u : Slot} {c : Option Conv} {m : Reported}

theorem watchConverters_settled (hm : ∀ k, m ≠ .step k) : s.watchConverters u m c = (s.releaseOrphan u).releaseObserved u := by
  cases m with
  | step k => exact absurd rfl (hm k)
  | _ => rfl

theorem watchConverters_other (hm : m ≠ .step .pStart) :
    ∃ x : State, s.watchConverters u m c = x.releaseObserved u := by
  cases m with
  | step k => exact ⟨s, if_neg hm⟩
  | _ => exact ⟨_, rfl⟩

theorem watchConverters_pStart (hr : s.req u = none) {d : Conv} : s.watchConverters u (.step .pStart) (some d) = s.claimObserved u d := by
  show (match some d, s.req u with | some c, none => s.claimObserved u c | _, _ => s : State) = _
  rw [hr]

theorem releaseObserved_orphan (s : State) (u v : Slot) : (s.releaseObserved u).orphan v = s.orphan v := by
  rw [releaseObserved_eq]
  rfl

theorem claimObserved_orphan (s : State) (u v : Slot) (d : Conv) : (s.claimObserved u d).orphan v = s.orphan v := by
  unfold State.claimObserved
  split
  · rfl
  · split
    · exact State.setHolder_orphan ..
    · rfl

/-- The orphan records after the report of a step, and the other slots' after any (R80). -/
theorem watchConverters_orphan {v : Slot} (h : v = u → ∃ k, m = .step k) : (s.watchConverters u m c).orphan v = s.orphan v := by
  cases m with
  | step k =>
    show (if _ then _ else _ : State).orphan v = _
    split
    · split
      · exact claimObserved_orphan ..
      · rfl
    · exact releaseObserved_orphan ..
  | _ =>
    refine (releaseObserved_orphan _ u v).trans ((releaseOrphan_orphan s u v).trans (if_neg fun hv => ?_))
    obtain ⟨k, hk⟩ := h hv
    cases hk

/-- A stable mode or TRIP releases the slot's orphan record (R80). -/
theorem watchConverters_released (hm : ∀ k, m ≠ .step k) : (s.watchConverters u m c).orphan u = none := by
  rw [watchConverters_settled hm, releaseObserved_orphan, releaseOrphan_orphan, if_pos rfl]

/-- No report but P_START leaves the slot a converter that it observes (R80, R81). -/
theorem watchConverters_unobserved (hm : m ≠ .step .pStart) (d : Conv) :
    (s.watchConverters u m c).holder d ≠ some { slot := u, kind := .observed } := by
  obtain ⟨x, hx⟩ := watchConverters_other (s := s) (u := u) (c := c) hm
  rw [hx, releaseObserved_holder]
  split
  · nofun
  · rename_i hobs
    intro h
    exact hobs (beq_iff_eq.mpr h)

/-- P_START takes no converter from its holder (R81). -/
theorem watchConverters_held (hm : m = .step .pStart) {d : Conv} {x : Holder} (hd : s.holder d = some x) :
    (s.watchConverters u m c).holder d = some x := by
  subst hm
  show (match c, s.req u with | some e, none => s.claimObserved u e | _, _ => s : State).holder d = _
  split
  · rename_i e _
    unfold State.claimObserved
    split
    · exact hd
    · split
      · rename_i hfree
        rw [State.setHolder_holder, if_neg]
        · exact hd
        · intro he
          subst he
          simp [hd] at hfree
      · exact hd
  · exact hd

end

theorem restops_trs (s x : State) (u : Slot) (p : Port) (m : Reported) : (s.restops x u p m).trs = x.trs := by
  unfold State.restops
  split
  · exact sendOrder_trs ..
  · split
    · exact ceaseOrder_trs ..
    · rfl

theorem ceaseOrder_ste (s : State) (u : Slot) (q : Purpose) : (s.ceaseOrder u q).ste = s.ste := by
  unfold State.ceaseOrder
  split
  · rfl
  · split <;> rfl

theorem restops_frame (s x : State) (u : Slot) (p : Port) (m : Reported) :
    CascadeFrame x (s.restops x u p m) ∧ (s.restops x u p m).ste = x.ste := by
  unfold State.restops
  split
  · exact ⟨cascade_sendOrder .., sendOrder_ste ..⟩
  · split
    · exact ⟨cascade_ceaseOrder .., ceaseOrder_ste ..⟩
    · exact ⟨.refl x, rfl⟩

/-- Whether the slot's demand is compared after the report or not, the requests have the same resources (R62). -/
theorem quiet_compared {P : Prop} [Decidable P] (s : State) (u : Slot) : Quiet s (if P then s.compareDemand u else s) := by
  split
  · exact quiet_compareDemand s u
  · exact .refl s

theorem compared_ports {P : Prop} [Decidable P] (s : State) (u : Slot) : (if P then s.compareDemand u else s : State).ports = s.ports := by
  split
  · exact compareDemand_ports s u
  · rfl

theorem compared_unitOut {P : Prop} [Decidable P] (s : State) (u : Slot) :
    (if P then s.compareDemand u else s : State).unitOut = s.unitOut := by
  unfold State.compareDemand
  repeat' split
  all_goals rfl

/-- An emergency hold leaves its slot without a request, whatever is compared (R62). -/
theorem compared_stopped {P : Prop} [Decidable P] {s : State} {u : Slot} (h : s.stopped u) : (if P then s.compareDemand u else s : State).stopped u := by
  split
  · exact (reach_compareDemand s u).stopped h
  · exact h

end Sys2Proof.Machine

namespace Sys2Proof.Proofs
open Sys2Proof.Machine

/-- An order sent on an idle port leaves at once (R141, R150). -/
theorem sendOrder_sent {s : State} {p : Port} (h : (s.portRec p).sending = none) (k : StepKind) (c : Option Conv) (q : Purpose) :
    (s.sendOrder p k c q).unitOut = s.unitOut ++ [(p, .modeOrder k c (s.portRec p).tagCounter)] := by
  have hrec (r : PortRec) : (s.setPort p r).portRec p = r := (State.setPort_portRec s p p r).trans (if_pos rfl)
  unfold State.sendOrder State.hand
  dsimp only
  rw [hrec, h]
  rfl

/-- An accepted report, up to the cascade (R3, R6, R9, R17, R62, R72, R80, R81). -/
theorem acceptStatus_eq {s : State} {u : Slot} {p : Port} (hp : (s.unitRec u).port = some p) (r : Report) (cause : Byte) :
    let judged := ((s.restops (s.noted u r cause) u p r.mode).supervise u r.mode (decide (s.reported u ≠ some r.mode))).watchConverters
      u r.mode r.conv
    s.acceptStatus u r cause
      = if s.reported u ≠ some r.mode ∨ (s.req u).isSome = true then judged.compareDemand u else judged := by
  intro judged
  have hbne : (s.reported u != some r.mode) = decide (s.reported u ≠ some r.mode) := by
    by_cases h : s.reported u = some r.mode <;> simp [h]
  have hjudged : ((((s.writeReport u r).noteTrip u r.mode cause).watchEmergency u r.mode).supervise u r.mode
      (s.reported u != some r.mode)).watchConverters u r.mode r.conv = judged := by
    rw [noteTrip_eq, watchEmergency_eq s u p hp, hbne]
  unfold State.acceptStatus
  dsimp only
  rw [hjudged, hbne]
  simp only [Bool.or_eq_true, decide_eq_true_eq]

/-- A report that counts (R147). -/
theorem execStatus_accepted {p : Port} {mode : Byte} {power : Half} {remote available converter cause : Byte} {s : State} {m : Reported}
    {rem av : Bool} {u : Slot} (hm : reportedOfCode mode = some m) (hrem : yesNoOfCode remote = some rem)
    (hav : yesNoOfCode available = some av) (hs : s.slotOf p = some u) (hq : (s.portRec p).state = .qualified) :
    exec (.status p mode power remote available converter cause) s
      = .next (((s.setPort p { s.portRec p with framer := none, liveness := some (later s.clock s.params.unitTimeout) }).acceptStatus u
          (Report.ofStatus m power.toInt rem av (convOfCode converter)) cause).finish s) := by
  have hrec : (s.takeUnitFrame p).portRec p = { s.portRec p with framer := none } := (State.setPort_portRec s p p _).trans (if_pos rfl)
  have hslot : (s.takeUnitFrame p).slotOf p = some u := hs
  have hstate : ¬ ((s.takeUnitFrame p).portRec p).state ≠ .qualified := by
    rw [hrec]
    exact not_not.mpr hq
  have hset (r : PortRec) : (s.takeUnitFrame p).setPort p r = s.setPort p r := setPort_setPort ..
  show execStatus p mode power remote available converter cause s = _
  unfold execStatus
  simp only [hm, hrem, hav, hslot]
  rw [if_neg hstate, hset, hrec]
  rfl

/-- Settles O53. -/
theorem statusFrames : Obligations.StatusFrames := by
  unfold Obligations.StatusFrames
  intro p mode power remote available converter cause s frame
  refine ⟨fun h => ?_, fun m rem av u hm hrem hav hs hq => ?_⟩
  · show execStatus p mode power remote available converter cause s = _
    unfold execStatus
    have hslot : (s.takeUnitFrame p).slotOf p = s.slotOf p := rfl
    have hstate : ((s.takeUnitFrame p).portRec p).state = (s.portRec p).state :=
      (congrArg PortRec.state ((State.setPort_portRec s p p { s.portRec p with framer := none }).trans (if_pos rfl)) :)
    simp only [hslot, hstate]
    cases hm : reportedOfCode mode with
    | none => rfl
    | some m =>
      cases hrem : yesNoOfCode remote with
      | none => rfl
      | some rem =>
        cases hav : yesNoOfCode available with
        | none => rfl
        | some av =>
          cases hs : s.slotOf p with
          | none => rfl
          | some u =>
            refine if_pos ?_
            simpa [hm, hrem, hav, hs] using h
  · intro r named b noted stopped sends ordered judged compared holds requested
    have hport : (s.unitRec u).port = some p := port_of_slotOf hs
    have hexec : exec frame s = .next (compared.finish s) := by
      refine (execStatus_accepted hm hrem hav hs hq).trans (congrArg (fun x : State => Host.Outcome.next (x.finish s)) ?_)
      exact acceptStatus_eq (s := s.setPort p _) hport (Report.ofStatus m power.toInt rem av (convOfCode converter)) cause
    let sup := ordered.supervise u m (decide (s.reported u ≠ some m))
    obtain ⟨hordered, hste⟩ : CascadeFrame noted ordered ∧ ordered.ste = noted.ste := restops_frame _ noted u p m
    have hsup : CascadeFrame ordered sup := cascade_supervise ..
    have hjudged : CascadeFrame sup judged := cascade_watchConverters ..
    have hquiet : Quiet judged compared := quiet_compared judged u
    have hfin := cascade_finish compared s {}
    have hreach := reach_finish compared s {}
    have hres := hquiet.resources
    have hnotedTrs : noted.trs = s.trs := by
      show (if _ then _ else _ : State).trs = _
      split <;> rfl
    have htrs : ordered.trs = s.trs := (restops_trs _ noted u p m).trans hnotedTrs
    have hspares : Spares s sup := (Spares.of_trs htrs).trans (spares_supervise ..)
    have hlooks : Looks sup judged := looks_watchConverters ..
    have horphan (v : Slot) : (compared.finish s).orphan v = judged.orphan v := (hreach.orphan v).trans (hres.orphan v)
    have hclock : sup.clock = s.clock := by
      rw [hsup.play.clock, hordered.play.clock]
      show (if _ then _ else _ : State).clock = _
      split <;> rfl
    have hclear (d : Conv) (hn : ¬ requested d) (v : Slot) (q : Request) (hq : s.req v = some q) : q.conv ≠ some d :=
      fun hc => hn ⟨v, q, hq, hc⟩
    have hkept (d : Conv) (x : Holder) (hd : judged.holder d = some x) (hn : ¬ requested d) : (compared.finish s).holder d = some x := by
      obtain ⟨y, hy, hend⟩ := follows_finish compared s {}
      have hsame : (compared.finish s).trs = y.trs := by
        rcases hend with h | h
        · rw [h]
        · rw [h, allocate_trs_eq]
      rw [State.holder_congr hsame]
      refine (hy.held ((hres.holder d).trans hd) fun v q hvq => ?_).1
      rcases hquiet.requests v q hvq with hwait | ⟨x, hx, hhold⟩
      · rw [show q.conv = none from (congrArg (·.2.1) hwait :)]
        nofun
      · rw [show q.conv = x.conv from (congrArg (·.2.1) hhold :)]
        exact (hspares.holder d (hclear d hn)).2 v x ((hlooks.req v).symm.trans hx)
    have hidleSup (hnone : s.req u = none) : sup = ordered := by
      show ordered.supervise u m _ = ordered
      unfold State.supervise
      rw [State.req_congr htrs, hnone]
    have hholder (d : Conv) : ordered.holder d = s.holder d := State.holder_congr htrs d
    have hholds (d : Conv) : ordered.holds u d = true ↔ holds d := by
      rw [State.holds, hholder, Option.any_eq_true]
      constructor
      · rintro ⟨x, hx, hslot⟩
        exact ⟨x.kind, by rw [hx, ← beq_iff_eq.mp hslot]⟩
      · rintro ⟨k, hk⟩
        exact ⟨_, hk, beq_self_eq_true u⟩
    have hnotedUnit : noted.unitRec u = (s.setPort p { s.portRec p with
        framer := none, liveness := some (later s.clock s.params.unitTimeout) }).reporting u
          (Report.ofStatus m power.toInt rem av (convOfCode converter)) :=
      (tripEvent_unitRec s b u u m cause).trans ((State.setUnit_unitRec _ u u _).trans (if_pos rfl))
    have hnotedPort : noted.portRec p = { s.portRec p with framer := none, liveness := some (later s.clock s.params.unitTimeout) } := by
      show (if _ then _ else _ : State).portRec p = _
      split <;> exact (State.setPort_portRec s p p _).trans (if_pos rfl)
    have hports (hnone : s.req u = none) : compared.ports = ordered.ports :=
      (compared_ports judged u).trans (hlooks.ports.trans (by rw [hidleSup hnone]))
    have hstopped (hstop : stopped) (hnone : s.req u = none) : compared.stopped u := by
      obtain ⟨h, hh, he⟩ := hstop
      refine compared_stopped ⟨?_, (hlooks.req u).trans (by rw [hidleSup hnone, State.req_congr htrs, hnone])⟩
      have hhold := ((hordered.trans hsup).trans hjudged).play.unit_hold u
      rw [hnotedUnit] at hhold
      rw [hhold]
      show (Option.map _ r.hold).any _ = true
      rw [hh]
      simp [he]
    have hclaimed (c : Conv) (hc : named = some c) (hnone : s.req u = none) :
        m = .step .pStart ∧ judged = ordered.claimObserved u c := by
      have hst : m = .step .pStart := by
        by_contra hne
        rw [show named = none from if_neg hne] at hc
        cases hc
      refine ⟨hst, ?_⟩
      show sup.watchConverters u m named = _
      rw [hidleSup hnone, hc, hst]
      exact watchConverters_pStart ((State.req_congr htrs u).trans hnone)
    refine ⟨_, hexec, rfl, (((hordered.trans hsup).trans hjudged).trans hquiet.frame).trans hfin, fun hset => ⟨?_, fun o ho => ⟨fun c hc => ?_,
      fun w q hheld hof hw => ?_⟩⟩, fun k hk => ?_, fun v hv => ?_, fun hne c => ?_, fun hst c hn hobs => ?_,
      fun c hc hnone => ⟨fun hfree hoth hn => ?_, fun hh hcon => ?_⟩, fun hstop hnone hwf => ⟨fun hsend => ⟨?_, fun hidle => ?_⟩, fun hrun o ho => ?_⟩⟩
    · rw [horphan]
      exact watchConverters_released hset
    · have hsupo : sup.orphan u = some o := (hspares.orphan u).trans ho
      have hfree : judged.holder c = none := by
        show (sup.watchConverters u m named).holder c = none
        rw [watchConverters_settled hset, releaseObserved_holder]
        split
        · rfl
        · rw [releaseOrphan_holder, hsupo]
          exact if_pos hc
      rcases hreach.holder c with h | h | h
      · exact .inl (h.trans ((hres.holder c).trans hfree))
      · exact .inl h
      · exact .inr h
    · obtain ⟨hrow, hof'⟩ := (hordered.trans hsup).play.waterways
      have hnoted (v : Waterway) : noted.waterwayRec v = s.waterwayRec v := State.waterwayRec_congr hnotedTrs v
      have hplace : sup.waterwayOf u = some w := (hof' u).trans ((State.waterwayOf_congr hnotedTrs u).trans hof)
      have hrec : judged.waterwayRec w = (sup.waterwayRec w).map (·.release sup.clock true) := by
        show (sup.watchConverters u m named).waterwayRec w = _
        rw [watchConverters_settled hset, releaseObserved_eq]
        refine (releaseOrphan_waterwayRec sup u w).trans (if_pos ⟨?_, hplace⟩)
        rw [hspares.orphan, ho]
        exact hheld
      have hrow := hrow w
      rw [hnoted, hw] at hrow
      obtain ⟨x, hx, hxrow⟩ := Option.map_eq_some_iff.mp hrow
      rw [hreach.settle, hres.waterwayRec, hrec, hx, hclock, show q.row = x.row from hxrow.symm]
      rfl
    · rw [horphan, ← hspares.orphan]
      exact watchConverters_orphan fun _ => ⟨k, hk⟩
    · rw [horphan, ← hspares.orphan]
      exact watchConverters_orphan fun h => absurd h hv
    · have hnot : judged.holder c ≠ some { slot := u, kind := .observed } := watchConverters_unobserved hne c
      intro hobs
      rcases hreach.holder c with h | h | ⟨v, h⟩
      · rw [h, hres.holder] at hobs
        exact hnot hobs
      · rw [h] at hobs
        cases hobs
      · rw [h] at hobs
        cases hobs
    · rw [hobs]
      exact hkept c _ (watchConverters_held hst ((hspares.holder c (hclear c hn)).1.trans hobs)) hn
    · obtain ⟨hstep, hclaim⟩ := hclaimed c hc hnone
      refine hkept c _ ?_ hn
      rw [hclaim]
      unfold State.claimObserved
      rw [if_neg, if_pos, State.setHolder_holder, if_pos rfl]
      · rw [hholder, hfree]
        simpa using fun h => hoth ((hholds _).mp h)
      · rw [State.holds, hholder, hfree]
        nofun
    · obtain ⟨hstep, hclaim⟩ := hclaimed c hc hnone
      have hconflict : judged = ordered.post .converterConflict (some u) (some (convNumber c)) := by
        rw [hclaim]
        unfold State.claimObserved
        rw [if_neg fun h => hh ((hholds c).mp h), if_neg]
        rw [hholder, Bool.and_eq_true, Bool.not_eq_true', Option.isNone_iff_eq_none]
        rintro ⟨hnone, hoth⟩
        rcases hcon with h | h
        · exact h hnone
        · rw [(hholds _).mpr h] at hoth
          cases hoth
      have hframe := hordered.post_both hste .converterConflict (some u) (some (convNumber c))
      rw [← hconflict] at hframe
      exact (hframe.trans hquiet.frame).trans hfin
    · have hout : (compared.portRec p).outstanding
          = some { tag := (s.portRec p).tagCounter, kind := .stop, purpose := .emergency } := by
        rw [State.portRec_congr (hports hnone), show ordered = noted.sendOrder p .stop none .emergency from if_pos hsend,
          sendOrder_outstanding, if_pos rfl, hnotedPort]
      refine hreach.order hout nofun fun v hv => .inr ?_
      have hvp : (s.unitRec v).port = some p := by
        rw [((((hordered.trans hsup).trans hjudged).trans hquiet.frame).play.unit_port v)] at hv
        by_cases hvu : v = u
        · rw [hvu]
          exact hport
        · have hrec : noted.unitRec v = s.unitRec v :=
            (tripEvent_unitRec s b u v m cause).trans ((State.setUnit_unitRec _ u v _).trans (if_neg hvu))
          rw [hrec] at hv
          exact hv
      have hvu : v = u := Option.some.inj ((slotOf_of_wf hwf hvp).symm.trans hs)
      rw [hvu]
      exact hstopped hstop hnone
    · refine (finish_unitOut compared s {}).subset ?_
      have hout : compared.unitOut = (noted.sendOrder p .stop none .emergency).unitOut := by
        refine (compared_unitOut judged u).trans (hlooks.unitOut.trans ?_)
        rw [hidleSup hnone, show ordered = noted.sendOrder p .stop none .emergency from if_pos hsend]
      rw [hout]
      have hidle' : (noted.portRec p).sending = none := by
        rw [hnotedPort]
        exact hidle
      rw [sendOrder_sent hidle', hnotedPort]
      exact List.mem_append_right _ (List.mem_singleton_self _)
    · intro hem
      have hceased : ordered = noted.ceaseOrder u .emergency := by
        obtain ⟨h, hh, he⟩ := hstop
        show (if _ then _ else if _ then _ else _ : State) = _
        rw [if_neg (by simp [sends, hrun]), if_pos (by simp [hh, he, hrun])]
      rcases hreach.outstanding p o ho with h | h
      · rw [h] at hem
        cases hem
      · rw [State.portRec_congr (hports hnone), hceased] at h
        exact ceaseOrder_purpose (by rw [hnotedUnit]; exact hport) h hem

end Sys2Proof.Proofs
end

section
/-! MAP_SET, EXPECT_SET and LINE_SET, and the levels of the output lines (O49). -/

namespace Sys2Proof.Machine

/-- In STANDBY the planner does nothing, where no slot that loses its dispatchability has a warned step (R43, R77). -/
theorem planStage_standby {before s : State} (hg : s.governs = false)
    (hd : ∀ u, before.dispatchable u = true → s.dispatchable u = false → (s.req u).any (fun r => r.state == .warning) = false) :
    s.planStage before {} = s := by
  have hdrop (u : Slot) : State.dropGrant before s u = s := by
    unfold State.dropGrant
    refine if_neg fun h => ?_
    obtain ⟨⟨hb, hs⟩, hw⟩ : (before.dispatchable u = true ∧ s.dispatchable u = false) ∧ (s.req u).any (fun r => r.state == .warning) = true := by
      simpa using h
    rw [hd u hb hs] at hw
    cases hw
  have hall : Slot.all.foldl (State.dropGrant before) s = s := by simp [Slot.all, hdrop]
  unfold State.planStage
  simp [hall, State.replan, hg]

section
variable {s : State} {u : Slot} {p : Port}

theorem takePortAway_plain (h : (s.portRec p).state ≠ .qualified) : (s.takePortAway u p).trs = s.trs := by
  unfold State.takePortAway
  rw [if_neg h]
  rfl

theorem takePortAway_qualified (h : (s.portRec p).state = .qualified) : (s.takePortAway u p).trs = (s.leaveQualified p .unused).trs := by
  unfold State.takePortAway
  rw [if_pos h]
  rfl

/-- A slot without a QUALIFIED port is not dispatchable (R7). -/
theorem undispatchable_of_port (h : ∀ q, (s.unitRec u).port = some q → (s.portRec q).state ≠ .qualified) : s.dispatchable u = false := by
  refine Bool.eq_false_iff.mpr fun hd => ?_
  obtain ⟨q, hp, hq⟩ := port_of_dispatchable hd
  exact h q hp hq

end

/-- The map changes in STANDBY: what is left before anything follows. -/
structure Remapped (s b : State) (u : Slot) (p : Option Port) : Prop where
  part : b.pli.part = s.pli.part
  head : b.head = s.head
  units : ∀ v, v ≠ u → b.unitRec v = s.unitRec v
  ports : ∀ q, p ≠ some q → (s.unitRec u).port ≠ some q → b.portRec q = s.portRec q
  fresh : b.dispatchable u = false
  waits : s.dispatchable u = true → ∀ r, b.req u = some r → r.state = .waiting

section
variable {s b : State} {u : Slot} {p : Option Port} (h : Remapped s b u p) (hwf : RosterWf s)
  (hfree : ∀ q v, p = some q → v ≠ u → (s.unitRec v).port ≠ some q)
include h hwf hfree

theorem Remapped.warned (v : Slot) (hs : s.dispatchable v = true) (hb : b.dispatchable v = false) :
    (b.req v).any (fun r => r.state == .warning) = false := by
  by_cases hv : v = u
  · subst hv
    cases hr : b.req v with
    | none => rfl
    | some r => simp [h.waits hs r hr]
  · have hport : b.portState v = s.portState v := by
      obtain ⟨q, hp, -⟩ := port_of_dispatchable hs
      have hpb : (b.unitRec v).port = some q := by rw [h.units v hv]; exact hp
      rw [portState_of_port hpb, portState_of_port hp, h.ports q (fun e => hfree q v e hv hp)
        fun e => hv (hwf.map v u (by rw [hp]; rfl) (by rw [hp, e]))]
    have hsame : b.dispatchable v = s.dispatchable v := by
      unfold State.dispatchable
      rw [h.units v hv, hport, h.head]
    rw [hsame, hs] at hb
    cases hb

/-- After a change of the map the other blocks note at most why a request waits. -/
theorem Remapped.finish (hg : s.governs = false) : (∃ q, b.finish s = b.setTrs { b.trs with requests := q })
    ∧ ((b.finish s).req u = b.req u ∨ (b.finish s).req u = (b.req u).map (fun r => { r with blocked := none })) := by
  have hgb : b.governs = false := by
    unfold State.governs
    rw [h.part]
    exact hg
  have hw := h.warned hwf hfree
  refine ⟨finish_standby_dispatchable hgb rfl hw, ?_⟩
  have hplan : b.planStage s {} = b := planStage_standby hgb hw
  have hreq := finish_undispatchable (before := s) (c := {}) h.fresh
  rwa [hplan] at hreq

end

/-- Whatever a map change in STANDBY leaves, before anything follows (R153). -/
theorem remapped_of_remap {s t : State} {u : Slot} {p : Option Port} (ht : t.pli.part = s.pli.part) (hros : t.ros = s.ros)
    (hports : t.ports = s.ports) (hhead : t.head = s.head) (hwf : RosterWf t) :
    Remapped s (t.remap u p) u p := by
  let m := match (t.unitRec u).port with
    | some old => t.takePortAway u old
    | none => t
  have hgone : Gone t m u := takePortAway_effect t u hwf
  obtain ⟨hpli, -, -, hmhead, -⟩ := hgone.rest
  have hport : (m.unitRec u).port = none := by
    cases hp : (t.unitRec u).port with
    | none => rw [hgone.unit_none hp, hp]
    | some q =>
      by_cases hq : (t.portRec q).state = .qualified
      · rw [hgone.unit_qual q hp hq]
      · rw [hgone.unit_plain q hp hq]
  obtain ⟨hu, hv, hq, hother, hbtrs, hbpli, -, -, hbhead, -⟩ := given_effect m m.clock rfl u p hport
  have hb : t.remap u p = State.given m u p := remap_eq t u p
  rw [← hb] at hu hv hq hother hbtrs hbpli hbhead
  refine ⟨(congrArg Pli.part (hbpli.trans hpli)).trans ht, (hbhead.trans hmhead).trans hhead, fun v hvu => ?_, fun q hpq hrq => ?_, ?_,
    fun hd r hr => ?_⟩
  · rw [hv v hvu, hgone.units v hvu]
    exact State.unitRec_congr hros v
  · rw [hother q hpq, hgone.ports q (by rwa [State.unitRec_congr hros])]
    exact State.portRec_congr hports q
  · refine undispatchable_of_port fun q hpq hqual => ?_
    rw [hu] at hpq
    rw [hq q hpq] at hqual
    cases hqual
  · obtain ⟨q, hpq, hqual⟩ := port_of_dispatchable hd
    have hreq := hgone.req q ((congrArg UnitRec.port (State.unitRec_congr hros u)).trans hpq)
      ((congrArg PortRec.state (State.portRec_congr hports q)).trans hqual)
    rw [State.req_congr hbtrs, hreq] at hr
    exact left_waiting hr

end Sys2Proof.Machine

namespace Sys2Proof.Proofs
open Sys2Proof.Machine

/-- The level of a line whose condition is met or not (R178). -/
theorem level_iff {c : Bool} {met : Prop} (h : c = true ↔ met) (low : Bool) : (c != low) = true ↔ (met ↔ low = false) := by
  rw [← h]
  cases c <;> cases low <;> decide

/-- Each condition of a monitor line (R178). -/
theorem lineHigh_level (s : State) (m : MonitorLine) :
    let level (met : Prop) : Prop := s.lineHigh m = true ↔ (met ↔ m.activeLow = false)
    match m.selection with
    | .boundary => level (s.prf.pulse.isSome = true)
    | .fallback => level (∃ f, s.pli.part = .fallback f)
    | .converterBusy => level (∃ c, (s.holder c).isSome = true)
    | .transition => level (∃ u r, s.req u = some r ∧ (r.state = .ordered ∨ r.state = .inStep))
    | .saturated => level (s.alc.lowSat = true ∨ s.alc.highSat = true ∨ s.alc.zoneShort = true)
    | .planGap => level (s.pln.gap = true)
    | .forcedLow => s.lineHigh m = false
    | .forcedHigh => s.lineHigh m = true := by
  intro level
  obtain ⟨sel, low⟩ := m
  cases sel with
  | boundary => exact level_iff Iff.rfl low
  | fallback =>
    refine level_iff ?_ low
    show s.inFallback = true ↔ _
    unfold State.inFallback
    cases s.pli.part <;> simp
  | converterBusy =>
    refine level_iff ?_ low
    show decide (s.convertersHeld ≠ 0) = true ↔ _
    have hc : (∃ c, (s.holder c).isSome = true) ↔ (s.holder .c1).isSome = true ∨ (s.holder .c2).isSome = true := by
      constructor
      · rintro ⟨_ | _, h⟩
        · exact .inl h
        · exact .inr h
      · exact fun h => h.elim (fun h => ⟨_, h⟩) fun h => ⟨_, h⟩
    rw [hc]
    unfold State.convertersHeld State.holder
    cases s.trs.c1 <;> cases s.trs.c2 <;> simp
  | transition =>
    refine level_iff ?_ low
    show Slot.all.any s.underOrder = true ↔ _
    rw [List.any_eq_true]
    constructor
    · rintro ⟨u, -, h⟩
      rw [State.underOrder, Option.any_eq_true] at h
      obtain ⟨r, hr, ho⟩ := h
      exact ⟨u, r, hr, by simpa [Request.ordered] using ho⟩
    · rintro ⟨u, r, hr, ho⟩
      refine ⟨u, Slot.mem_all u, ?_⟩
      rw [State.underOrder, hr]
      simpa [Request.ordered] using ho
  | saturated =>
    refine level_iff ?_ low
    show (s.alc.lowSat || s.alc.highSat || s.alc.zoneShort) = true ↔ _
    rw [Bool.or_eq_true, Bool.or_eq_true, or_assoc]
  | planGap => exact level_iff Iff.rfl low
  | forcedLow => rfl
  | forcedHigh => rfl

theorem markerHigh_iff (s : State) : s.markerHigh = true ↔ (s.prf.pulse.isSome = true ↔ s.params.markerPolarity = .pos) := by
  unfold State.markerHigh
  cases s.params.markerPolarity <;> cases s.prf.pulse <;> simp

theorem warningHigh_iff (s : State) (w : Waterway) :
    s.warningHigh w = true ↔ ∃ r g, s.waterwayRec w = some r ∧ r.generator = some g ∧ g.high = true := by
  unfold State.warningHigh
  simp only [Option.any_eq_true]
  exact ⟨fun ⟨r, hr, g, hg, hh⟩ => ⟨r, g, hr, hg, hh⟩, fun ⟨r, g, hr, hg, hh⟩ => ⟨r, hr, g, hg, hh⟩⟩

theorem takenByOther_iff (s : State) (u : Slot) (p : Option Port) :
    s.takenByOther u p = true ↔ ∃ q v, p = some q ∧ v ≠ u ∧ (s.unitRec v).port = some q := by
  unfold State.takenByOther
  rw [Option.any_eq_true]
  constructor
  · rintro ⟨q, hq, h⟩
    obtain ⟨v, -, hv⟩ := List.any_eq_true.mp h
    simp only [Bool.and_eq_true, bne_iff_ne, beq_iff_eq] at hv
    exact ⟨q, v, hq, hv.1, hv.2⟩
  · rintro ⟨q, v, hq, hv, hp⟩
    exact ⟨q, hq, List.any_eq_true.mpr ⟨v, Slot.mem_all v, by simp [hv, hp]⟩⟩

theorem portOrNone_eq {c : Byte} (h : c = 0 ∨ (portOfCode c).isSome = true) : portOrNone c = some (portOfCode c) := by
  unfold portOrNone
  split
  · rename_i hc
    rw [hc]
    rfl
  · rename_i hc
    obtain ⟨q, hq⟩ := Option.isSome_iff_exists.mp (h.resolve_left hc)
    rw [hq]
    rfl

theorem portOrNone_none {c : Byte} (h : ¬ (c = 0 ∨ (portOfCode c).isSome = true)) : portOrNone c = none := by
  obtain ⟨hc, hp⟩ := not_or.mp h
  unfold portOrNone
  rw [if_neg hc, Option.not_isSome_iff_eq_none.mp hp]
  rfl

/-- EXPECT_SET (R154). -/
theorem expectSet_answers (tag slot number : Byte) (s : State) :
    let answer (d : Nat) := exec (.expectSet tag slot number) s = .next (s.replied tag 2 21 .invalid d)
    (slotOfCode slot = none → answer 1)
    ∧ ∀ u, slotOfCode slot = some u →
      (number = 0 → answer 2)
      ∧ (number ≠ 0 → exec (.expectSet tag slot number) s
          = .next ((s.setUnit u { s.unitRec u with expected := number }).replied tag 2 21 .ok)) := by
  intro answer
  refine ⟨fun h => ?_, fun u hu => ⟨fun h => ?_, fun h => ?_⟩⟩
  · simp only [answer, exec, execExpectSet, h]
    rfl
  · simp only [answer, exec, execExpectSet, hu]
    exact if_pos h
  · simp only [exec, execExpectSet, hu]
    exact if_neg h

theorem activeLowOfCode_known {c : Byte} (h : c = 0 ∨ c = 1) : activeLowOfCode c = some (decide (c = 1)) := by
  rcases h with rfl | rfl <;> rfl

theorem activeLowOfCode_unknown {c : Byte} (h0 : c ≠ 0) (h1 : c ≠ 1) : activeLowOfCode c = none := by
  unfold activeLowOfCode
  split
  · rename_i hc
    exact absurd (BitVec.eq_of_toNat_eq hc) h0
  · rename_i hc
    exact absurd (BitVec.eq_of_toNat_eq hc) h1
  · rfl

/-- LINE_SET (R179). -/
theorem lineSet_answers (tag line selection polarity : Byte) (s : State) :
    let answer (d : Nat) := exec (.lineSet tag line selection polarity) s = .next (s.replied tag 2 26 .invalid d)
    let known := line = 1 ∨ line = 2
    (¬ known → answer 1)
    ∧ (known → selectionOfCode selection = none → answer 2)
    ∧ ∀ sel, selectionOfCode selection = some sel → known →
      (polarity ≠ 0 → polarity ≠ 1 → answer 3)
      ∧ (polarity = 0 ∨ polarity = 1 →
        let m : MonitorLine := { selection := sel, activeLow := decide (polarity = 1) }
        exec (.lineSet tag line selection polarity) s
          = .next (({ s with ste := if line = 1 then { s.ste with m1 := m } else { s.ste with m2 := m } }).replied tag 2 26 .ok)) := by
  intro answer known
  have hline (h : known) : ¬ (line ≠ 1 ∧ line ≠ 2) := fun k => h.elim k.1 k.2
  refine ⟨fun h => if_pos (not_or.mp h), fun hk h => ?_, fun sel h hk => ⟨fun h0 h1 => ?_, fun hp => ?_⟩⟩
  · refine (if_neg (hline hk)).trans ?_
    rw [h]
    rfl
  · refine (if_neg (hline hk)).trans ?_
    rw [h, activeLowOfCode_unknown h0 h1]
    rfl
  · intro m
    refine (if_neg (hline hk)).trans ?_
    rw [h, activeLowOfCode_known hp]
    by_cases h1 : line = 1
    · rw [if_pos h1, h1]
      rfl
    · rw [if_neg h1, decide_eq_false h1]
      rfl

/-- The map changes by MAP_SET (R153). -/
theorem mapSet_changes {tag slot port : Byte} {s : State} {u : Slot} (hu : slotOfCode slot = some u)
    (hnamed : port = 0 ∨ (portOfCode port).isSome = true) (hstandby : s.pli.part = .standby)
    (hfree : ∀ q v, portOfCode port = some q → v ≠ u → (s.unitRec v).port ≠ some q) (hne : (s.unitRec u).port ≠ portOfCode port)
    (hwf : RosterWf s) :
    let p := portOfCode port
    let r := s.unitRec u
    let qualified := ∃ q, r.port = some q ∧ (s.portRec q).state = .qualified
    ∃ t : State, exec (.mapSet tag slot port) s = .next (t.replied tag 2 20 .ok)
      ∧ ((r.port = none → t.unitRec u = { r with port := p })
        ∧ (r.port.isSome = true → ¬ qualified → t.unitRec u = { r with port := p, report := none, lastSetpoint := none })
        ∧ (qualified → t.unitRec u = { r.left with port := p, report := none })
        ∧ ∀ v, v ≠ u → t.unitRec v = s.unitRec v)
      ∧ ((∀ q, p = some q → t.portRec q
            = ({ s.portRec q with state := .probing, lastMachine := none, outstanding := none } : PortRec).probed s.clock)
        ∧ (∀ q, r.port = some q → ¬ qualified → t.portRec q = { s.portRec q with state := .unused, probe := none, queue := [] })
        ∧ (∀ q, r.port = some q → qualified → t.portRec q = (s.portRec q).left .unused)
        ∧ ∀ q, p ≠ some q → r.port ≠ some q → t.portRec q = s.portRec q)
      ∧ (¬ qualified → t.orphan u = s.orphan u)
      ∧ (qualified → t.orphan u = (if s.underOrder u then (s.req u).map Request.orphaned else s.orphan u)
        ∧ (∃ why, t.req u = ((s.req u).bind Request.left).map (fun q => { q with blocked := why }))
        ∧ ∀ q c, s.req u = some q → q.ordered = true → q.conv = some c → t.holder c = some { slot := u, kind := .orphaned })
      ∧ t.pli = { s.pli with framer := none } ∧ t.pending = s.pending ∧ t.ros.rotation = s.ros.rotation
      ∧ t.head = s.head ∧ t.tgt = s.tgt ∧ t.prf = s.prf ∧ t.pln = s.pln ∧ t.alc = s.alc ∧ t.ste = s.ste
      ∧ t.plantOut = s.plantOut := by
  intro p r qualified
  let a := s.takePlantFrame
  have hawf : RosterWf a := ⟨hwf.rotation, hwf.map, hwf.expected⟩
  let m := match (a.unitRec u).port with
    | some old => a.takePortAway u old
    | none => a
  have hgone : Gone a m u := takePortAway_effect a u hawf
  have hmport : (m.unitRec u).port = none := by
    cases hp : (a.unitRec u).port with
    | none => rw [hgone.unit_none hp, hp]
    | some q =>
      by_cases hq : (a.portRec q).state = .qualified
      · rw [hgone.unit_qual q hp hq]
      · rw [hgone.unit_plain q hp hq]
  let b := a.remap u p
  have hb : b = State.given m u p := remap_eq a u p
  have hmclock : m.clock = a.clock := congrArg Pli.clock hgone.rest.1
  obtain ⟨hunit, hunits, hnew, hports, hbtrs, hrest⟩ := given_effect m s.clock hmclock u p hmport
  rw [← hb] at hunit hunits hnew hports hbtrs hrest
  have hre : Remapped s b u p := remapped_of_remap (t := a) rfl rfl rfl rfl hawf
  obtain ⟨⟨x, hx⟩, hreq⟩ := hre.finish hwf hfree (by unfold State.governs; rw [hstandby]; rfl)
  have hexec : exec (.mapSet tag slot port) s = .next ((b.finish s).manage tag kindMapSet .ok) := by
    have htaken : ¬ a.takenByOther u p = true := fun h => by
      obtain ⟨q, v, hq, hv, hp⟩ := (takenByOther_iff a u p).mp h
      exact hfree q v hq hv hp
    have hgov : ¬ a.governs = true := by
      have : a.governs = false := by
        show (s.pli.part != .standby) = false
        rw [hstandby]
        rfl
      rw [this]
      nofun
    show execMapSet tag slot port s = _
    unfold execMapSet
    rw [hu, portOrNone_eq hnamed]
    exact (if_neg hgov).trans ((if_neg htaken).trans (if_neg hne))
  obtain ⟨hpli, hpend, hrot, hhead, htgt, hprf, hpln, halc, hste, hpout⟩ := hrest
  obtain ⟨mpli, mpend, mrot, mhead, mtgt, mprf, mpln, malc, mste, mpout⟩ := hgone.rest
  have hpli' : (b.finish s).pli = { s.pli with framer := none } := by
    rw [hx]
    exact hpli.trans mpli
  have hunitF (v : Slot) : (b.finish s).unitRec v = b.unitRec v := by rw [hx]; rfl
  have hportF (q : Port) : (b.finish s).portRec q = b.portRec q := by rw [hx]; rfl
  have horphanF (v : Slot) : (b.finish s).orphan v = m.orphan v := by
    rw [hx]
    exact State.orphan_congr hbtrs v
  have hholderF (c : Conv) : (b.finish s).holder c = m.holder c := by
    rw [hx]
    exact (by cases c <;> rfl : _ = b.holder c).trans (State.holder_congr hbtrs c)
  refine ⟨b.finish s, hexec.trans (congrArg _ (manage_eq_replied (congrArg Pli.framer hpli') ..)),
    ⟨fun h => ?_, fun h hq => ?_, fun ⟨q, hrq, hqq⟩ => ?_, fun v hv => ?_⟩,
    ⟨fun q hq => ?_, fun q hrq hq => ?_, fun q hrq ⟨q', hrq', hqq⟩ => ?_, fun q hpq hrq => ?_⟩,
    fun hq => ?_, fun ⟨q, hrq, hqq⟩ => ⟨?_, ?_, fun y c hy ho hc => ?_⟩, hpli', ?_⟩
  · rw [hunitF, hunit, hgone.unit_none h]
    rfl
  · obtain ⟨q, hrq⟩ := Option.isSome_iff_exists.mp h
    rw [hunitF, hunit, hgone.unit_plain q hrq fun k => hq ⟨q, hrq, k⟩]
    rfl
  · rw [hunitF, hunit, hgone.unit_qual q hrq hqq]
    rfl
  · rw [hunitF, hunits v hv, hgone.units v hv]
    rfl
  · rw [hportF, hnew q hq, hgone.ports q fun h => hne (h.trans hq.symm)]
    rfl
  · rw [hportF, hports q fun h => hne (hrq.trans h.symm), hgone.port_plain q hrq fun k => hq ⟨q, hrq, k⟩]
    rfl
  · cases hrq.symm.trans hrq'
    rw [hportF, hports q fun h => hne (hrq.trans h.symm), hgone.port_qual q hrq hqq]
    rfl
  · rw [hportF, hports q hpq, hgone.ports q hrq]
    rfl
  · rw [horphanF]
    cases hp : (a.unitRec u).port with
    | none =>
      show State.orphan (match (a.unitRec u).port with | some old => a.takePortAway u old | none => a) u = _
      rw [hp]
      rfl
    | some q =>
      show State.orphan (match (a.unitRec u).port with | some old => a.takePortAway u old | none => a) u = _
      rw [hp]
      exact State.orphan_congr (s := a) (takePortAway_plain fun k => hq ⟨q, hp, k⟩) u
  · rw [horphanF, hgone.orphan q hrq hqq]
    rfl
  · have hbreq : b.req u = (s.req u).bind Request.left := (State.req_congr hbtrs u).trans (hgone.req q hrq hqq)
    rw [hbreq] at hreq
    rcases hreq with h | h
    · cases hl : (s.req u).bind Request.left with
      | none => exact ⟨none, by rw [h, hl]; rfl⟩
      | some y => exact ⟨y.blocked, by rw [h, hl]; rfl⟩
    · exact ⟨none, h⟩
  · have hleft := leaveQualified_effect (s := a) .unused (slotOf_of_wf hawf hrq)
    have hmtrs : m.trs = (a.leaveQualified q .unused).trs := by
      show State.trs (match (a.unitRec u).port with | some old => a.takePortAway u old | none => a) = _
      rw [show (a.unitRec u).port = some q from hrq]
      exact takePortAway_qualified hqq
    rw [hholderF, State.holder_congr hmtrs]
    exact hleft.converter y c hy ho hc
  · rw [hx]
    exact ⟨hpend.trans mpend, hrot.trans mrot, hhead.trans mhead, htgt.trans mtgt, hprf.trans mprf, hpln.trans mpln, halc.trans malc,
      hste.trans mste, hpout.trans mpout⟩

/-- Settles O49. -/
theorem mapExpectLines : Obligations.MapExpectLines := by
  unfold Obligations.MapExpectLines
  refine ⟨fun tag slot port s => ?_, fun tag slot number s => expectSet_answers tag slot number s,
    fun tag line selection polarity s => lineSet_answers tag line selection polarity s,
    fun s => ⟨lineHigh_level s, markerHigh_iff s, warningHigh_iff s⟩⟩
  intro answer named
  refine ⟨fun h => ?_, fun u hu => ⟨fun h => ?_, fun h => ?_⟩⟩
  · show execMapSet tag slot port s = _
    unfold execMapSet
    rw [h]
    rfl
  · show execMapSet tag slot port s = _
    unfold execMapSet
    rw [hu, portOrNone_none h]
    rfl
  · intro p r taken
    have htaken : s.takePlantFrame.takenByOther u p = true ↔ taken := takenByOther_iff _ u p
    have hgov : s.takePlantFrame.governs = true ↔ s.pli.part ≠ .standby := governs_iff (s := s)
    have hexec : exec (.mapSet tag slot port) s = (if s.takePlantFrame.governs then .next (s.takePlantFrame.manage tag kindMapSet .state)
        else if s.takePlantFrame.takenByOther u p then .next (s.takePlantFrame.manage tag kindMapSet .invalid 2)
        else if (s.takePlantFrame.unitRec u).port = p then .next (s.takePlantFrame.manage tag kindMapSet .ok)
        else .next (((s.takePlantFrame.remap u p).finish s).manage tag kindMapSet .ok)) := by
      show execMapSet tag slot port s = _
      unfold execMapSet
      rw [hu, portOrNone_eq h]
    refine ⟨fun hp => ?_, fun hp ht => ?_, fun hp ht hsame => ?_, fun hp ht hne hwf => ?_⟩
    · exact hexec.trans (if_pos (hgov.mpr hp))
    · exact hexec.trans ((if_neg fun k => hgov.mp k hp).trans (if_pos (htaken.mpr ht)))
    · exact hexec.trans ((if_neg fun k => hgov.mp k hp).trans ((if_neg fun k => ht (htaken.mp k)).trans (if_pos hsame)))
    · exact mapSet_changes hu h hp (fun q v hq hv hport => ht ⟨q, v, hq, hv, hport⟩) hne hwf

end Sys2Proof.Proofs
end

section
/-! The entry into DISPATCHING by ENABLE (O47): which requests are made, and under which entry numbers. -/

namespace Sys2Proof.Machine

/-! ## The entry counter -/

theorem withdraw_counter (s : State) (u : Slot) : (s.withdraw u).trs.entryCounter = s.trs.entryCounter := by
  show (match (s.releaseHeld u false).req u with | none => _ | some r => _ : State).trs.entryCounter = _
  split <;> exact releaseHeld_counter s u false

theorem endRequest_counter (s : State) (u : Slot) : (s.endRequest u).trs.entryCounter = s.trs.entryCounter :=
  (congrArg Trs.entryCounter (ceaseOrder_trs (s.setReq u none) u .supervised) :)

theorem waitOn_counter (s : State) (u : Slot) (r : Request) (c : ReqClass) (d : Stable) (p : List PathStep) :
    (s.waitOn u r c d p).trs.entryCounter = s.trs.entryCounter := by
  unfold State.waitOn
  split
  · exact endRequest_counter s u
  · rfl

theorem rewarn_counter (s : State) (u : Slot) (r : Request) (c : ReqClass) (d : Stable) :
    (s.rewarn u r c d).trs.entryCounter = s.trs.entryCounter := by
  unfold State.rewarn
  dsimp only
  split
  · rfl
  · split
    · exact withdraw_counter s u
    · exact (waitOn_counter ..).trans (withdraw_counter s u)

/-- A slot that has a request takes no entry number (R61). -/
theorem takeDemand_counter {s : State} {u : Slot} (h : s.req u ≠ none) : (s.takeDemand u).trs.entryCounter = s.trs.entryCounter := by
  cases hr : s.req u with
  | none => exact absurd hr h
  | some r =>
    unfold State.takeDemand
    simp only [hr]
    split
    · exact endRequest_counter s u
    · split
      · rfl
      · exact waitOn_counter ..
    · exact (endRequest_counter _ u).trans (withdraw_counter s u)
    · split
      · rfl
      · exact rewarn_counter ..
    · rfl
    · rfl

/-- A new request takes the entry number that stands, and the counter counts up; where none is made it does not (R61). -/
theorem compareDemand_counter (s : State) (u : Slot) (h : s.req u = none) : (s.compareDemand u).trs.entryCounter
    = if ((s.compareDemand u).req u).isSome then s.trs.entryCounter + 1 else s.trs.entryCounter := by
  unfold State.compareDemand
  rw [h]
  cases s.demand u with
  | none => simp [h]
  | some x =>
    obtain ⟨d, c⟩ := x
    cases s.known u with
    | none => simp [h]
    | some m =>
      dsimp only
      split
      · have hnew (r : Request) (n : Word) : (((s.setReq u (some r)).setTrs { (s.setReq u (some r)).trs with entryCounter := n }).req u)
            = some r := by
          show (s.setReq u (some r)).req u = _
          rw [State.setReq_req, if_pos rfl]
        rw [hnew]
        rfl
      · simp [h]

theorem renewed_entry {s : State} {u : Slot} {e : Word} {d : Option Stable} {r : Request} (h : s.renewed u e d = some r) :
    r.entry = e := by
  unfold State.renewed at h
  split at h
  · split at h
    · cases h
      rfl
    · cases h
  · split at h
    · cases h
      rfl
    · cases h
  · cases h

theorem renewed_isSome (s : State) (u : Slot) (e e' : Word) (d : Option Stable) :
    (s.renewed u e d).isSome = (s.renewed u e' d).isSome := by
  cases h : s.renewed u e d with
  | none => rw [renewed_none_of h e']
  | some r =>
    cases h' : s.renewed u e' d with
    | none =>
      rw [renewed_none_of h' e] at h
      cases h
    | some _ => rfl

/-- A held slot's new request does not depend on a desired mode. -/
theorem renewed_held {s : State} {u : Slot} (h : (s.unitRec u).hold.isSome = true) (e : Word) (d d' : Option Stable) :
    s.renewed u e d = s.renewed u e d' := by
  obtain ⟨x, hx⟩ := Option.isSome_iff_exists.mp h
  unfold State.renewed
  rw [hx]
  cases s.known u <;> rfl

theorem renewed_free {s : State} {u : Slot} (h : (s.unitRec u).hold = none) (e : Word) : s.renewed u e none = none := by
  unfold State.renewed
  rw [h]
  cases s.known u <;> rfl

/-! ## Numbered requests -/

/-- The slots listed have requests under the entry numbers from `c` on, in that order, and the counter stands after them. -/
structure Numbered (c : Word) (made : List Slot) (x : State) : Prop where
  counter : x.trs.entryCounter = c + BitVec.ofNat 32 made.length
  entries : ∀ (i : Nat) (u : Slot), made[i]? = some u → (x.req u).map (·.entry) = some (c + BitVec.ofNat 32 i)

section
variable {c : Word} {made : List Slot} {x y : State}

theorem Numbered.keep (h : Numbered c made x) (hc : y.trs.entryCounter = x.trs.entryCounter)
    (hr : ∀ u ∈ made, (y.req u).map (·.entry) = (x.req u).map (·.entry)) : Numbered c made y :=
  ⟨hc.trans h.counter, fun i u hu => (hr u (List.mem_of_getElem? hu)).trans (h.entries i u hu)⟩

theorem Numbered.add (h : Numbered c made x) {u : Slot} (hc : y.trs.entryCounter = x.trs.entryCounter + 1)
    (hu : (y.req u).map (·.entry) = some x.trs.entryCounter)
    (hr : ∀ v ∈ made, (y.req v).map (·.entry) = (x.req v).map (·.entry)) : Numbered c (made ++ [u]) y := by
  refine ⟨?_, fun i v hv => ?_⟩
  · rw [hc, h.counter, List.length_append, List.length_singleton, BitVec.ofNat_add]
    exact BitVec.add_assoc ..
  · by_cases hi : i < made.length
    · rw [List.getElem?_append_left hi] at hv
      exact (hr v (List.mem_of_getElem? hv)).trans (h.entries i v hv)
    · rw [List.getElem?_append_right (Nat.not_lt.mp hi)] at hv
      obtain ⟨h0, hvu⟩ : i - made.length = 0 ∧ u = v := by
        rw [List.getElem?_singleton] at hv
        split at hv
        · exact ⟨‹_›, Option.some.inj hv⟩
        · cases hv
      rw [← hvu, hu, h.counter, show i = made.length by omega]

/-- The comparison of a slot that has no request (R62). -/
theorem Numbered.compareDemand (h : Numbered c made x) {u : Slot} (hr : x.req u = none) (hu : u ∉ made) :
    Numbered c (made ++ if ((x.compareDemand u).req u).isSome then [u] else []) (x.compareDemand u) := by
  have hcount := compareDemand_counter x u hr
  have hother : ∀ v ∈ made, ((x.compareDemand u).req v).map (·.entry) = (x.req v).map (·.entry) := fun v hv => by
    have hne : v ≠ u := fun e => hu (by rwa [← e])
    rw [compareDemand_other hne]
  split
  · rename_i hmade
    rw [if_pos hmade] at hcount
    refine h.add hcount ?_ hother
    obtain ⟨r, hnew⟩ := Option.isSome_iff_exists.mp hmade
    rw [hnew, Option.map_some]
    rw [compareDemand_renewed hr] at hnew
    rw [renewed_entry hnew]
  · rename_i hnone
    rw [if_neg hnone] at hcount
    rw [List.append_nil]
    exact h.keep hcount hother

end

/-! ## The held slots, and the slots that the assignment reaches (R83) -/

/-- The slot has a hold. -/
def State.heldBy (e : State) (u : Slot) : Bool := (e.unitRec u).hold.isSome

/-- The slot has no request, and would have one with the desired mode given. -/
def State.makes (e : State) (u : Slot) (d : Option Stable) : Bool := (e.req u).isNone && (e.renewed u 0 d).isSome

/-- The held slots of a list that get a request. -/
def State.manualOf (e : State) (us : List Slot) : List Slot := us.filter (fun u => e.heldBy u && e.makes u none)

/-- The slots of a list without a hold that get a request by their desired modes. -/
def State.automaticOf (e : State) (d : Slot → Option Stable) (us : List Slot) : List Slot :=
  us.filter (fun u => !e.heldBy u && e.makes u (d u))

theorem mem_manualOf {e : State} {us : List Slot} {u : Slot} (h : u ∈ e.manualOf us) : u ∈ us ∧ e.heldBy u = true ∧ e.makes u none = true := by
  simpa [State.manualOf] using h

theorem mem_automaticOf {e : State} {d : Slot → Option Stable} {us : List Slot} {u : Slot} (h : u ∈ e.automaticOf d us) :
    u ∈ us ∧ e.heldBy u = false ∧ e.makes u (d u) = true := by
  simpa [State.automaticOf] using h

theorem makes_none {e : State} {u : Slot} {d : Option Stable} (h : e.makes u d = true) : e.req u = none := by
  simp only [State.makes, Bool.and_eq_true, Option.isNone_iff_eq_none] at h
  exact h.1

/-- What the comparison of the held slots of a list has made of the requests. -/
structure ManualsMade (e : State) (us : List Slot) (x : State) : Prop where
  left : ∀ u, ¬ (u ∈ us ∧ e.heldBy u = true ∧ e.req u = none) → x.req u = e.req u
  made : ∀ u ∈ us, e.heldBy u = true → e.req u = none → ∃ n, x.req u = e.renewed u n
  numbered : Numbered e.trs.entryCounter (e.manualOf us) x

theorem manualsMade_fold (e : State) (us : List Slot) (hn : us.Nodup) : ManualsMade e us (us.foldl State.compareHeld e) := by
  induction us using List.reverseRecOn with
  | nil => exact ⟨fun _ _ => rfl, fun _ h => absurd h List.not_mem_nil, ⟨(BitVec.add_zero _).symm, fun _ _ h => by cases h⟩⟩
  | append_singleton us u ih =>
    obtain ⟨hus, -, hdis⟩ := List.nodup_append.mp hn
    have hu : u ∉ us := fun h => hdis u h u (List.mem_singleton_self u) rfl
    obtain ⟨left, made, numbered⟩ := ih hus
    have hframe := (Turn.foldl turn_compareHeld us e).frame.cascade
    rw [List.foldl_append, List.foldl_cons, List.foldl_nil]
    generalize us.foldl State.compareHeld e = x at left made numbered hframe
    have hold : (x.unitRec u).hold.isSome = e.heldBy u := congrArg Option.isSome (hframe.play.unit_hold u)
    have hkept (v : Slot) (hv : v ∈ us) : v ≠ u := fun h => hu (h ▸ hv)
    by_cases hcase : e.heldBy u = true ∧ e.req u = none
    · obtain ⟨hheld, hnone⟩ := hcase
      have hx : x.req u = none := (left u fun h => hu h.1).trans hnone
      have hstep : x.compareHeld u = x.compareDemand u := if_pos (hold.trans hheld)
      have hreq : (x.compareDemand u).req u = e.renewed u x.trs.entryCounter := by
        rw [compareDemand_renewed hx, hframe.play.renewed]
        exact renewed_held hheld ..
      rw [hstep]
      refine ⟨fun v hv => ?_, fun v hv hvh hvn => ?_, ?_⟩
      · have hvu : v ≠ u := fun h => hv ⟨by simp [h], by rw [h]; exact hheld, by rw [h]; exact hnone⟩
        rw [compareDemand_other hvu]
        exact left v fun h => hv ⟨List.mem_append_left _ h.1, h.2⟩
      · rcases List.mem_append.mp hv with hv | hv
        · rw [compareDemand_other (hkept v hv)]
          exact made v hv hvh hvn
        · rw [List.mem_singleton.mp hv]
          exact ⟨_, hreq⟩
      · have hnum := numbered.compareDemand hx fun h => hu (mem_manualOf h).1
        rw [hreq, renewed_isSome e u _ 0] at hnum
        have hlist : e.manualOf (us ++ [u]) = e.manualOf us ++ if (e.renewed u 0).isSome then [u] else [] := by
          simp [State.manualOf, State.makes, hheld, hnone, List.filter_append, List.filter_cons]
        rw [hlist]
        exact hnum
    · have hstep : x.compareHeld u = x := by
        unfold State.compareHeld
        rw [hold]
        split
        · rename_i hheld
          have hsome : x.req u ≠ none := by
            rw [left u fun h => hu h.1]
            exact fun h => hcase ⟨hheld, h⟩
          unfold State.compareDemand
          split
          · exact absurd ‹_› hsome
          · rfl
        · rfl
      rw [hstep]
      refine ⟨fun v hv => left v fun h => hv ⟨List.mem_append_left _ h.1, h.2⟩, fun v hv hvh hvn => ?_, ?_⟩
      · rcases List.mem_append.mp hv with hv | hv
        · exact made v hv hvh hvn
        · rw [List.mem_singleton.mp hv] at hvh hvn
          exact absurd ⟨hvh, hvn⟩ hcase
      · have hlist : e.manualOf (us ++ [u]) = e.manualOf us := by
          have hno : (e.heldBy u && e.makes u none) = false := by
            refine Bool.eq_false_iff.mpr fun h => hcase ?_
            rw [Bool.and_eq_true] at h
            exact ⟨h.1, makes_none h.2⟩
          simp [State.manualOf, List.filter_append, hno]
        rw [hlist]
        exact numbered

/-- What the handing of the desired modes to the slots of a list has made of the requests, from `y` on. -/
structure AutomaticsMade (e y : State) (first us : List Slot) (d : Slot → Option Stable) (z : State) : Prop where
  left : ∀ u, u ∉ us → z.req u = y.req u
  made : ∀ u ∈ us, e.req u = none → ∃ n, z.req u = e.renewed u n (d u)
  numbered : Numbered e.trs.entryCounter (first ++ e.automaticOf d us) z

/-- A slot that takes no new request. -/
theorem AutomaticsMade.skip {e y z w : State} {first us : List Slot} {d : Slot → Option Stable} {u : Slot}
    (h : AutomaticsMade e y first us d z) (hu : u ∉ us) (hcount : w.trs.entryCounter = z.trs.entryCounter)
    (hother : ∀ v, v ≠ u → w.req v = z.req v) (hentry : u ∈ first → (w.req u).map (·.entry) = (z.req u).map (·.entry))
    (hno : (!e.heldBy u && e.makes u (d u)) = false) (hmade : e.req u = none → ∃ n, w.req u = e.renewed u n (d u)) :
    AutomaticsMade e y first (us ++ [u]) d w := by
  refine ⟨fun v hv => ?_, fun v hv hnone => ?_, ?_⟩
  · rw [List.mem_append, List.mem_singleton, not_or] at hv
    exact (hother v hv.2).trans (h.left v hv.1)
  · by_cases hvu : v = u
    · rw [hvu] at hnone ⊢
      exact hmade hnone
    · rw [hother v hvu]
      exact h.made v ((List.mem_append.mp hv).resolve_right fun k => hvu (List.mem_singleton.mp k)) hnone
  · have hlist : e.automaticOf d (us ++ [u]) = e.automaticOf d us := by
      simp [State.automaticOf, List.filter_append, hno]
    rw [hlist]
    refine h.numbered.keep hcount fun v hv => ?_
    by_cases hvu : v = u
    · rw [hvu] at hv ⊢
      exact hentry ((List.mem_append.mp hv).resolve_right fun k => hu (mem_automaticOf k).1)
    · rw [hother v hvu]

theorem handDesired_cases (old : SlotMap (Option Stable)) (z : State) (u : Slot) :
    (State.handDesired old z u = z ∨ State.handDesired old z u = z.takeDemand u)
      ∧ (z.underOrder u = false → State.handDesired old z u = z.takeDemand u) := by
  unfold State.handDesired
  refine ⟨?_, fun h => by rw [h]; rfl⟩
  split
  · exact .inl rfl
  · exact .inr rfl

/-- The handing of the desired modes after the held slots' requests: these stay, and the other slots' are made. -/
theorem automaticsMade_fold {e y : State} {first us : List Slot} (old : SlotMap (Option Stable)) (hn : us.Nodup) (hy : PlayFrame e y)
    (hauto : ∀ u, y.pln.desired.get u ≠ none → e.automatic u = true)
    (hfirst : ∀ u ∈ first, e.heldBy u = true ∧ e.req u = none)
    (hheld : ∀ u ∈ us, e.req u = none → if e.heldBy u then ∃ n, y.req u = e.renewed u n else y.req u = none)
    (hnum : Numbered e.trs.entryCounter first y)
    (hothers : ∀ u, e.req u ≠ none → y.req u ≠ none) :
    AutomaticsMade e y first us y.pln.desired.get (us.foldl (State.handDesired old) y) := by
  induction us using List.reverseRecOn with
  | nil =>
    refine ⟨fun _ _ => rfl, fun _ h => absurd h List.not_mem_nil, ?_⟩
    rw [show e.automaticOf y.pln.desired.get [] = [] from rfl, List.append_nil]
    exact hnum
  | append_singleton us u ih =>
    obtain ⟨hus, -, hdis⟩ := List.nodup_append.mp hn
    have hu : u ∉ us := fun h => hdis u h u (List.mem_singleton_self u) rfl
    obtain ⟨left, made, numbered⟩ := ih hus fun v hv => hheld v (List.mem_append_left _ hv)
    have hturn := Turn.foldl (turn_handDesired old) us y
    have hframe := hy.trans hturn.frame.cascade.play
    have hpln := hturn.frame.pln
    rw [List.foldl_append, List.foldl_cons, List.foldl_nil]
    generalize us.foldl (State.handDesired old) y = z at left made numbered hframe hpln
    have hz : z.req u = y.req u := left u hu
    have h : AutomaticsMade e y first us y.pln.desired.get z := ⟨left, made, numbered⟩
    obtain ⟨hcases, hfree⟩ := handDesired_cases old z u
    have hother (v : Slot) (hv : v ≠ u) : (State.handDesired old z u).req v = z.req v := by
      rcases hcases with hc | hc
      · rw [hc]
      · rw [hc, takeDemand_other hv]
    cases hnone : e.req u with
    | some r =>
      have hsome : z.req u ≠ none := by
        rw [hz]
        exact hothers u (by rw [hnone]; nofun)
      refine h.skip hu ?_ hother (fun hf => ?_) (by simp [State.makes, hnone]) fun k => by rw [hnone] at k; cases k
      · rcases hcases with hc | hc
        · rw [hc]
        · rw [hc, takeDemand_counter hsome]
      · rw [(hfirst u hf).2] at hnone
        cases hnone
    | none =>
      have hstart := hheld u (List.mem_append_right _ (List.mem_singleton_self u)) hnone
      cases hh : e.heldBy u with
      | true =>
        rw [if_pos hh, ← hz] at hstart
        obtain ⟨n, hn⟩ := hstart
        have hkeep : (State.handDesired old z u).req u = z.req u ∧ (State.handDesired old z u).trs.entryCounter = z.trs.entryCounter := by
          cases hr : z.req u with
          | none =>
            rw [hfree (by unfold State.underOrder; rw [hr]; rfl)]
            have htake : z.takeDemand u = z.compareDemand u := by
              unfold State.takeDemand
              rw [hr]
            have hreq : (z.compareDemand u).req u = none := by
              rw [compareDemand_renewed hr, hframe.renewed, renewed_held hh _ _ none]
              exact renewed_none_of (hn.symm.trans hr) _
            rw [htake, compareDemand_counter z u hr, hreq]
            exact ⟨rfl, rfl⟩
          | some r =>
            rw [hr, ← hframe.renewed] at hn
            obtain ⟨hdem, hcls, hw, -⟩ := of_renewed hn.symm
            have hord : z.underOrder u = false := by
              unfold State.underOrder
              rw [hr]
              simp [Request.ordered, hw]
            rw [hfree hord, takeDemand_counter (by rw [hr]; nofun), takeDemand_waiting hr hw, hdem]
            refine ⟨?_, rfl⟩
            simp only [if_true, State.setReq_req, ← hcls]
        refine h.skip hu hkeep.2 hother (fun _ => by rw [hkeep.1]) (by simp [hh]) fun _ => ⟨n, ?_⟩
        rw [hkeep.1, hn]
        exact renewed_held hh ..
      | false =>
        rw [if_neg (by simp [hh]), ← hz] at hstart
        have htake : State.handDesired old z u = z.compareDemand u := by
          rw [hfree (by unfold State.underOrder; rw [hstart]; rfl)]
          unfold State.takeDemand
          rw [hstart]
        have hdes : (if z.automatic u then z.pln.desired.get u else none) = y.pln.desired.get u := by
          rw [hpln, hframe.automatic]
          split
          · rfl
          · rename_i ha
            exact (not_not.mp fun k => ha (hauto u k)).symm
        have hreq : (z.compareDemand u).req u = e.renewed u z.trs.entryCounter (y.pln.desired.get u) := by
          rw [compareDemand_renewed hstart, hdes, hframe.renewed]
        have hnew : u ∉ first ++ e.automaticOf y.pln.desired.get us := fun k => by
          rcases List.mem_append.mp k with k | k
          · rw [(hfirst u k).1] at hh
            cases hh
          · exact hu (mem_automaticOf k).1
        have hnum' := numbered.compareDemand hstart hnew
        rw [hreq, renewed_isSome e u _ 0] at hnum'
        have hlist : e.automaticOf y.pln.desired.get (us ++ [u]) = e.automaticOf y.pln.desired.get us
            ++ if (e.renewed u 0 (y.pln.desired.get u)).isSome then [u] else [] := by
          simp [State.automaticOf, State.makes, hh, hnone, List.filter_append, List.filter_cons]
        rw [htake]
        refine ⟨fun v hv => ?_, fun v hv hvn => ?_, ?_⟩
        · rw [List.mem_append, List.mem_singleton, not_or] at hv
          rw [compareDemand_other hv.2]
          exact left v hv.1
        · by_cases hvu : v = u
          · rw [hvu]
            exact ⟨_, hreq⟩
          · rw [compareDemand_other hvu]
            exact made v ((List.mem_append.mp hv).resolve_right fun k => hvu (List.mem_singleton.mp k)) hvn
        · rw [hlist, ← List.append_assoc]
          exact hnum'

/-- The requests that the entry into DISPATCHING has made, before leftover requests are put back. -/
structure Started (e : State) (order : List Slot) (z : State) : Prop where
  made : ∀ u ∈ order, e.req u = none → ∃ n, z.req u = e.renewed u n (z.pln.desired.get u)
  numbered : Numbered e.trs.entryCounter (e.manualOf order ++ e.automaticOf z.pln.desired.get order) z

/-- Where no desired mode is given the held slots' requests are all. -/
theorem started_of_manuals {e x z : State} {order : List Slot} (h : ManualsMade e order x) (htrs : z.trs = x.trs)
    (hnone : ∀ u, z.pln.desired.get u = none) : Started e order z := by
  have hreq := State.req_congr htrs
  refine ⟨fun u hu hr => ?_, ?_⟩
  · rw [hnone, hreq]
    cases hh : e.heldBy u with
    | true => exact h.made u hu hh hr
    | false =>
      refine ⟨0, ?_⟩
      rw [renewed_free (Option.not_isSome_iff_eq_none.mp (by rw [show (e.unitRec u).hold.isSome = _ from hh]; nofun))]
      exact (h.left u fun k => by rw [k.2.1] at hh; cases hh).trans hr
  · have hempty : e.automaticOf z.pln.desired.get order = [] := by
      refine List.filter_eq_nil_iff.mpr fun u _ => ?_
      rw [hnone]
      cases hh : e.heldBy u with
      | true => simp
      | false =>
        have hfree : e.renewed u 0 none = none :=
          renewed_free (Option.not_isSome_iff_eq_none.mp (by rw [show (e.unitRec u).hold.isSome = _ from hh]; nofun)) 0
        have hno : e.makes u none = false := by
          unfold State.makes
          rw [hfree]
          exact Bool.and_false _
        simp [hno]
    rw [hempty, List.append_nil]
    exact h.numbered.keep (congrArg Trs.entryCounter htrs) fun u _ => by rw [hreq]

theorem assign_eq {s : State} {row : PlanRow} (h : s.selectedRow = some row) :
    s.assign = let t := (s.setPln { s.pln with desired := s.desiredOf (s.assignRow row) }).notePlanShort (s.assignRow row)
      t.ros.rotation.foldl (State.handDesired s.pln.desired) t := by
  unfold State.assign
  rw [h]

theorem notePlanShort_keeps (s : State) (a : Assignment) :
    (s.notePlanShort a).trs = s.trs ∧ (s.notePlanShort a).pln.desired = s.pln.desired := by
  unfold State.notePlanShort
  dsimp only
  split <;> exact ⟨rfl, rfl⟩

/-- An assignment from a state in which the held slots' requests have been made (R51, R83). -/
theorem started_assign {e x s : State} (hn : s.ros.rotation.Nodup) (h : ManualsMade e s.ros.rotation x) (hframe : PlayFrame e s)
    (htrs : s.trs = x.trs) (hnone : ∀ u, s.pln.desired.get u = none) : Started e s.ros.rotation s.assign := by
  cases hrow : s.selectedRow with
  | none =>
    have hsame : s.assign = s := by
      unfold State.assign
      rw [hrow]
    rw [hsame]
    exact started_of_manuals h htrs hnone
  | some row =>
    let y := (s.setPln { s.pln with desired := s.desiredOf (s.assignRow row) }).notePlanShort (s.assignRow row)
    have hcas := cascade_notePlanShort (s.setPln { s.pln with desired := s.desiredOf (s.assignRow row) }) (s.assignRow row)
    have hset : CascadeFrame s (s.setPln { s.pln with desired := s.desiredOf (s.assignRow row) }) := cascade_setPln s _ rfl rfl rfl rfl
    have hplay : PlayFrame e y := hframe.trans (hset.trans hcas).play
    obtain ⟨hytrs, hydes⟩ := notePlanShort_keeps (s.setPln { s.pln with desired := s.desiredOf (s.assignRow row) }) (s.assignRow row)
    have hyreq : ∀ u, y.req u = x.req u := State.req_congr (hytrs.trans htrs)
    have hrot : y.ros.rotation = s.ros.rotation := (hset.trans hcas).play.rotation
    have hdes (u : Slot) : y.pln.desired.get u = if s.automatic u then some (((s.assignRow row).got.get u).getD .ss) else none := by
      rw [show y.pln.desired = s.desiredOf (s.assignRow row) from hydes]
      exact SlotMap.get_ofFn _ u
    have hall := automaticsMade_fold (e := e) (y := y) (first := e.manualOf s.ros.rotation) s.pln.desired hn hplay
      (fun u hu => by
        rw [hdes, hframe.automatic] at hu
        exact not_not.mp fun ha => hu (if_neg ha))
      (fun u hu => ⟨(mem_manualOf hu).2.1, makes_none (mem_manualOf hu).2.2⟩)
      (fun u hu hr => by
        rw [hyreq]
        split
        · rename_i hh
          exact h.made u hu hh hr
        · rename_i hh
          exact (h.left u fun k => hh k.2.1).trans hr)
      (h.numbered.keep (congrArg Trs.entryCounter (hytrs.trans htrs)) fun u _ => by rw [hyreq])
      (fun u hu => by
        rw [hyreq, h.left u fun k => hu k.2.2]
        exact hu)
    have hz : s.assign = s.ros.rotation.foldl (State.handDesired s.pln.desired) y := by
      rw [assign_eq hrow]
      dsimp only
      rw [show ((s.setPln { s.pln with desired := s.desiredOf (s.assignRow row) }).notePlanShort (s.assignRow row)).ros.rotation
        = s.ros.rotation from hrot]
    have hpln : (s.ros.rotation.foldl (State.handDesired s.pln.desired) y).pln = y.pln :=
      (Turn.foldl (turn_handDesired s.pln.desired) s.ros.rotation y).frame.pln
    rw [hz]
    exact ⟨fun u hu hr => by rw [hpln]; exact hall.made u hu hr, by rw [hpln]; exact hall.numbered⟩

/-- The part enters DISPATCHING: the requests made, MANUAL ones first (R83). -/
theorem started_enabled {s : State} (hn : s.ros.rotation.Nodup) {rows : List PlanRow} (ht : s.pln.table = some rows) :
    Started s.entered s.ros.rotation ((s.ros.rotation.foldl State.compareHeld s.entered).selectRow false) := by
  have hturn := (turn_compareHeld_fold s.ros.rotation s.entered).frame
  have hmade := manualsMade_fold s.entered s.ros.rotation hn
  generalize s.ros.rotation.foldl State.compareHeld s.entered = x at hturn hmade
  have hpln : x.pln = .cleared s.pln.table := hturn.pln
  have hxt : x.pln.table = some rows := by
    rw [hpln]
    exact ht
  have hsel : x.pln.selected = none := by rw [hpln]; rfl
  have hdes (u : Slot) : x.pln.desired.get u = none := by
    rw [hpln]
    exact SlotMap.get_const none u
  obtain ⟨hgap, hadopt⟩ := Proofs.selectRow_leaves hxt false fun k row hk => by rw [hsel] at hk; cases hk
  cases hc : candidateRow rows x.tgt.plan with
  | none =>
    rw [hgap hc]
    refine started_of_manuals hmade ?_ fun u => ?_
    · unfold State.planGap
      dsimp only
      split <;> rfl
    · rw [planGap_pln]
      exact hdes u
  | some k =>
    rw [hadopt k hc, hsel, Option.isNone_none, if_pos rfl]
    let y := (x.setPln { x.pln with selected := some k, proposal := none, gap := false }).post .rowAdopted none (some k)
    have hframe : PlayFrame s.entered y := 
      (hturn.cascade.play.trans (select_setPln x { x.pln with selected := some k, proposal := none, gap := false } rfl).play).trans
        (cascade_post _ .rowAdopted none (some k)).play
    have hrot : y.ros.rotation = s.ros.rotation := congrArg Ros.rotation hturn.ros
    have hstart := started_assign (e := s.entered) (x := x) (s := y) (by rw [hrot]; exact hn) (by rw [hrot]; exact hmade) hframe rfl hdes
    rw [hrot] at hstart
    exact hstart

/-! ## Leftover requests -/

theorem keepStep_reads (a : State) (us : List Slot) (x : State) :
    (∀ u, (us.foldl (State.keepStep a) x).req u = if u ∈ us ∧ a.underOrder u = true then a.req u else x.req u)
      ∧ us.foldl (State.keepStep a) x = x.setTrs { x.trs with requests := (us.foldl (State.keepStep a) x).trs.requests } := by
  induction us using List.reverseRecOn with
  | nil => exact ⟨fun u => by simp, rfl⟩
  | append_singleton us v ih =>
    obtain ⟨hreq, hrest⟩ := ih
    rw [List.foldl_append, List.foldl_cons, List.foldl_nil]
    generalize us.foldl (State.keepStep a) x = y at hreq hrest
    unfold State.keepStep
    cases ho : a.underOrder v with
    | true =>
      refine ⟨fun u => ?_, ?_⟩
      · rw [if_pos rfl, State.setReq_req]
        by_cases hu : u = v
        · subst hu
          simp [ho]
        · rw [if_neg hu, hreq]
          simp [hu]
      · rw [if_pos rfl, hrest]
        rfl
    | false =>
      refine ⟨fun u => ?_, ?_⟩
      · rw [if_neg (by simp), hreq]
        by_cases hu : u = v
        · subst hu
          simp [ho]
        · simp [hu]
      · rw [if_neg (by simp)]
        exact hrest

/-- The detail of a refused ENABLE for a missing capability table (R160). -/
theorem find_lacksTable {s : State} {u : Slot} (hu : s.lacksTable u = true)
    (hfirst : ∀ v, (slotCode v).toNat < (slotCode u).toNat → s.lacksTable v = false) : Slot.all.find? s.lacksTable = some u := by
  have hsplit : ∃ pre post, Slot.all = pre ++ u :: post ∧ ∀ v ∈ pre, (slotCode v).toNat < (slotCode u).toNat := by
    cases u
    · exact ⟨[], _, rfl, by decide⟩
    · exact ⟨[.u1], _, rfl, by decide⟩
    · exact ⟨[.u1, .u2], _, rfl, by decide⟩
    · exact ⟨[.u1, .u2, .u3], _, rfl, by decide⟩
    · exact ⟨[.u1, .u2, .u3, .u4], _, rfl, by decide⟩
    · exact ⟨[.u1, .u2, .u3, .u4, .u5], _, rfl, by decide⟩
    · exact ⟨[.u1, .u2, .u3, .u4, .u5, .u6], _, rfl, by decide⟩
    · exact ⟨[.u1, .u2, .u3, .u4, .u5, .u6, .u7], _, rfl, by decide⟩
  obtain ⟨pre, post, hall, hpre⟩ := hsplit
  rw [hall, List.find?_eq_some_iff_append]
  exact ⟨hu, pre, post, rfl, fun v hv => by rw [hfirst v (hpre v hv)]; rfl⟩

/-- What ENABLE makes of the whole part, before grants and the allocation. -/
theorem enabled_effect {s : State} {rows : List PlanRow} (ht : s.pln.table = some rows) :
    let z := (s.ros.rotation.foldl State.compareHeld s.entered).selectRow false
    SelectFrame { s.entered with pln := s.pln } s.enabled ∧ s.enabled.pln = z.pln
      ∧ (∀ u, s.enabled.req u = if s.underOrder u = true then s.req u else z.req u)
      ∧ s.enabled.pln.selected = candidateRow rows s.entered.tgt.plan ∧ s.enabled.pln.proposal = none
      ∧ s.enabled.pln.gap = (candidateRow rows s.entered.tgt.plan).isNone := by
  intro z
  have hturn := (turn_compareHeld_fold s.ros.rotation s.entered).frame
  have hframe : SelectFrame s.entered z := hturn.cascade.toSelectFrame.trans (select_selectRow false _)
  obtain ⟨hreq, hrest⟩ := keepStep_reads s Slot.all z
  have hen : s.enabled = Slot.all.foldl (State.keepStep s) z := rfl
  have hpln : s.enabled.pln = z.pln := by
    rw [hen, hrest]
    rfl
  obtain ⟨hsel, hprop, hgap⟩ := selectRow_afresh (s := s.ros.rotation.foldl State.compareHeld s.entered) (rows := rows)
    (by rw [hturn.pln]; exact ht) (by rw [hturn.pln]; rfl)
  have htgt := hturn.cascade.tgt
  rw [htgt] at hsel hgap
  refine ⟨?_, hpln, fun u => ?_, by rw [hpln]; exact hsel, by rw [hpln]; exact hprop, by rw [hpln]; exact hgap⟩
  · have hkeep : SelectFrame z s.enabled := by
      rw [hen]
      have hparts : CascadeFrame z (z.setTrs { z.trs with requests := (Slot.all.foldl (State.keepStep s) z).trs.requests }) :=
        .of_parts rfl rfl rfl rfl rfl rfl rfl (.of_eq rfl) (.of_eq rfl) (.of_eq rfl) .refl
      rw [← hrest] at hparts
      exact hparts.toSelectFrame
    have hback : SelectFrame { s.entered with pln := s.pln } s.entered :=
      ⟨⟨⟨rfl, rfl, rfl, rfl, rfl, rfl, rfl, rfl, .of_eq rfl, .of_eq rfl, .of_eq rfl, .refl⟩, rfl⟩, rfl⟩
    exact (hback.trans hframe).trans hkeep
  · rw [hen, hreq]
    simp

end Sys2Proof.Machine

namespace Sys2Proof.Proofs
open Sys2Proof.Machine

/-- Where no slot has become undispatchable or changed its automatic condition the planner has nothing to do (R51, R77). -/
theorem planStage_steady {before b : State} {c : Causes} (hd : ∀ u, b.dispatchable u = before.dispatchable u)
    (ha : ∀ u, b.automatic u = before.automatic u) (hc : c.replan = false) (hh : c.hand = []) : b.planStage before c = b := by
  have hdrop (u : Slot) : State.dropGrant before b u = b := by simp [State.dropGrant, hd u]
  have hall : Slot.all.foldl (State.dropGrant before) b = b := by simp [Slot.all, hdrop]
  have hauto : autoChanged before b = false := by simp [autoChanged, ha]
  simp [State.planStage, hall, hauto, hc, hh]

theorem not_isNone_of_isSome {α : Type} {o : Option α} (h : o.isSome = true) : ¬ o.isNone = true := by
  cases o with
  | none => cases h
  | some _ => nofun

/-- With the head, the plan and the waterway table at hand a missing capability table alone refuses ENABLE (R160). -/
theorem enableFault_caps {s : State} (hhead : s.headInUse.isSome = true) (ht : s.pln.table.isSome = true)
    (hways : s.trs.waterways.isSome = true) : s.enableFault = (Slot.all.find? s.lacksTable).map (fun u => 4 + (slotCode u).toNat) :=
  (if_neg (not_isNone_of_isSome hhead)).trans ((if_neg (not_isNone_of_isSome ht)).trans (if_neg (not_isNone_of_isSome hways)))

/-- Settles O47. -/
theorem enableStarts : Obligations.EnableStarts := by
  unfold Obligations.EnableStarts
  intro tag s answer lacks
  let a := s.takePlantFrame
  have hlacks (u : Slot) : a.lacksTable u = true ↔ lacks u := by
    show ((s.unitRec u).port.isSome && (s.head.caps.get u).isNone) = true ↔ _
    rw [Bool.and_eq_true, Option.isNone_iff_eq_none]
  have hfault (d : Nat) (hs : s.pli.part = .standby) (h : a.enableFault = some d) : answer .state d := by
    have hg : ¬ a.governs = true := fun k => by simp [a, State.governs, State.takePlantFrame, hs] at k
    show execEnable tag s = _
    unfold execEnable
    refine (if_neg hg).trans ?_
    rw [show s.takePlantFrame.enableFault = some d from h]
    rfl
  refine ⟨fun h => ?_, fun hs => ⟨fun h => hfault 1 hs ?_, fun hhead => ⟨fun h => hfault 2 hs ?_, fun rows ht => ⟨fun h => hfault 3 hs ?_,
    fun hways => ⟨fun u hu hfirst => hfault _ hs ?_, fun hnone => ?_⟩⟩⟩⟩⟩
  · have hg : a.governs = true := by simp [a, State.governs, State.takePlantFrame, h]
    exact if_pos hg
  · exact if_pos (Option.isNone_iff_eq_none.mpr h)
  · exact (if_neg (not_isNone_of_isSome hhead)).trans (if_pos (Option.isNone_iff_eq_none.mpr h))
  · exact (if_neg (not_isNone_of_isSome hhead)).trans ((if_neg (not_isNone_of_isSome (Option.isSome_of_eq_some ht))).trans
      (if_pos (Option.isNone_iff_eq_none.mpr h)))
  · refine (enableFault_caps (s := a) hhead (Option.isSome_of_eq_some ht) hways).trans ?_
    rw [find_lacksTable ((hlacks u).mpr hu) fun v hv => Bool.eq_false_iff.mpr fun k => hfirst v hv ((hlacks v).mp k)]
    rfl
  · intro x plan
    let b := a.enabled
    obtain ⟨hframe, hpln, hreq, hsel, hprop, hgap⟩ := enabled_effect (s := a) ht
    have hexec : exec (.enable tag) s = .next ((b.finish s { allocate := true }).manage tag kindEnable .ok) := by
      have hg : ¬ a.governs = true := fun k => by simp [a, State.governs, State.takePlantFrame, hs] at k
      have hready : a.enableFault = none := by
        refine (enableFault_caps (s := a) hhead (Option.isSome_of_eq_some ht) hways).trans ?_
        rw [List.find?_eq_none.mpr fun u _ k => hnone u ((hlacks u).mp k)]
        rfl
      show execEnable tag s = _
      unfold execEnable
      refine (if_neg hg).trans ?_
      rw [show s.takePlantFrame.enableFault = none from hready]
    have hcas := cascade_finish b s { allocate := true }
    have hpli := hcas.pli.trans hframe.pli
    have hsteady : b.planStage s { allocate := true } = b :=
      planStage_steady (hframe.play.dispatchable) (hframe.play.automatic) rfl rfl
    have hcourse := finish_course b s { allocate := true }
    rw [hsteady] at hcourse
    have hgrant := turn_grantStage b s { allocate := true }
    have hfin : b.finish s { allocate := true } = (b.grantStage s { allocate := true }).allocate := by
      have hgov : (b.grantStage s { allocate := true }).governs = true := by
        rw [hgrant.frame.cascade.play.governs, hframe.play.governs]
        rfl
      unfold State.finish
      rw [hsteady]
      unfold State.allocStage
      rw [hgov]
      exact if_pos (by simp)
    have htpln : (b.finish s { allocate := true }).pln = b.pln := by
      rw [hfin, allocate_pln, hgrant.frame.pln]
    refine ⟨_, hexec.trans (congrArg Host.Outcome.next (manage_eq_replied (congrArg Pli.framer hpli) tag kindEnable .ok 0 [])),
      hframe.trans hcas.toSelectFrame, hcas.selected.trans hsel, ?_, hcas.proposal.trans hprop, ?_, fun u ho => ?_, fun hperm => ?_⟩
    · rw [hcas.gap, hcas.selected, hgap, hsel]
    · rw [hfin, allocate_alc]
      show some (b.grantStage s { allocate := true }).allocationTarget = _
      unfold State.allocationTarget
      rw [hgrant.frame.cascade.tgt, hframe.tgt]
      show some (clampPlant (x + 0)) = _
      rw [Int.add_zero]
    · obtain ⟨r, hr, hor⟩ : ∃ r, s.req u = some r ∧ r.ordered = true := by
        rwa [State.underOrder, Option.any_eq_true] at ho
      have hb : b.req u = some r := by
        rw [hreq]
        exact (if_pos ho).trans hr
      rw [hr]
      refine finish_granted (by rw [hsteady]; exact hb) fun hw => ?_
      rw [Request.ordered, hw] at hor
      cases hor
    · intro held first made
      have hnodup : s.ros.rotation.Nodup := hperm.nodup_iff.mpr Slot.all_nodup
      have hstart := started_enabled (s := a) hnodup ht
      obtain ⟨hmade, hnum⟩ := hstart
      rw [← hpln] at hmade hnum
      let t := b.finish s { allocate := true }
      have hren (u : Slot) (n : Word) (d : Option Stable) : t.renewed u n d = a.entered.renewed u n d :=
        (hcas.play.renewed u n d).trans (hframe.play.renewed u n d)
      have hfree (u : Slot) (hu : s.req u = none) :
          b.req u = ((a.ros.rotation.foldl State.compareHeld a.entered).selectRow false).req u := by
        have hord : a.underOrder u = false := by
          show (s.req u).any _ = false
          rw [hu]
          rfl
        rw [hreq, if_neg (by rw [hord]; nofun)]
      have hmem (u : Slot) : u ∈ a.ros.rotation := hperm.mem_iff.mpr (Slot.mem_all u)
      have hfresh (u : Slot) (hu : s.req u = none) : ∃ n, b.req u = a.entered.renewed u n (b.pln.desired.get u) := by
        obtain ⟨n, hn⟩ := hmade u (hmem u) hu
        exact ⟨n, (hfree u hu).trans hn⟩
      refine ⟨fun u hu => ?_, fun i u hi => ?_⟩
      · obtain ⟨n, hn⟩ := hfresh u hu
        refine ⟨n, (aim_of_course (hcourse u)).trans ?_⟩
        rw [htpln, hren, hn, renewed_aim]
      · have hsome (v : Slot) (hv : s.req v = none) : (t.req v).isSome = (a.entered.renewed v 0 (b.pln.desired.get v)).isSome := by
          obtain ⟨n, hn⟩ := hfresh v hv
          have hc := congrArg Option.isSome (hcourse v)
          rw [Option.isSome_map, Option.isSome_map] at hc
          rw [hc, hn]
          exact renewed_isSome ..
        have hlist : made = a.entered.manualOf s.ros.rotation ++ a.entered.automaticOf b.pln.desired.get s.ros.rotation := by
          show (s.ros.rotation.filter held ++ s.ros.rotation.filter (fun u => !held u)).filter _ = _
          rw [List.filter_append, List.filter_filter, List.filter_filter]
          refine congrArg₂ _ (List.filter_congr fun v _ => ?_) (List.filter_congr fun v _ => ?_)
          · show ((s.req v).isNone && (t.req v).isSome && held v) = (held v && ((s.req v).isNone && (a.entered.renewed v 0 none).isSome))
            cases hv : s.req v with
            | some _ => simp
            | none =>
              cases hh : held v with
              | false => simp
              | true => rw [hsome v hv, renewed_held (s := a.entered) hh 0 _ none, Bool.and_true, Bool.true_and]
          · show ((s.req v).isNone && (t.req v).isSome && !held v)
              = (!held v && ((s.req v).isNone && (a.entered.renewed v 0 (b.pln.desired.get v)).isSome))
            cases hv : s.req v with
            | some _ => simp
            | none => rw [hsome v hv, Bool.and_comm]
        rw [hlist] at hi
        have hnone : s.req u = none := by
          rcases List.mem_append.mp (List.mem_of_getElem? hi) with h | h
          · exact makes_none (e := a.entered) (mem_manualOf h).2.2
          · exact makes_none (e := a.entered) (mem_automaticOf h).2.2
        have hentry := hnum.entries i u hi
        rw [← hfree u hnone] at hentry
        have hc := congrArg (Option.map (·.2.2.2.2)) (hcourse u)
        rw [Option.map_map, Option.map_map] at hc
        exact hc.trans hentry

end Sys2Proof.Proofs
end

section
/-! CONFIG_SET (O37). -/

namespace Sys2Proof.Proofs
open Sys2Proof.Machine

/-! ## The stored value and the parameter named -/

theorem storeRange_eq {lo hi : Nat} (h : lo ≤ hi) (v : Int) : storeRange lo hi v = (max (lo : Int) (min (hi : Int) v)).toNat := by
  unfold storeRange
  rw [clampInt_max_min lo hi v (by omega)]

theorem storeNamed_eq (v : Int) : storeNamed 2 v = if v = 0 then some 0 else if v = 1 then some 1 else none := by
  unfold storeNamed
  by_cases h0 : v = 0
  · subst h0
    rfl
  · by_cases h1 : v = 1
    · subst h1
      rfl
    · rw [if_neg h0, if_neg h1, if_neg (by omega)]

/-- The value stored for a value sent (R170). -/
theorem store_rule (q : Param) (v : Int) :
    let range (lo hi : Int) := q.store v = some (max lo (min hi v)).toNat
    let long (least : Nat) := q.store v = some (if v ≤ 0 then least else longTimer v.toNat)
    let named := q.store v = if v = 0 then some 0 else if v = 1 then some 1 else none
    match q with
    | .rampRate => range 0 2000
    | .regLimit => range 0 5000
    | .deadband => range 0 50
    | .dwell | .refusalBackoff => long 0
    | .planAdvance => range 0 1800
    | .rampAdvance => range 0 900
    | .linkTimeout | .markerDivider => range 1 60
    | .levelTimeout => long 1
    | .unitTimeout => range 1 10
    | .ackTimeout => range 1 15
    | .headLoss => range 0 500
    | .headOverride => range 0 10000
    | .converters => range 0 2
    | .maxConcurrent => range 1 8
    | .markerOutWidth => range 1 25
    | .markerMode | .markerPolarity | .autoResume | .ackMode _ => named := by
  intro range long named
  have hrange {lo hi : Nat} (h : lo ≤ hi) : some (storeRange lo hi v) = some (max (lo : Int) (min (hi : Int) v)).toNat :=
    congrArg some (storeRange_eq h v)
  cases q with
  | markerMode => exact storeNamed_eq v
  | markerPolarity => exact storeNamed_eq v
  | autoResume => exact storeNamed_eq v
  | ackMode _ => exact storeNamed_eq v
  | dwell => rfl
  | refusalBackoff => rfl
  | levelTimeout => rfl
  | _ => exact hrange (by decide)

theorem paramOfCode_numbered (param port : Byte) :
    let numbered : List Param := [.rampRate, .regLimit, .deadband, .dwell, .planAdvance, .rampAdvance, .linkTimeout, .levelTimeout,
      .unitTimeout, .ackTimeout, .refusalBackoff, .headLoss, .headOverride, .converters, .maxConcurrent, .markerMode,
      .markerDivider, .markerPolarity, .markerOutWidth, .autoResume]
    ∀ q, numbered[param.toNat - 1]? = some q → param ≠ 0 → paramOfCode param port = .ok q := by
  intro numbered q h hne
  have hpos : param.toNat ≠ 0 := fun k => hne (BitVec.eq_of_toNat_eq k)
  have hlt : param.toNat - 1 < 20 := (List.getElem?_eq_some_iff.mp h).1
  unfold paramOfCode
  generalize param.toNat = k at h hpos hlt
  obtain ⟨i, rfl⟩ := Nat.exists_eq_succ_of_ne_zero hpos
  change i < 20 at hlt
  change numbered[i]? = some q at h
  interval_cases i <;> exact congrArg Except.ok (Option.some.inj h)

theorem paramOfCode_unknown {param : Byte} (port : Byte) (h : param = 0 ∨ 21 < param.toNat) : paramOfCode param port = .error 1 := by
  rcases h with rfl | h
  · rfl
  · unfold paramOfCode
    obtain ⟨m, hm⟩ := Nat.exists_eq_add_of_le' h
    rw [hm]
    rfl

theorem portOfCode_beyond {port : Byte} (h : port = 0 ∨ 8 < port.toNat) : portOfCode port = none := by
  rcases h with rfl | h
  · rfl
  · unfold portOfCode
    obtain ⟨m, hm⟩ := Nat.exists_eq_add_of_le' h
    rw [hm]
    rfl

theorem portOfCode_of_all {port : Byte} {p : Port} (h : Port.all[port.toNat - 1]? = some p) (hne : port ≠ 0) : portOfCode port = some p := by
  have hpos : port.toNat ≠ 0 := fun k => hne (BitVec.eq_of_toNat_eq k)
  have hlt : port.toNat - 1 < 8 := (List.getElem?_eq_some_iff.mp h).1
  unfold portOfCode
  generalize port.toNat = k at h hpos hlt
  obtain ⟨i, rfl⟩ := Nat.exists_eq_succ_of_ne_zero hpos
  change i < 8 at hlt
  change Port.all[i]? = some p at h
  interval_cases i <;> exact h

/-! ## The answers -/

section
variable {tag param port : Byte} {value : Word} {s : State}

theorem configSet_badParam {i : Nat} (h : paramOfCode param port = .error i) :
    exec (.configSet tag param value port) s = .next (s.replied tag 2 1 .invalid i) := by
  show execConfigSet tag param value port s = _
  unfold execConfigSet
  rw [h]
  rfl

theorem configSet_badName {q : Param} (h : paramOfCode param port = .ok q) (hn : q.store value.toInt = none) :
    exec (.configSet tag param value port) s = .next (s.replied tag 2 1 .invalid 2) := by
  show execConfigSet tag param value port s = _
  unfold execConfigSet
  simp only [h, hn]
  rfl

/-- The owner's refusals (R36, R139). -/
theorem refusesChange_iff (s : State) (q : Param) (n : Nat) : s.refusesChange q n = true
    ↔ (q = .headOverride ∧ n = 0 ∧ s.pli.part ≠ .standby ∧ s.head.estimate = none)
      ∨ (q = .markerMode ∧ (s.prf.playback.state = .armed ∨ s.prf.playback.state = .aligned ∨ s.prf.playback.state = .playing)) := by
  cases q with
  | headOverride => simp [State.refusesChange, State.governs, and_assoc]
  | markerMode =>
    unfold State.refusesChange
    cases s.prf.playback.state <;> simp [PlayState.inUse]
  | _ => simp [State.refusesChange]

variable {q : Param} {n : Nat} (h : paramOfCode param port = .ok q) (hn : q.store value.toInt = some n)
include h hn

theorem configSet_eq : exec (.configSet tag param value port) s
    = if s.takePlantFrame.held q ≠ n ∧ s.takePlantFrame.refusesChange q n = true then .next (s.takePlantFrame.manage tag kindConfigSet .state)
      else .next ((s.takePlantFrame.changeParam q n).manage tag 1 (if (n : Int) = value.toInt then .ok else .clamped) 0
        (if (n : Int) = value.toInt then [] else [param] ++ int32 n ++ [port])) := by
  show execConfigSet tag param value port s = _
  unfold execConfigSet
  simp only [h, hn]
  split
  · rfl
  · split <;> rfl

end

/-! ## What a change does -/

theorem takePlantFrame_held (s : State) (q : Param) : s.takePlantFrame.held q = s.held q := held_congr q rfl fun _ => rfl

theorem formEstimate_headFrame (s : State) : HeadFrame s s.formEstimate := by
  unfold State.formEstimate
  split
  · exact ⟨rfl, rfl, rfl, rfl, rfl, rfl, rfl, rfl, rfl, rfl, .of_eq rfl, .of_eq rfl, .refl⟩
  · exact ⟨rfl, rfl, rfl, rfl, rfl, rfl, rfl, rfl, rfl, rfl, .of_eq rfl, .of_eq rfl, .refl⟩

theorem headFrame_trans {a b c : State} (h : HeadFrame a b) (k : HeadFrame b c) : HeadFrame a c where
  pending := k.pending.trans h.pending
  pli := k.pli.trans h.pli
  tgt := k.tgt.trans h.tgt
  prf := k.prf.trans h.prf
  plantOut := k.plantOut.trans h.plantOut
  table := k.table.trans h.table
  selected := k.selected.trans h.selected
  proposal := k.proposal.trans h.proposal
  gap := k.gap.trans h.gap
  rotation := k.rotation.trans h.rotation
  ports := h.ports.trans k.ports
  waterways := h.waterways.trans k.waterways
  posted := h.posted.trans (State.clock_congr h.pli ▸ k.posted)

theorem formEstimate_head (s : State) : s.formEstimate.head = match s.head.levels with
    | none => s.head
    | some (upper, lower) =>
      let raw : Int := (upper : Int) - lower - s.params.headLoss
      { s.head with estimate := some (max 0 (min 10000 raw)).toNat, clamped := decide (raw < 0 ∨ 10000 < raw) } := by
  unfold State.formEstimate
  cases h : s.head.levels with
  | none => rfl
  | some lv =>
    obtain ⟨upper, lower⟩ := lv
    dsimp only
    rw [← clampInt_max_min 0 10000 _ (by decide)]
    rfl

/-- All that a change of a parameter keeps of the other parameters. -/
theorem held_after {s y t : State} {q : Param} {v : Int} {n : Nat} (hy : y = s.takePlantFrame.writeParam q n) (hn : q.store v = some n)
    (hpli : t.pli = y.pli) (hports : SamePorts y t) : t.held q = n ∧ ∀ r, r ≠ q → t.held r = s.held r := by
  have hheld (r : Param) : t.held r = y.held r :=
    held_congr r (State.params_congr hpli) fun p => (congrArg PortRec.ackMode (hports p) :)
  refine ⟨?_, fun r hr => ?_⟩
  · rw [hheld, hy]
    exact writeParam_held s.takePlantFrame q v n hn
  · rw [hheld, hy, writeParam_other _ q r n hr]
    exact takePlantFrame_held s r

/-- No owner's rule touches the parameters, the part's own record or the ports' ack modes. -/
theorem applyParam_keeps (a y : State) (q : Param) : (State.applyParam a y q).pli = y.pli ∧ SamePorts y (State.applyParam a y q) := by
  have hset (x : State) (before : Option Nat) : (State.resettle before x).pli = x.pli ∧ SamePorts x (State.resettle before x) := by
    obtain ⟨hf, -⟩ := resettle_effect before x
    exact ⟨hf.pli, .of_eq hf.ports⟩
  have hdue : y.meetDue.pli = y.pli ∧ SamePorts y y.meetDue := ⟨(handed_meetDue y).frame.pli, (handed_meetDue y).frame.ports⟩
  cases q with
  | rampRate =>
    show (if _ then _ else _ : State).pli = _ ∧ SamePorts y (if _ then _ else _)
    split <;> exact ⟨rfl, .of_eq rfl⟩
  | planAdvance => exact hdue
  | rampAdvance => exact hdue
  | headLoss =>
    have hf := formEstimate_headFrame y
    obtain ⟨hpli, hports⟩ := hset y.formEstimate a.headInUse
    exact ⟨hpli.trans hf.pli, hf.ports.trans hports⟩
  | headOverride => exact hset y a.headInUse
  | _ => exact ⟨rfl, .of_eq rfl⟩

/-- A switching time that a change of its advance makes due is met at once (R131). -/
theorem meetDue_finish {y before : State} {c : Causes} :
    let due (advance : Nat) (p : Profile) (k : Nat) : Prop := y.playing = some p
      ∧ y.prf.playback.nextEntry p = some k ∧ ∃ e, y.prf.playback.next = some e
      ∧ reached y.clock (e - BitVec.ofNat 32 (min advance (60 * p.minutes))) = true
    let plan (p : Profile) (k : Nat) := y.prf.playback.planHanded = false ∧ due y.params.planAdvance p k
    let ramp (p : Profile) (k : Nat) := y.prf.playback.rampHanded = false ∧ due y.params.rampAdvance p k
    let t := y.meetDue.finish before c
    PlayFrame y t
    ∧ t.prf.playback = { y.prf.playback with planHanded := t.prf.playback.planHanded, rampHanded := t.prf.playback.rampHanded }
    ∧ t.tgt = { y.tgt with plan := t.tgt.plan, reqBase := t.tgt.reqBase, ramped := t.tgt.ramped }
    ∧ ((∀ p k, ¬ plan p k) → t.prf.playback.planHanded = y.prf.playback.planHanded ∧ t.tgt.plan = y.tgt.plan)
    ∧ ((∀ p k, ¬ ramp p k) → t.prf.playback.rampHanded = y.prf.playback.rampHanded
        ∧ t.tgt.reqBase = y.tgt.reqBase ∧ t.tgt.ramped = y.tgt.ramped)
    ∧ (∀ p k, plan p k → t.prf.playback.planHanded = true
        ∧ t.tgt.plan = if y.tgt.source = .profile then p.entries.getD k 0 else y.tgt.plan)
    ∧ ∀ p k, ramp p k → t.prf.playback.rampHanded = true
        ∧ (y.tgt.source ≠ .profile → t.tgt = y.tgt)
        ∧ (y.tgt.source = .profile →
          let v := clampPlant (p.entries.getD k 0)
          t.tgt.reqBase = v ∧ t.tgt.ramped = if y.jumps = true ∧ v ≠ y.tgt.reqBase then v else y.tgt.ramped) := by
  intro due plan ramp t
  have hcas := cascade_finish y.meetDue before c
  have hplayback : t.prf.playback = y.meetDue.prf.playback := hcas.playback
  have htgt : t.tgt = y.meetDue.tgt := hcas.tgt
  have hhanded := handed_meetDue y
  rw [hplayback, htgt]
  exact ⟨hhanded.frame.trans hcas.play, hhanded.playback, hhanded.rest, meetDue_effect y⟩

/-- Settles O37. -/
theorem configSetStores : Obligations.ConfigSetStores := by
  unfold Obligations.ConfigSetStores
  refine ⟨store_rule, fun param port => ⟨paramOfCode_numbered param port, paramOfCode_unknown port, fun h => ⟨fun hp => ?_, fun p hp hne => ?_⟩⟩,
    fun tag param port value s => ⟨fun i h => configSet_badParam h, fun q h => ⟨configSet_badName h, fun n hn => ?_⟩⟩⟩
  · rw [h]
    show (match portOfCode port with | some p => _ | none => _ : Except Nat Param) = _
    rw [portOfCode_beyond hp]
  · rw [h]
    show (match portOfCode port with | some p => _ | none => _ : Except Nat Param) = _
    rw [portOfCode_of_all hp hne]
  · intro code body refused
    have hexec := configSet_eq (tag := tag) (s := s) h hn
    have hheld : s.takePlantFrame.held q = s.held q := takePlantFrame_held s q
    have hrefused : s.takePlantFrame.refusesChange q n = true ↔ refused := refusesChange_iff s.takePlantFrame q n
    rw [hheld] at hexec
    refine ⟨fun hsame => ?_, fun hne href => ?_, fun hne href => ?_⟩
    · rw [if_neg fun k => k.1 hsame] at hexec
      have hkeep : s.takePlantFrame.changeParam q n = s.takePlantFrame := if_pos (hheld.trans hsame)
      rw [hkeep] at hexec
      exact hexec
    · exact hexec.trans (if_pos ⟨hne, hrefused.mpr href⟩)
    · let a := s.takePlantFrame
      let y := a.writeParam q n
      let c := paramCauses q (a.held q) n
      let t := (State.applyParam a y q).finish a c
      have hchange : a.changeParam q n = t := if_neg (by rw [hheld]; exact hne)
      have hcas := cascade_finish (State.applyParam a y q) a c
      obtain ⟨hkeepPli, hkeepPorts⟩ := applyParam_keeps a y q
      have hpli : t.pli = y.pli := hcas.pli.trans hkeepPli
      obtain ⟨hthis, hothers⟩ := held_after (t := t) (y := y) rfl hn hpli (hkeepPorts.trans hcas.ports)
      have hparams : t.params = y.params := State.params_congr hpli
      refine ⟨t, ?_, hthis, hothers, ?_⟩
      · refine (hexec.trans (if_neg fun k => href (hrefused.mp k.2))).trans ?_
        rw [hchange]
        rfl
      · intro b resettled
        have hb : b = y := by
          cases q with
          | ackMode p => rfl
          | _ => exact congrArg (fun P => ({ s with pli := { s.pli with framer := none, params := P } } : State)) hparams
        clear_value b
        subst hb
        cases q with
        | rampRate =>
          have hstep : State.applyParam a y .rampRate = { y with tgt := { s.tgt with
              ramped := if n = 0 ∧ s.pli.part ≠ .standby then s.tgt.reqBase else s.tgt.ramped } } := by
            show (if n = 0 ∧ y.governs = true then y.setTgt { y.tgt with ramped := y.tgt.reqBase } else y) = _
            have hg : y.governs = true ↔ s.pli.part ≠ .standby := governs_iff (s := y)
            simp only [hg]
            split <;> rfl
          show CascadeFrame _ ((State.applyParam a y .rampRate).finish a c)
          rw [← hstep]
          exact hcas
        | regLimit =>
          have hstep : State.applyParam a y .regLimit = { y with tgt := { s.tgt with
              increment := max (-(n : Int)) (min n s.tgt.increment) } } := by
            rw [← clampInt_eq]
            rfl
          show CascadeFrame _ ((State.applyParam a y .regLimit).finish a c)
          rw [← hstep]
          exact hcas
        | planAdvance =>
          dsimp only
          rw [hparams]
          exact meetDue_finish (y := y) (before := a) (c := c)
        | rampAdvance =>
          dsimp only
          rw [hparams]
          exact meetDue_finish (y := y) (before := a) (c := c)
        | headLoss =>
          have hunit (u : Slot) : (y.formEstimate.unitRec u).core = (a.unitRec u).core := by
            unfold State.formEstimate
            split <;> rfl
          obtain ⟨hframe, hhead, hunits⟩ := headChange (b := State.applyParam a y .headLoss) (a := y.formEstimate) (before := a) (c := c)
            rfl rfl hunit
          exact ⟨headFrame_trans (formEstimate_headFrame y) hframe, hunits, hhead.trans (formEstimate_head y)⟩
        | headOverride =>
          obtain ⟨hframe, hhead, hunits⟩ := headChange (b := State.applyParam a y .headOverride) (a := y) (before := a) (c := c) rfl rfl
            fun u => rfl
          exact ⟨hframe, hunits, hhead⟩
        | _ => exact hcas

end Sys2Proof.Proofs
end

section
/-! The requests whose next step could be granted (R66, R67): a grant evaluation leaves none, and where nothing of what a grant needs has
come free none appears. -/

namespace Sys2Proof.Machine

/-- A step of the slot meets the conditions of R67 but mixing, from the record `q` of its waterway. -/
def State.grantable (s : State) (u : Slot) (st : PathStep) (q : WaterwayRec) : Prop :=
  s.dispatchable u = true ∧ s.orphan u = none ∧ s.reported u = some (.stable st.origin) ∧ (st.kind = .pStart → ∃ c, s.free c)
    ∧ (st.flowChanging = true → q.inProgress < q.row.slots ∧ q.settle = none) ∧ s.plantCount < s.params.maxConcurrent

/-- The slot's request waits for a step that mixing cannot hold back and that meets the other conditions of R67. -/
def State.owed (s : State) (u : Slot) : Prop :=
  ∃ r st w q, s.req u = some r ∧ r.state = .waiting ∧ r.current = some st ∧ s.waterwayOf u = some w ∧ s.waterwayRec w = some q
    ∧ (st.kind = .gStart ∨ st.kind = .prime → q.row.mixing = 1) ∧ s.grantable u st q

theorem grantsWf_iff {s : State} : GrantsWf s ↔ (s.governs = true → ∀ u, ¬ s.owed u) := by
  have hg : s.governs = true ↔ s.pli.part ≠ .standby := by simp [State.governs]
  rw [hg]
  constructor
  · rintro h hp u ⟨r, st, w, q, hr, hw, hc, hof, hrec, hmix, hgrant⟩
    exact h hp u r st w q hr hw hc hof hrec hmix hgrant
  · intro h hp u r st w q hr hw hc hof hrec hmix hgrant
    exact h hp u ⟨r, st, w, q, hr, hw, hc, hof, hrec, hmix, hgrant⟩

theorem grantsWf_of_standby {s : State} (h : s.governs = false) : GrantsWf s :=
  grantsWf_iff.mpr fun hg => absurd hg (by rw [h]; exact Bool.false_ne_true)

/-! ## Nothing comes free -/

/-- The two parameters that bound the grants: converters and max_concurrent (R67, R69). -/
def Pli.bounds (b : Pli) : Nat × Nat := (b.params.converters, b.params.maxConcurrent)

/-- Nothing that a grant needs is to be had in `t` that was not in `s`. -/
structure Poorer (s t : State) : Prop where
  bounds : t.pli.bounds = s.pli.bounds
  dispatchable : ∀ u, t.dispatchable u = true → s.dispatchable u = true
  reported : ∀ u m, t.reported u = some (.stable m) → s.reported u = some (.stable m)
  orphan : ∀ u, t.orphan u = none → s.orphan u = none
  holder : ∀ c, t.holder c = none → s.holder c = none
  place : ∀ u, t.waterwayOf u = s.waterwayOf u
  recs : ∀ w q, t.waterwayRec w = some q →
    ∃ p, s.waterwayRec w = some p ∧ p.row = q.row ∧ p.inProgress ≤ q.inProgress ∧ (q.settle = none → p.settle = none)
  count : s.plantCount ≤ t.plantCount

/-- Then a request that waited for the same step is ready in `t` only where it was in `s`. -/
theorem Poorer.owed {s t : State} (h : Poorer s t) {u : Slot} (hu : t.owed u)
    (waits : ∀ r st, t.req u = some r → r.state = .waiting → r.current = some st →
      ∃ x, s.req u = some x ∧ x.state = .waiting ∧ x.current = some st) : s.owed u := by
  obtain ⟨r, st, w, q, hr, hw, hc, hof, hrec, hmix, hdisp, horph, hrep, hconv, hflow, hcount⟩ := hu
  obtain ⟨x, hx, hxw, hxc⟩ := waits r st hr hw hc
  obtain ⟨p, hp, hrow, hprog, hsettle⟩ := h.recs w q hrec
  have hconf : t.params.converters = s.params.converters := congrArg Prod.fst h.bounds
  have hmax : t.params.maxConcurrent = s.params.maxConcurrent := congrArg Prod.snd h.bounds
  refine ⟨x, st, w, p, hx, hxw, hxc, (h.place u).symm.trans hof, hp, fun hk => by rw [hrow]; exact hmix hk, h.dispatchable u hdisp,
    h.orphan u horph, h.reported u _ hrep, fun hk => ?_, fun hf => ?_, ?_⟩
  · obtain ⟨c, hnumber, hfree⟩ := hconv hk
    exact ⟨c, hconf ▸ hnumber, h.holder c hfree⟩
  · obtain ⟨hroom, hset⟩ := hflow hf
    exact ⟨hrow ▸ Nat.lt_of_le_of_lt hprog hroom, hsettle hset⟩
  · rw [← hmax]
    exact Nat.lt_of_le_of_lt h.count hcount

theorem plantCount_congr {s t : State} (h : t.trs = s.trs) : t.plantCount = s.plantCount := by
  simp only [State.plantCount, State.req, State.orphan, h]

/-- A change of other blocks than the scheduler, where dispatchability and reports stay. -/
theorem Poorer.of_trs {s t : State} (trs : t.trs = s.trs) (bounds : t.pli.bounds = s.pli.bounds) (dispatchable : ∀ u, t.dispatchable u = s.dispatchable u)
    (reported : ∀ u, t.reported u = s.reported u) : Poorer s t where
  bounds := bounds
  dispatchable u h := (dispatchable u).symm.trans h
  reported u m h := (reported u).symm.trans h
  orphan u h := by rwa [State.orphan, ← trs]
  holder c h := by cases c <;> exact (by rw [← h, State.holder, State.holder, trs])
  place u := by rw [State.waterwayOf, State.waterwayOf, trs]
  recs w q h := ⟨q, by rwa [State.waterwayRec, ← trs], rfl, Nat.le_refl _, id⟩
  count := (plantCount_congr trs).ge

theorem owed_of_trs {s t : State} (trs : t.trs = s.trs) (bounds : t.pli.bounds = s.pli.bounds) (dispatchable : ∀ u, t.dispatchable u = s.dispatchable u)
    (reported : ∀ u, t.reported u = s.reported u) {u : Slot} (h : t.owed u) : s.owed u :=
  (Poorer.of_trs trs bounds dispatchable reported).owed h fun r _ hr hw hc => ⟨r, (State.req_congr trs u).symm.trans hr, hw, hc⟩

/-! ## The places that steps and orphan records take -/

/-- The concurrency places of a slot: one for a granted step, one for an orphan record that holds one (R67, R79). -/
def State.places (s : State) (u : Slot) : Nat := ((s.req u).any Request.granted).toNat + ((s.orphan u).any (·.place)).toNat

theorem length_filter_eq_sum (us : List Slot) (f : Slot → Bool) : (us.filter f).length = (us.map fun u => (f u).toNat).sum := by
  induction us with
  | nil => rfl
  | cons u us ih => cases h : f u <;> simp [h, ih, Nat.add_comm]

theorem plantCount_eq (s : State) : s.plantCount = (Slot.all.map s.places).sum := by
  unfold State.plantCount State.places
  rw [length_filter_eq_sum, length_filter_eq_sum, ← List.sum_map_add]

theorem plantCount_le {s t : State} (h : ∀ u, s.places u ≤ t.places u) : s.plantCount ≤ t.plantCount := by
  rw [plantCount_eq, plantCount_eq]
  exact List.sum_le_sum fun u _ => h u

theorem plantCount_lt {s t : State} (h : ∀ u, s.places u ≤ t.places u) {u : Slot} (hu : s.places u < t.places u) : s.plantCount < t.plantCount := by
  rw [plantCount_eq, plantCount_eq]
  exact List.sum_lt_sum _ _ (fun v _ => h v) ⟨u, Slot.mem_all u, hu⟩

/-! ## A grant evaluation -/

/-- A ready request passes the grant test: mixing does not hold its step back (R67, R68). -/
theorem testGrant_of_grantable {s : State} {u : Slot} {st : PathStep} {w : Waterway} {q : WaterwayRec} (hg : s.governs = true)
    (hof : s.waterwayOf u = some w) (hrec : s.waterwayRec w = some q) (hmix : st.kind = .gStart ∨ st.kind = .prime → q.row.mixing = 1)
    (h : s.grantable u st q) : s.testGrant u st = .granted := by
  obtain ⟨hdisp, horph, hrep, hconv, hflow, hcount⟩ := h
  have hable : s.able u st := ⟨by simpa [State.governs] using hg, hdisp, horph, hrep⟩
  have hfree : st.kind = .pStart → ∃ c, s.free c := hconv
  have hmixes : s.mixes u st.kind w q = false := by
    rw [Bool.eq_false_iff, ne_eq, mixes_iff]
    rintro ⟨hno, ⟨hk, -⟩ | ⟨hk, -⟩⟩
    · exact hno (hmix (.inl hk))
    · exact hno (hmix (.inr hk))
  have htest : (if st.flowChanging then flowTest (some q) else none) = none := by
    split
    · rename_i hf
      obtain ⟨hroom, hset⟩ := hflow hf
      simp [flowTest, hset, Nat.not_le.mpr hroom]
    · rfl
  rw [testGrant_eq hable hfree hof hrec, htest]
  simp [hmixes, Nat.not_le.mpr hcount]

theorem poorer_grantStep {s : State} {u : Slot} {r : Request} {st : PathStep} (hr : s.req u = some r) (hw : r.state = .waiting) :
    Poorer s (s.grantStep u r st) := by
  have hframe := (cascade_grantStep s u r st).play
  have hres := resources_grantStep s u st r
  have horphan (v : Slot) : (s.grantStep u r st).orphan v = s.orphan v := (hres.orphan v).trans (granting_orphan s u st v)
  refine ⟨congrArg Pli.bounds hframe.pli, fun v h => (hframe.dispatchable v).symm.trans h, fun v m h => (hframe.reported v).symm.trans h,
    fun v h => (horphan v).symm.trans h, fun c h => ?_, hframe.waterwayOf, fun w q h => ?_, plantCount_le fun v => ?_⟩
  · rw [hres.holder, granting_holder] at h
    split at h
    · cases h
    · exact h
  · rw [hres.waterwayRec, granting_waterwayRec] at h
    split at h
    · obtain ⟨p, hp, rfl⟩ := Option.map_eq_some_iff.mp h
      refine ⟨p, hp, (p.grants_row u st _).symm, ?_, fun hs => (p.grants_settle u st _).symm.trans hs⟩
      rw [p.grants_inProgress]
      split
      · exact Nat.le_succ _
      · exact Nat.le_refl _
    · exact ⟨q, h, rfl, Nat.le_refl _, id⟩
  · unfold State.places
    rw [horphan v]
    refine Nat.add_le_add_right ?_ _
    by_cases hv : v = u
    · subst hv
      simp [hr, Request.granted, hw]
    · rw [Proofs.grantStep_other r st hv]

theorem poorer_blocked {s : State} {u : Slot} {r : Request} (hr : s.req u = some r) (why : Option Blocked) :
    Poorer s (s.setReq u (some { r with blocked := why })) := by
  have hframe := (cascade_setReq s u (some { r with blocked := why })).play
  refine ⟨rfl, fun v h => (hframe.dispatchable v).symm.trans h, fun v m h => (hframe.reported v).symm.trans h, fun _ h => h, fun c h => ?_,
    fun _ => rfl, fun w q h => ⟨q, h, rfl, Nat.le_refl _, id⟩, plantCount_le fun v => ?_⟩
  · rwa [State.setReq_holder] at h
  · unfold State.places
    rw [State.setReq_req]
    split
    · rename_i hv
      rw [hv, hr]
      exact Nat.le_refl _
    · exact Nat.le_refl _

theorem owed_test {s : State} {u : Slot} {r : Request} {st : PathStep} (hg : s.governs = true) (h : s.owed u) (hr : s.req u = some r)
    (hc : r.current = some st) : s.testGrant u st = .granted := by
  obtain ⟨x, y, w, q, hx, -, hy, hof, hrec, hmix, hgrant⟩ := h
  cases hr.symm.trans hx
  cases hc.symm.trans hy
  exact testGrant_of_grantable hg hof hrec hmix hgrant

theorem not_owed {s : State} {u : Slot} (h : ∀ r st, s.req u = some r → r.state = .waiting → r.current ≠ some st) : ¬ s.owed u := by
  rintro ⟨r, st, -, -, hr, hw, hc, -⟩
  exact h r st hr hw hc

/-- A request tested is owed no grant, and one not tested is owed none that it was not owed before (R66). -/
theorem owed_of_tryGrant {s : State} {u v : Slot} (hg : s.governs = true) (h : (s.tryGrant u).owed v) : s.owed v ∧ v ≠ u := by
  unfold State.tryGrant at h
  split at h
  · rename_i hr
    refine ⟨h, ?_⟩
    rintro rfl
    exact not_owed (fun r _ hr' => by rw [hr] at hr'; cases hr') h
  · rename_i r hr
    split at h
    · rename_i hw
      refine ⟨h, ?_⟩
      rintro rfl
      exact not_owed (fun x _ hx hxw => by rw [hr] at hx; cases hx; exact absurd hxw hw) h
    · rename_i hw
      have hw : r.state = .waiting := not_not.mp hw
      split at h
      · rename_i hc
        refine ⟨h, ?_⟩
        rintro rfl
        exact not_owed (fun x st hx _ hxc => by rw [hr] at hx; cases hx; rw [hc] at hxc; cases hxc) h
      · rename_i st hc
        split at h
        · rename_i ht
          have hne : v ≠ u := by
            rintro rfl
            obtain ⟨q, hq, hgr, -⟩ := grantStep_holding hc ht
            refine not_owed (fun x _ hx hxw => ?_) h
            rw [hq] at hx
            cases hx
            simp [Request.granted, hxw] at hgr
          refine ⟨(poorer_grantStep hr hw).owed h fun x y hx hxw hxc => ⟨x, ?_, hxw, hxc⟩, hne⟩
          rwa [Proofs.grantStep_other r st hne] at hx
        · rename_i why ht
          have hs : s.owed v := (poorer_blocked hr why).owed h fun x y hx hxw hxc => by
            rw [State.setReq_req] at hx
            split at hx
            · rename_i hv
              cases hx
              exact ⟨r, by rw [hv, hr], hw, hxc⟩
            · exact ⟨x, hx, hxw, hxc⟩
          refine ⟨hs, ?_⟩
          rintro rfl
          rw [owed_test hg hs hr hc] at ht
          cases ht

theorem owed_of_tryGrants (us : List Slot) : ∀ {s : State} {v : Slot}, s.governs = true → (us.foldl State.tryGrant s).owed v →
    s.owed v ∧ v ∉ us := by
  induction us with
  | nil => exact fun _ h => ⟨h, List.not_mem_nil⟩
  | cons u us ih =>
    intro s v hg h
    have hg' : (s.tryGrant u).governs = true := (turn_tryGrant s u).frame.cascade.play.governs.trans hg
    obtain ⟨h1, hnot⟩ := ih hg' h
    obtain ⟨h2, hne⟩ := owed_of_tryGrant hg h1
    exact ⟨h2, by simp [hne, hnot]⟩

/-- After a grant evaluation no request is owed a grant. -/
theorem evalGrants_owed {s : State} (hg : s.governs = true) (u : Slot) : ¬ s.evalGrants.owed u := by
  intro h
  obtain ⟨⟨r, _, _, _, hr, hw, -⟩, hnot⟩ := owed_of_tryGrants s.queue hg h
  exact hnot (Proofs.mem_queue.mpr ⟨r, hr, hw⟩)

/-! ## Where no event of R66 shows -/

/-- What a command and the planner do before the grants: the waterway table in force stays, no slot takes more concurrency places, and where
none gives one up no settle timer ends and no orphan record goes. -/
structure Tight (s t : State) : Prop where
  governs : t.governs = s.governs
  bounds : t.pli.bounds = s.pli.bounds
  ways : SameWaterways s t
  places : ∀ u, t.places u ≤ s.places u
  orphans : OrphansWf s → OrphansWf t
  shut : OrphansWf s → (∃ u, t.places u < s.places u) ∨
    (∀ w p q, s.waterwayRec w = some p → t.waterwayRec w = some q → q.settle = none → p.settle = none) ∧ ∀ u, t.orphan u = none → s.orphan u = none

theorem Tight.refl (s : State) : Tight s s :=
  ⟨rfl, rfl, .of_eq rfl, fun _ => Nat.le_refl _, id, fun _ => .inr ⟨fun w p q hp hq => by rw [hp] at hq; cases hq; exact id, fun _ => id⟩⟩

theorem Tight.trans {s t r : State} (h : Tight s t) (k : Tight t r) : Tight s r where
  governs := k.governs.trans h.governs
  bounds := k.bounds.trans h.bounds
  ways := h.ways.trans k.ways
  places u := (k.places u).trans (h.places u)
  orphans hs := k.orphans (h.orphans hs)
  shut hs := by
    rcases h.shut hs with ⟨u, hu⟩ | ⟨hset, horph⟩
    · exact .inl ⟨u, (k.places u).trans_lt hu⟩
    · rcases k.shut (h.orphans hs) with ⟨u, hu⟩ | ⟨kset, korph⟩
      · exact .inl ⟨u, hu.trans_le (h.places u)⟩
      · refine .inr ⟨fun w p q hp hq hn => ?_, fun u hu => horph u (korph u hu)⟩
        obtain ⟨m, hm⟩ : ∃ m, t.waterwayRec w = some m := by
          have hrow := h.ways.1 w
          rw [hp] at hrow
          obtain ⟨m, hm, -⟩ := Option.map_eq_some_iff.mp hrow
          exact ⟨m, hm⟩
        exact hset w p m hp hm (kset w m q hm hq hn)

theorem Tight.foldl {α : Type} {f : State → α → State} (h : ∀ s a, Tight s (f s a)) (xs : List α) (s : State) : Tight s (xs.foldl f s) := by
  induction xs generalizing s with
  | nil => exact .refl s
  | cons x xs ih => exact (h s x).trans (ih _)

section
variable {s t : State}

/-- No event of R66 that a comparison of states shows. -/
theorem grantsDue_false (h : grantsDue s t = false) :
    (∀ u, queueChanged s t u = false ∧ (t.dispatchable u = true → s.dispatchable u = true)
      ∧ (∀ m, t.reported u = some m → s.reported u = some m))
    ∧ (∀ c, t.holder c = none → s.holder c = none) ∧ (∀ w p q, s.waterwayRec w = some p → t.waterwayRec w = some q → p.inProgress ≤ q.inProgress)
    ∧ s.plantCount ≤ t.plantCount ∧ (t.pli.part = .dispatching → s.pli.part = .dispatching) := by
  simp only [grantsDue, resourceReleased, Bool.or_eq_false_iff, List.any_eq_false, Bool.not_eq_true] at h
  obtain ⟨⟨hslots, ⟨⟨⟨hc1, hc2⟩, hways⟩, hcount⟩⟩, hpart⟩ := h
  refine ⟨fun u => ?_, fun c hc => ?_, fun w p q hp hq => ?_, by simpa using hcount, fun hd => ?_⟩
  · obtain ⟨⟨hq, hd⟩, hr⟩ := hslots u (Slot.mem_all u)
    refine ⟨hq, fun hdt => ?_, fun m hm => ?_⟩
    · simpa [hdt] using hd
    · simpa [hm] using hr
  · cases c
    · simpa [hc] using hc1
    · simpa [hc] using hc2
  · have hw := hways w (Waterway.mem_all w)
    simpa [hp, hq] using hw
  · simpa [hd] using hpart

/-- A request that waits after the event did so before it, for the same step, where none has joined the queue (R66). -/
theorem waits_of_queue {u : Slot} (h : queueChanged s t u = false) {r : Request} {st : PathStep} (hr : t.req u = some r)
    (hw : r.state = .waiting) (hc : r.current = some st) : ∃ x, s.req u = some x ∧ x.state = .waiting ∧ x.current = some st := by
  unfold queueChanged at h
  cases hx : s.req u with
  | none => simp [hr, hw, hx] at h
  | some x =>
    simp only [hr, hw, hx, Option.any_some, beq_self_eq_true, Bool.true_and, Bool.not_eq_false', Bool.and_eq_true, beq_iff_eq] at h
    obtain ⟨⟨⟨⟨⟨hxw, -⟩, -⟩, -⟩, hpath⟩, hindex⟩ := h
    refine ⟨x, rfl, hxw, ?_⟩
    rwa [Request.current, hpath, hindex]

/-- Where no event of R66 shows, no request is owed a grant that was not owed one before. -/
theorem Tight.poorer (h : Tight s t) (hs : OrphansWf s) (hd : grantsDue s t = false) : Poorer s t := by
  obtain ⟨hslots, hholder, hways, hcount, -⟩ := grantsDue_false hd
  obtain hlost | ⟨hset, horph⟩ := h.shut hs
  · obtain ⟨u, hu⟩ := hlost
    exact absurd hcount (Nat.not_le.mpr (plantCount_lt h.places hu))
  · refine ⟨h.bounds, fun u => (hslots u).2.1, fun u m => (hslots u).2.2 _, horph, hholder, h.ways.2, fun w q hq => ?_, hcount⟩
    have hrow := h.ways.1 w
    rw [hq] at hrow
    obtain ⟨p, hp, hr⟩ := Option.map_eq_some_iff.mp hrow.symm
    exact ⟨p, hp, hr, hways w p q hp hq, hset w p q hp hq⟩

theorem Tight.owed (h : Tight s t) (hs : OrphansWf s) (hd : grantsDue s t = false) {u : Slot} (hu : t.owed u) : s.owed u :=
  (h.poorer hs hd).owed hu fun _ _ hr hw hc => waits_of_queue ((grantsDue_false hd).1 u).1 hr hw hc

/-- An allocation gives and takes no step's resources (R91). -/
theorem grantsWf_allocStage {before : State} {c : Causes} (h : GrantsWf s) : GrantsWf (s.allocStage before c) := by
  unfold State.allocStage
  split
  · have hframe := (cascade_allocate s).play
    refine grantsWf_iff.mpr fun hg u hu => grantsWf_iff.mp h (hframe.governs.symm.trans hg) u ?_
    exact owed_of_trs (allocate_trs_eq s) (congrArg Pli.bounds hframe.pli) hframe.dispatchable hframe.reported hu
  · exact h

/-- After a grant evaluation, or where no event of R66 has made one due, no request is owed a grant. -/
theorem grantsWf_grantStage {before : State} {c : Causes}
    (h : c.grants = false → grantsDue before s = false → s.governs = true → ∀ u, ¬ s.owed u) : GrantsWf (s.grantStage before c) := by
  refine grantsWf_iff.mpr fun hg => ?_
  have hs : s.governs = true := (turn_grantStage s before c).frame.cascade.play.governs.symm.trans hg
  unfold State.grantStage
  split
  · exact evalGrants_owed hs
  · rename_i hd
    rw [Bool.or_eq_true, not_or, Bool.not_eq_true, Bool.not_eq_true] at hd
    exact h hd.2 hd.1 hs

end

end Sys2Proof.Machine
end

section
/-! What the operations before the grants leave of the resources (R78 to R80): `Tight`. -/

namespace Sys2Proof.Machine

/-! ## Writes -/

section
variable {s t : State}

theorem places_congr (h : t.trs = s.trs) (u : Slot) : t.places u = s.places u := by
  rw [State.places, State.places, State.req_congr h, State.orphan_congr h]

/-- A change of other blocks than the scheduler. -/
theorem Tight.of_trs (trs : t.trs = s.trs) (bounds : t.pli.bounds = s.pli.bounds) (governs : t.governs = s.governs) : Tight s t where
  governs := governs
  bounds := bounds
  ways := .of_eq (congrArg Trs.waterways trs)
  places u := (places_congr trs u).le
  orphans h u o ho := h u o (by rwa [State.orphan_congr trs] at ho)
  shut _ := .inr ⟨fun w p q hp hq => by
    rw [State.waterwayRec, trs, ← State.waterwayRec, hp] at hq
    cases hq
    exact id, fun u hu => by rwa [State.orphan_congr trs] at hu⟩

theorem Tight.of_pli (trs : t.trs = s.trs) (pli : t.pli = s.pli) : Tight s t :=
  .of_trs trs (congrArg Pli.bounds pli) (State.governs_congr pli)

/-- A run of the scheduler's writes that leaves the settle timers and the orphan records, where no step becomes granted. -/
theorem Turn.tight (h : Turn s t) (settles : ∀ w p q, s.waterwayRec w = some p → t.waterwayRec w = some q → q.settle = none → p.settle = none)
    (orphan : ∀ u, t.orphan u = s.orphan u)
    (granted : ∀ u, (t.req u).any Request.granted = true → (s.req u).any Request.granted = true) : Tight s t where
  governs := h.frame.cascade.play.governs
  bounds := congrArg Pli.bounds h.frame.cascade.pli
  ways := h.frame.cascade.waterways
  places u := by
    unfold State.places
    rw [orphan u]
    exact Nat.add_le_add_right (Bool.toNat_le_toNat (granted u)) _
  orphans := h.keeps.orphans
  shut _ := .inr ⟨settles, fun u hu => (orphan u).symm.trans hu⟩

/-- A run that gives up a concurrency place. -/
theorem Turn.tight_lost (h : Turn s t) (places : ∀ u, t.places u ≤ s.places u) {u : Slot} (lost : t.places u < s.places u) : Tight s t where
  governs := h.frame.cascade.play.governs
  bounds := congrArg Pli.bounds h.frame.cascade.pli
  ways := h.frame.cascade.waterways
  places := places
  orphans := h.keeps.orphans
  shut _ := .inl ⟨u, lost⟩

theorem tight_ite {c : Prop} [Decidable c] (h : Tight s t) : Tight s (if c then t else s) := by
  split
  · exact h
  · exact .refl s

theorem granted_of_ordered {r : Request} (h : r.ordered = true) : r.granted = true := by
  unfold Request.granted
  cases hw : r.state <;> simp [Request.ordered, hw] at h ⊢

theorem granted_of_holding {q r : Request} (h : q.holding = r.holding) : q.granted = r.granted := by
  have hstate : q.state = r.state := congrArg Prod.fst h
  rw [Request.granted, Request.granted, hstate]

theorem Quiet.tight (h : Quiet s t) : Tight s t where
  governs := h.frame.play.governs
  bounds := congrArg Pli.bounds h.frame.pli
  ways := h.frame.waterways
  places u := by
    unfold State.places
    rw [h.resources.orphan u]
    refine Nat.add_le_add_right (Bool.toNat_le_toNat fun hg => ?_) _
    obtain ⟨q, hq, hgr⟩ := (Option.any_eq_true _ _).mp hg
    rcases h.requests u q hq with hw | ⟨r, hr, hh⟩
    · have hstate : q.state = .waiting := congrArg Prod.fst hw
      simp [Request.granted, hstate] at hgr
    · rw [hr, Option.any_some, ← granted_of_holding hh]
      exact hgr
  orphans hs u o ho := hs u o (by rwa [h.resources.orphan u] at ho)
  shut _ := .inr ⟨fun w p q hp hq => by
    rw [h.resources.waterwayRec, hp] at hq
    cases hq
    exact id, fun u hu => by rwa [h.resources.orphan u] at hu⟩

end

theorem tight_setReq (s : State) (u : Slot) (q : Option Request) (h : q.any Request.granted = true → (s.req u).any Request.granted = true) :
    Tight s (s.setReq u q) := by
  refine Turn.tight (TrsMicro.req s u q fun x hx hg => .inl (h (by rw [hx]; exact hg))).turn (fun w p q hp hq => ?_) (fun _ => rfl) fun v hv => ?_
  · cases hp.symm.trans hq
    exact id
  · rw [State.setReq_req] at hv
    split at hv
    · rename_i hvu
      rw [hvu]
      exact h hv
    · exact hv

/-! ## What a request holds -/

section
variable (s : State) (u : Slot)

theorem releaseHeld_orphan (settle : Bool) (v : Slot) : (s.releaseHeld u settle).orphan v = s.orphan v :=
  (spares_releaseHeld s u settle).orphan v

theorem releaseHeld_granted (settle : Bool) (v : Slot) :
    ((s.releaseHeld u settle).req v).any Request.granted = (s.req v).any Request.granted := by
  by_cases hv : v = u
  · rw [hv, releaseHeld_req]
    cases s.req u <;> rfl
  · rw [releaseHeld_other settle hv]

/-- A release without settling (R64, R75). -/
theorem tight_releaseHeld : Tight s (s.releaseHeld u false) := by
  refine (turn_releaseHeld s u false).tight (fun w p q hp hq hn => ?_) (releaseHeld_orphan s u false) fun v hv => by
    rwa [releaseHeld_granted] at hv
  cases hr : s.req u with
  | none =>
    have hsame : s.releaseHeld u false = s := by rw [State.releaseHeld, hr]
    rw [hsame, hp] at hq
    cases hq
    exact hn
  | some r =>
    rw [releaseHeld_waterwayRec hr, hp] at hq
    cases hq
    rw [WaterwayRec.unwarn_settle] at hn
    split at hn <;> exact hn

/-- A granted request gives its concurrency place up, with whatever else it held (R78). -/
theorem Turn.tight_freed {s t : State} {u : Slot} (h : Turn s t) (orphan : ∀ v, t.orphan v = s.orphan v) (other : ∀ v, v ≠ u → t.req v = s.req v)
    (was : (s.req u).any Request.granted = true) (now : (t.req u).any Request.granted = false) : Tight s t := by
  have hu : t.places u < s.places u := by
    unfold State.places
    rw [orphan u, was, now]
    exact Nat.add_lt_add_right Nat.zero_lt_one _
  refine h.tight_lost (fun v => ?_) hu
  by_cases hv : v = u
  · rw [hv]
    exact hu.le
  · unfold State.places
    rw [orphan v, other v hv]

theorem tight_withdraw : Tight s (s.withdraw u) := by
  refine (tight_releaseHeld s u).trans ?_
  unfold State.withdraw
  dsimp only
  split
  · exact .refl _
  · exact tight_setReq _ u _ nofun

theorem tight_endRequest : Tight s (s.endRequest u) := (quiet_endRequest s u).tight

theorem tight_waitOn (r : Request) (c : ReqClass) (d : Stable) (path : List PathStep) : Tight s (s.waitOn u r c d path) := by
  unfold State.waitOn
  split
  · exact tight_endRequest s u
  · exact tight_setReq s u _ nofun

theorem tight_failRequest_kept : Tight s (s.failRequest u false) := (tight_releaseHeld s u).trans (tight_endRequest _ u)

end

section
variable {s : State} {u : Slot} {r : Request} (hr : s.req u = some r)
include hr

theorem tight_failRequest (hg : r.granted = true) (settle : Bool) : Tight s (s.failRequest u settle) := by
  refine (turn_failRequest s u settle).tight_freed (u := u) (fun v => ?_) (fun v hv => ?_) (by rw [hr]; exact hg) ?_
  · exact (spares_failRequest s u settle).orphan v
  · exact (endRequest_other hv).trans (releaseHeld_other settle hv)
  · exact (congrArg (Option.any Request.granted) (endRequest_req _ u) :)

theorem tight_rewarn (c : ReqClass) (d : Stable) : Tight s (s.rewarn u r c d) := by
  unfold State.rewarn
  dsimp only
  split
  · exact tight_setReq s u _ fun hg => by rw [hr]; exact hg
  · rw [withdraw_request hr]
    exact (tight_withdraw s u).trans (tight_waitOn _ u _ c d _)

end

theorem tight_takeDemand (s : State) (u : Slot) : Tight s (s.takeDemand u) := by
  unfold State.takeDemand
  split
  · exact (quiet_compareDemand s u).tight
  · rename_i r hr
    have hsame {q : Request} (h : q.state = r.state) : Tight s (s.setReq u (some q)) := by
      refine tight_setReq s u _ fun hg => ?_
      rw [hr]
      simpa [Request.granted, h] using hg
    split
    · exact tight_endRequest s u
    · split
      · exact hsame rfl
      · exact tight_waitOn s u _ _ _ _
    · exact (tight_withdraw s u).trans (tight_endRequest _ u)
    · split
      · exact hsame rfl
      · exact tight_rewarn hr _ _
    · exact hsame rfl
    · exact hsame rfl

/-! ## The planner -/

theorem tight_setPln (s : State) (b : Pln) : Tight s (s.setPln b) := .of_pli rfl rfl
theorem tight_post (s : State) (k : EventKind) (u : Option Slot) (v : Option Int) : Tight s (s.post k u v) := .of_pli rfl rfl

theorem tight_assign (s : State) : Tight s s.assign := by
  have hhand (x : State) (u : Slot) : Tight x (State.handDesired s.pln.desired x u) := by
    unfold State.handDesired
    split
    · exact .refl x
    · exact tight_takeDemand x u
  unfold State.assign
  split
  · exact .refl s
  · exact ((tight_setPln s _).trans (quiet_notePlanShort _ _).tight).trans (.foldl hhand _ _)

theorem tight_replan (before s : State) : Tight s (State.replan before s) := by
  have hdrop (x : State) (u : Slot) : Tight x (State.dropDesired before x u) := by
    unfold State.dropDesired
    split
    · exact (tight_setPln x _).trans (tight_takeDemand _ u)
    · exact .refl x
  unfold State.replan
  split
  · exact .refl s
  · split
    · exact tight_assign s
    · exact .foldl hdrop _ _

theorem tight_dropGrant (before s : State) (u : Slot) : Tight s (State.dropGrant before s u) := by
  unfold State.dropGrant
  split
  · exact tight_withdraw s u
  · exact .refl s

theorem tight_planStage (s before : State) (c : Causes) : Tight s (s.planStage before c) := by
  have htail (x : State) : Tight x (if autoChanged before x || c.replan then State.replan before x else x) := by
    split
    · exact tight_replan before x
    · exact .refl x
  exact ((Tight.foldl (tight_dropGrant before) Slot.all s).trans (htail _)).trans (.foldl tight_takeDemand c.hand _)

theorem tight_adopt (s : State) (k : Nat) : Tight s (s.adopt k) :=
  ((tight_setPln s _).trans (tight_post _ _ _ _)).trans (tight_assign _)

theorem tight_planGap (s : State) : Tight s s.planGap := by
  unfold State.planGap
  dsimp only
  split
  · exact tight_setPln s _
  · exact (tight_setPln s _).trans (tight_post _ _ _ _)

theorem tight_proposeRow (expired : Bool) (s : State) (k : Nat) : Tight s (State.proposeRow expired s k) := by
  have hgap : Tight s s.clearGap := tight_setPln s _
  unfold State.proposeRow
  dsimp only
  split
  · split
    · exact hgap.trans (tight_adopt _ k)
    · exact hgap
  · split
    · exact hgap.trans (tight_adopt _ k)
    · exact hgap.trans (tight_setPln _ _)

theorem tight_selectRow (expired : Bool) (s : State) : Tight s (State.selectRow expired s) := by
  unfold State.selectRow
  dsimp only
  split
  · exact (tight_setPln s _).trans (tight_setPln _ _)
  · split
    · exact tight_planGap s
    · split
      · exact tight_adopt s _
      · exact tight_proposeRow expired s _

theorem Played.tight {s t : State} (h : Played s t) : Tight s t := by
  induction h with
  | refl => exact .refl s
  | step _ k ih =>
    refine ih.trans ?_
    cases k with
    | tgt b => exact .of_pli rfl rfl
    | prf b => exact .of_pli rfl rfl
    | post k u v => exact tight_post _ k u v
    | select _ => exact tight_selectRow false _

/-! ## Reports, converters and orphan records -/

section
variable {s : State} {u : Slot} {r : Request}

theorem tight_completeStep (hr : s.req u = some r) (hg : r.granted = true) (k : StepKind) : Tight s (s.completeStep u r k) := by
  refine (turn_completeStep s u r k).tight_freed (u := u) (spares_completeStep s u r k).orphan (fun v hv => ?_) (by rw [hr]; exact hg) ?_
  · rw [completeStep_eq]
    split
    · exact (endRequest_other hv).trans (stepDone_req s u v k hv)
    · rw [State.setReq_req, if_neg hv, stepDone_req s u v k hv]
  · rw [completeStep_eq]
    split
    · rw [endRequest_req]
      rfl
    · rw [State.setReq_req, if_pos rfl]
      rfl

theorem tight_judgeStep (hr : s.req u = some r) (hg : r.granted = true) (st : PathStep) (m : Reported) : Tight s (s.judgeStep u r st m) := by
  unfold State.judgeStep
  split
  · exact tight_completeStep hr hg _
  split
  · exact tight_failRequest hr hg true
  split
  · exact tight_setReq s u _ fun _ => by rw [hr]; exact hg
  split
  · exact .refl s
  · exact (tight_failRequest hr hg true).trans (tight_post _ _ _ _)

theorem tight_supervise (s : State) (u : Slot) (m : Reported) (changed : Bool) : Tight s (s.supervise u m changed) := by
  unfold State.supervise
  split
  · exact .refl s
  · rename_i r hr
    split
    · split
      · exact tight_endRequest s u
      · split
        · exact tight_waitOn ..
        · exact .refl s
    · split
      · exact (tight_withdraw s u).trans (tight_endRequest _ u)
      · split
        · exact tight_rewarn hr _ _
        · exact .refl s
    · rename_i hw _
      split
      · exact .refl s
      · exact tight_judgeStep hr (by simpa [Request.granted] using hw) _ m

theorem tight_setHolder (s : State) (c : Conv) (h : Option Holder) : Tight s (s.setHolder c h) := by
  refine (TrsMicro.holder s c h).turn.tight (fun w p q hp hq hn => ?_) (fun v => by simp) fun v hv => ?_
  · have hsame : (s.setHolder c h).waterwayRec w = s.waterwayRec w := by cases c <;> rfl
    rw [hsame, hp] at hq
    cases hq
    exact hn
  · rwa [req_of_requests (setHolder_requests s c h)] at hv

/-- A concurrency place goes with the orphan record that held it (R79, R80). -/
theorem tight_releaseOrphan (s : State) (u : Slot) : Tight s (s.releaseOrphan u) := by
  have hturn := turn_releaseOrphan s u
  have horph (v : Slot) : (s.releaseOrphan u).orphan v = if v = u then none else s.orphan v := releaseOrphan_orphan s u v
  have hreq (v : Slot) : (s.releaseOrphan u).req v = s.req v := (looks_releaseOrphan s u).req v
  have hle (v : Slot) : (s.releaseOrphan u).places v ≤ s.places v := by
    unfold State.places
    rw [horph, hreq]
    split
    · exact Nat.add_le_add_left (Nat.zero_le _) _
    · exact Nat.le_refl _
  refine ⟨hturn.frame.cascade.play.governs, congrArg Pli.bounds hturn.frame.cascade.pli, hturn.frame.cascade.waterways, hle, hturn.keeps.orphans, fun hs => ?_⟩
  cases ho : s.orphan u with
  | none =>
    rw [releaseOrphan_none s u ho]
    exact (Tight.refl s).shut hs
  | some o =>
    refine .inl ⟨u, ?_⟩
    unfold State.places
    rw [horph, hreq, if_pos rfl, ho, Option.any_some, hs u o ho]
    exact Nat.lt_succ_self _

theorem tight_releaseObserved (s : State) (u : Slot) : Tight s (s.releaseObserved u) :=
  (tight_ite (tight_setHolder s .c1 none)).trans (tight_ite (tight_setHolder _ .c2 none))

theorem tight_claimObserved (s : State) (u : Slot) (c : Conv) : Tight s (s.claimObserved u c) := by
  unfold State.claimObserved
  split
  · exact .refl s
  · split
    · exact tight_setHolder ..
    · exact tight_post ..

theorem tight_watchConverters (s : State) (u : Slot) (m : Reported) (c : Option Conv) : Tight s (s.watchConverters u m c) := by
  have tail (x : State) (h : Tight s x) : Tight s (if m = .step .pStart then match c, x.req u with
      | some c, none => x.claimObserved u c
      | _, _ => x else x.releaseObserved u) := by
    refine h.trans ?_
    split
    · split
      · exact tight_claimObserved ..
      · exact .refl x
    · exact tight_releaseObserved ..
  cases m with
  | stable => exact tail _ (tight_releaseOrphan s u)
  | trip => exact tail _ (tight_releaseOrphan s u)
  | step => exact tail s (.refl s)

/-- A request under order leaves an orphan record that holds a concurrency place in its stead, and no settle timer is touched (R79). -/
theorem orphanRequest_reads (hr : s.req u = some r) (ho : r.ordered = true) :
    (s.orphanRequest u).req u = none ∧ (∀ v, v ≠ u → (s.orphanRequest u).req v = s.req v)
      ∧ (∀ v, (s.orphanRequest u).orphan v = if v = u then some { conv := r.conv, slotHeld := r.slotHeld, place := true } else s.orphan v)
      ∧ ∀ w, (s.orphanRequest u).waterwayRec w = (s.waterwayRec w).map (·.unwarn u) := by
  have hstate : r.state ≠ .waiting ∧ r.state ≠ .warning := by
    constructor <;>
    · intro h
      simp [Request.ordered, h] at ho
  obtain ⟨x, hx, hreq, horph, hrec⟩ : ∃ x : State, s.orphanRequest u
      = ((x.setOrphan u (some { conv := r.conv, slotHeld := r.slotHeld, place := true })).unwarn u).endRequest u
      ∧ (∀ v, x.req v = s.req v) ∧ (∀ v, x.orphan v = s.orphan v) ∧ ∀ w, x.waterwayRec w = s.waterwayRec w := by
    have heq : s.orphanRequest u = (((match r.conv with
        | some c => s.setHolder c (some { slot := u, kind := .orphaned })
        | none => s).setOrphan u (some { conv := r.conv, slotHeld := r.slotHeld, place := true })).unwarn u).endRequest u := by
      unfold State.orphanRequest
      rw [hr]
      dsimp only
      split
      · exact absurd ‹_› hstate.1
      · exact absurd ‹_› hstate.2
      · rfl
    refine ⟨_, heq, ?_⟩
    rcases r.conv with _ | _ | _ <;> exact ⟨fun _ => rfl, fun _ => rfl, fun _ => rfl⟩
  have hend := resources_endRequest ((x.setOrphan u (some { conv := r.conv, slotHeld := r.slotHeld, place := true })).unwarn u) u
  rw [hx]
  refine ⟨endRequest_req _ u, fun v hv => ?_, fun v => ?_, fun w => ?_⟩
  · rw [endRequest_other hv, req_of_requests (unwarn_requests _ u)]
    exact hreq v
  · rw [hend.orphan, State.unwarn_orphan, State.setOrphan_orphan, horph]
  · rw [hend.waterwayRec, State.unwarn_waterwayRec]
    exact congrArg _ (hrec w)

/-- An orphan record takes over the concurrency place of the request under order that it comes from (R79). -/
theorem tight_orphanRequest (s : State) (u : Slot) : Tight s (s.orphanRequest u) := by
  cases hr : s.req u with
  | none =>
    rw [State.orphanRequest, hr]
    exact .refl s
  | some r =>
    by_cases ho : r.ordered = true
    · obtain ⟨hnone, hother, horph, hrec⟩ := orphanRequest_reads hr ho
      have hturn := turn_orphanRequest s u
      have hgranted : r.granted = true := granted_of_ordered ho
      refine ⟨hturn.frame.cascade.play.governs, congrArg Pli.bounds hturn.frame.cascade.pli, hturn.frame.cascade.waterways, fun v => ?_, hturn.keeps.orphans,
        fun _ => .inr ⟨fun w p q hp hq hn => ?_, fun v hv => ?_⟩⟩
      · unfold State.places
        rw [horph]
        by_cases hv : v = u
        · subst hv
          have hany : (some r).any Request.granted = true := hgranted
          rw [if_pos rfl, hnone, hr, hany]
          exact Nat.le_add_right 1 _
        · rw [if_neg hv, hother v hv]
      · rw [hrec, hp] at hq
        cases hq
        rwa [WaterwayRec.unwarn_settle] at hn
      · rw [horph] at hv
        split at hv
        · cases hv
        · exact hv
    · unfold State.orphanRequest
      rw [hr]
      dsimp only
      split
      · exact .refl s
      · exact tight_withdraw s u
      · rename_i hwait hwarn
        refine absurd ?_ ho
        cases hw : r.state <;> simp [Request.ordered, hw] at hwait hwarn ⊢

end

end Sys2Proof.Machine
end

section
/-! What each command does before its cascade frees nothing without an event of R66 (`Tight`). -/

namespace Sys2Proof.Machine

/-! ## The end of a command -/

section
variable {s x : State} {c : Causes}

/-- R66: a grant evaluation has run, or no event has made one due. -/
theorem grantsWf_finish (h : c.grants = false → grantsDue s (x.planStage s c) = false → x.governs = true → ∀ u, ¬ (x.planStage s c).owed u) :
    GrantsWf (x.finish s c) :=
  grantsWf_allocStage (grantsWf_grantStage fun hc hd hg => h hc hd ((tight_planStage x s c).governs.symm.trans hg))

theorem Tight.finish (h : Tight s x) (hs : OrphansWf s) (hg : GrantsWf s) : GrantsWf (x.finish s c) :=
  grantsWf_finish fun _ hd hx u hu =>
    grantsWf_iff.mp hg (h.governs.symm.trans hx) u ((h.trans (tight_planStage x s c)).owed hs hd hu)

theorem grantsWf_finish_evaluated (hc : c.grants = true) : GrantsWf (x.finish s c) :=
  grantsWf_finish fun hn => by rw [hc] at hn; cases hn

theorem grantsWf_finish_standby (hx : x.governs = false) : GrantsWf (x.finish s c) :=
  grantsWf_finish fun _ _ hg => by rw [hx] at hg; cases hg

/-- DISPATCHING begins (R66). -/
theorem grantsWf_finish_entered (hs : s.governs = false) (hx : x.pli.part = .dispatching) : GrantsWf (x.finish s c) :=
  grantsWf_finish fun _ hd _ => by
    have hpart := (grantsDue_false hd).2.2.2.2 (by rw [(cascade_planStage x s c).pli, hx])
    simp [State.governs, hpart] at hs

end

/-! ## Blocks that the scheduler does not hold -/

section
variable {s t : State}

theorem RosFrame.tight (h : RosFrame s t) : Tight s t := .of_pli h.trs h.pli

theorem Framed.tight (h : Framed s t) : Tight s t := by
  have hbounds : t.pli.bounds = s.pli.bounds := (congrArg Pli.bounds h.pli :)
  have hpart : t.pli.part = s.pli.part := (congrArg Pli.part h.pli :)
  exact .of_trs h.trs hbounds (by rw [State.governs, State.governs, hpart])

/-- A change of the part state, the link timer, the load or the clock, which does not enter or leave STANDBY. -/
theorem tight_setPli (s : State) (b : Pli) (params : b.params = s.params) (part : b.part = .standby ↔ s.pli.part = .standby) :
    Tight s (s.setPli b) := by
  refine .of_trs rfl ?_ ?_
  · show (b.params.converters, b.params.maxConcurrent) = (s.params.converters, s.params.maxConcurrent)
    rw [params]
  · show (b.part != .standby) = (s.pli.part != .standby)
    rw [Bool.eq_iff_iff, bne_iff_ne, bne_iff_ne, not_iff_not]
    exact part

end

theorem tight_acceptDispatch (s : State) : Tight s s.acceptDispatch := by
  obtain ⟨b, hb, hp, h⟩ := acceptDispatch_run s
  exact (tight_setPli s b (congrArg Pli.params hb :) hp).trans h.tight

theorem tight_linkDown (s : State) : Tight s s.linkDown := by
  obtain ⟨b, hb, hp, h⟩ := linkDown_run s
  exact (tight_setPli s b (congrArg Pli.params hb :) hp).trans h.tight

theorem tight_setPort (s : State) (p : Port) (r : PortRec) : Tight s (s.setPort p r) := .of_pli rfl rfl
theorem tight_setUnit (s : State) (u : Slot) (r : UnitRec) : Tight s (s.setUnit u r) := .of_pli rfl rfl
theorem tight_setHead (s : State) (b : Head) : Tight s (s.setHead b) := .of_pli rfl rfl

theorem tight_ceaseOrder (s : State) (u : Slot) (q : Purpose) : Tight s (s.ceaseOrder u q) := (quiet_ceaseOrder s u q).tight

theorem tight_sendOrder (s : State) (p : Port) (k : StepKind) (c : Option Conv) (q : Purpose) : Tight s (s.sendOrder p k c q) :=
  .of_pli (sendOrder_trs s p k c q) (cascade_sendOrder s p k c q).pli

theorem tight_probeNow (s : State) (p : Port) : Tight s (s.probeNow p) := by
  rw [Proofs.probeNow_exactly]
  exact .of_pli rfl rfl

/-! ## Head and holds -/

theorem tight_formEstimate (s : State) : Tight s s.formEstimate := by
  unfold State.formEstimate
  split
  · exact .refl s
  · exact tight_setHead s _

theorem tight_resettle (before : Option Nat) (s : State) : Tight s (State.resettle before s) := (resettle_effect before s).1.tight

theorem tight_applyLevels (s : State) (up low : Nat) : Tight s (s.applyLevels up low) :=
  (((tight_setHead s _).trans (tight_formEstimate _)).trans (tight_setHead _ _)).trans (tight_resettle _ _)

theorem tight_setHold (s : State) (u : Slot) (h : Option Hold) : Tight s (s.setHold u h) := tight_setUnit s u _

theorem tight_releaseHold (s : State) (u : Slot) : Tight s (s.releaseHold u) := by
  refine ((tight_setHold s u none).trans (tight_ceaseOrder _ u _)).trans (tight_setReq _ u _ fun h => ?_)
  obtain ⟨q, hq, hg⟩ := (Option.any_eq_true _ _).mp h
  obtain ⟨r, hr, rfl⟩ := Option.map_eq_some_iff.mp hq
  rw [hr]
  exact hg

theorem tight_cancelRequest (s : State) (u : Slot) : Tight s (s.cancelRequest u) := by
  unfold State.cancelRequest
  split
  · exact .refl s
  · rename_i r hr
    cases ho : r.ordered with
    | false => exact tight_failRequest_kept s u
    | true => exact tight_failRequest hr (granted_of_ordered ho) true

theorem tight_sendEmergencyStop (s : State) (u : Slot) (h : Hold) : Tight s (s.sendEmergencyStop u h) := by
  unfold State.sendEmergencyStop
  split
  · exact .refl s
  · exact (tight_sendOrder s _ _ _ _).trans (tight_setHold _ u _)

theorem tight_emergencyStop (s : State) (u : Slot) : Tight s (s.emergencyStop u) := by
  rw [emergencyStop_eq]
  exact ((tight_setHold s u _).trans (tight_cancelRequest _ u)).trans (tight_ite (tight_sendEmergencyStop _ u _))

/-! ## Parameters and tables -/

theorem tight_applyParam (before s : State) (q : Param) : Tight s (State.applyParam before s q) := by
  unfold State.applyParam
  split
  · split
    · exact .of_pli rfl rfl
    · exact .refl s
  · exact .of_pli rfl rfl
  · exact (played_meetDue s).tight
  · exact (played_meetDue s).tight
  · exact (tight_formEstimate s).trans (tight_resettle _ _)
  · exact tight_resettle _ s
  · exact (played_clearDivider s).tight
  · exact (played_clearDivider s).tight
  · exact (played_clearDivider s).tight.trans (.of_pli rfl rfl)
  · exact .refl s

/-- A parameter that does not bound the grants (R85). -/
theorem tight_writeParam (s : State) (q : Param) (n : Nat) (h : (paramCauses q (s.held q) n).grants = false) : Tight s (s.writeParam q n) := by
  cases q with
  | converters => cases h
  | maxConcurrent => cases h
  | ackMode p => exact tight_setPort s p _
  | _ => exact .of_trs rfl rfl rfl

theorem tight_commitPlan (s : State) (rows : List PlanRow) : Tight s (s.commitPlan rows) := by
  have tail (x : State) : Tight x (if x.governs then (x.setPln { x.pln with selected := none, proposal := none }).selectRow false else x) := by
    split
    · exact (tight_setPln x _).trans (tight_selectRow false _)
    · exact .refl x
  exact ((tight_setPln s _).trans (tight_post _ _ _ _)).trans (tail _)

/-- A waterway table is committed in STANDBY alone (R169). -/
theorem tight_commit {s : State} {l : Load} (h : l.pos ≠ .waterway) : Tight s (s.commit l) := by
  unfold State.commit
  split
  · exact ((tight_setHead s _).trans (tight_post _ _ _ _)).trans (settleHold_effect _ _).1.tight
  · exact tight_commitPlan s _
  · rename_i hw
    exact absurd hw h

/-! ## Ports -/

theorem tight_leaveQualified (s : State) (p : Port) (st : PortState) : Tight s (s.leaveQualified p st) := by
  unfold State.leaveQualified
  dsimp only
  split
  · exact tight_setPort s p _
  · exact ((tight_setPort s p _).trans (tight_setUnit _ _ _)).trans (tight_orphanRequest _ _)

theorem tight_mismatch (s : State) (p : Port) (u : Slot) (n : Byte) :
    Tight s ((s.setPortState p .mismatch).post .portMismatch (some u) (some n.toNat)) :=
  (tight_setPort s p _).trans (tight_post _ _ _ _)

theorem tight_compareIdent (s : State) (p : Port) (u : Slot) (n : Byte) : Tight s (s.compareIdent p u n) := by
  unfold State.compareIdent
  dsimp only
  refine Tight.trans (t := s.setPort p { s.portRec p with lastMachine := some n }) (tight_setPort s p _) ?_
  generalize s.setPort p { s.portRec p with lastMachine := some n } = x
  split
  · exact tight_ite ((tight_setPort x p _).trans (tight_post _ _ _ _))
  · split
    · exact ((tight_leaveQualified x p _).trans (tight_probeNow _ p)).trans (tight_post _ _ _ _)
    · exact tight_mismatch x p u n
    · exact tight_mismatch x p u n
    · exact tight_mismatch x p u n
    · exact .refl x
    · exact .refl x

theorem tight_probeExpired (s : State) (p : Port) : Tight s (s.probeExpired p) := (tight_probeNow s p).trans (tight_ite (tight_setPort _ p _))

theorem tight_losePort (s : State) (p : Port) : Tight s (s.losePort p) :=
  ((tight_leaveQualified s p _).trans (tight_probeNow _ p)).trans (tight_post _ _ _ _)

/-! ## Steps and reports -/

theorem tight_compareDemand (s : State) (u : Slot) : Tight s (s.compareDemand u) := (quiet_compareDemand s u).tight

theorem tight_watchEmergency (s : State) (u : Slot) (m : Reported) : Tight s (s.watchEmergency u m) := by
  unfold State.watchEmergency
  split
  · exact .refl s
  · split
    · exact .refl s
    · split
      · split
        · exact .refl s
        · exact tight_sendEmergencyStop ..
      · exact (tight_setHold s u _).trans (tight_ceaseOrder _ u _)

theorem tight_acceptStatus (s : State) (u : Slot) (r : Report) (cause : Byte) : Tight s (s.acceptStatus u r cause) :=
  ((tight_setUnit s u _).trans (tight_ite ((tight_setUnit _ u _).trans (tight_post _ _ _ _)))).trans
    ((((tight_watchEmergency _ u _).trans (tight_supervise _ u _ _)).trans (tight_watchConverters _ u _ _)).trans
      (tight_ite (tight_compareDemand _ u)))

theorem tight_refuseStep (s : State) (u : Slot) (cause : Int) : Tight s (s.refuseStep u cause) := by
  rw [refuseStep_eq]
  refine ((tight_failRequest_kept s u).trans (.of_pli (refused_trs s u cause) ?_)).trans (tight_compareDemand _ u)
  exact (refused_rest s u cause).1.trans (turn_failRequest s u false).frame.cascade.pli.symm

theorem tight_ackOrder (s : State) (p : Port) (u : Slot) (q : Purpose) (accepted : Bool) (cause : Byte) :
    Tight s (s.ackOrder p u q accepted cause) := by
  have hclear : Tight s (s.clearOutstanding p) := tight_setPort s p _
  unfold State.ackOrder
  split
  · unfold State.ackSupervised
    split
    · exact .refl s
    · rename_i r hr
      split
      · exact .refl s
      · rename_i ho
        split
        · refine tight_setReq s u _ fun _ => ?_
          rw [hr]
          simp [Request.granted, not_not.mp ho]
        · exact tight_refuseStep s u _
  · split
    · exact hclear
    · exact hclear.trans (tight_post _ _ _ _)
  · exact hclear

/-- A step that has been warned goes under order (R70). -/
theorem tight_orderStep {s : State} {u : Slot} {r : Request} (hr : s.req u = some r) (hg : r.granted = true) : Tight s (s.orderStep u) := by
  unfold State.orderStep
  split
  · rename_i x p hx _
    split
    · exact .refl s
    · rename_i st _
      refine ((tight_sendOrder s p st.kind x.conv .supervised).trans (tight_setReq _ u _ fun _ => ?_)).trans (tight_post _ _ _ _)
      rw [State.req_congr (sendOrder_trs s p st.kind x.conv .supervised), hr]
      exact hg
  · exact .refl s

theorem tight_timeoutStep {s : State} {u : Slot} {r : Request} (hr : s.req u = some r) (hg : r.granted = true) (k : StepKind) :
    Tight s (s.timeoutStep u k) := by
  have hsend (x : State) : Tight x (x.sendTimeoutStop u k) := by
    unfold State.sendTimeoutStop
    split
    · exact .refl x
    · exact tight_ite (tight_sendOrder x _ _ _ _)
  exact ((((tight_failRequest hr hg true).trans (tight_setUnit _ u _)).trans (hsend _)).trans (tight_post _ _ _ _)).trans
    (tight_compareDemand _ u)

end Sys2Proof.Machine
end

section
/-! No command leaves a request that is owed a grant (O14). -/

namespace Sys2Proof.Machine

/-! ## Commands without a cascade -/

section
variable {s t : State}

/-- What makes a slot dispatchable, and its report, are the same (R7). -/
theorem dispatchable_congr (state : ∀ p, (t.portRec p).state = (s.portRec p).state) (caps : t.head.caps = s.head.caps)
    (unit : ∀ u, { t.unitRec u with expected := 0 } = { s.unitRec u with expected := 0 }) (u : Slot) :
    t.dispatchable u = s.dispatchable u ∧ t.reported u = s.reported u := by
  obtain ⟨hport, -, hreport, -, htrip, hfault, hback, -⟩ := UnitRec.mk.inj (unit u)
  have hstate : t.portState u = s.portState u := portState_congr (fun v => (UnitRec.mk.inj (unit v)).1) state u
  unfold State.dispatchable State.reported
  dsimp only
  rw [hstate, hreport, htrip, hfault, hback, caps]
  exact ⟨rfl, rfl⟩

/-- A change that neither the grant test nor the scheduler's records meet. -/
theorem GrantsWf.aside (h : GrantsWf s) (bounds : t.pli.bounds = s.pli.bounds) (governs : t.governs = s.governs) (trs : t.trs = s.trs)
    (state : ∀ p, (t.portRec p).state = (s.portRec p).state) (caps : t.head.caps = s.head.caps)
    (unit : ∀ u, { t.unitRec u with expected := 0 } = { s.unitRec u with expected := 0 }) : GrantsWf t := by
  have hreads := dispatchable_congr state caps unit
  exact grantsWf_iff.mpr fun hg u hu => grantsWf_iff.mp h (governs.symm.trans hg) u
    (owed_of_trs trs bounds (fun v => (hreads v).1) (fun v => (hreads v).2) hu)

/-- A change of blocks that neither the scheduler nor the grant test reads. -/
theorem GrantsWf.block (h : GrantsWf s) (bounds : t.pli.bounds = s.pli.bounds) (governs : t.governs = s.governs) (trs : t.trs = s.trs)
    (ports : t.ports = s.ports) (caps : t.head.caps = s.head.caps) (ros : t.ros = s.ros) : GrantsWf t :=
  h.aside bounds governs trs (fun p => by rw [State.portRec_congr ports]) caps fun u => by rw [State.unitRec_congr ros]

theorem Framed.grantsWf (h : Framed s t) (hg : GrantsWf s) : GrantsWf t :=
  hg.aside h.tight.bounds h.tight.governs h.trs (fun p => (PortRec.mk.inj (h.ports p)).1) (by rw [h.head]) fun u => by
    rw [State.unitRec_congr h.ros]

theorem grantsWf_sendNext {s : State} (p : Port) (h : GrantsWf s) : GrantsWf (s.sendNext p) := by
  have hset (x : State) (r : PortRec) (hr : r.state = (x.portRec p).state) (q : Port) :
      ((x.setPort p r).portRec q).state = (x.portRec q).state := by
    rw [State.setPort_portRec]
    split
    · rename_i hq
      rw [hr, hq]
    · rfl
  unfold State.sendNext
  split
  · exact h
  · exact h.aside (t := s.setPort p _) rfl rfl rfl (hset s _ rfl) rfl fun _ => rfl
  · rename_i f rest _ _
    have hone := h.aside (t := s.setPort p { s.portRec p with queue := rest }) rfl rfl rfl (hset s _ rfl) rfl fun _ => rfl
    exact hone.aside (t := (s.setPort p { s.portRec p with queue := rest }).beginSending p f) rfl rfl rfl (hset _ _ rfl) rfl fun _ => rfl

theorem WaterwayRec.nextPhase_settle (r : WaterwayRec) (now : Word) : (r.nextPhase now).settle = r.settle := by
  unfold WaterwayRec.nextPhase
  repeat' split
  all_goals rfl

/-- The phases of a warning hold no step back (R88). -/
theorem grantsWf_nextPhase {s : State} {w : Waterway} {r : WaterwayRec} (hr : s.waterwayRec w = some r) (h : GrantsWf s) :
    GrantsWf (s.setWaterway w (r.nextPhase s.clock)) := by
  have hframe := (TrsMicro.waterway s w r _ hr ⟨r.nextPhase_row _, .inl (r.nextPhase_inProgress s.clock).le⟩).frame.cascade.play
  have hpoorer : Poorer s (s.setWaterway w (r.nextPhase s.clock)) := by
    refine ⟨congrArg Pli.bounds hframe.pli, fun u h => (hframe.dispatchable u).symm.trans h, fun u m h => (hframe.reported u).symm.trans h,
      fun u h => by rwa [State.setWaterway_orphan] at h, fun c h => by rwa [State.setWaterway_holder] at h, hframe.waterwayOf, fun v q h => ?_,
      plantCount_le fun u => by rw [State.places, State.places, State.setWaterway_req, State.setWaterway_orphan]⟩
    rw [State.setWaterway_waterwayRec] at h
    split at h
    · rename_i hv
      rw [hv, hr] at h
      cases h
      exact ⟨r, by rw [hv, hr], (r.nextPhase_row _).symm, (r.nextPhase_inProgress _).ge, (r.nextPhase_settle _).symm.trans⟩
    · exact ⟨q, h, rfl, Nat.le_refl _, id⟩
  refine grantsWf_iff.mpr fun hg u hu => grantsWf_iff.mp h (hframe.governs.symm.trans hg) u ?_
  exact hpoorer.owed hu fun x y hx hw hc => ⟨x, by rwa [State.setWaterway_req] at hx, hw, hc⟩

end

theorem grantsWf_emergencyEvent {before s : State} (u : Slot) (h : Tight before s) (hs : OrphansWf before) (hg : GrantsWf before) :
    GrantsWf (State.emergencyEvent before s u) :=
  (h.trans (tight_emergencyStop s u)).finish hs hg

/-- Each of the events of an emergency stop of all units starts from what the one before it left (R16). -/
theorem grantsWf_emergencyAll {before s : State} (h : Tight before s) (hs : OrphansWf before) (hg : GrantsWf before) :
    GrantsWf (State.emergencyAll before s) := by
  have fold (us : List Slot) : ∀ x, OrphansWf x → GrantsWf x → GrantsWf (us.foldl (fun t u => State.emergencyEvent t t u) x) := by
    induction us with
    | nil => exact fun _ _ k => k
    | cons u us ih => exact fun x hx k => ih _ ((keeps_emergencyEvent x x u).orphans hx) (grantsWf_emergencyEvent u (.refl x) hx k)
  exact fold _ _ ((keeps_emergencyEvent before s .u1).orphans (h.orphans hs)) (grantsWf_emergencyEvent .u1 h hs hg)

theorem Did.grantsWf {s a m : State} {b : Bool} (h : Did s a b m) (hf : Framed s a) (hs : OrphansWf s) (hg : GrantsWf s) : GrantsWf m := by
  have ha : GrantsWf a := hf.grantsWf hg
  have hao : OrphansWf a := hf.tight.orphans hs
  have fin {x : State} {c : Causes} (k : Tight a x) : GrantsWf (x.finish s c) := (hf.tight.trans k).finish hs hg
  have heard := tight_acceptDispatch a
  cases h with
  | nothing _ => exact ha
  | fresh => exact grantsWf_of_standby rfl
  | restart v => exact grantsWf_of_standby (by rw [State.governs, (restartedFrom_restarted a v).1.part]; rfl)
  | sent p => exact grantsWf_sendNext p ha
  | heard => exact fin heard
  | base v i _ => exact fin (heard.trans (played_applyBase _ v i).tight)
  | reg v _ => exact fin (heard.trans (played_applyReg _ v).tight)
  | levels up low => exact fin (heard.trans (tight_applyLevels _ up low))
  | hold u m v _ => exact fin ((heard.trans (tight_setHold _ u _)).trans (settleHold_effect _ u).1.tight)
  | release u _ => exact fin (heard.trans (tight_releaseHold _ u))
  | emergency u => exact grantsWf_emergencyEvent u (hf.tight.trans heard) hs hg
  | emergencyAll => exact grantsWf_emergencyAll (hf.tight.trans heard) hs hg
  | param q v n _ _ _ =>
    cases hc : (paramCauses q (a.held q) n).grants with
    | true => exact grantsWf_finish_evaluated hc
    | false => exact ((tight_writeParam a q n hc).trans (tight_applyParam a _ q)).finish hao ha
  | loadBegin pos n _ =>
    have hsup : GrantsWf a.supersede := by
      unfold State.supersede
      split
      · exact ha
      · exact ha.block (t := a.post _ _ _) rfl rfl rfl rfl rfl rfl
    exact hsup.block (t := a.supersede.setLoad _) rfl rfl rfl rfl rfl rfl
  | loadRow l i row r b _ _ _ => exact ha.block (t := a.setLoad _) rfl rfl rfl rfl rfl rfl
  | unload => exact ha.block (t := a.setLoad none) rfl rfl rfl rfl rfl rfl
  | commit l _ barred _ _ _ =>
    by_cases hw : l.pos = .waterway
    · have hstandby : a.governs = false := by simpa [State.waterwayBarred, hw] using barred
      refine grantsWf_finish_standby ?_
      unfold State.commit
      rw [hw]
      exact hstandby
    · exact fin ((Tight.of_trs (s := a) (t := a.setLoad none) rfl rfl rfl).trans (tight_commit hw))
  | define field n count interval rep v _ => exact ha.block (t := a.setDir _) rfl rfl rfl rfl rfl rfl
  | write field first count values p _ _ => exact ha.block (t := a.setEntries p.name _) rfl rfl rfl rfl rfl rfl
  | delete n _ =>
    split
    · exact ha.block (t := (a.setDir _).setPlayback .idle) rfl rfl rfl rfl rfl rfl
    · exact ha.block (t := a.setDir _) rfl rfl rfl rfl rfl rfl
  | deleteAll => exact ha.block (t := (a.setDir []).setPlayback .idle) rfl rfl rfl rfl rfl rfl
  | play n _ => exact fin (played_play a n).tight
  | stopPlay => exact ha.block (t := a.setPlayback .idle) rfl rfl rfl rfl rfl rfl
  | edge => exact fin (played_activeEdge a).tight
  | boundary => exact fin ((played_boundary a).trans (played_pulse _)).tight
  | holdover _ => exact fin (played_holdover a).tight
  | meetPlan => exact fin (played_meetPlan a).tight
  | meetRamp => exact fin (played_meetRamp a).tight
  | pulseEnd => exact ha.block (t := a.setPrf _) rfl rfl rfl rfl rfl rfl
  | source src _ _ => exact fin (played_changeSource a src).tight
  | pattern low high period shape => exact fin (played_storePattern a _).tight
  | period r _ => exact fin (played_stepPattern a r).tight
  | enable standby =>
    refine grantsWf_finish_entered (hf.tight.governs.symm.trans standby) ?_
    rw [(enabled_pli a).1]
    rfl
  | disable =>
    refine grantsWf_of_standby ?_
    rw [State.governs, (disabled_fields a).2.2.2]
    rfl
  | resume hp =>
    refine fin ((tight_setPli a { a.pli with part := .dispatching } rfl ?_).trans (returnToDispatching_run a).tight)
    simp [hp]
  | map u p standby _ _ =>
    refine grantsWf_finish_standby ?_
    rw [State.governs, (still_remap a u p).part]
    exact standby
  | expect u n _ =>
    refine ha.aside (t := a.setUnit u _) rfl rfl rfl (fun _ => rfl) rfl fun v => ?_
    rw [State.setUnit_unitRec]
    split
    · rename_i hv
      rw [hv]
    · rfl
  | rotationSet slots _ => exact fin (.of_pli rfl rfl)
  | rotate => exact fin (.of_pli rfl rfl)
  | clear u => exact fin (tight_setUnit a u _)
  | resources u => exact grantsWf_finish_evaluated rfl
  | line first l => exact ha.block (t := a.setLine first l) rfl rfl rfl rfl rfl rfl
  | eventRead => exact ha.block (t := a.dropRead) rfl rfl rfl rfl rfl rfl
  | ident p u n _ _ => exact fin (tight_compareIdent a p u n)
  | status p u r cause _ _ => exact fin ((tight_setPort a p _).trans (tight_acceptStatus _ u r cause))
  | ack p u o accepted cause _ _ _ => exact fin (tight_ackOrder a p u _ accepted cause)
  | tick => exact fin ((tight_setPli a { a.pli with clock := a.clock + 1 } rfl Iff.rfl).trans (played_ramp _).tight)
  | linkDown => exact fin (tight_linkDown a)
  | levelStale => exact ha.block (t := (a.setHead _).post _ _ _) rfl rfl rfl rfl rfl rfl
  | dwell _ => exact fin (tight_selectRow true a)
  | backoff u => exact fin (tight_setUnit a u _)
  | lead u r hr hw => exact fin (tight_orderStep hr (by simp [Request.granted, hw]))
  | noAck u r _ _ => exact fin (tight_refuseStep a u _)
  | timeout u r k hr ho => exact fin (tight_timeoutStep hr (granted_of_ordered ho) k)
  | settled w r _ => exact grantsWf_finish_evaluated rfl
  | phase w r hr => exact grantsWf_nextPhase hr ha
  | probe p _ => exact fin (tight_probeExpired a p)
  | lost p _ => exact fin (tight_losePort a p)

end Sys2Proof.Machine

namespace Sys2Proof.Proofs
open Sys2Proof.Machine

/-- Settles O14: what a command does before the grants frees nothing without an event of R66 (`Tight`), and a grant evaluation leaves no
request that it could have granted (`evalGrants_owed`). -/
theorem stepKeepsGrants : Obligations.StepKeepsGrants := by
  unfold Obligations.StepKeepsGrants
  intro s t hs hg h
  exact step_keeps (P := fun x => OrphansWf x ∧ GrantsWf x) (fun _ _ hf hp => ⟨hf.tight.orphans hp.1, hf.grantsWf hp.2⟩)
    (fun _ _ _ _ hf hp hd => ⟨(hd.keeps hf.keeps).orphans hp.1, hd.grantsWf hf hp.1 hp.2⟩) h ⟨hs, hg⟩

end Sys2Proof.Proofs
end
